-- ==== Sys2Proof/Word.lean ====
section
/-! DEFINITION. The word types of the SK-1610 and their plainest arithmetic: the 64-bit scalar word, the 32-bit
vector lane, the byte and the 48-bit instruction word (03_instruction_words R73). -/

namespace Sys2Proof

/-- A 64-bit scalar register value (04_scalar_registers R103). -/
abbrev Word := BitVec 64

/-- A 32-bit vector lane (05_vector_registers R129). -/
abbrev Lane := BitVec 32

/-- One byte of a scratchpad or of device memory. -/
abbrev Byte := BitVec 8

/-- One 48-bit instruction word (03_instruction_words R73). -/
abbrev IWord := BitVec 48

/-- A truth value as a 64-bit word: 1 or 0. -/
def boolWord (b : Bool) : Word := if b then 1#64 else 0#64

end Sys2Proof
end

