-- ==== Sys2Proof/Machine/Crypto.lean ====
section
/-! DEFINITION. The cryptographic functions that the spec names (00 R11, 08 R201, 10 R266, 17 R435): AES-256 and its CMAC, SHA-256,
SHA-384, HMAC-SHA-384 and HKDF-Expand, as their standards define them (log entry 4). A string of bytes is its length and its
little-endian value, as it stands in memory. -/

namespace Sys2Proof.Machine

/-- The bytes of a string. -/
def bytesOf (n v : Nat) : List Nat := (List.range n).map fun i => v / 2 ^ (8 * i) % 256

/-- The little-endian value of a list of bytes. -/
def bytesVal (l : List Nat) : Nat := l.foldr (fun b n => b + 256 * n) 0

/-- The big-endian value of a list of bytes. -/
def bytesBig (l : List Nat) : Nat := l.foldl (fun n b => 256 * n + b) 0

/-- A list cut into pieces of `k` elements, `n` of them. -/
def pieces {α : Type} (k : Nat) : Nat → List α → List (List α)
  | 0, _ => []
  | n + 1, l => l.take k :: pieces k n (l.drop k)

/-- Element-wise exclusive or. -/
def xorBytes (a b : List Nat) : List Nat := List.zipWith (· ^^^ ·) a b

/-- The AES S-box: byte `x` of this number. -/
def sboxBits : Nat :=
  0x16BB54B00F2D99416842E6BF0D89A18CDF2855CEE9871E9B948ED9691198F8E19E1DC186B95735610EF6034866B53E708A8BBD4B1F74DDE8C6B4A61C2E2578BA * 2 ^ 1536 +
  0x08AE7A65EAF4566CA94ED58D6D37C8E779E4959162ACD3C25C2406490A3A32E0DB0B5EDE14B8EE4688902A22DC4F816073195D643D7EA7C41744975FEC130CCD * 2 ^ 1024 +
  0xD2F3FF1021DAB6BCF5389D928F40A351A89F3C507F02F94585334D43FBAAEFD0CF584C4A39BECB6A5BB1FC20ED00D153842FE329B3D63B52A05A6E1B1A2C8309 * 2 ^ 512 +
  0x75B227EBE28012079A059618C323C7041531D871F1E5A534CCF73F362693FDB7C072A49CAFA2D4ADF04759FA7DC982CA76ABD7FE2B670130C56F6BF27B777C63

def sbox (x : Nat) : Nat := sboxBits / 2 ^ (8 * x) % 256

/-- Multiplication by x in the field of AES. -/
def xtime (x : Nat) : Nat := if x < 128 then 2 * x else (2 * x) ^^^ 0x11B

/-- The first 60 words of the key schedule of AES-256, the newest first, from 8 words. -/
def expandKey : Nat → Nat → Nat → List (List Nat) → List (List Nat)
  | 0, _, _, ws => ws
  | n + 1, i, rcon, ws =>
    let prev := ws.headD []
    let old := ws.getD 7 []
    if i % 8 = 0 then
      let t := (prev.drop 1 ++ prev.take 1).map sbox
      expandKey n (i + 1) (xtime rcon) (xorBytes old (xorBytes t [rcon, 0, 0, 0]) :: ws)
    else if i % 8 = 4 then expandKey n (i + 1) rcon (xorBytes old (prev.map sbox) :: ws)
    else expandKey n (i + 1) rcon (xorBytes old prev :: ws)

/-- The 15 round keys of a 32-byte key. -/
def roundKeys (key : List Nat) : List (List Nat) :=
  pieces 16 15 (expandKey 52 8 1 (pieces 4 8 key).reverse).reverse.flatten

/-- Rows of the state move left by their number; byte 4c + r stands in row r of column c. -/
def shiftRows (s : List Nat) : List Nat := (List.range 16).map fun i => s.getD ((i + 4 * (i % 4)) % 16) 0

/-- One column of MixColumns. -/
def mixColumn (c : List Nat) : List Nat :=
  (List.range 4).map fun r =>
    let a (k : Nat) : Nat := c.getD ((r + k) % 4) 0
    xtime (a 0) ^^^ (xtime (a 1) ^^^ a 1) ^^^ a 2 ^^^ a 3

/-- The rounds of AES over a state; the last one does not mix columns. -/
def aesRounds : List (List Nat) → List Nat → List Nat
  | [], s => s
  | [k], s => xorBytes (shiftRows (s.map sbox)) k
  | k :: t, s => aesRounds t (xorBytes (((pieces 4 4 (shiftRows (s.map sbox))).map mixColumn).flatten) k)

/-- AES-256 of one block under round keys. -/
def aesBlock (ks : List (List Nat)) (b : List Nat) : List Nat :=
  match ks with
  | k :: t => aesRounds t (xorBytes b k)
  | [] => b

/-- Doubling in the field of CMAC, on a block of bytes. -/
def cmacDouble (b : List Nat) : List Nat :=
  let v := bytesBig b
  let d := (2 * v) % 2 ^ 128 ^^^ (if 2 ^ 127 ≤ v then 0x87 else 0)
  (bytesOf 16 d).reverse

/-- CBC-MAC over blocks. -/
def cbcMac (ks : List (List Nat)) : List (List Nat) → List Nat → List Nat
  | [], x => x
  | b :: t, x => cbcMac ks t (aesBlock ks (xorBytes x b))

/-- CMAC-AES-256 of `n` bytes under a 32-byte key: 16 bytes, as a little-endian value. -/
def cmac (key n v : Nat) : Nat :=
  let ks := roundKeys (bytesOf 32 key)
  let k1 := cmacDouble (aesBlock ks (List.replicate 16 0))
  let full := decide (0 < n ∧ n % 16 = 0)
  let m := if full then bytesOf n v else bytesOf n v ++ [0x80] ++ List.replicate (15 - n % 16) 0
  let blocks := pieces 16 (m.length / 16) m
  let last := xorBytes (blocks.getLastD []) (if full then k1 else cmacDouble k1)
  bytesVal (cbcMac ks (blocks.dropLast ++ [last]) (List.replicate 16 0))

/-- Round constants and initial values of SHA-256 and SHA-384. -/
def shaK32 : List (BitVec 32) :=
  [0x428A2F98, 0x71374491, 0xB5C0FBCF, 0xE9B5DBA5, 0x3956C25B, 0x59F111F1, 0x923F82A4, 0xAB1C5ED5] ++
  [0xD807AA98, 0x12835B01, 0x243185BE, 0x550C7DC3, 0x72BE5D74, 0x80DEB1FE, 0x9BDC06A7, 0xC19BF174] ++
  [0xE49B69C1, 0xEFBE4786, 0x0FC19DC6, 0x240CA1CC, 0x2DE92C6F, 0x4A7484AA, 0x5CB0A9DC, 0x76F988DA] ++
  [0x983E5152, 0xA831C66D, 0xB00327C8, 0xBF597FC7, 0xC6E00BF3, 0xD5A79147, 0x06CA6351, 0x14292967] ++
  [0x27B70A85, 0x2E1B2138, 0x4D2C6DFC, 0x53380D13, 0x650A7354, 0x766A0ABB, 0x81C2C92E, 0x92722C85] ++
  [0xA2BFE8A1, 0xA81A664B, 0xC24B8B70, 0xC76C51A3, 0xD192E819, 0xD6990624, 0xF40E3585, 0x106AA070] ++
  [0x19A4C116, 0x1E376C08, 0x2748774C, 0x34B0BCB5, 0x391C0CB3, 0x4ED8AA4A, 0x5B9CCA4F, 0x682E6FF3] ++
  [0x748F82EE, 0x78A5636F, 0x84C87814, 0x8CC70208, 0x90BEFFFA, 0xA4506CEB, 0xBEF9A3F7, 0xC67178F2]
def shaK64 : List (BitVec 64) :=
  [0x428A2F98D728AE22, 0x7137449123EF65CD, 0xB5C0FBCFEC4D3B2F, 0xE9B5DBA58189DBBC] ++
  [0x3956C25BF348B538, 0x59F111F1B605D019, 0x923F82A4AF194F9B, 0xAB1C5ED5DA6D8118] ++
  [0xD807AA98A3030242, 0x12835B0145706FBE, 0x243185BE4EE4B28C, 0x550C7DC3D5FFB4E2] ++
  [0x72BE5D74F27B896F, 0x80DEB1FE3B1696B1, 0x9BDC06A725C71235, 0xC19BF174CF692694] ++
  [0xE49B69C19EF14AD2, 0xEFBE4786384F25E3, 0x0FC19DC68B8CD5B5, 0x240CA1CC77AC9C65] ++
  [0x2DE92C6F592B0275, 0x4A7484AA6EA6E483, 0x5CB0A9DCBD41FBD4, 0x76F988DA831153B5] ++
  [0x983E5152EE66DFAB, 0xA831C66D2DB43210, 0xB00327C898FB213F, 0xBF597FC7BEEF0EE4] ++
  [0xC6E00BF33DA88FC2, 0xD5A79147930AA725, 0x06CA6351E003826F, 0x142929670A0E6E70] ++
  [0x27B70A8546D22FFC, 0x2E1B21385C26C926, 0x4D2C6DFC5AC42AED, 0x53380D139D95B3DF] ++
  [0x650A73548BAF63DE, 0x766A0ABB3C77B2A8, 0x81C2C92E47EDAEE6, 0x92722C851482353B] ++
  [0xA2BFE8A14CF10364, 0xA81A664BBC423001, 0xC24B8B70D0F89791, 0xC76C51A30654BE30] ++
  [0xD192E819D6EF5218, 0xD69906245565A910, 0xF40E35855771202A, 0x106AA07032BBD1B8] ++
  [0x19A4C116B8D2D0C8, 0x1E376C085141AB53, 0x2748774CDF8EEB99, 0x34B0BCB5E19B48A8] ++
  [0x391C0CB3C5C95A63, 0x4ED8AA4AE3418ACB, 0x5B9CCA4F7763E373, 0x682E6FF3D6B2B8A3] ++
  [0x748F82EE5DEFB2FC, 0x78A5636F43172F60, 0x84C87814A1F0AB72, 0x8CC702081A6439EC] ++
  [0x90BEFFFA23631E28, 0xA4506CEBDE82BDE9, 0xBEF9A3F7B2C67915, 0xC67178F2E372532B] ++
  [0xCA273ECEEA26619C, 0xD186B8C721C0C207, 0xEADA7DD6CDE0EB1E, 0xF57D4F7FEE6ED178] ++
  [0x06F067AA72176FBA, 0x0A637DC5A2C898A6, 0x113F9804BEF90DAE, 0x1B710B35131C471B] ++
  [0x28DB77F523047D84, 0x32CAAB7B40C72493, 0x3C9EBE0A15C9BEBC, 0x431D67C49C100D4C] ++
  [0x4CC5D4BECB3E42B6, 0x597F299CFC657E2A, 0x5FCB6FAB3AD6FAEC, 0x6C44198C4A475817]
def sha256Init : List (BitVec 32) :=
  [0x6A09E667, 0xBB67AE85, 0x3C6EF372, 0xA54FF53A, 0x510E527F, 0x9B05688C, 0x1F83D9AB, 0x5BE0CD19]
def sha384Init : List (BitVec 64) :=
  [0xCBBB9D5DC1059ED8, 0x629A292A367CD507, 0x9159015A3070DD17, 0x152FECD8F70E5939] ++
  [0x67332667FFC00B31, 0x8EB44A8768581511, 0xDB0C2E0D64F98FA7, 0x47B5481DBEFA4FA4]

/-- A message padded to blocks of `b` bytes, with its length in bits in the last `l` of them. -/
def shaPad (b l n v : Nat) : List Nat :=
  let z := (2 * b - 1 - l - n % b) % b
  bytesOf n v ++ [0x80] ++ List.replicate z 0 ++ (bytesOf l (8 * n)).reverse

/-- The parameters of a SHA-2 function: the rotations and shifts of its four sigma functions, its round constants. -/
structure ShaPar (w : Nat) where
  s0 : Nat × Nat × Nat
  s1 : Nat × Nat × Nat
  b0 : Nat × Nat × Nat
  b1 : Nat × Nat × Nat
  ks : List (BitVec w)

/-- Three rotations, or two and a shift. -/
def rot3 {w : Nat} (x : BitVec w) (r : Nat × Nat × Nat) : BitVec w := x.rotateRight r.1 ^^^ x.rotateRight r.2.1 ^^^ x.rotateRight r.2.2
def rot2 {w : Nat} (x : BitVec w) (r : Nat × Nat × Nat) : BitVec w := x.rotateRight r.1 ^^^ x.rotateRight r.2.1 ^^^ (x >>> r.2.2)

/-- The message schedule, the newest word first, `n` words more. -/
def shaWords {w : Nat} (p : ShaPar w) : Nat → List (BitVec w) → List (BitVec w)
  | 0, ws => ws
  | n + 1, ws => shaWords p n ((rot2 (ws.getD 1 0) p.s1 + ws.getD 6 0 + rot2 (ws.getD 14 0) p.s0 + ws.getD 15 0) :: ws)

/-- One round on the eight working words. -/
def shaRound {w : Nat} (p : ShaPar w) (h : List (BitVec w)) (kw : BitVec w × BitVec w) : List (BitVec w) :=
  match h with
  | [a, b, c, d, e, f, g, x] =>
    let t1 := x + rot3 e p.b1 + ((e &&& f) ^^^ (~~~ e &&& g)) + kw.1 + kw.2
    let t2 := rot3 a p.b0 + ((a &&& b) ^^^ (a &&& c) ^^^ (b &&& c))
    [t1 + t2, a, b, c, d + t1, e, f, g]
  | l => l

/-- The compression of one block. -/
def shaBlock {w : Nat} (p : ShaPar w) (h : List (BitVec w)) (block : List Nat) : List (BitVec w) :=
  let m := (pieces (w / 8) 16 block).map fun l => BitVec.ofNat w (bytesBig l)
  let ws := (shaWords p (p.ks.length - 16) m.reverse).reverse
  List.zipWith (· + ·) h ((p.ks.zip ws).foldl (shaRound p) h)

/-- The words after all blocks of a padded message. -/
def shaRun {w : Nat} (p : ShaPar w) (init : List (BitVec w)) (m : List Nat) : List (BitVec w) :=
  (pieces (2 * w) (m.length / (2 * w)) m).foldl (shaBlock p) init

/-- The first words of a digest as one number, the first one highest. -/
def shaOut {w : Nat} (n : Nat) (l : List (BitVec w)) : BitVec (n * w) :=
  BitVec.ofNat (n * w) ((l.take n).foldl (fun v x => v * 2 ^ w + x.toNat) 0)

/-- SHA-256 of `n` bytes; bit 255 is the first bit of byte 0. -/
def sha256 (n v : Nat) : BitVec 256 :=
  shaOut 8 (shaRun ⟨(7, 18, 3), (17, 19, 10), (2, 13, 22), (6, 11, 25), shaK32⟩ sha256Init (shaPad 64 8 n v))

/-- SHA-384 of `n` bytes; bit 383 is the first bit of byte 0. -/
def sha384 (n v : Nat) : BitVec 384 :=
  shaOut 6 (shaRun ⟨(1, 8, 7), (19, 61, 6), (28, 34, 39), (14, 18, 41), shaK64⟩ sha384Init (shaPad 128 16 n v))

/-- A SHA-384 digest as the little-endian value of its 48 bytes. -/
def digestNat (d : BitVec 384) : Nat := bytesVal ((bytesOf 48 d.toNat).reverse)

/-- HMAC-SHA-384 of `n` bytes under a key of 48 bytes: 48 bytes, as a little-endian value. -/
def hmac384 (key n v : Nat) : Nat :=
  let pad (x : Nat) : Nat := bytesVal ((bytesOf 48 key ++ List.replicate 80 0).map (· ^^^ x))
  let inner := digestNat (sha384 (128 + n) (pad 0x36 + v % 2 ^ (8 * n) * 2 ^ 1024))
  digestNat (sha384 176 (pad 0x5C + inner * 2 ^ 1024))

/-- HKDF-Expand with SHA-384: the first block of 48 bytes, for an info of `n` bytes. -/
def hkdf384 (key n v : Nat) : Nat := hmac384 key (n + 1) (v % 2 ^ (8 * n) + 2 ^ (8 * n))

end Sys2Proof.Machine
end

