-- ==== Sys2Proof/Machine/Num.lean ====
section
/-! DEFINITION. Number formats and arithmetic (02_number_formats): the format codes (R42), exact dyadic values,
the one rounding function of every conversion and result (R50 to R53), conversions between formats (R54 to R57)
and the exact operations that results are rounded from (R58). -/

namespace Sys2Proof.Machine

/-- The formats of R42 that have a code. -/
inductive Fmt where
  | fp32 | bf16 | fp16 | e4m3 | e5m2 | int32 | int16 | int8 | uint8 | int4 | qn4 | xsum | handle | raw8
  deriving DecidableEq, Repr

/-- The format that a 6-bit code names; none for a reserved code (R42, R43). -/
def fmtOfCode (c : Nat) : Option Fmt :=
  match c with
  | 0 => some .fp32 | 1 => some .bf16 | 2 => some .fp16 | 3 => some .e4m3 | 4 => some .e5m2
  | 5 => some .int32 | 6 => some .int16 | 7 => some .int8 | 8 => some .uint8 | 9 => some .int4
  | 10 => some .qn4 | 11 => some .xsum | 12 => some .handle | 13 => some .raw8
  | _ => none

/-- Bits of one element (R42); QN4 indices take 4 bits, XSUM has no single element size (R43). -/
def fmtBits : Fmt → Nat
  | .fp32 => 32 | .bf16 => 16 | .fp16 => 16 | .e4m3 => 8 | .e5m2 => 8
  | .int32 => 32 | .int16 => 16 | .int8 => 8 | .uint8 => 8 | .int4 => 4
  | .qn4 => 4 | .xsum => 32 | .handle => 512 | .raw8 => 8

/-- Is the format one of the five floating-point formats of R45? -/
def fmtIsFloat : Fmt → Bool
  | .fp32 | .bf16 | .fp16 | .e4m3 | .e5m2 => true
  | _ => false

/-- Is the format one of the integer formats of R49? -/
def fmtIsInt : Fmt → Bool
  | .int32 | .int16 | .int8 | .uint8 | .int4 => true
  | _ => false

/-- The layout of a floating-point format (R45, R46): exponent bits, stored significand bits, bias, the code of
the largest finite value, the code of +infinity (none in E4M3) and the canonical NaN. -/
structure FloatSpec where
  expBits : Nat
  manBits : Nat
  bias : Nat
  maxCode : Nat
  infCode : Option Nat
  nanCode : Nat
  deriving DecidableEq, Repr

/-- R45 and R46 as data; the row of FP32 for a format that is not floating point. -/
def floatSpec : Fmt → FloatSpec
  | .bf16 => ⟨8, 7, 127, 0x7F7F, some 0x7F80, 0x7FC0⟩
  | .fp16 => ⟨5, 10, 15, 0x7BFF, some 0x7C00, 0x7E00⟩
  | .e4m3 => ⟨4, 3, 7, 0x7E, none, 0x7F⟩
  | .e5m2 => ⟨5, 2, 15, 0x7B, some 0x7C, 0x7E⟩
  | _ => ⟨8, 23, 127, 0x7F7FFFFF, some 0x7F800000, 0x7FC00000⟩

/-- An exact value: a NaN, an infinity, or (−1)^neg × m × 2^e. -/
inductive FVal where
  | nan
  | inf (neg : Bool)
  | fin (neg : Bool) (m : Nat) (e : Int)
  deriving DecidableEq, Repr

/-- The value of a floating-point encoding (R45, R46). -/
def fdecode (f : FloatSpec) (bits : Nat) : FVal :=
  let man := bits % 2 ^ f.manBits
  let ex := (bits / 2 ^ f.manBits) % 2 ^ f.expBits
  let neg := decide ((bits / 2 ^ (f.manBits + f.expBits)) % 2 = 1)
  let mag := bits % 2 ^ (f.manBits + f.expBits)
  let qmin : Int := 1 - (f.bias : Int) - (f.manBits : Int)
  if mag ≤ f.maxCode then
    if ex = 0 then .fin neg man qmin
    else .fin neg (man + 2 ^ f.manBits) (qmin + ((ex : Int) - 1))
  else if f.infCode = some mag then .inf neg
  else .nan

/-- Rounding modes of R50. -/
inductive RMode where
  | rne | rtz | rup | rdn | sr
  deriving DecidableEq, Repr

/-- The mode of a 3-bit code; none for a reserved code (R50). -/
def rmodeOfCode (c : Nat) : Option RMode :=
  match c with
  | 0 => some .rne | 1 => some .rtz | 2 => some .rup | 3 => some .rdn | 4 => some .sr
  | _ => none

/-- Does the mode round the magnitude `n + rem/2^sh` up to `n + 1` (R50, R51)? `draw` is the 16-bit r of R51 and
`top` marks `n` as the largest finite value, whose half-way point overflows (R52). -/
def roundUp (mode : RMode) (draw : Nat) (neg top : Bool) (n rem sh : Nat) : Bool :=
  match mode with
  | .rne => decide (2 ^ sh < 2 * rem) || (decide (2 * rem = 2 ^ sh) && (decide (n % 2 = 1) || top))
  | .rtz => false
  | .rup => !neg && decide (rem ≠ 0)
  | .rdn => neg && decide (rem ≠ 0)
  | .sr => decide (rem ≠ 0) && decide (draw < 2 ^ 16 * rem / 2 ^ sh)

/-- The sign bit of a format set in `mag`. -/
def withSign (f : FloatSpec) (neg : Bool) (mag : Nat) : Nat :=
  if neg then mag + 2 ^ (f.manBits + f.expBits) else mag

/-- An overflowing result (R52): infinity, the canonical NaN of E4M3, or the largest finite value under SAT. -/
def overflowCode (f : FloatSpec) (sat neg : Bool) : Nat :=
  if sat then withSign f neg f.maxCode
  else match f.infCode with
    | some c => withSign f neg c
    | none => f.nanCode

/-- Round the exact value (−1)^neg × m × 2^e once to the format (R50 to R53); also whether it overflowed. -/
def roundFin (f : FloatSpec) (mode : RMode) (sat : Bool) (draw : Nat) (neg : Bool) (m : Nat) (e : Int) :
    Nat × Bool :=
  if m = 0 then (withSign f neg 0, false)
  else
    let qmin : Int := 1 - (f.bias : Int) - (f.manBits : Int)
    let qn : Int := (Nat.log2 m : Int) + e - (f.manBits : Int)
    let q : Int := if qn < qmin then qmin else qn
    let sh : Int := q - e
    let n : Nat := if 0 ≤ sh then m / 2 ^ sh.toNat else m * 2 ^ (-sh).toNat
    let rem : Nat := if 0 ≤ sh then m % 2 ^ sh.toNat else 0
    let base : Nat := (q - qmin).toNat * 2 ^ f.manBits + n
    let code := if roundUp mode draw neg (decide (base = f.maxCode)) n rem sh.toNat then base + 1 else base
    if code ≤ f.maxCode then (withSign f neg code, false)
    else match mode with
      | .rtz => (withSign f neg f.maxCode, false)
      | .rup => if neg then (withSign f neg f.maxCode, false) else (overflowCode f sat neg, true)
      | .rdn => if neg then (overflowCode f sat neg, true) else (withSign f neg f.maxCode, false)
      | _ => (overflowCode f sat neg, true)

/-- Encode an exact value in a format (R47, R52, R53); also whether a finite value overflowed. -/
def fencodeFlag (f : FloatSpec) (mode : RMode) (sat : Bool) (draw : Nat) (v : FVal) : Nat × Bool :=
  match v with
  | .nan => (f.nanCode, false)
  | .inf neg => (overflowCode f sat neg, false)
  | .fin neg m e => roundFin f mode sat draw neg m e

/-- The encoding alone. -/
def fencode (f : FloatSpec) (mode : RMode) (sat : Bool) (draw : Nat) (v : FVal) : Nat :=
  (fencodeFlag f mode sat draw v).1

/-- An arithmetic result: rounded once under RNE with SAT = 0 (R58). -/
def fresult (f : FloatSpec) (v : FVal) : Nat := fencode f .rne false 0 v

/-- The bits of FP32 (R45). -/
def f32 : FloatSpec := floatSpec .fp32

/-- Negation of an exact value. -/
def fvNeg : FVal → FVal
  | .nan => .nan
  | .inf n => .inf (!n)
  | .fin n m e => .fin (!n) m e

/-- Signed numerator of m × 2^e against the lower exponent `q`. -/
def fvScaled (neg : Bool) (m : Nat) (e q : Int) : Int :=
  let k : Int := (m * 2 ^ (e - q).toNat : Nat)
  if neg then -k else k

/-- Exact sum, with the IEEE 754 rules for infinities and for the sign of a zero sum under RNE (R58). -/
def fvAdd : FVal → FVal → FVal
  | .nan, _ => .nan
  | _, .nan => .nan
  | .inf a, .inf b => if a = b then .inf a else .nan
  | .inf a, .fin .. => .inf a
  | .fin .., .inf b => .inf b
  | .fin na ma ea, .fin nb mb eb =>
    let q : Int := if ea < eb then ea else eb
    let t := fvScaled na ma ea q + fvScaled nb mb eb q
    if t = 0 then .fin (na && nb) 0 q
    else .fin (decide (t < 0)) t.natAbs q

/-- Exact product (R58). -/
def fvMul : FVal → FVal → FVal
  | .nan, _ => .nan
  | _, .nan => .nan
  | .inf a, .inf b => .inf (a != b)
  | .inf a, .fin nb mb _ => if mb = 0 then .nan else .inf (a != nb)
  | .fin na ma _, .inf b => if ma = 0 then .nan else .inf (na != b)
  | .fin na ma ea, .fin nb mb eb => .fin (na != nb) (ma * mb) (ea + eb)

/-- a × b + c, exact (R58: a fused multiply-add rounds once). -/
def fvFma (a b c : FVal) : FVal := fvAdd (fvMul a b) c

/-- Quotient, kept to 70 bits beyond the divisor's size with the remainder folded into a last sticky bit, so that
one RNE rounding of it equals the rounding of the exact quotient (R58). -/
def fvDiv : FVal → FVal → FVal
  | .nan, _ => .nan
  | _, .nan => .nan
  | .inf _, .inf _ => .nan
  | .inf a, .fin nb _ _ => .inf (a != nb)
  | .fin na _ _, .inf b => .fin (na != b) 0 0
  | .fin na ma ea, .fin nb mb eb =>
    if mb = 0 then (if ma = 0 then .nan else .inf (na != nb))
    else if ma = 0 then .fin (na != nb) 0 0
    else
      let k := 70 + Nat.log2 mb
      let q := ma * 2 ^ k / mb
      let st := if ma * 2 ^ k % mb = 0 then 0 else 1
      .fin (na != nb) (2 * q + st) (ea - eb - k - 1)

/-- One bit of the integer square root at a time: `r` such that r² ≤ x, from bit `n`−1 down. -/
def natSqrtGo (x : Nat) : Nat → Nat → Nat
  | 0, r => r
  | n + 1, r =>
    let c := r + 2 ^ n
    natSqrtGo x n (if c * c ≤ x then c else r)

/-- floor(sqrt x). -/
def natSqrt (x : Nat) : Nat := natSqrtGo x (Nat.log2 x / 2 + 1) 0

/-- Square root to more than 64 bits with a sticky bit (R58). -/
def fvSqrt : FVal → FVal
  | .nan => .nan
  | .inf neg => if neg then .nan else .inf false
  | .fin neg m e =>
    if m = 0 then .fin neg 0 0
    else if neg then .nan
    else
      let odd : Nat := if e % 2 = 0 then 0 else 1
      let x := m * 2 ^ (128 + odd)
      let r := natSqrt x
      let st := if r * r = x then 0 else 1
      .fin false (2 * r + st) ((e - 128 - odd) / 2 - 1)

/-- Exact order of two values that are no NaN: −1, 0 or 1. Zeros of both signs are equal. -/
def fvCmp : FVal → FVal → Int
  | .inf a, .inf b => if a = b then 0 else if a then -1 else 1
  | .inf a, _ => if a then -1 else 1
  | _, .inf b => if b then 1 else -1
  | .fin na ma ea, .fin nb mb eb =>
    let q : Int := if ea < eb then ea else eb
    let x := fvScaled na ma ea q
    let y := fvScaled nb mb eb q
    if x < y then -1 else if x = y then 0 else 1
  | _, _ => 0

/-- Is the value a NaN? -/
def fvIsNan : FVal → Bool
  | .nan => true
  | _ => false

/-- Two's complement value of the low `n` bits. -/
def sintOf (n : Nat) (bits : Nat) : Int :=
  let b := bits % 2 ^ n
  if b < 2 ^ (n - 1) then (b : Int) else (b : Int) - (2 ^ n : Nat)

/-- The value of an integer element (R49). -/
def intDecode (f : Fmt) (bits : Nat) : Int :=
  match f with
  | .uint8 => ((bits % 256 : Nat) : Int)
  | f => sintOf (fmtBits f) bits

/-- The range of an integer format (R49). -/
def intRange (f : Fmt) : Int × Int :=
  match f with
  | .uint8 => (0, 255)
  | f => (-((2 ^ (fmtBits f - 1) : Nat) : Int), ((2 ^ (fmtBits f - 1) : Nat) : Int) - 1)

/-- The low bits of an integer in a format. -/
def intEncode (f : Fmt) (v : Int) : Nat := (v % ((2 ^ fmtBits f : Nat) : Int)).toNat

/-- Clamp to a range. -/
def clampInt (lo hi v : Int) : Int := if v < lo then lo else if hi < v then hi else v

/-- Round an exact value to an integer under a mode (R55). -/
def roundToInt (mode : RMode) (draw : Nat) (neg : Bool) (m : Nat) (e : Int) : Int :=
  let n : Nat := if 0 ≤ e then m * 2 ^ e.toNat else m / 2 ^ (-e).toNat
  let rem : Nat := if 0 ≤ e then 0 else m % 2 ^ (-e).toNat
  let r := if roundUp mode draw neg false n rem (-e).toNat then n + 1 else n
  if neg then -(r : Int) else (r : Int)

/-- The exact value of an integer. -/
def fvOfInt (v : Int) : FVal := .fin (decide (v < 0)) v.natAbs 0

/-- Conversion of one element (R54 to R57): the destination bits, and whether the value lay outside the
destination's range (an overflow of R52, a clamp or a dropped high part of R55 and R56). -/
def convElem (src dst : Fmt) (mode : RMode) (sat : Bool) (draw : Nat) (bits : Nat) : Nat × Bool :=
  if fmtIsFloat src then
    let v := fdecode (floatSpec src) bits
    if fmtIsFloat dst then
      if src = dst then
        match v with
        | .nan => ((floatSpec dst).nanCode, false)
        | .inf neg => (overflowCode (floatSpec dst) sat neg, false)
        | .fin .. => (bits % 2 ^ fmtBits src, false)
      else fencodeFlag (floatSpec dst) mode sat draw v
    else
      let lo := (intRange dst).1
      let hi := (intRange dst).2
      match v with
      | .nan => (0, false)
      | .inf neg => (intEncode dst (if neg then lo else hi), false)
      | .fin neg m e =>
        let r := roundToInt mode draw neg m e
        (intEncode dst (clampInt lo hi r), decide (r < lo) || decide (hi < r))
  else
    let v := intDecode src bits
    if fmtIsFloat dst then fencodeFlag (floatSpec dst) mode sat draw (fvOfInt v)
    else
      let lo := (intRange dst).1
      let hi := (intRange dst).2
      let out := decide (v < lo) || decide (hi < v)
      if sat then (intEncode dst (clampInt lo hi v), out) else (intEncode dst v, out)

/-- The stochastic-rounding draw r of R51 for element i of the word with sequence number seq. -/
def srDraw (seed : Word) (seq i : Nat) : Nat :=
  let z0 : Word := seed ^^^ (BitVec.ofNat 64 seq <<< 16) ^^^ BitVec.ofNat 64 i
  let z1 : Word := (z0 ^^^ (z0 >>> 30)) * 0xBF58476D1CE4E5B9#64
  let z2 : Word := (z1 ^^^ (z1 >>> 27)) * 0x94D049BB133111EB#64
  let z3 : Word := z2 ^^^ (z2 >>> 31)
  z3.toNat % 65536

/-- The QN4 levels L × 64 (R59). -/
def qnLevel (idx : Nat) : Int :=
  match idx % 16 with
  | 0 => -64 | 1 => -44 | 2 => -32 | 3 => -26 | 4 => -18 | 5 => -12 | 6 => -6 | 7 => 0
  | 8 => 5 | 9 => 10 | 10 => 15 | 11 => 22 | 12 => 28 | 13 => 36 | 14 => 44 | _ => 64

/-- The exact level L[idx] (R59). -/
def qnValue (idx : Nat) : FVal :=
  let v := qnLevel idx
  .fin (decide (v < 0)) v.natAbs (-6)

/-- floor(log2 |x|) of a non-zero exact value m × 2^e. -/
def floorLog2 (m : Nat) (e : Int) : Int := (Nat.log2 m : Int) + e

/-- ceil(a / b) of naturals, 0 where b is 0. -/
def ceilDiv (a b : Nat) : Nat := if b = 0 then 0 else (a + b - 1) / b

end Sys2Proof.Machine
end

