-- ==== Sys2Proof/Config.lean ====
section
/-! DEFINITION. What an implementation fixes and what the spec leaves open: free values and uninterpreted functions.
Each has no body, so that nothing can be proved of its values; log entries name each of them. -/

namespace Sys2Proof.Config

/-- A free value where the spec leaves one open: the use it is for, and a counter of the state (log entry 1). -/
opaque freeValue : Nat → Nat → BitVec 64

/-- A keyed function of the crypto engine whose inputs the spec does not all give, a signature or GCM: operation, key slot contents, and
message (17 R435; log entry 5). -/
opaque keyed : Nat → Nat → Nat → Nat

/-- Whether a signature verifies: operation, key, hash and signature (17 R435; log entry 5). -/
opaque verifies : Nat → Nat → Nat → Nat → Bool

end Sys2Proof.Config
end

