-- ==== Sys2Proof/Syntax.lean ====
section
/-! DEFINITION. The instructions of the SK-1610 as syntax: the operand structure of every instruction word
(03_instruction_words R78 to R81 and the tables of the home chapters) and of every event of the opcode table
(95_what_each_step_holds), and the one inductive `Instr` with one constructor for each row of the table.
Register fields hold register numbers; an engine word that has been enqueued holds physical numbers (R92). -/

namespace Sys2Proof

/-- Operands of ADD. -/
structure AddOp where
  (sd sa sb : BitVec 6)
  lsl : BitVec 3
  deriving DecidableEq, Repr

/-- Operands of SUB, MUL, MULH, MULHU, DIV, DIVU, REM, REMU, AND, OR, XOR, ANDN, SHL, SHR, SAR, MIN, MAX, MINU, MAXU, SLT, SLTU, SEQ, FADD, FSUB, FMUL, FDIV, FMIN, FMAX. -/
structure RRR where
  (sd sa sb : BitVec 6)
  deriving DecidableEq, Repr

/-- Operands of CLZ, CTZ, POPC, MOV, FSQRT, FCLASS, JALR, WAITEV. -/
structure RR where
  (sd sa : BitVec 6)
  deriving DecidableEq, Repr

/-- Operands of SEXT, ZEXT. -/
structure ExtOp where
  (sd sa wm1 : BitVec 6)
  deriving DecidableEq, Repr

/-- Operands of BFX. -/
structure BfxOp where
  (sd sa wm1 pos : BitVec 6)
  deriving DecidableEq, Repr

/-- Operands of BFI. -/
structure BfiOp where
  (sd sa sb wm1 pos : BitVec 6)
  deriving DecidableEq, Repr

/-- Operands of ADD_SI, AND_SI, OR_SI, XOR_SI, MIN_SI, MAX_SI, SLT_SI, SLTU_SI, SEQ_SI. -/
structure RRI where
  (sd sa : BitVec 6)
  imm : BitVec 26
  deriving DecidableEq, Repr

/-- Operands of SHL_SI, SHR_SI, SAR_SI. -/
structure ShiftImm where
  (sd sa cnt : BitVec 6)
  deriving DecidableEq, Repr

/-- Operands of LD, LDU, ST. -/
structure MemOp where
  (sd sa : BitVec 6)
  z : BitVec 2
  off : BitVec 24
  deriving DecidableEq, Repr

/-- Operands of LI, LIH. -/
structure LiOp where
  sd : BitVec 6
  imm : BitVec 32
  deriving DecidableEq, Repr

/-- Operands of FFMA. -/
structure RRRR where
  (sd sa sb sc : BitVec 6)
  deriving DecidableEq, Repr

/-- Operands of FCMP. -/
structure FcmpOp where
  (sd sa sb : BitVec 6)
  cond : BitVec 3
  deriving DecidableEq, Repr

/-- Operands of FCVT. -/
structure FcvtOp where
  (sd sa : BitVec 6)
  sat : BitVec 1
  mode : BitVec 3
  (src dst : BitVec 6)
  deriving DecidableEq, Repr

/-- Operands of BEQ, BNE, BLT, BGE, BLTU, BGEU. -/
structure BranchOp where
  (sa sb : BitVec 6)
  off : BitVec 26
  deriving DecidableEq, Repr

/-- Operands of JMP. -/
structure JmpOp where
  off : BitVec 32
  deriving DecidableEq, Repr

/-- Operands of JAL. -/
structure JalOp where
  sd : BitVec 6
  off : BitVec 32
  deriving DecidableEq, Repr

/-- Operands of JR. -/
structure JrOp where
  sa : BitVec 6
  deriving DecidableEq, Repr

/-- Operands of LOOP. -/
structure LoopOp where
  sa : BitVec 6
  len : BitVec 16
  norot : BitVec 1
  nr : BitVec 7
  deriving DecidableEq, Repr

/-- Operands of LOOPB. -/
structure LoopbOp where
  off : BitVec 26
  deriving DecidableEq, Repr

/-- Operands of PCHK. -/
structure PchkOp where
  mask : BitVec 4
  clr : BitVec 1
  off : BitVec 26
  deriving DecidableEq, Repr

/-- Operands of CSRR. -/
structure CsrrOp where
  sd : BitVec 6
  sysno : BitVec 12
  deriving DecidableEq, Repr

/-- Operands of CSRW, CSRS, CSRC. -/
structure CsrOp where
  sa : BitVec 6
  sysno : BitVec 12
  deriving DecidableEq, Repr

/-- Operands of TRAP. -/
structure TrapOp where
  code : BitVec 26
  deriving DecidableEq, Repr

/-- Operands of LIVE. -/
structure LiveOp where
  sa : BitVec 6
  imm : BitVec 26
  deriving DecidableEq, Repr

/-- Operands of FENCE. -/
structure FenceOp where
  scope : BitVec 3
  deriving DecidableEq, Repr

/-- Operands of QSYNC, QSYNC_READ. -/
structure QsyncOp where
  sd : BitVec 6
  q : BitVec 2
  deriving DecidableEq, Repr

/-- Operands of QSYNC_UPTO. -/
structure QsyncUptoOp where
  (sd sa : BitVec 6)
  q : BitVec 2
  deriving DecidableEq, Repr

/-- Operands of QFLUSH. -/
structure QflushOp where
  mask : BitVec 4
  deriving DecidableEq, Repr

/-- Operands of RDTIME, MPEEK, RREL, RSTAT, ROLLCALL. -/
structure DestOp where
  sd : BitVec 6
  deriving DecidableEq, Repr

/-- Operands of RDCYC, RPGET. -/
structure WhichOp where
  sd : BitVec 6
  which : BitVec 2
  deriving DecidableEq, Repr

/-- Operands of MRECV. -/
structure MrecvOp where
  sd : BitVec 6
  (poll free : BitVec 1)
  deriving DecidableEq, Repr

/-- Operands of TSPAWN, TREM. -/
structure SrcOp where
  sa : BitVec 6
  deriving DecidableEq, Repr

/-- Operands of TJOIN. -/
structure TjoinOp where
  (sa sb : BitVec 6)
  deriving DecidableEq, Repr

/-- Operands of SINIT. -/
structure SinitOp where
  (sa sb : BitVec 6)
  k : BitVec 4
  deriving DecidableEq, Repr

/-- Operands of SGET. -/
structure SgetOp where
  sd : BitVec 6
  k : BitVec 4
  deriving DecidableEq, Repr

/-- Operands of HLD. -/
structure HldOp where
  hd : BitVec 5
  sa : BitVec 6
  off : BitVec 16
  deriving DecidableEq, Repr

/-- Operands of HST. -/
structure HstOp where
  ha : BitVec 5
  sa : BitVec 6
  off : BitVec 16
  deriving DecidableEq, Repr

/-- Operands of HNARROW. -/
structure HnarrowOp where
  (hd ha : BitVec 5)
  (sa sb : BitVec 6)
  dim : BitVec 2
  deriving DecidableEq, Repr

/-- Operands of HNARROW_RANGE. -/
structure HrangeOp where
  (hd ha : BitVec 5)
  (sa sb : BitVec 6)
  (ppol bpol : BitVec 2)
  deriving DecidableEq, Repr

/-- Operands of HDROP. -/
structure HdropOp where
  (hd ha : BitVec 5)
  mask : BitVec 9
  deriving DecidableEq, Repr

/-- Operands of HFIELD. -/
structure HfieldOp where
  ha : BitVec 5
  sd : BitVec 6
  field : BitVec 5
  deriving DecidableEq, Repr

/-- Operands of HMOV. -/
structure HmovOp where
  (hd ha : BitVec 5)
  deriving DecidableEq, Repr

/-- Operands of HCLR. -/
structure HclrOp where
  hd : BitVec 5
  deriving DecidableEq, Repr

/-- Operands of GCFG. -/
structure GcfgOp where
  g : BitVec 5
  sa : BitVec 6
  off : BitVec 16
  deriving DecidableEq, Repr

/-- Operands of GSET. -/
structure GsetOp where
  g : BitVec 5
  sa : BitVec 6
  field : BitVec 5
  deriving DecidableEq, Repr

/-- Operands of GRD. -/
structure GrdOp where
  g : BitVec 5
  sd : BitVec 6
  field : BitVec 5
  deriving DecidableEq, Repr

/-- Operands of LSET. -/
structure LsetOp where
  l : BitVec 4
  (sa sb : BitVec 6)
  policy : BitVec 1
  q : BitVec 2
  deriving DecidableEq, Repr

/-- Operands of BKPT. -/
structure BkptOp where
  code : BitVec 16
  deriving DecidableEq, Repr

/-- Operands of CNTR. -/
structure CntrOp where
  (sd sa : BitVec 6)
  half : BitVec 1
  (kind n : BitVec 4)
  deriving DecidableEq, Repr

/-- Operands of CNTW_VALUE, CNTW_CFG. -/
structure CntwOp where
  sa : BitVec 6
  n : BitVec 4
  deriving DecidableEq, Repr

/-- Operands of VADD_F32, VADD_BF16, VADD_F16, VSUB_F32, VSUB_BF16, VSUB_F16, VMUL_F32, VMUL_BF16, VMUL_F16, VFMA_F32, VFMA_BF16, VFMA_F16, VFMS_F32, VFMS_BF16, VFMS_F16, VFNMA_F32, VFNMA_BF16, VFNMA_F16, VMAX_F32, VMAX_BF16, VMAX_F16, VMIN_F32, VMIN_BF16, VMIN_F16, VSCALE_F32, VSCALE_BF16, VSCALE_F16, VIADD, VISUB, VIMUL, VIMIN, VIMAX, VAND, VOR, VXOR, VSHL, VSHR, VSAR, VSEL, VPERM, VSHUF. -/
structure VR3 where
  d : BitVec 4
  (vd va vb : BitVec 10)
  pg : BitVec 4
  deriving DecidableEq, Repr

/-- Operands of VABS_F32, VABS_BF16, VABS_F16, VNEG_F32, VNEG_BF16, VNEG_F16, VRCP_F32, VRCP_BF16, VRCP_F16, VRSQ_F32, VRSQ_BF16, VRSQ_F16, VSQRT_F32, VSQRT_BF16, VSQRT_F16, VEXP2_F32, VEXP2_BF16, VEXP2_F16, VLOG2_F32, VLOG2_BF16, VLOG2_F16, VTANH_F32, VTANH_BF16, VTANH_F16, VMOV. -/
structure VR2 where
  d : BitVec 4
  (vd va : BitVec 10)
  pg : BitVec 4
  deriving DecidableEq, Repr

/-- Operands of VCMP_F32, VCMP_BF16, VCMP_F16, VICMP. -/
structure VCmpOp where
  (d cond pd : BitVec 4)
  (va vb : BitVec 10)
  pg : BitVec 4
  deriving DecidableEq, Repr

/-- Operands of VPLOG. -/
structure VplogOp where
  (d func pd pa pb : BitVec 4)
  deriving DecidableEq, Repr

/-- Operands of VIOTA, VPCLR. -/
structure VR1 where
  d : BitVec 4
  vd : BitVec 10
  pg : BitVec 4
  deriving DecidableEq, Repr

/-- Operands of VBCAST, VINS. -/
structure VbcastOp where
  d : BitVec 4
  vd : BitVec 10
  ss : BitVec 6
  w : BitVec 2
  pg : BitVec 4
  deriving DecidableEq, Repr

/-- Operands of VEXTR. -/
structure VextrOp where
  d : BitVec 4
  sd : BitVec 6
  va : BitVec 10
  ss : BitVec 6
  sx : BitVec 1
  w : BitVec 2
  deriving DecidableEq, Repr

/-- Operands of VROTL. -/
structure VrotlOp where
  d : BitVec 4
  (vd va : BitVec 10)
  ss : BitVec 6
  w : BitVec 2
  pg : BitVec 4
  deriving DecidableEq, Repr

/-- Operands of VLD, VST. -/
structure VldOp where
  d : BitVec 4
  vd : BitVec 10
  ss : BitVec 6
  (k pg : BitVec 4)
  deriving DecidableEq, Repr

/-- Operands of VLDS, VSTS. -/
structure VldsOp where
  d : BitVec 4
  vd : BitVec 10
  ss : BitVec 6
  pg : BitVec 4
  deriving DecidableEq, Repr

/-- Operands of VGATHER, VSCATTER. -/
structure VgatherOp where
  d : BitVec 4
  (vd va : BitVec 10)
  ss : BitVec 6
  pg : BitVec 4
  deriving DecidableEq, Repr

/-- Operands of VATOM. -/
structure VatomOp where
  d : BitVec 4
  (vd va : BitVec 10)
  ss : BitVec 6
  (op pg : BitVec 4)
  deriving DecidableEq, Repr

/-- Operands of VCVT. -/
structure VcvtOp where
  d : BitVec 4
  (vd va : BitVec 10)
  ss : BitVec 6
  mark : BitVec 1
  q : BitVec 3
  pg : BitVec 4
  deriving DecidableEq, Repr

/-- Operands of VQUANT_IDX, VQUANT_SCL, VXSENC_X32, VXSENC_X64L, VXSENC_X64H, VXSDEC_X32, VXSDEC_X64L, VXSDEC_X64H. -/
structure VquantOp where
  d : BitVec 4
  (vd va : BitVec 10)
  ss : BitVec 6
  deriving DecidableEq, Repr

/-- Operands of VDEQ. -/
structure VdeqOp where
  d : BitVec 4
  (vd va : BitVec 10)
  ss : BitVec 6
  q : BitVec 3
  pg : BitVec 4
  deriving DecidableEq, Repr

/-- Operands of VXSENC_LOC. -/
structure VxlocOp where
  d : BitVec 4
  (vd va : BitVec 10)
  q : BitVec 2
  deriving DecidableEq, Repr

/-- Operands of VRSUM, VRMAX, VRMIN. -/
structure VredOp where
  d : BitVec 4
  (vd va : BitVec 10)
  ty : BitVec 2
  pg : BitVec 4
  deriving DecidableEq, Repr

/-- Operands of VPMARK. -/
structure VpmarkOp where
  d : BitVec 4
  vd : BitVec 10
  code : BitVec 2
  pg : BitVec 4
  deriving DecidableEq, Repr

/-- Operands of VPGET. -/
structure VpgetOp where
  d : BitVec 4
  sd : BitVec 6
  va : BitVec 10
  isP : BitVec 1
  deriving DecidableEq, Repr

/-- Operands of VCLAMP. -/
structure VclampOp where
  d : BitVec 4
  (vd va : BitVec 10)
  ss : BitVec 6
  (ty pol : BitVec 2)
  pg : BitVec 4
  deriving DecidableEq, Repr

/-- Operands of TCFG. -/
structure TcfgOp where
  d : BitVec 4
  tile : BitVec 3
  (rows cols : BitVec 7)
  ty : BitVec 1
  deriving DecidableEq, Repr

/-- Operands of TZERO, TPOIS_CLR. -/
structure TileOp where
  d : BitVec 4
  tile : BitVec 3
  deriving DecidableEq, Repr

/-- Operands of TLD, TDRAIN. -/
structure TldOp where
  d : BitVec 4
  tile : BitVec 3
  ga : BitVec 5
  ta : BitVec 1
  deriving DecidableEq, Repr

/-- Operands of MMA, MMAS, MMAQ. -/
structure MmaOp where
  d : BitVec 4
  tile : BitVec 3
  (ga gb : BitVec 5)
  rep : BitVec 12
  (acc tb ta pack edge : BitVec 1)
  deriving DecidableEq, Repr

/-- Operands of TPOIS_GET, TPOIS_MARK. -/
structure TpoisOp where
  d : BitVec 4
  tile : BitVec 3
  ga : BitVec 5
  deriving DecidableEq, Repr

/-- Operands of TBIAS. -/
structure TbiasOp where
  d : BitVec 4
  tile : BitVec 3
  ga : BitVec 5
  acc : BitVec 1
  deriving DecidableEq, Repr

/-- Operands of CPIN, CPOUT, CPSET, CPMAP. -/
structure CopyOp where
  d : BitVec 4
  (h g : BitVec 5)
  so : BitVec 6
  k : BitVec 4
  rep : BitVec 12
  mode : BitVec 2
  deriving DecidableEq, Repr

/-- Operands of MSEND. -/
structure MsendOp where
  d : BitVec 4
  (sa sb : BitVec 6)
  k : BitVec 4
  scope : BitVec 3
  order : BitVec 2
  post : BitVec 1
  n : BitVec 5
  deriving DecidableEq, Repr

/-- Operands of AMO. -/
structure AmoOp where
  d : BitVec 4
  h : BitVec 5
  (sa sb : BitVec 6)
  k : BitVec 4
  scope : BitVec 3
  order : BitVec 2
  (post ret w64 : BitVec 1)
  op : BitVec 4
  deriving DecidableEq, Repr

/-- Operands of ACAS. -/
structure AcasOp where
  d : BitVec 4
  h : BitVec 5
  (sa sb : BitVec 6)
  k : BitVec 4
  scope : BitVec 3
  order : BitVec 2
  w64 : BitVec 1
  deriving DecidableEq, Repr

/-- Operands of ARED. -/
structure AredOp where
  d : BitVec 4
  h : BitVec 5
  (sa sb : BitVec 6)
  k : BitVec 4
  scope : BitVec 3
  order : BitVec 2
  (post w64 : BitVec 1)
  op : BitVec 4
  deriving DecidableEq, Repr

/-- Operands of CSEND, CRECV. -/
structure CsendOp where
  d : BitVec 4
  h : BitVec 5
  sa : BitVec 6
  k : BitVec 4
  scope : BitVec 3
  order : BitVec 2
  post : BitVec 1
  deriving DecidableEq, Repr

/-- Operands of CAGREE, CREDX. -/
structure CagreeOp where
  d : BitVec 4
  (sa sb : BitVec 6)
  k : BitVec 4
  scope : BitVec 3
  order : BitVec 2
  post : BitVec 1
  cnt : BitVec 6
  deriving DecidableEq, Repr

/-- Operands of CBAR. -/
structure CbarOp where
  d : BitVec 4
  (sa sb : BitVec 6)
  k : BitVec 4
  scope : BitVec 3
  order : BitVec 2
  post : BitVec 1
  deriving DecidableEq, Repr

/-- Operands of SWAIT, SPOST, SPOST_SUB. -/
structure SemQOp where
  d : BitVec 4
  q : BitVec 2
  k : BitVec 4
  n : BitVec 16
  deriving DecidableEq, Repr

/-- Operands of BAR. -/
structure BarOp where
  d : BitVec 4
  q : BitVec 2
  form : BitVec 1
  mask : BitVec 4
  deriving DecidableEq, Repr

/-- Operands of WAITC. -/
structure WaitcOp where
  d : BitVec 4
  q : BitVec 2
  n : BitVec 16
  src : BitVec 2
  deriving DecidableEq, Repr

/-- Operands of QMARK. -/
structure QmarkOp where
  d : BitVec 4
  q : BitVec 2
  rest : BitVec 1
  deriving DecidableEq, Repr

/-- Which of the three writing system-register words: CSRW, CSRS, CSRC. -/
inductive CsrKind where
  | write | set | clear
  deriving DecidableEq, Repr

/-- An event about one unit: a core, form, panel, stack, port, function, tenant, block or address, by its row. -/
structure IdxEv where
  idx : Nat
  deriving DecidableEq, Repr

/-- An event about one unit and a part of it. -/
structure TwoEv where
  (a b : Nat)
  deriving DecidableEq, Repr

/-- A sensor's report: place (0 form, 1 hub, 2 stack), its number, degrees Celsius. -/
structure ThermEv where
  (place idx temp : Nat)
  deriving DecidableEq, Repr

/-- A write of a value to the register of a unit. -/
structure IdxValEv where
  idx : Nat
  value : BitVec 64
  deriving DecidableEq, Repr

/-- An event with an outcome. -/
structure FlagEv where
  idx : Nat
  ok : Bool
  deriving DecidableEq, Repr

/-- The end of an SPDM session's authentication (R361): whether its signatures, their LMS extensions and the certificate chains verify, and
the four digests of 48 bytes that the peer has reported as its measurements. -/
structure AuthEv where
  idx : Nat
  ok : Bool
  meas : Nat
  deriving DecidableEq, Repr

/-- A write at an offset of the register group of spool `n` of a VF. -/
structure VfRegEv where
  (vf n off : Nat)
  value : BitVec 64
  deriving DecidableEq, Repr

/-- A kick of spool `n` of a VF, with or without the relaxed-ordering attribute. -/
structure KickEv where
  (vf n : Nat)
  value : BitVec 32
  relaxed : Bool
  deriving DecidableEq, Repr

/-- A register write: space (0 VF BAR0, 1 PF0 BAR0, 2 Thimble, 3 Timetable core), function or core, offset, value. -/
structure RegEv where
  (space unit off : Nat)
  value : BitVec 64
  deriving DecidableEq, Repr

/-- A host access through BAR2: function, offset, bytes, data, and whether it carries the T bit on the IDE stream. A write whose `op` is
1, 2 or 3 is an AtomicOp, FetchAdd, Swap or CAS with the value to compare in `cmp` (R378). -/
structure HostEv where
  (vf off n : Nat)
  value : Nat
  op : Nat
  cmp : Nat
  tbit : Bool
  deriving DecidableEq, Repr

/-- A completion from the host for request `idx`: its data, and whether it reports an error. -/
structure HostDataEv where
  idx : Nat
  data : BitVec 1024
  err : Bool
  deriving DecidableEq, Repr

/-- The lock of a TDI: its tenant, owner mask and cores. -/
structure LockEv where
  (vf tenant : Nat)
  owners : BitVec 64
  cores : BitVec 256
  deriving DecidableEq, Repr

/-- A service request over frames: the caller (a tenant; 1024 the hypervisor), the owner charged, the identifier `SREQ` (R445), the frames
(physical address, and a host address for HOSTWIN), the families that RELEASE sweeps. -/
structure SvcFrames where
  (caller owner req : Nat)
  frames : List (Nat × Nat)
  families : List Nat
  deriving DecidableEq, Repr

/-- Any other service request: caller, owner charged, identifier, two numbers, a record, a list of addresses. -/
structure SvcEv where
  (caller owner req a b : Nat)
  x : BitVec 512
  addrs : List Nat
  deriving DecidableEq, Repr

/-- What a flit of a bound stream carries to this device (the layout of a payload is not the spec's). -/
inductive FlitLoad where
  | none
  | contrib (group tag dst src part bytes : Nat) (lines : List (BitVec 1024 × BitVec 2))
  | arrival (group tag rank deadline : Nat)
  | verdict (group tag : Nat) (missing : List Nat)
  deriving DecidableEq, Repr

/-- A flit on a port: kind, stream, counter, whether its CRC and its tag hold, and its load. -/
structure FlitEv where
  (port kind stream fseq : Nat)
  (crcOk tagOk : Bool)
  load : FlitLoad
  deriving DecidableEq, Repr

/-- An SPDM request: by DOE (16) or on a port (0 to 15), its version in tenths, whether its algorithms are listed. -/
structure SpdmEv where
  (port version : Nat)
  listed : Bool
  deriving DecidableEq, Repr

/-- An access to DDATA by the debugger of a tenant. -/
structure DdataEv where
  tenant : Nat
  write : Bool
  value : BitVec 64
  deriving DecidableEq, Repr


/-- One constructor for each row of the opcode table: an instruction word, or an operation or event of the part. The
words with operands stand first, then the words without operands and the rows that act on the word the sequencer has
at decode, then the events. -/
inductive Instr where
  /-- Adds sa to sb shifted left by fn[2:0] and writes sd (R109). -/
  | add (o : AddOp)
  /-- Writes sd := sa − sb modulo 2^64 (R109). -/
  | sub (o : RRR)
  /-- Writes the low 64 bits of sa × sb (R109). -/
  | mul (o : RRR)
  /-- Writes the high 64 bits of the signed 128-bit product (R109). -/
  | mulh (o : RRR)
  /-- Writes the high 64 bits of the unsigned product (R109). -/
  | mulhu (o : RRR)
  /-- Signed quotient truncated toward zero; never traps (R110). -/
  | div (o : RRR)
  /-- Unsigned quotient; division by zero gives 2^64 − 1 (R110). -/
  | divu (o : RRR)
  /-- Signed remainder with the sign of sa (R110). -/
  | rem (o : RRR)
  /-- Unsigned remainder; division by zero gives sa (R110). -/
  | remu (o : RRR)
  /-- Bitwise AND of sa and sb (R109). -/
  | and (o : RRR)
  /-- Bitwise OR of sa and sb (R109). -/
  | or (o : RRR)
  /-- Bitwise XOR of sa and sb (R109). -/
  | xor (o : RRR)
  /-- Writes sa AND NOT sb (R109). -/
  | andn (o : RRR)
  /-- Shifts sa left by sb[5:0] (R109). -/
  | shl (o : RRR)
  /-- Logical right shift of sa by sb[5:0] (R109). -/
  | shr (o : RRR)
  /-- Arithmetic right shift of sa by sb[5:0] (R109). -/
  | sar (o : RRR)
  /-- Signed minimum of sa and sb (R109). -/
  | min (o : RRR)
  /-- Signed maximum of sa and sb (R109). -/
  | max (o : RRR)
  /-- Unsigned minimum of sa and sb (R109). -/
  | minu (o : RRR)
  /-- Unsigned maximum of sa and sb (R109). -/
  | maxu (o : RRR)
  /-- Writes 1 if sa < sb signed, else 0 (R109). -/
  | slt (o : RRR)
  /-- Writes 1 if sa < sb unsigned, else 0 (R109). -/
  | sltu (o : RRR)
  /-- Writes 1 if sa = sb, else 0 (R109). -/
  | seq (o : RRR)
  /-- Counts leading zero bits of sa (R109). -/
  | clz (o : RR)
  /-- Counts trailing zero bits of sa (R109). -/
  | ctz (o : RR)
  /-- Counts one bits of sa (R109). -/
  | popc (o : RR)
  /-- Sign-extends the low w bits of sa (R109). -/
  | sext (o : ExtOp)
  /-- Zero-extends the low w bits of sa (R109). -/
  | zext (o : ExtOp)
  /-- Extracts a bit field of sa (R109). -/
  | bfx (o : BfxOp)
  /-- Inserts sb's low bits into a field of sa (R109). -/
  | bfi (o : BfiOp)
  /-- Copies sa to sd (R109). -/
  | mov (o : RR)
  /-- Adds the sign-extended imm26 to sa (R111). -/
  | addSi (o : RRI)
  /-- ANDs sa with the sign-extended imm26 (R111). -/
  | andSi (o : RRI)
  /-- ORs sa with the sign-extended imm26 (R111). -/
  | orSi (o : RRI)
  /-- XORs sa with the sign-extended imm26 (R111). -/
  | xorSi (o : RRI)
  /-- Shifts sa left by the unsigned count imm26[5:0] (R111). -/
  | shlSi (o : ShiftImm)
  /-- Logical right shift by imm26[5:0] (R111). -/
  | shrSi (o : ShiftImm)
  /-- Arithmetic right shift by imm26[5:0] (R111). -/
  | sarSi (o : ShiftImm)
  /-- Signed minimum of sa and the immediate (R111). -/
  | minSi (o : RRI)
  /-- Signed maximum of sa and the immediate (R111). -/
  | maxSi (o : RRI)
  /-- Signed compare of sa with the immediate (R111). -/
  | sltSi (o : RRI)
  /-- Unsigned compare of sa with the sign-extended immediate (R111). -/
  | sltuSi (o : RRI)
  /-- Equality of sa with the immediate (R111). -/
  | seqSi (o : RRI)
  /-- Sign-extending scalar load from the scratchpad with range, alignment and poison checks (R114). -/
  | ld (o : MemOp)
  /-- Zero-extending scalar load from the scratchpad (R114). -/
  | ldu (o : MemOp)
  /-- Scalar store to the scratchpad leaving the line code unchanged (R114). -/
  | st (o : MemOp)
  /-- Loads a sign-extended 32-bit immediate (R112). -/
  | li (o : LiOp)
  /-- Sets the high 32 bits of sd from imm32 (R112). -/
  | lih (o : LiOp)
  /-- Scalar FP32 addition under RNE (R116). -/
  | fadd (o : RRR)
  /-- Scalar FP32 subtraction under RNE (R116). -/
  | fsub (o : RRR)
  /-- Scalar FP32 multiplication under RNE (R116). -/
  | fmul (o : RRR)
  /-- Scalar fused multiply-add with one rounding (R116). -/
  | ffma (o : RRRR)
  /-- Correctly rounded scalar FP32 division (R116). -/
  | fdiv (o : RRR)
  /-- Correctly rounded scalar FP32 square root (R116). -/
  | fsqrt (o : RR)
  /-- IEEE minimumNumber of two FP32 values (R116). -/
  | fmin (o : RRR)
  /-- IEEE maximumNumber of two FP32 values (R116). -/
  | fmax (o : RRR)
  /-- Compares two FP32 values under a condition code (R117). -/
  | fcmp (o : FcmpOp)
  /-- Converts one scalar between formats under a rounding mode and SAT (R118). -/
  | fcvt (o : FcvtOp)
  /-- Classifies an FP32 value into a one-hot class (R119). -/
  | fclass (o : RR)
  /-- Branches if sa = sb (R120). -/
  | beq (o : BranchOp)
  /-- Branches if sa ≠ sb (R120). -/
  | bne (o : BranchOp)
  /-- Branches if sa < sb signed (R120). -/
  | blt (o : BranchOp)
  /-- Branches if sa ≥ sb signed (R120). -/
  | bge (o : BranchOp)
  /-- Branches if sa < sb unsigned (R120). -/
  | bltu (o : BranchOp)
  /-- Branches if sa ≥ sb unsigned (R120). -/
  | bgeu (o : BranchOp)
  /-- Jumps PC-relative by off32 (R121). -/
  | jmp (o : JmpOp)
  /-- Jumps PC-relative and writes the return index (R121). -/
  | jal (o : JalOp)
  /-- Jumps to the word index in sa (R121). -/
  | jr (o : JrOp)
  /-- Jumps to sa and writes the return index (R121). -/
  | jalr (o : RR)
  /-- Opens a hardware loop, pushing a loop-stack entry or skipping the body on a zero count (R123). -/
  | loop (o : LoopOp)
  /-- Closes a loop iteration, rotating bases and branching back or exiting (R124). -/
  | loopb (o : LoopbOp)
  /-- Waits for all queues to complete, then branches if masked PSUM bits are set (R128). -/
  | pchk (o : PchkOp)
  /-- Reads a system register into sd (R206). -/
  | csrr (o : CsrrOp)
  /-- Writes a system register under its access codes (R206). -/
  | csrw (o : CsrOp)
  /-- Sets bits of the rw fields of a system register (R206). -/
  | csrs (o : CsrOp)
  /-- Clears bits of the rw fields of a system register (R206). -/
  | csrc (o : CsrOp)
  /-- Raises SW_TRAP with the immediate code (R220). -/
  | trap (o : TrapOp)
  /-- Loads a liveness descriptor and clears every DUPV (R323). -/
  | live (o : LiveOp)
  /-- Waits for stores, discards prefetched words and, at FORM or wider, waits for queues and writes (R295). -/
  | fence (o : FenceOp)
  /-- Waits for every earlier entry of a queue and returns its next sequence number (R307). -/
  | qsync (o : QsyncOp)
  /-- Waits for entries earlier than sa of a queue (R307). -/
  | qsyncUpto (o : QsyncUptoOp)
  /-- Returns a queue's next sequence number without waiting (R307). -/
  | qsyncRead (o : QsyncOp)
  /-- Discards unissued entries of the named queues and sets new time origins (R308). -/
  | qflush (o : QflushOp)
  /-- Waits until a selected EVENTS bit is set, then returns EVENTS (R221). -/
  | waitev (o : RR)
  /-- Reads the device timestamp (R221). -/
  | rdtime (o : DestOp)
  /-- Reads the task's wall, fc or frozen count (R221). -/
  | rdcyc (o : WhichOp)
  /-- Optionally frees the oldest message, then returns or waits for the next header (R315). -/
  | mrecv (o : MrecvOp)
  /-- Returns inbox occupancy and free lines without waiting (R316). -/
  | mpeek (o : DestOp)
  /-- Checks a template and sends a spawned continuation record to the hub (R318). -/
  | tspawn (o : SrcOp)
  /-- Decrements the join counter of a spawned record (R319). -/
  | tjoin (o : TjoinOp)
  /-- Sets the task's remaining-time estimate (R322). -/
  | trem (o : SrcOp)
  /-- Sets a semaphore's count and ceiling and clears KOVF (R407). -/
  | sinit (o : SinitOp)
  /-- Reads a semaphore's 64 bits (R407). -/
  | sget (o : SgetOp)
  /-- Loads and checks a sealed handle record from the scratchpad (R201). -/
  | hld (o : HldOp)
  /-- Stores a handle register as a 64-byte record (R202). -/
  | hst (o : HstOp)
  /-- Derives a narrower view of a handle along one dimension and reseals it (R203). -/
  | hnarrow (o : HnarrowOp)
  /-- Tightens a handle's value range and strengthens its policies (R204). -/
  | hnarrowRange (o : HrangeOp)
  /-- Removes rights from a handle and reseals it (R205). -/
  | hdrop (o : HdropOp)
  /-- Reads one field or the state of a handle register (R205). -/
  | hfield (o : HfieldOp)
  /-- Copies a handle register with its state (R205). -/
  | hmov (o : HmovOp)
  /-- Sets a handle register to EMPTY (R205). -/
  | hclr (o : HclrOp)
  /-- Loads a 32-byte stream record into a stream register after checks (R176). -/
  | gcfg (o : GcfgOp)
  /-- Writes one field of a stream register after checks (R176). -/
  | gset (o : GsetOp)
  /-- Reads one field of a stream register (R176). -/
  | grd (o : GrdOp)
  /-- Configures a landing slot and clears its LATE state (R235). -/
  | lset (o : LsetOp)
  /-- Lane-wise FP32 addition under the predicate (R138). -/
  | vaddF32 (o : VR3)
  /-- Lane-wise BF16 addition (R138). -/
  | vaddBf16 (o : VR3)
  /-- Lane-wise FP16 addition (R138). -/
  | vaddF16 (o : VR3)
  /-- Lane-wise FP32 subtraction (R138). -/
  | vsubF32 (o : VR3)
  /-- Lane-wise BF16 subtraction (R138). -/
  | vsubBf16 (o : VR3)
  /-- Lane-wise FP16 subtraction (R138). -/
  | vsubF16 (o : VR3)
  /-- Lane-wise FP32 multiplication (R138). -/
  | vmulF32 (o : VR3)
  /-- Lane-wise BF16 multiplication (R138). -/
  | vmulBf16 (o : VR3)
  /-- Lane-wise FP16 multiplication (R138). -/
  | vmulF16 (o : VR3)
  /-- Lane-wise FP32 fused va × vb + vd (R138). -/
  | vfmaF32 (o : VR3)
  /-- Lane-wise BF16 fused multiply-add (R138). -/
  | vfmaBf16 (o : VR3)
  /-- Lane-wise FP16 fused multiply-add (R138). -/
  | vfmaF16 (o : VR3)
  /-- Lane-wise FP32 fused va × vb − vd (R138). -/
  | vfmsF32 (o : VR3)
  /-- Lane-wise BF16 fused multiply-subtract (R138). -/
  | vfmsBf16 (o : VR3)
  /-- Lane-wise FP16 fused multiply-subtract (R138). -/
  | vfmsF16 (o : VR3)
  /-- Lane-wise FP32 fused −(va × vb) + vd (R138). -/
  | vfnmaF32 (o : VR3)
  /-- Lane-wise BF16 negated fused multiply-add (R138). -/
  | vfnmaBf16 (o : VR3)
  /-- Lane-wise FP16 negated fused multiply-add (R138). -/
  | vfnmaF16 (o : VR3)
  /-- Lane-wise FP32 maximumNumber (R138). -/
  | vmaxF32 (o : VR3)
  /-- Lane-wise BF16 maximumNumber (R138). -/
  | vmaxBf16 (o : VR3)
  /-- Lane-wise FP16 maximumNumber (R138). -/
  | vmaxF16 (o : VR3)
  /-- Lane-wise FP32 minimumNumber (R138). -/
  | vminF32 (o : VR3)
  /-- Lane-wise BF16 minimumNumber (R138). -/
  | vminBf16 (o : VR3)
  /-- Lane-wise FP16 minimumNumber (R138). -/
  | vminF16 (o : VR3)
  /-- Lane-wise FP32 absolute value (R138). -/
  | vabsF32 (o : VR2)
  /-- Lane-wise BF16 absolute value (R138). -/
  | vabsBf16 (o : VR2)
  /-- Lane-wise FP16 absolute value (R138). -/
  | vabsF16 (o : VR2)
  /-- Lane-wise FP32 negation (R138). -/
  | vnegF32 (o : VR2)
  /-- Lane-wise BF16 negation (R138). -/
  | vnegBf16 (o : VR2)
  /-- Lane-wise FP16 negation (R138). -/
  | vnegF16 (o : VR2)
  /-- Correctly rounded FP32 reciprocal (R139). -/
  | vrcpF32 (o : VR2)
  /-- Correctly rounded BF16 reciprocal (R139). -/
  | vrcpBf16 (o : VR2)
  /-- Correctly rounded FP16 reciprocal (R139). -/
  | vrcpF16 (o : VR2)
  /-- Correctly rounded FP32 reciprocal square root (R139). -/
  | vrsqF32 (o : VR2)
  /-- Correctly rounded BF16 reciprocal square root (R139). -/
  | vrsqBf16 (o : VR2)
  /-- Correctly rounded FP16 reciprocal square root (R139). -/
  | vrsqF16 (o : VR2)
  /-- Correctly rounded FP32 square root (R139). -/
  | vsqrtF32 (o : VR2)
  /-- Correctly rounded BF16 square root (R139). -/
  | vsqrtBf16 (o : VR2)
  /-- Correctly rounded FP16 square root (R139). -/
  | vsqrtF16 (o : VR2)
  /-- Correctly rounded FP32 2^x (R139). -/
  | vexp2F32 (o : VR2)
  /-- Correctly rounded BF16 2^x (R139). -/
  | vexp2Bf16 (o : VR2)
  /-- Correctly rounded FP16 2^x (R139). -/
  | vexp2F16 (o : VR2)
  /-- Correctly rounded FP32 log2 (R139). -/
  | vlog2F32 (o : VR2)
  /-- Correctly rounded BF16 log2 (R139). -/
  | vlog2Bf16 (o : VR2)
  /-- Correctly rounded FP16 log2 (R139). -/
  | vlog2F16 (o : VR2)
  /-- Correctly rounded FP32 tanh (R139). -/
  | vtanhF32 (o : VR2)
  /-- Correctly rounded BF16 tanh (R139). -/
  | vtanhBf16 (o : VR2)
  /-- Correctly rounded FP16 tanh (R139). -/
  | vtanhF16 (o : VR2)
  /-- Lane-wise FP32 va × 2^n (R140). -/
  | vscaleF32 (o : VR3)
  /-- Lane-wise BF16 va × 2^n (R140). -/
  | vscaleBf16 (o : VR3)
  /-- Lane-wise FP16 va × 2^n (R140). -/
  | vscaleF16 (o : VR3)
  /-- Lane-wise 32-bit integer addition (R141). -/
  | viadd (o : VR3)
  /-- Lane-wise 32-bit integer subtraction (R141). -/
  | visub (o : VR3)
  /-- Lane-wise low 32 bits of the product (R141). -/
  | vimul (o : VR3)
  /-- Lane-wise signed INT32 minimum (R141). -/
  | vimin (o : VR3)
  /-- Lane-wise signed INT32 maximum (R141). -/
  | vimax (o : VR3)
  /-- Lane-wise bitwise AND (R141). -/
  | vand (o : VR3)
  /-- Lane-wise bitwise OR (R141). -/
  | vor (o : VR3)
  /-- Lane-wise bitwise XOR (R141). -/
  | vxor (o : VR3)
  /-- Lane-wise left shift (R141). -/
  | vshl (o : VR3)
  /-- Lane-wise logical right shift (R141). -/
  | vshr (o : VR3)
  /-- Lane-wise arithmetic right shift (R141). -/
  | vsar (o : VR3)
  /-- FP32 compare writing a predicate (R143). -/
  | vcmpF32 (o : VCmpOp)
  /-- BF16 compare writing a predicate (R143). -/
  | vcmpBf16 (o : VCmpOp)
  /-- FP16 compare writing a predicate (R143). -/
  | vcmpF16 (o : VCmpOp)
  /-- INT32 compare writing a predicate (R143). -/
  | vicmp (o : VCmpOp)
  /-- Selects each byte from va or vb by a predicate (R144). -/
  | vsel (o : VR3)
  /-- Computes a logic function of predicates (R145). -/
  | vplog (o : VplogOp)
  /-- Writes each active lane its index (R142). -/
  | viota (o : VR1)
  /-- Copies bytes of va under a byte mask (R153). -/
  | vmov (o : VR2)
  /-- Broadcasts a scalar into every active lane (R154). -/
  | vbcast (o : VbcastOp)
  /-- Extracts one lane into a scalar register (R154). -/
  | vextr (o : VextrOp)
  /-- Inserts a scalar into one lane (R154). -/
  | vins (o : VbcastOp)
  /-- Permutes lanes of va by an index vector (R155). -/
  | vperm (o : VR3)
  /-- Selects lanes from two tables by indices in vd (R155). -/
  | vshuf (o : VR3)
  /-- Rotates lanes by a scalar count (R155). -/
  | vrotl (o : VrotlOp)
  /-- Loads a whole vector register from eight scratchpad lines (R156). -/
  | vld (o : VldOp)
  /-- Stores a vector register to eight scratchpad lines (R156). -/
  | vst (o : VldOp)
  /-- Loads eight segments from strided lines (R157). -/
  | vlds (o : VldsOp)
  /-- Stores eight segments to strided lines (R157). -/
  | vsts (o : VldsOp)
  /-- Gathers 256 4-byte lanes from per-lane addresses (R158). -/
  | vgather (o : VgatherOp)
  /-- Scatters 256 4-byte lanes to per-lane addresses (R158). -/
  | vscatter (o : VgatherOp)
  /-- Applies an atomic operation per lane in the scratchpad read-modify-write slot (R159). -/
  | vatom (o : VatomOp)
  /-- Converts lanes between formats, optionally marking BOUND (R160). -/
  | vcvt (o : VcvtOp)
  /-- Quantises four QN4 blocks into packed indices (R161). -/
  | vquantIdx (o : VquantOp)
  /-- Computes the block scales of four QN4 blocks (R161). -/
  | vquantScl (o : VquantOp)
  /-- Dequantises 256 QN4 indices to FP32 (R162). -/
  | vdeq (o : VdeqOp)
  /-- Writes local XSUM headers of eight blocks (R163). -/
  | vxsencLoc (o : VxlocOp)
  /-- Encodes eight blocks as INT32 mantissas (R163). -/
  | vxsencX32 (o : VquantOp)
  /-- Encodes blocks 0–3 as INT64 mantissas (R163). -/
  | vxsencX64l (o : VquantOp)
  /-- Encodes blocks 4–7 as INT64 mantissas (R163). -/
  | vxsencX64h (o : VquantOp)
  /-- Decodes INT32 XSUM sums to FP32 (R164). -/
  | vxsdecX32 (o : VquantOp)
  /-- Decodes 64-bit sums of blocks 0–3 (R164). -/
  | vxsdecX64l (o : VquantOp)
  /-- Decodes 64-bit sums of blocks 4–7 (R164). -/
  | vxsdecX64h (o : VquantOp)
  /-- Sums each segment and broadcasts the sum (R165). -/
  | vrsum (o : VredOp)
  /-- Maximum of each segment, broadcast (R165). -/
  | vrmax (o : VredOp)
  /-- Minimum of each segment, broadcast (R165). -/
  | vrmin (o : VredOp)
  /-- Raises the codes of selected segments (R166). -/
  | vpmark (o : VpmarkOp)
  /-- Clears the codes of selected segments (R166). -/
  | vpclr (o : VR1)
  /-- Reads a register's 16 poison bits into a scalar (R167). -/
  | vpget (o : VpgetOp)
  /-- Clamps or flags lanes outside a value range (R168). -/
  | vclamp (o : VclampOp)
  /-- Sets a tile's shape and type, zeroing it when they change (R186). -/
  | tcfg (o : TcfgOp)
  /-- Zeroes a tile and clears its row codes (R187). -/
  | tzero (o : TileOp)
  /-- Loads a tile from a stream block (R188). -/
  | tld (o : TldOp)
  /-- Writes a tile to a stream block under its bound policy (R189). -/
  | tdrain (o : TldOp)
  /-- Issues a dense matrix accumulation of n K-groups (R183). -/
  | mma (o : MmaOp)
  /-- Issues a 2:4 sparse-B matrix accumulation (R184). -/
  | mmas (o : MmaOp)
  /-- Issues a QN4-B matrix accumulation (R185). -/
  | mmaq (o : MmaOp)
  /-- Writes a tile's row codes to a map (R191). -/
  | tpoisGet (o : TpoisOp)
  /-- Raises a tile's row codes from a map (R191). -/
  | tpoisMark (o : TpoisOp)
  /-- Clears a tile's row codes (R191). -/
  | tpoisClr (o : TileOp)
  /-- Loads or adds a bias row into every tile row (R190). -/
  | tbias (o : TbiasOp)
  /-- Issues a copy from a view in device memory into the scratchpad (R242). -/
  | cpin (o : CopyOp)
  /-- Reads stream blocks, checks poison and bounds, and writes them to a view (R244). -/
  | cpout (o : CopyOp)
  /-- Fills view elements with a pattern (R246). -/
  | cpset (o : CopyOp)
  /-- Reads a view's poison map into the scratchpad (R247). -/
  | cpmap (o : CopyOp)
  /-- Issues a message of up to 32 lines to a core of the partition (R310). -/
  | msend (o : MsendOp)
  /-- Issues an atomic operation on one element of a view (R289). -/
  | amo (o : AmoOp)
  /-- Issues an atomic compare-and-swap (R289). -/
  | acas (o : AcasOp)
  /-- Issues an elementwise atomic reduction over a granule from a scratchpad line (R290). -/
  | ared (o : AredOp)
  /-- Sends a view to a peer rank's receive spool (R368). -/
  | csend (o : CsendOp)
  /-- Copies a received send part into a view (R369). -/
  | crecv (o : CsendOp)
  /-- Exchanges XSUM headers and writes agreed exponents (R370). -/
  | cagree (o : CagreeOp)
  /-- Exchanges XSUM mantissas and writes exact sums (R371). -/
  | credx (o : CagreeOp)
  /-- Arrives at a collective barrier with an optional deadline (R372). -/
  | cbar (o : CbarOp)
  /-- Issues a semaphore wait barrier (R409). -/
  | swait (o : SemQOp)
  /-- Adds n to a semaphore at issue (R408). -/
  | spost (o : SemQOp)
  /-- Subtracts n from a semaphore at issue (R408). -/
  | spostSub (o : SemQOp)
  /-- Issues a rendezvous among queues and optionally form members (R304). -/
  | bar (o : BarOp)
  /-- Issues a wait on the completions of another queue (R305). -/
  | waitc (o : WaitcOp)
  /-- Occupies an issue cycle, optionally making the queue slack (R306). -/
  | qmark (o : QmarkOp)
  /-- Release at RECOVERY scope counted in the open interval after its waits (R270). -/
  | rrel (o : DestOp)
  /-- Reads a word of the recovery-point register (R271). -/
  | rpget (o : WhichOp)
  /-- Reads the core's recovery status (R272). -/
  | rstat (o : DestOp)
  /-- Raises BREAKPOINT with a code (R430). -/
  | bkpt (o : BkptOp)
  /-- Requests a roll call of the partition and waits for its own latch (R429). -/
  | rollcall (o : DestOp)
  /-- Reads a counter, configuration, chart cell, snapshot word, work count or roll-call record (R413). -/
  | cntr (o : CntrOp)
  /-- Writes a counter's value (R414). -/
  | cntwValue (o : CntwOp)
  /-- Writes a counter's configuration (R414). -/
  | cntwCfg (o : CntwOp)
  /-- Leaves the innermost loop at once, popping its entry (R124). -/
  | loopbBreak
  /-- A write to LSTK0–LSTK3 that is discarded if it leaves an illegal entry (R122). -/
  | loopStackWrite
  /-- A write to INBOXBASE or INBOXSIZE that resets the counts or is discarded (R309). -/
  | inboxSpoolWrite
  /-- A write to the reply spool registers, discarded while returning atomics are outstanding (R294). -/
  | replySpoolWrite
  /-- Returns from a trap handler to the cut and resumes the queues (R218). -/
  | eret
  /-- Does nothing but advance the PC (R221). -/
  | nop
  /-- Ends the task and places the core in the draining state (R321). -/
  | texit
  /-- The sequencer decodes an engine word, resolves names, captures operands and places it in its queue (R29). -/
  | enqueue
  /-- An issued array word starts when the array finishes the previous one and reads its repetitions (R179). -/
  | arrayStart
  /-- An array word's result and row codes land in the tile and matrix events are recorded (R179). -/
  | arrayVis
  /-- An issued engine word's values and codes land at issue plus its latency (R137). -/
  | engineLanding
  /-- Copy data arriving from the hubs is written into the scratchpad as it comes (R242). -/
  | untimedLanding
  /-- A timed repetition is written in its promised fc (R236). -/
  | timedLanding
  /-- A hub reports a translation fault for an issued copy (R243). -/
  | copyTranslationFault
  /-- A completion post reaches its semaphore, adding 1 or setting KOVF (R410). -/
  | completionPost
  /-- A message arrives at a receiving core holding a task of its tenant (R311). -/
  | messageArrival
  /-- A waiting message reserves ring positions once n + 1 lines are free (R311). -/
  | messageReserve
  /-- A message's lines are written, INBOXPROD advances and the sender completes (R311). -/
  | messageLanding
  /-- An intra-form message lands exactly 16 fc after its issue (R312). -/
  | timedMessageLanding
  /-- The ARED source line is read and checked against PPOL when its bank serves it (R290). -/
  | aredSourceRead
  /-- A held release access leaves the core once its release set is performed (R280). -/
  | releaseSetPerformed
  /-- A hub atomic engine applies an atomic in the granule's coherence order (R289). -/
  | hubAtomic
  /-- A returning atomic's reply is written to the reply spool when room exists (R293). -/
  | replyWrite
  /-- A hub link engine writes a collective contribution into a receive spool slot once free (R364). -/
  | contributionWrite
  /-- A barrier deadline expires and the coordinator issues a MISSING verdict (R372). -/
  | cbarDeadline
  /-- A verdict arrives at a rank's hub and completes its barrier (R372). -/
  | cbarVerdict
  /-- A collective word completes once its instance or verdict allows, writing its result (R373). -/
  | collectiveCompletion
  /-- A waiting barrier word's condition holds and it completes, setting a new time origin (R85). -/
  | barrierCompletion
  /-- Zeroes every live seating-chart cell (R414). -/
  | cntwChartClear
  /-- A sequencer word in a wait finds its condition met and completes (R302). -/
  | sequencerWaitEnd
  /-- After a raised cause and the wait for issued entries, records the cut and enters the handler or escalates (R215). -/
  | trapEntry
  /-- A violation freezes the master, reports to the Thimble and ends the launch KILLED (R37). -/
  | violation
  /-- A frozen core returns idle once its issued commands have completed (R37). -/
  | violationRelease
  /-- WDCOUNT reaches WDLIMIT and WATCHDOG escalates (R324). -/
  | watchdog
  /-- A ready record or group is placed on a unit and its code, data, frame and handle loads start (R338). -/
  | dispatch
  /-- A record's placement patience ends and any idle unit becomes eligible (R338). -/
  | placementPatienceExpiry
  /-- After dispatch loads complete, the core sets task state and fetches its first word (R24). -/
  | taskStart
  /-- A draining core finishes draining, reports the task and becomes idle (R28). -/
  | taskCompletion
  /-- The scrub sequencer clears a core passing to a new tenant (R248). -/
  | scrub
  /-- A placement's slice expires and the stride winner may pre-empt the task (R341). -/
  | sliceEnd
  /-- A lent form's borrower tasks are pre-empted and the form returns (R343). -/
  | recallForm
  /-- The context-save engine writes a cut task to a save slot (R348). -/
  | contextSave
  /-- A saved task is read back and resumes with a new time origin (R350). -/
  | contextResume
  /-- The Timetable serves the next pending spool and parses up to 8 packets (R328). -/
  | spoolService
  /-- A LAUNCH packet is checked and enters the task graph or is refused (R330). -/
  | launchPacket
  /-- A RELEASE packet lets a HELD launch proceed (R332). -/
  | releasePacket
  /-- A CANCEL packet cancels a PENDING or HELD launch or kills a RUNNING one (R332). -/
  | cancelPacket
  /-- A NOP packet is consumed without effect (R329). -/
  | nopPacket
  /-- After 2 µs a packet with a PSEQ mismatch is read again (R330). -/
  | packetReread
  /-- A completion record is written after the launch's writes are performed and the spool has room (R335). -/
  | completionRecordWrite
  /-- With no live launch left, the final report is written and MIGST becomes STOPPED (R354). -/
  | migrationStopped
  /-- An instruction-SRAM error of the primary starts the standby's take-over (R356). -/
  | timetableTakeover
  /-- Writing 0 to CHOLD releases held completion records in order (R357). -/
  | choldRelease
  /-- A hub reads a granule, decrypting and checking ECC and the integrity tag (R255). -/
  | hubRead
  /-- A hub accepts a write, logs a first write, journals and applies or holds it (R263). -/
  | hubWrite
  /-- A SEALING interval writes its cursor block and sealed record and opens the next interval (R266). -/
  | intervalSeal
  /-- A TORN interval's undo log is applied and the context is relaunched into replay (R268). -/
  | rollback
  /-- A hub walker translates a VA through four levels and checks ownership (R388). -/
  | translationWalk
  /-- A core revokes matching handle registers and marks queue entries between two words (R397). -/
  | revocationSweep
  /-- A core or hub acknowledges a sweep once matching operations have completed (R397). -/
  | sweepAck
  /-- A rotation engine re-encrypts one frame under the new key slot (R400). -/
  | rotationFrame
  /-- A host-window read completion missing after 10 ms gives the granule ERROR (R384). -/
  | hostCompletionTimeout
  /-- A requested bank idle for 4,096 cycles starts entering retention (R228). -/
  | retentionEntry
  /-- After 2,048 cycles an entering bank is RETAINED (R228). -/
  | retentionEntered
  /-- After 2,048 cycles an exiting bank is ACTIVE and its data corrected (R229). -/
  | retentionExitDone
  /-- The timestamp reaches TIMECMP and EVENTS.TIMER is set (R212). -/
  | timerEvent
  /-- A counter carries out of bit 63, setting WRAP and optionally starting a roll call (R411). -/
  | counterWrap
  /-- Hubs sample every shared counter at each whole microsecond (R424). -/
  | counterSample
  /-- At time T every block of a roll call latches its record (R427). -/
  | rollCallLatch
  /-- A task's W reaches WSCOUNT and the core enters a debug stop (R433). -/
  | workStop
  /-- An enabled breakpoint PC is reached and BREAKPOINT is raised (R432). -/
  | pcMatch
  /-- The SHA engine computes a SHA-384 digest (R435). -/
  | sha384
  /-- The SHA engine computes a SHA-256 digest (R435). -/
  | sha256
  /-- Verifies a P-384 signature (R435). -/
  | ecdsaVerify
  /-- Signs a digest with a key slot (R435). -/
  | ecdsaSign
  /-- Verifies an LMS or HSS signature (R435). -/
  | lmsVerify
  /-- Signs with an HSS key slot (R435). -/
  | hssSign
  /-- Blows the next boot-counter fuse (R436). -/
  | bootinc
  /-- Computes a CMAC with a key slot (R435). -/
  | aesCmac
  /-- GCM-encrypts with a key slot (R435). -/
  | gcmSeal
  /-- GCM-decrypts and authenticates with a key slot (R435). -/
  | gcmOpen
  /-- Copies a key slot into hub key registers or handle units (R435). -/
  | keyCopy
  /-- Computes HMAC-SHA-384 with a key slot (R435). -/
  | hmac
  /-- Derives the identity seed and CDI from the UDS (R435). -/
  | udsDerive
  /-- Expands a key slot into another by HKDF (R435). -/
  | hkdfExpand
  /-- Produces random bytes from CTR_DRBG (R435). -/
  | drbg
  /-- The DRBG reseeds from the entropy source every 2^20 requests (R435). -/
  | drbgReseed
  /-- Extends a measurement slot with 48 bytes (R438). -/
  | mext
  /-- Power good resets the package and starts boot stage 0 (R451). -/
  | packagePowerOn
  /-- PERST# or a hot reset resets the PCIe port and stops every TDI (R451). -/
  | hostPortReset
  /-- A fetched word that is no instruction (zero word, reserved unit, unassigned opcode) reaches decode and raises ILLEGAL (R82). -/
  | illegalWord
  /-- The standby Timetable core fails while the device runs, take-over becomes unavailable and STANDBY is cleared in the inventory record (R39). -/
  | standbyTimetableFailure
  /-- Package power is lost or removed (for example after THERMTRIP_N) and every volatile state, the checkpoint domain included, is lost (R258). -/
  | packagePowerLoss
  /-- A core fails while running; its tasks are requeued or the launch faults (R351). -/
  | coreFailure (o : IdxEv)
  /-- A kick write sets a spool's tail and pending bit, or stops it with an error (R326). -/
  | spkick (o : KickEv)
  /-- A write to a command spool's registers, enabling it or discarded while enabled (R325). -/
  | spoolRegWrite (o : VfRegEv)
  /-- Writing 1 to SPSTOP clears SPERR and restarts the spool (R325). -/
  | spstopClear (o : TwoEv)
  /-- Assigns device spools to a VF if the conditions hold (R325). -/
  | spallocWrite (o : IdxValEv)
  /-- The host advances a completion spool's consumer count (R336). -/
  | csconsWrite (o : VfRegEv)
  /-- A write to a completion spool's registers, enabling it or discarded (R336). -/
  | completionSpoolRegWrite (o : VfRegEv)
  /-- Starts pre-copy migration of a tenant (R353). -/
  | migctlStart (o : IdxEv)
  /-- Writes the list of frames written since the last report (R353). -/
  | migctlReport (o : IdxEv)
  /-- Stops parsing the tenant's packets and enters STOPPING (R353). -/
  | migctlStop (o : IdxEv)
  /-- Returns a migrating tenant to NORMAL (R353). -/
  | migctlAbort (o : IdxEv)
  /-- Resumes a STOPPED tenant (R353). -/
  | migctlResume (o : IdxEv)
  /-- A Timetable core takes the primary role if allowed (R357). -/
  | ttroleWrite (o : IdxValEv)
  /-- Sets pending-kick bits (R357). -/
  | pkbset (o : IdxValEv)
  /-- Clears pending-kick bits (R357). -/
  | pkbclr (o : IdxValEv)
  /-- The patrol scrub reads a granule as its period requires (R256). -/
  | patrolScrub (o : IdxEv)
  /-- An HBM channel fails; its granules read ERROR and frames are withdrawn (R251). -/
  | channelFailure (o : TwoEv)
  /-- Requests invalidation of translations of a page or an ASID (R390). -/
  | xlinvWrite (o : IdxValEv)
  /-- Clearing SVALID frees a slot and moves NEXT into FIRST (R402). -/
  | errorSlotClear (o : IdxValEv)
  /-- A flit arrives on a Molpol port, is checked by CRC and tag and delivered (R358). -/
  | flitReceive (o : FlitEv)
  /-- An enabled port detects a peer and begins training (R359). -/
  | portDetect (o : IdxEv)
  /-- Port training completes on eight lanes, four lanes or none (R359). -/
  | laneTraining (o : IdxValEv)
  /-- A lane of an open port fails and the port retrains on the good half (R359). -/
  | laneFailure (o : TwoEv)
  /-- The SPDM session completes or fails, opening or closing the port (R361). -/
  | portAuthentication (o : AuthEv)
  /-- A stream's FSEQ reaching 2^40 or a request rekeys every stream of the session (R362). -/
  | keyUpdate (o : FlagEv)
  /-- The Thimble resets a CLOSED port to DOWN (R359). -/
  | portReset (o : IdxEv)
  /-- The Thimble's SPDM responder handles a request message (R443). -/
  | spdmRequest (o : SpdmEv)
  /-- A host read through the device-memory window (R381). -/
  | hostBar2Read (o : HostEv)
  /-- A host write through the device-memory window (R381). -/
  | hostBar2Write (o : HostEv)
  /-- Locks a TDI's configuration and binds its tenant (R382). -/
  | lockInterfaceRequest (o : LockEv)
  /-- Moves a TDI to RUN (R382). -/
  | startInterfaceRequest (o : IdxEv)
  /-- Returns a TDI to CONFIG_UNLOCKED, killing launches and unbinding the tenant (R382). -/
  | stopInterfaceRequest (o : IdxEv)
  /-- A frozen-register change, IDE failure or host violation puts a TDI in ERROR (R382). -/
  | tdiError (o : IdxEv)
  /-- An IDE_KM key refresh pauses the TDI's DMA briefly (R383). -/
  | ideKeyRefresh (o : IdxEv)
  /-- A PCIe read or atomic completion for a host-window granule arrives (R384). -/
  | hostCompletion (o : HostDataEv)
  /-- Assigns free frames to the caller after zero filling (R403). -/
  | assign (o : SvcFrames)
  /-- Makes an owned frame shared-read (R403). -/
  | share (o : SvcFrames)
  /-- Makes a free frame a host-window frame (R403). -/
  | hostwin (o : SvcFrames)
  /-- Releases frames through scrubbing to free after named sweeps (R403). -/
  | releaseService (o : SvcFrames)
  /-- Sets or clears a frame's durable bit and recovery context (R403). -/
  | durable (o : SvcEv)
  /-- Creates or changes an ASID entry and its recovery resources (R403). -/
  | context (o : SvcEv)
  /-- Bumps a family's generation and runs its sweep (R397). -/
  | revoke (o : SvcEv)
  /-- Checks a handle record and returns it sealed (R446). -/
  | mint (o : SvcEv)
  /-- Starts a key rotation of a tenant (R400). -/
  | rotate (o : SvcEv)
  /-- Returns a signed usage report (R422). -/
  | reportService (o : SvcEv)
  /-- Extends a platform measurement slot (R445). -/
  | extend (o : SvcEv)
  /-- Starts or ends a form loan (R342). -/
  | loan (o : SvcEv)
  /-- Binds a link stream or writes a group entry (R445). -/
  | link (o : SvcEv)
  /-- Clears error-bank slots and counts (R403). -/
  | clear (o : SvcEv)
  /-- The hypervisor sets or clears retention requests of banks (R228). -/
  | spretreqWrite (o : IdxValEv)
  /-- An untimed request waiting 64 cycles is served with a one-cycle freeze (R231). -/
  | untimedRequestForced (o : TwoEv)
  /-- The hypervisor claims or releases performance counters (R416). -/
  | cntclaimWrite (o : IdxValEv)
  /-- A low-half read of the counter window latches the high half into VFSH (R424). -/
  | guestCounterReadLo (o : TwoEv)
  /-- Resumes a core from its debug stop (R432). -/
  | dcmdResume (o : IdxEv)
  /-- Escalates a core's debug stop with cause BREAKPOINT (R432). -/
  | dcmdKill (o : IdxEv)
  /-- Starts a roll call of the partition (R431). -/
  | dcmdRollcall (o : IdxEv)
  /-- Reads or writes state of a stopped core at DADDR (R431). -/
  | ddataAccess (o : DdataEv)
  /-- Arms a work stop, requests a rollback, or refuses (R433). -/
  | wsarmWrite (o : IdxEv)
  /-- A panel's cores stop, tasks are rolled back or requeued, and the panel is scrubbed (R452). -/
  | panelReset (o : IdxEv)
  /-- A hub, Thimble or unbacked Timetable fatal error asserts FATAL_N and stops the package (R451). -/
  | fatalError (o : IdxEv)
  /-- Sensors report temperature every 10 µs and thermal actions follow (R450). -/
  | thermalSample (o : ThermEv)
  /-- The Thimble compares average power with PLIM and steps stretch levels (R448). -/
  | powerLimitCheck (o : TwoEv)
  /-- A droop detector raises a form's stretch level within 2 cycles (R448). -/
  | droop (o : IdxEv)
  /-- A write to a register with no behaviour of its own takes effect under its access codes (R8). -/
  | registerWrite (o : RegEv)
  deriving DecidableEq, Repr

end Sys2Proof
end

