-- ==== Sys2Proof/WellFormed.lean ====
section
/-! DEFINITION. Which instructions are well formed: the codes that decode refuses as RESERVED, and the static codes that
an instruction does not accept, refused as OPERAND (03_instruction_words R82, and the home chapters). -/

namespace Sys2Proof

/-- System register numbers that the map of R207 assigns. -/
def sysnoAssigned (n : BitVec 12) : Bool :=
  let k := n.toNat
  decide (k ≤ 0x00B) || (decide (0x010 ≤ k) && decide (k ≤ 0x017)) || (decide (0x020 ≤ k) && decide (k ≤ 0x02B))
    || (decide (0x030 ≤ k) && decide (k ≤ 0x037)) || decide (k = 0x040) || decide (k = 0x041)
    || (decide (0x050 ≤ k) && decide (k ≤ 0x05F))

/-- The numbers whose writes have rows of their own: LSTK, INBOXBASE, INBOXSIZE, REPLYBASE, REPLYSIZE, REPLYCONS. -/
def sysnoOwnRow (n : BitVec 12) : Bool :=
  let k := n.toNat
  (decide (0x010 ≤ k) && decide (k ≤ 0x017)) || decide (k = 0x030) || decide (k = 0x031) || decide (k = 0x034)
    || decide (k = 0x035) || decide (k = 0x037)

/-- A writing CSR word names an assigned register without a row of its own (R206). -/
def csrOk (o : CsrOp) : Bool := sysnoAssigned o.sysno && !sysnoOwnRow o.sysno

/-- A 6-bit format code that R42 assigns. -/
def fmtAssigned (c : BitVec 6) : Bool := decide (c.toNat ≤ 13)

/-- A format that conversions accept (R54, R118): neither QN4, XSUM, HANDLE nor RAW8. -/
def fmtConvertible (c : BitVec 6) : Bool := decide (c.toNat ≤ 9)

/-- A copy word's register run ends inside the file, and k stands only with SEM or TIMED (R80, R239). -/
def copyOk (o : CopyOp) (n : Nat) : Bool :=
  decide (o.so.toNat + n ≤ 63) && decide (o.mode ≠ 3) && (decide (o.mode ≠ 2) || decide (o.k = 0))

/-- A scope that is no reserved code (R80). -/
def scopeOk (c : BitVec 3) : Bool := decide (c.toNat ≤ 5)

/-- The k operand stands only with `post` (R310, R365). -/
def kPost (k : BitVec 4) (post : BitVec 1) : Bool := decide (post = 1) || decide (k = 0)

/-- CNTR fields that its kind does not use are reserved, and kinds 8 to 15 (R413). -/
def cntrOk (o : CntrOp) : Bool :=
  match o.kind.toNat with
  | 0 | 1 | 3 | 7 => decide (o.sa = 0) && decide (o.half = 0)
  | 2 | 6 => decide (o.sa = 0) && decide (o.half = 0) && decide (o.n = 0)
  | 4 => decide (o.half = 0) && decide (o.n = 0)
  | 5 => decide (o.n = 0)
  | _ => false

/-- VPLOG: a defined function, and zero in the predicate fields it does not use (R145). -/
def vplogOk (o : VplogOp) : Bool :=
  match o.func.toNat with
  | 8 | 9 => decide (o.pb = 0)
  | 10 | 11 => decide (o.pa = 0) && decide (o.pb = 0)
  | 12 | 13 | 14 | 15 => false
  | _ => true

/-- No field holds a reserved code (subcause RESERVED of R82). -/
def reservedOk (i : Instr) : Bool :=
  match i with
  | .fcvt o => fmtAssigned o.dst && fmtAssigned o.src && decide (o.mode.toNat ≤ 4)
  | .loop o => decide (o.nr.toNat ≤ 96) && decide (o.len ≠ 0) && (decide (o.norot = 0) || decide (o.nr = 0))
  | .csrr o => sysnoAssigned o.sysno
  | .csrw o | .csrs o | .csrc o => csrOk o
  | .fence o => scopeOk o.scope
  | .rdcyc o => decide (o.which ≠ 3)
  | .hnarrowRange o => decide (o.ppol ≠ 3)
  | .hfield o => decide (o.field.toNat ≤ 21)
  | .gset o => decide (o.field.toNat ≤ 16)
  | .grd o => decide (o.field.toNat ≤ 16)
  | .cntr o => cntrOk o
  | .vcmpF32 o | .vcmpBf16 o | .vcmpF16 o | .vicmp o => decide (o.cond.toNat ≤ 11)
  | .vplog o => vplogOk o
  | .vbcast o => decide (o.w ≠ 3)
  | .vins o => decide (o.w ≠ 3) && decide (o.ss ≠ 63)
  | .vextr o => decide (o.w ≠ 3)
  | .vrotl o => decide (o.w ≠ 3)
  | .vlds o | .vsts o => decide (o.ss ≠ 63)
  | .vatom o => decide (o.op.toNat ≤ 9)
  | .vpget o => decide (o.isP = 0) || decide (o.va.toNat ≤ 15)
  | .vclamp o => decide (o.ty ≠ 3) && decide (o.pol ≠ 3)
  | .cpin o | .cpout o | .cpmap o => copyOk o 1
  | .cpset o => copyOk o 2
  | .msend o => scopeOk o.scope && kPost o.k o.post
  | .amo o => scopeOk o.scope && decide (o.op.toNat ≤ 9) && (decide (o.ret = 0) || decide (o.post = 0))
      && (decide (o.ret = 1) || kPost o.k o.post)
  | .acas o => scopeOk o.scope && decide (o.sb ≠ 63)
  | .ared o => scopeOk o.scope && decide (o.op.toNat ≤ 9) && kPost o.k o.post
  | .csend o | .crecv o => scopeOk o.scope && kPost o.k o.post
  | .cagree o | .credx o => scopeOk o.scope && kPost o.k o.post
  | .cbar o => scopeOk o.scope && kPost o.k o.post
  | .add o => decide (o ≠ ⟨0, 0, 0, 0⟩)
  | _ => true

/-- The static codes that the instruction accepts (subcause OPERAND of R82 where it does not). -/
def operandOk (i : Instr) : Bool :=
  match i with
  | .bfx o => decide (o.pos.toNat + (o.wm1.toNat + 1) ≤ 64)
  | .bfi o => decide (o.pos.toNat + (o.wm1.toNat + 1) ≤ 64)
  | .fcvt o => fmtConvertible o.dst && fmtConvertible o.src
  | .fence o => decide (o.scope ≠ 5)
  | .vcmpF32 o | .vcmpBf16 o | .vcmpF16 o => decide (o.cond.toNat ≤ 7)
  | .vicmp o => decide (o.cond ≠ 6) && decide (o.cond ≠ 7)
  | .cpout o | .cpset o | .cpmap o => decide (o.mode ≠ 1)
  | .msend o => decide (o.scope ≠ 5) && decide (o.order ≠ 1) && decide (o.order ≠ 3)
  | .amo o => decide (o.scope ≠ 5) && (decide (o.ret = 1) || (decide (o.order ≠ 1) && decide (o.order ≠ 3)))
      && (decide (o.op ≠ 1) || decide (o.w64 = 0))
  | .acas o => decide (o.scope ≠ 5)
  | .ared o => decide (o.scope ≠ 5) && decide (o.order ≠ 1) && decide (o.order ≠ 3) && decide (o.op ≠ 9)
      && (decide (o.op ≠ 1) || decide (o.w64 = 0))
  | .csend o => (decide (o.scope = 3) || decide (o.scope = 4)) && (decide (o.order = 0) || decide (o.order = 2))
  | .crecv o => (decide (o.scope = 3) || decide (o.scope = 4)) && (decide (o.order = 0) || decide (o.order = 1))
  | .cagree o | .credx o => decide (o.scope = 3) || decide (o.scope = 4)
  | .cbar o => decide (o.scope = 3) || decide (o.scope = 4)
  | .bar o => decide (o.mask.getLsbD o.q.toNat = true)
  | _ => true

/-- A well-formed instruction: every code defined and accepted. -/
def wellFormed (i : Instr) : Bool := reservedOk i && operandOk i

end Sys2Proof
end

