-- ==== Sys2Proof/Decode.lean ====
section
/-! DEFINITION. The decoder of instruction words (03_instruction_words R73 to R94), total on any 48 bits and rejecting by
the subcause of R82, and after it the encoder, written from the same tables. -/

namespace Sys2Proof

/-- What the static part of decode answers (R82): the instruction, or the subcause ZERO 0, UNIT 1, OPCODE 2 or
RESERVED 3. DELTA and OPERAND need the queue's and the core's state and are checked after it. -/
inductive DecodeResult where
  | ok (i : Instr)
  | illegal (sub : BitVec 4)
  deriving DecidableEq, Repr

/-- Bits [lo + len − 1 : lo] of a word. -/
def fld (w : IWord) (lo len : Nat) : BitVec len := w.extractLsb' lo len

/-- RESERVED where a field of the instruction holds a reserved code. -/
def checked (i : Instr) : DecodeResult := if reservedOk i then .ok i else .illegal 3

/-- A write, set or clear word of system register `n` (R206). Writes to the loop stack, to INBOXBASE and INBOXSIZE and
to REPLYBASE, REPLYSIZE and REPLYCONS have rows of their own, which act on the word at decode. -/
def decodeCsr (k : CsrKind) (sa : BitVec 6) (n : BitVec 12) : DecodeResult :=
  if n.extractLsb' 3 9 = 2 then .ok .loopStackWrite
  else if n = 0x030 ∨ n = 0x031 then .ok .inboxSpoolWrite
  else if n = 0x034 ∨ n = 0x035 ∨ n = 0x037 then .ok .replySpoolWrite
  else match k with
    | .write => checked (.csrw ⟨sa, n⟩)
    | .set => checked (.csrs ⟨sa, n⟩)
    | .clear => checked (.csrc ⟨sa, n⟩)

/-- Decode the words of unit 0x0 (R93, R94). -/
def decodeU0 (w : IWord) : DecodeResult :=
  match (fld w 38 6).toNat with
  | 0x00 => if fld w 3 17 = 0 then checked (.add ⟨fld w 32 6, fld w 26 6, fld w 20 6, fld w 0 3⟩) else .illegal 3
  | 0x01 => if fld w 0 20 = 0 then checked (.sub ⟨fld w 32 6, fld w 26 6, fld w 20 6⟩) else .illegal 3
  | 0x02 => if fld w 0 20 = 0 then checked (.mul ⟨fld w 32 6, fld w 26 6, fld w 20 6⟩) else .illegal 3
  | 0x03 => if fld w 0 20 = 0 then checked (.mulh ⟨fld w 32 6, fld w 26 6, fld w 20 6⟩) else .illegal 3
  | 0x04 => if fld w 0 20 = 0 then checked (.mulhu ⟨fld w 32 6, fld w 26 6, fld w 20 6⟩) else .illegal 3
  | 0x05 => if fld w 0 20 = 0 then checked (.div ⟨fld w 32 6, fld w 26 6, fld w 20 6⟩) else .illegal 3
  | 0x06 => if fld w 0 20 = 0 then checked (.divu ⟨fld w 32 6, fld w 26 6, fld w 20 6⟩) else .illegal 3
  | 0x07 => if fld w 0 20 = 0 then checked (.rem ⟨fld w 32 6, fld w 26 6, fld w 20 6⟩) else .illegal 3
  | 0x08 => if fld w 0 20 = 0 then checked (.remu ⟨fld w 32 6, fld w 26 6, fld w 20 6⟩) else .illegal 3
  | 0x09 => if fld w 0 20 = 0 then checked (.and ⟨fld w 32 6, fld w 26 6, fld w 20 6⟩) else .illegal 3
  | 0x0A => if fld w 0 20 = 0 then checked (.or ⟨fld w 32 6, fld w 26 6, fld w 20 6⟩) else .illegal 3
  | 0x0B => if fld w 0 20 = 0 then checked (.xor ⟨fld w 32 6, fld w 26 6, fld w 20 6⟩) else .illegal 3
  | 0x0C => if fld w 0 20 = 0 then checked (.andn ⟨fld w 32 6, fld w 26 6, fld w 20 6⟩) else .illegal 3
  | 0x0D => if fld w 0 20 = 0 then checked (.shl ⟨fld w 32 6, fld w 26 6, fld w 20 6⟩) else .illegal 3
  | 0x0E => if fld w 0 20 = 0 then checked (.shr ⟨fld w 32 6, fld w 26 6, fld w 20 6⟩) else .illegal 3
  | 0x0F => if fld w 0 20 = 0 then checked (.sar ⟨fld w 32 6, fld w 26 6, fld w 20 6⟩) else .illegal 3
  | 0x10 => if fld w 0 20 = 0 then checked (.min ⟨fld w 32 6, fld w 26 6, fld w 20 6⟩) else .illegal 3
  | 0x11 => if fld w 0 20 = 0 then checked (.max ⟨fld w 32 6, fld w 26 6, fld w 20 6⟩) else .illegal 3
  | 0x12 => if fld w 0 20 = 0 then checked (.minu ⟨fld w 32 6, fld w 26 6, fld w 20 6⟩) else .illegal 3
  | 0x13 => if fld w 0 20 = 0 then checked (.maxu ⟨fld w 32 6, fld w 26 6, fld w 20 6⟩) else .illegal 3
  | 0x14 => if fld w 0 20 = 0 then checked (.slt ⟨fld w 32 6, fld w 26 6, fld w 20 6⟩) else .illegal 3
  | 0x15 => if fld w 0 20 = 0 then checked (.sltu ⟨fld w 32 6, fld w 26 6, fld w 20 6⟩) else .illegal 3
  | 0x16 => if fld w 0 20 = 0 then checked (.seq ⟨fld w 32 6, fld w 26 6, fld w 20 6⟩) else .illegal 3
  | 0x17 => if fld w 0 26 = 0 then checked (.clz ⟨fld w 32 6, fld w 26 6⟩) else .illegal 3
  | 0x18 => if fld w 0 26 = 0 then checked (.ctz ⟨fld w 32 6, fld w 26 6⟩) else .illegal 3
  | 0x19 => if fld w 0 26 = 0 then checked (.popc ⟨fld w 32 6, fld w 26 6⟩) else .illegal 3
  | 0x1A => if fld w 6 20 = 0 then checked (.sext ⟨fld w 32 6, fld w 26 6, fld w 0 6⟩) else .illegal 3
  | 0x1B => if fld w 6 20 = 0 then checked (.zext ⟨fld w 32 6, fld w 26 6, fld w 0 6⟩) else .illegal 3
  | 0x1C => if fld w 12 14 = 0 then checked (.bfx ⟨fld w 32 6, fld w 26 6, fld w 6 6, fld w 0 6⟩) else .illegal 3
  | 0x1D => if fld w 12 8 = 0 then checked (.bfi ⟨fld w 32 6, fld w 26 6, fld w 20 6, fld w 6 6, fld w 0 6⟩) else .illegal 3
  | 0x1E => if fld w 0 26 = 0 then checked (.mov ⟨fld w 32 6, fld w 26 6⟩) else .illegal 3
  | 0x20 => checked (.addSi ⟨fld w 32 6, fld w 26 6, fld w 0 26⟩)
  | 0x29 => checked (.andSi ⟨fld w 32 6, fld w 26 6, fld w 0 26⟩)
  | 0x2A => checked (.orSi ⟨fld w 32 6, fld w 26 6, fld w 0 26⟩)
  | 0x2B => checked (.xorSi ⟨fld w 32 6, fld w 26 6, fld w 0 26⟩)
  | 0x2D => if fld w 6 20 = 0 then checked (.shlSi ⟨fld w 32 6, fld w 26 6, fld w 0 6⟩) else .illegal 3
  | 0x2E => if fld w 6 20 = 0 then checked (.shrSi ⟨fld w 32 6, fld w 26 6, fld w 0 6⟩) else .illegal 3
  | 0x2F => if fld w 6 20 = 0 then checked (.sarSi ⟨fld w 32 6, fld w 26 6, fld w 0 6⟩) else .illegal 3
  | 0x30 => checked (.minSi ⟨fld w 32 6, fld w 26 6, fld w 0 26⟩)
  | 0x31 => checked (.maxSi ⟨fld w 32 6, fld w 26 6, fld w 0 26⟩)
  | 0x34 => checked (.sltSi ⟨fld w 32 6, fld w 26 6, fld w 0 26⟩)
  | 0x35 => checked (.sltuSi ⟨fld w 32 6, fld w 26 6, fld w 0 26⟩)
  | 0x36 => checked (.seqSi ⟨fld w 32 6, fld w 26 6, fld w 0 26⟩)
  | _ => .illegal 2

/-- Decode the words of unit 0x1 (R93, R94). -/
def decodeU1 (w : IWord) : DecodeResult :=
  match (fld w 38 6).toNat with
  | 0x00 => checked (.ld ⟨fld w 32 6, fld w 26 6, fld w 24 2, fld w 0 24⟩)
  | 0x01 => checked (.ldu ⟨fld w 32 6, fld w 26 6, fld w 24 2, fld w 0 24⟩)
  | 0x02 => checked (.st ⟨fld w 32 6, fld w 26 6, fld w 24 2, fld w 0 24⟩)
  | 0x03 => checked (.li ⟨fld w 32 6, fld w 0 32⟩)
  | 0x04 => checked (.lih ⟨fld w 32 6, fld w 0 32⟩)
  | 0x08 => if fld w 0 20 = 0 then checked (.fadd ⟨fld w 32 6, fld w 26 6, fld w 20 6⟩) else .illegal 3
  | 0x09 => if fld w 0 20 = 0 then checked (.fsub ⟨fld w 32 6, fld w 26 6, fld w 20 6⟩) else .illegal 3
  | 0x0A => if fld w 0 20 = 0 then checked (.fmul ⟨fld w 32 6, fld w 26 6, fld w 20 6⟩) else .illegal 3
  | 0x0B => if fld w 6 14 = 0 then checked (.ffma ⟨fld w 32 6, fld w 26 6, fld w 20 6, fld w 0 6⟩) else .illegal 3
  | 0x0C => if fld w 0 20 = 0 then checked (.fdiv ⟨fld w 32 6, fld w 26 6, fld w 20 6⟩) else .illegal 3
  | 0x0D => if fld w 0 26 = 0 then checked (.fsqrt ⟨fld w 32 6, fld w 26 6⟩) else .illegal 3
  | 0x0E => if fld w 0 20 = 0 then checked (.fmin ⟨fld w 32 6, fld w 26 6, fld w 20 6⟩) else .illegal 3
  | 0x0F => if fld w 0 20 = 0 then checked (.fmax ⟨fld w 32 6, fld w 26 6, fld w 20 6⟩) else .illegal 3
  | 0x10 => if fld w 3 17 = 0 then checked (.fcmp ⟨fld w 32 6, fld w 26 6, fld w 20 6, fld w 0 3⟩) else .illegal 3
  | 0x11 => if fld w 16 10 = 0 then checked (.fcvt ⟨fld w 32 6, fld w 26 6, fld w 15 1, fld w 12 3, fld w 6 6, fld w 0 6⟩) else .illegal 3
  | 0x12 => if fld w 0 26 = 0 then checked (.fclass ⟨fld w 32 6, fld w 26 6⟩) else .illegal 3
  | _ => .illegal 2

/-- Decode the words of unit 0x2 (R93, R94). -/
def decodeU2 (w : IWord) : DecodeResult :=
  match (fld w 38 6).toNat with
  | 0x00 => checked (.beq ⟨fld w 32 6, fld w 26 6, fld w 0 26⟩)
  | 0x01 => checked (.bne ⟨fld w 32 6, fld w 26 6, fld w 0 26⟩)
  | 0x02 => checked (.blt ⟨fld w 32 6, fld w 26 6, fld w 0 26⟩)
  | 0x03 => checked (.bge ⟨fld w 32 6, fld w 26 6, fld w 0 26⟩)
  | 0x04 => checked (.bltu ⟨fld w 32 6, fld w 26 6, fld w 0 26⟩)
  | 0x05 => checked (.bgeu ⟨fld w 32 6, fld w 26 6, fld w 0 26⟩)
  | 0x08 => if fld w 32 6 = 0 then checked (.jmp ⟨fld w 0 32⟩) else .illegal 3
  | 0x09 => checked (.jal ⟨fld w 32 6, fld w 0 32⟩)
  | 0x0A => if fld w 32 6 = 0 ∧ fld w 0 26 = 0 then checked (.jr ⟨fld w 26 6⟩) else .illegal 3
  | 0x0B => if fld w 0 26 = 0 then checked (.jalr ⟨fld w 32 6, fld w 26 6⟩) else .illegal 3
  | 0x0C => if fld w 32 6 = 0 ∧ fld w 8 2 = 0 then checked (.loop ⟨fld w 26 6, fld w 10 16, fld w 7 1, fld w 0 7⟩) else .illegal 3
  | 0x0D =>
    match (fld w 26 6).toNat with
    | 0 => if fld w 26 12 = 0 then checked (.loopb ⟨fld w 0 26⟩) else .illegal 3
    | 1 => if fld w 32 6 = 0 ∧ fld w 0 26 = 0 then checked (.loopbBreak) else .illegal 3
    | _ => .illegal 3
  | 0x0E => if fld w 37 1 = 0 ∧ fld w 27 6 = 0 then checked (.pchk ⟨fld w 33 4, fld w 26 1, fld w 0 26⟩) else .illegal 3
  | _ => .illegal 2

/-- Decode the words of unit 0x3 (R93, R94). -/
def decodeU3 (w : IWord) : DecodeResult :=
  match (fld w 38 6).toNat with
  | 0x00 => if fld w 26 6 = 0 ∧ fld w 0 14 = 0 then checked (.csrr ⟨fld w 32 6, fld w 14 12⟩) else .illegal 3
  | 0x01 => if fld w 32 6 = 0 ∧ fld w 0 14 = 0 then decodeCsr .write (fld w 26 6) (fld w 14 12) else .illegal 3
  | 0x02 => if fld w 32 6 = 0 ∧ fld w 0 14 = 0 then decodeCsr .set (fld w 26 6) (fld w 14 12) else .illegal 3
  | 0x03 => if fld w 32 6 = 0 ∧ fld w 0 14 = 0 then decodeCsr .clear (fld w 26 6) (fld w 14 12) else .illegal 3
  | 0x04 => if fld w 26 12 = 0 then checked (.trap ⟨fld w 0 26⟩) else .illegal 3
  | 0x05 => if fld w 0 38 = 0 then checked (.eret) else .illegal 3
  | 0x06 => if fld w 3 35 = 0 then checked (.fence ⟨fld w 0 3⟩) else .illegal 3
  | 0x07 =>
    match (fld w 2 2).toNat with
    | 0 => if fld w 2 30 = 0 then checked (.qsync ⟨fld w 32 6, fld w 0 2⟩) else .illegal 3
    | 1 => if fld w 4 22 = 0 then checked (.qsyncUpto ⟨fld w 32 6, fld w 26 6, fld w 0 2⟩) else .illegal 3
    | 2 => if fld w 4 28 = 0 then checked (.qsyncRead ⟨fld w 32 6, fld w 0 2⟩) else .illegal 3
    | _ => .illegal 3
  | 0x08 => if fld w 4 34 = 0 then checked (.qflush ⟨fld w 0 4⟩) else .illegal 3
  | 0x09 => if fld w 0 26 = 0 then checked (.waitev ⟨fld w 32 6, fld w 26 6⟩) else .illegal 3
  | 0x0A => if fld w 0 38 = 0 then checked (.nop) else .illegal 3
  | 0x0B => if fld w 0 32 = 0 then checked (.rdtime ⟨fld w 32 6⟩) else .illegal 3
  | 0x0C => if fld w 2 30 = 0 then checked (.rdcyc ⟨fld w 32 6, fld w 0 2⟩) else .illegal 3
  | 0x10 => if fld w 2 30 = 0 then checked (.mrecv ⟨fld w 32 6, fld w 1 1, fld w 0 1⟩) else .illegal 3
  | 0x11 => if fld w 0 32 = 0 then checked (.mpeek ⟨fld w 32 6⟩) else .illegal 3
  | 0x14 => if fld w 32 6 = 0 ∧ fld w 0 26 = 0 then checked (.tspawn ⟨fld w 26 6⟩) else .illegal 3
  | 0x15 => if fld w 32 6 = 0 ∧ fld w 0 20 = 0 then checked (.tjoin ⟨fld w 26 6, fld w 20 6⟩) else .illegal 3
  | 0x16 => if fld w 0 38 = 0 then checked (.texit) else .illegal 3
  | 0x17 => if fld w 32 6 = 0 ∧ fld w 0 26 = 0 then checked (.trem ⟨fld w 26 6⟩) else .illegal 3
  | 0x18 => if fld w 32 6 = 0 then checked (.live ⟨fld w 26 6, fld w 0 26⟩) else .illegal 3
  | 0x1C => if fld w 32 6 = 0 ∧ fld w 4 16 = 0 then checked (.sinit ⟨fld w 26 6, fld w 20 6, fld w 0 4⟩) else .illegal 3
  | 0x1D => if fld w 4 28 = 0 then checked (.sget ⟨fld w 32 6, fld w 0 4⟩) else .illegal 3
  | _ => .illegal 2

/-- Decode the words of unit 0x4 (R93, R94). -/
def decodeU4 (w : IWord) : DecodeResult :=
  match (fld w 38 6).toNat with
  | 0x00 => if fld w 28 5 = 0 ∧ fld w 16 6 = 0 then checked (.hld ⟨fld w 33 5, fld w 22 6, fld w 0 16⟩) else .illegal 3
  | 0x01 => if fld w 33 5 = 0 ∧ fld w 16 6 = 0 then checked (.hst ⟨fld w 28 5, fld w 22 6, fld w 0 16⟩) else .illegal 3
  | 0x02 =>
    match (fld w 2 1).toNat with
    | 0 => if fld w 2 14 = 0 then checked (.hnarrow ⟨fld w 33 5, fld w 28 5, fld w 22 6, fld w 16 6, fld w 0 2⟩) else .illegal 3
    | 1 => if fld w 7 9 = 0 ∧ fld w 0 2 = 0 then checked (.hnarrowRange ⟨fld w 33 5, fld w 28 5, fld w 22 6, fld w 16 6, fld w 5 2, fld w 3 2⟩) else .illegal 3
    | _ => .illegal 3
  | 0x03 => if fld w 9 19 = 0 then checked (.hdrop ⟨fld w 33 5, fld w 28 5, fld w 0 9⟩) else .illegal 3
  | 0x04 => if fld w 33 5 = 0 ∧ fld w 5 17 = 0 then checked (.hfield ⟨fld w 28 5, fld w 22 6, fld w 0 5⟩) else .illegal 3
  | 0x05 => if fld w 0 28 = 0 then checked (.hmov ⟨fld w 33 5, fld w 28 5⟩) else .illegal 3
  | 0x06 => if fld w 0 33 = 0 then checked (.hclr ⟨fld w 33 5⟩) else .illegal 3
  | 0x08 => if fld w 28 5 = 0 ∧ fld w 16 6 = 0 then checked (.gcfg ⟨fld w 33 5, fld w 22 6, fld w 0 16⟩) else .illegal 3
  | 0x09 => if fld w 28 5 = 0 ∧ fld w 5 17 = 0 then checked (.gset ⟨fld w 33 5, fld w 22 6, fld w 0 5⟩) else .illegal 3
  | 0x0A => if fld w 28 5 = 0 ∧ fld w 5 17 = 0 then checked (.grd ⟨fld w 33 5, fld w 22 6, fld w 0 5⟩) else .illegal 3
  | 0x0C => if fld w 37 1 = 0 ∧ fld w 28 5 = 0 ∧ fld w 3 13 = 0 then checked (.lset ⟨fld w 33 4, fld w 22 6, fld w 16 6, fld w 2 1, fld w 0 2⟩) else .illegal 3
  | _ => .illegal 2

/-- Decode the words of unit 0x5 (R93, R94). -/
def decodeU5 (w : IWord) : DecodeResult :=
  match (fld w 38 6).toNat with
  | 0x00 => checked (.vaddF32 ⟨fld w 34 4, fld w 24 10, fld w 14 10, fld w 4 10, fld w 0 4⟩)
  | 0x01 => checked (.vaddBf16 ⟨fld w 34 4, fld w 24 10, fld w 14 10, fld w 4 10, fld w 0 4⟩)
  | 0x02 => checked (.vaddF16 ⟨fld w 34 4, fld w 24 10, fld w 14 10, fld w 4 10, fld w 0 4⟩)
  | 0x03 => checked (.vsubF32 ⟨fld w 34 4, fld w 24 10, fld w 14 10, fld w 4 10, fld w 0 4⟩)
  | 0x04 => checked (.vsubBf16 ⟨fld w 34 4, fld w 24 10, fld w 14 10, fld w 4 10, fld w 0 4⟩)
  | 0x05 => checked (.vsubF16 ⟨fld w 34 4, fld w 24 10, fld w 14 10, fld w 4 10, fld w 0 4⟩)
  | 0x06 => checked (.vmulF32 ⟨fld w 34 4, fld w 24 10, fld w 14 10, fld w 4 10, fld w 0 4⟩)
  | 0x07 => checked (.vmulBf16 ⟨fld w 34 4, fld w 24 10, fld w 14 10, fld w 4 10, fld w 0 4⟩)
  | 0x08 => checked (.vmulF16 ⟨fld w 34 4, fld w 24 10, fld w 14 10, fld w 4 10, fld w 0 4⟩)
  | 0x09 => checked (.vfmaF32 ⟨fld w 34 4, fld w 24 10, fld w 14 10, fld w 4 10, fld w 0 4⟩)
  | 0x0A => checked (.vfmaBf16 ⟨fld w 34 4, fld w 24 10, fld w 14 10, fld w 4 10, fld w 0 4⟩)
  | 0x0B => checked (.vfmaF16 ⟨fld w 34 4, fld w 24 10, fld w 14 10, fld w 4 10, fld w 0 4⟩)
  | 0x0C => checked (.vfmsF32 ⟨fld w 34 4, fld w 24 10, fld w 14 10, fld w 4 10, fld w 0 4⟩)
  | 0x0D => checked (.vfmsBf16 ⟨fld w 34 4, fld w 24 10, fld w 14 10, fld w 4 10, fld w 0 4⟩)
  | 0x0E => checked (.vfmsF16 ⟨fld w 34 4, fld w 24 10, fld w 14 10, fld w 4 10, fld w 0 4⟩)
  | 0x0F => checked (.vfnmaF32 ⟨fld w 34 4, fld w 24 10, fld w 14 10, fld w 4 10, fld w 0 4⟩)
  | 0x10 => checked (.vfnmaBf16 ⟨fld w 34 4, fld w 24 10, fld w 14 10, fld w 4 10, fld w 0 4⟩)
  | 0x11 => checked (.vfnmaF16 ⟨fld w 34 4, fld w 24 10, fld w 14 10, fld w 4 10, fld w 0 4⟩)
  | 0x12 => checked (.vmaxF32 ⟨fld w 34 4, fld w 24 10, fld w 14 10, fld w 4 10, fld w 0 4⟩)
  | 0x13 => checked (.vmaxBf16 ⟨fld w 34 4, fld w 24 10, fld w 14 10, fld w 4 10, fld w 0 4⟩)
  | 0x14 => checked (.vmaxF16 ⟨fld w 34 4, fld w 24 10, fld w 14 10, fld w 4 10, fld w 0 4⟩)
  | 0x15 => checked (.vminF32 ⟨fld w 34 4, fld w 24 10, fld w 14 10, fld w 4 10, fld w 0 4⟩)
  | 0x16 => checked (.vminBf16 ⟨fld w 34 4, fld w 24 10, fld w 14 10, fld w 4 10, fld w 0 4⟩)
  | 0x17 => checked (.vminF16 ⟨fld w 34 4, fld w 24 10, fld w 14 10, fld w 4 10, fld w 0 4⟩)
  | 0x18 => if fld w 4 10 = 0 then checked (.vabsF32 ⟨fld w 34 4, fld w 24 10, fld w 14 10, fld w 0 4⟩) else .illegal 3
  | 0x19 => if fld w 4 10 = 0 then checked (.vabsBf16 ⟨fld w 34 4, fld w 24 10, fld w 14 10, fld w 0 4⟩) else .illegal 3
  | 0x1A => if fld w 4 10 = 0 then checked (.vabsF16 ⟨fld w 34 4, fld w 24 10, fld w 14 10, fld w 0 4⟩) else .illegal 3
  | 0x1B => if fld w 4 10 = 0 then checked (.vnegF32 ⟨fld w 34 4, fld w 24 10, fld w 14 10, fld w 0 4⟩) else .illegal 3
  | 0x1C => if fld w 4 10 = 0 then checked (.vnegBf16 ⟨fld w 34 4, fld w 24 10, fld w 14 10, fld w 0 4⟩) else .illegal 3
  | 0x1D => if fld w 4 10 = 0 then checked (.vnegF16 ⟨fld w 34 4, fld w 24 10, fld w 14 10, fld w 0 4⟩) else .illegal 3
  | 0x1E => if fld w 4 10 = 0 then checked (.vrcpF32 ⟨fld w 34 4, fld w 24 10, fld w 14 10, fld w 0 4⟩) else .illegal 3
  | 0x1F => if fld w 4 10 = 0 then checked (.vrcpBf16 ⟨fld w 34 4, fld w 24 10, fld w 14 10, fld w 0 4⟩) else .illegal 3
  | 0x20 => if fld w 4 10 = 0 then checked (.vrcpF16 ⟨fld w 34 4, fld w 24 10, fld w 14 10, fld w 0 4⟩) else .illegal 3
  | 0x21 => if fld w 4 10 = 0 then checked (.vrsqF32 ⟨fld w 34 4, fld w 24 10, fld w 14 10, fld w 0 4⟩) else .illegal 3
  | 0x22 => if fld w 4 10 = 0 then checked (.vrsqBf16 ⟨fld w 34 4, fld w 24 10, fld w 14 10, fld w 0 4⟩) else .illegal 3
  | 0x23 => if fld w 4 10 = 0 then checked (.vrsqF16 ⟨fld w 34 4, fld w 24 10, fld w 14 10, fld w 0 4⟩) else .illegal 3
  | 0x24 => if fld w 4 10 = 0 then checked (.vsqrtF32 ⟨fld w 34 4, fld w 24 10, fld w 14 10, fld w 0 4⟩) else .illegal 3
  | 0x25 => if fld w 4 10 = 0 then checked (.vsqrtBf16 ⟨fld w 34 4, fld w 24 10, fld w 14 10, fld w 0 4⟩) else .illegal 3
  | 0x26 => if fld w 4 10 = 0 then checked (.vsqrtF16 ⟨fld w 34 4, fld w 24 10, fld w 14 10, fld w 0 4⟩) else .illegal 3
  | 0x27 => if fld w 4 10 = 0 then checked (.vexp2F32 ⟨fld w 34 4, fld w 24 10, fld w 14 10, fld w 0 4⟩) else .illegal 3
  | 0x28 => if fld w 4 10 = 0 then checked (.vexp2Bf16 ⟨fld w 34 4, fld w 24 10, fld w 14 10, fld w 0 4⟩) else .illegal 3
  | 0x29 => if fld w 4 10 = 0 then checked (.vexp2F16 ⟨fld w 34 4, fld w 24 10, fld w 14 10, fld w 0 4⟩) else .illegal 3
  | 0x2A => if fld w 4 10 = 0 then checked (.vlog2F32 ⟨fld w 34 4, fld w 24 10, fld w 14 10, fld w 0 4⟩) else .illegal 3
  | 0x2B => if fld w 4 10 = 0 then checked (.vlog2Bf16 ⟨fld w 34 4, fld w 24 10, fld w 14 10, fld w 0 4⟩) else .illegal 3
  | 0x2C => if fld w 4 10 = 0 then checked (.vlog2F16 ⟨fld w 34 4, fld w 24 10, fld w 14 10, fld w 0 4⟩) else .illegal 3
  | 0x2D => if fld w 4 10 = 0 then checked (.vtanhF32 ⟨fld w 34 4, fld w 24 10, fld w 14 10, fld w 0 4⟩) else .illegal 3
  | 0x2E => if fld w 4 10 = 0 then checked (.vtanhBf16 ⟨fld w 34 4, fld w 24 10, fld w 14 10, fld w 0 4⟩) else .illegal 3
  | 0x2F => if fld w 4 10 = 0 then checked (.vtanhF16 ⟨fld w 34 4, fld w 24 10, fld w 14 10, fld w 0 4⟩) else .illegal 3
  | 0x30 => checked (.vscaleF32 ⟨fld w 34 4, fld w 24 10, fld w 14 10, fld w 4 10, fld w 0 4⟩)
  | 0x31 => checked (.vscaleBf16 ⟨fld w 34 4, fld w 24 10, fld w 14 10, fld w 4 10, fld w 0 4⟩)
  | 0x32 => checked (.vscaleF16 ⟨fld w 34 4, fld w 24 10, fld w 14 10, fld w 4 10, fld w 0 4⟩)
  | _ => .illegal 2

/-- Decode the words of unit 0x6 (R93, R94). -/
def decodeU6 (w : IWord) : DecodeResult :=
  match (fld w 38 6).toNat with
  | 0x00 => checked (.viadd ⟨fld w 34 4, fld w 24 10, fld w 14 10, fld w 4 10, fld w 0 4⟩)
  | 0x01 => checked (.visub ⟨fld w 34 4, fld w 24 10, fld w 14 10, fld w 4 10, fld w 0 4⟩)
  | 0x02 => checked (.vimul ⟨fld w 34 4, fld w 24 10, fld w 14 10, fld w 4 10, fld w 0 4⟩)
  | 0x03 => checked (.vimin ⟨fld w 34 4, fld w 24 10, fld w 14 10, fld w 4 10, fld w 0 4⟩)
  | 0x04 => checked (.vimax ⟨fld w 34 4, fld w 24 10, fld w 14 10, fld w 4 10, fld w 0 4⟩)
  | 0x05 => checked (.vand ⟨fld w 34 4, fld w 24 10, fld w 14 10, fld w 4 10, fld w 0 4⟩)
  | 0x06 => checked (.vor ⟨fld w 34 4, fld w 24 10, fld w 14 10, fld w 4 10, fld w 0 4⟩)
  | 0x07 => checked (.vxor ⟨fld w 34 4, fld w 24 10, fld w 14 10, fld w 4 10, fld w 0 4⟩)
  | 0x08 => checked (.vshl ⟨fld w 34 4, fld w 24 10, fld w 14 10, fld w 4 10, fld w 0 4⟩)
  | 0x09 => checked (.vshr ⟨fld w 34 4, fld w 24 10, fld w 14 10, fld w 4 10, fld w 0 4⟩)
  | 0x0A => checked (.vsar ⟨fld w 34 4, fld w 24 10, fld w 14 10, fld w 4 10, fld w 0 4⟩)
  | 0x0C => if fld w 28 2 = 0 then checked (.vcmpF32 ⟨fld w 34 4, fld w 30 4, fld w 24 4, fld w 14 10, fld w 4 10, fld w 0 4⟩) else .illegal 3
  | 0x0D => if fld w 28 2 = 0 then checked (.vcmpBf16 ⟨fld w 34 4, fld w 30 4, fld w 24 4, fld w 14 10, fld w 4 10, fld w 0 4⟩) else .illegal 3
  | 0x0E => if fld w 28 2 = 0 then checked (.vcmpF16 ⟨fld w 34 4, fld w 30 4, fld w 24 4, fld w 14 10, fld w 4 10, fld w 0 4⟩) else .illegal 3
  | 0x0F => if fld w 28 2 = 0 then checked (.vicmp ⟨fld w 34 4, fld w 30 4, fld w 24 4, fld w 14 10, fld w 4 10, fld w 0 4⟩) else .illegal 3
  | 0x10 => checked (.vsel ⟨fld w 34 4, fld w 24 10, fld w 14 10, fld w 4 10, fld w 0 4⟩)
  | 0x11 => if fld w 28 2 = 0 ∧ fld w 18 6 = 0 ∧ fld w 8 6 = 0 ∧ fld w 0 4 = 0 then checked (.vplog ⟨fld w 34 4, fld w 30 4, fld w 24 4, fld w 14 4, fld w 4 4⟩) else .illegal 3
  | 0x12 => if fld w 4 20 = 0 then checked (.viota ⟨fld w 34 4, fld w 24 10, fld w 0 4⟩) else .illegal 3
  | _ => .illegal 2

/-- Decode the words of unit 0x7 (R93, R94). -/
def decodeU7 (w : IWord) : DecodeResult :=
  match (fld w 38 6).toNat with
  | 0x00 => if fld w 4 10 = 0 then checked (.vmov ⟨fld w 34 4, fld w 24 10, fld w 14 10, fld w 0 4⟩) else .illegal 3
  | 0x01 => if fld w 14 10 = 0 ∧ fld w 6 2 = 0 then checked (.vbcast ⟨fld w 34 4, fld w 24 10, fld w 8 6, fld w 4 2, fld w 0 4⟩) else .illegal 3
  | 0x02 => if fld w 30 4 = 0 ∧ fld w 7 1 = 0 ∧ fld w 0 4 = 0 then checked (.vextr ⟨fld w 34 4, fld w 24 6, fld w 14 10, fld w 8 6, fld w 6 1, fld w 4 2⟩) else .illegal 3
  | 0x03 => if fld w 14 10 = 0 ∧ fld w 6 2 = 0 then checked (.vins ⟨fld w 34 4, fld w 24 10, fld w 8 6, fld w 4 2, fld w 0 4⟩) else .illegal 3
  | 0x04 => checked (.vperm ⟨fld w 34 4, fld w 24 10, fld w 14 10, fld w 4 10, fld w 0 4⟩)
  | 0x05 => checked (.vshuf ⟨fld w 34 4, fld w 24 10, fld w 14 10, fld w 4 10, fld w 0 4⟩)
  | 0x06 => if fld w 6 2 = 0 then checked (.vrotl ⟨fld w 34 4, fld w 24 10, fld w 14 10, fld w 8 6, fld w 4 2, fld w 0 4⟩) else .illegal 3
  | 0x08 => if fld w 14 10 = 0 then checked (.vld ⟨fld w 34 4, fld w 24 10, fld w 8 6, fld w 4 4, fld w 0 4⟩) else .illegal 3
  | 0x09 => if fld w 14 10 = 0 then checked (.vst ⟨fld w 34 4, fld w 24 10, fld w 8 6, fld w 4 4, fld w 0 4⟩) else .illegal 3
  | 0x0A => if fld w 14 10 = 0 ∧ fld w 4 4 = 0 then checked (.vlds ⟨fld w 34 4, fld w 24 10, fld w 8 6, fld w 0 4⟩) else .illegal 3
  | 0x0B => if fld w 14 10 = 0 ∧ fld w 4 4 = 0 then checked (.vsts ⟨fld w 34 4, fld w 24 10, fld w 8 6, fld w 0 4⟩) else .illegal 3
  | 0x0C => if fld w 4 4 = 0 then checked (.vgather ⟨fld w 34 4, fld w 24 10, fld w 14 10, fld w 8 6, fld w 0 4⟩) else .illegal 3
  | 0x0D => if fld w 4 4 = 0 then checked (.vscatter ⟨fld w 34 4, fld w 24 10, fld w 14 10, fld w 8 6, fld w 0 4⟩) else .illegal 3
  | 0x10 => checked (.vcvt ⟨fld w 34 4, fld w 24 10, fld w 14 10, fld w 8 6, fld w 7 1, fld w 4 3, fld w 0 4⟩)
  | 0x11 =>
    match (fld w 4 4).toNat with
    | 0 => if fld w 0 8 = 0 then checked (.vquantIdx ⟨fld w 34 4, fld w 24 10, fld w 14 10, fld w 8 6⟩) else .illegal 3
    | 1 => if fld w 0 4 = 0 then checked (.vquantScl ⟨fld w 34 4, fld w 24 10, fld w 14 10, fld w 8 6⟩) else .illegal 3
    | _ => .illegal 3
  | 0x12 => if fld w 7 1 = 0 then checked (.vdeq ⟨fld w 34 4, fld w 24 10, fld w 14 10, fld w 8 6, fld w 4 3, fld w 0 4⟩) else .illegal 3
  | 0x13 =>
    match (fld w 4 4).toNat with
    | 4 => if fld w 0 4 = 0 then checked (.vxsencX32 ⟨fld w 34 4, fld w 24 10, fld w 14 10, fld w 8 6⟩) else .illegal 3
    | 5 => if fld w 0 4 = 0 then checked (.vxsencX64l ⟨fld w 34 4, fld w 24 10, fld w 14 10, fld w 8 6⟩) else .illegal 3
    | 6 => if fld w 0 4 = 0 then checked (.vxsencX64h ⟨fld w 34 4, fld w 24 10, fld w 14 10, fld w 8 6⟩) else .illegal 3
    | 7 | 8 | 9 | 10 | 11 | 12 | 13 | 14 | 15 => .illegal 3
    | _ => if fld w 6 8 = 0 ∧ fld w 0 4 = 0 then checked (.vxsencLoc ⟨fld w 34 4, fld w 24 10, fld w 14 10, fld w 4 2⟩) else .illegal 3
  | 0x14 =>
    match (fld w 4 4).toNat with
    | 0 => if fld w 0 8 = 0 then checked (.vxsdecX32 ⟨fld w 34 4, fld w 24 10, fld w 14 10, fld w 8 6⟩) else .illegal 3
    | 1 => if fld w 0 4 = 0 then checked (.vxsdecX64l ⟨fld w 34 4, fld w 24 10, fld w 14 10, fld w 8 6⟩) else .illegal 3
    | 2 => if fld w 0 4 = 0 then checked (.vxsdecX64h ⟨fld w 34 4, fld w 24 10, fld w 14 10, fld w 8 6⟩) else .illegal 3
    | _ => .illegal 3
  | 0x18 => if fld w 6 8 = 0 then checked (.vrsum ⟨fld w 34 4, fld w 24 10, fld w 14 10, fld w 4 2, fld w 0 4⟩) else .illegal 3
  | 0x19 => if fld w 6 8 = 0 then checked (.vrmax ⟨fld w 34 4, fld w 24 10, fld w 14 10, fld w 4 2, fld w 0 4⟩) else .illegal 3
  | 0x1A => if fld w 6 8 = 0 then checked (.vrmin ⟨fld w 34 4, fld w 24 10, fld w 14 10, fld w 4 2, fld w 0 4⟩) else .illegal 3
  | 0x1C => if fld w 6 18 = 0 then checked (.vpmark ⟨fld w 34 4, fld w 24 10, fld w 4 2, fld w 0 4⟩) else .illegal 3
  | 0x1D => if fld w 4 20 = 0 then checked (.vpclr ⟨fld w 34 4, fld w 24 10, fld w 0 4⟩) else .illegal 3
  | 0x1E => if fld w 30 4 = 0 ∧ fld w 5 9 = 0 ∧ fld w 0 4 = 0 then checked (.vpget ⟨fld w 34 4, fld w 24 6, fld w 14 10, fld w 4 1⟩) else .illegal 3
  | 0x20 => checked (.vatom ⟨fld w 34 4, fld w 24 10, fld w 14 10, fld w 8 6, fld w 4 4, fld w 0 4⟩)
  | 0x21 => checked (.vclamp ⟨fld w 34 4, fld w 24 10, fld w 14 10, fld w 8 6, fld w 6 2, fld w 4 2, fld w 0 4⟩)
  | _ => .illegal 2

/-- Decode the words of unit 0x8 (R93, R94). -/
def decodeU8 (w : IWord) : DecodeResult :=
  match (fld w 38 6).toNat with
  | 0x00 => if fld w 0 16 = 0 then checked (.tcfg ⟨fld w 34 4, fld w 31 3, fld w 24 7, fld w 17 7, fld w 16 1⟩) else .illegal 3
  | 0x01 => if fld w 0 31 = 0 then checked (.tzero ⟨fld w 34 4, fld w 31 3⟩) else .illegal 3
  | 0x02 => if fld w 7 19 = 0 ∧ fld w 0 6 = 0 then checked (.tld ⟨fld w 34 4, fld w 31 3, fld w 26 5, fld w 6 1⟩) else .illegal 3
  | 0x03 => if fld w 7 19 = 0 ∧ fld w 0 6 = 0 then checked (.tdrain ⟨fld w 34 4, fld w 31 3, fld w 26 5, fld w 6 1⟩) else .illegal 3
  | 0x04 => if fld w 0 4 = 0 then checked (.mma ⟨fld w 34 4, fld w 31 3, fld w 26 5, fld w 21 5, fld w 9 12, fld w 8 1, fld w 7 1, fld w 6 1, fld w 5 1, fld w 4 1⟩) else .illegal 3
  | 0x05 => if fld w 0 4 = 0 then checked (.mmas ⟨fld w 34 4, fld w 31 3, fld w 26 5, fld w 21 5, fld w 9 12, fld w 8 1, fld w 7 1, fld w 6 1, fld w 5 1, fld w 4 1⟩) else .illegal 3
  | 0x06 => if fld w 0 4 = 0 then checked (.mmaq ⟨fld w 34 4, fld w 31 3, fld w 26 5, fld w 21 5, fld w 9 12, fld w 8 1, fld w 7 1, fld w 6 1, fld w 5 1, fld w 4 1⟩) else .illegal 3
  | 0x07 =>
    match (fld w 19 2).toNat with
    | 0 => if fld w 0 26 = 0 then checked (.tpoisGet ⟨fld w 34 4, fld w 31 3, fld w 26 5⟩) else .illegal 3
    | 1 => if fld w 21 5 = 0 ∧ fld w 0 19 = 0 then checked (.tpoisMark ⟨fld w 34 4, fld w 31 3, fld w 26 5⟩) else .illegal 3
    | 2 => if fld w 21 10 = 0 ∧ fld w 0 19 = 0 then checked (.tpoisClr ⟨fld w 34 4, fld w 31 3⟩) else .illegal 3
    | _ => .illegal 3
  | 0x08 => if fld w 9 17 = 0 ∧ fld w 0 8 = 0 then checked (.tbias ⟨fld w 34 4, fld w 31 3, fld w 26 5, fld w 8 1⟩) else .illegal 3
  | _ => .illegal 2

/-- Decode the words of unit 0x9 (R93, R94). -/
def decodeU9 (w : IWord) : DecodeResult :=
  match (fld w 38 6).toNat with
  | 0x00 => checked (.cpin ⟨fld w 34 4, fld w 29 5, fld w 24 5, fld w 18 6, fld w 14 4, fld w 2 12, fld w 0 2⟩)
  | 0x01 => checked (.cpout ⟨fld w 34 4, fld w 29 5, fld w 24 5, fld w 18 6, fld w 14 4, fld w 2 12, fld w 0 2⟩)
  | 0x02 => checked (.cpset ⟨fld w 34 4, fld w 29 5, fld w 24 5, fld w 18 6, fld w 14 4, fld w 2 12, fld w 0 2⟩)
  | 0x03 => checked (.cpmap ⟨fld w 34 4, fld w 29 5, fld w 24 5, fld w 18 6, fld w 14 4, fld w 2 12, fld w 0 2⟩)
  | _ => .illegal 2

/-- Decode the words of unit 0xA (R93, R94). -/
def decodeUA (w : IWord) : DecodeResult :=
  match (fld w 38 6).toNat with
  | 0x00 => if fld w 29 5 = 0 ∧ fld w 6 2 = 0 then checked (.msend ⟨fld w 34 4, fld w 23 6, fld w 17 6, fld w 13 4, fld w 10 3, fld w 8 2, fld w 5 1, fld w 0 5⟩) else .illegal 3
  | 0x01 => if fld w 7 1 = 0 then checked (.amo ⟨fld w 34 4, fld w 29 5, fld w 23 6, fld w 17 6, fld w 13 4, fld w 10 3, fld w 8 2, fld w 6 1, fld w 5 1, fld w 4 1, fld w 0 4⟩) else .illegal 3
  | 0x02 => if fld w 5 3 = 0 ∧ fld w 0 4 = 0 then checked (.acas ⟨fld w 34 4, fld w 29 5, fld w 23 6, fld w 17 6, fld w 13 4, fld w 10 3, fld w 8 2, fld w 4 1⟩) else .illegal 3
  | 0x03 => if fld w 7 1 = 0 ∧ fld w 5 1 = 0 then checked (.ared ⟨fld w 34 4, fld w 29 5, fld w 23 6, fld w 17 6, fld w 13 4, fld w 10 3, fld w 8 2, fld w 6 1, fld w 4 1, fld w 0 4⟩) else .illegal 3
  | 0x08 => if fld w 17 6 = 0 ∧ fld w 7 1 = 0 ∧ fld w 0 6 = 0 then checked (.csend ⟨fld w 34 4, fld w 29 5, fld w 23 6, fld w 13 4, fld w 10 3, fld w 8 2, fld w 6 1⟩) else .illegal 3
  | 0x09 => if fld w 17 6 = 0 ∧ fld w 7 1 = 0 ∧ fld w 0 6 = 0 then checked (.crecv ⟨fld w 34 4, fld w 29 5, fld w 23 6, fld w 13 4, fld w 10 3, fld w 8 2, fld w 6 1⟩) else .illegal 3
  | 0x0A => if fld w 29 5 = 0 ∧ fld w 7 1 = 0 then checked (.cagree ⟨fld w 34 4, fld w 23 6, fld w 17 6, fld w 13 4, fld w 10 3, fld w 8 2, fld w 6 1, fld w 0 6⟩) else .illegal 3
  | 0x0B => if fld w 29 5 = 0 ∧ fld w 7 1 = 0 then checked (.credx ⟨fld w 34 4, fld w 23 6, fld w 17 6, fld w 13 4, fld w 10 3, fld w 8 2, fld w 6 1, fld w 0 6⟩) else .illegal 3
  | 0x0C => if fld w 29 5 = 0 ∧ fld w 7 1 = 0 ∧ fld w 0 6 = 0 then checked (.cbar ⟨fld w 34 4, fld w 23 6, fld w 17 6, fld w 13 4, fld w 10 3, fld w 8 2, fld w 6 1⟩) else .illegal 3
  | _ => .illegal 2

/-- Decode the words of unit 0xB (R93, R94). -/
def decodeUB (w : IWord) : DecodeResult :=
  match (fld w 38 6).toNat with
  | 0x00 => if fld w 0 12 = 0 then checked (.swait ⟨fld w 34 4, fld w 32 2, fld w 28 4, fld w 12 16⟩) else .illegal 3
  | 0x01 =>
    match (fld w 0 12).toNat with
    | 0 => if fld w 0 12 = 0 then checked (.spost ⟨fld w 34 4, fld w 32 2, fld w 28 4, fld w 12 16⟩) else .illegal 3
    | 1 => checked (.spostSub ⟨fld w 34 4, fld w 32 2, fld w 28 4, fld w 12 16⟩)
    | _ => .illegal 3
  | 0x02 => if fld w 5 27 = 0 then checked (.bar ⟨fld w 34 4, fld w 32 2, fld w 4 1, fld w 0 4⟩) else .illegal 3
  | 0x03 => if fld w 28 4 = 0 ∧ fld w 2 10 = 0 then checked (.waitc ⟨fld w 34 4, fld w 32 2, fld w 12 16, fld w 0 2⟩) else .illegal 3
  | 0x04 => if fld w 1 31 = 0 then checked (.qmark ⟨fld w 34 4, fld w 32 2, fld w 0 1⟩) else .illegal 3
  | _ => .illegal 2

/-- Decode the words of unit 0xC (R93, R94). -/
def decodeUC (w : IWord) : DecodeResult :=
  match (fld w 38 6).toNat with
  | 0x00 => if fld w 0 32 = 0 then checked (.rrel ⟨fld w 32 6⟩) else .illegal 3
  | 0x01 => if fld w 2 30 = 0 then checked (.rpget ⟨fld w 32 6, fld w 0 2⟩) else .illegal 3
  | 0x02 => if fld w 0 32 = 0 then checked (.rstat ⟨fld w 32 6⟩) else .illegal 3
  | 0x08 => if fld w 16 22 = 0 then checked (.bkpt ⟨fld w 0 16⟩) else .illegal 3
  | 0x09 => if fld w 0 32 = 0 then checked (.rollcall ⟨fld w 32 6⟩) else .illegal 3
  | 0x0A => if fld w 9 17 = 0 then checked (.cntr ⟨fld w 32 6, fld w 26 6, fld w 8 1, fld w 4 4, fld w 0 4⟩) else .illegal 3
  | 0x0B =>
    match (fld w 4 4).toNat with
    | 0 => if fld w 32 6 = 0 ∧ fld w 4 22 = 0 then checked (.cntwValue ⟨fld w 26 6, fld w 0 4⟩) else .illegal 3
    | 1 => if fld w 32 6 = 0 ∧ fld w 8 18 = 0 then checked (.cntwCfg ⟨fld w 26 6, fld w 0 4⟩) else .illegal 3
    | 2 => if fld w 8 30 = 0 ∧ fld w 0 4 = 0 then checked (.cntwChartClear) else .illegal 3
    | _ => .illegal 3
  | _ => .illegal 2

/-- Read one instruction word (R82): subcauses ZERO, UNIT, OPCODE and RESERVED, in that order. -/
def decode (w : IWord) : DecodeResult :=
  if w = 0 then .illegal 0
  else match (fld w 44 4).toNat with
  | 0x0 => decodeU0 w
  | 0x1 => decodeU1 w
  | 0x2 => decodeU2 w
  | 0x3 => decodeU3 w
  | 0x4 => decodeU4 w
  | 0x5 => decodeU5 w
  | 0x6 => decodeU6 w
  | 0x7 => decodeU7 w
  | 0x8 => decodeU8 w
  | 0x9 => decodeU9 w
  | 0xA => decodeUA w
  | 0xB => decodeUB w
  | 0xC => decodeUC w
  | _ => .illegal 1

/-- The word of an instruction, from the encoding tables (R78, R79, R93, R94); none for an event. -/
def encode (i : Instr) : Option IWord :=
  match i with
  | .add o => some (0x0#4 ++ 0x00#6 ++ o.sd ++ o.sa ++ o.sb ++ 0#17 ++ o.lsl)
  | .sub o => some (0x0#4 ++ 0x01#6 ++ o.sd ++ o.sa ++ o.sb ++ 0#20)
  | .mul o => some (0x0#4 ++ 0x02#6 ++ o.sd ++ o.sa ++ o.sb ++ 0#20)
  | .mulh o => some (0x0#4 ++ 0x03#6 ++ o.sd ++ o.sa ++ o.sb ++ 0#20)
  | .mulhu o => some (0x0#4 ++ 0x04#6 ++ o.sd ++ o.sa ++ o.sb ++ 0#20)
  | .div o => some (0x0#4 ++ 0x05#6 ++ o.sd ++ o.sa ++ o.sb ++ 0#20)
  | .divu o => some (0x0#4 ++ 0x06#6 ++ o.sd ++ o.sa ++ o.sb ++ 0#20)
  | .rem o => some (0x0#4 ++ 0x07#6 ++ o.sd ++ o.sa ++ o.sb ++ 0#20)
  | .remu o => some (0x0#4 ++ 0x08#6 ++ o.sd ++ o.sa ++ o.sb ++ 0#20)
  | .and o => some (0x0#4 ++ 0x09#6 ++ o.sd ++ o.sa ++ o.sb ++ 0#20)
  | .or o => some (0x0#4 ++ 0x0A#6 ++ o.sd ++ o.sa ++ o.sb ++ 0#20)
  | .xor o => some (0x0#4 ++ 0x0B#6 ++ o.sd ++ o.sa ++ o.sb ++ 0#20)
  | .andn o => some (0x0#4 ++ 0x0C#6 ++ o.sd ++ o.sa ++ o.sb ++ 0#20)
  | .shl o => some (0x0#4 ++ 0x0D#6 ++ o.sd ++ o.sa ++ o.sb ++ 0#20)
  | .shr o => some (0x0#4 ++ 0x0E#6 ++ o.sd ++ o.sa ++ o.sb ++ 0#20)
  | .sar o => some (0x0#4 ++ 0x0F#6 ++ o.sd ++ o.sa ++ o.sb ++ 0#20)
  | .min o => some (0x0#4 ++ 0x10#6 ++ o.sd ++ o.sa ++ o.sb ++ 0#20)
  | .max o => some (0x0#4 ++ 0x11#6 ++ o.sd ++ o.sa ++ o.sb ++ 0#20)
  | .minu o => some (0x0#4 ++ 0x12#6 ++ o.sd ++ o.sa ++ o.sb ++ 0#20)
  | .maxu o => some (0x0#4 ++ 0x13#6 ++ o.sd ++ o.sa ++ o.sb ++ 0#20)
  | .slt o => some (0x0#4 ++ 0x14#6 ++ o.sd ++ o.sa ++ o.sb ++ 0#20)
  | .sltu o => some (0x0#4 ++ 0x15#6 ++ o.sd ++ o.sa ++ o.sb ++ 0#20)
  | .seq o => some (0x0#4 ++ 0x16#6 ++ o.sd ++ o.sa ++ o.sb ++ 0#20)
  | .clz o => some (0x0#4 ++ 0x17#6 ++ o.sd ++ o.sa ++ 0#6 ++ 0#20)
  | .ctz o => some (0x0#4 ++ 0x18#6 ++ o.sd ++ o.sa ++ 0#6 ++ 0#20)
  | .popc o => some (0x0#4 ++ 0x19#6 ++ o.sd ++ o.sa ++ 0#6 ++ 0#20)
  | .sext o => some (0x0#4 ++ 0x1A#6 ++ o.sd ++ o.sa ++ 0#6 ++ 0#14 ++ o.wm1)
  | .zext o => some (0x0#4 ++ 0x1B#6 ++ o.sd ++ o.sa ++ 0#6 ++ 0#14 ++ o.wm1)
  | .bfx o => some (0x0#4 ++ 0x1C#6 ++ o.sd ++ o.sa ++ 0#6 ++ 0#8 ++ o.wm1 ++ o.pos)
  | .bfi o => some (0x0#4 ++ 0x1D#6 ++ o.sd ++ o.sa ++ o.sb ++ 0#8 ++ o.wm1 ++ o.pos)
  | .mov o => some (0x0#4 ++ 0x1E#6 ++ o.sd ++ o.sa ++ 0#6 ++ 0#20)
  | .addSi o => some (0x0#4 ++ 0x20#6 ++ o.sd ++ o.sa ++ o.imm)
  | .andSi o => some (0x0#4 ++ 0x29#6 ++ o.sd ++ o.sa ++ o.imm)
  | .orSi o => some (0x0#4 ++ 0x2A#6 ++ o.sd ++ o.sa ++ o.imm)
  | .xorSi o => some (0x0#4 ++ 0x2B#6 ++ o.sd ++ o.sa ++ o.imm)
  | .shlSi o => some (0x0#4 ++ 0x2D#6 ++ o.sd ++ o.sa ++ 0#20 ++ o.cnt)
  | .shrSi o => some (0x0#4 ++ 0x2E#6 ++ o.sd ++ o.sa ++ 0#20 ++ o.cnt)
  | .sarSi o => some (0x0#4 ++ 0x2F#6 ++ o.sd ++ o.sa ++ 0#20 ++ o.cnt)
  | .minSi o => some (0x0#4 ++ 0x30#6 ++ o.sd ++ o.sa ++ o.imm)
  | .maxSi o => some (0x0#4 ++ 0x31#6 ++ o.sd ++ o.sa ++ o.imm)
  | .sltSi o => some (0x0#4 ++ 0x34#6 ++ o.sd ++ o.sa ++ o.imm)
  | .sltuSi o => some (0x0#4 ++ 0x35#6 ++ o.sd ++ o.sa ++ o.imm)
  | .seqSi o => some (0x0#4 ++ 0x36#6 ++ o.sd ++ o.sa ++ o.imm)
  | .ld o => some (0x1#4 ++ 0x00#6 ++ o.sd ++ o.sa ++ o.z ++ o.off)
  | .ldu o => some (0x1#4 ++ 0x01#6 ++ o.sd ++ o.sa ++ o.z ++ o.off)
  | .st o => some (0x1#4 ++ 0x02#6 ++ o.sd ++ o.sa ++ o.z ++ o.off)
  | .li o => some (0x1#4 ++ 0x03#6 ++ o.sd ++ o.imm)
  | .lih o => some (0x1#4 ++ 0x04#6 ++ o.sd ++ o.imm)
  | .fadd o => some (0x1#4 ++ 0x08#6 ++ o.sd ++ o.sa ++ o.sb ++ 0#20)
  | .fsub o => some (0x1#4 ++ 0x09#6 ++ o.sd ++ o.sa ++ o.sb ++ 0#20)
  | .fmul o => some (0x1#4 ++ 0x0A#6 ++ o.sd ++ o.sa ++ o.sb ++ 0#20)
  | .ffma o => some (0x1#4 ++ 0x0B#6 ++ o.sd ++ o.sa ++ o.sb ++ 0#14 ++ o.sc)
  | .fdiv o => some (0x1#4 ++ 0x0C#6 ++ o.sd ++ o.sa ++ o.sb ++ 0#20)
  | .fsqrt o => some (0x1#4 ++ 0x0D#6 ++ o.sd ++ o.sa ++ 0#6 ++ 0#20)
  | .fmin o => some (0x1#4 ++ 0x0E#6 ++ o.sd ++ o.sa ++ o.sb ++ 0#20)
  | .fmax o => some (0x1#4 ++ 0x0F#6 ++ o.sd ++ o.sa ++ o.sb ++ 0#20)
  | .fcmp o => some (0x1#4 ++ 0x10#6 ++ o.sd ++ o.sa ++ o.sb ++ 0#17 ++ o.cond)
  | .fcvt o => some (0x1#4 ++ 0x11#6 ++ o.sd ++ o.sa ++ 0#6 ++ 0#4 ++ o.sat ++ o.mode ++ o.src ++ o.dst)
  | .fclass o => some (0x1#4 ++ 0x12#6 ++ o.sd ++ o.sa ++ 0#6 ++ 0#20)
  | .beq o => some (0x2#4 ++ 0x00#6 ++ o.sa ++ o.sb ++ o.off)
  | .bne o => some (0x2#4 ++ 0x01#6 ++ o.sa ++ o.sb ++ o.off)
  | .blt o => some (0x2#4 ++ 0x02#6 ++ o.sa ++ o.sb ++ o.off)
  | .bge o => some (0x2#4 ++ 0x03#6 ++ o.sa ++ o.sb ++ o.off)
  | .bltu o => some (0x2#4 ++ 0x04#6 ++ o.sa ++ o.sb ++ o.off)
  | .bgeu o => some (0x2#4 ++ 0x05#6 ++ o.sa ++ o.sb ++ o.off)
  | .jmp o => some (0x2#4 ++ 0x08#6 ++ 0#6 ++ o.off)
  | .jal o => some (0x2#4 ++ 0x09#6 ++ o.sd ++ o.off)
  | .jr o => some (0x2#4 ++ 0x0A#6 ++ 0#6 ++ o.sa ++ 0#6 ++ 0#20)
  | .jalr o => some (0x2#4 ++ 0x0B#6 ++ o.sd ++ o.sa ++ 0#6 ++ 0#20)
  | .loop o => some (0x2#4 ++ 0x0C#6 ++ 0#6 ++ o.sa ++ o.len ++ 0#2 ++ o.norot ++ o.nr)
  | .loopb o => some (0x2#4 ++ 0x0D#6 ++ 0#6 ++ 0#6 ++ o.off)
  | .pchk o => some (0x2#4 ++ 0x0E#6 ++ 0#1 ++ o.mask ++ 0#1 ++ 0#5 ++ o.clr ++ o.off)
  | .csrr o => some (0x3#4 ++ 0x00#6 ++ o.sd ++ 0#6 ++ o.sysno ++ 0#14)
  | .csrw o => some (0x3#4 ++ 0x01#6 ++ 0#6 ++ o.sa ++ o.sysno ++ 0#14)
  | .csrs o => some (0x3#4 ++ 0x02#6 ++ 0#6 ++ o.sa ++ o.sysno ++ 0#14)
  | .csrc o => some (0x3#4 ++ 0x03#6 ++ 0#6 ++ o.sa ++ o.sysno ++ 0#14)
  | .trap o => some (0x3#4 ++ 0x04#6 ++ 0#6 ++ 0#6 ++ o.code)
  | .live o => some (0x3#4 ++ 0x18#6 ++ 0#6 ++ o.sa ++ o.imm)
  | .fence o => some (0x3#4 ++ 0x06#6 ++ 0#6 ++ 0#6 ++ 0#6 ++ 0#17 ++ o.scope)
  | .qsync o => some (0x3#4 ++ 0x07#6 ++ o.sd ++ 0#6 ++ 0#6 ++ 0#16 ++ 0#2 ++ o.q)
  | .qsyncUpto o => some (0x3#4 ++ 0x07#6 ++ o.sd ++ o.sa ++ 0#6 ++ 0#16 ++ 1#2 ++ o.q)
  | .qsyncRead o => some (0x3#4 ++ 0x07#6 ++ o.sd ++ 0#6 ++ 0#6 ++ 0#16 ++ 2#2 ++ o.q)
  | .qflush o => some (0x3#4 ++ 0x08#6 ++ 0#6 ++ 0#6 ++ 0#6 ++ 0#16 ++ o.mask)
  | .waitev o => some (0x3#4 ++ 0x09#6 ++ o.sd ++ o.sa ++ 0#6 ++ 0#20)
  | .rdtime o => some (0x3#4 ++ 0x0B#6 ++ o.sd ++ 0#6 ++ 0#6 ++ 0#20)
  | .rdcyc o => some (0x3#4 ++ 0x0C#6 ++ o.sd ++ 0#6 ++ 0#6 ++ 0#18 ++ o.which)
  | .mrecv o => some (0x3#4 ++ 0x10#6 ++ o.sd ++ 0#6 ++ 0#6 ++ 0#18 ++ o.poll ++ o.free)
  | .mpeek o => some (0x3#4 ++ 0x11#6 ++ o.sd ++ 0#6 ++ 0#6 ++ 0#20)
  | .tspawn o => some (0x3#4 ++ 0x14#6 ++ 0#6 ++ o.sa ++ 0#6 ++ 0#20)
  | .tjoin o => some (0x3#4 ++ 0x15#6 ++ 0#6 ++ o.sa ++ o.sb ++ 0#20)
  | .trem o => some (0x3#4 ++ 0x17#6 ++ 0#6 ++ o.sa ++ 0#6 ++ 0#20)
  | .sinit o => some (0x3#4 ++ 0x1C#6 ++ 0#6 ++ o.sa ++ o.sb ++ 0#16 ++ o.k)
  | .sget o => some (0x3#4 ++ 0x1D#6 ++ o.sd ++ 0#6 ++ 0#6 ++ 0#16 ++ o.k)
  | .hld o => some (0x4#4 ++ 0x00#6 ++ o.hd ++ 0#5 ++ o.sa ++ 0#6 ++ o.off)
  | .hst o => some (0x4#4 ++ 0x01#6 ++ 0#5 ++ o.ha ++ o.sa ++ 0#6 ++ o.off)
  | .hnarrow o => some (0x4#4 ++ 0x02#6 ++ o.hd ++ o.ha ++ o.sa ++ o.sb ++ 0#13 ++ 0#1 ++ o.dim)
  | .hnarrowRange o => some (0x4#4 ++ 0x02#6 ++ o.hd ++ o.ha ++ o.sa ++ o.sb ++ 0#9 ++ o.ppol ++ o.bpol ++ 1#1 ++ 0#2)
  | .hdrop o => some (0x4#4 ++ 0x03#6 ++ o.hd ++ o.ha ++ 0#6 ++ 0#6 ++ 0#7 ++ o.mask)
  | .hfield o => some (0x4#4 ++ 0x04#6 ++ 0#5 ++ o.ha ++ o.sd ++ 0#6 ++ 0#11 ++ o.field)
  | .hmov o => some (0x4#4 ++ 0x05#6 ++ o.hd ++ o.ha ++ 0#6 ++ 0#6 ++ 0#16)
  | .hclr o => some (0x4#4 ++ 0x06#6 ++ o.hd ++ 0#5 ++ 0#6 ++ 0#6 ++ 0#16)
  | .gcfg o => some (0x4#4 ++ 0x08#6 ++ o.g ++ 0#5 ++ o.sa ++ 0#6 ++ o.off)
  | .gset o => some (0x4#4 ++ 0x09#6 ++ o.g ++ 0#5 ++ o.sa ++ 0#6 ++ 0#11 ++ o.field)
  | .grd o => some (0x4#4 ++ 0x0A#6 ++ o.g ++ 0#5 ++ o.sd ++ 0#6 ++ 0#11 ++ o.field)
  | .lset o => some (0x4#4 ++ 0x0C#6 ++ 0#1 ++ o.l ++ 0#5 ++ o.sa ++ o.sb ++ 0#13 ++ o.policy ++ o.q)
  | .vaddF32 o => some (0x5#4 ++ 0x00#6 ++ o.d ++ o.vd ++ o.va ++ o.vb ++ o.pg)
  | .vaddBf16 o => some (0x5#4 ++ 0x01#6 ++ o.d ++ o.vd ++ o.va ++ o.vb ++ o.pg)
  | .vaddF16 o => some (0x5#4 ++ 0x02#6 ++ o.d ++ o.vd ++ o.va ++ o.vb ++ o.pg)
  | .vsubF32 o => some (0x5#4 ++ 0x03#6 ++ o.d ++ o.vd ++ o.va ++ o.vb ++ o.pg)
  | .vsubBf16 o => some (0x5#4 ++ 0x04#6 ++ o.d ++ o.vd ++ o.va ++ o.vb ++ o.pg)
  | .vsubF16 o => some (0x5#4 ++ 0x05#6 ++ o.d ++ o.vd ++ o.va ++ o.vb ++ o.pg)
  | .vmulF32 o => some (0x5#4 ++ 0x06#6 ++ o.d ++ o.vd ++ o.va ++ o.vb ++ o.pg)
  | .vmulBf16 o => some (0x5#4 ++ 0x07#6 ++ o.d ++ o.vd ++ o.va ++ o.vb ++ o.pg)
  | .vmulF16 o => some (0x5#4 ++ 0x08#6 ++ o.d ++ o.vd ++ o.va ++ o.vb ++ o.pg)
  | .vfmaF32 o => some (0x5#4 ++ 0x09#6 ++ o.d ++ o.vd ++ o.va ++ o.vb ++ o.pg)
  | .vfmaBf16 o => some (0x5#4 ++ 0x0A#6 ++ o.d ++ o.vd ++ o.va ++ o.vb ++ o.pg)
  | .vfmaF16 o => some (0x5#4 ++ 0x0B#6 ++ o.d ++ o.vd ++ o.va ++ o.vb ++ o.pg)
  | .vfmsF32 o => some (0x5#4 ++ 0x0C#6 ++ o.d ++ o.vd ++ o.va ++ o.vb ++ o.pg)
  | .vfmsBf16 o => some (0x5#4 ++ 0x0D#6 ++ o.d ++ o.vd ++ o.va ++ o.vb ++ o.pg)
  | .vfmsF16 o => some (0x5#4 ++ 0x0E#6 ++ o.d ++ o.vd ++ o.va ++ o.vb ++ o.pg)
  | .vfnmaF32 o => some (0x5#4 ++ 0x0F#6 ++ o.d ++ o.vd ++ o.va ++ o.vb ++ o.pg)
  | .vfnmaBf16 o => some (0x5#4 ++ 0x10#6 ++ o.d ++ o.vd ++ o.va ++ o.vb ++ o.pg)
  | .vfnmaF16 o => some (0x5#4 ++ 0x11#6 ++ o.d ++ o.vd ++ o.va ++ o.vb ++ o.pg)
  | .vmaxF32 o => some (0x5#4 ++ 0x12#6 ++ o.d ++ o.vd ++ o.va ++ o.vb ++ o.pg)
  | .vmaxBf16 o => some (0x5#4 ++ 0x13#6 ++ o.d ++ o.vd ++ o.va ++ o.vb ++ o.pg)
  | .vmaxF16 o => some (0x5#4 ++ 0x14#6 ++ o.d ++ o.vd ++ o.va ++ o.vb ++ o.pg)
  | .vminF32 o => some (0x5#4 ++ 0x15#6 ++ o.d ++ o.vd ++ o.va ++ o.vb ++ o.pg)
  | .vminBf16 o => some (0x5#4 ++ 0x16#6 ++ o.d ++ o.vd ++ o.va ++ o.vb ++ o.pg)
  | .vminF16 o => some (0x5#4 ++ 0x17#6 ++ o.d ++ o.vd ++ o.va ++ o.vb ++ o.pg)
  | .vabsF32 o => some (0x5#4 ++ 0x18#6 ++ o.d ++ o.vd ++ o.va ++ 0#10 ++ o.pg)
  | .vabsBf16 o => some (0x5#4 ++ 0x19#6 ++ o.d ++ o.vd ++ o.va ++ 0#10 ++ o.pg)
  | .vabsF16 o => some (0x5#4 ++ 0x1A#6 ++ o.d ++ o.vd ++ o.va ++ 0#10 ++ o.pg)
  | .vnegF32 o => some (0x5#4 ++ 0x1B#6 ++ o.d ++ o.vd ++ o.va ++ 0#10 ++ o.pg)
  | .vnegBf16 o => some (0x5#4 ++ 0x1C#6 ++ o.d ++ o.vd ++ o.va ++ 0#10 ++ o.pg)
  | .vnegF16 o => some (0x5#4 ++ 0x1D#6 ++ o.d ++ o.vd ++ o.va ++ 0#10 ++ o.pg)
  | .vrcpF32 o => some (0x5#4 ++ 0x1E#6 ++ o.d ++ o.vd ++ o.va ++ 0#10 ++ o.pg)
  | .vrcpBf16 o => some (0x5#4 ++ 0x1F#6 ++ o.d ++ o.vd ++ o.va ++ 0#10 ++ o.pg)
  | .vrcpF16 o => some (0x5#4 ++ 0x20#6 ++ o.d ++ o.vd ++ o.va ++ 0#10 ++ o.pg)
  | .vrsqF32 o => some (0x5#4 ++ 0x21#6 ++ o.d ++ o.vd ++ o.va ++ 0#10 ++ o.pg)
  | .vrsqBf16 o => some (0x5#4 ++ 0x22#6 ++ o.d ++ o.vd ++ o.va ++ 0#10 ++ o.pg)
  | .vrsqF16 o => some (0x5#4 ++ 0x23#6 ++ o.d ++ o.vd ++ o.va ++ 0#10 ++ o.pg)
  | .vsqrtF32 o => some (0x5#4 ++ 0x24#6 ++ o.d ++ o.vd ++ o.va ++ 0#10 ++ o.pg)
  | .vsqrtBf16 o => some (0x5#4 ++ 0x25#6 ++ o.d ++ o.vd ++ o.va ++ 0#10 ++ o.pg)
  | .vsqrtF16 o => some (0x5#4 ++ 0x26#6 ++ o.d ++ o.vd ++ o.va ++ 0#10 ++ o.pg)
  | .vexp2F32 o => some (0x5#4 ++ 0x27#6 ++ o.d ++ o.vd ++ o.va ++ 0#10 ++ o.pg)
  | .vexp2Bf16 o => some (0x5#4 ++ 0x28#6 ++ o.d ++ o.vd ++ o.va ++ 0#10 ++ o.pg)
  | .vexp2F16 o => some (0x5#4 ++ 0x29#6 ++ o.d ++ o.vd ++ o.va ++ 0#10 ++ o.pg)
  | .vlog2F32 o => some (0x5#4 ++ 0x2A#6 ++ o.d ++ o.vd ++ o.va ++ 0#10 ++ o.pg)
  | .vlog2Bf16 o => some (0x5#4 ++ 0x2B#6 ++ o.d ++ o.vd ++ o.va ++ 0#10 ++ o.pg)
  | .vlog2F16 o => some (0x5#4 ++ 0x2C#6 ++ o.d ++ o.vd ++ o.va ++ 0#10 ++ o.pg)
  | .vtanhF32 o => some (0x5#4 ++ 0x2D#6 ++ o.d ++ o.vd ++ o.va ++ 0#10 ++ o.pg)
  | .vtanhBf16 o => some (0x5#4 ++ 0x2E#6 ++ o.d ++ o.vd ++ o.va ++ 0#10 ++ o.pg)
  | .vtanhF16 o => some (0x5#4 ++ 0x2F#6 ++ o.d ++ o.vd ++ o.va ++ 0#10 ++ o.pg)
  | .vscaleF32 o => some (0x5#4 ++ 0x30#6 ++ o.d ++ o.vd ++ o.va ++ o.vb ++ o.pg)
  | .vscaleBf16 o => some (0x5#4 ++ 0x31#6 ++ o.d ++ o.vd ++ o.va ++ o.vb ++ o.pg)
  | .vscaleF16 o => some (0x5#4 ++ 0x32#6 ++ o.d ++ o.vd ++ o.va ++ o.vb ++ o.pg)
  | .viadd o => some (0x6#4 ++ 0x00#6 ++ o.d ++ o.vd ++ o.va ++ o.vb ++ o.pg)
  | .visub o => some (0x6#4 ++ 0x01#6 ++ o.d ++ o.vd ++ o.va ++ o.vb ++ o.pg)
  | .vimul o => some (0x6#4 ++ 0x02#6 ++ o.d ++ o.vd ++ o.va ++ o.vb ++ o.pg)
  | .vimin o => some (0x6#4 ++ 0x03#6 ++ o.d ++ o.vd ++ o.va ++ o.vb ++ o.pg)
  | .vimax o => some (0x6#4 ++ 0x04#6 ++ o.d ++ o.vd ++ o.va ++ o.vb ++ o.pg)
  | .vand o => some (0x6#4 ++ 0x05#6 ++ o.d ++ o.vd ++ o.va ++ o.vb ++ o.pg)
  | .vor o => some (0x6#4 ++ 0x06#6 ++ o.d ++ o.vd ++ o.va ++ o.vb ++ o.pg)
  | .vxor o => some (0x6#4 ++ 0x07#6 ++ o.d ++ o.vd ++ o.va ++ o.vb ++ o.pg)
  | .vshl o => some (0x6#4 ++ 0x08#6 ++ o.d ++ o.vd ++ o.va ++ o.vb ++ o.pg)
  | .vshr o => some (0x6#4 ++ 0x09#6 ++ o.d ++ o.vd ++ o.va ++ o.vb ++ o.pg)
  | .vsar o => some (0x6#4 ++ 0x0A#6 ++ o.d ++ o.vd ++ o.va ++ o.vb ++ o.pg)
  | .vcmpF32 o => some (0x6#4 ++ 0x0C#6 ++ o.d ++ o.cond ++ 0#2 ++ o.pd ++ o.va ++ o.vb ++ o.pg)
  | .vcmpBf16 o => some (0x6#4 ++ 0x0D#6 ++ o.d ++ o.cond ++ 0#2 ++ o.pd ++ o.va ++ o.vb ++ o.pg)
  | .vcmpF16 o => some (0x6#4 ++ 0x0E#6 ++ o.d ++ o.cond ++ 0#2 ++ o.pd ++ o.va ++ o.vb ++ o.pg)
  | .vicmp o => some (0x6#4 ++ 0x0F#6 ++ o.d ++ o.cond ++ 0#2 ++ o.pd ++ o.va ++ o.vb ++ o.pg)
  | .vsel o => some (0x6#4 ++ 0x10#6 ++ o.d ++ o.vd ++ o.va ++ o.vb ++ o.pg)
  | .vplog o => some (0x6#4 ++ 0x11#6 ++ o.d ++ o.func ++ 0#2 ++ o.pd ++ 0#6 ++ o.pa ++ 0#6 ++ o.pb ++ 0#4)
  | .viota o => some (0x6#4 ++ 0x12#6 ++ o.d ++ o.vd ++ 0#10 ++ 0#10 ++ o.pg)
  | .vmov o => some (0x7#4 ++ 0x00#6 ++ o.d ++ o.vd ++ o.va ++ 0#10 ++ o.pg)
  | .vbcast o => some (0x7#4 ++ 0x01#6 ++ o.d ++ o.vd ++ 0#10 ++ o.ss ++ 0#2 ++ o.w ++ o.pg)
  | .vextr o => some (0x7#4 ++ 0x02#6 ++ o.d ++ 0#4 ++ o.sd ++ o.va ++ o.ss ++ 0#1 ++ o.sx ++ o.w ++ 0#4)
  | .vins o => some (0x7#4 ++ 0x03#6 ++ o.d ++ o.vd ++ 0#10 ++ o.ss ++ 0#2 ++ o.w ++ o.pg)
  | .vperm o => some (0x7#4 ++ 0x04#6 ++ o.d ++ o.vd ++ o.va ++ o.vb ++ o.pg)
  | .vshuf o => some (0x7#4 ++ 0x05#6 ++ o.d ++ o.vd ++ o.va ++ o.vb ++ o.pg)
  | .vrotl o => some (0x7#4 ++ 0x06#6 ++ o.d ++ o.vd ++ o.va ++ o.ss ++ 0#2 ++ o.w ++ o.pg)
  | .vld o => some (0x7#4 ++ 0x08#6 ++ o.d ++ o.vd ++ 0#10 ++ o.ss ++ o.k ++ o.pg)
  | .vst o => some (0x7#4 ++ 0x09#6 ++ o.d ++ o.vd ++ 0#10 ++ o.ss ++ o.k ++ o.pg)
  | .vlds o => some (0x7#4 ++ 0x0A#6 ++ o.d ++ o.vd ++ 0#10 ++ o.ss ++ 0#4 ++ o.pg)
  | .vsts o => some (0x7#4 ++ 0x0B#6 ++ o.d ++ o.vd ++ 0#10 ++ o.ss ++ 0#4 ++ o.pg)
  | .vgather o => some (0x7#4 ++ 0x0C#6 ++ o.d ++ o.vd ++ o.va ++ o.ss ++ 0#4 ++ o.pg)
  | .vscatter o => some (0x7#4 ++ 0x0D#6 ++ o.d ++ o.vd ++ o.va ++ o.ss ++ 0#4 ++ o.pg)
  | .vatom o => some (0x7#4 ++ 0x20#6 ++ o.d ++ o.vd ++ o.va ++ o.ss ++ o.op ++ o.pg)
  | .vcvt o => some (0x7#4 ++ 0x10#6 ++ o.d ++ o.vd ++ o.va ++ o.ss ++ o.mark ++ o.q ++ o.pg)
  | .vquantIdx o => some (0x7#4 ++ 0x11#6 ++ o.d ++ o.vd ++ o.va ++ o.ss ++ 0#4 ++ 0#4)
  | .vquantScl o => some (0x7#4 ++ 0x11#6 ++ o.d ++ o.vd ++ o.va ++ o.ss ++ 1#4 ++ 0#4)
  | .vdeq o => some (0x7#4 ++ 0x12#6 ++ o.d ++ o.vd ++ o.va ++ o.ss ++ 0#1 ++ o.q ++ o.pg)
  | .vxsencLoc o => some (0x7#4 ++ 0x13#6 ++ o.d ++ o.vd ++ o.va ++ 0#6 ++ 0#2 ++ o.q ++ 0#4)
  | .vxsencX32 o => some (0x7#4 ++ 0x13#6 ++ o.d ++ o.vd ++ o.va ++ o.ss ++ 4#4 ++ 0#4)
  | .vxsencX64l o => some (0x7#4 ++ 0x13#6 ++ o.d ++ o.vd ++ o.va ++ o.ss ++ 5#4 ++ 0#4)
  | .vxsencX64h o => some (0x7#4 ++ 0x13#6 ++ o.d ++ o.vd ++ o.va ++ o.ss ++ 6#4 ++ 0#4)
  | .vxsdecX32 o => some (0x7#4 ++ 0x14#6 ++ o.d ++ o.vd ++ o.va ++ o.ss ++ 0#4 ++ 0#4)
  | .vxsdecX64l o => some (0x7#4 ++ 0x14#6 ++ o.d ++ o.vd ++ o.va ++ o.ss ++ 1#4 ++ 0#4)
  | .vxsdecX64h o => some (0x7#4 ++ 0x14#6 ++ o.d ++ o.vd ++ o.va ++ o.ss ++ 2#4 ++ 0#4)
  | .vrsum o => some (0x7#4 ++ 0x18#6 ++ o.d ++ o.vd ++ o.va ++ 0#8 ++ o.ty ++ o.pg)
  | .vrmax o => some (0x7#4 ++ 0x19#6 ++ o.d ++ o.vd ++ o.va ++ 0#8 ++ o.ty ++ o.pg)
  | .vrmin o => some (0x7#4 ++ 0x1A#6 ++ o.d ++ o.vd ++ o.va ++ 0#8 ++ o.ty ++ o.pg)
  | .vpmark o => some (0x7#4 ++ 0x1C#6 ++ o.d ++ o.vd ++ 0#10 ++ 0#6 ++ 0#2 ++ o.code ++ o.pg)
  | .vpclr o => some (0x7#4 ++ 0x1D#6 ++ o.d ++ o.vd ++ 0#10 ++ 0#10 ++ o.pg)
  | .vpget o => some (0x7#4 ++ 0x1E#6 ++ o.d ++ 0#4 ++ o.sd ++ o.va ++ 0#6 ++ 0#3 ++ o.isP ++ 0#4)
  | .vclamp o => some (0x7#4 ++ 0x21#6 ++ o.d ++ o.vd ++ o.va ++ o.ss ++ o.ty ++ o.pol ++ o.pg)
  | .tcfg o => some (0x8#4 ++ 0x00#6 ++ o.d ++ o.tile ++ o.rows ++ o.cols ++ o.ty ++ 0#16)
  | .tzero o => some (0x8#4 ++ 0x01#6 ++ o.d ++ o.tile ++ 0#31)
  | .tld o => some (0x8#4 ++ 0x02#6 ++ o.d ++ o.tile ++ o.ga ++ 0#5 ++ 0#12 ++ 0#2 ++ o.ta ++ 0#6)
  | .tdrain o => some (0x8#4 ++ 0x03#6 ++ o.d ++ o.tile ++ o.ga ++ 0#5 ++ 0#12 ++ 0#2 ++ o.ta ++ 0#6)
  | .mma o => some (0x8#4 ++ 0x04#6 ++ o.d ++ o.tile ++ o.ga ++ o.gb ++ o.rep ++ o.acc ++ o.tb ++ o.ta ++ o.pack ++ o.edge ++ 0#4)
  | .mmas o => some (0x8#4 ++ 0x05#6 ++ o.d ++ o.tile ++ o.ga ++ o.gb ++ o.rep ++ o.acc ++ o.tb ++ o.ta ++ o.pack ++ o.edge ++ 0#4)
  | .mmaq o => some (0x8#4 ++ 0x06#6 ++ o.d ++ o.tile ++ o.ga ++ o.gb ++ o.rep ++ o.acc ++ o.tb ++ o.ta ++ o.pack ++ o.edge ++ 0#4)
  | .tpoisGet o => some (0x8#4 ++ 0x07#6 ++ o.d ++ o.tile ++ o.ga ++ 0#5 ++ 0#2 ++ 0#10 ++ 0#9)
  | .tpoisMark o => some (0x8#4 ++ 0x07#6 ++ o.d ++ o.tile ++ o.ga ++ 0#5 ++ 1#2 ++ 0#10 ++ 0#9)
  | .tpoisClr o => some (0x8#4 ++ 0x07#6 ++ o.d ++ o.tile ++ 0#5 ++ 0#5 ++ 2#2 ++ 0#10 ++ 0#9)
  | .tbias o => some (0x8#4 ++ 0x08#6 ++ o.d ++ o.tile ++ o.ga ++ 0#5 ++ 0#12 ++ o.acc ++ 0#8)
  | .cpin o => some (0x9#4 ++ 0x00#6 ++ o.d ++ o.h ++ o.g ++ o.so ++ o.k ++ o.rep ++ o.mode)
  | .cpout o => some (0x9#4 ++ 0x01#6 ++ o.d ++ o.h ++ o.g ++ o.so ++ o.k ++ o.rep ++ o.mode)
  | .cpset o => some (0x9#4 ++ 0x02#6 ++ o.d ++ o.h ++ o.g ++ o.so ++ o.k ++ o.rep ++ o.mode)
  | .cpmap o => some (0x9#4 ++ 0x03#6 ++ o.d ++ o.h ++ o.g ++ o.so ++ o.k ++ o.rep ++ o.mode)
  | .msend o => some (0xA#4 ++ 0x00#6 ++ o.d ++ 0#5 ++ o.sa ++ o.sb ++ o.k ++ o.scope ++ o.order ++ 0#2 ++ o.post ++ o.n)
  | .amo o => some (0xA#4 ++ 0x01#6 ++ o.d ++ o.h ++ o.sa ++ o.sb ++ o.k ++ o.scope ++ o.order ++ 0#1 ++ o.post ++ o.ret ++ o.w64 ++ o.op)
  | .acas o => some (0xA#4 ++ 0x02#6 ++ o.d ++ o.h ++ o.sa ++ o.sb ++ o.k ++ o.scope ++ o.order ++ 0#3 ++ o.w64 ++ 0#4)
  | .ared o => some (0xA#4 ++ 0x03#6 ++ o.d ++ o.h ++ o.sa ++ o.sb ++ o.k ++ o.scope ++ o.order ++ 0#1 ++ o.post ++ 0#1 ++ o.w64 ++ o.op)
  | .csend o => some (0xA#4 ++ 0x08#6 ++ o.d ++ o.h ++ o.sa ++ 0#6 ++ o.k ++ o.scope ++ o.order ++ 0#1 ++ o.post ++ 0#6)
  | .crecv o => some (0xA#4 ++ 0x09#6 ++ o.d ++ o.h ++ o.sa ++ 0#6 ++ o.k ++ o.scope ++ o.order ++ 0#1 ++ o.post ++ 0#6)
  | .cagree o => some (0xA#4 ++ 0x0A#6 ++ o.d ++ 0#5 ++ o.sa ++ o.sb ++ o.k ++ o.scope ++ o.order ++ 0#1 ++ o.post ++ o.cnt)
  | .credx o => some (0xA#4 ++ 0x0B#6 ++ o.d ++ 0#5 ++ o.sa ++ o.sb ++ o.k ++ o.scope ++ o.order ++ 0#1 ++ o.post ++ o.cnt)
  | .cbar o => some (0xA#4 ++ 0x0C#6 ++ o.d ++ 0#5 ++ o.sa ++ o.sb ++ o.k ++ o.scope ++ o.order ++ 0#1 ++ o.post ++ 0#6)
  | .swait o => some (0xB#4 ++ 0x00#6 ++ o.d ++ o.q ++ o.k ++ o.n ++ 0#12)
  | .spost o => some (0xB#4 ++ 0x01#6 ++ o.d ++ o.q ++ o.k ++ o.n ++ 0#12)
  | .spostSub o => some (0xB#4 ++ 0x01#6 ++ o.d ++ o.q ++ o.k ++ o.n ++ 1#12)
  | .bar o => some (0xB#4 ++ 0x02#6 ++ o.d ++ o.q ++ 0#4 ++ 0#16 ++ 0#7 ++ o.form ++ o.mask)
  | .waitc o => some (0xB#4 ++ 0x03#6 ++ o.d ++ o.q ++ 0#4 ++ o.n ++ 0#10 ++ o.src)
  | .qmark o => some (0xB#4 ++ 0x04#6 ++ o.d ++ o.q ++ 0#4 ++ 0#16 ++ 0#11 ++ o.rest)
  | .rrel o => some (0xC#4 ++ 0x00#6 ++ o.sd ++ 0#6 ++ 0#6 ++ 0#20)
  | .rpget o => some (0xC#4 ++ 0x01#6 ++ o.sd ++ 0#6 ++ 0#6 ++ 0#18 ++ o.which)
  | .rstat o => some (0xC#4 ++ 0x02#6 ++ o.sd ++ 0#6 ++ 0#6 ++ 0#20)
  | .bkpt o => some (0xC#4 ++ 0x08#6 ++ 0#6 ++ 0#6 ++ 0#6 ++ 0#4 ++ o.code)
  | .rollcall o => some (0xC#4 ++ 0x09#6 ++ o.sd ++ 0#6 ++ 0#6 ++ 0#20)
  | .cntr o => some (0xC#4 ++ 0x0A#6 ++ o.sd ++ o.sa ++ 0#6 ++ 0#11 ++ o.half ++ o.kind ++ o.n)
  | .cntwValue o => some (0xC#4 ++ 0x0B#6 ++ 0#6 ++ o.sa ++ 0#6 ++ 0#12 ++ 0#4 ++ o.n)
  | .cntwCfg o => some (0xC#4 ++ 0x0B#6 ++ 0#6 ++ o.sa ++ 0#6 ++ 0#12 ++ 1#4 ++ o.n)
  | .loopbBreak => some (0x2#4 ++ 0x0D#6 ++ 0#6 ++ 1#6 ++ 0#26)
  | .loopStackWrite => none
  | .inboxSpoolWrite => none
  | .replySpoolWrite => none
  | .eret => some (0x3#4 ++ 0x05#6 ++ 0#6 ++ 0#6 ++ 0#6 ++ 0#20)
  | .nop => some (0x3#4 ++ 0x0A#6 ++ 0#6 ++ 0#6 ++ 0#6 ++ 0#20)
  | .texit => some (0x3#4 ++ 0x16#6 ++ 0#6 ++ 0#6 ++ 0#6 ++ 0#20)
  | .enqueue => none
  | .arrayStart => none
  | .arrayVis => none
  | .engineLanding => none
  | .untimedLanding => none
  | .timedLanding => none
  | .copyTranslationFault => none
  | .completionPost => none
  | .messageArrival => none
  | .messageReserve => none
  | .messageLanding => none
  | .timedMessageLanding => none
  | .aredSourceRead => none
  | .releaseSetPerformed => none
  | .hubAtomic => none
  | .replyWrite => none
  | .contributionWrite => none
  | .cbarDeadline => none
  | .cbarVerdict => none
  | .collectiveCompletion => none
  | .barrierCompletion => none
  | .cntwChartClear => some (0xC#4 ++ 0x0B#6 ++ 0#6 ++ 0#6 ++ 0#6 ++ 0#12 ++ 2#4 ++ 0#4)
  | .sequencerWaitEnd => none
  | .trapEntry => none
  | .violation => none
  | .violationRelease => none
  | .watchdog => none
  | .dispatch => none
  | .placementPatienceExpiry => none
  | .taskStart => none
  | .taskCompletion => none
  | .scrub => none
  | .sliceEnd => none
  | .recallForm => none
  | .contextSave => none
  | .contextResume => none
  | .spoolService => none
  | .launchPacket => none
  | .releasePacket => none
  | .cancelPacket => none
  | .nopPacket => none
  | .packetReread => none
  | .completionRecordWrite => none
  | .migrationStopped => none
  | .timetableTakeover => none
  | .choldRelease => none
  | .hubRead => none
  | .hubWrite => none
  | .intervalSeal => none
  | .rollback => none
  | .translationWalk => none
  | .revocationSweep => none
  | .sweepAck => none
  | .rotationFrame => none
  | .hostCompletionTimeout => none
  | .retentionEntry => none
  | .retentionEntered => none
  | .retentionExitDone => none
  | .timerEvent => none
  | .counterWrap => none
  | .counterSample => none
  | .rollCallLatch => none
  | .workStop => none
  | .pcMatch => none
  | .sha384 => none
  | .sha256 => none
  | .ecdsaVerify => none
  | .ecdsaSign => none
  | .lmsVerify => none
  | .hssSign => none
  | .bootinc => none
  | .aesCmac => none
  | .gcmSeal => none
  | .gcmOpen => none
  | .keyCopy => none
  | .hmac => none
  | .udsDerive => none
  | .hkdfExpand => none
  | .drbg => none
  | .drbgReseed => none
  | .mext => none
  | .packagePowerOn => none
  | .hostPortReset => none
  | .illegalWord => none
  | .standbyTimetableFailure => none
  | .packagePowerLoss => none
  | .coreFailure _ => none
  | .spkick _ => none
  | .spoolRegWrite _ => none
  | .spstopClear _ => none
  | .spallocWrite _ => none
  | .csconsWrite _ => none
  | .completionSpoolRegWrite _ => none
  | .migctlStart _ => none
  | .migctlReport _ => none
  | .migctlStop _ => none
  | .migctlAbort _ => none
  | .migctlResume _ => none
  | .ttroleWrite _ => none
  | .pkbset _ => none
  | .pkbclr _ => none
  | .patrolScrub _ => none
  | .channelFailure _ => none
  | .xlinvWrite _ => none
  | .errorSlotClear _ => none
  | .flitReceive _ => none
  | .portDetect _ => none
  | .laneTraining _ => none
  | .laneFailure _ => none
  | .portAuthentication _ => none
  | .keyUpdate _ => none
  | .portReset _ => none
  | .spdmRequest _ => none
  | .hostBar2Read _ => none
  | .hostBar2Write _ => none
  | .lockInterfaceRequest _ => none
  | .startInterfaceRequest _ => none
  | .stopInterfaceRequest _ => none
  | .tdiError _ => none
  | .ideKeyRefresh _ => none
  | .hostCompletion _ => none
  | .assign _ => none
  | .share _ => none
  | .hostwin _ => none
  | .releaseService _ => none
  | .durable _ => none
  | .context _ => none
  | .revoke _ => none
  | .mint _ => none
  | .rotate _ => none
  | .reportService _ => none
  | .extend _ => none
  | .loan _ => none
  | .link _ => none
  | .clear _ => none
  | .spretreqWrite _ => none
  | .untimedRequestForced _ => none
  | .cntclaimWrite _ => none
  | .guestCounterReadLo _ => none
  | .dcmdResume _ => none
  | .dcmdKill _ => none
  | .dcmdRollcall _ => none
  | .ddataAccess _ => none
  | .wsarmWrite _ => none
  | .panelReset _ => none
  | .fatalError _ => none
  | .thermalSample _ => none
  | .powerLimitCheck _ => none
  | .droop _ => none
  | .registerWrite _ => none

/-- The instruction that a table word stands for: the table gives no row any bits, so the words are the 48-bit words
of R73, first byte lowest. -/
def decodeTableWord (_nbits w : Nat) : Option Instr :=
  match decode (BitVec.ofNat 48 w) with
  | .ok i => some i
  | .illegal _ => none

end Sys2Proof
end

