-- ==== Sys2Proof/Machine/Map.lean ====
section
/-! DEFINITION. Finite maps from numbers to data, held as lists of pairs with strictly rising keys, and byte
memory in its canonical form. `get` reads the default where a key is unlisted; `set` removes an entry that
equals the default, so that equal maps are equal lists; `put` keeps every entry it writes. -/

namespace Sys2Proof.Machine

/-- A sparse table: (key, value) pairs, keys strictly rising. -/
abbrev Map (α : Type) := List (Nat × α)

/-- The value at key `k`; `d` where no entry names `k`. -/
def mapGet {α : Type} (d : α) : Map α → Nat → α
  | [], _ => d
  | (j, v) :: t, k => if k = j then v else mapGet d t k

/-- Is there an entry for `k`? -/
def mapHas {α : Type} : Map α → Nat → Bool
  | [], _ => false
  | (j, _) :: t, k => if k = j then true else mapHas t k

/-- Remove every entry of key `k`. -/
def mapDel {α : Type} : Map α → Nat → Map α
  | [], _ => []
  | (j, v) :: t, k => if k = j then mapDel t k else (j, v) :: mapDel t k

/-- Write key `k`, keeping the keys strictly rising. -/
def mapPut {α : Type} : Map α → Nat → α → Map α
  | [], k, v => [(k, v)]
  | (j, w) :: t, k, v =>
    if k < j then (k, v) :: (j, w) :: t
    else if k = j then (k, v) :: t
    else (j, w) :: mapPut t k v

/-- Write key `k` in canonical form: a value equal to the default `d` is not listed. -/
def mapSet {α : Type} [DecidableEq α] (d : α) (m : Map α) (k : Nat) (v : α) : Map α :=
  if v = d then mapDel m k else mapPut m k v

/-- Apply `f` to the entry of `k` (the default where unlisted). -/
def mapMod {α : Type} (d : α) (m : Map α) (k : Nat) (f : α → α) : Map α :=
  mapPut m k (f (mapGet d m k))

/-- Strictly rising keys, all above a bound. -/
def mapRising {α : Type} : Nat → Map α → Bool
  | _, [] => true
  | b, (j, _) :: t => decide (b ≤ j) && mapRising (j + 1) t

/-- No entry equals the default. -/
def mapTight {α : Type} [DecidableEq α] (d : α) : Map α → Bool
  | [] => true
  | (_, v) :: t => decide (v ≠ d) && mapTight d t

/-- The canonical form: keys strictly rising, no entry equal to the default. -/
def mapWf {α : Type} [DecidableEq α] (d : α) (m : Map α) : Bool := mapRising 0 m && mapTight d m

/-- Byte memory: what an unlisted address reads as (log entry 2). -/
def memDefault : BitVec 8 := 0#8

/-- One byte of memory. -/
def memRead (m : Map (BitVec 8)) (a : Nat) : BitVec 8 := mapGet memDefault m a

/-- Write one byte of memory, in canonical form. -/
def memWrite (m : Map (BitVec 8)) (a : Nat) (b : BitVec 8) : Map (BitVec 8) := mapSet memDefault m a b

/-- `n` bytes from address `a`, little-endian, as a number. -/
def memReadNat (m : Map (BitVec 8)) (a : Nat) : Nat → Nat
  | 0 => 0
  | n + 1 => (memRead m a).toNat + 256 * memReadNat m (a + 1) n

/-- Write the low `n` bytes of `v` from address `a`, little-endian. -/
def memWriteNat (m : Map (BitVec 8)) (a : Nat) : Nat → Nat → Map (BitVec 8)
  | 0, _ => m
  | n + 1, v => memWriteNat (memWrite m a (BitVec.ofNat 8 v)) (a + 1) n (v / 256)

/-- The canonical form of a byte memory. -/
def memWf (m : Map (BitVec 8)) : Bool := mapWf memDefault m

end Sys2Proof.Machine
end

