-- ==== Sys2Proof/Machine/CoreState.lean ====
section
/-! DEFINITION. The state of one core: every register kind of R102, the queues, the scratchpad with its line metadata, the
work in flight and the task's counts, as plain data. Registers and tables are maps whose unlisted entries read as the
reset value. -/

namespace Sys2Proof.Machine

/-- A vector register: 1024 bytes and the 2-bit codes of its eight segments (R129, R131). -/
structure VReg where
  bits : BitVec 8192
  codes : BitVec 16
  deriving DecidableEq, Repr

/-- A vector register at reset. -/
def VReg.zero : VReg := ⟨0, 0⟩

/-- A predicate register: 1024 bits and its segment codes (R132). -/
structure PReg where
  bits : BitVec 1024
  codes : BitVec 16
  deriving DecidableEq, Repr

/-- A predicate at reset. -/
def PReg.zero : PReg := ⟨0, 0⟩

/-- What p0 always reads as (R132). -/
def PReg.ones : PReg := ⟨BitVec.allOnes 1024, 0⟩

/-- A duplicate pair: `DUPV`, and whether a landing in the partner has stopped duplication (R135). -/
structure DupPair where
  dupv : Bool
  stopped : Bool
  deriving DecidableEq, Repr

/-- The state of a handle register (R198). -/
inductive HState where
  | empty | valid | revoked
  deriving DecidableEq, Repr

/-- A handle register: its 512 bits and its hidden state (R193, R198). -/
structure Handle where
  bits : BitVec 512
  st : HState
  deriving DecidableEq, Repr

/-- The empty handle. -/
def Handle.none : Handle := ⟨0, .empty⟩

/-- A tile: shape, type, elements at index 128 × row + column, and row codes (R170); and the declared shape and type of
R186. -/
structure Tile where
  rows : Nat
  cols : Nat
  int : Bool
  elems : Map (BitVec 32)
  codes : Map (BitVec 2)
  drows : Nat
  dcols : Nat
  dint : Bool
  deriving DecidableEq, Repr

/-- A tile at power-on reset and after the scrub (R170). -/
def Tile.zero : Tile := ⟨128, 128, false, [], [], 128, 128, false⟩

/-- A semaphore (R405). -/
structure Sem where
  count : Nat
  ceil : Nat
  ovf : Bool
  deriving DecidableEq, Repr

/-- A semaphore at reset. -/
def Sem.zero : Sem := ⟨0, 0, false⟩

/-- A performance counter, its configuration (R411), and the guest copy frozen by a claim (R416). -/
structure Counter where
  value : Word
  cfg : Word
  gvalue : Word
  gcfg : Word
  deriving DecidableEq, Repr

/-- A counter at reset. -/
def Counter.zero : Counter := ⟨0, 0, 0, 0⟩

/-- One line's part of a scratchpad write: the bytes, which of them are written, the code that comes with them, and
whether the line's old code stays in play: 0 unless every byte of the line is written in the fc (R149), 1 always, for a slot of `VATOM`
(R159), 2 never (R189), 3 always, for a row of poison codes (R191, R243). -/
structure LineWrite where
  line : Nat
  data : BitVec 1024
  mask : BitVec 128
  code : BitVec 2
  keep : Nat
  deriving DecidableEq, Repr

/-- Who writes a line: the class that orders it among the writers of one fc (R232, R312) — 0 messages, replies and collectives, 1
messages timed by R312, 2 copies, 3 `TDRAIN`, 4 V-queue words — and its queue and sequence number (queue 4: no entry of this core). -/
structure Writer where
  cls : Nat
  q : Nat
  seq : Nat
  deriving DecidableEq, Repr

/-- What has been written into a line in this fc (R150, R232): the line and its code before, the bytes written, the bytes that each
writer has written, the writers' codes, whether the old code always or never stays in play, the bytes of a `VATOM` slot
(R159), and which of its 8-byte units held a double-bit or a single-bit error before (R226). -/
structure LineAcc where
  data0 : BitVec 1024
  code0 : BitVec 2
  mask : BitVec 128
  by_ : List (Writer × BitVec 128)
  code : BitVec 2
  keep : Nat
  slot : BitVec 128
  bad : BitVec 16
  soft : BitVec 16
  deriving DecidableEq, Repr

/-- An engine queue entry (R297): the word with physical names, the captured operands, the delta and the number. -/
structure QEntry where
  i : Instr
  seq : Nat
  d : Nat
  minFc : Nat
  caps : List Word
  sysv : Word
  h : Handle
  hn : Nat
  ga : BitVec 256
  gb : BitVec 256
  slot : Word
  mark : Bool
  deriving DecidableEq, Repr

/-- No entry. -/
def QEntry.none : QEntry := ⟨.nop, 0, 0, 0, [], 0, Handle.none, 0, 0, 0, 0, false⟩

/-- An engine queue (R85, R298, R299): its entries oldest first, the next sequence number, the time origin, the issue fc
of the last word since the origin, running or slack, and whether the head is a barrier that has issued and waits. -/
structure EQueue where
  ents : List QEntry
  next : Nat
  origin : Nat
  last : Option Nat
  running : Bool
  bwait : Bool
  deriving DecidableEq, Repr

/-- An empty, slack queue. -/
def EQueue.zero : EQueue := ⟨[], 0, 0, none, false, false⟩

/-- What a landing does when its fc comes (R88, R149, R150, R179 and the home chapters). -/
inductive Act where
  /-- Write the masked bytes of vector register n; segments of `range` take `src`, raised by the old code where the mask
  leaves a byte of the segment and `old` holds (R133, R149). -/
  | vec (n : BitVec 10) (data : BitVec 8192) (mask : BitVec 1024) (range : BitVec 8) (src : BitVec 16) (old : Bool)
  /-- Write the masked bits of predicate n with its segment codes (R132, R133). -/
  | pred (n : BitVec 4) (data mask : BitVec 1024) (range : BitVec 8) (src : BitVec 16)
  /-- A result of VEXTR or VPGET (R105). -/
  | scal (sd : BitVec 6) (val : Word)
  /-- Scratchpad lines written in this fc by a V-queue word, in a chart row (R150, R232). -/
  | lines (row : Nat) (ws : List LineWrite)
  /-- The read of VLD or VLDS at issue + 3 (R156, R157). -/
  | loadLines (n : BitVec 10) (addrs : List Nat) (mask : BitVec 1024) (pc : BitVec 16)
  /-- The read of VGATHER at issue + 3 (R158). -/
  | gather (n : BitVec 10) (addrs : List Nat) (mask : BitVec 1024) (pc ac : BitVec 16)
  /-- The read of VATOM at issue + 3 (R159). -/
  | atom (n : BitVec 10) (op : BitVec 4) (addrs : List Nat) (x : BitVec 8192) (mask : BitVec 1024) (pc ac xc : BitVec 16)
  /-- The header read of VXSENC and VXSDEC at issue + 3: modes 4 to 6 encode, 8 to 10 decode (R163, R164). -/
  | xsum (n : BitVec 10) (mode : Nat) (addr : Nat) (x : BitVec 8192) (xc : BitVec 16)
  /-- A changing TCFG (R186). -/
  | tcfg (t : BitVec 3) (rows cols : Nat) (int : Bool)
  /-- TZERO (R187). -/
  | tzero (t : BitVec 3)
  /-- The block read of TLD at issue + 3 (R188). -/
  | tldRead (t : BitVec 3) (g : BitVec 256) (ta : Bool) (landFc : Nat)
  /-- The landing of TLD: elements and row codes (R188). -/
  | tileSet (t : BitVec 3) (elems : Map (BitVec 32)) (codes : Map (BitVec 2))
  /-- The bias read of TBIAS at issue + 3 (R190). -/
  | tbiasRead (t : BitVec 3) (g : BitVec 256) (acc : Bool)
  /-- The map read of TPOIS.MARK at issue + 3 (R191). -/
  | tmarkRead (t : BitVec 3) (addr : Nat)
  /-- The landing of TPOIS.MARK: codes raised row by row (R191). -/
  | tmark (t : BitVec 3) (map : Nat) (line : BitVec 2)
  /-- TPOIS.CLR (R191). -/
  | tclr (t : BitVec 3)
  /-- TDRAIN rows: the lines of one row, and its out-of-range mark under FLAG (R189). -/
  | drain (ws : List (LineWrite × BitVec 1024))
  deriving DecidableEq, Repr

/-- A landing due in an fc, of the word with this queue and sequence number; `p0` says that it stands under p0 (R135). -/
structure Landing where
  fc : Nat
  q : Nat
  seq : Nat
  act : Act
  p0 : Bool
  deriving DecidableEq, Repr

/-- An array word that has issued (R179): its start, the next repetition, the accumulator so far, its codes and events. -/
structure ArrayJob where
  e : QEntry
  tile : BitVec 3
  start : Nat
  t : Nat
  n : Nat
  j : Nat
  begun : Bool
  acc : Map (BitVec 32)
  codes : Map (BitVec 2)
  events : List Word
  chain : Option Nat
  deriving DecidableEq, Repr

/-- One repetition of a copy in flight: its promised fc under TIMED, its data once complete, whether it is finished. -/
structure RepState where
  j : Nat
  p : Nat
  got : List LineWrite
  complete : Bool
  done : Bool
  deriving DecidableEq, Repr

/-- A task that has ended while a collective word of it was parked (R28, R376): its launch and its coordinates. -/
structure EndedTask where
  lk : Nat
  x : Nat
  y : Nat
  z : Nat
  stg : Nat
  deriving DecidableEq, Repr

/-- An issued command of the C or L queue until it completes (R278, R465); `ended` is the task of a parked collective word that
has outlived it, which is dropped when that task's launch reaches DONE (R28, R376); `early` that an atomic has completed with respect
to its scope while its request is on its way (R274, R278); `replayed` that its outcome was served from the journal (R268); `till` the
cycle by which it completes (R465); `left` the cycle at which its request left the core, `port` that at which an early atomic entered its
panel's port (R275). -/
structure Cmd where
  q : Nat
  e : QEntry
  issueFc : Nat
  released : Bool
  sent : Bool
  parked : Bool
  reps : List RepState
  data : List LineWrite
  codes : List (Nat × Nat)
  old : Word
  code : BitVec 2
  ended : Option EndedTask
  early : Bool
  replayed : Bool
  till : Nat
  left : Nat
  port : Nat
  deriving DecidableEq, Repr

/-- A trap cause taken but not yet entered (R215). -/
structure PendTrap where
  cause : Nat
  async : Bool
  q : Nat
  seqw : Bool
  info0 : Word
  info1 : Word
  cut : BitVec 32
  deriving DecidableEq, Repr

/-- Where a core stands between tasks (R23 to R28, R34). -/
inductive Life where
  | idle | loading | running | draining | saving
  deriving DecidableEq, Repr

/-- A bank's retention state with the cycle at which the present state ends or began (R228). -/
inductive BankSt where
  | active (touched : Nat)
  | entering (till : Nat)
  | retained
  | exiting (till : Nat)
  deriving DecidableEq, Repr

/-- The sequencer: PC, scalar registers, loop stack, PSUM, and a wait in progress (R102, R103, R122, R127, R302); `freed` is the PC of
an `MRECV` that has freed its message and waits (R315), `freedH` that of one in a trap handler; `gens` lists the families whose generations
the handle cache holds, the newest last (R200). -/
structure SeqSt where
  pc : BitVec 32
  s : Map Word
  ready : Map Nat
  nextAt : Nat
  lstk : Map (BitVec 128)
  psum : Word
  psumNew : Word
  wait : Option (Instr × Nat)
  reorig : Bool
  freed : Option (BitVec 32)
  freedH : Option (BitVec 32)
  gens : List Nat
  deriving DecidableEq, Repr

/-- Vector and predicate files with their parity and duplicate state (R129 to R135). -/
structure VecSt where
  v : Map VReg
  p : Map PReg
  dup : Map DupPair
  vbad : Map (BitVec 256)
  pbad : Map (BitVec 8)
  deriving DecidableEq, Repr

/-- Tiles, streams, MXEVT and the array (R170, R172, R179, R182). `lastw` holds, for a tile whose last writer issued is an
array word, one more than that word's sequence number (R181). -/
structure MxSt where
  tiles : Map Tile
  g : Map (BitVec 256)
  mxevt : Word
  mxNew : Word
  arrayEnd : Nat
  jobs : List ArrayJob
  lastw : Map Nat
  deriving DecidableEq, Repr

/-- The system registers of R207 that are not held elsewhere. -/
structure SysSt where
  prcore : Nat
  tenant : Nat
  casid : Nat
  owner : Nat
  launchid : BitVec 32
  codebase : Nat
  codesize : Nat
  rndseed : Word
  livedesc : Nat
  lvalid : Bool
  live : BitVec 512
  wdlimit : Word
  wdcount : Word
  trapvec : BitVec 32
  trapen : Word
  cause : BitVec 10
  inh : Bool
  info0 : Word
  info1 : Word
  cutpc : BitVec 32
  cutM : BitVec 32
  cutV : BitVec 32
  cutC : BitVec 32
  cutL : BitVec 32
  scr0 : Word
  scr1 : Word
  inboxBase : Nat
  inboxSize : Nat
  inboxProd : Nat
  inboxCons : Nat
  inboxRes : Nat
  replyBase : Nat
  replySize : Nat
  replyProd : Nat
  replyCons : Nat
  sempost : Bool
  sempostNew : Bool
  timecmp : Word
  timer : Bool
  lslot : Map Word
  deriving DecidableEq, Repr

/-- The scratchpad: bytes, line codes, owner tags, failing 8-byte units, retention and the lines written in this fc
(R223 to R232), the (row, line) pairs of its timed accesses, the banks that serve no further request in this cycle, the (row, bank,
cycle since when) of requests of the sequencer and of collective results that wait for their bank (R231), stale code bytes (R75), and
per 8-byte unit the values, oldest first, that the other side may still observe: before each scalar store (`srace`), and before each
write of an entry (queue, number) (`erace`, R115). -/
structure SpadSt where
  bytes : Map (BitVec 8)
  code : Map (BitVec 2)
  tag : Map Nat
  tagDef : Nat
  dbe : Map Bool
  sbe : Map Bool
  banks : Map BankSt
  retreq : Word
  acc : Map LineAcc
  lines : List (Nat × Nat)
  served : List Nat
  waits : List (Nat × Nat × Nat)
  stale : Map (BitVec 8)
  srace : Map (List (BitVec 64))
  erace : Map (List (Nat × Nat × BitVec 64))
  deriving DecidableEq, Repr

/-- Semaphores, counters, the seating chart with its snapshots and the roll-call record (R405 to R428). `rests` marks counters that the
hypervisor has released in this cycle: they count from the next on (R416). -/
structure CntSt where
  k : Map Sem
  kprev : Map Sem
  kposts : Map Nat
  cnt : Map Counter
  cntsh : BitVec 32
  chart : Map (BitVec 32)
  snapN : Nat
  snap0 : Map (BitVec 64)
  snap1 : Map (BitVec 64)
  roll : BitVec 1024
  events : Map Nat
  claim : BitVec 16
  wraps : BitVec 16
  rests : BitVec 16
  deriving DecidableEq, Repr

/-- The running task: what R24 gave it and the counts of R51, R221, R322 and R425; whether it is one of a group that holds its
form (R23), whether it has executed `TEXIT` (R321), and whether a pre-emption has decided that it drains (R346). -/
structure TaskSt where
  launch : Nat
  recno : Nat
  index : Word
  x : Nat
  y : Nat
  z : Nat
  stage : Nat
  w : Word
  words : Nat
  wall : Nat
  fcs : Nat
  frozen : Nat
  rem : Nat
  remAt : Nat
  requeue : Bool
  fresh : Bool
  wBase : Nat
  grp : Bool
  exited : Bool
  told : Bool
  deriving DecidableEq, Repr

/-- A message of a core: on its way, waiting for its place, or in its ring (R311). -/
structure MsgIn where
  src : Nat
  srcCore : Nat
  srcSeq : Nat
  tenant : Nat
  due : Option Nat
  pos : Nat
  reserved : Bool
  arrived : Bool
  header : BitVec 128
  lines : List LineWrite
  written : Bool
  post : Bool
  k : Nat
  deriving DecidableEq, Repr

/-- What a `SINIT` that has executed in this cycle before the entries of its fc (R406) found, so that a cause of one of them can
undo it (R215): the semaphore, its value before, its count after, the PC, the time of the next word, the breakpoint exemption. -/
structure EarlyWord where
  k : Nat
  old : Sem
  after : Nat
  pc : BitVec 32
  nextAt : Nat
  exempt : Bool
  deriving DecidableEq, Repr

/-- One core. `stall` holds freeze cycles still to pass as (cause, chart row, bank, cycles), cause 0 RETENTION, 1 LATE, 2 BANK, 4
BANK to make room for an untimed request (R231, R300, R301); `errs` the errors of this cycle as (block, severity, kind, address) on
their way to the error banks (R401); `nfree` the counter its free values are drawn at; `trapNow` that the pending trap was raised in
this cycle, `trapSeq` that the sequencer or decode raised it, `trapT` the time at which it was raised, `violAt` the handle or
address of a violation (R37), `heldq` the queues whose head raised a cause in it (R215), `early` a `SINIT` of this cycle. -/
structure Core where
  life : Life
  frozenV : Bool
  dstop : Bool
  failed : Bool
  exempt : Bool
  fc : Nat
  entered : Bool
  stall : List (Nat × Nat × Nat × Nat)
  errs : List (Nat × Nat × Nat × Nat)
  nfree : Nat
  seq : SeqSt
  vec : VecSt
  mx : MxSt
  h : Map Handle
  sys : SysSt
  sp : SpadSt
  cn : CntSt
  task : TaskSt
  qm : EQueue
  qv : EQueue
  qc : EQueue
  ql : EQueue
  latch : QEntry
  lastD0 : Bool
  land : List Landing
  cmds : List Cmd
  msgs : List MsgIn
  trap : Option PendTrap
  trapNow : Bool
  trapSeq : Bool
  trapT : Nat
  violAt : Word
  heldq : BitVec 4
  late : List (Nat × PendTrap)
  early : Option EarlyWord
  deriving DecidableEq, Repr

/-- The sequencer at reset. -/
def SeqSt.reset : SeqSt := ⟨0, [], [], 0, [], 0, 0, none, false, none, none, []⟩

/-- The system registers at reset (R207). -/
def SysSt.reset : SysSt :=
  { prcore := 0, tenant := 0, casid := 0, owner := 0, launchid := 0, codebase := 0, codesize := 0, rndseed := 0,
    livedesc := 0, lvalid := false, live := 0, wdlimit := 0, wdcount := 0, trapvec := 0, trapen := 0, cause := 0,
    inh := false, info0 := 0, info1 := 0, cutpc := 0, cutM := 0, cutV := 0, cutC := 0, cutL := 0, scr0 := 0, scr1 := 0,
    inboxBase := 0, inboxSize := 0, inboxProd := 0, inboxCons := 0, inboxRes := 0, replyBase := 0, replySize := 0, replyProd := 0,
    replyCons := 0, sempost := false, sempostNew := false, timecmp := 0, timer := false, lslot := [] }

/-- The scratchpad at reset: zero data, CLEAN, every bank ACTIVE (R9, R227). -/
def SpadSt.reset : SpadSt := ⟨[], [], [], 0, [], [], [], 0, [], [], [], [], [], [], []⟩

/-- The counters at reset. -/
def CntSt.reset : CntSt := ⟨[], [], [], [], 0, [], 0, [], [], 0, [], 0, 0, 0⟩

/-- No task. -/
def TaskSt.none : TaskSt := ⟨0, 0, 0, 0, 0, 0, 0, 0, 0, 0, 0, 0, 0, 0, false, false, 0, false, false, false⟩

/-- A core right after power-on reset: idle, every register at the reset value of its field map. -/
def Core.reset : Core :=
  { life := .idle, frozenV := false, dstop := false, failed := false, exempt := false, fc := 0, entered := false,
    stall := [], errs := [], nfree := 0, seq := SeqSt.reset, vec := ⟨[], [], [], [], []⟩, mx := ⟨[], [], 0, 0, 0, [], []⟩,
    h := [], sys := SysSt.reset, sp := SpadSt.reset, cn := CntSt.reset, task := TaskSt.none, qm := EQueue.zero,
    qv := EQueue.zero, qc := EQueue.zero, ql := EQueue.zero, latch := QEntry.none, lastD0 := true, land := [],
    cmds := [], msgs := [], trap := none, trapNow := false, trapSeq := false, trapT := 0, violAt := 0, heldq := 0, late := [], early := none }

end Sys2Proof.Machine
end

