-- ==== Sys2Proof/Machine/GlobalState.lean ====
section
/-! DEFINITION. The state that the cores share: device memory with its checks, the tables of 15, the checkpoint domain of
10, launches, records, spools and the Timetable of 13, links, collectives and the host port of 14, debug and counters of
16, the Thimble and the platform of 17. All plain data; table entries keep the bit layouts of their field maps. -/

namespace Sys2Proof.Machine

/-- An error bank (R401). -/
structure Bank where
  stat : Word
  first : BitVec 128
  second : BitVec 128
  deriving DecidableEq, Repr

/-- An empty error bank. -/
def Bank.zero : Bank := ⟨0, 0, 0⟩

/-- A cached leaf translation (R389): the core that holds it, ASID, page address, page size, physical address, write permission. -/
structure Tlb where
  unit : Nat
  asid : Nat
  va : Nat
  size : Nat
  pa : Nat
  pw : Bool
  deriving DecidableEq, Repr

/-- A revocation sweep that is not complete (R397): the cores still to sweep, and those still to acknowledge. -/
structure Sweep where
  tenant : Nat
  family : Nat
  gen : Nat
  toSweep : List Nat
  toAck : List Nat
  deriving DecidableEq, Repr

/-- A rotation in progress (R400): the tenant and the slot its frames leave. -/
structure Rotation where
  tenant : Nat
  slotA : Nat
  deriving DecidableEq, Repr

/-- What was still under way under a translation or a page owner entry when it changed (R390, R393): requests to the host, each with
its number and the cycle in which it times out; contexts with held writes, each with the interval whose seal applies them. -/
structure OldUse where
  reqs : List (Nat × Nat)
  held : List (Nat × Nat)
  deriving DecidableEq, Repr

/-- Device memory and its tables. `mem` is the decrypted view; `syn` marks granules with the poison syndrome, `dbe` and
`sbe` granules with an error not yet found, `tagBad` 512-byte blocks whose integrity tag fails. -/
structure MemSt where
  mem : Map (BitVec 8)
  syn : Map Bool
  dbe : Map Bool
  sbe : Map Bool
  tagBad : Map Bool
  mapped : Map (BitVec 32)
  chanBad : Map (BitVec 32)
  pot : Map Word
  dur : Map Word
  asid : Map (BitVec 256)
  tenant : Map (BitVec 512)
  gens : Map Nat
  keys : Map (BitVec 1088)
  tlb : List Tlb
  banks : Map Bank
  sweeps : List Sweep
  rots : List Rotation
  ierr : Map Bool
  durOff : List Nat
  waits : Map OldUse
  deriving DecidableEq, Repr

/-- An undo entry (R263): interval, log block, position, the block's bytes before the write, and its granules that are uncorrectable. -/
structure Undo where
  seq : Nat
  pa : Nat
  ord : Nat
  old : Map (BitVec 8)
  bad : List Nat
  deriving DecidableEq, Repr

/-- A held write (R261): the writing core, the granule, its data, the bytes it covers, whether it is a whole granule's, and the map
fields or half bytes that it changes by themselves (R44, R257). -/
structure Held where
  core : Nat
  pa : Nat
  data : BitVec 1024
  mask : BitVec 128
  whole : Bool
  codes : List (Nat × Nat)
  deriving DecidableEq, Repr

/-- A journal entry (R265): the hub that appended it, and its 32 bytes. -/
structure Jrn where
  hub : Nat
  bits : BitVec 256
  deriving DecidableEq, Repr

/-- The states of a live launch (R332). -/
inductive LSt where
  | pending | held | running | ending
  deriving DecidableEq, Repr

/-- A continuation record (R317) with what the scheduler knows of it: its launch, its readiness time, its patience, the
save slot that holds it, and whether a core holds its task. -/
structure TRec where
  lk : Nat
  index : Nat
  entry : Nat
  join : Nat
  frame : Nat
  fsize : Nat
  home : Nat
  x : Nat
  y : Nat
  z : Nat
  stg : Nat
  spawned : Bool
  readyAt : Nat
  patience : Bool
  saved : Option Nat
  busy : Bool
  deriving DecidableEq, Repr

/-- What a cursor block says of a launch (R352, R466): its key, state, predecessors and completed tasks. -/
structure CurEnt where
  lk : Nat
  st : LSt
  preds : List Nat
  done : Map Bool
  tainted : Bool
  corrected : Bool
  rows : Nat
  deriving DecidableEq, Repr

/-- A context's recovery state (R259 to R268): the state number of `RPSTAT`, the point, the open interval, member cores, released
members, releases counted in the interval, the undo log, the journal and what is left of it to replay, held writes, retired work of
this interval and of released cores in the next, the last cursor block with its spawned records, and the one before it, which stands in the
other half of the recovery area. -/
structure Ctx where
  st : Nat
  point : Nat
  iv : Nat
  diverged : Bool
  full : Bool
  members : List Nat
  rel : List Nat
  nrel : Nat
  log : List Undo
  jrn : List Jrn
  replay : List Jrn
  held : List Held
  work : Nat
  workNext : Nat
  cursor : List CurEnt
  cspawn : List TRec
  ocursor : List CurEnt
  ospawn : List TRec
  pend : Bool
  deriving DecidableEq, Repr

/-- A context without recovery. -/
def Ctx.off : Ctx := ⟨0, 0, 0, false, false, [], [], 0, [], [], [], [], 0, 0, [], [], [], [], false⟩

/-- A live launch (R329 to R334). `fcause` is its first fault, of time `ft`, `preds` are the launches it waits for, `done` the
completed task indices. -/
structure Launch where
  tenant : Nat
  vf : Nat
  lid : Nat
  pkt : BitVec 1024
  st : LSt
  preds : List Nat
  killed : Bool
  faulted : Bool
  tainted : Bool
  corrected : Bool
  cancelled : Bool
  ref : Nat
  fcause : Nat
  ft : Nat
  fx : Nat
  fy : Nat
  fz : Nat
  fstg : Nat
  rows : Nat
  work : Nat
  fcs : Nat
  t0 : Nat
  created : Nat
  done : Map Bool
  ended : Bool
  deriving DecidableEq, Repr

/-- A command spool (R325): its configuration bits [64:0], head, tail, error and stop, and a packet waiting to be read
again (R330). -/
structure Spool where
  cfg : BitVec 65
  head : Nat
  tail : Nat
  err : Nat
  stop : Bool
  reread : Option Nat
  deriving DecidableEq, Repr

/-- A command spool at reset. -/
def Spool.zero : Spool := ⟨0, 0, 0, 0, false, none⟩

/-- A completion spool (R336). -/
structure CSpool where
  cfg : Word
  prod : Nat
  cons : Nat
  err : Bool
  deriving DecidableEq, Repr

/-- A completion spool at reset. -/
def CSpool.zero : CSpool := ⟨0, 0, 0, false⟩

/-- A completion record on its way: its spool, its bits, the launch it ends. -/
structure Done where
  vf : Nat
  csp : Nat
  rec0 : BitVec 256
  lk : Nat
  deriving DecidableEq, Repr

/-- A tenant's migration state (R353): 0 NORMAL to 3 STOPPED, overflow, entries of the last report, frames written. -/
structure Mig where
  st : Nat
  ovf : Bool
  count : Nat
  frames : List Nat
  deriving DecidableEq, Repr

/-- No migration. -/
def Mig.normal : Mig := ⟨0, false, 0, []⟩

/-- The Timetable cores (R355 to R357): the journal ring, the two instruction and data SRAMs, the roles, the hold. -/
structure Ttab where
  ring : Map (BitVec 128)
  jhead : Nat
  jtail : Nat
  isram0 : Map Word
  isram1 : Map Word
  dsram0 : Map Word
  dsram1 : Map Word
  chold : Bool
  role0 : Bool
  role1 : Bool
  standby : Bool
  deriving DecidableEq, Repr

/-- The scheduler (13). `recent` holds each tenant's completed launches, the latest first: identifier, verdict and key (R331). -/
structure SchedSt where
  spools : Map Spool
  spalloc : Map Word
  pkb : BitVec 1024
  served : Nat
  burst : Nat
  cspools : Map CSpool
  launches : Map Launch
  nextLk : Nat
  recent : Map (List (Nat × Nat × Nat))
  recs : Map TRec
  nextRec : Nat
  dones : List Done
  weight : Map Nat
  pass : Map Nat
  gvt : Nat
  wasElig : List Nat
  flend : Map Word
  dispatchAt : Map Nat
  saved : Map Core
  mig : Map Mig
  tt : Ttab
  deriving DecidableEq, Repr

/-- A Molpol port (R359): `MLSTAT`'s state, width, failed lanes, close reason, stream closes and retries, whether the
Thimble has enabled it, and the application secret of its session (R361, R362). -/
structure Port where
  st : Nat
  wide : Bool
  lanes : BitVec 8
  close : Nat
  strcl : Nat
  retry : Nat
  enabled : Bool
  authed : Bool
  half : Bool
  secret : Nat
  deriving DecidableEq, Repr

/-- A port at reset: DOWN. -/
def Port.zero : Port := ⟨0, false, 0, 0, 0, 0, false, false, false, 0⟩

/-- A bound link stream (R362): its tenant, the flit counters of the two directions, and their keys. -/
structure LStream where
  tenant : Nat
  fin : Nat
  fout : Nat
  key0 : Nat
  key1 : Nat
  deriving DecidableEq, Repr

/-- One source's contribution in a receive-spool slot (R364): parts filled, byte count, codes of its lines. -/
structure Contrib where
  parts : BitVec 3
  bytes : Nat
  codes : Map (BitVec 2)
  used : Bool
  deriving DecidableEq, Repr

/-- A receive-spool slot of a local rank (R364), with the lines that the rank itself contributed to the agree and reduce
parts. -/
structure CSlot where
  tag : Nat
  full : Bool
  src : Map Contrib
  ownA : List (BitVec 1024 × BitVec 2)
  ownR : List (BitVec 1024 × BitVec 2)
  deriving DecidableEq, Repr

/-- An empty slot. -/
def CSlot.zero : CSlot := ⟨0, false, [], [], []⟩

/-- A barrier instance at its coordinator (R372): ranks arrived, the deadline's time, the ranks of a verdict MISSING. -/
structure Barrier where
  group : Nat
  tag : Nat
  arrived : List Nat
  deadline : Option Nat
  verdict : Option (List Nat)
  seen : List Nat
  deriving DecidableEq, Repr

/-- A contribution on its way to a rank's spool: group, tag, destination rank, source rank, part, lines; the word that made it while its
task holds it, the launch of that task (0 for a peer's), and whether it has left this device (R368). -/
structure CMove where
  group : Nat
  tag : Nat
  dst : Nat
  src : Nat
  part : Nat
  bytes : Nat
  lines : List (BitVec 1024 × BitVec 2)
  core : Option (Nat × Nat)
  lk : Nat
  away : Bool
  deriving DecidableEq, Repr

/-- Work of the hubs and of the paths between blocks, due at a cycle that the spec bounds and leaves open: granule reads and
writes of command (core, queue, seq) for repetition `rep`, atomics, the ARED source read, that of CAGREE and CREDX, a held word that leaves its core,
a fault report, a repetition that lands, a reply, a completion post, a message's arrival and landing (destination, sender,
number), a contribution, task start, save and resumption, a packet read again, an atomic's entry into its panel port, a read that pushes
writes to the host (R274). -/
inductive Item where
  | read (core q seq rep gva : Nat)
  | write (core q seq rep gva : Nat) (data : BitVec 1024) (mask : BitVec 128) (code : BitVec 2) (codes : List (Nat × Nat))
  | atomic (core seq : Nat)
  | ared (core seq : Nat)
  | lin (core seq : Nat)
  | release (core q seq : Nat)
  | copyFault (core q seq rep va : Nat)
  | landing (core q seq rep : Nat)
  | reply (core seq k code old w64 : Nat)
  | post (core q seq rep k : Nat)
  | arrive (dst src seq : Nat)
  | deliver (dst src seq : Nat)
  | contrib (m : CMove)
  | start (core : Nat)
  | save (core : Nat)
  | resume (core : Nat)
  | rereadPacket (spool : Nat)
  | enters (core seq : Nat)
  | hostFlush (tenant : Nat)
  | takeover
  deriving DecidableEq, Repr

/-- A storage error that strikes a block from outside: what the checks of R134, R226, R253, R254 and R256 find later. A failing 4-byte
position of a vector register, a failing segment of a predicate, one or two wrong bits in an 8-byte unit of a scratchpad or in a granule
of device memory, a wrong integrity tag of a 512-byte block. -/
inductive Upset where
  | vec (core reg pos : Nat)
  | pred (core reg seg : Nat)
  | spad (core unit : Nat) (two : Bool)
  | gran (gran : Nat) (two : Bool)
  | tag (block : Nat)
  deriving DecidableEq, Repr

/-- A TDI (R382): 0 CONFIG_UNLOCKED, 1 CONFIG_LOCKED, 2 RUN, 3 ERROR; `WINCTL`; its tenant; whether it uses its IDE stream, and
that stream's keys in the two directions (R383). -/
structure Tdi where
  st : Nat
  win : Word
  tenant : Nat
  ide : Bool
  keyRx : Nat
  keyTx : Nat
  deriving DecidableEq, Repr

/-- A TDI at reset. -/
def Tdi.zero : Tdi := ⟨0, 0, 0, false, 0, 0⟩

/-- Links, collectives and the host port (14). `hostReq` holds the requests sent to the host: number, the cycle at which they
time out, the work that waits for them. `answers` holds the last answer to each function: its value, whether it is an
Unsupported Request, and the EP bit. `shut` marks streams that have closed since the last key update (R360). `posted` holds the tenants
with writes to the host that no later read has pushed yet, and the requests that were out when the last one left (R274). -/
structure LinkSt where
  ports : Map Port
  streams : Map LStream
  groups : Map (BitVec 256)
  slots : Map CSlot
  bars : List Barrier
  tdi : Map Tdi
  answers : Map (Nat × Bool × Bool)
  hostReq : List (Nat × Nat × Item)
  hostMem : Map (BitVec 8)
  pf0 : Map Word
  shut : Map Bool
  posted : List (Nat × List Nat)
  deriving DecidableEq, Repr

/-- Debug registers of a tenant (R431). -/
structure Dbg where
  dhold : Bool
  dlid : Nat
  dsel : Nat
  daddr : Nat
  bkpc : Map (BitVec 33)
  wstask : Word
  wscount : Word
  wsarm : Bool
  wsmiss : Bool
  wserr : Bool
  deriving DecidableEq, Repr

/-- Debug registers at reset. -/
def Dbg.zero : Dbg := ⟨false, 0, 0, 0, [], 0, 0, false, false, false⟩

/-- A pending roll call (R427): its number, time, cause and cores, and the hubs it latches. -/
structure RollCall where
  seq : Nat
  t : Nat
  cause : Nat
  set : List Nat
  hubs : List Nat
  deriving DecidableEq, Repr

/-- Counters that the cores share, debug and roll calls (16). Usage field f of owner o stands at 5 × o + f, stack and port
counters as R424 numbers them. -/
structure MeasSt where
  usage : Map Word
  samples : List (Nat × Map Word)
  vfsh : Map (BitVec 32)
  dbg : Map Dbg
  rcseq : Nat
  rc : Option RollCall
  hubrc : Map (BitVec 128)
  reports : Nat
  deriving DecidableEq, Repr

/-- A service request that the Thimble has not completed (R397, R422, R445): its code (7 REVOKE, 4 RELEASE, 10 REPORT, 15 the
unbinding at STOP), caller, owner charged, tenant, the (family, generation) sweeps it waits for, the time it waits for, a
number (REPORT: the owner mask) and frames, and the nonce. -/
structure SvcPend where
  svc : Nat
  caller : Nat
  owner : Nat
  req : Nat
  tenant : Nat
  fams : List (Nat × Nat)
  at_ : Nat
  arg : Nat
  frames : List Nat
  x : BitVec 512
  deriving DecidableEq, Repr

/-- A violation record (R37): the cause, the master, its tenant, the handle or address, the time. -/
structure Viol where
  cause : Nat
  master : Nat
  tenant : Nat
  where_ : Word
  t : Nat
  deriving DecidableEq, Repr

/-- The Thimble (17): SRAM, fuses, engine registers, key slots, measurement slots, boot registers, service mailbox. -/
structure ThimSt where
  sram : Map (BitVec 8)
  flash : Map (BitVec 8)
  keyhash : BitVec 384
  minsvn : Nat
  bootcnt : Nat
  uds : Nat
  udslock : Bool
  eng : Map Word
  slots : Map Nat
  ms : Map (BitVec 512)
  mext : Word
  mextsrc : Word
  stage : Nat
  err : Nat
  halted : Bool
  drbgReq : Nat
  drbgSeed : Nat
  sealing : Map Nat
  viols : List Viol
  resp : Map Word
  pend : List SvcPend
  deriving DecidableEq, Repr

/-- The physical part and the inventory record (R40, R447 to R451). `spareDue` holds, for a form
whose spare site takes a failed member's place at the next placement, one more than that member (R39, R351); `hot` marks forms
that have read 100 °C and not yet 98. -/
structure PlatSt where
  inv : BitVec 1024
  siteBad : Map Bool
  spare : Map Nat
  spareDue : Map Nat
  stretch : Map Nat
  fatalN : Bool
  thermtrip : Bool
  lowerAt : Nat
  hot : Map Bool
  deriving DecidableEq, Repr

end Sys2Proof.Machine
end

