-- ==== Sys2Proof/Machine/State.lean ====
section
/-! DEFINITION. The state of the whole part, the reasons a step can stop, and the state right after reset. -/

namespace Sys2Proof.Machine

/-- Why the machine stops. -/
inductive Fault where
  /-- The package has failed or has no power: no step is defined until the next power-on (R39, R451). Raised by `step`.
  Safe: nothing more is claimed. -/
  | packageDown
  deriving DecidableEq, Repr

/-- Why an instruction has no meaning. -/
inductive Refusal where
  /-- No meaning was written for this row. Raised by the dispatch alone. Safe: nothing is claimed of it. -/
  | notModelled (mnemonic : String)
  deriving DecidableEq, Repr

/-- The machine. `cur` names the core whose word or event the present step is about; `inputs` holds what the outside world does,
each with the wall cycle from which it is due; `upsets` the storage errors that strike it, likewise; `work` holds what is under way
between the blocks; `free` is the counter that free values are drawn at (log entry 1). -/
structure State where
  cores : Map Core
  cur : Nat
  cyc : Nat
  time : Nat
  split : Map Bool
  inputs : List (Nat × Instr)
  upsets : List (Nat × Upset)
  work : List (Nat × Item)
  free : Nat
  dev : MemSt
  ctxs : Map Ctx
  sched : SchedSt
  links : LinkSt
  meas : MeasSt
  thim : ThimSt
  plat : PlatSt
  down : Bool
  deriving DecidableEq, Repr

/-- Device memory and its tables right after package power-on reset. -/
def MemSt.reset : MemSt :=
  { mem := [], syn := [], dbe := [], sbe := [], tagBad := [], mapped := [], chanBad := [], pot := [], dur := [], asid := []
    tenant := [], gens := [], keys := [], tlb := [], banks := [], sweeps := [], rots := [], ierr := [], durOff := [], waits := [] }

/-- The Timetable right after reset: the role is the H0 core's (R357). -/
def Ttab.reset : Ttab :=
  { ring := [], jhead := 0, jtail := 0, isram0 := [], isram1 := [], dsram0 := [], dsram1 := [], chold := false
    role0 := true, role1 := false, standby := true }

/-- The scheduler right after reset. -/
def SchedSt.reset : SchedSt :=
  { spools := [], spalloc := [], pkb := 0, served := 1023, burst := 0, cspools := [], launches := [], nextLk := 1
    recent := [], recs := [], nextRec := 1, dones := [], weight := [], pass := [], gvt := 0, wasElig := [], flend := [], dispatchAt := [], saved := []
    mig := [], tt := Ttab.reset }

/-- Links and the host port right after reset: every port DOWN, every TDI CONFIG_UNLOCKED; PLIM 6000 and SLICEUS 1000
(R380). -/
def LinkSt.reset : LinkSt :=
  { ports := [], streams := [], groups := [], slots := [], bars := [], tdi := [], answers := [], hostReq := []
    hostMem := [], pf0 := [(0x100, 6000), (0x108, 1000)], shut := [], posted := [] }

/-- Counters and debug right after reset. -/
def MeasSt.reset : MeasSt :=
  { usage := [], samples := [], vfsh := [], dbg := [], rcseq := 0, rc := none, hubrc := [], reports := 0 }

/-- The Thimble right after reset, before boot stage 0 has sensed the fuses. -/
def ThimSt.reset : ThimSt :=
  { sram := [], flash := [], keyhash := 0, minsvn := 0, bootcnt := 0, uds := 0, udslock := false, eng := [], slots := []
    ms := [], mext := 0, mextsrc := 0, stage := 0, err := 0, halted := false, drbgReq := 0, drbgSeed := 0, sealing := []
    viols := [], resp := [], pend := [] }

/-- The physical part right after reset. -/
def PlatSt.reset : PlatSt :=
  { inv := 0, siteBad := [], spare := [], spareDue := [], stretch := [], fatalN := false, thermtrip := false, lowerAt := 0, hot := [] }

/-- The machine right after package power-on reset. -/
def State.reset : State :=
  { cores := [], cur := 0, cyc := 0, time := 0, split := [], inputs := [], upsets := [], work := [], free := 0, dev := MemSt.reset
    ctxs := [], sched := SchedSt.reset, links := LinkSt.reset, meas := MeasSt.reset, thim := ThimSt.reset
    plat := PlatSt.reset, down := false }

end Sys2Proof.Machine
end

