-- ==== Sys2Proof/Machine/Flags.lean ====
section
/-! DEFINITION. The sticky summaries of a core, which stand where another machine has flags: PSUM (R127), MXEVT (R182),
EVENTS (R212), the performance-counter events (R412) and the seating chart (R417). The part has no arithmetic flags (R47). -/

namespace Sys2Proof.Machine

/-- The larger of two poison codes (MAXCODE). -/
def maxCode (a b : BitVec 2) : BitVec 2 := if a.toNat < b.toNat then b else a

/-- Set bit `b` of PSUM; a clear of the same cycle does not remove it (R127). -/
def psumSet (c : Core) (b : Nat) : Core :=
  { c with seq := { c.seq with psum := c.seq.psum ||| (1#64 <<< b), psumNew := c.seq.psumNew ||| (1#64 <<< b) } }

/-- Record poison code `k` in PSUM; CLEAN is not recorded (R127). -/
def psumCode (c : Core) (k : BitVec 2) : Core := if k = 0 then c else psumSet c k.toNat

/-- Clear the bits of `m` in PSUM; bits set in this cycle stay (R127). -/
def psumClear (c : Core) (m : Word) : Core :=
  { c with seq := { c.seq with psum := (c.seq.psum &&& ~~~ m) ||| c.seq.psumNew } }

/-- Note that a semaphore was posted (R212, R410). -/
def eventSempost (c : Core) : Core := { c with sys := { c.sys with sempost := true, sempostNew := true } }

/-- EVENTS as read (R212), `time` being the timestamp. -/
def eventsWord (c : Core) (time : Nat) : Word :=
  let b0 := decide (c.sys.inboxProd ≠ c.sys.inboxCons)
  let b1 := decide (c.sys.replyProd ≠ c.sys.replyCons)
  let b3 := decide (c.sys.timecmp ≠ 0) && decide (c.sys.timecmp.toNat ≤ time)
  boolWord b0 ||| (boolWord b1 <<< 1) ||| (boolWord c.sys.sempost <<< 2) ||| (boolWord b3 <<< 3)

/-- Count `n` events of code `ev` in this cycle (R411, R412). -/
def countEv (c : Core) (ev n : Nat) : Core :=
  { c with cn := { c.cn with events := mapSet 0 c.cn.events ev (mapGet 0 c.cn.events ev + n) } }


end Sys2Proof.Machine
end

