-- ==== Sys2Proof/Machine/Operands.lean ====
section
/-! DEFINITION. Operand forms: scalar registers, sign extension, address computation, the scratchpad bytes an access
touches, the system-register fields, and which scalar registers a word reads (04 R103, R114; 03 R81; 09 R223). -/

namespace Sys2Proof.Machine

/-- A scalar register: s0 reads zero (R103). -/
def getS (c : Core) (n : BitVec 6) : Word := if n = 0 then 0 else mapGet 0 c.seq.s n.toNat

/-- Write a scalar register: a write to s0 is discarded (R77, R103). -/
def setS (c : Core) (n : BitVec 6) (v : Word) : Core :=
  if n = 0 then c else { c with seq := { c.seq with s := mapSet 0 c.seq.s n.toNat v } }

/-- The register after `n` of a pair or a triple. -/
def nextReg (n : BitVec 6) (k : Nat) : BitVec 6 := BitVec.ofNat 6 (n.toNat + k)

/-- Sign-extend a field to 64 bits (R81). -/
def sext64 {n : Nat} (x : BitVec n) : Word := x.signExtend 64

/-- SEXTN(x, n) of R108. -/
def sextN (x : Word) (n : Nat) : Word := BitVec.ofInt 64 (let m := x.toNat % 2 ^ n
  if n = 0 then 0 else if m < 2 ^ (n - 1) then (m : Int) else (m : Int) - (2 ^ n : Nat))

/-- ZEXTN(x, n) of R108. -/
def zextN (x : Word) (n : Nat) : Word := BitVec.ofNat 64 (x.toNat % 2 ^ n)

/-- The size of the scratchpad (R223). -/
def spadSize : Nat := 2 ^ 23

/-- The line of a scratchpad address (R223). -/
def lineOf (a : Nat) : Nat := a / 128

/-- The bank of a line (R223). -/
def bankOf (line : Nat) : Nat := line % 64

/-- The poison code of a line (R224). -/
def lineCode (c : Core) (line : Nat) : BitVec 2 := mapGet 0 c.sp.code line

/-- Does the line's owner tag equal the core's tenant (R225)? -/
def tagOk (c : Core) (line : Nat) : Bool := decide (mapGet c.sp.tagDef c.sp.tag line = c.sys.tenant)

/-- A failing word's address operand of R464: the lowest byte at or above 2^23 of an access of `n` bytes at `a`. -/
def rangeAddr (a n : Nat) : Option Nat :=
  if spadSize ≤ a then some a else if spadSize < a + n then some spadSize else none

/-- The general code window test (R225). -/
def inCode (c : Core) (a : Nat) : Bool :=
  decide (c.sys.codebase ≤ a) && decide (a < c.sys.codebase + 6 * c.sys.codesize)

/-- The loop-stack entry `j` (R122). -/
def lstk (c : Core) (j : Nat) : BitVec 128 := mapGet 0 c.seq.lstk j

/-- Fields of a loop-stack entry (R122). -/
def lpCnt (e : BitVec 128) : BitVec 32 := e.extractLsb' 0 32
def lpNr (e : BitVec 128) : BitVec 7 := e.extractLsb' 32 7
def lpNorot (e : BitVec 128) : BitVec 1 := e.extractLsb' 39 1
def lpVrb (e : BitVec 128) : BitVec 10 := e.extractLsb' 40 10
def lpPrb (e : BitVec 128) : BitVec 3 := e.extractLsb' 50 3
def lpValid (e : BitVec 128) : BitVec 1 := e.extractLsb' 63 1
def lpPc (e : BitVec 128) : BitVec 32 := e.extractLsb' 64 32

/-- A loop-stack entry from its fields (R122). -/
def lpMake (cnt : BitVec 32) (nr : BitVec 7) (norot : BitVec 1) (vrb : BitVec 10) (prb : BitVec 3) (valid : BitVec 1)
    (pc : BitVec 32) : BitVec 128 :=
  0#32 ++ pc ++ valid ++ 0#10 ++ prb ++ vrb ++ norot ++ nr ++ cnt

/-- The rotation in force: N, vrb, prb (R122). -/
def rotation (c : Core) : Nat × Nat × Nat :=
  let e := lstk c 0
  if lpValid e = 1 then (8 * (lpNr e).toNat, (lpVrb e).toNat, (lpPrb e).toNat) else (0, 0, 0)

/-- Resolve a vector name (R90). -/
def rotV (c : Core) (n : BitVec 10) : BitVec 10 :=
  let (sz, vrb, _) := rotation c
  if 256 ≤ n.toNat ∧ n.toNat < 256 + sz then BitVec.ofNat 10 (256 + (n.toNat - 256 + vrb) % sz) else n

/-- Resolve a predicate name (R91). -/
def rotP (c : Core) (n : BitVec 4) : BitVec 4 :=
  let (_, _, prb) := rotation c
  if 8 ≤ n.toNat then BitVec.ofNat 4 (8 + (n.toNat - 8 + prb) % 8) else n

/-- COREID of a core (R208): its number, member, form and the identity of its task. -/
def coreid (c : Core) (n : Nat) : Word :=
  BitVec.ofNat 64 (n + (n % 8) * 2 ^ 8 + (n / 8) * 2 ^ 11 + c.sys.prcore % 256 * 2 ^ 16 + c.sys.tenant % 1024 * 2 ^ 24
    + c.sys.casid % 1024 * 2 ^ 34 + c.sys.owner % 64 * 2 ^ 44)

/-- ROT (R207). -/
def rotWord (c : Core) : Word :=
  let e := lstk c 0
  if lpValid e = 1 then ((0#44 ++ lpPrb e ++ lpVrb e ++ lpNr e : BitVec 64)) else 0

/-- TRAPCAUSE as read (R213): bits [9:0] as recorded, INH in bit 10. -/
def trapcauseWord (c : Core) : Word := (0#53 ++ (if c.sys.inh then 1#1 else 0#1) ++ c.sys.cause : BitVec 64)

end Sys2Proof.Machine
end

