-- ==== Sys2Proof/Machine/Ops.lean ====
section
/-! DEFINITION. The named operations over cores, registers and memory that the meanings share: reaching the current core,
retiring a sequencer word, the scratchpad access of R114 and R224 to R229, raising a cause (R215), a violation (R36), and
taking a trap and returning from one (R215, R218). -/

namespace Sys2Proof.Machine

/-- Bits [lo + len − 1 : lo] of an entry, as a number. -/
def fieldOf {n : Nat} (x : BitVec n) (lo len : Nat) : Nat := x.toNat / 2 ^ lo % 2 ^ len

/-- An entry with bits [lo + len − 1 : lo] replaced. -/
def setField {n : Nat} (x : BitVec n) (lo len v : Nat) : BitVec n :=
  BitVec.ofNat n (x.toNat - fieldOf x lo len * 2 ^ lo + v % 2 ^ len * 2 ^ lo)

/-- The answer of a meaning. -/
abbrev Ans := Host.Outcome State Fault Refusal

/-- Core `n`. -/
def State.core (s : State) (n : Nat) : Core := mapGet Core.reset s.cores n

/-- Replace core `n`. -/
def State.setCore (s : State) (n : Nat) (c : Core) : State := { s with cores := mapPut s.cores n c }

/-- The core that the present step is about. -/
def State.me (s : State) : Core := s.core s.cur

/-- Change the core that the present step is about. -/
def State.onMe (s : State) (f : Core → Core) : State := s.setCore s.cur (f s.me)

/-- Is the form of core `n` split (R30, R208)? -/
def State.isSplit (s : State) (n : Nat) : Bool := mapGet false s.split (n / 8)

/-- Write a scalar result that is ready `lat` cycles after cycle `cyc` (R106); it stands in the register at once (log entry 20). -/
def setSLat (c : Core) (cyc : Nat) (sd : BitVec 6) (v : Word) (lat : Nat) : Core :=
  let c1 := setS c sd v
  if sd = 0 then c1
  else { c1 with seq := { c1.seq with
    ready := mapSet 0 c1.seq.ready sd.toNat (max (mapGet 0 c1.seq.ready sd.toNat) (cyc + lat)) } }

/-- Cycles that the sequencer waits because a word of its own has touched a bank that is not ACTIVE (R106, R228). -/
def bankWait (c : Core) : Nat := c.stall.foldl (fun n x => if x.2.1 = 31 then max n x.2.2.2 else n) 0

/-- A sequencer word has executed (R425 counts it; R51 and event 0x0A count it too), and the next may execute `gap` cycles
later (R106). An `MRECV` of its own that had freed its message and was cut is past (R303); that of the interrupted program stays so while a
handler runs. -/
def retire (c : Core) (cyc gap : Nat) : Core :=
  countEv { c with
    task := { c.task with w := c.task.w + 1, words := c.task.words + 1 }
    seq := { c.seq with nextAt := cyc + gap + bankWait c, wait := none, freed := if c.sys.inh then c.seq.freed else none, freedH := none }
    nfree := c.nfree + 1
    exempt := false } 0x0A 1

/-- PC := PC + 1, modulo 2^32 (R74). -/
def stepPc (c : Core) : Core := { c with seq := { c.seq with pc := c.seq.pc + 1 } }

/-- PC := t. -/
def setPc (c : Core) (t : BitVec 32) : Core := { c with seq := { c.seq with pc := t } }

/-- A sequencer word that writes sd and goes on at the next word. -/
def writeNext (s : State) (sd : BitVec 6) (v : Word) (lat : Nat) : Ans :=
  .next (s.onMe fun c => retire (stepPc (setSLat c s.cyc sd v lat)) s.cyc 1)

/-- A sequencer word that changes the core and goes on at the next word. -/
def coreNext (s : State) (f : Core → Core) : Ans :=
  .next (s.onMe fun c => retire (stepPc (f c)) s.cyc 1)

/-- A sequencer word that goes to word `t`, `gap` cycles later. -/
def jumpNext (s : State) (t : BitVec 32) (gap : Nat) (f : Core → Core) : Ans :=
  .next (s.onMe fun c => retire (setPc (f c) t) s.cyc gap)

/-- Cause codes of R213. -/
def causeIllegal : Nat := 0x01
def causePriv : Nat := 0x02
def causeAlign : Nat := 0x03
def causeRange : Nat := 0x04
def causeSeal : Nat := 0x08
def causeRights : Nat := 0x09
def causeBounds : Nat := 0x0A
def causeOwner : Nat := 0x0B
def causeRevoked : Nat := 0x0C
def causeTranslation : Nat := 0x0D
def causeSemCeiling : Nat := 0x10
def causeSemUnder : Nat := 0x11
def causePoisonStore : Nat := 0x12
def causePoisonRec : Nat := 0x13
def causeBound : Nat := 0x14
def causeTileShape : Nat := 0x18
def causeStreamCfg : Nat := 0x19
def causeInbox : Nat := 0x1A
def causeWatchdog : Nat := 0x1B
def causeLogFull : Nat := 0x1C
def causeBreak : Nat := 0x1D
def causeSwTrap : Nat := 0x1E
def causeUeControl : Nat := 0x3F

/-- Is the cause one of the four violations (R36)? -/
def isViolation (k : Nat) : Bool := decide (8 ≤ k) && decide (k ≤ 0x0B)

/-- A cause becomes the pending trap; one that takes the place of an earlier cycle's cause lets nothing more issue (R215). A violation enters no handler (R36): what its `info0` says, the handle or address, is kept
for the violation record (R37). -/
def takeCause (c : Core) (time : Nat) (t : PendTrap) : Core :=
  if isViolation t.cause then
    { c with
      trap := some { t with info0 := 0, info1 := 0 }, trapNow := c.trap.isNone || c.trapNow, trapSeq := false, trapT := time, violAt := t.info0
      frozenV := true }
  else { c with trap := some t, trapNow := c.trap.isNone || c.trapNow, trapSeq := false, trapT := time }

/-- Does cause `t` of an engine or a command come before the recorded cause `p` (R38, R83, R215)? A violation comes before any other
cause; in the cycle of `p`, a cause of an entry or a command comes before one of the sequencer, and the queues count in their order. -/
def precedes (c : Core) (p t : PendTrap) : Bool :=
  !isViolation p.cause && (isViolation t.cause || (c.trapNow && (c.trapSeq || decide (t.q < p.q))))

/-- Record a cause raised by an entry or an issued command (R215). Of several in one cycle the first in order is recorded and no
other; a cause of an issued command that comes in a later cycle, during the wait, is kept with its time. -/
def raise (c : Core) (time : Nat) (t : PendTrap) : Core :=
  match c.trap with
  | none => takeCause c time t
  | some p =>
    if precedes c p t then takeCause c time t
    else if t.async && !c.trapNow then { c with late := c.late ++ [(time, t)] }
    else c

/-- Record a cause raised by the sequencer or at decode (R83, R107, R215): last in the order of its cycle; a violation is none of
these. -/
def raiseSeq (c : Core) (time : Nat) (t : PendTrap) : Core :=
  if isViolation t.cause then raise c time t
  else match c.trap with
    | none => { takeCause c time t with trapSeq := true }
    | some _ => c

/-- UE_CONTROL is taken whatever cause waits, but for a violation (R215). -/
def raiseFatal (c : Core) (time : Nat) (t : PendTrap) : Core :=
  match c.trap with
  | none => takeCause c time t
  | some p => if isViolation p.cause then c else takeCause c time t

/-- A cause of the sequencer word at the PC: precise, nothing written (R83, R107). -/
def seqTrap (s : State) (cause : Nat) (i0 i1 : Word) : Ans :=
  .next (s.onMe fun c => raiseSeq c s.time ⟨cause, false, 0, true, i0, i1, c.seq.pc⟩)

/-- Does a `SINIT` of this cycle have to be undone: an entry due in the cycle has raised a cause, so the word does not execute
(R215)? -/
def earlyLost (c : Core) : Bool := c.early.isSome && c.trap.isSome && c.trapNow && !c.trapSeq

/-- The `SINIT` of this cycle is undone (R215, R406); posts of the cycle to its semaphore stay. -/
def undoEarly (c : Core) : Core :=
  match c.early with
  | none => c
  | some e =>
    let k := mapGet Sem.zero c.cn.k e.k
    { c with
      early := none, exempt := e.exempt, seq := { c.seq with pc := e.pc, nextAt := e.nextAt }
      task := { c.task with w := c.task.w - 1, words := c.task.words - 1 }
      cn := { c.cn with
        k := mapSet Sem.zero c.cn.k e.k { e.old with count := e.old.count + (k.count - e.after) }
        events := mapSet 0 c.cn.events 0x0A (mapGet 0 c.cn.events 0x0A - 1) } }

/-- The word at decode, as TRAPINFO1 records it (R82). -/
def wordInfo (w : IWord) : Word := w.setWidth 64

/-- A free bit of a core: `k` tells apart the bits drawn at one moment (log entry 1). -/
def freeBit (c : Core) (k : Nat) : Bool :=
  (Config.freeValue (16 + c.sys.prcore) (c.nfree * 4096 + k / 64)).getLsbD (k % 64)

/-- Bytes of the scratchpad as a number. -/
def scBytes (c : Core) (a n : Nat) : Nat := memReadNat c.sp.bytes a n

/-- The byte that a `VATOM` slot of this fc writes at an address, as it stood before: until the fc is over every other agent reads it
so, and what it writes there is lost (R159). -/
def slotByte (c : Core) (a : Nat) : Option (BitVec 8) :=
  match c.sp.acc.find? fun e => decide (e.1 = a / 128) && e.2.slot.getLsbD (a % 128) with
  | some (_, x) => some (x.data0.extractLsb' (8 * (a % 128)) 8)
  | none => none

/-- The value that a write of `n` bytes leaves, where a slot's bytes stay (R159). -/
def besideSlot (c : Core) (a v : Nat) : Nat → Nat
  | 0 => 0
  | n + 1 => (if (slotByte c a).isSome then (memRead c.sp.bytes a).toNat else v % 256) + 256 * besideSlot c (a + 1) (v / 256) n

/-- Which of the values of a unit the sequencer observes in this moment (R115): before one of the engine writes that no
synchronization has covered, or after all of them. A free value decides, afresh for every unit (log entry 1). -/
def sightOf (c : Core) (u : Nat) : Nat :=
  match mapGet [] c.sp.erace u with
  | [] => 0
  | l => (Config.freeValue (16 + c.sys.prcore) (c.nfree * 4096 + 2048 + u % 1024)).toNat % (l.length + 1)

/-- One byte as the sequencer reads it (R115). -/
def scByte (c : Core) (a : Nat) : Nat :=
  match slotByte c a, (mapGet [] c.sp.erace (a / 8))[sightOf c (a / 8)]? with
  | some x, _ => x.toNat
  | none, some x => (x.2.2.extractLsb' (8 * (a % 8)) 8).toNat
  | none, none => (memRead c.sp.bytes a).toNat

/-- Bytes of the scratchpad as the sequencer reads them, as a number. -/
def scRead (c : Core) (a : Nat) : Nat → Nat
  | 0 => 0
  | n + 1 => scByte c a + 256 * scRead c (a + 1) n

/-- The 8-byte units of bytes a to a + n − 1. -/
def unitsOf (a n : Nat) : List Nat := (List.range ((a + n - 1) / 8 + 1 - a / 8)).map (fun i => a / 8 + i)

/-- What the sequencer has observed of some units it does not observe anything older than afterwards (R282). -/
def sawUnits (c : Core) (us : List Nat) : Core :=
  us.foldl (fun c' u => { c' with sp := { c'.sp with erace := mapSet [] c'.sp.erace u ((mapGet [] c.sp.erace u).drop (sightOf c u)) } }) c

/-- Bytes a to a + n − 1 as they stand in unit `u`, put over a value of the unit. -/
def overUnit (a n v u : Nat) (x : BitVec 64) : BitVec 64 :=
  (List.range 8).foldl (fun x i =>
    let b := 8 * u + i
    if a ≤ b ∧ b < a + n then
      (x &&& ~~~ (255#64 <<< (8 * i))) ||| (BitVec.ofNat 64 (v / 2 ^ (8 * (b - a)) % 256) <<< (8 * i)) else x) x

/-- After a store of the sequencer its own later loads see the bytes stored, whatever an engine wrote before (R115). -/
def stored (m : Map (List (Nat × Nat × BitVec 64))) (a n v : Nat) (us : List Nat) : Map (List (Nat × Nat × BitVec 64)) :=
  us.foldl (fun m u =>
    if a ≤ 8 * u ∧ 8 * u + 8 ≤ a + n then mapDel m u
    else mapSet [] m u ((mapGet [] m u).map fun x => (x.1, x.2.1, overUnit a n v u x.2.2))) m

/-- Remove the error marks of some units. -/
def clearUnits (m : Map Bool) (us : List Nat) : Map Bool := us.foldl (fun m u => mapSet false m u false) m

/-- Do the 8-byte units of bytes a to a + n − 1 hold a double-bit error (R226)? -/
def scBad (c : Core) (a n : Nat) : Bool :=
  (unitsOf a n).any fun u => mapGet false c.sp.dbe u

/-- Give a line a poison code (R224), recording it in PSUM (R127). -/
def setLineCode (c : Core) (line : Nat) (k : BitVec 2) : Core :=
  psumCode { c with sp := { c.sp with code := mapSet 0 c.sp.code line k } } k

/-- The errors of the pair of units 2j and 2j + 1 are settled (R229): up to two in its 128 bits are corrected and counted; three or
more give the line ERROR and count one uncorrectable error. A mark of `sbe` stands for one error, one of `dbe` for two; one that stood
in the unit as its bank entered counts too, on which the rule is silent (DESIGN CHOICE, log entry 163). -/
def settlePair (c : Core) (j : Nat) : Core :=
  let n (u : Nat) : Nat := if mapGet false c.sp.dbe u then 2 else if mapGet false c.sp.sbe u then 1 else 0
  let k := n (2 * j) + n (2 * j + 1)
  let c := { c with sp := { c.sp with
    dbe := clearUnits c.sp.dbe [2 * j, 2 * j + 1], sbe := clearUnits c.sp.sbe [2 * j, 2 * j + 1] } }
  if k ≤ 2 then countEv { c with errs := c.errs ++ List.replicate k (2, 1, 2, 16 * j) } 0x19 k
  else setLineCode { c with errs := c.errs ++ [(2, 2, 2, 16 * j)] } (j / 8) 3

/-- The errors that a bank holds are settled as it leaves retention (R229). -/
def settleBank (c : Core) (b : Nat) : Core :=
  ((((c.sp.dbe.filter (·.2)).map (·.1) ++ (c.sp.sbe.filter (·.2)).map (·.1)).filter fun u => decide (bankOf (u / 16) = b)).map
    (· / 2)).eraseDups.foldl settlePair c

/-- Is a bank ACTIVE (R228)? -/
def bankAwake (c : Core) (b : Nat) : Bool :=
  match mapGet (BankSt.active 0) c.sp.banks b with
  | .active _ => true
  | _ => false

/-- Does the bank's general port serve a timed access in this cycle, or has it served a request already (R230, R231)? -/
def portBusy (c : Core) (b : Nat) : Bool := c.sp.served.contains b || c.sp.lines.any fun x => decide (bankOf x.2 = b)

/-- May untimed requests for these lines be served in this cycle (R228, R231)? -/
def portFree (c : Core) (ls : List Nat) : Bool := ls.all fun l => bankAwake c (bankOf l) && !portBusy c (bankOf l)

/-- The lines of a request whose banks it has still to touch (R228): not ACTIVE, and their exit counts for no touch yet. -/
def asleep (c : Core) (ls : List Nat) : List Nat :=
  ls.filter fun l => match mapGet (BankSt.active 0) c.sp.banks (bankOf l) with
    | .active _ => false
    | .exiting _ => !c.stall.any fun x => decide (x.1 = 0) && decide (x.2.2.1 = bankOf l)
    | _ => true

/-- Touch the bank of a line (R228): a bank that is not ACTIVE begins its exit, and the counter of the core freezes until
it is ACTIVE; what the exit corrects is corrected before the access sees it. Row 31 marks a touch by the sequencer, which waits
too (R106). Nothing else reaches the bank before it is ACTIVE, and the fc stands still (log entry 126). -/
def touchBankAs (row : Nat) (c : Core) (cyc line : Nat) : Core :=
  let b := bankOf line
  match mapGet (BankSt.active 0) c.sp.banks b with
  | .active t => if cyc ≤ t then c else { c with sp := { c.sp with banks := mapPut c.sp.banks b (.active cyc) } }
  | .exiting t => { c with stall := c.stall ++ [(0, row, b, t - cyc)] }
  | _ =>
    let c := settleBank c b
    { c with
      sp := { c.sp with banks := mapPut c.sp.banks b (.exiting (cyc + 2048)) }
      stall := c.stall ++ [(0, row, b, 2048)] }

/-- A touch by an engine, a landing or a request from outside the sequencer. -/
def touchBank (c : Core) (cyc line : Nat) : Core := touchBankAs 15 c cyc line

/-- The effects a read of bytes a to a + n − 1 has on the line (R226, R228): a single-bit error is corrected and counted, a
double-bit error sets the line's code to ERROR. -/
def touchReadAs (row : Nat) (c : Core) (cyc a n : Nat) : Core :=
  let c := touchBankAs row c cyc (lineOf a)
  let soft := (unitsOf a n).filter fun u => mapGet false c.sp.sbe u
  let c := if soft.isEmpty then c
    else countEv { c with
      sp := { c.sp with sbe := clearUnits c.sp.sbe soft }, errs := c.errs ++ soft.map fun u => (2, 1, 1, 8 * u) } 0x19 soft.length
  let hard := (unitsOf a n).filter fun u => mapGet false c.sp.dbe u
  if hard.isEmpty then c else setLineCode { c with errs := c.errs ++ hard.map fun u => (2, 2, 1, 8 * u) } (lineOf a) 3

/-- A read by the sequencer. -/
def touchRead (c : Core) (cyc a n : Nat) : Core := touchReadAs 31 c cyc a n

/-- Keep the old byte of a code-window address for fetches before the next FENCE (R75). -/
def keepStale (c : Core) (a : Nat) : Core :=
  if inCode c a && !mapHas c.sp.stale a then
    { c with sp := { c.sp with stale := mapPut c.sp.stale a (memRead c.sp.bytes a) } } else c

/-- Keep the value of an 8-byte unit that an engine may still observe after a scalar store (R115). -/
def keepRace (c : Core) (u : Nat) : Core :=
  { c with sp := { c.sp with
    srace := mapPut c.sp.srace u (mapGet [] c.sp.srace u ++ [BitVec.ofNat 64 (memReadNat c.sp.bytes (8 * u) 8)]) } }

/-- Single-bit errors of units that are written in part are corrected by the read that the write makes, and counted (R226). -/
def mergeSoft (c : Core) (us : List Nat) : Core :=
  let soft := us.filter fun u => mapGet false c.sp.sbe u
  if soft.isEmpty then c else countEv { c with errs := c.errs ++ soft.map fun u => (2, 1, 1, 8 * u) } 0x19 soft.length

/-- Write `n` little-endian bytes at `a` (R114): the units are written with fresh check bits, and a partial write of a unit
corrects a single-bit error and gives the line ERROR for a double-bit one (R226); the owner tag is the writer's (R224). -/
def scWrite (c : Core) (cyc a n v : Nat) : Core :=
  let us := unitsOf a n
  let v := if c.sp.acc.isEmpty then v else besideSlot c a v n
  let c := touchBankAs 31 c cyc (lineOf a)
  let bad := scBad c a n && decide (n < 8)
  let c := if n < 8 then mergeSoft c us else c
  let c := (List.range n).foldl (fun c i => keepStale c (a + i)) c
  let c := us.foldl keepRace c
  let c := { c with sp := { c.sp with
    bytes := memWriteNat c.sp.bytes a n v
    tag := mapSet c.sp.tagDef c.sp.tag (lineOf a) c.sys.tenant
    dbe := clearUnits c.sp.dbe us
    sbe := clearUnits c.sp.sbe us
    erace := stored c.sp.erace a n v us } }
  if bad then setLineCode { c with errs := c.errs ++ [(2, 2, 1, a / 8 * 8)] } (lineOf a) 3 else c

/-- Which check a scalar access fails first, by R114 and R225. -/
inductive AccessCheck where
  | ok
  | trap (cause : Nat) (i0 i1 : Word)
  deriving DecidableEq, Repr

/-- Check a scalar access of `n` bytes at `addr`, aligned to `al`; `info1` is what TRAPINFO1 records with a range fault and
`alInfo` with an alignment fault (R114, R201, R225). -/
def accessCheck (c : Core) (addr : Word) (n al : Nat) (info1 alInfo : Word) : AccessCheck :=
  match rangeAddr addr.toNat n with
  | some a => .trap causeRange (BitVec.ofNat 64 a) info1
  | none =>
    if addr.toNat % al ≠ 0 then .trap causeAlign addr alInfo
    else if !tagOk c (lineOf addr.toNat) then .trap causeOwner addr 0
    else .ok

/-- May the word that is enqueued next in the V queue not carry d = 0 for what stands before it (R87): nothing, a word that is no
vector word, or one that carries d = 0 itself? -/
def tailD0 (q : EQueue) : Bool :=
  match q.ents.getLast? with
  | none => true
  | some e => decide (e.d = 0) || (match encode e.i with
    | some w => !(decide (5 ≤ (fld w 44 4).toNat) && decide ((fld w 44 4).toNat ≤ 7))
    | none => true)

/-- Taking a trap (R215), the entry part: the cut and the cause are recorded, INH is set and the handler is entered at
TRAPVEC; a V word that the handler enqueues into an empty queue will stand first after a new origin (R87, R217). -/
def enterTrap (c : Core) (t : PendTrap) (m v cq l : Nat) : Core :=
  { c with
    trap := none
    lastD0 := tailD0 c.qv
    seq := { c.seq with pc := c.sys.trapvec }
    sys := { c.sys with
      cutpc := t.cut, cutM := BitVec.ofNat 32 m, cutV := BitVec.ofNat 32 v, cutC := BitVec.ofNat 32 cq
      cutL := BitVec.ofNat 32 l
      cause := (if t.seqw then 1#1 else 0#1) ++ BitVec.ofNat 2 t.q ++ (if t.async then 1#1 else 0#1) ++ BitVec.ofNat 6 t.cause
      info0 := t.info0, info1 := t.info1, inh := true } }

/-- A new time origin for a queue (R86): fc `o`; the queue is slack when it holds nothing, running otherwise (R299). -/
def newOrigin (q : EQueue) (o : Nat) : EQueue :=
  { q with origin := o, last := none, running := !q.ents.isEmpty, bwait := false }

/-- New time origins for all four queues (R86): their fc is set when the sequencer fetches its next word. -/
def newOrigins (c : Core) : Core :=
  { c with seq := { c.seq with reorig := true }, qm := newOrigin c.qm c.fc, qv := newOrigin c.qv c.fc, qc := newOrigin c.qc c.fc, ql := newOrigin c.ql c.fc
           lastD0 := tailD0 c.qv }

/-- Returning from a trap (R218): PC := TRAPCUTPC, INH := 0, and every queue resumes from a new time origin. -/
def leaveTrap (c : Core) : Core :=
  newOrigins { c with seq := { c.seq with pc := c.sys.cutpc }, sys := { c.sys with inh := false }, exempt := true }

end Sys2Proof.Machine
end

