-- ==== Sys2Proof/Machine/Integer.lean ====
section
/-! DEFINITION. The integer words of unit 0x0 and the long immediates (04_scalar_registers R108 to R112). -/

namespace Sys2Proof.Machine

/-- A two-source integer word: sd := f(sa, sb) (R109). -/
def intRRR (f : Word → Word → Word) (lat : Nat) (o : RRR) (s : State) : Ans :=
  writeNext s o.sd (f (getS s.me o.sa) (getS s.me o.sb)) lat

/-- A one-source integer word: sd := f(sa) (R109). -/
def intRR (f : Word → Word) (o : RR) (s : State) : Ans := writeNext s o.sd (f (getS s.me o.sa)) 1

/-- An SI word: sd := f(sa, imm26 sign-extended) (R111). -/
def intRRI (f : Word → Word → Word) (o : RRI) (s : State) : Ans :=
  writeNext s o.sd (f (getS s.me o.sa) (sext64 o.imm)) 1

/-- An SI shift: sd := f(sa, count) (R111). -/
def intShiftI (f : Word → Nat → Word) (o : ShiftImm) (s : State) : Ans :=
  writeNext s o.sd (f (getS s.me o.sa) o.cnt.toNat) 1

/-- The upper half of a signed product (R109). -/
def mulHigh (a b : Word) : Word := BitVec.ofInt 64 (a.toInt * b.toInt / 2 ^ 64)

/-- The upper half of an unsigned product (R109). -/
def mulHighU (a b : Word) : Word := BitVec.ofNat 64 (a.toNat * b.toNat / 2 ^ 64)

/-- DIV (R109, R110): truncated toward zero; −1 for a zero divisor; −2^63 by −1 wraps to −2^63. -/
def divS (a b : Word) : Word := if b = 0 then BitVec.allOnes 64 else BitVec.ofInt 64 (a.toInt.tdiv b.toInt)

/-- REM (R109, R110): the sign of the dividend; the dividend for a zero divisor. -/
def remS (a b : Word) : Word := if b = 0 then a else BitVec.ofInt 64 (a.toInt.tmod b.toInt)

/-- DIVU (R110). -/
def divU (a b : Word) : Word := if b = 0 then BitVec.allOnes 64 else a / b

/-- REMU (R110). -/
def remU (a b : Word) : Word := if b = 0 then a else a % b

/-- Bit length of a magnitude. -/
def bitLen (n : Nat) : Nat := if n = 0 then 0 else Nat.log2 n + 1

/-- The interval of a division, from the magnitudes of dividend and divisor (R106). -/
def divLat (a b : Nat) : Nat := if b = 0 ∨ a < b then 2 else 2 + (bitLen a - bitLen b + 1 + 1) / 2

/-- A shift count is sb[5:0] (R109). -/
def shCount (b : Word) : Nat := b.toNat % 64

/-- Count of ones below bit `n`. -/
def popGo (x : Word) : Nat → Nat
  | 0 => 0
  | n + 1 => popGo x n + (if x.getLsbD n then 1 else 0)

/-- Leading zeros among the low `n` bits, from bit n − 1 down. -/
def clzGo (x : Word) : Nat → Nat
  | 0 => 0
  | n + 1 => if x.getLsbD n then 0 else 1 + clzGo x n

/-- Trailing zeros among `n` bits from bit 64 − n up. -/
def ctzGo (x : Word) : Nat → Nat
  | 0 => 0
  | n + 1 => if x.getLsbD (63 - n) then 0 else 1 + ctzGo x n

/-- Bits [pos + w − 1 : pos] of `a` replaced by the low bits of `b` (R109). -/
def bitInsert (a b : Word) (pos w : Nat) : Word :=
  let m : Word := BitVec.ofNat 64 ((2 ^ w - 1) * 2 ^ pos)
  (a &&& ~~~ m) ||| ((b <<< pos) &&& m)

/-- ILLEGAL with a subcause, for a word the sequencer executes (R82): the word is read again at the PC. -/
def illegalAt (s : State) (sub : Nat) (w : IWord) : Ans := seqTrap s causeIllegal (BitVec.ofNat 64 sub) (wordInfo w)

/-- The word of an instruction as TRAPINFO1 records it. -/
def wordOf (i : Instr) : IWord := (encode i).getD 0

def execAdd (o : AddOp) (s : State) : Ans :=
  writeNext s o.sd (getS s.me o.sa + (getS s.me o.sb <<< o.lsl.toNat)) 1
def execSub (o : RRR) (s : State) : Ans := intRRR (fun a b => a - b) 1 o s
def execMul (o : RRR) (s : State) : Ans := intRRR (fun a b => a * b) 3 o s
def execMulh (o : RRR) (s : State) : Ans := intRRR mulHigh 3 o s
def execMulhu (o : RRR) (s : State) : Ans := intRRR mulHighU 3 o s
def execDiv (o : RRR) (s : State) : Ans :=
  intRRR divS (divLat (getS s.me o.sa).toInt.natAbs (getS s.me o.sb).toInt.natAbs) o s
def execDivu (o : RRR) (s : State) : Ans := intRRR divU (divLat (getS s.me o.sa).toNat (getS s.me o.sb).toNat) o s
def execRem (o : RRR) (s : State) : Ans :=
  intRRR remS (divLat (getS s.me o.sa).toInt.natAbs (getS s.me o.sb).toInt.natAbs) o s
def execRemu (o : RRR) (s : State) : Ans := intRRR remU (divLat (getS s.me o.sa).toNat (getS s.me o.sb).toNat) o s
def execAnd (o : RRR) (s : State) : Ans := intRRR (fun a b => a &&& b) 1 o s
def execOr (o : RRR) (s : State) : Ans := intRRR (fun a b => a ||| b) 1 o s
def execXor (o : RRR) (s : State) : Ans := intRRR (fun a b => a ^^^ b) 1 o s
def execAndn (o : RRR) (s : State) : Ans := intRRR (fun a b => a &&& ~~~ b) 1 o s
def execShl (o : RRR) (s : State) : Ans := intRRR (fun a b => a <<< shCount b) 1 o s
def execShr (o : RRR) (s : State) : Ans := intRRR (fun a b => a >>> shCount b) 1 o s
def execSar (o : RRR) (s : State) : Ans := intRRR (fun a b => a.sshiftRight (shCount b)) 1 o s
def execMin (o : RRR) (s : State) : Ans := intRRR (fun a b => if a.slt b then a else b) 1 o s
def execMax (o : RRR) (s : State) : Ans := intRRR (fun a b => if a.slt b then b else a) 1 o s
def execMinu (o : RRR) (s : State) : Ans := intRRR (fun a b => if a.ult b then a else b) 1 o s
def execMaxu (o : RRR) (s : State) : Ans := intRRR (fun a b => if a.ult b then b else a) 1 o s
def execSlt (o : RRR) (s : State) : Ans := intRRR (fun a b => boolWord (a.slt b)) 1 o s
def execSltu (o : RRR) (s : State) : Ans := intRRR (fun a b => boolWord (a.ult b)) 1 o s
def execSeq (o : RRR) (s : State) : Ans := intRRR (fun a b => boolWord (decide (a = b))) 1 o s
def execClz (o : RR) (s : State) : Ans := intRR (fun a => BitVec.ofNat 64 (clzGo a 64)) o s
def execCtz (o : RR) (s : State) : Ans := intRR (fun a => BitVec.ofNat 64 (ctzGo a 64)) o s
def execPopc (o : RR) (s : State) : Ans := intRR (fun a => BitVec.ofNat 64 (popGo a 64)) o s
def execSext (o : ExtOp) (s : State) : Ans := writeNext s o.sd (sextN (getS s.me o.sa) (o.wm1.toNat + 1)) 1
def execZext (o : ExtOp) (s : State) : Ans := writeNext s o.sd (zextN (getS s.me o.sa) (o.wm1.toNat + 1)) 1

/-- BFX; pos + w > 64 raises ILLEGAL OPERAND (R109). -/
def execBfx (o : BfxOp) (s : State) : Ans :=
  if operandOk (.bfx o) then writeNext s o.sd (zextN (getS s.me o.sa >>> o.pos.toNat) (o.wm1.toNat + 1)) 1
  else illegalAt s 5 (wordOf (.bfx o))

/-- BFI; pos + w > 64 raises ILLEGAL OPERAND (R109). -/
def execBfi (o : BfiOp) (s : State) : Ans :=
  if operandOk (.bfi o) then
    writeNext s o.sd (bitInsert (getS s.me o.sa) (getS s.me o.sb) o.pos.toNat (o.wm1.toNat + 1)) 1
  else illegalAt s 5 (wordOf (.bfi o))

def execMov (o : RR) (s : State) : Ans := intRR (fun a => a) o s
def execAddSi (o : RRI) (s : State) : Ans := intRRI (fun a b => a + b) o s
def execAndSi (o : RRI) (s : State) : Ans := intRRI (fun a b => a &&& b) o s
def execOrSi (o : RRI) (s : State) : Ans := intRRI (fun a b => a ||| b) o s
def execXorSi (o : RRI) (s : State) : Ans := intRRI (fun a b => a ^^^ b) o s
def execShlSi (o : ShiftImm) (s : State) : Ans := intShiftI (fun a n => a <<< n) o s
def execShrSi (o : ShiftImm) (s : State) : Ans := intShiftI (fun a n => a >>> n) o s
def execSarSi (o : ShiftImm) (s : State) : Ans := intShiftI (fun a n => a.sshiftRight n) o s
def execMinSi (o : RRI) (s : State) : Ans := intRRI (fun a b => if a.slt b then a else b) o s
def execMaxSi (o : RRI) (s : State) : Ans := intRRI (fun a b => if a.slt b then b else a) o s
def execSltSi (o : RRI) (s : State) : Ans := intRRI (fun a b => boolWord (a.slt b)) o s
def execSltuSi (o : RRI) (s : State) : Ans := intRRI (fun a b => boolWord (a.ult b)) o s
def execSeqSi (o : RRI) (s : State) : Ans := intRRI (fun a b => boolWord (decide (a = b))) o s

/-- LI: imm32 sign-extended (R112). -/
def execLi (o : LiOp) (s : State) : Ans := writeNext s o.sd (sext64 o.imm) 1

/-- LIH: the high half alone (R112). -/
def execLih (o : LiOp) (s : State) : Ans :=
  writeNext s o.sd (o.imm ++ (getS s.me o.sd).extractLsb' 0 32 : BitVec 64) 1

end Sys2Proof.Machine
end

