-- ==== Sys2Proof/Machine/Queue.lean ====
section
/-! DEFINITION. The engine queues (12_engine_queues R297 to R303; 03 R85 to R92; 11 R278): entries, sequence numbers, what
is complete, the fetch of a word, the resolution of names at enqueue, captured operands, and the issue of an entry. -/

namespace Sys2Proof.Machine

/-- Queue `q`: M 0, V 1, C 2, L 3 (R80). -/
def Core.queue (c : Core) (q : Nat) : EQueue :=
  match q with
  | 0 => c.qm
  | 1 => c.qv
  | 2 => c.qc
  | _ => c.ql

/-- Replace queue `q`. -/
def Core.setQueue (c : Core) (q : Nat) (x : EQueue) : Core :=
  match q with
  | 0 => { c with qm := x }
  | 1 => { c with qv := x }
  | 2 => { c with qc := x }
  | _ => { c with ql := x }

/-- Is number `a` earlier than `n`, modulo 2^32 (R298)? -/
def seqEarlier (a n : Nat) : Bool :=
  let d := (n + 2 ^ 32 - a % 2 ^ 32) % 2 ^ 32
  decide (1 ≤ d) && decide (d ≤ 2 ^ 31)

/-- The sequence numbers of queue `q` whose entries have not completed (R278): unissued entries, landings, array words and
commands. -/
def openSeqs (c : Core) (q : Nat) : List Nat :=
  (c.queue q).ents.map (·.seq) ++ ((c.land.filter fun l => decide (l.q = q)).map (·.seq))
    ++ (if q = 0 then c.mx.jobs.map (·.e.seq) else []) ++ ((c.cmds.filter fun m => decide (m.q = q) && m.ended.isNone && !m.early).map (·.e.seq))

/-- Every entry of queue `q` enqueued so far has completed. -/
def queueDone (c : Core) (q : Nat) : Bool := (openSeqs c q).isEmpty

/-- Every entry of all four queues has completed (R128, R295). -/
def allDone (c : Core) : Bool := queueDone c 0 && queueDone c 1 && queueDone c 2 && queueDone c 3

/-- Every entry of queue `q` earlier than `n` has completed (R307). -/
def queueDoneBefore (c : Core) (q n : Nat) : Bool := (openSeqs c q).all fun a => !seqEarlier a n

/-- Every issued entry has completed, parked collective words aside (R215, R376). -/
def issuedDone (c : Core) : Bool :=
  c.land.isEmpty && c.mx.jobs.isEmpty && c.cmds.all fun m => m.parked || m.ended.isSome

/-- One fetched byte (R75): a code-window byte written since the last FENCE may be seen old or new; a free value decides. -/
def fetchByte (s : State) (c : Core) (a : Nat) : BitVec 8 :=
  if mapHas c.sp.stale a ∧ (Config.freeValue 0 s.free).getLsbD (a % 64) then mapGet 0 c.sp.stale a
  else memRead c.sp.bytes a

/-- The word at the PC (R73, R74). -/
def fetchWord (s : State) (c : Core) : IWord :=
  let a := c.sys.codebase + 6 * c.seq.pc.toNat
  fetchByte s c (a + 5) ++ fetchByte s c (a + 4) ++ fetchByte s c (a + 3) ++ fetchByte s c (a + 2)
    ++ fetchByte s c (a + 1) ++ fetchByte s c a

/-- The queue of an engine word: by its unit, or by the target field of unit 0xB (R76, R79). -/
def queueOfWord (w : IWord) : Option Nat :=
  match (fld w 44 4).toNat with
  | 5 | 6 | 7 => some 1
  | 8 => some 0
  | 9 => some 2
  | 10 => some 3
  | 11 => some (fld w 32 2).toNat
  | _ => none

/-- Is the instruction an engine word (R76)? -/
def isEngine (i : Instr) : Bool :=
  match encode i with
  | some w => (queueOfWord w).isSome
  | none => false

/-- Resolve the names of a word of units 0x5 to 0x7 (R90 to R92): the vd, va, vb and pg fields, vd, va and vb being
predicates in the words that say so. Fields that hold no name hold values below 256, which resolve to themselves. -/
def resolveWord (c : Core) (w : IWord) : IWord :=
  let u := (fld w 44 4).toNat
  let op := (fld w 38 6).toNat
  if u < 5 ∨ 7 < u then w
  else
    let vd := fld w 24 10
    let va := fld w 14 10
    let vb := fld w 4 10
    let p (x : BitVec 10) : BitVec 10 := x.extractLsb' 4 6 ++ rotP c (x.extractLsb' 0 4)
    let cmp := decide (u = 6) && decide (0x0C ≤ op) && decide (op ≤ 0x0F)
    let plog := decide (u = 6) && decide (op = 0x11)
    let pget := decide (u = 7) && decide (op = 0x1E) && decide (fld w 4 1 = 1)
    let vx := decide (u = 7) && !(decide (op = 0) || decide (op = 4) || decide (op = 5))
    let vd' := if cmp || plog then p vd else rotV c vd
    let va' := if plog || pget then p va else rotV c va
    let vb' := if plog then p vb else if vx then vb else rotV c vb
    (w.extractLsb' 34 14 ++ vd' ++ va' ++ vb' ++ rotP c (fld w 0 4) : BitVec 48)

/-- The source queue whose next number a WAITC keeps (R305). -/
def waitcSrc (i : Instr) : Option Nat :=
  match i with
  | .waitc o => some o.src.toNat
  | _ => none

/-- The scalar registers whose values an engine word captures, in order (R29, R147, R239, R286, R310, R365). -/
def capRegs (i : Instr) : List (BitVec 6) :=
  match i with
  | .vbcast o => [o.ss]
  | .vins o => [o.ss, nextReg o.ss 1]
  | .vextr o => [o.ss]
  | .vrotl o => [o.ss]
  | .vld o | .vst o => [o.ss]
  | .vlds o | .vsts o => [o.ss, nextReg o.ss 1]
  | .vgather o | .vscatter o => [o.ss]
  | .vatom o => [o.ss]
  | .vcvt o => [o.ss]
  | .vquantIdx o | .vquantScl o | .vxsencX32 o | .vxsencX64l o | .vxsencX64h o
  | .vxsdecX32 o | .vxsdecX64l o | .vxsdecX64h o => [o.ss]
  | .vdeq o => [o.ss]
  | .vclamp o => [o.ss]
  | .cpin o | .cpout o | .cpmap o => [o.so, nextReg o.so 1]
  | .cpset o => [o.so, nextReg o.so 1, nextReg o.so 2]
  | .msend o => [o.sa, o.sb]
  | .amo o => [o.sa, o.sb]
  | .acas o => [o.sa, o.sb, nextReg o.sb 1]
  | .ared o => [o.sa, o.sb]
  | .csend o | .crecv o => [o.sa]
  | .cagree o | .credx o => [o.sa, o.sb]
  | .cbar o => [o.sa, o.sb]
  | _ => []

/-- The handle register that an engine word names. -/
def handleReg (i : Instr) : Option (BitVec 5) :=
  match i with
  | .cpin o | .cpout o | .cpset o | .cpmap o => some o.h
  | .amo o => some o.h
  | .acas o => some o.h
  | .ared o => some o.h
  | .csend o | .crecv o => some o.h
  | _ => none

/-- The stream registers that an engine word names, fields A and B (R175, R239). -/
def streamRegs (i : Instr) : Nat × Nat :=
  match i with
  | .tld o | .tdrain o => (o.ga.toNat, 32)
  | .mma o | .mmas o | .mmaq o => (o.ga.toNat, o.gb.toNat)
  | .tpoisGet o | .tpoisMark o => (o.ga.toNat, 32)
  | .tbias o => (o.ga.toNat, 32)
  | .cpin o | .cpout o | .cpset o | .cpmap o => (o.g.toNat, 32)
  | _ => (32, 32)

/-- The landing slot that a TIMED copy names (R234). -/
def slotReg (i : Instr) : Option (BitVec 4) :=
  match i with
  | .cpin o => if o.mode = 1 then some o.k else none
  | _ => none

/-- Handle register `n`. -/
def getH (c : Core) (n : BitVec 5) : Handle := mapGet Handle.none c.h n.toNat

/-- Does the word capture `RNDSEED` (R51, R160)? -/
def readsSeed (i : Instr) : Bool :=
  match i with
  | .vcvt _ => true
  | _ => false

/-- The entry that an engine word makes at this moment (R29, R92, R297): `i` has physical names. -/
def makeEntry (c : Core) (q : Nat) (i : Instr) (w : IWord) : QEntry :=
  let x := c.queue q
  { i := i
    seq := x.next
    d := (fld w 34 4).toNat
    minFc := if x.running then 0 else c.fc + 1
    caps := (capRegs i).map (getS c)
    sysv := if readsSeed i then c.sys.rndseed else 0
    h := match handleReg i with
      | some n => getH c n
      | none => Handle.none
    hn := match handleReg i with
      | some n => n.toNat
      | none => 32
    ga := mapGet 0 c.mx.g (streamRegs i).1
    gb := mapGet 0 c.mx.g (streamRegs i).2
    slot := match slotReg i with
      | some n => mapGet 0 c.sys.lslot n.toNat
      | none => 0
    mark := false }

/-- Put an entry at the end of its queue (R298, R299). -/
def pushEntry (c : Core) (q : Nat) (e : QEntry) : Core :=
  let x := c.queue q
  c.setQueue q { x with ents := x.ents ++ [e], next := (x.next + 1) % 2 ^ 32, running := true }

/-- The fc in which the head of a queue issues (R85, R299), in a core whose counter stands at `fc`. -/
def issueFc (x : EQueue) (e : QEntry) : Nat :=
  let t := match x.last with
    | some l => l + e.d
    | none => x.origin + e.d
  if t < e.minFc then e.minFc else t

/-- What issuing an entry answers. -/
inductive IssueRes where
  | done (c : Core)
  | trap (cause : Nat) (i0 i1 : Word)
  deriving DecidableEq, Repr

/-- Counts of an issued entry: retired work, the events of its queue, a slip (R299, R412, R425). -/
def countIssue (c : Core) (q : Nat) (slip : Bool) : Core :=
  let c := { c with task := { c.task with w := c.task.w + 1 } }
  let c := countEv (countEv c 0x0B 1) (0x0C + q) 1
  if slip then countEv c 0x09 1 else c

/-- Does the entry issue later than R85 gives (R299)? -/
def slipped (x : EQueue) (e : QEntry) : Bool :=
  decide ((match x.last with
    | some l => l + e.d
    | none => x.origin + e.d) < e.minFc)

/-- Take the latched entry off its queue as issued in the present fc (R297). -/
def popIssued (c : Core) (q : Nat) : Core :=
  let x := c.queue q
  match x.ents with
  | [] => c
  | e :: t => if e.seq = c.latch.seq then
      countIssue (c.setQueue q { x with ents := t, last := some c.fc, bwait := false }) q (slipped x e) else c

/-- Issue of the latched entry of queue `q`: its effect, or the cause it raises, which leaves it first held (R215). -/
def engineIssue (q : Nat) (s : State) (f : Core → QEntry → IssueRes) : Ans :=
  let c := s.me
  match f (popIssued c q) c.latch with
  | .done c' => .next (s.setCore s.cur c')
  | .trap k i0 i1 => .next (s.setCore s.cur (raise { c with heldq := c.heldq ||| (1#4 <<< q) } s.time
      ⟨k, false, q, false, i0, i1, c.seq.pc⟩))

/-- Does the word stand under p0, which writes every lane (R132, R135)? -/
def underP0 (i : Instr) : Bool :=
  match encode i with
  | some w => decide (5 ≤ (fld w 44 4).toNat) && decide ((fld w 44 4).toNat ≤ 7) && decide (fld w 0 4 = 0)
  | none => false

/-- A landing of the latched word `lat` fc after its issue. -/
def landAt (c : Core) (q : Nat) (e : QEntry) (lat : Nat) (a : Act) : Core :=
  { c with land := c.land ++ [⟨c.fc + lat, q, e.seq, a, underP0 e.i⟩] }

/-- A captured operand. -/
def cap (e : QEntry) (k : Nat) : Word := e.caps.getD k 0

/-- What the checks of a word at decode answer (R82, R151, R175, R241, R288, R310, R366): a violation is a trap with a
violation's cause. -/
inductive DecCheck where
  | ok
  | trap (cause : Nat) (i0 i1 : Word)
  deriving DecidableEq, Repr

/-- ILLEGAL OPERAND at decode. -/
def decOperand (w : IWord) : DecCheck := .trap causeIllegal 5 (wordInfo w)

/-- The first failing check of a list. -/
def firstCheck : List DecCheck → DecCheck
  | [] => .ok
  | .ok :: t => firstCheck t
  | x :: _ => x

/-- A check that fails with `x` unless `b`. -/
def need (b : Bool) (x : DecCheck) : DecCheck := if b then .ok else x

end Sys2Proof.Machine
end

