-- ==== Sys2Proof/Machine/Control.lean ====
section
/-! DEFINITION. Sequencer control: hardware loops (R122 to R126), the poison check (R128), QSYNC and QFLUSH
(R307, R308), TRAP and ERET (R218, R220), time and events (R221), semaphores from the sequencer (R407), TREM (R322). A word
that has to wait stays at the PC with its wait recorded; SEQUENCER_WAIT_END tries it again. -/

namespace Sys2Proof.Machine

/-- The sequencer begins or goes on with a wait of word `i` (R302). -/
def waitOn (s : State) (i : Instr) : Ans :=
  .next (s.onMe fun c => { c with seq := { c.seq with wait := some (i, (match c.seq.wait with
    | some p => p.2
    | none => 0)) } })

/-- A running queue that holds nothing while the sequencer is in a wait becomes slack (R299, R302). -/
def slackDry (c : Core) : Core :=
  let f (x : EQueue) : EQueue := if x.running && x.ents.isEmpty then { x with running := false } else x
  { c with qm := f c.qm, qv := f c.qv, qc := f c.qc, ql := f c.ql }

/-- The state in which a word of R302 executes: the sequencer is in a wait. -/
def inWait (s : State) : State := s.onMe slackDry

/-- Write loop-stack entry `j`. -/
def setLstk (c : Core) (j : Nat) (e : BitVec 128) : Core :=
  { c with seq := { c.seq with lstk := mapSet 0 c.seq.lstk j e } }

/-- LOOP (R123): ILLEGAL OPERAND with four loops open; a zero count skips the body. -/
def execLoop (o : LoopOp) (s : State) : Ans :=
  let c := s.me
  if lpValid (lstk c 3) = 1 then illegalAt s 5 (wordOf (.loop o))
  else
    let cnt : BitVec 32 := (getS c o.sa).setWidth 32
    if cnt = 0 then jumpNext s (c.seq.pc + o.len.setWidth 32 + 1) 2 (fun c => c)
    else
      let top := lstk c 0
      let e :=
        if o.norot = 1 then
          if lpValid top = 1 then lpMake cnt (lpNr top) 1 (lpVrb top) (lpPrb top) 1 c.seq.pc
          else lpMake cnt 0 1 0 0 1 c.seq.pc
        else lpMake cnt o.nr 0 0 0 1 c.seq.pc
      coreNext s fun c => setLstk (setLstk (setLstk (setLstk c 3 (lstk c 2)) 2 (lstk c 1)) 1 (lstk c 0)) 0 e

/-- The rotation step of LOOPB (R90, R91, R124). -/
def lpRotate (e : BitVec 128) : BitVec 128 :=
  if lpNorot e = 1 then e
  else
    let n := 8 * (lpNr e).toNat
    let vrb : BitVec 10 := if lpNr e = 0 then lpVrb e else BitVec.ofNat 10 (((lpVrb e).toNat + n - 1) % n)
    lpMake (lpCnt e) (lpNr e) 0 vrb (BitVec.ofNat 3 (((lpPrb e).toNat + 7) % 8)) (lpValid e) (lpPc e)

/-- SNAPSHOT (R126, R418): snapshot number s writes half s mod 2, cells and header together. -/
def takeSnapshot (c : Core) (time : Nat) (pc : BitVec 32) : Core :=
  let cells : Map (BitVec 64) := c.cn.chart.map fun (k, v) => (k, v.setWidth 64)
  let m := mapSet 0 (mapSet 0 (mapSet 0 cells 1024 (BitVec.ofNat 64 (c.cn.snapN + 1))) 1025 (pc.setWidth 64)) 1026
    (BitVec.ofNat 64 time)
  if c.cn.snapN % 2 = 0 then { c with cn := { c.cn with snapN := c.cn.snapN + 1, snap0 := m } }
  else { c with cn := { c.cn with snapN := c.cn.snapN + 1, snap1 := m } }

/-- A loop exit (R124): the snapshot is taken and the entry popped. -/
def loopExit (s : State) (e : BitVec 128) : Ans :=
  coreNext s fun c =>
    let c := takeSnapshot c s.time (lpPc e)
    setLstk (setLstk (setLstk (setLstk c 0 (lstk c 1)) 1 (lstk c 2)) 2 (lstk c 3)) 3 0

/-- LOOPB (R124): ILLEGAL OPERAND with no loop open. -/
def execLoopb (o : LoopbOp) (s : State) : Ans :=
  let e := lstk s.me 0
  if lpValid e = 0 then illegalAt s 5 (wordOf (.loopb o))
  else
    let r := lpRotate e
    if 1 < (lpCnt r).toNat then
      jumpNext s (s.me.seq.pc + o.off.signExtend 32) 1 fun c =>
        setLstk c 0 (lpMake (lpCnt r - 1) (lpNr r) (lpNorot r) (lpVrb r) (lpPrb r) (lpValid r) (lpPc r))
    else loopExit s e

/-- LOOPB BREAK (R124): leaves the innermost loop whatever its count. -/
def execLoopbBreak (s : State) : Ans :=
  let e := lstk s.me 0
  if lpValid e = 0 then illegalAt s 5 (wordOf .loopbBreak) else loopExit s e

/-- After a synchronization with the writes for which `f` holds no load of the sequencer observes a value from before one of them
(R115, R279). -/
def covered (m : Map (List (Nat × Nat × BitVec 64))) (f : Nat → Nat → Bool) : Map (List (Nat × Nat × BitVec 64)) :=
  m.filterMap fun (e : Nat × List (Nat × Nat × BitVec 64)) =>
    let l := ((e.2.reverse.takeWhile fun x => !f x.1 x.2.1)).reverse
    if l.isEmpty then none else some (e.1, l)

/-- PCHK (R128): waits until every entry of all four queues has completed, then tests PSUM. -/
def execPchk (o : PchkOp) (s : State) : Ans :=
  let s := inWait s
  let c := s.me
  if allDone c then
    let m : Word := (o.mask.setWidth 64) <<< 1
    if c.seq.psum &&& m = 0 then coreNext s (fun c => c)
    else jumpNext s (c.seq.pc + o.off.signExtend 32) 2 fun c => if o.clr = 1 then psumClear c m else c
  else waitOn s (.pchk o)

/-- What a FENCE orders inside its core (R75, R115, R279): fetch and the engines see the sequencer's stores; at FORM or wider the
sequencer sees every write of its entries. -/
def fenced (c : Core) (wide : Bool) : Core :=
  { c with sp := { c.sp with
    stale := [], srace := [], erace := if wide then covered c.sp.erace (fun q _ => decide (q < 4)) else c.sp.erace } }

/-- The next sequence number of a queue, as QSYNC returns it (R307). -/
def nextSeqWord (c : Core) (q : BitVec 2) : Word := BitVec.ofNat 64 (c.queue q.toNat).next

/-- A QSYNC that covers the entries of queue `q` for which `f` holds: scalar accesses that follow observe their writes (R115). -/
def syncRace (c : Core) (q : Nat) (f : Nat → Bool) : Core :=
  { c with sp := { c.sp with erace := covered c.sp.erace fun r n => decide (r = q) && f n } }

/-- QSYNC, mode all (R307). -/
def execQsync (o : QsyncOp) (s : State) : Ans :=
  let s := inWait s
  if queueDone s.me o.q.toNat then
    coreNext s fun c => setSLat (syncRace c o.q.toNat fun _ => true) s.cyc o.sd (nextSeqWord c o.q) 1
  else waitOn s (.qsync o)

/-- QSYNC, mode up-to (R307): compares against sa as read before sd is written. -/
def execQsyncUpto (o : QsyncUptoOp) (s : State) : Ans :=
  let s := inWait s
  if queueDoneBefore s.me o.q.toNat ((getS s.me o.sa).toNat % 2 ^ 32) then
    coreNext s fun c => setSLat (syncRace c o.q.toNat fun n => seqEarlier n ((getS s.me o.sa).toNat % 2 ^ 32)) s.cyc o.sd (nextSeqWord c o.q) 1
  else waitOn s (.qsyncUpto o)

/-- QSYNC, mode read (R307): does not wait. -/
def execQsyncRead (o : QsyncOp) (s : State) : Ans := writeNext (inWait s) o.sd (nextSeqWord s.me o.q) 1

/-- Counter `n` of a core. -/
def cntOf (c : Core) (n : Nat) : Counter := mapGet Counter.zero c.cn.cnt n

/-- Replace a counter. -/
def setCnt (c : Core) (n : Nat) (x : Counter) : Core :=
  { c with cn := { c.cn with cnt := mapSet Counter.zero c.cn.cnt n x } }

/-- Does the hypervisor hold the counter (R416)? -/
def stolen (c : Core) (n : Nat) : Bool := c.cn.claim.getLsbD n

/-- Add the events of a cycle to counter `n` (R411, R416): the configuration enables it; the guest's counts only while the core holds a
task, and not yet in the cycle of its release. The second answer is the carry. -/
def countUp (c : Core) (x : Counter) (n : Nat) : Counter × Bool :=
  let holds := decide (c.life ≠ .idle) && decide (c.life ≠ .loading)
  if x.cfg.getLsbD 8 && (stolen c n || holds) && !c.cn.rests.getLsbD n then
    let e := mapGet 0 c.cn.events (fieldOf x.cfg 0 8)
    let v := x.value.toNat + e
    ({ x with value := BitVec.ofNat 64 v }, decide (2 ^ 64 ≤ v))
  else (x, false)

/-- The end of a cycle for the counters of a core (R411). -/
def countAll (c : Core) : Core :=
  let c := c.cn.cnt.foldl (fun d e =>
    let r := countUp c e.2 e.1
    let d := setCnt d e.1 r.1
    if r.2 then { d with cn := { d.cn with wraps := d.cn.wraps ||| (1#16 <<< e.1) } } else d) c
  { c with cn := { c.cn with events := [], rests := 0 } }

/-- An entry that was counted as issued was not: W, and the counters of its events, go back by one (R425). -/
def uncount (c : Core) (q : Nat) : Core :=
  let back (k : Nat) (x : Nat × Counter) : Nat × Counter :=
    if x.2.cfg.getLsbD 8 ∧ fieldOf x.2.cfg 0 8 = k then (x.1, { x.2 with value := x.2.value - 1 }) else x
  [0x0B, 0x0C + q].foldl (fun c k =>
    let e := mapGet 0 c.cn.events k
    if 0 < e then { c with cn := { c.cn with events := mapSet 0 c.cn.events k (e - 1) } }
    else { c with cn := { c.cn with cnt := c.cn.cnt.map (back k) } })
    { c with task := { c.task with w := c.task.w - 1 } }

/-- A barrier in wait at the head of queue `q` is abandoned unissued (R215, R303); it counts again when it issues again (R425). -/
def abandonAt (c : Core) (q : Nat) : Core :=
  let x := c.queue q
  match x.bwait, x.ents with
  | true, e :: t => uncount (c.setQueue q { x with bwait := false, ents := { e with slot := 0 } :: t }) q
  | _, _ => c

/-- The barriers in wait of a core are abandoned. -/
def abandon (c : Core) : Core := (List.range 4).foldl abandonAt c

/-- Discard the unissued entries of one queue (R308): an issued barrier in wait stays unless `all` holds (R219). -/
def flushQueue (x : EQueue) (all : Bool) : EQueue :=
  let keep := if x.bwait && !all then x.ents.take 1 else []
  let gone := if x.bwait && !all then x.ents.drop 1 else x.ents
  { x with
    ents := keep
    next := match gone with
      | [] => x.next
      | e :: _ => e.seq
    bwait := x.bwait && !all }

/-- The numbers that a flush gives free are used again: a `WAITC` counts entries that stood before it alone (R305, R308). -/
def recount (c : Core) (x : EQueue) : EQueue :=
  { x with ents := x.ents.map fun e => match waitcSrc e.i with
    | some src =>
      let n := (c.queue src).next
      if seqEarlier n e.sysv.toNat then { e with sysv := BitVec.ofNat 64 n } else e
    | none => e }

/-- QFLUSH of the queues in a mask (R219, R308). -/
def flushMask (c : Core) (mask : BitVec 4) (all : Bool) : Core :=
  let c := { c with
    qm := if mask.getLsbD 0 then flushQueue c.qm all else c.qm
    qv := if mask.getLsbD 1 then flushQueue c.qv all else c.qv
    qc := if mask.getLsbD 2 then flushQueue c.qc all else c.qc
    ql := if mask.getLsbD 3 then flushQueue c.ql all else c.ql }
  { c with qm := recount c c.qm, qv := recount c c.qv, qc := recount c c.qc, ql := recount c c.ql }

/-- New origins that keep a barrier in wait as it stands (R86, R308). -/
def newOriginsKeep (c : Core) : Core :=
  let f (x : EQueue) := { newOrigin x c.fc with bwait := x.bwait }
  { c with seq := { c.seq with reorig := true }, qm := f c.qm, qv := f c.qv, qc := f c.qc, ql := f c.ql, lastD0 := tailD0 c.qv }

/-- QFLUSH (R308): in a handler it also leaves the handler (R219). -/
def execQflush (o : QflushOp) (s : State) : Ans :=
  coreNext s fun c =>
    let inh := c.sys.inh
    let c := newOriginsKeep (flushMask c o.mask inh)
    { c with sys := { c.sys with inh := false } }

/-- TRAP (R220): SW_TRAP with the cut after the word; the word counts as executed (R425). -/
def execTrap (o : TrapOp) (s : State) : Ans :=
  .next (s.onMe fun c =>
    let c := retire (stepPc c) s.cyc 1
    raiseSeq c s.time ⟨causeSwTrap, false, 0, true, o.code.setWidth 64, 0, c.seq.pc⟩)

/-- ERET (R218): outside a handler it raises ILLEGAL OPERAND. -/
def execEret (s : State) : Ans :=
  if s.me.sys.inh then
    .next (s.onMe fun c => { leaveTrap (retire c s.cyc 2) with exempt := true })
  else illegalAt s 5 (wordOf .eret)

/-- WAITEV (R221). -/
def execWaitev (o : RR) (s : State) : Ans :=
  let s := inWait s
  let m := getS s.me o.sa &&& 0xF#64
  let e := eventsWord s.me s.time
  if m = 0 ∨ e &&& m ≠ 0 then writeNext s o.sd e 1 else waitOn s (.waitev o)

/-- NOP (R221). -/
def execNop (s : State) : Ans := coreNext s (fun c => c)

/-- RDTIME (R221, R419): the timestamp in ns. -/
def execRdtime (o : DestOp) (s : State) : Ans := writeNext s o.sd (BitVec.ofNat 64 s.time) 1

/-- RDCYC (R221): the task's wall cycles, fc or frozen cycles. -/
def execRdcyc (o : WhichOp) (s : State) : Ans :=
  let t := s.me.task
  match o.which.toNat with
  | 0 => writeNext s o.sd (BitVec.ofNat 64 t.wall) 1
  | 1 => writeNext s o.sd (BitVec.ofNat 64 t.fcs) 1
  | 2 => writeNext s o.sd (BitVec.ofNat 64 t.frozen) 1
  | _ => illegalAt s 3 (wordOf (.rdcyc o))

/-- Semaphore `n`. -/
def getSem (c : Core) (n : Nat) : Sem := mapGet Sem.zero c.cn.k n

/-- Write semaphore `n`. -/
def setSem (c : Core) (n : Nat) (x : Sem) : Core := { c with cn := { c.cn with k := mapSet Sem.zero c.cn.k n x } }

/-- A completion post (R410): one more, or KOVF at the ceiling; EVENTS.SEMPOST. -/
def semPost (c : Core) (n : Nat) : Core :=
  let k := getSem c n
  countEv (eventSempost (setSem c n (if k.count = k.ceil then { k with ovf := true } else { k with count := k.count + 1 })))
    0x12 1

/-- A completion post of the present cycle, remembered for a SINIT of the same cycle (R406). -/
def semPostNow (c : Core) (n : Nat) : Core :=
  let c := semPost c n
  { c with cn := { c.cn with kposts := mapSet 0 c.cn.kposts n (mapGet 0 c.cn.kposts n + 1) } }

/-- Add `m` completion posts to a semaphore. -/
def semPosts (k : Sem) : Nat → Sem
  | 0 => k
  | m + 1 => semPosts (if k.count = k.ceil then { k with ovf := true } else { k with count := k.count + 1 }) m

/-- SINIT (R407): the completion posts of its cycle land on the new value (R406). -/
def execSinit (o : SinitOp) (s : State) : Ans :=
  let a := (getS s.me o.sa).toNat
  let b := (getS s.me o.sb).toNat
  if 2 ^ 16 ≤ a ∨ 2 ^ 16 ≤ b ∨ b < a then illegalAt s 5 (wordOf (.sinit o))
  else coreNext s fun c =>
    let k := semPosts ⟨a, b, false⟩ (mapGet 0 c.cn.kposts o.k.toNat)
    { setSem c o.k.toNat k with early := some ⟨o.k.toNat, getSem c o.k.toNat, k.count, c.seq.pc, c.seq.nextAt, c.exempt⟩ }

/-- The 64 bits of a semaphore (R405). -/
def semWord (k : Sem) : Word :=
  BitVec.ofNat 64 (k.count % 2 ^ 16 + k.ceil % 2 ^ 16 * 2 ^ 16 + (if k.ovf then 2 ^ 32 else 0))

/-- SGET (R407): the semaphore after every change of the previous cycle. -/
def execSget (o : SgetOp) (s : State) : Ans :=
  writeNext s o.sd (semWord (mapGet Sem.zero s.me.cn.kprev o.k.toNat)) 1

/-- TREM (R322). -/
def execTrem (o : SrcOp) (s : State) : Ans :=
  coreNext s fun c =>
    let v := (getS c o.sa).toNat
    { c with task := { c.task with rem := if 2 ^ 32 ≤ v then 2 ^ 32 - 1 else v, remAt := c.task.fcs } }

end Sys2Proof.Machine
end

