-- ==== Sys2Proof/Machine/VectorOps.lean ====
section
/-! DEFINITION. What the vector words share (05 R129 to R137, 06 R147 to R150): lanes and segments, reading the vector and
predicate files with their parity, destination codes, landings in the files with their duplicates, and the lines of the
scratchpad as timed accesses see and write them. -/

namespace Sys2Proof.Machine

/-- The first `n` fields of `w` bits of a number. -/
def splitNat (w : Nat) : Nat → Nat → List Nat
  | 0, _ => []
  | n + 1, x => x % 2 ^ w :: splitNat w n (x / 2 ^ w)

/-- Fields of `w` bits put together, the first lowest. -/
def joinNat (w : Nat) : List Nat → Nat
  | [] => 0
  | x :: t => x % 2 ^ w + 2 ^ w * joinNat w t

/-- The lanes of a register, `w` bytes wide (R129). -/
def lanesOf (w : Nat) (x : BitVec 8192) : List Nat := splitNat (8 * w) (1024 / w) x.toNat

/-- A register from its lanes. -/
def ofLanes (w : Nat) (l : List Nat) : BitVec 8192 := BitVec.ofNat 8192 (joinNat (8 * w) l)

/-- The governing bit of every lane (R132). -/
def laneBits (w : Nat) (p : BitVec 1024) : List Bool := (splitNat w (1024 / w) p.toNat).map fun b => b % 2 = 1

/-- All `w` bits of every lane that is set (R132). -/
def laneMask (w : Nat) (l : List Bool) : BitVec 1024 := BitVec.ofNat 1024 (joinNat w (l.map fun b => if b then 2 ^ w - 1 else 0))

/-- Segment code `j` of 16 code bits (R131). -/
def codeAt (x : BitVec 16) (j : Nat) : BitVec 2 := x.extractLsb' (2 * j) 2

/-- Sixteen code bits from a function of the segment. -/
def codesBy (f : Nat → BitVec 2) : BitVec 16 := BitVec.ofNat 16 (joinNat 2 ((List.range 8).map fun j => (f j).toNat))

/-- The largest of some codes. -/
def maxCodes (l : List (BitVec 2)) : BitVec 2 := l.foldl maxCode 0

/-- The 128 mask bits of segment `j`. -/
def segMask (m : BitVec 1024) (j : Nat) : BitVec 128 := m.extractLsb' (128 * j) 128

/-- Bytes of `a` where the mask is clear, of `b` where it is set. -/
def mergeBytes (n : Nat) (mask : BitVec n) (a b : BitVec (8 * n)) : BitVec (8 * n) :=
  let m : BitVec (8 * n) := BitVec.ofNat (8 * n) (joinNat 8 ((splitNat 1 n mask.toNat).map fun x => 255 * x))
  (a &&& ~~~ m) ||| (b &&& m)

/-- The 4-byte positions that hold a byte of the mask (R134). -/
def positionsOf (m : BitVec 1024) : BitVec 256 :=
  BitVec.ofNat 256 (joinNat 1 ((splitNat 4 256 m.toNat).map fun x => if x = 0 then 0 else 1))

/-- A byte mask that covers the positions. -/
def bytesOfPositions (m : BitVec 256) : BitVec 1024 :=
  BitVec.ofNat 1024 (joinNat 4 ((splitNat 1 256 m.toNat).map fun x => 15 * x))

/-- The duplicate partner of a vector register (R135). -/
def partner (n : BitVec 10) : BitVec 10 := n ^^^ 512#10

/-- Is the vector register live under the descriptor in force (R135, R211)? -/
def vecLive (c : Core) (n : BitVec 10) : Bool := !c.sys.lvalid || c.sys.live.getLsbD (64 + n.toNat / 8)

/-- Does the pair of the register duplicate, the register being the live one (R135)? -/
def dupLive (c : Core) (n : BitVec 10) : Bool := vecLive c n && !vecLive c (partner n)

/-- The duplicate state of a register's pair. -/
def dupOf (c : Core) (n : BitVec 10) : DupPair := mapGet ⟨false, false⟩ c.vec.dup (n.toNat % 512)

/-- Vector register `n` as stored. -/
def vreg (c : Core) (n : BitVec 10) : VReg := mapGet VReg.zero c.vec.v n.toNat

/-- Write vector register `n`. -/
def setVreg (c : Core) (n : BitVec 10) (x : VReg) : Core :=
  { c with vec := { c.vec with v := mapSet VReg.zero c.vec.v n.toNat x } }

/-- Read a vector register whose positions `feed` matter to the word (R134): a failing position is repaired from a valid
duplicate, whose own parity is not asked (log entry 135), or its segment takes ERROR and the word reads that code. Each failing
position counts. -/
def readV (c : Core) (n : BitVec 10) (feed : BitVec 256) : Core × VReg :=
  let bad := mapGet 0 c.vec.vbad n.toNat &&& feed
  let k := (splitNat 1 256 bad.toNat).foldl (· + ·) 0
  if bad = 0 then (c, vreg c n)
  else if (dupOf c n).dupv then
    let x := vreg c n
    let y := mergeBytes 1024 (bytesOfPositions bad) x.bits (vreg c (partner n)).bits
    let c := setVreg c n { x with bits := y }
    let c := { c with
      vec := { c.vec with vbad := mapSet 0 c.vec.vbad n.toNat (mapGet 0 c.vec.vbad n.toNat &&& ~~~ bad) }
      errs := c.errs ++ List.replicate k (1, 1, 3, n.toNat) }
    (countEv (countEv c 0x19 k) 0x1B k, { x with bits := y })
  else
    let x := vreg c n
    let y : VReg := ⟨x.bits, codesBy fun j => if bad.extractLsb' (32 * j) 32 = 0 then codeAt x.codes j else 3⟩
    (psumCode { setVreg c n y with errs := c.errs ++ List.replicate k (1, 2, 3, n.toNat) } 3, y)

/-- Predicate `n` as stored; p0 is hard-wired (R132). -/
def preg (c : Core) (n : BitVec 4) : PReg := if n = 0 then PReg.ones else mapGet PReg.zero c.vec.p n.toNat

/-- Write a predicate; a write to p0 is discarded (R132). -/
def setPreg (c : Core) (n : BitVec 4) (x : PReg) : Core :=
  if n = 0 then c else { c with vec := { c.vec with p := mapSet PReg.zero c.vec.p n.toNat x } }

/-- Read a predicate (R134): a failing segment takes ERROR, and each counts. -/
def readP (c : Core) (n : BitVec 4) : Core × PReg :=
  let bad := mapGet 0 c.vec.pbad n.toNat
  if n = 0 ∨ bad = 0 then (c, preg c n)
  else
    let x := preg c n
    let y : PReg := ⟨x.bits, codesBy fun j => if bad.getLsbD j then 3 else codeAt x.codes j⟩
    (psumCode { setPreg c n y with errs := c.errs ++ List.replicate ((splitNat 1 8 bad.toNat).foldl (· + ·) 0) (1, 2, 3, n.toNat) } 3, y)

/-- Which segments have a set mask bit. -/
def activeSegs (m : BitVec 1024) : Nat → Bool := fun j => decide (segMask m j ≠ 0)

/-- The source part of destination codes under R133: P's code, raised by the sources' where the segment has an active lane. -/
def srcCodes (p : PReg) (act : BitVec 1024) (srcs : List (BitVec 16)) : BitVec 16 :=
  codesBy fun j => maxCode (codeAt p.codes j)
    (if activeSegs act j then maxCodes (srcs.map fun s => codeAt s j) else 0)

/-- The code a destination segment takes (R133, R149). -/
def landedCode (old src : BitVec 2) (mask : BitVec 128) (keep : Bool) : BitVec 2 :=
  if keep && decide (mask ≠ BitVec.allOnes 128) then maxCode src old else src

/-- PSUM after a landing of `new` codes over `old` ones (R127). -/
def psumSegs (c : Core) (old new : BitVec 16) (mask : BitVec 1024) (range : BitVec 8) : Core :=
  (List.range 8).foldl (fun c j =>
    if activeSegs mask j || (range.getLsbD j && decide (codeAt old j ≠ codeAt new j)) then psumCode c (codeAt new j) else c) c

/-- A landing in the vector file (R131, R133, R135, R149); `p0` where its word stands under p0, and then
writes every lane of the register or leaves `DUPV` as it is. Landings of one fc follow one another in the order of R88, so the code that a
partial one or a `VPMARK` raises is the one that the landing before it has left (log entry 157). A 4-byte position of which any byte is
written gets fresh parity (log entry 134). A landing that is not mirrored leaves the pair without a valid duplicate. -/
def landVec (c : Core) (p0 : Bool) (n : BitVec 10) (data : BitVec 8192) (mask : BitVec 1024) (range : BitVec 8) (src : BitVec 16)
    (keep : Bool) : Core :=
  let x := vreg c n
  let y : VReg := ⟨mergeBytes 1024 mask x.bits data, codesBy fun j =>
    if range.getLsbD j then landedCode (codeAt x.codes j) (codeAt src j) (segMask mask j) keep else codeAt x.codes j⟩
  let fresh (c : Core) (k : BitVec 10) : Core :=
    let b := mapGet 0 c.vec.vbad k.toNat &&& ~~~ positionsOf mask
    { c with vec := { c.vec with vbad := mapSet 0 c.vec.vbad k.toNat b } }
  let c := fresh (psumSegs (setVreg c n y) x.codes y.codes mask range) n
  let d := dupOf c n
  let setDup (c : Core) (d : DupPair) : Core :=
    { c with vec := { c.vec with dup := mapSet ⟨false, false⟩ c.vec.dup (n.toNat % 512) d } }
  if dupLive c n then
    if d.stopped then c
    else
      let q := vreg c (partner n)
      let c := fresh (setVreg c (partner n) ⟨mergeBytes 1024 mask q.bits data, codesBy fun j =>
        if range.getLsbD j then codeAt y.codes j else codeAt q.codes j⟩) (partner n)
      if p0 && decide (mask = BitVec.allOnes 1024) then setDup c { d with dupv := true } else c
  else if dupLive c (partner n) then setDup c ⟨false, true⟩
  else if d.dupv then setDup c { d with dupv := false }
  else c

/-- A landing in the predicate file (R132, R133); a segment of which any bit is written gets fresh parity (log entry 134). -/
def landPred (c : Core) (n : BitVec 4) (data mask : BitVec 1024) (range : BitVec 8) (src : BitVec 16) : Core :=
  if n = 0 then c
  else
    let x := preg c n
    let y : PReg := ⟨(x.bits &&& ~~~ mask) ||| (data &&& mask), codesBy fun j =>
      if range.getLsbD j then landedCode (codeAt x.codes j) (codeAt src j) (segMask mask j) true else codeAt x.codes j⟩
    let c := psumSegs (setPreg c n y) x.codes y.codes mask range
    let gone : BitVec 8 := BitVec.ofNat 8 (joinNat 1 ((List.range 8).map fun j => if activeSegs mask j then 1 else 0))
    let b := mapGet 0 c.vec.pbad n.toNat &&& ~~~ gone
    { c with vec := { c.vec with pbad := mapSet 0 c.vec.pbad n.toNat b } }

/-- An access of the general port of a line's bank (R230): a timed one in chart row `row` below 16, for the conflicts of its fc
(R150); 16 an untimed one, which the bank serves in this cycle (R231); 17 one of an operand port of the array (R180). -/
def portTouch (c : Core) (row line : Nat) : Core :=
  if row < 16 then { c with sp := { c.sp with lines := c.sp.lines ++ [(row, line)] } }
  else if row = 16 then { c with sp := { c.sp with served := c.sp.served ++ [bankOf line] } }
  else c

/-- A line as every write of the previous fc and earlier left it (R150), with its code. -/
def lineBefore (c : Core) (line : Nat) : BitVec 1024 × BitVec 2 :=
  match c.sp.acc.find? fun e => decide (e.1 = line) with
  | some (_, a) => (a.data0, a.code0)
  | none => (BitVec.ofNat 1024 (memReadNat c.sp.bytes (128 * line) 128), lineCode c line)

/-- The value of a unit that an engine observes where the sequencer has stored to it since the last FENCE (R115): one from before a
store, or none of these. A free value decides, afresh for every unit (log entry 1). -/
def unitSeen (c : Core) (u : Nat) : Option (BitVec 64) :=
  match mapGet [] c.sp.srace u with
  | [] => none
  | l => l[(Config.freeValue (16 + c.sys.prcore) (c.nfree * 4096 + 3072 + u % 1024)).toNat % (l.length + 1)]?

/-- A line as an engine observes it (R115). -/
def raceLine (c : Core) (line : Nat) (d : BitVec 1024) : BitVec 1024 :=
  (List.range 16).foldl (fun d i =>
    match unitSeen c (16 * line + i) with
    | some x => (d &&& ~~~ ((BitVec.allOnes 64).setWidth 1024 <<< (64 * i))) ||| (x.setWidth 1024 <<< (64 * i))
    | none => d) d

/-- The code of a line that has been written in this fc (R149, R226, R232). -/
def accCode (a : LineAcc) : BitVec 2 :=
  if a.keep = 1 ∨ (a.keep = 0 ∧ a.mask ≠ BitVec.allOnes 128) then maxCode a.code a.code0 else a.code

/-- A timed read of a line that has been written in this fc finds the errors that stood in it before (R150, R226): they are counted, and a
double-bit error makes the code before the writes ERROR. -/
def accRead (c : Core) (line : Nat) : Core :=
  match c.sp.acc.find? fun e => decide (e.1 = line) with
  | none => c
  | some (_, a) =>
    let hard := (List.range 16).filter fun i => a.bad.getLsbD i && !mapGet false c.sp.dbe (16 * line + i)
    let soft := (List.range 16).filter fun i => a.soft.getLsbD i && !mapGet false c.sp.sbe (16 * line + i)
    if hard.isEmpty && soft.isEmpty then c
    else
      let a' : LineAcc := { a with code0 := if hard.isEmpty then a.code0 else 3, soft := 0 }
      let c := { c with
        errs := c.errs ++ (soft.map fun i => (2, 1, 1, 8 * (16 * line + i))) ++ hard.map fun i => (2, 2, 1, 8 * (16 * line + i))
        sp := { c.sp with acc := mapPut c.sp.acc line a', code := mapSet 0 c.sp.code line (accCode a') } }
      let c := if soft.isEmpty then c else countEv c 0x19 soft.length
      if hard.isEmpty then c else psumCode c 3

/-- The effects of a timed read on a line and its bank (R226, R228, R230). -/
def touchLine (c : Core) (cyc row line : Nat) : Core :=
  touchReadAs 15 (accRead (portTouch c row line) line) cyc (128 * line) 128

/-- Does a line hold a double-bit error as every write of the previous fc and earlier left it (R150, R226)? -/
def lineBad (c : Core) (line : Nat) : Bool :=
  scBad c (128 * line) 128 || (match c.sp.acc.find? fun e => decide (e.1 = line) with
    | some (_, a) => decide (a.bad ≠ 0)
    | none => false)

/-- A timed read of one line in chart row `row`: its bytes and code (R150, R226, R228, R230). -/
def readLine (c : Core) (cyc row line : Nat) : Core × BitVec 1024 × BitVec 2 :=
  let c := touchLine c cyc row line
  let (d, k) := lineBefore c line
  (c, raceLine c line d, if lineBad c line then 3 else k)

/-- Do the lines belong to the core's tenant (R225)? -/
def tagsOk (c : Core) (ls : List Nat) : Bool := ls.all (tagOk c)

/-- Does writer `a` come before writer `b` of the same fc (R232): by class; copies, `TDRAIN` and V words by their numbers? -/
def writesBefore (a b : Writer) : Bool :=
  decide (a.cls < b.cls) || (decide (a.cls = b.cls) && decide (2 ≤ a.cls) && seqEarlier a.seq b.seq)

/-- The bytes of a line that a writer writes in this fc: not those that a writer after it has written (R232). -/
def lineFree (a : LineAcc) (w : Writer) : BitVec 128 :=
  ~~~ (a.by_.foldl (fun m x => if writesBefore w x.1 then m ||| x.2 else m) 0)

/-- Write one line (R149, R224, R226, R232). The line's code is that of all its writers in the fc, raised by the old code where a byte
stays unchanged. -/
def writeLine (c : Core) (cyc : Nat) (by_ : Writer) (w : LineWrite) : Core :=
  let c := touchBank c cyc w.line
  let cur : BitVec 1024 := BitVec.ofNat 1024 (memReadNat c.sp.bytes (128 * w.line) 128)
  let a := match c.sp.acc.find? fun e => decide (e.1 = w.line) with
    | some (_, a) => a
    | none =>
      let marks (m : Map Bool) : BitVec 16 := BitVec.ofNat 16 (joinNat 1 ((List.range 16).map fun i =>
        (mapGet false m (16 * w.line + i)).toNat))
      ⟨cur, lineCode c w.line, 0, [], 0, 0, 0, marks c.sp.dbe, marks c.sp.sbe⟩
  let m := w.mask &&& lineFree a by_
  -- units written in part: a single-bit error is corrected, a double-bit error gives the line ERROR (R226)
  let units := (List.range 16).filter fun i => decide (m.extractLsb' (8 * i) 8 ≠ 0)
  let cut := units.filter fun i => decide (m.extractLsb' (8 * i) 8 ≠ 255)
  let torn := cut.filter fun i => mapGet false c.sp.dbe (16 * w.line + i)
  let c := mergeSoft c (cut.map fun i => 16 * w.line + i)
  let a' : LineAcc := { a with
    mask := a.mask ||| w.mask
    by_ := a.by_ ++ [(by_, w.mask)]
    code := if torn.isEmpty then maxCode a.code w.code else 3
    keep := if a.keep = 1 ∨ w.keep = 3 then 1 else if w.keep = 0 then a.keep else w.keep
    slot := if w.keep = 1 then a.slot ||| w.mask else a.slot }
  let k := accCode a'
  let old := lineCode c w.line
  let c := (List.range 128).foldl (fun c i => if m.getLsbD i then keepStale c (128 * w.line + i) else c) c
  let us := units.map fun i => 16 * w.line + i
  let bytes := (List.range 128).foldl (fun b i => if m.getLsbD i then
      memWrite b (128 * w.line + i) (w.data.extractLsb' (8 * i) 8) else b) c.sp.bytes
  let races := us.foldl (fun e u =>
      mapPut e u (mapGet [] e u ++ [(by_.q, by_.seq, cur.extractLsb' (64 * (u % 16)) 64)])) c.sp.erace
  let c := { c with sp := { c.sp with
    bytes := bytes
    acc := mapPut c.sp.acc w.line a'
    code := mapSet 0 c.sp.code w.line k
    tag := mapSet c.sp.tagDef c.sp.tag w.line c.sys.tenant
    dbe := clearUnits c.sp.dbe us
    sbe := clearUnits c.sp.sbe us
    srace := us.foldl mapDel c.sp.srace
    erace := races } }
  let c := { c with errs := c.errs ++ torn.map fun i => (2, 2, 1, 128 * w.line + 8 * i) }
  if w.mask ≠ 0 ∨ k ≠ old then psumCode c k else c

/-- Two writes of one line by one word make one: where both write a byte the later one wins, the codes join (log entry 127). -/
def joinWrites (a b : LineWrite) : LineWrite :=
  { a with data := mergeBytes 128 b.mask a.data b.data, mask := a.mask ||| b.mask, code := maxCode a.code b.code
           keep := if a.keep = 1 then 1 else if b.keep = 0 then a.keep else b.keep }

/-- The writes of one word, line by line, each line once. -/
def byLine (ws : List LineWrite) : List LineWrite :=
  ws.foldl (fun r w =>
    if r.any fun x => decide (x.line = w.line) then r.map fun x => if x.line = w.line then joinWrites x w else x else r ++ [w]) []

/-- Write lines of one word; a line of another tenant is an OWNER violation and nothing is written (R225). -/
def writeLines (c : Core) (time cyc : Nat) (by_ : Writer) (row : Nat) (ws : List LineWrite) : Core :=
  if tagsOk c (ws.map (·.line)) then
    (byLine ws).foldl (fun c w => writeLine (portTouch c row w.line) cyc by_ w) c
  else raise c time ⟨causeOwner, true, by_.q % 4, false, BitVec.ofNat 64 (128 * (ws.map (·.line)).headD 0), 0, c.seq.pc⟩

/-- Read lines of one word, in order; none where a line belongs to another tenant (R225). -/
def readLines (c : Core) (cyc row : Nat) (ls : List Nat) : Option (Core × List (BitVec 1024 × BitVec 2)) :=
  if tagsOk c ls then
    some (ls.foldl (fun r l =>
      let (c, d, k) := readLine r.1 cyc row l
      (c, r.2 ++ [(d, k)])) (c, []))
  else none

/-- One byte as an engine reads it: as every write of the previous fc and earlier left it (R150), old or new where a scalar
store raced with it (R115). -/
def byteSeen (c : Core) (a : Nat) : Nat :=
  match unitSeen c (a / 8) with
  | some x => (x.extractLsb' (8 * (a % 8)) 8).toNat
  | none =>
    match c.sp.acc.find? fun e => decide (e.1 = a / 128) with
    | some (_, x) => (x.data0.extractLsb' (8 * (a % 128)) 8).toNat
    | none => (memRead c.sp.bytes a).toNat

/-- `n` bytes as an engine reads them. -/
def bytesSeen (c : Core) (a : Nat) : Nat → Nat
  | 0 => 0
  | n + 1 => byteSeen c a + 256 * bytesSeen c (a + 1) n

/-- The code of a line as an engine reads it (R150, R226). -/
def codeSeen (c : Core) (line : Nat) : BitVec 2 :=
  if lineBad c line then 3
  else match c.sp.acc.find? fun e => decide (e.1 = line) with
    | some (_, x) => x.code0
    | none => lineCode c line

/-- The effects of reading lines on them and their banks (R226, R228); with a row below 16 they are timed accesses of the
general port (R230). -/
def touchLines (c : Core) (cyc row : Nat) (ls : List Nat) : Core :=
  ls.foldl (fun c l => touchLine c cyc row l) c

end Sys2Proof.Machine
end

