-- ==== Sys2Proof/Machine/Streams.lean ====
section
/-! DEFINITION. Stream registers (07 R172 to R176): their fields, where an element lies (R173), the checks of a write (R174),
GCFG, GSET and GRD; and the landing slots' LSET (09 R235). -/

namespace Sys2Proof.Machine

/-- Bits [lo + len − 1 : lo] of a stream register. -/
def gField (g : BitVec 256) (lo len : Nat) : Nat := g.toNat / 2 ^ lo % 2 ^ len

def gBase (g : BitVec 256) : Nat := gField g 0 23
def gRows (g : BitVec 256) : Nat := gField g 24 8
def gCols (g : BitVec 256) : Nat := gField g 32 8
def gPitch (g : BitVec 256) : Nat := gField g 40 16
def gStep (g : BitVec 256) : Int := sintOf 24 (gField g 56 24)
def gWrap (g : BitVec 256) : Nat := gField g 80 12
def gWrapstep (g : BitVec 256) : Int := sintOf 24 (gField g 92 24)
def gFormat (g : BitVec 256) : Nat := gField g 116 6
def gSlices (g : BitVec 256) : Nat := gField g 122 2
def gLayout (g : BitVec 256) : Nat := gField g 124 2
def gError (g : BitVec 256) : Nat := gField g 126 1
def gScalebase (g : BitVec 256) : Nat := gField g 128 23
def gScalestride (g : BitVec 256) : Nat := gField g 151 16
def gLo (g : BitVec 256) : Nat := gField g 167 32
def gHi (g : BitVec 256) : Nat := gField g 199 32
def gBound (g : BitVec 256) : Nat := gField g 231 2
def gSparse (g : BitVec 256) : Nat := gField g 233 23

/-- The format of a stream; FP32 stands for a code that names none. -/
def gFmt (g : BitVec 256) : Fmt := (fmtOfCode (gFormat g)).getD .fp32

/-- An address formed modulo 2^64 and read as unsigned (R464). -/
def addr64 (a : Int) : Nat := (a % (2 ^ 64 : Nat)).toNat

/-- The offset W of a repetition (R173). -/
def gWalk (g : BitVec 256) (j : Nat) : Int :=
  if gWrap g = 0 then (j : Int) * gStep g
  else ((j % gWrap g : Nat) : Int) * gStep g + ((j / gWrap g : Nat) : Int) * gWrapstep g

/-- One place of an element: byte address, bytes, and the bit offset inside the byte for half-byte elements. -/
structure Place where
  at_ : Nat
  n : Nat
  bit : Nat
  deriving DecidableEq, Repr

/-- The places of element (r, c) of repetition j (R173): one, or the header and the slices read in sliced layout. -/
def gPlaces (g : BitVec 256) (j r c : Nat) : List Place :=
  let o : Int := (gBase g : Int) + gWalk g j
  let b := fmtBits (gFmt g)
  match gLayout g with
  | 2 =>
    let row : Int := o + ((r * gPitch g : Nat) : Int)
    ⟨addr64 (row + ((2 * c : Nat) : Int)), 2, 0⟩ ::
      (List.range (gSlices g)).map fun s => ⟨addr64 (row + (((2 + s) * gCols g + c : Nat) : Int)), 1, 0⟩
  | l =>
    let major := if l = 1 then c else r
    let minor := if l = 1 then r else c
    if b = 4 then [⟨addr64 (o + ((major * gPitch g + minor / 2 : Nat) : Int)), 1, 4 * (minor % 2)⟩]
    else [⟨addr64 (o + ((major * gPitch g + minor * (b / 8) : Nat) : Int)), b / 8, 0⟩]

/-- Lines of some places. -/
def placeLines (ps : List Place) : List Nat :=
  (ps.flatMap fun p => (List.range ((p.at_ + p.n - 1) / 128 + 1 - p.at_ / 128)).map (p.at_ / 128 + ·)).eraseDups

/-- The first element position that fails R174, as the field number of R176; 31 for a reserved bit; none where all hold. -/
def gCheck (g : BitVec 256) : Option Nat :=
  let fmt := gFormat g
  let b := fmtBits (gFmt g)
  let e := b / 8
  let off (x : Int) : Bool := decide (x % (e : Int) ≠ 0)
  let maxSl := match gFmt g with
    | .fp32 => 3
    | .fp16 => 2
    | _ => 1
  if gField g 23 1 = 1 ∨ gField g 127 1 = 1 then some 31
  else if gRows g = 0 ∨ 128 < gRows g then some 1
  else if gCols g = 0 ∨ 128 < gCols g then some 2
  else if 10 < fmt then some 7
  else if gSlices g = 0 ∨ maxSl < gSlices g then some 8
  else if gLayout g = 3 ∨ (gLayout g = 2 ∧ 2 < fmt) then some 9
  else if 1 ≤ e ∧ off (gBase g : Int) then some 0
  else if 1 ≤ e ∧ off (gPitch g : Int) then some 3
  else if 1 ≤ e ∧ off (gStep g) then some 4
  else if 1 ≤ e ∧ off (gWrapstep g) then some 6
  else if e = 0 ∧ gLayout g = 1 ∧ gRows g % 2 = 1 then some 1
  else if e = 0 ∧ gLayout g = 0 ∧ gCols g % 2 = 1 then some 2
  else if gBound g ≠ 0 ∧ (fvIsNan (fdecode f32 (gLo g)) ∨ fvIsNan (fdecode f32 (gHi g))
      ∨ 0 < fvCmp (fdecode f32 (gLo g)) (fdecode f32 (gHi g))) then
    (if fvIsNan (fdecode f32 (gHi g)) ∧ !fvIsNan (fdecode f32 (gLo g)) then some 14 else some 13)
  else if fmt = 10 ∧ gScalebase g % 128 ≠ 0 then some 11
  else if fmt = 10 ∧ gScalestride g % 128 ≠ 0 then some 12
  else if gSparse g % 8 ≠ 0 then some 16
  else none

/-- Stream register `n`. -/
def getG (c : Core) (n : BitVec 5) : BitVec 256 := mapGet 0 c.mx.g n.toNat

/-- Write a stream register. -/
def setG (c : Core) (n : BitVec 5) (g : BitVec 256) : Core := { c with mx := { c.mx with g := mapSet 0 c.mx.g n.toNat g } }

/-- Lowest bit, width and signedness of stream field `n` (R172, R176). -/
def gFieldPos (n : Nat) : Nat × Nat × Bool :=
  match n with
  | 0 => (0, 23, false) | 1 => (24, 8, false) | 2 => (32, 8, false) | 3 => (40, 16, false) | 4 => (56, 24, true)
  | 5 => (80, 12, false) | 6 => (92, 24, true) | 7 => (116, 6, false) | 8 => (122, 2, false) | 9 => (124, 2, false)
  | 10 => (126, 1, false) | 11 => (128, 23, false) | 12 => (151, 16, false) | 13 => (167, 32, false)
  | 14 => (199, 32, false) | 15 => (231, 2, false) | _ => (233, 23, false)

/-- The address of GCFG's record: sa + SEXTN(fn, 16) (R176). -/
def gcfgAddr (o : GcfgOp) (c : Core) : Word := getS c o.sa + sext64 o.off

/-- GCFG (R176): reads the record as a scalar load does (R114, R115); a failing check raises STREAM_CFG and writes nothing. The rule gives
its ALIGN no TRAPINFO1: 1 is the model's choice (log entry 156). -/
def execGcfg (o : GcfgOp) (s : State) : Ans :=
  let c := s.me
  let a := gcfgAddr o c
  match accessCheck c a 32 32 1 1 with
  | .trap k i0 i1 => seqTrap s k i0 i1
  | .ok =>
    let c1 := sawUnits (touchRead c s.cyc a.toNat 32) (unitsOf a.toNat 32)
    let g : BitVec 256 := BitVec.ofNat 256 (scRead c a.toNat 32)
    match gCheck g with
    | some f => seqTrap s causeStreamCfg (BitVec.ofNat 64 f) (o.g.setWidth 64)
    | none => .next (s.setCore s.cur (retire (stepPc (setG (psumCode c1 (lineCode c1 (lineOf a.toNat))) o.g g)) s.cyc 1))

/-- GSET (R176): a value that does not fit its field raises STREAM_CFG for that field. -/
def execGset (o : GsetOp) (s : State) : Ans :=
  let c := s.me
  let v := getS c o.sa
  let (lo, len, sg) := gFieldPos o.field.toNat
  let fits := if sg then decide (-(2 ^ (len - 1) : Nat) ≤ v.toInt) && decide (v.toInt < (2 ^ (len - 1) : Nat))
    else decide (v.toNat < 2 ^ len)
  let old := getG c o.g
  let g : BitVec 256 := BitVec.ofNat 256 (old.toNat - gField old lo len * 2 ^ lo + v.toNat % 2 ^ len * 2 ^ lo)
  if !fits then seqTrap s causeStreamCfg (BitVec.ofNat 64 o.field.toNat) (o.g.setWidth 64)
  else match gCheck g with
    | some f => seqTrap s causeStreamCfg (BitVec.ofNat 64 f) (o.g.setWidth 64)
    | none => coreNext s fun c => setG c o.g g

/-- GRD (R176). -/
def execGrd (o : GrdOp) (s : State) : Ans :=
  let (lo, len, sg) := gFieldPos o.field.toNat
  let x := gField (getG s.me o.g) lo len
  writeNext s o.sd (if sg then BitVec.ofInt 64 (sintOf len x) else BitVec.ofNat 64 x) 1

/-- LSET (R235). -/
def execLset (o : LsetOp) (s : State) : Ans :=
  let a := (getS s.me o.sa).toNat
  let b := (getS s.me o.sb).toNat
  if 2 ^ 20 ≤ a ∨ 2 ^ 16 ≤ b then illegalAt s 5 (wordOf (.lset o))
  else coreNext s fun c =>
    let v : Word := BitVec.ofNat 64 (o.q.toNat + o.policy.toNat * 4 + a * 16 + b * 2 ^ 24 + 2 ^ 63)
    { c with sys := { c.sys with lslot := mapSet 0 c.sys.lslot o.l.toNat v } }

end Sys2Proof.Machine
end

