-- ==== Sys2Proof/Machine/Matrix.lean ====
section
/-! DEFINITION. Tiles and the matrix array (07 R170 to R192, 02 R67 to R72): tile words, array words at issue, one repetition
of the running array word, and its result landing. -/

namespace Sys2Proof.Machine

/-- Tile `n`. -/
def getTile (c : Core) (n : BitVec 3) : Tile := mapGet Tile.zero c.mx.tiles n.toNat

/-- Write tile `n`. -/
def setTile (c : Core) (n : BitVec 3) (t : Tile) : Core := { c with mx := { c.mx with tiles := mapSet Tile.zero c.mx.tiles n.toNat t } }

/-- A tile element: zero outside the shape (R170). -/
def tileElem (t : Tile) (r k : Nat) : BitVec 32 :=
  if r < t.rows ∧ k < t.cols then mapGet 0 t.elems (128 * r + k) else 0

/-- A row code: CLEAN outside the shape (R170). -/
def tileCode (t : Tile) (r : Nat) : BitVec 2 := if r < t.rows then mapGet 0 t.codes r else 0

/-- Row codes that land set PSUM (R127, R170). -/
def psumRows (c : Core) (codes : Map (BitVec 2)) : Core := codes.foldl (fun c e => psumCode c e.2) c

/-- The last writer of a tile that has issued is no array word (R181). -/
def plainWriter (c : Core) (t : BitVec 3) : Core := { c with mx := { c.mx with lastw := mapSet 0 c.mx.lastw t.toNat 0 } }

/-- The tile a landing writes. -/
def actTile : Act → Option (BitVec 3)
  | .tcfg t .. => some t
  | .tzero t => some t
  | .tldRead t .. => some t
  | .tileSet t .. => some t
  | .tbiasRead t .. => some t
  | .tmarkRead t _ => some t
  | .tmark t .. => some t
  | .tclr t => some t
  | _ => none

/-- Is a write of the tile by an issued word still to land (R186)? -/
def tilePending (c : Core) (t : BitVec 3) : Bool :=
  (c.land.any fun l => decide (actTile l.act = some t)) || c.mx.jobs.any fun j => decide (j.tile = t)

/-- TILE_SHAPE (R192). -/
def tileShape (t : BitVec 3) (reason : Nat) (e : QEntry) : IssueRes :=
  .trap causeTileShape (BitVec.ofNat 64 (t.toNat + reason * 16)) (BitVec.ofNat 64 e.seq)

/-- TCFG (R186): the declared shape changes at issue, the tile at issue + 2. -/
def execTcfg (o : TcfgOp) (s : State) : Ans :=
  engineIssue 0 s fun c e =>
    let t := getTile c o.tile
    let r := o.rows.toNat + 1
    let k := o.cols.toNat + 1
    let i := decide (o.ty = 1)
    if t.drows = r ∧ t.dcols = k ∧ t.dint = i then .done c
    else if tilePending c o.tile then tileShape o.tile 4 e
    else .done (landAt (plainWriter (setTile c o.tile { t with drows := r, dcols := k, dint := i }) o.tile) 0 e 2
      (.tcfg o.tile r k i))

/-- TZERO (R187). -/
def execTzero (o : TileOp) (s : State) : Ans :=
  engineIssue 0 s fun c e => .done (landAt (plainWriter c o.tile) 0 e 2 (.tzero o.tile))

/-- Does the stream's block match the tile's declared shape under TA (R188)? -/
def blockFits (t : Tile) (g : BitVec 256) (ta : BitVec 1) : Bool :=
  if ta = 1 then decide (gRows g = t.dcols) && decide (gCols g = t.drows)
  else decide (gRows g = t.drows) && decide (gCols g = t.dcols)

/-- Does the format load into the tile's declared type (R188)? -/
def typeFits (t : Tile) (f : Fmt) : Bool := if t.dint then fmtIsInt f else fmtIsFloat f

/-- TLD (R188): the block is read at issue + 3 and lands at issue + rows + 8. -/
def execTld (o : TldOp) (s : State) : Ans :=
  engineIssue 0 s fun c e =>
    let t := getTile c o.tile
    if !blockFits t e.ga o.ta then tileShape o.tile 6 e
    else if !typeFits t (gFmt e.ga) then tileShape o.tile 3 e
    else .done (landAt (plainWriter c o.tile) 0 e 3 (.tldRead o.tile e.ga (decide (o.ta = 1)) (c.fc + gRows e.ga + 8)))

/-- The exact value of an element of a format. -/
def elemVal (f : Fmt) (bits : Nat) : FVal :=
  if fmtIsFloat f then fdecode (floatSpec f) bits else fvOfInt (intDecode f bits)

/-- The value and the format of a tile element. -/
def tileFmt (t : Tile) : Fmt := if t.int then .int32 else .fp32

/-- Is a value outside the stream's bounds (R189)? -/
def outOfBounds (g : BitVec 256) (x : FVal) : Bool :=
  fvIsNan x || decide (fvCmp x (fdecode f32 (gLo g)) < 0) || decide (0 < fvCmp x (fdecode f32 (gHi g)))

/-- The value TDRAIN writes for an element (R189). -/
def drainElem (g : BitVec 256) (tf : Fmt) (bits : Nat) : Nat :=
  let f := gFmt g
  if gBound g = 2 then
    let x := elemVal tf bits
    let lo := (convElem .fp32 f .rup true 0 (gLo g)).1
    let hi := (convElem .fp32 f .rdn true 0 (gHi g)).1
    let y := (convElem tf f .rne true 0 bits).1
    let y1 := if fvIsNan x ∨ fvCmp (elemVal f y) (elemVal f lo) < 0 then lo else y
    if 0 < fvCmp (elemVal f y1) (elemVal f hi) then hi else y1
  else (convElem tf f .rne false 0 bits).1

/-- One element that TDRAIN writes: its block row, its place, its bits, its tile row's code, its bound mark. -/
structure DrainElem where
  row : Nat
  place : Place
  bits : Nat
  code : BitVec 2
  deriving DecidableEq, Repr

/-- Bits that a place writes: a whole number of bytes, or half of one (R44). -/
def placeWrite (line : Nat) (p : Place) (bits : Nat) : BitVec 1024 × BitVec 1024 :=
  let b := if p.n = 1 ∧ p.bit ≠ 0 then 4 else 8 * p.n
  let sh := 8 * (p.at_ - 128 * line) + p.bit
  (BitVec.ofNat 1024 (bits % 2 ^ b) <<< sh, BitVec.ofNat 1024 (2 ^ b - 1) <<< sh)

/-- TDRAIN's elements, row by row of the block (R189). -/
def drainElems (t : Tile) (g : BitVec 256) (ta : Bool) : List DrainElem :=
  (List.range (gRows g)).flatMap fun r => (List.range (gCols g)).map fun k =>
    let (tr, tk) := if ta then (k, r) else (r, k)
    let x := (tileElem t tr tk).toNat
    let mark : BitVec 2 := if gBound g = 1 ∧ outOfBounds g (elemVal (tileFmt t) x) then 2 else 0
    ⟨r, (gPlaces g 0 r k).headD ⟨0, 1, 0⟩, drainElem g (tileFmt t) x, maxCode (tileCode t tr) mark⟩

/-- The lines that elements write: bytes, byte mask and code, with the bits that are theirs; half-byte elements leave the
other half of their byte (R44). -/
def drainLines (half : Bool) (es : List DrainElem) : List (LineWrite × BitVec 1024) :=
  (placeLines (es.map (·.place))).map fun l =>
    let es' := es.filter fun x => decide (x.place.at_ / 128 = l)
    let r := es'.foldl (fun (r : BitVec 1024 × BitVec 128 × BitVec 1024) x =>
      let p := if half ∧ x.place.bit = 0 then { x.place with n := 1 } else x.place
      let (v, m) := if half then
          (BitVec.ofNat 1024 (x.bits % 16) <<< (8 * (p.at_ % 128) + p.bit), 15#1024 <<< (8 * (p.at_ % 128) + p.bit))
        else placeWrite l p x.bits
      ((r.1 &&& ~~~ m) ||| v, r.2.1 ||| (BitVec.ofNat 128 (2 ^ p.n - 1) <<< (p.at_ % 128)), r.2.2 ||| m)) (0, 0, 0)
    (⟨l, r.1, r.2.1, maxCodes (es'.map (·.code)), 0⟩, r.2.2)

/-- The rows of TDRAIN as they will be written (R189): a line that the word rewrites in full takes its final code with the
last row that touches it. -/
def drainRows (g : BitVec 256) (es : List DrainElem) : List (Nat × List (LineWrite × BitVec 1024)) :=
  let half := decide (fmtBits (gFmt g) = 4)
  let whole := drainLines half es
  (List.range (gRows g)).map fun r =>
    let ws := drainLines half (es.filter fun x => decide (x.row = r))
    (r, ws.map fun w =>
      let later := es.any fun x => decide (r < x.row) && decide (x.place.at_ / 128 = w.1.line)
      match whole.find? fun x => decide (x.1.line = w.1.line) with
      | some x => if !later && decide (x.1.mask = BitVec.allOnes 128) then ({ w.1 with code := x.1.code, keep := 2 }, w.2)
        else if !later then ({ w.1 with code := x.1.code }, w.2) else w
      | none => w)

/-- A drained line as it lands: the bits that are not the word's keep what the line holds (R44). -/
def drainWrite (c : Core) (w : LineWrite × BitVec 1024) : LineWrite :=
  let old : BitVec 1024 := BitVec.ofNat 1024 (memReadNat c.sp.bytes (128 * w.1.line) 128)
  { w.1 with data := (w.1.data &&& w.2) ||| (old &&& ~~~ w.2) }

/-- TDRAIN (R189): the tile is read and the bound policy applied at issue; block row r is written at issue + 3 + r. -/
def execTdrain (o : TldOp) (s : State) : Ans :=
  engineIssue 0 s fun c e =>
    let t := getTile c o.tile
    let g := e.ga
    let ta := decide (o.ta = 1)
    if !blockFits t g o.ta then tileShape o.tile 6 e
    else
      let bad := ((List.range (gRows g)).flatMap fun r => (List.range (gCols g)).map fun k => (r, k)).filter fun x =>
        outOfBounds g (elemVal (tileFmt t) (if ta then tileElem t x.2 x.1 else tileElem t x.1 x.2).toNat)
      match gBound g, bad with
      | 3, (r, k) :: _ => .trap causeBound (BitVec.ofNat 64 (r * 256 + k)) (BitVec.ofNat 64 e.seq)
      | b, _ =>
        let c := if b = 2 then countEv c 0x11 bad.length else c
        let rows := drainRows g (drainElems t g ta)
        .done (rows.foldl (fun c x => landAt c 0 e (3 + x.1) (.drain x.2)) c)

/-- TBIAS (R190): the bias row is read at issue + 3 and lands at issue + 6. -/
def execTbias (o : TbiasOp) (s : State) : Ans :=
  engineIssue 0 s fun c e =>
    let t := getTile c o.tile
    if gRows e.ga ≠ 1 ∨ gCols e.ga ≠ t.dcols then tileShape o.tile 6 e
    else if gFormat e.ga ≠ (if t.dint then 5 else 0) then tileShape o.tile 3 e
    else .done (landAt (plainWriter c o.tile) 0 e 3 (.tbiasRead o.tile e.ga (decide (o.acc = 1))))

/-- TPOIS.GET (R191): the codes are read at issue, the 32-byte map written at issue + 3; the line's code stays. -/
def execTpoisGet (o : TpoisOp) (s : State) : Ans :=
  engineIssue 0 s fun c e =>
    let t := getTile c o.tile
    let a := gBase e.ga
    let v := joinNat 2 ((List.range 128).map fun r => (tileCode t r).toNat)
    .done (landAt c 0 e 3 (.drain [(⟨a / 128, BitVec.ofNat 1024 v <<< (8 * (a % 128)),
      (BitVec.ofNat 128 (2 ^ 32 - 1)) <<< (a % 128), 0, 3⟩, BitVec.allOnes 1024)]))

/-- TPOIS.MARK (R191): the map is read at issue + 3, the codes are raised at issue + 4. -/
def execTpoisMark (o : TpoisOp) (s : State) : Ans :=
  engineIssue 0 s fun c e => .done (landAt (plainWriter c o.tile) 0 e 3 (.tmarkRead o.tile (gBase e.ga)))

/-- TPOIS.CLR (R191). -/
def execTpoisClr (o : TileOp) (s : State) : Ans :=
  engineIssue 0 s fun c e => .done (landAt (plainWriter c o.tile) 0 e 2 (.tclr o.tile))

/-- Which array word (R177). -/
inductive MKind where
  | mma | mmas | mmaq
  deriving DecidableEq, Repr

/-- The K-group size (R177). -/
def kGroup : MKind → Nat
  | .mma => 32
  | _ => 64

/-- The K extent that the B stream must have (R177). -/
def kOfB : MKind → Nat
  | .mmaq => 64
  | _ => 32

/-- One repetition's time (R179). -/
def repTime (k : MKind) (o : MmaOp) (e : QEntry) : Nat :=
  match k with
  | .mmaq => 32 * gSlices e.ga
  | _ => 32 * gSlices e.ga * gSlices e.gb / (if o.pack = 1 then 2 else 1)

/-- Extents of A and B that TA and TB assign (R177): M, K of A, K of B, N. -/
def mmaDims (o : MmaOp) (e : QEntry) : Nat × Nat × Nat × Nat :=
  let (m, ka) := if o.ta = 1 then (gCols e.ga, gRows e.ga) else (gRows e.ga, gCols e.ga)
  let (kb, n) := if o.tb = 1 then (gCols e.gb, gRows e.gb) else (gRows e.gb, gCols e.gb)
  (m, ka, kb, n)

/-- The tile type that a pairing needs (R178): none where either is accepted. -/
def pairTypeOk (t : Tile) (a b : Fmt) : Bool := if t.dint then fmtIsInt a && fmtIsInt b else true

/-- Issue of an array word (R177 to R181). The first of its checks to fail, in the order of their reasons, is recorded (log entry 136).
Where the word it chains to has landed, the tile holds that word's result now: no other word has written it since (R181). -/
def arrayIssue (k : MKind) (o : MmaOp) (s : State) : Ans :=
  engineIssue 0 s fun c e =>
    let t := getTile c o.tile
    let (m, ka, kb, n) := mmaDims o e
    let (tm, tn) := if o.edge = 1 then (t.dcols, t.drows) else (t.drows, t.dcols)
    let kPlace := decide (gLayout e.gb = (if o.tb = 1 then 0 else 1))
    if ka ≠ kGroup k ∨ m ≠ tm then tileShape o.tile 1 e
    else if kb ≠ kOfB k ∨ n ≠ tn then tileShape o.tile 2 e
    else if !pairTypeOk t (gFmt e.ga) (gFmt e.gb) then tileShape o.tile 3 e
    else if decide (k = .mmaq) && !kPlace then tileShape o.tile 5 e
    else
      let start := if c.fc < c.mx.arrayEnd then c.mx.arrayEnd else c.fc
      let per := repTime k o e
      let reps := o.rep.toNat + 1
      let lw := mapGet 0 c.mx.lastw o.tile.toNat
      let gone := decide (o.acc = 1) && decide (lw ≠ 0) && !c.mx.jobs.any fun x => decide (x.e.seq + 1 = lw) && decide (x.tile = o.tile)
      let job : ArrayJob := ⟨e, o.tile, start, per, reps, 0, gone, if gone then (getTile c o.tile).elems else [],
        if gone then (getTile c o.tile).codes else [], [], if lw = 0 then none else some (lw - 1)⟩
      .done { c with mx := { c.mx with
        jobs := c.mx.jobs ++ [job], arrayEnd := start + reps * per
        lastw := mapSet 0 c.mx.lastw o.tile.toNat (e.seq + 1) } }

def execMma (o : MmaOp) (s : State) : Ans := arrayIssue .mma o s
def execMmas (o : MmaOp) (s : State) : Ans := arrayIssue .mmas o s
def execMmaq (o : MmaOp) (s : State) : Ans := arrayIssue .mmaq o s

/-- The significand field of R67: its width, its slices' bits, and where the stored significand stands in it. -/
def sliceWidth : Fmt → Nat
  | .fp32 => 24
  | .fp16 => 16
  | _ => 8

/-- The operand value of an element as the array uses it (R48, R67): a subnormal is a zero of its sign, the significand is
truncated to the slices read; the significand of a NaN is truncated likewise, which leaves an infinity where no bit of it stays. -/
def operandVal (f : Fmt) (sl : Nat) (bits : Nat) : FVal :=
  if fmtIsFloat f then
    let k := floatSpec f
    match fdecode k bits with
    | .fin neg m e =>
      if m < 2 ^ k.manBits then .fin neg 0 0
      else
        let sh := sliceWidth f - 1 - k.manBits
        let drop := sliceWidth f - 8 * sl
        .fin neg (m * 2 ^ sh / 2 ^ drop * 2 ^ drop) (e - sh)
    | .nan =>
      let man := bits % 2 ^ k.manBits * 2 ^ (sliceWidth f - 1 - k.manBits)
      if man / 2 ^ (sliceWidth f - 8 * sl) = 0 then .inf (decide (bits / 2 ^ (k.manBits + k.expBits) % 2 = 1)) else .nan
    | v => v
  else fvOfInt (intDecode f bits)

/-- The operand value of an element in sliced layout (R68): header and slices. -/
def slicedVal (f : Fmt) (hd : Nat) (sl : List Nat) : FVal :=
  let k := floatSpec f
  let neg := decide (hd / 2 ^ 15 % 2 = 1)
  let ex := hd % 256
  let w := sliceWidth f
  let fld : Nat := sl.zipIdx.foldl (fun a x => a + x.1 * 2 ^ (w - 8 - 8 * x.2)) 0
  let man := fld / 2 ^ (w - 1 - k.manBits) % 2 ^ k.manBits
  if ex = 2 ^ k.expBits - 1 then (if man = 0 then .inf neg else .nan)
  else if ex = 0 then .fin neg 0 0
  else .fin neg fld ((ex : Int) - (k.bias : Int) - ((w : Int) - 1))

/-- The operand element at its places, with the largest code of their lines (R182). -/
def readOperand (c : Core) (g : BitVec 256) (j r k : Nat) : FVal × Nat × BitVec 2 :=
  let ps := gPlaces g j r k
  let code := maxCodes ((placeLines ps).map (codeSeen c))
  let raw := ps.map fun p => bytesSeen c p.at_ p.n
  match raw with
  | [] => (.fin false 0 0, 0, code)
  | x :: t =>
    if gLayout g = 2 then (slicedVal (gFmt g) x t, x, code)
    else
      let bits := if fmtBits (gFmt g) = 4 then x / 2 ^ ((ps.headD ⟨0, 0, 0⟩).bit) % 16 else x
      (operandVal (gFmt g) (gSlices g) bits, bits, code)

/-- The sum G of R70 over products that are finite, as an exact value. -/
def groupG (ps : List FVal) : FVal :=
  let e := ps.foldl (fun (e : Option Int) p => match p with
    | .fin _ m x => if m = 0 then e else match e with
      | none => some (floorLog2 m x)
      | some y => if y < floorLog2 m x then some (floorLog2 m x) else some y
    | _ => e) none
  match e with
  | none => .fin false 0 0
  | some e =>
    let q : Int := ps.foldl (fun q p => match p with
      | .fin neg m x => q + roundToInt .rtz 0 neg m (x + 30 - e)
      | _ => q) 0
    .fin (decide (q < 0)) q.natAbs (e - 30)

/-- The group sum of R70 before it meets the accumulator: a NaN, an infinity, or G. -/
def groupSum (as bs : List FVal) : FVal :=
  let ps := as.zipWith fvMul bs
  if as.any fvIsNan ∨ bs.any fvIsNan ∨ ps.any fvIsNan then .nan
  else
    let pos := ps.any fun p => decide (p = .inf false)
    let neg := ps.any fun p => decide (p = .inf true)
    if pos && neg then .nan
    else if pos then .inf false
    else if neg then .inf true
    else groupG ps

/-- acc := RNE32(acc + G), unchanged for G = 0 (R70). -/
def accAdd (acc : Nat) (g : FVal) : Nat :=
  match g with
  | .nan => f32.nanCode
  | .fin _ 0 _ => acc
  | v => fresult f32 (fvAdd (fdecode f32 acc) v)

/-- R71: acc + Σ p modulo 2^32. -/
def accInt (acc : Nat) (as bs : List FVal) : Nat :=
  let q : Int := (as.zipWith fvMul bs).foldl (fun q p => match p with
    | .fin neg m x => q + (if neg then -((m * 2 ^ x.toNat : Nat) : Int) else ((m * 2 ^ x.toNat : Nat) : Int))
    | _ => q) (acc : Int)
  (q % (2 ^ 32 : Nat)).toNat

/-- R72 for one element: P, then P × b, V := RNE32(P × S), acc := RNE32(acc + V); a block with b = 0 leaves acc unchanged (R185). -/
def accQuant (acc : Nat) (as bs : List FVal) (b : Nat) (sc : FVal) : Nat :=
  if b = 0 then acc
  else match groupSum as bs with
    | .nan => f32.nanCode
    | p => accAdd acc (fdecode f32 (fresult f32 (fvMul (fvMul p (.fin false b 0)) sc)))

/-- What a column of B gives in one repetition: the logical k of its products, their B values, the events, its scale. -/
structure BCol where
  ks : List Nat
  vals : List FVal
  events : List Word
  b : Nat
  sc : FVal
  code : BitVec 2
  deriving DecidableEq, Repr

/-- An event's fields in their places in MXEVT (R182). -/
def eventWord (tile : BitVec 3) (kind rep k col seq : Nat) : Word :=
  BitVec.ofNat 64 (tile.toNat * 8 + kind * 64 + rep % 4096 * 128 + k % 64 * 2 ^ 19 + col % 128 * 2 ^ 25 + seq % 2 ^ 32 * 2 ^ 32)

/-- One element of B with the ZERO policy applied (R182): value, code that spreads, whether it is read as zero. -/
def readB (c : Core) (g : BitVec 256) (tb : BitVec 1) (j k col : Nat) : FVal × BitVec 2 × Bool :=
  let (v, bits, code) := if tb = 1 then readOperand c g j col k else readOperand c g j k col
  let v := if gFormat g = 10 then qnValue bits else v
  if gError g = 1 ∧ code = 3 then (.fin false 0 0, 0, true) else (v, code, false)

/-- Sparsity metadata of a column (R184): its 8 bytes as a number and the code of its line. -/
def sparseMeta (c : Core) (g : BitVec 256) (j col : Nat) : Nat × BitVec 2 :=
  let a := gSparse g + 1024 * j + 8 * col
  (bytesSeen c a 8, codeSeen c (a / 128))

/-- The QN4 scales of a column (R185): b, S and the code of their lines. S keeps a subnormal value: R48's inputs are taken to be stream
elements, as in R70 and R173 (DESIGN CHOICE, log entry 160). -/
def quantMeta (c : Core) (g : BitVec 256) (j col : Nat) : Nat × FVal × BitVec 2 :=
  let a := gScalebase g + col * gScalestride g + 384 * (j / 256)
  (byteSeen c (a + j % 256), fdecode f32 (bytesSeen c (a + 256) 4),
    maxCode (codeSeen c ((a + j % 256) / 128)) (codeSeen c ((a + 256) / 128)))

/-- A column of B in one repetition (R177, R183 to R185). -/
def bColumn (c : Core) (kd : MKind) (o : MmaOp) (e : QEntry) (j col : Nat) : BCol :=
  let g := e.gb
  let zeroEv (k : Nat) (z : Bool) : List Word := if z then [eventWord o.tile 0 j k col e.seq] else []
  match kd with
  | .mma =>
    let l := (List.range 32).map fun k => readB c g o.tb j k col
    ⟨List.range 32, l.map (·.1), (l.zipIdx.flatMap fun x => zeroEv x.2 x.1.2.2), 0, .nan, maxCodes (l.map (·.2.1))⟩
  | .mmaq =>
    let l := (List.range 64).map fun k => readB c g o.tb j k col
    let (b, sc, mc) := quantMeta c g j col
    ⟨List.range 64, l.map (·.1), (l.zipIdx.flatMap fun x => zeroEv x.2 x.1.2.2), b, sc, maxCode mc (maxCodes (l.map (·.2.1)))⟩
  | .mmas =>
    let (z, mc) := sparseMeta c g j col
    let gs := (List.range 16).map fun n =>
      let p0 := z / 2 ^ (4 * n) % 4
      let p1 := z / 2 ^ (4 * n + 2) % 4
      let x := readB c g o.tb j (2 * n) col
      let y := readB c g o.tb j (2 * n + 1) col
      let code := maxCode x.2.1 y.2.1
      if p0 < p1 then
        ([4 * n + p0, 4 * n + p1], [x.1, y.1], zeroEv (4 * n + p0) x.2.2 ++ zeroEv (4 * n + p1) y.2.2, code)
      else (([] : List Nat), ([] : List FVal), [eventWord o.tile 1 j (4 * n) col e.seq], code)
    ⟨gs.flatMap (·.1), gs.flatMap (·.2.1), gs.flatMap (·.2.2.1), 0, .nan, maxCode mc (maxCodes (gs.map (·.2.2.2)))⟩

/-- Is event `a` before event `b` in the order repetition, k, c (R182)? -/
def eventBefore (a b : Word) : Bool :=
  let key (x : Word) : Nat := x.toNat / 128 % 4096 * 2 ^ 16 + x.toNat / 2 ^ 19 % 64 * 128 + x.toNat / 2 ^ 25 % 128
  decide (key a < key b)

/-- The first event of a word and, after it, one event for the other kind: all that R182 records. -/
def keepEvents (l : List Word) : List Word :=
  match l with
  | [] => []
  | x :: t =>
    let first := t.foldl (fun a b => if eventBefore b a then b else a) x
    first :: (match l.find? fun y => decide (y.getLsbD 6 ≠ first.getLsbD 6) with
      | some y => [y]
      | none => [])

/-- Which array word an entry is. -/
def mkindOf (i : Instr) : Option (MKind × MmaOp) :=
  match i with
  | .mma o => some (.mma, o)
  | .mmas o => some (.mmas, o)
  | .mmaq o => some (.mmaq, o)
  | _ => none

/-- The base of an array word (R181): zero, the result of the array word it chains to, or the visible tile. An array word that it chains
to and that has landed has given it the base already. -/
def arrayBase (c : Core) (o : MmaOp) (j : ArrayJob) : Map (BitVec 32) × Map (BitVec 2) :=
  if o.acc = 0 then ([], [])
  else
    match c.mx.jobs.find? fun x => decide (some x.e.seq = j.chain) && decide (x.tile = j.tile) with
    | some u => (u.acc, u.codes)
    | none => let t := getTile c j.tile
      (t.elems, t.codes)

/-- Every line of the A and B footprints of a repetition. -/
def operandLines (g : BitVec 256) (j : Nat) : List Nat :=
  placeLines ((List.range (gRows g)).flatMap fun r => (List.range (gCols g)).flatMap fun k => gPlaces g j r k)

/-- The lines of scales or metadata of a repetition, for the columns of B. -/
def metaLines (k : MKind) (g : BitVec 256) (j n : Nat) : List Nat :=
  match k with
  | .mma => []
  | .mmas => ((List.range n).map fun col => (gSparse g + 1024 * j + 8 * col) / 128).eraseDups
  | .mmaq => ((List.range n).flatMap fun col =>
      let a := gScalebase g + col * gScalestride g + 384 * (j / 256)
      [(a + j % 256) / 128, (a + 256) / 128]).eraseDups

/-- The operand port of a bank serves one line a cycle for T cycles (R180). -/
def portFreeze (c : Core) (row per : Nat) (ls : List Nat) : Core :=
  let worst := (List.range 64).foldl (fun (w : Nat × Nat) b =>
    let k := (ls.filter fun l => decide (bankOf l = b)).length
    if w.1 < k then (k, b) else w) (0, 0)
  if per < worst.1 then { c with stall := c.stall ++ [(2, row, worst.2, worst.1 - per)] } else c

/-- One repetition of an array word (R183 to R185): operands as they stand at the repetition's fc. -/
def arrayRep (c : Core) (cyc : Nat) (kd : MKind) (o : MmaOp) (job : ArrayJob) : Core × ArrayJob :=
  let e := job.e
  let j := job.j
  let (m, _, _, n) := mmaDims o e
  let al := operandLines e.ga j
  let bl := operandLines e.gb j
  let c := touchLines c cyc 17 (al ++ bl)
  let c := touchLines c cyc 4 (metaLines kd e.gb j n)
  let c := portFreeze (portFreeze c 2 job.t al) 3 job.t bl
  let (acc0, code0) := if job.begun then (job.acc, job.codes) else arrayBase c o job
  let rowsA := (List.range m).map fun r => (List.range (kGroup kd)).map fun k =>
    if o.ta = 1 then readOperand c e.ga j k r else readOperand c e.ga j r k
  let cols := (List.range n).map fun col => bColumn c kd o e j col
  let int := (getTile c job.tile).dint
  let acc := rowsA.zipIdx.foldl (fun acc ra => cols.zipIdx.foldl (fun acc cb =>
    let i := if o.edge = 1 then 128 * cb.2 + ra.2 else 128 * ra.2 + cb.2
    let as := cb.1.ks.map fun k => (ra.1.getD k (.nan, 0, 0)).1
    let old := (mapGet 0 acc i).toNat
    let v := match kd with
      | .mmaq => accQuant old as cb.1.vals cb.1.b cb.1.sc
      | _ => if int then accInt old as cb.1.vals else accAdd old (groupSum as cb.1.vals)
    mapSet 0 acc i (BitVec.ofNat 32 v)) acc) acc0
  let bc := maxCodes (cols.map (·.code))
  let ac := rowsA.map fun r => maxCodes (r.map (·.2.2))
  let codes := (List.range (if o.edge = 1 then n else m)).foldl (fun cs r =>
    let a := if o.edge = 1 then maxCodes ac else ac.getD r 0
    mapSet 0 cs r (maxCodes [mapGet 0 cs r, a, bc])) code0
  let ev := keepEvents (job.events ++ cols.flatMap (·.events))
  (countEv c 0x10 1, { job with acc := acc, codes := codes, events := ev, begun := true, j := j + 1 })

/-- The array word whose next repetition is due, if any (R179). -/
def repDue (c : Core) : Option ArrayJob :=
  c.mx.jobs.find? fun j => decide (j.j < j.n) && decide (j.start + j.j * j.t ≤ c.fc)

/-- ARRAY_START (R179 to R185): the repetition that is due reads its operands. A line of another tenant is an OWNER
violation (R225). -/
def execArrayStart (s : State) : Ans :=
  let c := s.me
  match repDue c with
  | none => .next s
  | some job =>
    match mkindOf job.e.i with
    | none => .next s
    | some (kd, o) =>
      let put (c : Core) (x : ArrayJob) : Core :=
        { c with mx := { c.mx with jobs := c.mx.jobs.map fun y => if y.e.seq = x.e.seq then x else y } }
      let (_, _, _, n) := mmaDims o job.e
      let lines := operandLines job.e.ga job.j ++ operandLines job.e.gb job.j ++ metaLines kd job.e.gb job.j n
      if tagsOk c lines then
        let (c, x) := arrayRep c s.cyc kd o job
        .next (s.setCore s.cur (put c x))
      else .next (s.setCore s.cur (put (raise c s.time ⟨causeOwner, true, 0, false, BitVec.ofNat 64 (128 * lines.headD 0), 0, c.seq.pc⟩)
        { job with j := job.j + 1, begun := true }))

/-- The array word whose result is due to land (R179). -/
def visDue (c : Core) : Option ArrayJob :=
  c.mx.jobs.find? fun j => decide (j.n ≤ j.j) && decide (j.start + j.n * j.t + 136 ≤ c.fc)

/-- The matrix events of a word are recorded in MXEVT (R182). -/
def recordEvents (c : Core) (ev : List Word) : Core :=
  match ev with
  | [] => c
  | first :: _ =>
    let kinds : Word := ev.foldl (fun b x => b ||| (if x.getLsbD 6 then 2 else 1)) 0
    let old := c.mx.mxevt
    let set : Word := if old &&& 3#64 = 0 then kinds else kinds ||| 4#64
    let base := if old &&& 3#64 = 0 then (old &&& 7#64) ||| (first &&& ~~~ 7#64) else old
    psumSet { c with mx := { c.mx with mxevt := base ||| set, mxNew := c.mx.mxNew ||| set } } 4

/-- ARRAY_VIS (R179, R182): the result and its row codes land, and the events are recorded. -/
def execArrayVis (s : State) : Ans :=
  let c := s.me
  match visDue c with
  | none => .next s
  | some job =>
    let t := getTile c job.tile
    let c := setTile c job.tile { t with elems := job.acc, codes := job.codes }
    let c := recordEvents (psumRows c job.codes) job.events
    let chained (x : ArrayJob) : Bool := decide (x.chain = some job.e.seq) && decide (x.tile = job.tile) && !x.begun
      && (match mkindOf x.e.i with
        | some (_, o) => decide (o.acc = 1)
        | none => false)
    let c := { c with mx := { c.mx with
      jobs := (c.mx.jobs.filter fun x => x.e.seq ≠ job.e.seq).map fun x =>
        if chained x then { x with begun := true, acc := job.acc, codes := job.codes } else x } }
    let s := s.setCore s.cur c
    .next (if job.events.isEmpty then s else { s with sched := { s.sched with
      launches := match s.sched.launches.find? fun x => decide (x.1 = c.task.launch) with
        | some (k, l) => mapPut s.sched.launches k { l with tainted := true }
        | none => s.sched.launches } })

end Sys2Proof.Machine
end

