-- ==== Sys2Proof/Machine/ScalarFp.lean ====
section
/-! DEFINITION. Scalar FP32 words (04_scalar_registers R116 to R119), over the exact values of Num. -/

namespace Sys2Proof.Machine

/-- The exact value of the FP32 in bits [31:0] (R116). -/
def fpVal (x : Word) : FVal := fdecode f32 (x.toNat % 2 ^ 32)

/-- An FP32 result in sd[31:0], with sd[63:32] zero (R116). -/
def fpRes (v : FVal) : Word := BitVec.ofNat 64 (fresult f32 v)

/-- minimumNumber and maximumNumber (R116): the other operand when one is a NaN, the canonical NaN when both are; −0 lies
below +0. -/
def fvMinMax (isMax : Bool) (a b : FVal) : FVal :=
  match fvIsNan a, fvIsNan b with
  | true, true => .nan
  | true, false => b
  | false, true => a
  | false, false =>
    let c := fvCmp a b
    let aNeg := match a with
      | .fin n _ _ => n
      | .inf n => n
      | .nan => false
    let less := decide (c < 0) || (decide (c = 0) && aNeg)
    if less == isMax then b else a

/-- The comparison conditions of R117: 0 eq, 1 ne, 2 lt, 3 le, 4 gt, 5 ge, 6 un, 7 ord. -/
def fvCond (cond : Nat) (a b : FVal) : Bool :=
  let un := fvIsNan a || fvIsNan b
  let c := fvCmp a b
  match cond with
  | 0 => !un && decide (c = 0)
  | 1 => un || decide (c ≠ 0)
  | 2 => !un && decide (c < 0)
  | 3 => !un && decide (c ≤ 0)
  | 4 => !un && decide (0 < c)
  | 5 => !un && decide (0 ≤ c)
  | 6 => un
  | _ => !un

/-- The class bit of R119. -/
def fclassBit (bits : Nat) : Nat :=
  let neg := decide (2 ^ 31 ≤ bits)
  let mag := bits % 2 ^ 31
  if 0x7F800000 < mag then 8
  else if mag = 0x7F800000 then (if neg then 0 else 7)
  else if mag = 0 then (if neg then 3 else 4)
  else if mag < 2 ^ 23 then (if neg then 2 else 5)
  else (if neg then 1 else 6)

/-- A two-source FP32 word. -/
def fpRRR (f : FVal → FVal → FVal) (lat : Nat) (o : RRR) (s : State) : Ans :=
  writeNext s o.sd (fpRes (f (fpVal (getS s.me o.sa)) (fpVal (getS s.me o.sb)))) lat

def execFadd (o : RRR) (s : State) : Ans := fpRRR fvAdd 3 o s
def execFsub (o : RRR) (s : State) : Ans := fpRRR (fun a b => fvAdd a (fvNeg b)) 3 o s
def execFmul (o : RRR) (s : State) : Ans := fpRRR fvMul 3 o s
def execFfma (o : RRRR) (s : State) : Ans :=
  writeNext s o.sd (fpRes (fvFma (fpVal (getS s.me o.sa)) (fpVal (getS s.me o.sb)) (fpVal (getS s.me o.sc)))) 4
def execFdiv (o : RRR) (s : State) : Ans := fpRRR fvDiv 12 o s
def execFsqrt (o : RR) (s : State) : Ans := writeNext s o.sd (fpRes (fvSqrt (fpVal (getS s.me o.sa)))) 14
def execFmin (o : RRR) (s : State) : Ans := fpRRR (fvMinMax false) 3 o s
def execFmax (o : RRR) (s : State) : Ans := fpRRR (fvMinMax true) 3 o s
def execFcmp (o : FcmpOp) (s : State) : Ans :=
  writeNext s o.sd (boolWord (fvCond o.cond.toNat (fpVal (getS s.me o.sa)) (fpVal (getS s.me o.sb)))) 3
def execFclass (o : RR) (s : State) : Ans :=
  writeNext s o.sd (BitVec.ofNat 64 (2 ^ fclassBit ((getS s.me o.sa).toNat % 2 ^ 32))) 3

/-- FCVT's written value: zero-extended for floating point and UINT8, sign-extended for the other integers (R118). -/
def fcvtExt (f : Fmt) (bits : Nat) : Word :=
  if fmtIsInt f && decide (f ≠ .uint8) then BitVec.ofInt 64 (sintOf (fmtBits f) bits) else BitVec.ofNat 64 bits

/-- FCVT (R118); under SR the draw takes the count of sequencer words executed before it (R51). -/
def execFcvt (o : FcvtOp) (s : State) : Ans :=
  match fmtOfCode o.src.toNat, fmtOfCode o.dst.toNat, rmodeOfCode o.mode.toNat with
  | some src, some dst, some mode =>
    if operandOk (.fcvt o) then
      let c := s.me
      let bits := (getS c o.sa).toNat % 2 ^ fmtBits src
      let r := convElem src dst mode (decide (o.sat = 1)) (srDraw c.sys.rndseed (c.task.words % 2 ^ 32) 0) bits
      writeNext s o.sd (fcvtExt dst r.1) 3
    else illegalAt s 5 (wordOf (.fcvt o))
  | _, _, _ => illegalAt s 3 (wordOf (.fcvt o))

end Sys2Proof.Machine
end

