-- ==== Sys2Proof/Machine/Transcend.lean ====
section
/-! DEFINITION. The correctly rounded functions of 05 R139, as exact-or-sticky values: each answer is either the exact value or
a value of more than 190 significant bits truncated toward zero with a last sticky bit, so that one rounding of it is the
rounding of the exact value (log entry 6). -/

namespace Sys2Proof.Machine

/-- Working precision: fixed-point numbers here have 320 fraction bits. -/
def fxBits : Nat := 320

/-- floor(ln 2 × 2^320). -/
def ln2Fx : Nat :=
  1480553391661173448385607439722553250922680800745876974795605978609098082859138712941075737848984

/-- Product of two fixed-point numbers. -/
def fxMul (a b : Nat) : Nat := a * b / 2 ^ fxBits

/-- Σ y^k ÷ k! from term `t` of index `k` on, over `n` terms. -/
def expTerms (y : Nat) : Nat → Nat → Nat → Nat
  | 0, _, _ => 0
  | n + 1, k, t => t + expTerms y n (k + 1) (fxMul t y / (k + 1))

/-- `n` squarings. -/
def fxSquares : Nat → Nat → Nat
  | 0, x => x
  | n + 1, x => fxSquares n (fxMul x x)

/-- e^y for 0 ≤ y < 1 in fixed point. -/
def fxExp (y : Nat) : Nat := fxSquares 16 (expTerms (y / 2 ^ 16) 24 0 (2 ^ fxBits))

/-- 2^f for 0 ≤ f < 1 in fixed point. -/
def fxExp2 (f : Nat) : Nat := fxExp (fxMul f ln2Fx)

/-- Σ z^(2i+1) ÷ (2i+1), `t` being the power of z at odd index `k`, over `n` terms. -/
def atanhTerms (z2 : Nat) : Nat → Nat → Nat → Nat
  | 0, _, _ => 0
  | n + 1, k, t => t / k + atanhTerms z2 n (k + 2) (fxMul t z2)

/-- log2 of 1 ≤ c < 2, c in fixed point. -/
def fxLog2 (c : Nat) : Nat :=
  let z := (c - 2 ^ fxBits) * 2 ^ fxBits / (c + 2 ^ fxBits)
  2 * atanhTerms (fxMul z z) 110 1 z * 2 ^ fxBits / ln2Fx

/-- 1 ÷ va (R139). -/
def fvRcp (v : FVal) : FVal := fvDiv (.fin false 1 0) v

/-- 1 ÷ √va (R139). -/
def fvRsq : FVal → FVal
  | .nan => .nan
  | .inf neg => if neg then .nan else .fin false 0 0
  | .fin neg m e =>
    if m = 0 then .inf neg
    else if neg then .nan
    else
      let m1 := if e % 2 = 0 then m else 2 * m
      let e1 : Int := if e % 2 = 0 then e else e - 1
      let k := 128 + Nat.log2 m1
      let x := 2 ^ (2 * k) / m1
      let r := natSqrt x
      let st := if r * r * m1 = 2 ^ (2 * k) then 0 else 1
      .fin false (2 * r + st) (-(k : Int) - e1 / 2 - 1)

/-- 2^va (R139): exact for an integer. -/
def fvExp2 : FVal → FVal
  | .nan => .nan
  | .inf neg => if neg then .fin false 0 0 else .inf false
  | .fin neg m e =>
    if m = 0 then .fin false 1 0
    else if 12 ≤ floorLog2 m e then .fin false 1 (if neg then -8192 else 8192)
    else
      -- |va| < 2^12, in fixed point; bits below 2^−320 do not occur in a format of R45
      let a : Nat := if 0 ≤ e + 320 then m * 2 ^ (e + 320).toNat else m / 2 ^ (-(e + 320)).toNat
      let v : Int := if neg then -(a : Int) else (a : Int)
      let n : Int := v / (2 ^ fxBits : Nat)
      let f : Nat := (v % (2 ^ fxBits : Nat)).toNat
      if f = 0 then .fin false 1 n
      else .fin false (2 * fxExp2 f + 1) (n - 321)

/-- log2 va (R139): exact for a power of two. -/
def fvLog2 : FVal → FVal
  | .nan => .nan
  | .inf neg => if neg then .nan else .inf false
  | .fin neg m e =>
    if m = 0 then .inf true
    else if neg then .nan
    else
      let k := Nat.log2 m
      let n : Int := (k : Int) + e
      if m = 2 ^ k then fvOfInt n
      else
        let c := m * 2 ^ fxBits / 2 ^ k
        let v : Int := n * (2 ^ fxBits : Nat) + (fxLog2 c : Int)
        .fin (decide (v < 0)) (2 * v.natAbs + 1) (-321)

/-- tanh va (R139). -/
def fvTanh : FVal → FVal
  | .nan => .nan
  | .inf neg => .fin neg 1 0
  | .fin neg m e =>
    if m = 0 then .fin neg 0 0
    else if floorLog2 m e < -40 then .fin neg (m * 2 ^ 78 - 1) (e - 78)
    else if 7 ≤ floorLog2 m e then .fin neg (2 ^ 100 - 1) (-100)
    else
      -- y = 2|va| ÷ ln 2, so that e^(−2|va|) = 2^(−y)
      let a : Nat := if 0 ≤ e + 321 then m * 2 ^ (e + 321).toNat else m / 2 ^ (-(e + 321)).toNat
      let y := a * 2 ^ fxBits / ln2Fx
      let n := y / 2 ^ fxBits
      let f := y % 2 ^ fxBits
      -- 2^(−y) = 2^(1−f) ÷ 2^(n+1)
      let q := if f = 0 then 2 ^ fxBits / 2 ^ n else fxExp2 (2 ^ fxBits - f) / 2 ^ (n + 1)
      .fin neg (2 * ((2 ^ fxBits - q) * 2 ^ fxBits / (2 ^ fxBits + q)) + 1) (-321)

/-- va × 2^n (R140). -/
def fvScale (n : Int) : FVal → FVal
  | .fin neg m e => .fin neg m (e + n)
  | v => v

end Sys2Proof.Machine
end

