-- ==== Sys2Proof/Machine/Vector.lean ====
section
/-! DEFINITION. The vector words of units 0x5 and 0x6 (05 R138 to R145): lane-wise arithmetic, compares, select and predicate
logic. A word reads its sources in its issue fc and lands at issue + L (R137). -/

namespace Sys2Proof.Machine

/-- Results of the active lanes; an inactive lane is not computed. -/
def mapLanes (f : Nat → Nat → Nat → Nat) : List Bool → List Nat → List Nat → List Nat → List Nat
  | p :: ps, a :: as, b :: bs, d :: ds => (if p then f a b d else 0) :: mapLanes f ps as bs ds
  | _, _, _, _ => []

/-- A lane-wise word of lane width `w` bytes (R133, R138): which of vb and vd it reads as sources, and F. -/
def laneWord (w lat : Nat) (useA useB useD : Bool) (f : Nat → Nat → Nat → Nat) (vd va vb : BitVec 10) (pg : BitVec 4)
    (s : State) : Ans :=
  engineIssue 1 s fun c e =>
    let (c, p) := readP c pg
    let act := laneBits w p.bits
    let m := laneMask w act
    let feed := positionsOf m
    let (c, a) := if useA then readV c va feed else (c, VReg.zero)
    let (c, b) := if useB then readV c vb feed else (c, VReg.zero)
    let (c, d) := if useD then readV c vd feed else (c, VReg.zero)
    let srcs := (if useA then [a.codes] else []) ++ (if useB then [b.codes] else []) ++ (if useD then [d.codes] else [])
    let r := mapLanes f act (lanesOf w a.bits) (lanesOf w b.bits) (lanesOf w d.bits)
    .done (landAt c 1 e lat (.vec vd (ofLanes w r) m 255 (srcCodes p m srcs) true))

/-- The lane types of unit 0x5 (R138). -/
inductive VTy where
  | f32 | bf16 | f16
  deriving DecidableEq, Repr

/-- The format of a lane type. -/
def vtySpec : VTy → FloatSpec
  | .f32 => floatSpec .fp32
  | .bf16 => floatSpec .bf16
  | .f16 => floatSpec .fp16

/-- The lane width of a type in bytes (R129). -/
def vtyBytes : VTy → Nat
  | .f32 => 4
  | _ => 2

/-- One rounding of an exact lane function (R58, R138). -/
def lane3 (t : VTy) (f : FVal → FVal → FVal → FVal) (a b d : Nat) : Nat :=
  let k := vtySpec t
  fresult k (f (fdecode k a) (fdecode k b) (fdecode k d))

/-- A two-source floating-point word. -/
def vfp2 (t : VTy) (lat : Nat) (f : FVal → FVal → FVal) (o : VR3) (s : State) : Ans :=
  laneWord (vtyBytes t) lat true true false (lane3 t fun a b _ => f a b) o.vd o.va o.vb o.pg s

/-- A fused word: the destination is the third source. -/
def vfp3 (t : VTy) (f : FVal → FVal → FVal → FVal) (o : VR3) (s : State) : Ans :=
  laneWord (vtyBytes t) 5 true true true (lane3 t f) o.vd o.va o.vb o.pg s

/-- A one-source floating-point word. -/
def vfp1 (t : VTy) (lat : Nat) (f : FVal → FVal) (o : VR2) (s : State) : Ans :=
  laneWord (vtyBytes t) lat true false false (lane3 t fun a _ _ => f a) o.vd o.va 0 o.pg s

/-- |va| (R138). -/
def fvAbs : FVal → FVal
  | .nan => .nan
  | .inf _ => .inf false
  | .fin _ m e => .fin false m e

/-- va − vb. -/
def fvSub (a b : FVal) : FVal := fvAdd a (fvNeg b)

/-- va × vb − vd and −(va × vb) + vd (R138). -/
def fvFms (a b d : FVal) : FVal := fvAdd (fvMul a b) (fvNeg d)
def fvFnma (a b d : FVal) : FVal := fvAdd (fvNeg (fvMul a b)) d

def execVaddF32 (o : VR3) (s : State) : Ans := vfp2 .f32 3 fvAdd o s
def execVaddBf16 (o : VR3) (s : State) : Ans := vfp2 .bf16 3 fvAdd o s
def execVaddF16 (o : VR3) (s : State) : Ans := vfp2 .f16 3 fvAdd o s
def execVsubF32 (o : VR3) (s : State) : Ans := vfp2 .f32 3 fvSub o s
def execVsubBf16 (o : VR3) (s : State) : Ans := vfp2 .bf16 3 fvSub o s
def execVsubF16 (o : VR3) (s : State) : Ans := vfp2 .f16 3 fvSub o s
def execVmulF32 (o : VR3) (s : State) : Ans := vfp2 .f32 4 fvMul o s
def execVmulBf16 (o : VR3) (s : State) : Ans := vfp2 .bf16 4 fvMul o s
def execVmulF16 (o : VR3) (s : State) : Ans := vfp2 .f16 4 fvMul o s
def execVfmaF32 (o : VR3) (s : State) : Ans := vfp3 .f32 fvFma o s
def execVfmaBf16 (o : VR3) (s : State) : Ans := vfp3 .bf16 fvFma o s
def execVfmaF16 (o : VR3) (s : State) : Ans := vfp3 .f16 fvFma o s
def execVfmsF32 (o : VR3) (s : State) : Ans := vfp3 .f32 fvFms o s
def execVfmsBf16 (o : VR3) (s : State) : Ans := vfp3 .bf16 fvFms o s
def execVfmsF16 (o : VR3) (s : State) : Ans := vfp3 .f16 fvFms o s
def execVfnmaF32 (o : VR3) (s : State) : Ans := vfp3 .f32 fvFnma o s
def execVfnmaBf16 (o : VR3) (s : State) : Ans := vfp3 .bf16 fvFnma o s
def execVfnmaF16 (o : VR3) (s : State) : Ans := vfp3 .f16 fvFnma o s
def execVmaxF32 (o : VR3) (s : State) : Ans := vfp2 .f32 3 (fvMinMax true) o s
def execVmaxBf16 (o : VR3) (s : State) : Ans := vfp2 .bf16 3 (fvMinMax true) o s
def execVmaxF16 (o : VR3) (s : State) : Ans := vfp2 .f16 3 (fvMinMax true) o s
def execVminF32 (o : VR3) (s : State) : Ans := vfp2 .f32 3 (fvMinMax false) o s
def execVminBf16 (o : VR3) (s : State) : Ans := vfp2 .bf16 3 (fvMinMax false) o s
def execVminF16 (o : VR3) (s : State) : Ans := vfp2 .f16 3 (fvMinMax false) o s
def execVabsF32 (o : VR2) (s : State) : Ans := vfp1 .f32 3 fvAbs o s
def execVabsBf16 (o : VR2) (s : State) : Ans := vfp1 .bf16 3 fvAbs o s
def execVabsF16 (o : VR2) (s : State) : Ans := vfp1 .f16 3 fvAbs o s
def execVnegF32 (o : VR2) (s : State) : Ans := vfp1 .f32 3 fvNeg o s
def execVnegBf16 (o : VR2) (s : State) : Ans := vfp1 .bf16 3 fvNeg o s
def execVnegF16 (o : VR2) (s : State) : Ans := vfp1 .f16 3 fvNeg o s

/-- VRCP, VRSQ, VSQRT, VEXP2, VLOG2, VTANH: correctly rounded (R139). -/
def execVrcpF32 (o : VR2) (s : State) : Ans := vfp1 .f32 12 fvRcp o s
def execVrcpBf16 (o : VR2) (s : State) : Ans := vfp1 .bf16 12 fvRcp o s
def execVrcpF16 (o : VR2) (s : State) : Ans := vfp1 .f16 12 fvRcp o s
def execVrsqF32 (o : VR2) (s : State) : Ans := vfp1 .f32 12 fvRsq o s
def execVrsqBf16 (o : VR2) (s : State) : Ans := vfp1 .bf16 12 fvRsq o s
def execVrsqF16 (o : VR2) (s : State) : Ans := vfp1 .f16 12 fvRsq o s
def execVsqrtF32 (o : VR2) (s : State) : Ans := vfp1 .f32 12 fvSqrt o s
def execVsqrtBf16 (o : VR2) (s : State) : Ans := vfp1 .bf16 12 fvSqrt o s
def execVsqrtF16 (o : VR2) (s : State) : Ans := vfp1 .f16 12 fvSqrt o s
def execVexp2F32 (o : VR2) (s : State) : Ans := vfp1 .f32 12 fvExp2 o s
def execVexp2Bf16 (o : VR2) (s : State) : Ans := vfp1 .bf16 12 fvExp2 o s
def execVexp2F16 (o : VR2) (s : State) : Ans := vfp1 .f16 12 fvExp2 o s
def execVlog2F32 (o : VR2) (s : State) : Ans := vfp1 .f32 12 fvLog2 o s
def execVlog2Bf16 (o : VR2) (s : State) : Ans := vfp1 .bf16 12 fvLog2 o s
def execVlog2F16 (o : VR2) (s : State) : Ans := vfp1 .f16 12 fvLog2 o s
def execVtanhF32 (o : VR2) (s : State) : Ans := vfp1 .f32 12 fvTanh o s
def execVtanhBf16 (o : VR2) (s : State) : Ans := vfp1 .bf16 12 fvTanh o s
def execVtanhF16 (o : VR2) (s : State) : Ans := vfp1 .f16 12 fvTanh o s

/-- VSCALE (R140): n is the vb lane as a signed integer; a count beyond ±1024 gives what ±1024 gives. -/
def vscaleWord (t : VTy) (o : VR3) (s : State) : Ans :=
  let k := vtySpec t
  laneWord (vtyBytes t) 3 true true false
    (fun a b _ => fresult k (fvScale (clampInt (-1024) 1024 (sintOf (8 * vtyBytes t) b)) (fdecode k a))) o.vd o.va o.vb o.pg s

def execVscaleF32 (o : VR3) (s : State) : Ans := vscaleWord .f32 o s
def execVscaleBf16 (o : VR3) (s : State) : Ans := vscaleWord .bf16 o s
def execVscaleF16 (o : VR3) (s : State) : Ans := vscaleWord .f16 o s

/-- An integer or logic word on 32-bit lanes (R141). -/
def vint2 (f : BitVec 32 → BitVec 32 → BitVec 32) (o : VR3) (s : State) : Ans :=
  laneWord 4 2 true true false (fun a b _ => (f (BitVec.ofNat 32 a) (BitVec.ofNat 32 b)).toNat) o.vd o.va o.vb o.pg s

def execViadd (o : VR3) (s : State) : Ans := vint2 (· + ·) o s
def execVisub (o : VR3) (s : State) : Ans := vint2 (· - ·) o s
def execVimul (o : VR3) (s : State) : Ans := vint2 (· * ·) o s
def execVimin (o : VR3) (s : State) : Ans := vint2 (fun a b => if a.toInt < b.toInt then a else b) o s
def execVimax (o : VR3) (s : State) : Ans := vint2 (fun a b => if a.toInt < b.toInt then b else a) o s
def execVand (o : VR3) (s : State) : Ans := vint2 (· &&& ·) o s
def execVor (o : VR3) (s : State) : Ans := vint2 (· ||| ·) o s

/-- VXOR (R141): a register with itself under p0 clears it, and its codes are CLEAN: the word has no source whose value it depends on
(log entry 158). -/
def execVxor (o : VR3) (s : State) : Ans :=
  if o.pg = 0 ∧ o.vd = o.va ∧ o.va = o.vb then laneWord 4 2 false false false (fun _ _ _ => 0) o.vd o.va o.vb o.pg s
  else vint2 (· ^^^ ·) o s

def execVshl (o : VR3) (s : State) : Ans := vint2 (fun a b => a <<< (b.toNat % 32)) o s
def execVshr (o : VR3) (s : State) : Ans := vint2 (fun a b => a >>> (b.toNat % 32)) o s
def execVsar (o : VR3) (s : State) : Ans := vint2 (fun a b => a.sshiftRight (b.toNat % 32)) o s

/-- Lane numbers under a mask. -/
def iotaLanes : Nat → List Bool → List Nat
  | _, [] => []
  | i, p :: t => (if p then i else 0) :: iotaLanes (i + 1) t

/-- VIOTA (R142): no sources. -/
def execViota (o : VR1) (s : State) : Ans :=
  engineIssue 1 s fun c e =>
    let (c, p) := readP c o.pg
    let act := laneBits 4 p.bits
    let m := laneMask 4 act
    .done (landAt c 1 e 2 (.vec o.vd (ofLanes 4 (iotaLanes 0 act)) m 255 (srcCodes p m []) true))

/-- A compare of lanes `w` bytes wide into a predicate (R132, R143). -/
def vcmpWord (w : Nat) (f : Nat → Nat → Bool) (o : VCmpOp) (s : State) : Ans :=
  engineIssue 1 s fun c e =>
    let (c, p) := readP c o.pg
    let act := laneBits w p.bits
    let m := laneMask w act
    let (c, a) := readV c o.va (positionsOf m)
    let (c, b) := readV c o.vb (positionsOf m)
    let r := mapLanes (fun x y _ => if f x y then 1 else 0) act (lanesOf w a.bits) (lanesOf w b.bits) (lanesOf w a.bits)
    .done (landAt c 1 e 2 (.pred o.pd (laneMask w (r.map fun x => x = 1)) m 255 (srcCodes p m [a.codes, b.codes])))

/-- VCMP conditions (R143), as FCMP's (R117). -/
def vcmpFp (t : VTy) (o : VCmpOp) (s : State) : Ans :=
  vcmpWord (vtyBytes t) (fun a b => fvCond o.cond.toNat (fdecode (vtySpec t) a) (fdecode (vtySpec t) b)) o s

def execVcmpF32 (o : VCmpOp) (s : State) : Ans := vcmpFp .f32 o s
def execVcmpBf16 (o : VCmpOp) (s : State) : Ans := vcmpFp .bf16 o s
def execVcmpF16 (o : VCmpOp) (s : State) : Ans := vcmpFp .f16 o s

/-- VICMP conditions (R143). -/
def icmpCond (cond : Nat) (a b : Nat) : Bool :=
  let x := sintOf 32 a
  let y := sintOf 32 b
  match cond with
  | 0 => decide (a = b)
  | 1 => decide (a ≠ b)
  | 2 => decide (x < y)
  | 3 => decide (x ≤ y)
  | 4 => decide (y < x)
  | 5 => decide (y ≤ x)
  | 8 => decide (a < b)
  | 9 => decide (a ≤ b)
  | 10 => decide (b < a)
  | _ => decide (b ≤ a)

def execVicmp (o : VCmpOp) (s : State) : Ans := vcmpWord 4 (icmpCond o.cond.toNat) o s

/-- VSEL (R144): every byte is written; the old codes play no part. -/
def execVsel (o : VR3) (s : State) : Ans :=
  engineIssue 1 s fun c e =>
    let (c, p) := readP c o.pg
    let (c, a) := readV c o.va (positionsOf p.bits)
    let (c, b) := readV c o.vb (positionsOf (~~~ p.bits))
    let codes := codesBy fun j => maxCodes [codeAt p.codes j,
      if activeSegs p.bits j then codeAt a.codes j else 0, if activeSegs (~~~ p.bits) j then codeAt b.codes j else 0]
    .done (landAt c 1 e 2 (.vec o.vd (mergeBytes 1024 p.bits b.bits a.bits) (BitVec.allOnes 1024) 255 codes false))

/-- The predicate functions of R145. -/
def plogBits (func : Nat) (a b : BitVec 1024) : BitVec 1024 :=
  match func with
  | 0 => a &&& b
  | 1 => a ||| b
  | 2 => a ^^^ b
  | 3 => a &&& ~~~ b
  | 4 => a ||| ~~~ b
  | 5 => ~~~ (a &&& b)
  | 6 => ~~~ (a ||| b)
  | 7 => ~~~ (a ^^^ b)
  | 8 => a
  | 9 => ~~~ a
  | 10 => BitVec.allOnes 1024
  | _ => 0

/-- VPLOG (R145): codes of the sources that the function names. -/
def execVplog (o : VplogOp) (s : State) : Ans :=
  engineIssue 1 s fun c e =>
    let f := o.func.toNat
    let (c, a) := if f ≤ 9 then readP c o.pa else (c, PReg.zero)
    let (c, b) := if f ≤ 7 then readP c o.pb else (c, PReg.zero)
    let codes := codesBy fun j => maxCode (codeAt a.codes j) (codeAt b.codes j)
    .done (landAt c 1 e 2 (.pred o.pd (plogBits f a.bits b.bits) (BitVec.allOnes 1024) 255 codes))

end Sys2Proof.Machine
end

