-- ==== Sys2Proof/Machine/VectorMotion.lean ====
section
/-! DEFINITION. The vector words of unit 0x7 (06 R147 to R168): movement, scratchpad access, conversion, QN4 and XSUM, segment
reductions, poison codes and clamping. -/

namespace Sys2Proof.Machine

/-- The lane width of a width code: 4, 2 or 1 bytes (R148). -/
def widthOf (w : BitVec 2) : Nat := 4 / 2 ^ w.toNat

/-- Destination codes from a code for every lane of width `w` (R149): P's code, raised by those of the active lanes. -/
def laneCodes (w : Nat) (p : PReg) (act : List Bool) (ks : List (BitVec 2)) : BitVec 16 :=
  let n := 128 / w
  let l := act.zip ks
  codesBy fun j => maxCode (codeAt p.codes j)
    (maxCodes (((l.drop (n * j)).take n).map fun x => if x.1 then x.2 else 0))

/-- The single segment that holds a byte. -/
def segBit (byte : Nat) : BitVec 8 := 1#8 <<< (byte / 128)

/-- The byte mask of the listed lanes. -/
def laneSet (w : Nat) (ls : List Nat) : BitVec 1024 :=
  ls.foldl (fun m i => m ||| (BitVec.ofNat 1024 (2 ^ w - 1) <<< (w * i))) 0

/-- VMOV (R153): governed byte by byte. -/
def execVmov (o : VR2) (s : State) : Ans :=
  engineIssue 1 s fun c e =>
    let (c, p) := readP c o.pg
    let (c, a) := readV c o.va (positionsOf p.bits)
    .done (landAt c 1 e 2 (.vec o.vd a.bits p.bits 255 (srcCodes p p.bits [a.codes]) true))

/-- VBCAST (R154). -/
def execVbcast (o : VbcastOp) (s : State) : Ans :=
  engineIssue 1 s fun c e =>
    let w := widthOf o.w
    let (c, p) := readP c o.pg
    let m := laneMask w (laneBits w p.bits)
    let x := (cap e 0).toNat % 2 ^ (8 * w)
    .done (landAt c 1 e 4 (.vec o.vd (ofLanes w (List.replicate (1024 / w) x)) m 255 (srcCodes p m []) true))

/-- VINS (R154): it can write one lane, so its range is that lane's segment (DEDUCED). -/
def execVins (o : VbcastOp) (s : State) : Ans :=
  engineIssue 1 s fun c e =>
    let w := widthOf o.w
    let (c, p) := readP c o.pg
    let i := (cap e 1).toNat % (1024 / w)
    let m := if p.bits.getLsbD (w * i) then laneSet w [i] else 0
    let x : BitVec 8192 := BitVec.ofNat 8192 ((cap e 0).toNat % 2 ^ (8 * w)) <<< (8 * w * i)
    .done (landAt c 1 e 4 (.vec o.vd x m (segBit (w * i)) (srcCodes p m []) true))

/-- VEXTR (R154): no code travels with the value (R149). -/
def execVextr (o : VextrOp) (s : State) : Ans :=
  engineIssue 1 s fun c e =>
    let w := widthOf o.w
    let i := (cap e 0).toNat % (1024 / w)
    let (c, a) := readV c o.va (positionsOf (laneSet w [i]))
    let x : Word := BitVec.ofNat 64 (a.bits.toNat / 2 ^ (8 * w * i) % 2 ^ (8 * w))
    .done (landAt c 1 e 4 (.scal o.sd (if o.sx = 1 then sextN x (8 * w) else zextN x (8 * w))))

/-- Pick lanes by number; 0 where the lane is not active. -/
def pickLanes (src : List Nat) (act : List Bool) (sel : List Nat) : List Nat :=
  (act.zip sel).map fun x => if x.1 then src.getD x.2 0 else 0

/-- Lanes of the list that are active. -/
def activeOf (act : List Bool) (sel : List Nat) : List Nat := (act.zip sel).filterMap fun x => if x.1 then some x.2 else none

/-- VPERM (R155): table va, index vb. -/
def execVperm (o : VR3) (s : State) : Ans :=
  engineIssue 1 s fun c e =>
    let (c, p) := readP c o.pg
    let act := laneBits 4 p.bits
    let m := laneMask 4 act
    let (c, b) := readV c o.vb (positionsOf m)
    let sel := (lanesOf 4 b.bits).map (· % 256)
    let (c, a) := readV c o.va (positionsOf (laneSet 4 (activeOf act sel)))
    let r := pickLanes (lanesOf 4 a.bits) act sel
    let ks := sel.zipIdx.map fun x => maxCode (codeAt b.codes (x.2 / 32)) (codeAt a.codes (x.1 / 32))
    .done (landAt c 1 e 4 (.vec o.vd (ofLanes 4 r) m 255 (laneCodes 4 p act ks) true))

/-- VSHUF (R155): table va followed by vb, index in the old vd. -/
def execVshuf (o : VR3) (s : State) : Ans :=
  engineIssue 1 s fun c e =>
    let (c, p) := readP c o.pg
    let act := laneBits 4 p.bits
    let m := laneMask 4 act
    let (c, d) := readV c o.vd (positionsOf m)
    let sel := (lanesOf 4 d.bits).map (· % 512)
    let used := activeOf act sel
    let (c, a) := readV c o.va (positionsOf (laneSet 4 (used.filter (· < 256))))
    let (c, b) := readV c o.vb (positionsOf (laneSet 4 ((used.filter (256 ≤ ·)).map (· - 256))))
    let r := pickLanes (lanesOf 4 a.bits ++ lanesOf 4 b.bits) act sel
    let ks := sel.zipIdx.map fun x => maxCode (codeAt d.codes (x.2 / 32))
      (if x.1 < 256 then codeAt a.codes (x.1 / 32) else codeAt b.codes ((x.1 - 256) / 32))
    .done (landAt c 1 e 4 (.vec o.vd (ofLanes 4 r) m 255 (laneCodes 4 p act ks) true))

/-- VROTL (R155). -/
def execVrotl (o : VrotlOp) (s : State) : Ans :=
  engineIssue 1 s fun c e =>
    let w := widthOf o.w
    let l := 1024 / w
    let n := (cap e 0).toNat % l
    let (c, p) := readP c o.pg
    let act := laneBits w p.bits
    let m := laneMask w act
    let sel := (List.range l).map fun i => (i + n) % l
    let (c, a) := readV c o.va (positionsOf (laneSet w (activeOf act sel)))
    let src := lanesOf w a.bits
    let r := mapLanes (fun x _ _ => x) act (src.drop n ++ src.take n) src src
    let ks := sel.map fun i => codeAt a.codes (w * i / 128)
    .done (landAt c 1 e 4 (.vec o.vd (ofLanes w r) m 255 (laneCodes w p act ks) true))

/-- The first byte addresses of the eight lines of VLD and VST (R156), VLDS and VSTS (R157). -/
def vldAddrs (e : QEntry) (k : Nat) : List Nat :=
  (List.range 8).map fun j => ((cap e 0).toNat + 1024 * k + 128 * j) % 2 ^ 64
def vldsAddrs (e : QEntry) : List Nat :=
  (List.range 8).map fun j => (cap e 0 + BitVec.ofNat 64 j * cap e 1).toNat

/-- VLD (R156): the lines are read at issue + 3 and land at issue + 8. -/
def execVld (o : VldOp) (s : State) : Ans :=
  engineIssue 1 s fun c e =>
    let (c, p) := readP c o.pg
    .done (landAt c 1 e 3 (.loadLines o.vd (vldAddrs e o.k.toNat) p.bits p.codes))

/-- VLDS (R157). -/
def execVlds (o : VldsOp) (s : State) : Ans :=
  engineIssue 1 s fun c e =>
    let (c, p) := readP c o.pg
    .done (landAt c 1 e 3 (.loadLines o.vd (vldsAddrs e) p.bits p.codes))

/-- The line writes of a whole-register store: segment j to line j; a line with no active byte takes P's code (R149). -/
def storeSegs (addrs : List Nat) (p : PReg) (d : VReg) : List LineWrite :=
  addrs.zipIdx.map fun x => ⟨x.1 / 128, d.bits.extractLsb' (1024 * x.2) 1024, segMask p.bits x.2,
    codeAt (srcCodes p p.bits [d.codes]) x.2, 0⟩

/-- VST (R156): vd and its codes are read at issue, the lines written at issue + 3. -/
def execVst (o : VldOp) (s : State) : Ans :=
  engineIssue 1 s fun c e =>
    let (c, p) := readP c o.pg
    let (c, d) := readV c o.vd (positionsOf p.bits)
    .done (landAt c 1 e 3 (.lines 6 (storeSegs (vldAddrs e o.k.toNat) p d)))

/-- VSTS (R157). -/
def execVsts (o : VldsOp) (s : State) : Ans :=
  engineIssue 1 s fun c e =>
    let (c, p) := readP c o.pg
    let (c, d) := readV c o.vd (positionsOf p.bits)
    .done (landAt c 1 e 3 (.lines 6 (storeSegs (vldsAddrs e) p d)))

/-- The lane addresses of R158. -/
def laneAddrs (base : Word) (a : BitVec 8192) : List Nat :=
  (lanesOf 4 a).map fun x => (base + sextN (BitVec.ofNat 64 x) 32).toNat

/-- The first failing active lane of R152: cause, TRAPINFO0 and the lane. -/
def laneFault : Nat → List Bool → List Nat → Option (Nat × Nat × Nat)
  | i, p :: ps, a :: as =>
    if p then
      if spadSize < a + 4 then some (causeRange, if a < spadSize then spadSize else a, i)
      else if a % 4 ≠ 0 then some (causeAlign, a, i)
      else laneFault (i + 1) ps as
    else laneFault (i + 1) ps as
  | _, _, _ => none

/-- Issue of a gather, scatter or atomic: the lane addresses are checked (R152). -/
def laneIssue (kind : Nat) (o : BitVec 10) (pg : BitVec 4) (s : State)
    (f : Core → QEntry → PReg → List Bool → VReg → List Nat → Core) : Ans :=
  engineIssue 1 s fun c e =>
    let (c, p) := readP c pg
    let act := laneBits 4 p.bits
    let (c, a) := readV c o (positionsOf (laneMask 4 act))
    let addrs := laneAddrs (cap e 0) a.bits
    match laneFault 0 act addrs with
    | some (k, i0, i) => .trap k (BitVec.ofNat 64 i0) (BitVec.ofNat 64 (i + kind * 2 ^ 32))
    | none => .done (f c e p act a addrs)

/-- VGATHER (R158): the lines are read at issue + 3. -/
def execVgather (o : VgatherOp) (s : State) : Ans :=
  laneIssue 1 o.va o.pg s fun c e p act a addrs =>
    landAt c 1 e 3 (.gather o.vd addrs (laneMask 4 act) p.codes (srcCodes ⟨0, 0⟩ (laneMask 4 act) [a.codes]))

/-- VSCATTER (R158): lanes in ascending order, the higher lane's value stored; a line takes the codes of the predicate segments of the
lanes that write it (log entry 143). -/
def execVscatter (o : VgatherOp) (s : State) : Ans :=
  laneIssue 2 o.va o.pg s fun c e p act a addrs =>
    let (c, d) := readV c o.vd (positionsOf (laneMask 4 act))
    let ws := (((lanesOf 4 d.bits).zip (act.zip addrs)).zipIdx.filterMap fun x =>
      let ((v, on, ad), i) := x
      let w : LineWrite := ⟨ad / 128, BitVec.ofNat 1024 v <<< (8 * (ad % 128)), 15#128 <<< (ad % 128),
        maxCodes [codeAt p.codes (i / 32), codeAt a.codes (i / 32), codeAt d.codes (i / 32)], 0⟩
      if on then some w else none)
    landAt c 1 e 3 (.lines 6 ws)

/-- VATOM (R159): the slot reads at issue + 3 and writes at issue + 5. -/
def execVatom (o : VatomOp) (s : State) : Ans :=
  laneIssue 3 o.va o.pg s fun c e p act a addrs =>
    let m := laneMask 4 act
    let (c, d) := readV c o.vd (positionsOf m)
    landAt c 1 e 3 (.atom o.vd o.op addrs d.bits m p.codes (srcCodes ⟨0, 0⟩ m [a.codes]) (srcCodes ⟨0, 0⟩ m [d.codes]))

/-- The operations of VATOM and of the hub atomics on 32 bits (R159). -/
def atomOp32 (op : Nat) (old x : Nat) : Nat :=
  let a : BitVec 32 := BitVec.ofNat 32 old
  let b : BitVec 32 := BitVec.ofNat 32 x
  match op with
  | 0 => (a + b).toNat
  | 1 => fresult f32 (fvAdd (fdecode f32 a.toNat) (fdecode f32 b.toNat))
  | 2 => (if a.toInt < b.toInt then b else a).toNat
  | 3 => (if a.toInt < b.toInt then a else b).toNat
  | 4 => (if a.toNat < b.toNat then b else a).toNat
  | 5 => (if a.toNat < b.toNat then a else b).toNat
  | 6 => (a &&& b).toNat
  | 7 => (a ||| b).toNat
  | 8 => (a ^^^ b).toNat
  | _ => b.toNat

/-- Does a conversion of this element count under MARK (R160)? -/
def cvtMarks (src dst : Fmt) (bits res : Nat) (out : Bool) : Bool :=
  if fmtIsFloat src then
    match fdecode (floatSpec src) bits with
    | .nan => !fmtIsFloat dst
    | .inf neg =>
      if fmtIsFloat dst then
        match fdecode (floatSpec dst) res with
        | .inf n => n != neg
        | _ => true
      else true
    | .fin .. => out
  else out

/-- Lane counts of a format in one register (R160). -/
def laneCount (f : Fmt) : Nat := 8192 / fmtBits f

/-- The fields of VCVT's descriptor (R160): destination, source, mode, SAT. -/
def cvtDst (d : Word) : Fmt := (fmtOfCode (d.toNat % 64)).getD .fp32
def cvtSrc (d : Word) : Fmt := (fmtOfCode (d.toNat / 2 ^ 6 % 64)).getD .fp32
def cvtMode (d : Word) : RMode := (rmodeOfCode (d.toNat / 2 ^ 12 % 8)).getD .rne
def cvtSat (d : Word) : Bool := d.getLsbD 15

/-- One converted lane: destination lane, source lane, bits, whether it is written, its mark. -/
structure CvtLane where
  dst : Nat
  src : Nat
  bits : Nat
  on : Bool
  mark : Bool
  deriving DecidableEq, Repr

/-- The converted lanes of VCVT (R160), in the order of destination lanes `first` on. -/
def cvtLanes (src dst : Fmt) (mode : RMode) (sat : Bool) (seed : Word) (seq : Nat) (p : BitVec 1024) (first s0 n : Nat)
    (xs : List Nat) : List CvtLane :=
  ((xs.drop s0).take n).zipIdx.map fun x =>
    let j := first + x.2
    let on := p.getLsbD (j * fmtBits dst / 8)
    if on then
      let r := convElem src dst mode sat (srDraw seed seq j) x.1
      ⟨j, s0 + x.2, r.1, true, cvtMarks src dst x.1 r.1 r.2⟩
    else ⟨j, s0 + x.2, 0, false, false⟩

/-- VCVT (R160). -/
def execVcvt (o : VcvtOp) (s : State) : Ans :=
  engineIssue 1 s fun c e =>
    let d := cap e 0
    let df := cvtDst d
    let sf := cvtSrc d
    let q := o.q.toNat
    let ls := laneCount sf
    let ld := laneCount df
    let n := if ld < ls then ld else ls
    let first := if ld < ls then 0 else q * ls
    let s0 := if ld < ls then q * ld else 0
    let db := fmtBits df
    let sb := fmtBits sf
    let (c, p) := readP c o.pg
    -- the destination bytes, those written, and the source positions that feed them
    let lo := first * db / 8
    let len := n * db / 8
    let range : BitVec 1024 := (BitVec.ofNat 1024 (2 ^ len - 1)) <<< lo
    let lane (i : Nat) : Nat := (first + i) * db / 8
    let on := (List.range n).filter fun i => p.bits.getLsbD (lane i)
    let mask := on.foldl (fun m i => m ||| (BitVec.ofNat 1024 (2 ^ ((db + 7) / 8) - 1) <<< lane i)) 0 &&& range
    let feed := on.foldl (fun m i => m ||| (1#256 <<< ((s0 + i) * sb / 32))) (0 : BitVec 256)
    let (c, a) := readV c o.va feed
    let r := cvtLanes sf df (cvtMode d) (cvtSat d) e.sysv e.seq p.bits first s0 n (splitNat sb ls a.bits.toNat)
    let data : BitVec 8192 := (BitVec.ofNat 8192 (joinNat db (r.map (·.bits)))) <<< (first * db)
    let codes := codesBy fun j => maxCode (codeAt p.codes j) (maxCodes (r.map fun l =>
      if l.on ∧ l.dst * db / 1024 = j then
        maxCode (codeAt a.codes (l.src * sb / 1024)) (if o.mark = 1 ∧ l.mark then 2 else 0)
      else 0))
    let segs : BitVec 8 := BitVec.ofNat 8 (joinNat 1 ((List.range 8).map fun j => if segMask range j = 0 then 0 else 1))
    .done (landAt c 1 e 4 (.vec o.vd data mask segs codes true))

/-- max |x| over the finite x of some FP32 lanes (R61), and whether one is not finite. -/
def maxFinite : List Nat → FVal × Bool
  | [] => (.fin false 0 0, false)
  | b :: t =>
    let r := maxFinite t
    match fdecode f32 b with
    | .fin _ m e => (if fvCmp r.1 (.fin false m e) < 0 then .fin false m e else r.1, r.2)
    | _ => (r.1, true)

/-- ceil(m ÷ S) held at 255 (R61). -/
def quantScale (m s : FVal) : Nat :=
  match m, s with
  | .fin _ a ea, .fin _ b eb =>
    if b = 0 then 0
    else
      let q : Int := if ea < eb then ea else eb
      let r := ceilDiv (a * 2 ^ (ea - q).toNat) (b * 2 ^ (eb - q).toNat)
      if 255 < r then 255 else r
  | _, _ => 0

/-- The index of R61: |x ÷ (b × S) − L[i]| least, compared exactly as |64 x − 64 L[i] × b × S|; a tie takes the even index. -/
def quantIndex (x s : FVal) (b : Nat) : Nat :=
  match x, s with
  | .fin nx mx ex, .fin _ ms es =>
    let q : Int := if ex < es then ex else es
    let xv : Int := fvScaled nx (64 * mx) ex q
    let sv : Int := fvScaled false (b * ms) es q
    let dist (i : Nat) : Nat := (xv - qnLevel i * sv).natAbs
    (List.range 16).foldl (fun best i =>
      if dist i < dist best ∨ (dist i = dist best ∧ i % 2 = 0 ∧ best % 2 = 1) then i else best) 0
  | _, _ => 7

/-- The four blocks of VQUANT: lanes, b, and the word's bound mark (R161). -/
def quantBlocks (a : BitVec 8192) (s : FVal) : List (List Nat × Nat) :=
  (List.range 4).map fun n =>
    let l := ((lanesOf 4 a).drop (64 * n)).take 64
    (l, quantScale (maxFinite l).1 s)

/-- The scale S and the position p of VQUANT's descriptor (R161). -/
def quantS (d : Word) : FVal := fdecode f32 (d.toNat % 2 ^ 32)
def quantP (d : Word) : Nat := d.toNat / 2 ^ 32 % 64

/-- The codes of VQUANT's one destination segment (R161): every segment of va, and BOUND for a lane that is not finite. -/
def quantCodes (a : VReg) (j : Nat) : BitVec 16 :=
  codesBy fun k => if k = j then
    maxCode (maxCodes ((List.range 8).map (codeAt a.codes))) (if (maxFinite (lanesOf 4 a.bits)).2 then 2 else 0) else 0

/-- VQUANT.IDX (R161). -/
def execVquantIdx (o : VquantOp) (s : State) : Ans :=
  engineIssue 1 s fun c e =>
    let d := cap e 0
    let j := quantP d % 8
    let (c, a) := readV c o.va (BitVec.allOnes 256)
    let idx := (quantBlocks a.bits (quantS d)).flatMap fun x =>
      x.1.map fun v => match fdecode f32 v with
        | .fin n m ee => if x.2 = 0 then 7 else quantIndex (.fin n m ee) (quantS d) x.2
        | _ => 7
    let data : BitVec 8192 := (BitVec.ofNat 8192 (joinNat 4 idx)) <<< (1024 * j)
    let mask : BitVec 1024 := ((BitVec.allOnes 128).setWidth 1024) <<< (128 * j)
    .done (landAt c 1 e 8 (.vec o.vd data mask (1#8 <<< j) (quantCodes a j) true))

/-- VQUANT.SCL (R161). -/
def execVquantScl (o : VquantOp) (s : State) : Ans :=
  engineIssue 1 s fun c e =>
    let d := cap e 0
    let p := quantP d
    let (c, a) := readV c o.va (BitVec.allOnes 256)
    let bs := (quantBlocks a.bits (quantS d)).map (·.2)
    let data : BitVec 8192 := (BitVec.ofNat 8192 (joinNat 8 bs)) <<< (32 * p)
    let mask : BitVec 1024 := 15#1024 <<< (4 * p)
    .done (landAt c 1 e 8 (.vec o.vd data mask (1#8 <<< (p / 32)) (quantCodes a (p / 32)) true))

/-- RNE32(L[idx] × b × S), +0 for b = 0 (R62, R162). -/
def dequant (idx b : Nat) (s : FVal) : Nat :=
  if b = 0 then 0 else fresult f32 (fvMul (fvMul (qnValue idx) (.fin false b 0)) s)

/-- VDEQ (R162). -/
def execVdeq (o : VdeqOp) (s : State) : Ans :=
  engineIssue 1 s fun c e =>
    let x := (cap e 0).toNat
    let sv := fdecode f32 (x % 2 ^ 32)
    let q := o.q.toNat
    let (c, p) := readP c o.pg
    let act := laneBits 4 p.bits
    let m := laneMask 4 act
    let feed := act.zipIdx.foldl (fun f a => if a.1 then f ||| (1#256 <<< (32 * q + a.2 / 8)) else f) (0 : BitVec 256)
    let (c, a) := readV c o.va feed
    let idx := splitNat 4 256 (a.bits.toNat / 2 ^ (1024 * q))
    let r := (act.zip idx).zipIdx.map fun y =>
      if y.1.1 then dequant y.1.2 (x / 2 ^ (32 + 8 * (y.2 / 64)) % 256) sv else 0
    let k := codeAt a.codes q
    .done (landAt c 1 e 4 (.vec o.vd (ofLanes 4 r) m 255 (srcCodes p m [codesBy fun _ => k]) true))

/-- The local exponent of a block of FP32 lanes (R64). -/
def localExp : List Nat → Int
  | [] => -32768
  | b :: t =>
    let r := localExp t
    if r = 32767 then 32767
    else match fdecode f32 b with
      | .fin _ m e => if m = 0 then r else if r < floorLog2 m e + 1 then floorLog2 m e + 1 else r
      | _ => 32767

/-- VXSENC.LOC (R163): headers of the eight segments; vd's codes stay. -/
def execVxsencLoc (o : VxlocOp) (s : State) : Ans :=
  engineIssue 1 s fun c e =>
    let (c, a) := readV c o.va (BitVec.allOnes 256)
    let hs := (List.range 8).map fun j =>
      (localExp (((lanesOf 4 a.bits).drop (32 * j)).take 32) % 65536).toNat + (codeAt a.codes j).toNat * 65536
    let at_ := 32 * o.q.toNat
    let data : BitVec 8192 := (BitVec.ofNat 8192 (joinNat 32 hs)) <<< (8 * at_)
    let mask : BitVec 1024 := ((BitVec.allOnes 32).setWidth 1024) <<< at_
    .done (landAt c 1 e 4 (.vec o.vd data mask 0 0 true))

/-- The reading part of VXSENC and VXSDEC: headers are read at issue + 3 (R163, R164). -/
def xsumWord (mode : Nat) (o : VquantOp) (s : State) : Ans :=
  engineIssue 1 s fun c e =>
    let (c, a) := readV c o.va (BitVec.allOnes 256)
    .done (landAt c 1 e 3 (.xsum o.vd mode (cap e 0).toNat a.bits a.codes))

def execVxsencX32 (o : VquantOp) (s : State) : Ans := xsumWord 4 o s
def execVxsencX64l (o : VquantOp) (s : State) : Ans := xsumWord 5 o s
def execVxsencX64h (o : VquantOp) (s : State) : Ans := xsumWord 6 o s
def execVxsdecX32 (o : VquantOp) (s : State) : Ans := xsumWord 8 o s
def execVxsdecX64l (o : VquantOp) (s : State) : Ans := xsumWord 9 o s
def execVxsdecX64h (o : VquantOp) (s : State) : Ans := xsumWord 10 o s

/-- Header j of 32 bytes: E_j and XPOIS (R63). -/
def xsumHeader (h : Nat) (j : Nat) : Int × BitVec 2 :=
  (sintOf 16 (h / 2 ^ (32 * j)), BitVec.ofNat 2 (h / 2 ^ (32 * j + 16)))

/-- The mantissa of one value (R163, R64), and whether it adds BOUND. -/
def xsumEncode (ej : Int) (bits : Nat) : Int × Bool :=
  match fdecode f32 bits with
  | .fin neg m e =>
    if m = 0 then (0, false)
    else if ej ≤ floorLog2 m e then (0, true)
    else if ej = -32768 ∨ ej = 32767 then (0, false)
    else (roundToInt .rne 0 neg m (e + 23 - ej), false)
  | _ => (0, true)

/-- The value of one sum (R66). -/
def xsumDecode (ej : Int) (sum : Int) : Nat :=
  if ej = 32767 then f32.nanCode
  else if ej = -32768 then 0
  else fresult f32 (.fin (decide (sum < 0)) sum.natAbs (ej - 23))

/-- What VXSENC and VXSDEC write once the headers are read (R163, R164): data, byte mask, range, codes. -/
def xsumResult (mode : Nat) (h : Nat) (line : BitVec 2) (x : BitVec 8192) (xc : BitVec 16) :
    BitVec 8192 × BitVec 1024 × BitVec 8 × BitVec 16 :=
  let cj (j : Nat) : BitVec 2 := maxCode (xsumHeader h j).2 line
  let ej (j : Nat) : Int := (xsumHeader h j).1
  let blk (j : Nat) : List Nat := ((lanesOf 4 x).drop (32 * j)).take 32
  let bound (j : Nat) : BitVec 2 := if (blk j).any fun b => (xsumEncode (ej j) b).2 then 2 else 0
  let full : BitVec 1024 := BitVec.allOnes 1024
  match mode with
  | 4 =>
    let r := (List.range 8).flatMap fun j => (blk j).map fun b => intEncode .int32 (xsumEncode (ej j) b).1
    (ofLanes 4 r, full, 255, codesBy fun j => maxCodes [codeAt xc j, cj j, bound j])
  | 5 | 6 =>
    let h0 := 4 * (mode - 5)
    let r := (List.range 4).flatMap fun i => (blk (h0 + i)).map fun b =>
      ((xsumEncode (ej (h0 + i)) b).1 % (2 ^ 64 : Nat)).toNat
    (BitVec.ofNat 8192 (joinNat 64 r), full, 255,
      codesBy fun k => let j := h0 + k / 2
        maxCodes [codeAt xc j, cj j, bound j])
  | 8 =>
    let r := (List.range 8).flatMap fun j => (blk j).map fun b => xsumDecode (ej j) (sintOf 32 b)
    (ofLanes 4 r, full, 255, codesBy fun j => maxCode (codeAt xc j) (cj j))
  | _ =>
    let h0 := 4 * (mode - 9)
    let sums := splitNat 64 128 x.toNat
    let r := (List.range 4).flatMap fun i => ((sums.drop (32 * i)).take 32).map fun b => xsumDecode (ej (h0 + i)) (sintOf 64 b)
    let segs : BitVec 8 := 15#8 <<< h0
    ((ofLanes 4 r) <<< (1024 * h0), ((BitVec.allOnes 512).setWidth 1024) <<< (128 * h0), segs,
      codesBy fun j => if segs.getLsbD j then
        maxCodes [codeAt xc (2 * (j - h0)), codeAt xc (2 * (j - h0) + 1), cj j] else 0)

/-- A segment reduction (R165): every lane of a segment takes the result of its active lanes. -/
def reduceWord (f : List FVal → FVal) (fi : List Int → Int) (o : VredOp) (s : State) : Ans :=
  engineIssue 1 s fun c e =>
    let w := if o.ty = 0 ∨ o.ty = 3 then 4 else 2
    let n := 128 / w
    let (c, p) := readP c o.pg
    let act := laneBits w p.bits
    let m := laneMask w act
    let (c, a) := readV c o.va (positionsOf m)
    let l := (act.zip (lanesOf w a.bits))
    let one (j : Nat) : Nat :=
      let xs := ((l.drop (n * j)).take n).filterMap fun x => if x.1 then some x.2 else none
      match o.ty.toNat with
      | 0 => fresult f32 (f (xs.map (fdecode f32)))
      | 1 => fresult (floatSpec .bf16) (f (xs.map (fdecode (floatSpec .bf16))))
      | 2 => fresult (floatSpec .fp16) (f (xs.map (fdecode (floatSpec .fp16))))
      | _ => intEncode .int32 (fi (xs.map (sintOf 32)))
    let r := (List.range 8).flatMap fun j => List.replicate n (one j)
    .done (landAt c 1 e 8 (.vec o.vd (ofLanes w r) (BitVec.allOnes 1024) 255 (srcCodes p m [a.codes]) false))

/-- The exact sum (R165); +0 of no lane. -/
def sumFv : List FVal → FVal
  | [] => .fin false 0 0
  | [x] => x
  | x :: t => fvAdd x (sumFv t)

/-- maximumNumber or minimumNumber of some values; −inf or +inf of none (R165). -/
def pickFv (isMax : Bool) : List FVal → FVal
  | [] => .inf isMax
  | [x] => x
  | x :: t => fvMinMax isMax x (pickFv isMax t)

/-- Signed maximum or minimum (R165). -/
def pickInt (isMax : Bool) (l : List Int) : Int :=
  l.foldl (fun m x => if decide (m < x) == isMax then x else m) (if isMax then -(2 ^ 31 : Nat) else (2 ^ 31 - 1 : Nat))

def execVrsum (o : VredOp) (s : State) : Ans := reduceWord sumFv (fun l => l.foldl (· + ·) 0) o s
def execVrmax (o : VredOp) (s : State) : Ans := reduceWord (pickFv true) (pickInt true) o s
def execVrmin (o : VredOp) (s : State) : Ans := reduceWord (pickFv false) (pickInt false) o s

/-- The segments with a predicate bit set (R166). -/
def selectedSegs (p : BitVec 1024) : BitVec 8 :=
  BitVec.ofNat 8 (joinNat 1 ((List.range 8).map fun j => if activeSegs p j then 1 else 0))

/-- VPMARK (R166): raises codes, writes no value. -/
def execVpmark (o : VpmarkOp) (s : State) : Ans :=
  engineIssue 1 s fun c e =>
    let (c, p) := readP c o.pg
    .done (landAt c 1 e 2 (.vec o.vd 0 0 (selectedSegs p.bits) (codesBy fun _ => o.code) true))

/-- VPCLR (R166): PSUM stays. -/
def execVpclr (o : VR1) (s : State) : Ans :=
  engineIssue 1 s fun c e =>
    let (c, p) := readP c o.pg
    .done (landAt c 1 e 2 (.vec o.vd 0 0 (selectedSegs p.bits) 0 false))

/-- VPGET (R167). -/
def execVpget (o : VpgetOp) (s : State) : Ans :=
  engineIssue 1 s fun c e =>
    let codes := if o.isP = 1 then (preg c (o.va.extractLsb' 0 4)).codes else (vreg c o.va).codes
    .done (landAt c 1 e 2 (.scal o.sd (codes.setWidth 64)))

/-- The lane type of VCLAMP (R168). -/
def clampTy (t : BitVec 2) : VTy :=
  match t.toNat with
  | 0 => .f32
  | 1 => .bf16
  | _ => .f16

/-- The bounds of VCLAMP as exact values, and rounded inward to the lane type (R168). -/
def clampLo (d : Word) : FVal := fdecode f32 (d.toNat % 2 ^ 32)
def clampHi (d : Word) : FVal := fdecode f32 (d.toNat / 2 ^ 32)
def clampLoIn (t : VTy) (d : Word) : Nat := fencode (vtySpec t) .rup false 0 (clampLo d)
def clampHiIn (t : VTy) (d : Word) : Nat := fencode (vtySpec t) .rdn false 0 (clampHi d)

/-- VCLAMP (R168). -/
def execVclamp (o : VclampOp) (s : State) : Ans :=
  engineIssue 1 s fun c e =>
    let t := clampTy o.ty
    let w := vtyBytes t
    let d := cap e 0
    let below (x : FVal) : Bool := fvIsNan x || decide (fvCmp x (clampLo d) < 0)
    let above (x : FVal) : Bool := !fvIsNan x && decide (0 < fvCmp x (clampHi d))
    let (c, p) := readP c o.pg
    let act := laneBits w p.bits
    let m := laneMask w act
    let (c, a) := readV c o.va (positionsOf m)
    let xs := lanesOf w a.bits
    let r := mapLanes (fun b _ _ =>
      let x := fdecode (vtySpec t) b
      if o.pol = 1 then b else if below x then clampLoIn t d else if above x then clampHiIn t d else b) act xs xs xs
    let ks := xs.zipIdx.map fun b =>
      let x := fdecode (vtySpec t) b.1
      maxCode (codeAt a.codes (w * b.2 / 128)) (if o.pol ≠ 0 ∧ (below x ∨ above x) then 2 else 0)
    .done (landAt c 1 e 3 (.vec o.vd (ofLanes w r) m 255 (laneCodes w p act ks) true))

end Sys2Proof.Machine
end

