-- ==== Sys2Proof/Machine/Landings.lean ====
section
/-! DEFINITION. Landings of engine words (03 R88, 05 R137, 06 R147 to R164, 07 R186 to R191): what a landing does in the fc in
which it is due, and which of several due in one fc comes first. -/

namespace Sys2Proof.Machine

/-- A later landing of the same word. -/
def landLater (c : Core) (l : Landing) (lat : Nat) (a : Act) : Core :=
  { c with land := c.land ++ [⟨l.fc + lat, l.q, l.seq, a, l.p0⟩] }

/-- An OWNER violation of an issued word (R225): the access makes no change. -/
def ownerStop (c : Core) (time : Nat) (l : Landing) (lines : List Nat) : Core :=
  raise c time ⟨causeOwner, true, l.q, false, BitVec.ofNat 64 (128 * lines.headD 0), 0, c.seq.pc⟩

/-- The read of VLD and VLDS (R149, R156, R157): lines with an active byte are read. -/
def doLoadLines (c : Core) (time cyc : Nat) (l : Landing) (n : BitVec 10) (addrs : List Nat) (mask : BitVec 1024)
    (pc : BitVec 16) : Core :=
  let on := addrs.zipIdx.filter fun x => decide (segMask mask x.2 ≠ 0)
  match readLines c cyc 5 (on.map fun x => x.1 / 128) with
  | none => ownerStop c time l (on.map fun x => x.1 / 128)
  | some (c, ds) =>
    let r := on.zip ds
    let data := r.foldl (fun (d : BitVec 8192) x => d ||| ((BitVec.setWidth 8192 x.2.1) <<< (1024 * x.1.2 : Nat))) 0
    let codes := codesBy fun j => maxCode (codeAt pc j) (maxCodes (r.map fun x => if x.1.2 = j then x.2.2 else 0))
    landLater c l 5 (.vec n data mask 255 codes true)

/-- The active lanes of a list of addresses, with their numbers. -/
def activeLanes (addrs : List Nat) (mask : BitVec 1024) : List (Nat × Nat) :=
  addrs.zipIdx.filter fun x => mask.getLsbD (4 * x.2)

/-- The read of VGATHER (R149, R158). -/
def doGather (c : Core) (time cyc : Nat) (l : Landing) (n : BitVec 10) (addrs : List Nat) (mask : BitVec 1024)
    (pc ac : BitVec 16) : Core :=
  let on := activeLanes addrs mask
  let lines := (on.map fun x => x.1 / 128).eraseDups
  if !tagsOk c lines then ownerStop c time l lines
  else
    let ks := on.map fun x => (x.2 / 32, codeSeen c (x.1 / 128))
    let data := on.foldl (fun d x => d ||| (BitVec.ofNat 8192 (bytesSeen c x.1 4) <<< (32 * x.2))) (0 : BitVec 8192)
    let codes := codesBy fun j => maxCodes (codeAt pc j :: codeAt ac j :: ks.map fun x => if x.1 = j then x.2 else 0)
    landLater (touchLines c cyc 5 lines) l 5 (.vec n data mask 255 codes true)

/-- The values of a VATOM's lanes (R159): each lane sees the lanes before it; `m` overlays the bytes already written. -/
def atomLanes (c : Core) (op : Nat) (x : BitVec 8192) : List (Nat × Nat) → Map Nat → List (Nat × Nat) × Map Nat
  | [], m => ([], m)
  | (a, i) :: t, m =>
    let old := if mapHas m a then mapGet 0 m a else bytesSeen c a 4
    let new := atomOp32 op old (x.toNat / 2 ^ (32 * i) % 2 ^ 32)
    let r := atomLanes c op x t (mapPut m a new)
    ((i, old) :: r.1, r.2)

/-- The read of VATOM (R159): the results land at issue + 8, the bytes are stored at issue + 5. -/
def doAtom (c : Core) (time cyc : Nat) (l : Landing) (n : BitVec 10) (op : BitVec 4) (addrs : List Nat) (x : BitVec 8192)
    (mask : BitVec 1024) (pc ac xc : BitVec 16) : Core :=
  let on := activeLanes addrs mask
  let lines := (on.map fun y => y.1 / 128).eraseDups
  if !tagsOk c lines then ownerStop c time l lines
  else
    let (ret, mem) := atomLanes c op.toNat x on []
    let ks := on.map fun y => (y.2 / 32, codeSeen c (y.1 / 128))
    let data := ret.foldl (fun d y => d ||| (BitVec.ofNat 8192 y.2 <<< (32 * y.1))) (0 : BitVec 8192)
    let codes := codesBy fun j => maxCodes (codeAt pc j :: codeAt ac j :: ks.map fun y => if y.1 = j then y.2 else 0)
    let ws : List LineWrite := mem.map fun y =>
      let cs := maxCodes (on.map fun z => if z.1 = y.1 then codeAt xc (z.2 / 32) else 0)
      ⟨y.1 / 128, BitVec.ofNat 1024 y.2 <<< (8 * (y.1 % 128)), 15#128 <<< (y.1 % 128), cs, 1⟩
    landLater (landLater (touchLines c cyc 7 lines) l 2 (.lines 7 ws)) l 5 (.vec n data mask 255 codes true)

/-- The header read of VXSENC and VXSDEC (R163, R164). -/
def doXsum (c : Core) (time cyc : Nat) (l : Landing) (n : BitVec 10) (mode addr : Nat) (x : BitVec 8192) (xc : BitVec 16) :
    Core :=
  if !tagsOk c [addr / 128] then ownerStop c time l [addr / 128]
  else
    let r := xsumResult mode (bytesSeen c addr 32) (codeSeen c (addr / 128)) x xc
    landLater (touchLines c cyc 5 [addr / 128]) l 1 (.vec n r.1 r.2.1 r.2.2.1 r.2.2.2 true)

/-- One element of a stream block as stored, whatever slices the stream declares (R188, R190; log entry 37): its bits and the largest
code of its lines. -/
def blockElem (c : Core) (g : BitVec 256) (r k : Nat) : Nat × BitVec 2 :=
  match gPlaces g 0 r k with
  | p :: _ =>
    let x := bytesSeen c p.at_ p.n
    (if fmtBits (gFmt g) = 4 then x / 2 ^ p.bit % 16 else x, maxCodes ((placeLines [p]).map (codeSeen c)))
  | [] => (0, 0)

/-- The read of TLD (R188): exact conversion; each tile row takes the codes of the lines that supply it. -/
def doTld (c : Core) (time cyc : Nat) (l : Landing) (t : BitVec 3) (g : BitVec 256) (ta : Bool) (landFc : Nat) : Core :=
  let lines := operandLines g 0
  if !tagsOk c lines then ownerStop c time l lines
  else
    let dst : Fmt := if fmtIsFloat (gFmt g) then .fp32 else .int32
    let es := (List.range (gRows g)).flatMap fun r => (List.range (gCols g)).map fun k =>
      let (x, code) := blockElem c g r k
      (if ta then (k, r) else (r, k), (convElem (gFmt g) dst .rne false 0 x).1, code)
    let elems : Map (BitVec 32) := es.foldl (fun m e => mapSet 0 m (128 * e.1.1 + e.1.2) (BitVec.ofNat 32 e.2.1)) []
    let codes : Map (BitVec 2) := es.foldl (fun m e => mapSet 0 m e.1.1 (maxCode (mapGet 0 m e.1.1) e.2.2)) []
    landLater (touchLines c cyc 4 lines) l (landFc - l.fc) (.tileSet t elems codes)

/-- The read of TBIAS (R190): with ACC the visible tile is added. -/
def doTbias (c : Core) (time cyc : Nat) (l : Landing) (t : BitVec 3) (g : BitVec 256) (acc : Bool) : Core :=
  let lines := operandLines g 0
  if !tagsOk c lines then ownerStop c time l lines
  else
    let x := getTile c t
    let line := maxCodes (lines.map (codeSeen c))
    let bias := (List.range x.cols).map fun k => (blockElem c g 0 k).1
    let elems : Map (BitVec 32) := (List.range x.rows).foldl (fun m r => bias.zipIdx.foldl (fun m b =>
      let old := (tileElem x r b.2).toNat
      let v := if !acc then b.1 else if x.int then (old + b.1) % 2 ^ 32
        else fresult f32 (fvAdd (fdecode f32 old) (fdecode f32 b.1))
      mapSet 0 m (128 * r + b.2) (BitVec.ofNat 32 v)) m) []
    let codes : Map (BitVec 2) := (List.range x.rows).foldl (fun m r =>
      mapSet 0 m r (if acc then maxCode (tileCode x r) line else line)) []
    landLater (touchLines c cyc 4 lines) l 3 (.tileSet t elems codes)

/-- The read of TPOIS.MARK (R191). -/
def doTmark (c : Core) (time cyc : Nat) (l : Landing) (t : BitVec 3) (addr : Nat) : Core :=
  if !tagsOk c [addr / 128] then ownerStop c time l [addr / 128]
  else landLater (touchLines c cyc 4 [addr / 128]) l 1 (.tmark t (bytesSeen c addr 32) (codeSeen c (addr / 128)))

/-- What a landing does when its fc comes. Where the map write of a TPOIS get meets another writer of its bytes in one fc, it takes its place
as TDRAIN's does, which R232 names alone (DESIGN CHOICE, log entry 161). -/
def applyAct (c : Core) (time cyc : Nat) (l : Landing) : Core :=
  match l.act with
  | .vec n data mask range src keep => landVec c l.p0 n data mask range src keep
  | .pred n data mask range src => landPred c n data mask range src
  | .scal sd val => setS c sd val
  | .lines row ws => writeLines c time cyc ⟨4, l.q, l.seq⟩ row ws
  | .drain ws => writeLines c time cyc ⟨3, l.q, l.seq⟩ 4 (ws.map (drainWrite c))
  | .loadLines n addrs mask pc => doLoadLines c time cyc l n addrs mask pc
  | .gather n addrs mask pc ac => doGather c time cyc l n addrs mask pc ac
  | .atom n op addrs x mask pc ac xc => doAtom c time cyc l n op addrs x mask pc ac xc
  | .xsum n mode addr x xc => doXsum c time cyc l n mode addr x xc
  | .tcfg t rows cols int =>
    setTile c t { getTile c t with rows := rows, cols := cols, int := int, elems := [], codes := [] }
  | .tzero t => setTile c t { getTile c t with elems := [], codes := [] }
  | .tldRead t g ta landFc => doTld c time cyc l t g ta landFc
  | .tileSet t elems codes => psumRows (setTile c t { getTile c t with elems := elems, codes := codes }) codes
  | .tbiasRead t g acc => doTbias c time cyc l t g acc
  | .tmarkRead t addr => doTmark c time cyc l t addr
  | .tmark t map line =>
    let x := getTile c t
    let codes : Map (BitVec 2) := (List.range x.rows).foldl (fun m r =>
      mapSet 0 m r (maxCodes [tileCode x r, BitVec.ofNat 2 (map / 2 ^ (2 * r)), line])) []
    psumRows (setTile c t { x with codes := codes }) (codes.filter fun e => decide (tileCode x e.1 ≠ e.2))
  | .tclr t => setTile c t { getTile c t with codes := [] }

/-- Does landing `a` come before landing `b`: earlier fc; a bias read after the tile landings of its fc (R181, R190); else M
before V and enqueue order (R88, R232)? -/
def landBefore (a b : Landing) : Bool :=
  let late (l : Landing) : Bool := match l.act with
    | .tbiasRead .. => true
    | _ => false
  if a.fc ≠ b.fc then decide (a.fc < b.fc)
  else if late a ≠ late b then !late a
  else if a.q ≠ b.q then decide (a.q < b.q)
  else seqEarlier a.seq b.seq

/-- The next landing that is due in the present fc. -/
def landDue (c : Core) : Option Landing :=
  match c.land.filter fun l => decide (l.fc ≤ c.fc) with
  | [] => none
  | x :: t => some (t.foldl (fun a b => if landBefore b a then b else a) x)

/-- ENGINE_LANDING (R88, R137): the first landing due takes effect. -/
def execEngineLanding (s : State) : Ans :=
  let c := s.me
  match landDue c with
  | none => .next s
  | some l => .next (s.setCore s.cur (applyAct { c with land := c.land.erase l, nfree := c.nfree + 1 } s.time s.cyc l))

end Sys2Proof.Machine
end

