-- ==== Sys2Proof/Machine/DevMem.lean ====
section
/-! DEFINITION. Device memory as the hubs serve it: the physical map (10 R249 to R251), error placement (15 R402),
translation and ownership (15 R386 to R394), granule reads with their checks (10 R253 to R256), logged, held and applied
writes (10 R258 to R264), and the work list whose order within its bounds the spec leaves open. -/

namespace Sys2Proof.Machine

/-- Draw a free value below `n` (log entry 1). -/
def State.draw (s : State) (kind n : Nat) : Nat × State :=
  ((Config.freeValue kind s.free).toNat % n, { s with free := s.free + 1 })

/-- Put work on its way: it is due at a free moment within `bound` cycles. -/
def addWork (s : State) (bound : Nat) (it : Item) : State :=
  let (n, s) := s.draw 1 bound
  { s with work := s.work ++ [(s.cyc + 1 + n, it)] }

/-- Put work on its way that is due after exactly `n` cycles. -/
def addWorkAt (s : State) (n : Nat) (it : Item) : State := { s with work := s.work ++ [(s.cyc + n, it)] }

/-- Take the first piece of work that satisfies `p` off a list. -/
def takeFrom (p : Nat × Item → Bool) : List (Nat × Item) → Option (Item × List (Nat × Item))
  | [] => none
  | x :: t =>
    if p x then some (x.2, t)
    else match takeFrom p t with
      | some (it, t') => some (it, x :: t')
      | none => none

/-- The bound of R465 in cycles of the form clock, for the loads and commands of a core. -/
def devBound : Nat := 42500

/-- The stack of a physical address (R249). -/
def stackOf (pa : Nat) : Nat := pa / 2 ^ 37 % 16

/-- The channels of a stack that were mapped at power-on; every channel where no failure is recorded. -/
def mappedChans (s : State) (j : Nat) : BitVec 32 := mapGet (BitVec.allOnes 32) s.dev.mapped j

/-- Ones among the low `n` bits. -/
def onesBelow (x : Nat) : Nat → Nat
  | 0 => 0
  | n + 1 => onesBelow x n + (if x.testBit n then 1 else 0)

/-- Frames a stack offers with `p` pseudo-channels in service (R249). -/
def framesOf (p : Nat) : Nat := 20160 * p

/-- Does the physical address lie in the map (R249)? -/
def paMapped (s : State) (pa : Nat) : Bool :=
  decide (pa < 2 ^ 41) && decide (pa % 2 ^ 37 < 65536 * framesOf (2 * onesBelow (mappedChans s (stackOf pa)).toNat 32))

/-- The pseudo-channel with rank `i` among those in service (R250). -/
def nthChan (x : Nat) : Nat → Nat → Nat
  | 0, _ => 0
  | n + 1, i => if x.testBit (32 - (n + 1)) then (if i = 0 then 32 - (n + 1) else nthChan x n (i - 1)) else nthChan x n i

/-- The channel that stores a granule (R250). -/
def chanOfPa (s : State) (pa : Nat) : Nat :=
  let ch := (mappedChans s (stackOf pa)).toNat
  let p := 2 * onesBelow ch 32
  let i := if p = 0 then 0 else (pa / 128 % 512 + pa % 2 ^ 37 / 65536) % p
  nthChan ch 32 (i / 2)

/-- Has the granule's channel failed since power-on (R251)? -/
def chanFailed (s : State) (pa : Nat) : Bool :=
  (mapGet 0 s.dev.chanBad (stackOf pa)).getLsbD (chanOfPa s pa)

/-- Does a slot record hold an uncorrectable error? -/
def slotUe (r : BitVec 128) : Bool := r.getLsbD 0 && decide (2 ≤ fieldOf r 1 2)

/-- Count and place an error (R401, R402): severity 1, 2 or 3. -/
def bankError (b : Bank) (sev kind site addr time : Nat) : Bank :=
  let bump (lo len : Nat) (x : Word) : Word :=
    let v := fieldOf x lo len
    if v + 1 < 2 ^ len then setField x lo len (v + 1) else x
  let st := if sev = 1 then bump 0 16 b.stat else if sev = 2 then bump 16 16 b.stat else bump 32 8 b.stat
  let r : BitVec 128 := BitVec.ofNat 128 (1 + sev * 2 + kind * 8 + site % 32 * 256 + addr % 2 ^ 48 * 2 ^ 16 + time % 2 ^ 64 * 2 ^ 64)
  let ue := decide (2 ≤ sev)
  if !b.first.getLsbD 0 then { b with stat := st, first := r }
  else if !slotUe b.first then (if ue then { b with stat := st, first := r } else { b with stat := st })
  else if !ue then { b with stat := st }
  else if !b.second.getLsbD 0 then { b with stat := st, second := r }
  else if decide (sev = 3) && decide (fieldOf b.second 1 2 = 2) then { b with stat := setField st 40 1 1, second := r }
  else { b with stat := setField st 40 1 1 }

/-- Record an error in a bank (R402). -/
def placeError (s : State) (bank sev kind site addr : Nat) : State :=
  { s with dev := { s.dev with
    banks := mapSet Bank.zero s.dev.banks bank (bankError (mapGet Bank.zero s.dev.banks bank) sev kind site addr s.time) } }

/-- The bank of a stack (R380). -/
def stackBank (pa : Nat) : Nat := 1156 + stackOf pa

/-- The page owner entry of a physical address (R391). -/
def potOf (s : State) (pa : Nat) : Word := if paMapped s pa then mapGet 0 s.dev.pot (pa / 65536) else 0x1C00

/-- The state of a frame (R391). -/
def potState (e : Word) : Nat := fieldOf e 10 3

/-- May an agent of the tenant read or write the frame (R392)? -/
def frameOk (s : State) (tenant pa : Nat) (write : Bool) : Bool :=
  let e := potOf s pa
  paMapped s pa &&
    (match potState e with
    | 1 | 5 => decide (fieldOf e 0 10 = tenant)
    | 2 => !write
    | _ => false)

/-- Is the frame a host-window frame (R391)? -/
def isHostFrame (s : State) (pa : Nat) : Bool := decide (potState (potOf s pa) = 5)

/-- What a translation answers (R388, R392). -/
inductive XRes where
  | pa (a : Nat)
  | fault
  | owner
  deriving DecidableEq, Repr

/-- Does a table granule hold an uncorrectable error (R388)? -/
def granBad (s : State) (pa : Nat) : Bool :=
  let g := pa / 128
  mapGet false s.dev.syn g || mapGet false s.dev.dbe g || mapGet false s.dev.tagBad (pa / 512) || chanFailed s pa

/-- One level of the walk, and the levels below it (R388). `t` is the table's address. -/
def walkFrom (s : State) (tenant va : Nat) (write : Bool) : List Nat → Nat → XRes × Option Tlb
  | [], _ => (.fault, none)
  | lvl :: rest, t =>
    let idx := match lvl with
      | 0 => va / 2 ^ 39 % 512
      | 1 => va / 2 ^ 30 % 512
      | 2 => va / 2 ^ 21 % 512
      | _ => va / 2 ^ 16 % 32
    let a := t + 8 * idx
    let e := potOf s a
    if !(paMapped s a && decide (potState e = 1) && decide (fieldOf e 0 10 = tenant)) then (.owner, none)
    else if granBad s a then (.fault, none)
    else
      let pte := memReadNat s.dev.mem a 8
      if pte % 2 = 0 ∨ pte / 8 % 32 ≠ 0 ∨ pte / 2 ^ 41 ≠ 0 then (.fault, none)
      else
        let ad := pte / 2 ^ 8 % 2 ^ 33 * 2 ^ 8
        if pte / 2 % 2 = 1 then
          if lvl = 0 then (.fault, none)
          else
            let size := match lvl with
              | 1 => 2 ^ 30
              | 2 => 2 ^ 21
              | _ => 2 ^ 16
            if ad % size ≠ 0 then (.fault, none)
            else
              let pw := decide (pte / 4 % 2 = 1)
              let tl : Tlb := ⟨0, 0, va / size * size, size, ad, pw⟩
              if write && !pw then (.fault, some tl) else (.pa (ad + va % size), some tl)
        else if lvl = 3 then (.fault, none)
        else if lvl < 2 ∧ ad % 4096 ≠ 0 then (.fault, none)
        else walkFrom s tenant va write rest ad

/-- The ASID entry of a context (R394). -/
def asidOf (s : State) (a : Nat) : BitVec 256 := mapGet 0 s.dev.asid a

/-- Does the context exist and belong to the tenant (R394)? -/
def asidOk (s : State) (a tenant : Nat) : Bool :=
  (asidOf s a).getLsbD 0 && decide (fieldOf (asidOf s a) 1 10 = tenant)

/-- The leaf that unit `u` holds for an address (R389). Cores alone hold any; 256 stands for every other unit. -/
def tlbOf (s : State) (u asid va : Nat) : Option Tlb :=
  s.dev.tlb.find? fun t => decide (t.unit = u) && decide (t.asid = asid) && decide (t.va ≤ va) && decide (va < t.va + t.size)

/-- Translate for unit `u` and check ownership (R388, R392, R394). A leaf that the unit holds may be used instead of a walk; a
free value decides (R390). -/
def translate (s : State) (u asid va tenant : Nat) (write : Bool) : XRes :=
  if !asidOk s asid tenant then .owner
  else
    let cached := tlbOf s u asid va
    let r := match cached with
      | some t =>
        if (Config.freeValue 2 s.free).getLsbD 0 then
          (if write && !t.pw then XRes.fault else .pa (t.pa + (va - t.va)))
        else (walkFrom s tenant va write [0, 1, 2, 3] (fieldOf (asidOf s asid) 16 29 * 4096)).1
      | none => (walkFrom s tenant va write [0, 1, 2, 3] (fieldOf (asidOf s asid) 16 29 * 4096)).1
    match r with
    | .pa a => if frameOk s tenant a write then .pa a else .owner
    | x => x

/-- Add `n` to a shared counter, modulo 2^64 (R420). -/
def addUsage (s : State) (i n : Nat) : State :=
  { s with meas := { s.meas with usage := mapSet 0 s.meas.usage i (mapGet 0 s.meas.usage i + BitVec.ofNat 64 n) } }

/-- The 128 bytes of a granule. -/
def granData (s : State) (pa : Nat) : BitVec 1024 := BitVec.ofNat 1024 (memReadNat s.dev.mem (pa / 128 * 128) 128)

/-- Give the four granules of a block the poison syndrome and a fresh tag (R254). -/
def poisonBlock (s : State) (blk : Nat) : State :=
  { s with dev := { s.dev with
    tagBad := mapSet false s.dev.tagBad blk false
    syn := (List.range 4).foldl (fun m i => mapSet false m (4 * blk + i) true) s.dev.syn } }

/-- A tag mismatch of a block is counted in the error bank of its hub (R254, R380). -/
def tagError (s : State) (blk : Nat) : State :=
  let h := stackOf (512 * blk) / 4
  placeError s (1152 + h) 2 4 h (512 * blk)

/-- Where a granule of a host-window frame stands in the host's memory (R391). -/
def hostAddr (s : State) (pa : Nat) : Nat := fieldOf (potOf s pa) 16 48 * 65536 + pa % 65536

/-- What a hub's read of a granule delivers (R251, R254 to R256): the code, and whether a correction was made. -/
def hubReadGran (s : State) (pa : Nat) : State × BitVec 1024 × BitVec 2 × Bool :=
  let g := pa / 128
  let s := addUsage s (320 + 2 * stackOf pa) 128
  if chanFailed s pa then (s, granData s pa, 3, false)
  else if mapGet false s.dev.tagBad (pa / 512) then
    (tagError (poisonBlock s (pa / 512)) (pa / 512), granData s pa, 3, false)
  else if mapGet false s.dev.syn g then (s, granData s pa, 3, false)
  else if mapGet false s.dev.dbe g then
    (placeError { s with dev := { s.dev with
        dbe := mapSet false s.dev.dbe g false, syn := mapSet false s.dev.syn g true } }
      (stackBank pa) 2 1 (chanOfPa s pa) (g * 128), granData s pa, 3, false)
  else if mapGet false s.dev.sbe g then
    (placeError { s with dev := { s.dev with sbe := mapSet false s.dev.sbe g false } }
      (stackBank pa) 1 1 (chanOfPa s pa) (g * 128), granData s pa, 0, true)
  else (s, granData s pa, 0, false)

/-- Store the masked bytes of a granule. -/
def storeBytes (m : Map (BitVec 8)) (base : Nat) (data : BitVec 1024) (mask : BitVec 128) : Map (BitVec 8) :=
  (List.range 128).foldl (fun m i => if mask.getLsbD i then memWrite m (base + i) (data.extractLsb' (8 * i) 8) else m) m

/-- The data and mask that a write applies, given what the granule holds: map fields are changed each by itself (R257), and a
half-byte element that stands alone in its byte leaves the other half (R44). -/
def mergeWrite (old data : BitVec 1024) (mask : BitVec 128) (codes : List (Nat × Nat)) : BitVec 1024 × BitVec 128 :=
  codes.foldl (fun r e =>
    if 16 ≤ e.2 then
      let sh := 8 * e.1 + (if e.2 = 16 then 4 else 0)
      let m : BitVec 1024 := 15#1024 <<< sh
      ((r.1 &&& ~~~ m) ||| (old &&& m), r.2)
    else
      let byte := e.1 / 4
      let prev : BitVec 1024 := if r.2.getLsbD byte then r.1 else old
      let m8 : BitVec 1024 := 255#1024 <<< (8 * byte)
      let m2 : BitVec 1024 := 3#1024 <<< (2 * e.1)
      let was : BitVec 2 := prev.extractLsb' (2 * e.1) 2
      let k := if 4 ≤ e.2 then maxCode was (BitVec.ofNat 2 e.2) else BitVec.ofNat 2 e.2
      ((r.1 &&& ~~~ m8) ||| (prev &&& m8 &&& ~~~ m2) ||| (k.setWidth 1024 <<< (2 * e.1)), r.2 ||| (1#128 <<< byte)))
    (data, mask)

/-- The bytes of `d` that a mask covers, replaced. -/
def overlay (d x : BitVec 1024) (w : BitVec 128) : BitVec 1024 :=
  (List.range 128).foldl (fun d i => if w.getLsbD i then
    (d &&& ~~~ (0xFF#1024 <<< (8 * i))) ||| ((x.extractLsb' (8 * i) 8).setWidth 1024 <<< (8 * i)) else d) d

/-- May the tenant's function reach the host: its TDI is in RUN (R382, R384)? -/
def hostOpen (s : State) (tenant : Nat) : Bool := s.links.tdi.any fun e => decide (e.2.tenant = tenant) && decide (e.2.st = 2)

/-- The tenant whose function a request to the host goes through. -/
def askTenant (s : State) (it : Item) : Option Nat :=
  match it with
  | .read c _ _ _ _ => some (s.core c).sys.tenant
  | .atomic c _ => some (s.core c).sys.tenant
  | .hostFlush t => some t
  | _ => none

/-- The numbers of the requests of a tenant's function that are out. -/
def readsOut (s : State) (tenant : Nat) : List Nat :=
  (s.links.hostReq.filter fun r => decide (askTenant s r.2.2 = some tenant)).map (·.1)

/-- A write to the host has left: only a read that the port issues after it pushes it (R274). -/
def posts (s : State) (tenant : Nat) : State :=
  { s with links := { s.links with
    posted := (s.links.posted.filter fun e => decide (e.1 ≠ tenant)) ++ [(tenant, readsOut s tenant)] } }

/-- A write to a granule of a host-window frame (R257, R274, R384, R391): where the function is not in RUN it is blocked (R382), which
nothing reports. -/
def hostWrite (s : State) (tenant a : Nat) (data : BitVec 1024) (mask : BitVec 128) (codes : List (Nat × Nat)) : State :=
  if hostOpen s tenant then
    let r := mergeWrite (BitVec.ofNat 1024 (memReadNat s.links.hostMem (hostAddr s a) 128)) data mask codes
    posts { s with links := { s.links with hostMem := storeBytes s.links.hostMem (hostAddr s a) r.1 r.2 } } tenant
  else s

/-- A read of `n` bytes of a host-window granule by a block of the device for itself (R384): ERROR where the function is not in RUN, and
where the host answers with an error or not within 10 ms, which is free; the answer comes within the event that reads (log entry 153). -/
def hostFetch (s : State) (p n : Nat) : State × Nat × Bool :=
  let (k, s) := s.draw 13 2
  (s, memReadNat s.links.hostMem (hostAddr s p) n, !hostOpen s (fieldOf (potOf s p) 0 10) || decide (k = 1))

/-- A frame has been written: it counts where the migration of its tenant is under way (R353). -/
def frameWritten (s : State) (pa : Nat) : State :=
  let tn := fieldOf (potOf s pa) 0 10
  let mg := mapGet Mig.normal s.sched.mig tn
  if mg.st = 0 ∨ mg.frames.contains (pa / 65536) then s
  else { s with sched := { s.sched with
    mig := mapSet Mig.normal s.sched.mig tn { mg with frames := mg.frames ++ [pa / 65536] } } }

/-- Apply a write at its home hub (R253, R256): a whole-granule write clears the syndrome, an atomic's keeps it; a write to
a failed channel is discarded (R251). -/
def applyGran (s : State) (pa : Nat) (data : BitVec 1024) (mask : BitVec 128) (whole : Bool) : State :=
  let s := addUsage s (321 + 2 * stackOf pa) 128
  if chanFailed s pa then s
  else
    let g := pa / 128
    let s := if mapGet false s.dev.tagBad (pa / 512) then
        tagError (poisonBlock s (pa / 512)) (pa / 512) else s
    let dev := { s.dev with mem := storeBytes s.dev.mem (g * 128) data mask }
    let dev := if whole then { dev with
        syn := mapSet false dev.syn g false, dbe := mapSet false dev.dbe g false, sbe := mapSet false dev.sbe g false }
      else dev
    frameWritten { s with dev := dev } pa

/-- The recovery state of a context. -/
def ctxOf (s : State) (a : Nat) : Ctx := mapGet Ctx.off s.ctxs a

/-- Replace the recovery state of a context. -/
def State.setCtx (s : State) (a : Nat) (c : Ctx) : State := { s with ctxs := mapSet Ctx.off s.ctxs a c }

/-- The recovery context of a durable frame (R258, R262). -/
def durableCtx (s : State) (pa : Nat) : Option Nat :=
  if (potOf s pa).getLsbD 13 then some (fieldOf (mapGet 0 s.dev.dur (pa / 65536)) 16 10) else none

/-- Room of the undo log and of the journal (R394). -/
def logRoom (s : State) (a : Nat) : Nat := fieldOf (asidOf s a) 169 23
def jrnRoom (s : State) (a : Nat) : Nat := fieldOf (asidOf s a) 233 23

/-- LOG_FULL sets `FULL` until the next seal (R264). -/
def setFull (s : State) (a : Nat) : State := s.setCtx a { ctxOf s a with full := true }

/-- A granule that holds the poison syndrome from now on (R256). -/
def markSyn (s : State) (pa : Nat) : State := { s with dev := { s.dev with syn := mapSet false s.dev.syn (pa / 128) true } }

/-- An undo entry goes into the log ring (R263): its header, then the block, at its place by `UORD` (log entry 123). The block is read
like any granules (R253 to R255); what is uncorrectable in it is so in the log. -/
def logPut (s : State) (a : Nat) (u : Undo) : State :=
  let at_ := fieldOf (asidOf s a) 128 41 + 4224 * u.ord
  let head := u.seq % 2 ^ 64 + u.pa * 2 ^ 64 + a % 1024 * 2 ^ 128 + u.ord % 2 ^ 32 * 2 ^ 138
  (List.range 32).foldl (fun s i =>
      let (s, d, code, _) := hubReadGran s (u.pa + 128 * i)
      let s := applyGran s (at_ + 128 * (i + 1)) d (BitVec.allOnes 128) true
      if code = 0 then s else markSyn s (at_ + 128 * (i + 1)))
    (applyGran s at_ (BitVec.ofNat 1024 head) (BitVec.allOnes 128) true)

/-- The first write of an interval to a log block (R262, R263): none where the log lacks room (R264). -/
def logFirst (s : State) (pa : Nat) : Option State :=
  match durableCtx s pa with
  | none => some s
  | some a =>
    let c := ctxOf s a
    if c.st = 0 then some s
    else
      let f := pa / 65536
      let e := mapGet 0 s.dev.dur f
      let b := pa / 4096 % 16
      let fresh := decide (fieldOf e 32 32 = c.iv % 2 ^ 32)
      let fw := if fresh then fieldOf e 0 16 else 0
      if fw.testBit b then some s
      else if logRoom s a ≤ c.log.length then none
      else
        let base := pa / 4096 * 4096
        let old := s.dev.mem.filter fun x => decide (base ≤ x.1) && decide (x.1 < base + 4096)
        let bad := (List.range 32).filter fun i => granBad s (base + 128 * i)
        let u : Undo := ⟨c.iv, base, c.log.length, old, bad⟩
        let s := logPut (s.setCtx a { c with log := c.log ++ [u] }) a u
        some { s with dev := { s.dev with
          dur := mapSet 0 s.dev.dur f (setField (setField e 0 16 (fw ||| 2 ^ b)) 32 32 c.iv) } }

/-- Is a write of this core to this frame held until the seal (R261)? -/
def holdsWrite (s : State) (core pa : Nat) : Option Nat :=
  match durableCtx s pa with
  | none => none
  | some a => let c := ctxOf s a
    if decide (c.st = 2 ∨ c.st = 3 ∨ c.st = 6) && c.rel.contains core then some a else none

/-- What a hub does with a write (R261 to R264). -/
inductive WRes where
  | done (s : State)
  | held (s : State)
  | full (s : State) (asid : Nat)
  deriving DecidableEq, Repr

/-- A write takes effect (R44, R257): map fields and half bytes are changed in what the granule holds at that moment, which the hub reads
for it with its checks (R253 to R255). -/
def applyWrite (s : State) (pa : Nat) (data : BitVec 1024) (mask : BitVec 128) (whole : Bool) (codes : List (Nat × Nat)) : State :=
  let s := if codes.isEmpty then s else (hubReadGran s pa).1
  let r := mergeWrite (granData s pa) data mask codes
  applyGran s pa r.1 r.2 whole

/-- A hub accepts a write of a core, of the host or of a link peer (`core` is 256 or more for those). -/
def hubWriteGran (s : State) (core pa : Nat) (data : BitVec 1024) (mask : BitVec 128) (whole : Bool) (codes : List (Nat × Nat)) : WRes :=
  match holdsWrite s core pa with
  | some a => .held (s.setCtx a { ctxOf s a with held := (ctxOf s a).held ++ [⟨core, pa / 128 * 128, data, mask, whole, codes⟩] })
  | none =>
    match logFirst s pa with
    | none => let a := (durableCtx s pa).getD 0
      .full (setFull s a) a
    | some s => .done (applyWrite s pa data mask whole codes)

/-- The held writes to a granule that a core sees: its own and those of its locked form (R261). -/
def heldFor (s : State) (core pa : Nat) : List Held :=
  match durableCtx s pa with
  | none => []
  | some a => (ctxOf s a).held.filter fun h =>
      decide (h.pa = pa / 128 * 128) && (decide (h.core = core) || (!s.isSplit core && decide (h.core / 8 = core / 8)))

/-- What a core reads where writes are held (R261). -/
def heldView (s : State) (core pa : Nat) (d : BitVec 1024) : BitVec 1024 :=
  (heldFor s core pa).foldl (fun d h => let r := mergeWrite d h.data h.mask h.codes; overlay d r.1 r.2) d

/-- The code with which it reads (R256, R261): a held write of a whole granule has cleared the syndrome for it. -/
def heldCode (s : State) (core pa : Nat) (code : BitVec 2) : BitVec 2 := if (heldFor s core pa).any (·.whole) then 0 else code

/-- The table entries that a walk reads, the last one it uses included (R388): levels, and the table's address. -/
def walkPath (s : State) (tenant va : Nat) : List Nat → Nat → List Nat
  | [], _ => []
  | lvl :: rest, t =>
    let idx := match lvl with
      | 0 => va / 2 ^ 39 % 512
      | 1 => va / 2 ^ 30 % 512
      | 2 => va / 2 ^ 21 % 512
      | _ => va / 2 ^ 16 % 32
    let a := t + 8 * idx
    let e := potOf s a
    if !(paMapped s a && decide (potState e = 1) && decide (fieldOf e 0 10 = tenant)) then []
    else
      let pte := memReadNat s.dev.mem a 8
      if granBad s a ∨ pte % 4 ≠ 1 then [a] else a :: walkPath s tenant va rest (pte / 2 ^ 8 % 2 ^ 33 * 2 ^ 8)

/-- The reads of a walk for an address of a context: errors that they are the first to find are counted (R254 to R256). -/
def walkReads (s : State) (asid tenant va : Nat) : State :=
  if !asidOk s asid tenant then s
  else (walkPath s tenant va [0, 1, 2, 3] (fieldOf (asidOf s asid) 16 29 * 4096)).foldl (fun s a => (hubReadGran s a).1) s

/-- Translate for a unit without a cache, with the reads of its walk. -/
def walkTo (s : State) (asid va tenant : Nat) (write : Bool) : State × XRes :=
  (walkReads s asid tenant va, translate s 256 asid va tenant write)

/-- What the device finds when it reads for itself: a translation fault, a refusal, or bytes with whether a granule of them is
uncorrectable and whether one was corrected. -/
inductive DevRes where
  | fault
  | owner
  | bytes (v : Nat) (bad corr : Bool)
  deriving DecidableEq, Repr

/-- The part of one granule in a device read: `n` bytes at a physical address that do not leave the granule; a host-window
granule is the host's (R391). -/
def fetchPart (s : State) (p n : Nat) : State × Nat × Bool × Bool :=
  if isHostFrame s p then
    let (s, v, bad) := hostFetch s p n
    (s, v, bad, false)
  else
    let (s, d, code, corr) := hubReadGran s p
    (s, d.toNat / 2 ^ (8 * (p % 128)) % 2 ^ (8 * n), decide (code ≠ 0), corr)

/-- Read `n` bytes at a virtual address of a context for the device itself, granule by granule at their hubs (R253 to R256), in
at most `fuel` granules. -/
def devFetch (s : State) (asid tenant : Nat) : Nat → Nat → Nat → State × DevRes
  | 0, _, _ => (s, .bytes 0 false false)
  | fuel + 1, va, n =>
    if n = 0 then (s, .bytes 0 false false)
    else
      let k := min n (128 - va % 128)
      match walkTo s asid va tenant false with
      | (s, .fault) => (s, .fault)
      | (s, .owner) => (s, .owner)
      | (s, .pa p) =>
        let (s, v, bad, corr) := fetchPart s p k
        match devFetch s asid tenant fuel (va + k) (n - k) with
        | (s, .bytes r bad' corr') => (s, .bytes (v + 2 ^ (8 * k) * r) (bad || bad') (corr || corr'))
        | x => x

/-- The bytes of a device read of up to 64 granules: none on a translation fault, a refusal or an uncorrectable granule. -/
def devGet (s : State) (asid va tenant n : Nat) : State × Option Nat :=
  match devFetch s asid tenant 65 va n with
  | (s, .bytes v false _) => (s, some v)
  | (s, _) => (s, none)

/-- What `devGet` answers, where its effects on the error banks are taken up elsewhere. -/
def devRead (s : State) (asid va tenant n : Nat) : Option Nat := (devGet s asid va tenant n).2

/-- How a write that a block of the device makes for itself ends: done, a translation fault, a refusal by the page owner table, no room
in the undo log of a context (R264). -/
inductive PutRes where
  | done
  | fault
  | owner
  | full (asid : Nat)
  deriving DecidableEq, Repr

/-- The device writes bytes of one granule at a physical address for core `core` (256: for none); a host-window granule is the host's
(R391). -/
def devPut (s : State) (core tenant a : Nat) (d : BitVec 1024) (mask : BitVec 128) (whole : Bool) : State × PutRes :=
  if isHostFrame s a then (hostWrite s tenant a d mask [], .done)
  else
    match hubWriteGran s core a d mask whole [] with
    | .done s => (s, .done)
    | .held s => (s, .done)
    | .full s x => (s, .full x)

/-- The device writes a whole granule at a virtual address of a context for core `core` (256: for none). -/
def devPutGran (s : State) (core asid va tenant : Nat) (d : BitVec 1024) : State × PutRes :=
  match walkTo s asid va tenant true with
  | (s, .pa a) => devPut s core tenant a d (BitVec.allOnes 128) true
  | (s, .owner) => (s, .owner)
  | (s, .fault) => (s, .fault)

/-- The reads of the walks that a core's accesses need: those of the addresses whose leaf it does not hold (R254 to R256, R389). -/
def walksOf (s : State) (u asid tenant : Nat) (vas : List Nat) : State :=
  vas.foldl (fun s va => if (tlbOf s u asid va).isSome then s else walkReads s asid tenant va) s

/-- What is under way of a tenant's accesses through its function to the host, and which contexts of `as` hold writes (R390, R393). -/
def oldUse (s : State) (tenant : Nat) (as : List Nat) : OldUse :=
  ⟨(s.links.hostReq.filter fun r => decide (askTenant s r.2.2 = some tenant)).map (fun r => (r.1, r.2.1)),
   (as.filter fun a => !(ctxOf s a).held.isEmpty).map fun a => (a, (ctxOf s a).iv)⟩

/-- Is some of it still under way? -/
def stillUsed (s : State) (u : OldUse) : Bool :=
  (u.reqs.any fun r => s.links.hostReq.any fun x => decide (x.1 = r.1) && decide (x.2.1 = r.2))
    || u.held.any fun h => decide ((ctxOf s h.1).iv = h.2) && !(ctxOf s h.1).held.isEmpty

/-- The wait kept under a key: a VF's number for `XLINV`, 1024 more than a caller's for its release of frames. -/
def waitOf (s : State) (k : Nat) : OldUse := mapGet ⟨[], []⟩ s.dev.waits k
def State.setWait (s : State) (k : Nat) (u : OldUse) : State :=
  { s with dev := { s.dev with waits := mapSet ⟨[], []⟩ s.dev.waits k u } }

/-- The command (core, queue, seq). -/
def cmdOf (s : State) (core q seq : Nat) : Option Cmd :=
  (s.core core).cmds.find? fun m => decide (m.q = q) && decide (m.e.seq = seq)

/-- Change the command (core, queue, seq). -/
def State.onCmd (s : State) (core q seq : Nat) (f : Cmd → Cmd) : State :=
  let c := s.core core
  s.setCore core { c with cmds := c.cmds.map fun m => if m.q = q ∧ m.e.seq = seq then f m else m }

/-- The command that an item belongs to. -/
def itemCmd : Item → Option (Nat × Nat × Nat)
  | .read c q n _ _ => some (c, q, n)
  | .write c q n _ _ _ _ _ _ => some (c, q, n)
  | .atomic c n => some (c, 3, n)
  | .ared c n => some (c, 3, n)
  | .lin c n => some (c, 3, n)
  | .release c q n => some (c, q, n)
  | .copyFault c q n _ _ => some (c, q, n)
  | .landing c q n _ => some (c, q, n)
  | .reply c n _ _ _ _ => some (c, 3, n)
  | .post c q n _ _ => some (c, q, n)
  | .enters c n => some (c, 3, n)
  | _ => none

/-- Does work of the command remain, with a host request of it? -/
def cmdBusy (s : State) (core q seq : Nat) : Bool :=
  (s.work.any fun x => decide (itemCmd x.2 = some (core, q, seq)))
    || s.links.hostReq.any fun x => decide (itemCmd x.2.2 = some (core, q, seq))

/-- Take all work of a command away. -/
def dropItems (s : State) (core q seq : Nat) : State :=
  { s with work := s.work.filter fun x => decide (itemCmd x.2 ≠ some (core, q, seq)) }

/-- A command is over: it has completed, or it was stopped. -/
def dropCmd (s : State) (core q seq : Nat) : State :=
  let c := s.core core
  dropItems (s.setCore core { c with cmds := c.cmds.filter fun m => !(decide (m.q = q) && decide (m.e.seq = seq)) }) core q seq

/-- The current generation of (tenant, family) (R396). -/
def genOf (s : State) (tenant family : Nat) : Nat := mapGet 0 s.dev.gens (tenant * 256 + family)

/-- The loan register of a form (R342). -/
def flendOf (s : State) (f : Nat) : Word := mapGet 0 s.sched.flend f

/-- The tenant that a lent form has passed to (R34, R342): the borrower's, once no core of the form holds a task of the lender;
the lowest where several tenants may name the borrower (log entry 125). -/
def lentTo (s : State) (f : Nat) : Option Nat :=
  let fl := flendOf s f
  if fl.getLsbD 12 && (List.range 8).all fun m =>
      let c := s.core (8 * f + m); decide (c.life = .idle) || decide (c.sys.owner ≠ fieldOf fl 0 6) || decide (fieldOf fl 0 6 = fieldOf fl 6 6) then
    (List.range 1024).find? fun t => let e := mapGet 0 s.dev.tenant t; e.getLsbD 64 && e.getLsbD (fieldOf fl 6 6)
  else none

/-- Does core `n` belong to the tenant's partition (R33, R342, R395)? -/
def inPartition (s : State) (tenant n : Nat) : Bool :=
  match lentTo s (n / 8) with
  | some t => decide (t = tenant)
  | none => (mapGet 0 s.dev.tenant tenant).getLsbD (256 + n)

/-- Cores of a tenant's partition, in ascending device core number (R16, R395). -/
def partitionOf (s : State) (tenant : Nat) : List Nat := (List.range 256).filter (inPartition s tenant)

/-- Raise a cause of an issued command on a core (origin A, R213, R215). -/
def raiseAsync (s : State) (core cause q : Nat) (i0 i1 : Word) : State :=
  s.setCore core (raise (s.core core) s.time ⟨cause, true, q, false, i0, i1, (s.core core).seq.pc⟩)

/-- A violation of a core found outside its sequencer (R36), at an address or with a handle. -/
def violateCore (s : State) (core q : Nat) (where_ : Word) : State := raiseAsync s core causeOwner q where_ 0

end Sys2Proof.Machine
end

