-- ==== Sys2Proof/Machine/Handles.lean ====
section
/-! DEFINITION. Handle records, their checks and the handle words (08_handles_and_system_registers R193 to R205). -/

namespace Sys2Proof.Machine

/-- Fields of a handle (R193). -/
def hBase (x : BitVec 512) : Nat := fieldOf x 0 48
def hExt (x : BitVec 512) (d : Nat) : Nat := fieldOf x (48 + 16 * d) 16
def hPitch (x : BitVec 512) (d : Nat) : Nat := if d = 0 then 0 else fieldOf x (112 + 24 * (d - 1)) 24
def hPmap (x : BitVec 512) : Nat := fieldOf x 184 48
def hScale (x : BitVec 512) : Nat := fieldOf x 232 48
def hBlo (x : BitVec 512) : Nat := fieldOf x 280 32
def hBhi (x : BitVec 512) : Nat := fieldOf x 312 32
def hBpol (x : BitVec 512) : Nat := fieldOf x 344 2
def hPpol (x : BitVec 512) : Nat := fieldOf x 346 2
def hBdim (x : BitVec 512) : Nat := fieldOf x 348 2
def hRankm1 (x : BitVec 512) : Nat := fieldOf x 350 2
def hFmt (x : BitVec 512) : Nat := fieldOf x 352 6
def hRights (x : BitVec 512) : Nat := fieldOf x 358 12
def hGen (x : BitVec 512) : Nat := fieldOf x 370 16
def hFamily (x : BitVec 512) : Nat := fieldOf x 386 8
def hAsid (x : BitVec 512) : Nat := fieldOf x 394 10

/-- Bits of one element of a handle's view: HANDLE elements take 64 bytes (R194). -/
def hElemBits (x : BitVec 512) : Nat :=
  match fmtOfCode (hFmt x) with
  | some f => fmtBits f
  | none => 8

/-- Has the handle right `n` (R196)? -/
def hasRight (x : BitVec 512) (n : Nat) : Bool := (hRights x).testBit n

/-- SEAL (R11): CMAC-AES-256 under the sealing key, truncated to 64 bits (log entry 4). -/
def sealOf (key v : Nat) : BitVec 64 := BitVec.ofNat 64 (cmac key 56 v)

/-- Seal a record over bits [447:0] under a key (R11, R193, R203). -/
def sealRec (key : Nat) (x : BitVec 512) : BitVec 512 := (sealOf key (x.toNat % 2 ^ 448)) ++ x.extractLsb' 0 448

/-- The sealing key in the handle unit of a core: its panel's copy (R437). -/
def panelKey (s : State) (core : Nat) : Nat := mapGet 0 s.thim.sealing (core / 32)

/-- What the checks of a handle record find (R201). -/
inductive HChk where
  | empty
  | ok
  | seal_
  | owner
  | revoked (family : Nat)
  deriving DecidableEq, Repr

/-- The checks of HLD on a record from a CLEAN line (R201), with the sealing key of the unit that checks. -/
def handleCheck (s : State) (key tenant : Nat) (x : BitVec 512) : HChk :=
  if x = 0 then .empty
  else if x ≠ sealRec key x ∨ fieldOf x 404 44 ≠ 0 then .seal_
  else if fieldOf (asidOf s (hAsid x)) 1 10 ≠ tenant then .owner
  else if hGen x ≠ genOf s tenant (hFamily x) then .revoked (hFamily x)
  else .ok

/-- Write a handle register; its readers wait `lat` cycles (R200). -/
def setH (c : Core) (cyc : Nat) (n : BitVec 5) (h : Handle) (lat : Nat) : Core :=
  { c with
    h := mapSet Handle.none c.h n.toNat h
    seq := { c.seq with ready := mapSet 0 c.seq.ready (64 + n.toNat) (max (mapGet 0 c.seq.ready (64 + n.toNat)) (cyc + lat)) } }

/-- Handle register `n`. -/
def hreg (c : Core) (n : BitVec 5) : Handle := mapGet Handle.none c.h n.toNat

/-- A handle word that writes hd and goes on. -/
def handleNext (s : State) (n : BitVec 5) (h : Handle) (lat : Nat) : Ans :=
  .next (s.onMe fun c => retire (stepPc (setH c s.cyc n h lat)) s.cyc 1)

/-- The result interval of a HLD whose record's generation is looked up (R200): up to 2 µs longer where the core's handle cache does not
hold the family's; how much longer is free, and the oldest of 64 makes room (log entry 162). -/
def genLookup (s : State) (family : Nat) : Nat × State :=
  let l := s.me.seq.gens
  if l.contains family then (24, s)
  else
    let (n, s) := s.draw 14 1701
    (24 + n, s.onMe fun c => { c with seq := { c.seq with gens := l.drop (l.length - 63) ++ [family] } })

/-- HLD (R201). -/
def execHld (o : HldOp) (s : State) : Ans :=
  let c := s.me
  let a := getS c o.sa + sext64 o.off
  match accessCheck c a 64 64 1 1 with
  | .trap k i0 i1 => seqTrap s k i0 i1
  | .ok =>
    let c := touchRead c s.cyc a.toNat 64
    let code := lineCode c (lineOf a.toNat)
    let x : BitVec 512 := BitVec.ofNat 512 (scRead c a.toNat 64)
    let s := s.setCore s.cur (psumCode c code)
    if code ≠ 0 then handleNext s o.hd Handle.none 24
    else match handleCheck s (panelKey s s.cur) c.sys.tenant x with
      | .empty => handleNext s o.hd Handle.none 24
      | .ok => let (lat, s) := genLookup s (hFamily x)
        handleNext s o.hd ⟨x, .valid⟩ lat
      | .seal_ => seqTrap s causeSeal a 0
      | .owner => seqTrap s causeOwner a 0
      | .revoked f => seqTrap s causeRevoked (BitVec.ofNat 64 f) 1

/-- HST (R202). The rule gives its HANDLE_REVOKED no information: the register's number and 0 are the model's choice (log entry 156). -/
def execHst (o : HstOp) (s : State) : Ans :=
  let c := s.me
  let h := hreg c o.ha
  let a := getS c o.sa + sext64 o.off
  match accessCheck c a 64 64 2 2 with
  | .trap k i0 i1 => seqTrap s k i0 i1
  | .ok =>
    match h.st with
    | .revoked => seqTrap s causeRevoked (o.ha.setWidth 64) 0
    | .empty => coreNext s fun c => scWrite c s.cyc a.toNat 64 0
    | .valid =>
      if hasRight h.bits 6 then coreNext s fun c => scWrite c s.cyc a.toNat 64 h.bits.toNat
      else seqTrap s causeRights (o.ha.setWidth 64) 0

/-- The check of ha and DERIVE that both modes of HNARROW begin with (R203). -/
def deriveCheck (s : State) (ha : BitVec 5) (w : IWord) (k : BitVec 512 → Ans) : Ans :=
  let h := hreg s.me ha
  match h.st with
  | .empty => illegalAt s 5 w
  | .revoked => seqTrap s causeRevoked (ha.setWidth 64) 0
  | .valid => if hasRight h.bits 5 then k h.bits else seqTrap s causeRights (ha.setWidth 64) 0

/-- Product of the extents below dimension `d` (R203). -/
def innerExtent (x : BitVec 512) (d : Nat) : Nat := (List.range d).foldl (fun p i => p * hExt x i) 1

/-- The narrowed record of R203, before sealing. -/
def narrowed (x : BitVec 512) (d start ext : Nat) : BitVec 512 :=
  let shift := if d = 0 then start * hElemBits x / 8 else 128 * start * hPitch x d
  let y := setField (setField x 0 48 (hBase x + shift)) (48 + 16 * d) 16 ext
  let y := if hPmap x ≠ 0 ∧ d = hBdim x then setField y 184 48 (hPmap x + start / 4) else y
  if hFmt x = 10 then setField y 232 48 (hScale x + 384 * (start * innerExtent x d / 16384)) else y

/-- Which of R203's ILLEGAL OPERAND conditions after the bounds check hold. -/
def narrowBad (x : BitVec 512) (d start : Nat) : Bool :=
  (decide (d = 0) && decide (start * hElemBits x % 1024 ≠ 0))
    || (decide (hPmap x ≠ 0) && decide (d = hBdim x) && decide (start % 4 ≠ 0))
    || (decide (hFmt x = 10) && (decide (d ≠ hRankm1 x) || decide (start * innerExtent x d % 16384 ≠ 0)))

/-- HNARROW, view mode (R203). -/
def execHnarrow (o : HnarrowOp) (s : State) : Ans :=
  let w := wordOf (.hnarrow o)
  deriveCheck s o.ha w fun x =>
    let start := (getS s.me o.sa).toNat
    let ext := (getS s.me o.sb).toNat
    let d := o.dim.toNat
    if hRankm1 x < d ∨ ext = 0 then illegalAt s 5 w
    else if hExt x d < start + ext then seqTrap s causeBounds (o.ha.setWidth 64) 0
    else if narrowBad x d start then illegalAt s 5 w
    else handleNext s o.hd ⟨sealRec (panelKey s s.cur) (narrowed x d start ext), .valid⟩ 24

/-- The strength order of PPOL: ALLOW, CONTAIN-ERROR, CONTAIN (R204). -/
def ppolRank (p : Nat) : Nat := if p = 1 then 2 else if p = 2 then 1 else 0

/-- HNARROW, range mode (R204). -/
def execHnarrowRange (o : HrangeOp) (s : State) : Ans :=
  let w := wordOf (.hnarrowRange o)
  if o.ppol = 3 then illegalAt s 3 w
  else deriveCheck s o.ha w fun x =>
    let a := (getS s.me o.sa).toNat
    let b := (getS s.me o.sb).toNat
    if 2 ^ 32 ≤ a ∨ 2 ^ 32 ≤ b then illegalAt s 5 w
    else
      let va := fdecode f32 a
      let vb := fdecode f32 b
      if fvIsNan va ∨ fvIsNan vb then illegalAt s 5 w
      else
        let lo := if fvCmp va (fdecode f32 (hBlo x)) < 0 then hBlo x else if fvCmp va (fdecode f32 (hBlo x)) = 0 then hBlo x else a
        let hi := if 0 ≤ fvCmp vb (fdecode f32 (hBhi x)) then hBhi x else b
        if 0 < fvCmp (fdecode f32 lo) (fdecode f32 hi) then illegalAt s 5 w
        else if o.bpol.toNat < hBpol x ∨ ppolRank o.ppol.toNat < ppolRank (hPpol x) then seqTrap s causeRights (o.ha.setWidth 64) 0
        else
          let y := setField (setField (setField (setField x 280 32 lo) 312 32 hi) 344 2 o.bpol.toNat) 346 2 o.ppol.toNat
          handleNext s o.hd ⟨sealRec (panelKey s s.cur) y, .valid⟩ 24

/-- HDROP (R205): an EMPTY source gives EMPTY, a REVOKED one REVOKED. -/
def execHdrop (o : HdropOp) (s : State) : Ans :=
  let h := hreg s.me o.ha
  match h.st with
  | .valid =>
    let y := setField h.bits 358 12 ((hRights h.bits) &&& (0xFFF ^^^ o.mask.toNat))
    handleNext s o.hd ⟨sealRec (panelKey s s.cur) y, .valid⟩ 24
  | _ => handleNext s o.hd h 24

/-- The value of a handle field (R205). -/
def handleField (h : Handle) (f : Nat) : Nat :=
  let x := h.bits
  match f with
  | 0 => hBase x
  | 8 => hPmap x
  | 9 => hScale x
  | 10 => hBlo x
  | 11 => hBhi x
  | 12 => hBpol x
  | 13 => hPpol x
  | 14 => hBdim x
  | 15 => hRankm1 x
  | 16 => hFmt x
  | 17 => hRights x
  | 18 => hGen x
  | 19 => hFamily x
  | 20 => hAsid x
  | 21 => match h.st with
    | .empty => 0
    | .valid => 1
    | .revoked => 2
  | k => if k ≤ 4 then hExt x (k - 1) else hPitch x (k - 4)

/-- HFIELD (R205): numbers 22 to 31 raise ILLEGAL RESERVED. -/
def execHfield (o : HfieldOp) (s : State) : Ans :=
  if 21 < o.field.toNat then illegalAt s 3 (wordOf (.hfield o))
  else
    let h := hreg s.me o.ha
    let v := if h.st = .valid ∨ o.field = 21 then handleField h o.field.toNat else 0
    writeNext s o.sd (BitVec.ofNat 64 v) 1

/-- HMOV (R205). -/
def execHmov (o : HmovOp) (s : State) : Ans := handleNext s o.hd (hreg s.me o.ha) 1

/-- HCLR (R205). -/
def execHclr (o : HclrOp) (s : State) : Ans := handleNext s o.hd Handle.none 1

end Sys2Proof.Machine
end

