-- ==== Sys2Proof/Machine/Copy.lean ====
section
/-! DEFINITION. The copy words (09 R239 to R247): where the elements of a repetition lie in the view and in the scratchpad, the
checks at decode (R241), what CPIN, CPOUT, CPSET and CPMAP do at issue, and the data that lands. -/

namespace Sys2Proof.Machine

/-- One element of a repetition: device address, bytes, bit in its byte, view row along BDIM, block row and column, its
place in the scratchpad. -/
structure CopyElem where
  va : Nat
  n : Nat
  bit : Nat
  row : Nat
  br : Nat
  bc : Nat
  place : Place
  deriving DecidableEq, Repr

/-- Coordinate d of element (r, c) of repetition j (R240). -/
def viewCoord (e : QEntry) (j r k d : Nat) : Int :=
  let o : Int := ((cap e 0).toNat / 2 ^ (16 * d) % 65536 : Nat)
  let t : Int := sintOf 16 ((cap e 1).toNat / 2 ^ (16 * d))
  o + (j : Int) * t + (if d = 0 then (k : Int) else if d = 1 then (r : Int) else 0)

/-- The byte address and the bit in it of a view element (R194). -/
def viewAddr (x : BitVec 512) (i : Nat → Int) : Nat × Nat :=
  let b := hElemBits x
  let bits : Int := i 0 * (b : Int)
  (addr64 ((hBase x : Int) + bits / 8 + 128 * (i 1 * (hPitch x 1 : Int) + i 2 * (hPitch x 2 : Int) + i 3 * (hPitch x 3 : Int))),
    (bits % 8).toNat)

/-- One element of repetition j (R240). -/
def copyElem (x : BitVec 512) (e : QEntry) (j r k : Nat) : CopyElem :=
  let a := viewAddr x (viewCoord e j r k)
  ⟨a.1, (hElemBits x + 7) / 8, a.2, (viewCoord e j r k (hBdim x)).toNat, r, k, (gPlaces e.ga j r k).headD ⟨0, 1, 0⟩⟩

/-- The elements of repetition j, row-major. -/
def copyElems (x : BitVec 512) (e : QEntry) (j : Nat) : List CopyElem :=
  (List.range (gRows e.ga)).flatMap fun r => (List.range (gCols e.ga)).map fun k => copyElem x e j r k

/-- Are coordinates inside the view (R195, R241)? -/
def inView (x : BitVec 512) (i : Nat → Int) : Bool :=
  (List.range 4).all fun d => decide (0 ≤ i d) && decide (i d < (hExt x d : Int))

/-- Granules of a byte range. -/
def granulesOf (a n : Nat) : List Nat := (List.range ((a + n - 1) / 128 + 1 - a / 128)).map fun i => (a / 128 + i) * 128

/-- The data granules of a repetition. -/
def repGranules (es : List CopyElem) : List Nat := (es.flatMap fun y => granulesOf y.va y.n).eraseDups

/-- View rows of a repetition. -/
def repRows (es : List CopyElem) : List Nat := (es.map (·.row)).eraseDups

/-- The map granule of a view row (R195). -/
def mapGranule (x : BitVec 512) (row : Nat) : Nat := (hPmap x + row / 4) / 128 * 128

/-- The rows whose codes CPMAP reads in repetition j (R247). -/
def mapRows (x : BitVec 512) (e : QEntry) (j : Nat) : List Int :=
  (List.range (gRows e.ga)).map fun (t : Nat) => viewCoord e j 0 0 (hBdim x) + (t : Int)

/-- Lowest byte at or above 2^23 that an access would touch; its first byte where that lies there (R464). -/
def rangeFault (first : Nat) (ps : List Place) : Option Nat :=
  let bad := ps.filterMap fun p => rangeAddr p.at_ p.n
  match bad with
  | [] => none
  | b :: t => if spadSize ≤ first then some first else some (t.foldl min b)

/-- A copy word and its count: the operands, the handle right it needs (R239), whether it writes the scratchpad. -/
structure CopyWord where
  o : CopyOp
  right : Nat
  kind : Nat
  deriving DecidableEq, Repr

/-- The copy word of an instruction: kind 0 CPIN, 1 CPOUT, 2 CPSET, 3 CPMAP. -/
def copyWord (i : Instr) : Option CopyWord :=
  match i with
  | .cpin o => some ⟨o, 0, 0⟩
  | .cpout o => some ⟨o, 1, 1⟩
  | .cpset o => some ⟨o, 1, 2⟩
  | .cpmap o => some ⟨o, 7, 3⟩
  | _ => none

/-- Repetitions of a copy word (R80). -/
def copyReps (w : CopyWord) : Nat := w.o.rep.toNat + 1

/-- The scratchpad places of a copy word over all its repetitions. -/
def copyPlaces (w : CopyWord) (e : QEntry) : List Place :=
  let x := e.h.bits
  (List.range (copyReps w)).flatMap fun j =>
    if w.kind = 3 then [⟨((gPlaces e.ga j 0 0).headD ⟨0, 0, 0⟩).at_, 32, 0⟩]
    else if w.kind = 2 then [] else (copyElems x e j).map (·.place)

/-- The bytes of some places, line by line. -/
def placeMasks (ps : List Place) : Map (BitVec 128) :=
  ps.foldl (fun m p => (List.range p.n).foldl (fun m i =>
    let a := p.at_ + i
    mapSet 0 m (a / 128) (mapGet 0 m (a / 128) ||| (1#128 <<< (a % 128)))) m) []

/-- Bytes of a footprint, each once (R175). -/
def placeBytes (ps : List Place) : Nat := (placeMasks ps).foldl (fun n e => n + onesBelow e.2.toNat 128) 0

/-- Is every element that the word names inside the view (R241, 3)? -/
def copyInside (w : CopyWord) (e : QEntry) : Bool :=
  let x := e.h.bits
  (List.range (copyReps w)).all fun j =>
    if w.kind = 3 then
      (mapRows x e j).all fun u => (List.range 4).all fun d =>
        let i := if d = hBdim x then u else viewCoord e j 0 0 d
        decide (0 ≤ i) && decide (i < (hExt x d : Int))
    else (List.range (gRows e.ga)).all fun r => (List.range (gCols e.ga)).all fun k => inView x (viewCoord e j r k)

/-- The checks of a copy word at decode (R241), over all its repetitions and on its captured operands. A CPIN or CPOUT needs a stream
of its view's format, which R174 does not admit for RAW8 and HANDLE: a copy of such a view is refused, though R43 and R240 speak of
moving its data (log entry 131). -/
def copyCheck (c : Core) (w : CopyWord) (e : QEntry) (raw : IWord) : DecCheck :=
  let x := e.h.bits
  let half := decide (hElemBits x = 4)
  let ps := copyPlaces w e
  let code := ps.any fun p => (List.range p.n).any fun i => inCode c (p.at_ + i)
  let o0 := viewCoord e 0 0 0 0
  let t0 := sintOf 16 (cap e 1).toNat
  let odd := half && ((List.range (copyReps w)).any fun (j : Nat) => decide ((o0 + (j : Int) * t0) % 2 ≠ 0))
  firstCheck [
    need (decide (e.h.st ≠ .empty)) (decOperand raw),
    need (decide (e.h.st ≠ .revoked)) (.trap causeRevoked (BitVec.ofNat 64 e.hn) 0),
    need (hasRight x w.right && (decide (w.kind ≠ 0) || !code || hasRight x 8)) (.trap causeRights (BitVec.ofNat 64 e.hn) 0),
    need (copyInside w e) (.trap causeBounds (BitVec.ofNat 64 e.hn) 0),
    need (decide (gRows e.ga ≠ 0) && (decide (2 ≤ w.kind) || decide (gFormat e.ga = hFmt x))
      && (decide (w.kind = 2) || decide (gLayout e.ga ≠ 2)) && operandOk' w
      && (decide (w.o.mode ≠ 1) || e.slot.getLsbD 63) && !odd && (decide (w.kind ≠ 3) || decide (hPmap x ≠ 0))
      && (decide (w.kind ≠ 1) || decide (placeBytes ps ≤ 131072))
      && (decide (w.kind ≠ 3) || ps.all fun p => decide (p.at_ % 32 = 0))) (decOperand raw),
    match rangeFault ((ps.headD ⟨0, 0, 0⟩).at_) ps with
      | some a => .trap causeRange (BitVec.ofNat 64 a) (if w.kind = 1 then 1 else 2)
      | none => .ok]
  where
    operandOk' (w : CopyWord) : Bool := decide (w.kind = 0) || decide (w.o.mode ≠ 1)

/-- Issue of a word that sends requests on their way: its effect on the core, the cycles that its requests may take, and its items, each due
within `bound` cycles (R465), or the cause it raises, with the lines that its reads have touched (R244). -/
inductive SendRes where
  | done (c : Core) (total bound : Nat) (items : List Item)
  | trap (cause : Nat) (i0 i1 : Word) (lines : List Nat)
  deriving DecidableEq, Repr

/-- A marked entry raises HANDLE_REVOKED at issue (R397, step 5). -/
def markedOr (e : QEntry) (r : SendRes) : SendRes :=
  if e.mark then .trap causeRevoked (BitVec.ofNat 64 (hFamily e.h.bits)) (BitVec.ofNat 64 e.seq) [] else r

/-- The newest command of a core leaves it at cycle `cyc` and has until `t` to complete (R465). -/
def cmdTill (c : Core) (cyc t : Nat) : Core :=
  { c with cmds := match c.cmds.getLast? with
      | some m => c.cmds.dropLast ++ [{ m with till := t, left := cyc }]
      | none => [] }

/-- Cycles that the answer of a command may take beyond those of its requests: together they keep the bound of R465. -/
def answerBound : Nat := 1000

/-- Does an item belong to a command that is ordered after the requests which core `n` issues from queue `q` in fc `f` (R277, R284): by
its issue fc, then the member of a locked form, then the queue? -/
def itemAfter (s : State) (n f q : Nat) (it : Item) : Bool :=
  match itemCmd it with
  | some (c, q', seq) =>
    (match cmdOf s c q' seq with
    | some m => (decide (c = n) || (decide (c / 8 = n / 8) && !s.isSplit n))
        && (decide (f < m.issueFc) || (decide (f = m.issueFc) && (decide (n < c) || (decide (n = c) && decide (q < q')))))
    | none => false)
  | none => false

/-- Put work of core `n`, issued from queue `q` in fc `f`, on its way, at its place in the order of R277 and R284; each piece is due within
`b` cycles, at once where `b` is 0. -/
def sendWork (s : State) (n f q b : Nat) (its : List Item) : State :=
  let later := s.work.dropWhile fun x => !itemAfter s n f q x.2
  let s0 : State := { s with work := s.work.takeWhile fun x => !itemAfter s n f q x.2 }
  let s1 := its.foldl (fun s it => if b = 0 then addWorkAt s 0 it else addWork s b it) s0
  { s1 with work := s1.work ++ later }

/-- Issue of the latched entry of the C or L queue. -/
def sendIssue (q : Nat) (s : State) (f : Core → QEntry → SendRes) : Ans :=
  let c := s.me
  match markedOr c.latch (f (popIssued c q) c.latch) with
  | .done c' k b its => .next (sendWork (s.setCore s.cur (cmdTill c' s.cyc (s.cyc + k + answerBound))) s.cur c.fc q b its)
  | .trap k i0 i1 ls => .next (s.setCore s.cur (raise { touchLines c s.cyc 9 ls with heldq := c.heldq ||| (1#4 <<< q) } s.time
      ⟨k, false, q, false, i0, i1, c.seq.pc⟩))

/-- Is the word a CPOUT? -/
def isCpout (i : Instr) : Bool :=
  match i with
  | .cpout _ => true
  | _ => false

/-- The places and the lines of a CPOUT's blocks. -/
def outPlaces (e : QEntry) : List Place :=
  match copyWord e.i with
  | some w => copyPlaces w e
  | none => []
def outLines (e : QEntry) : List Nat := placeLines (outPlaces e)

/-- Bytes of the outbound half that the issued CPOUT words of core `n` hold: those that the hubs have not accepted (R233). -/
def outUsed (s : State) (n : Nat) : Nat :=
  s.work.foldl (fun k x => match x.2 with
    | .write c 2 seq _ _ _ mask _ _ =>
      if c = n ∧ ((s.core n).cmds.any fun m => decide (m.q = 2) && decide (m.e.seq = seq) && isCpout m.e.i) then
        k + onesBelow mask.toNat 128 else k
    | _ => k) 0

/-- Has the outbound half room for the blocks of a CPOUT (R233)? -/
def outRoom (s : State) (n : Nat) (e : QEntry) : Bool := decide (outUsed s n + placeBytes (outPlaces e) ≤ 131072)

/-- A command that has issued. -/
def newCmd (c : Core) (q : Nat) (e : QEntry) (reps : List RepState) : Cmd :=
  ⟨q, e, c.fc, true, true, false, reps, [], [], 0, 0, none, false, false, 0, 0, 0⟩

/-- Cycles of 2 µs that the granules of a core's command add to its bound (R465): for each whose leaf the core does not hold a walk, for
each in a frame under rotation its rotation (R400). -/
def walkBound (s : State) (u asid tenant : Nat) (vas : List Nat) : Nat :=
  let walks := (vas.filter fun va => (tlbOf s u asid va).isNone).length
  let turning := (vas.filter fun va => match translate s u asid va tenant false with
    | .pa a => (potOf s a).getLsbD 15
    | _ => false).length
  1700 * (walks + turning)

/-- The bound of R465 for the requests of a command that touches these granules: with its answer it completes within 50 µs, 20 ns for each
granule, and the walks and rotations it meets. -/
def copyBound (s : State) (u asid tenant : Nat) (vas : List Nat) : Nat :=
  devBound - answerBound + 17 * vas.length + walkBound s u asid tenant vas

/-- The granule of a read or write request. -/
def itemGva : Item → List Nat
  | .read _ _ _ _ g => [g]
  | .write _ _ _ _ g _ _ _ _ => [g]
  | _ => []

/-- A copy word has issued: its command, and its requests within their bound. -/
def copyDone (s : State) (c : Core) (e : QEntry) (rs : List RepState) (items : List Item) : SendRes :=
  let b := copyBound s s.cur (hAsid e.h.bits) c.sys.tenant (items.flatMap itemGva)
  .done { c with cmds := c.cmds ++ [newCmd c 2 e rs] } b b items

/-- The promised fc of repetition j under TIMED (R236). -/
def promised (c : Core) (e : QEntry) (j : Nat) : Nat :=
  let l := e.slot
  let o := (c.queue (l.toNat % 4)).origin
  let p := o + l.toNat / 2 ^ 4 % 2 ^ 20 + j * (l.toNat / 2 ^ 24 % 2 ^ 16)
  if p < c.fc + 1 then c.fc + 1 else p

/-- The granules that a repetition of CPIN reads: its elements', and those of the poison map. -/
def repReads (x : BitVec 512) (e : QEntry) (j : Nat) : List Nat :=
  let es := copyElems x e j
  repGranules es ++ (if hPmap x = 0 then [] else ((repRows es).map (mapGranule x)).eraseDups)

/-- CPIN (R242): every granule of every repetition, and of the poison map, is read. -/
def execCpin (o : CopyOp) (s : State) : Ans :=
  sendIssue 2 s fun c e =>
    let x := e.h.bits
    let w : CopyWord := ⟨o, 0, 0⟩
    let reps := List.range (copyReps w)
    let items := reps.flatMap fun j => (repReads x e j).map fun g => Item.read s.cur 2 e.seq j g
    let rs := reps.map fun j => (⟨j, if o.mode = 1 then promised c e j else 0, [], false, false⟩ : RepState)
    copyDone s c e rs items

/-- CPMAP (R247): the map granules of each repetition's rows are read. -/
def execCpmap (o : CopyOp) (s : State) : Ans :=
  sendIssue 2 s fun c e =>
    let x := e.h.bits
    let reps := List.range (copyReps ⟨o, 7, 3⟩)
    let items := reps.flatMap fun j =>
      (((mapRows x e j).map fun u => mapGranule x u.toNat).eraseDups).map fun g => Item.read s.cur 2 e.seq j g
    let rs := reps.map fun j => (⟨j, 0, [], false, false⟩ : RepState)
    copyDone s c e rs items

/-- The exact value of an element for the bound policies; none for QN4, HANDLE and RAW8 (R244). -/
def policyVal (x : BitVec 512) (bits : Nat) : Option FVal :=
  match fmtOfCode (hFmt x) with
  | some f => if fmtIsFloat f || fmtIsInt f then some (elemVal f bits) else none
  | none => none

/-- Is an element outside the handle's bounds, compared exactly (R244)? -/
def outOfView (x : BitVec 512) (bits : Nat) : Bool :=
  match policyVal x bits with
  | some v => fvIsNan v || decide (fvCmp v (fdecode f32 (hBlo x)) < 0) || decide (0 < fvCmp v (fdecode f32 (hBhi x)))
  | none => false

/-- The element that CLAMP writes (R245). -/
def clampView (x : BitVec 512) (bits : Nat) : Nat :=
  match policyVal x bits with
  | some v =>
    let f := (fmtOfCode (hFmt x)).getD .fp32
    if fvIsNan v ∨ fvCmp v (fdecode f32 (hBlo x)) < 0 then (convElem .fp32 f .rup true 0 (hBlo x)).1
    else if 0 < fvCmp v (fdecode f32 (hBhi x)) then (convElem .fp32 f .rdn true 0 (hBhi x)).1
    else bits
  | none => bits

/-- One element on its way to device memory: repetition, device place, bits, code. -/
structure OutElem where
  j : Nat
  y : CopyElem
  bits : Nat
  code : BitVec 2
  deriving DecidableEq, Repr

/-- Data and byte mask of the elements that lie in one granule; a half-byte element keeps the other half as `old` has it. -/
def granuleWrite (g : Nat) (half : Bool) (es : List OutElem) : BitVec 1024 × BitVec 128 :=
  es.foldl (fun r e =>
    (List.range e.y.n).foldl (fun r i =>
      let a := e.y.va + i
      if a / 128 * 128 = g then
        let sh := 8 * (a % 128) + (if half then e.y.bit else 0)
        let v := if half then e.bits % 16 else e.bits / 2 ^ (8 * i) % 256
        let m : BitVec 1024 := if half then 15#1024 <<< sh else 255#1024 <<< sh
        ((r.1 &&& ~~~ m) ||| (BitVec.ofNat 1024 v <<< sh), r.2 ||| (1#128 <<< (a % 128)))
      else r) r) (0, 0)

/-- Elements in one view row along BDIM. -/
def rowSize (x : BitVec 512) : Nat :=
  ((List.range 4).filter fun d => decide (d ≠ hBdim x)).foldl (fun n d => n * hExt x d) 1

/-- The map fields that repetition `j` of a command writes in one granule (R245, R257): field number in the granule, and the code, plus 4
where the row keeps its old code in play. The repetition with which the row has been wholly rewritten replaces its code, by those of
the repetitions so far; until then, and after it, the codes are raised. -/
def mapFields (x : BitVec 512) (es : List OutElem) (rows : List Nat) (g j : Nat) : List (Nat × Nat) :=
  (rows.filter fun t => decide (mapGranule x t = g)).map fun t =>
    let l := es.filter fun e => decide (e.y.row = t)
    let whole (l : List OutElem) : Bool := decide ((l.map fun e => (e.y.va, e.y.bit)).eraseDups.length = rowSize x)
    let done := whole (l.filter fun e => decide (e.j ≤ j)) && !whole (l.filter fun e => decide (e.j < j))
    let f := (hPmap x + t / 4) % 128 * 4 + t % 4
    if done then (f, (maxCodes ((l.filter fun e => decide (e.j ≤ j)).map (·.code))).toNat)
    else (f, (maxCodes ((l.filter fun e => decide (e.j = j)).map (·.code))).toNat + 4)

/-- Bytes of a granule of which half-byte elements cover one half only: 16 where the upper half stays, 17 where the lower
one does (R44). -/
def loneHalves (g : Nat) (half : Bool) (es : List OutElem) : List (Nat × Nat) :=
  if half then
    let bs := ((es.filter fun e => decide (e.y.va / 128 * 128 = g)).map fun e => e.y.va % 128).eraseDups
    bs.filterMap fun b =>
      let at_ (bit : Nat) : Bool := es.any fun e => decide (e.y.va = g + b) && decide (e.y.bit = bit)
      if at_ 0 && at_ 4 then none else if at_ 0 then some (b, 16) else some (b, 17)
  else []

/-- The write requests of a command (R245): data granules and map granules of each repetition. -/
def writeItems (core q seq : Nat) (x : BitVec 512) (es : List OutElem) (reps : List Nat) : List Item :=
  let half := decide (hElemBits x = 4)
  reps.flatMap fun j =>
    let l := es.filter fun e => decide (e.j = j)
    let data := (repGranules (l.map (·.y))).map fun g =>
      let r := granuleWrite g half l
      Item.write core q seq j g r.1 r.2 0 (loneHalves g half l)
    let rows := (l.map (·.y.row)).eraseDups
    let maps := if hPmap x = 0 then [] else ((rows.map (mapGranule x)).eraseDups).map fun g =>
      Item.write core q seq j g 0 0 0 (mapFields x es rows g j)
    data ++ maps

/-- The first line of a block that the handle's PPOL refuses, as its view row (R244). -/
def poisonRefused (c : Core) (x : BitVec 512) (es : List CopyElem) : Option Nat :=
  (es.find? fun y =>
    let k := codeSeen c (y.place.at_ / 128)
    (decide (hPpol x = 1) && decide (k ≠ 0)) || (decide (hPpol x = 2) && decide (k = 3))).map (·.row)

/-- CPOUT (R244, R245): the blocks are read and checked in the issue fc; a refused line or value traps and holds the word, its reads
made. -/
def execCpout (o : CopyOp) (s : State) : Ans :=
  sendIssue 2 s fun c e =>
    let x := e.h.bits
    let reps := List.range (copyReps ⟨o, 1, 1⟩)
    let all := reps.flatMap fun j => (copyElems x e j).map fun y => (j, y)
    let lines := placeLines (all.map (·.2.place))
    if !tagsOk c lines then .trap causeOwner (BitVec.ofNat 64 (128 * lines.headD 0)) 0 []
    else
      let half := decide (hElemBits x = 4)
      let bitsOf (y : CopyElem) : Nat :=
        let v := bytesSeen c y.place.at_ y.place.n
        if half then v / 2 ^ y.place.bit % 16 else v
      let codeOf (y : CopyElem) : BitVec 2 := maxCodes ((placeLines [y.place]).map (codeSeen c))
      match poisonRefused c x (all.map (·.2)), (all.find? fun p => outOfView x (bitsOf p.2)), hBpol x with
      | some row, _, _ => .trap causePoisonStore (BitVec.ofNat 64 row) (BitVec.ofNat 64 e.seq) lines
      | none, some p, 3 => .trap causeBound (BitVec.ofNat 64 (p.2.br * 256 + p.2.bc)) (BitVec.ofNat 64 e.seq) lines
      | none, _, pol =>
        let es : List OutElem := all.map fun p =>
          let b := bitsOf p.2
          let bad := outOfView x b
          ⟨p.1, p.2, if pol = 2 then clampView x b else b,
            maxCode (codeOf p.2) (if pol = 1 ∧ bad then 2 else 0)⟩
        let nbad := (all.filter fun p => outOfView x (bitsOf p.2)).length
        let c := touchLines c s.cyc 9 lines
        let c := if pol = 2 then countEv c 0x11 nbad else c
        let c := if pol = 1 ∧ nbad ≠ 0 then psumCode c 2 else c
        let items := writeItems s.cur 2 e.seq x es reps
        let rs := reps.map fun j => (⟨j, 0, [], true, false⟩ : RepState)
        copyDone s c e rs items

/-- The pattern of CPSET (R246): a HANDLE element is wider than the register; the spec states no bits for its upper part,
which are free (log entry 1). -/
def setPattern (c : Core) (e : QEntry) (x : BitVec 512) : Nat :=
  let b := hElemBits x
  let lo := (cap e 2).toNat
  if b ≤ 64 then lo % 2 ^ b
  else lo + ((List.range 7).foldl (fun n i => n * 2 ^ 64 + (Config.freeValue (4096 + 8 * c.sys.prcore + i) c.nfree).toNat) 0) * 2 ^ 64

/-- CPSET (R246): the bound policy is applied once to the pattern. -/
def execCpset (o : CopyOp) (s : State) : Ans :=
  sendIssue 2 s fun c e =>
    let x := e.h.bits
    let reps := List.range (copyReps ⟨o, 1, 2⟩)
    let p := setPattern c e x
    let bad := outOfView x p
    if hBpol x = 3 ∧ bad then .trap causeBound 0 (BitVec.ofNat 64 e.seq) []
    else
      let v := if hBpol x = 2 then clampView x p else p
      let code : BitVec 2 := if hBpol x = 1 ∧ bad then 2 else 0
      let es : List OutElem := reps.flatMap fun j => (copyElems x e j).map fun y => ⟨j, y, v, code⟩
      let c := if code = 2 then psumCode c 2 else c
      let items := writeItems s.cur 2 e.seq x es reps
      let rs := reps.map fun j => (⟨j, 0, [], true, false⟩ : RepState)
      copyDone s { c with nfree := c.nfree + 1 } e rs items

/-- A byte of the granules that have arrived for a repetition, and the code of its granule. -/
def gotByte (r : RepState) (a : Nat) : Nat × BitVec 2 :=
  match r.got.find? fun w => decide (w.line = a / 128) with
  | some w => ((w.data.extractLsb' (8 * (a % 128)) 8).toNat, w.code)
  | none => (0, 0)

/-- The map code of a view row as it arrived: ERROR where its granule did (R257). -/
def gotRow (x : BitVec 512) (r : RepState) (row : Nat) : BitVec 2 :=
  let b := gotByte r (hPmap x + row / 4)
  if b.2 = 3 then 3 else BitVec.ofNat 2 (b.1 / 4 ^ (row % 4))

/-- The lines that a repetition of CPIN writes (R242). -/
def cpinLines (c : Core) (e : QEntry) (r : RepState) : List LineWrite :=
  let x := e.h.bits
  let es : List DrainElem := (copyElems x e r.j).map fun y =>
    let bs := (List.range y.n).map fun i => gotByte r (y.va + i)
    let v := bs.foldr (fun b n => b.1 + 256 * n) 0
    let code := maxCode (maxCodes (bs.map (·.2))) (if hPmap x = 0 then 0 else gotRow x r y.row)
    ⟨0, y.place, if hElemBits x = 4 then v / 2 ^ y.bit % 16 else v, code⟩
  (drainLines (decide (hElemBits x = 4)) es).map (drainWrite c)

/-- The line of the 32-byte image that a repetition of CPMAP writes (R247). -/
def cpmapLines (e : QEntry) (r : RepState) : List LineWrite :=
  let x := e.h.bits
  let a := ((gPlaces e.ga r.j 0 0).headD ⟨0, 0, 0⟩).at_
  let rows := mapRows x e r.j
  let v := joinNat 2 (rows.map fun u => let b := gotByte r (hPmap x + u.toNat / 4)
    b.1 / 4 ^ (u.toNat % 4) % 4)
  let bad := rows.any fun u => decide ((gotByte r (hPmap x + u.toNat / 4)).2 = 3)
  [⟨a / 128, BitVec.ofNat 1024 v <<< (8 * (a % 128)), BitVec.ofNat 128 (2 ^ 32 - 1) <<< (a % 128), if bad then 3 else 0, 3⟩]

/-- The lines that a repetition touches in the scratchpad. -/
def repPadLines (e : QEntry) (j : Nat) : List Nat :=
  match e.i with
  | .cpmap _ => [((gPlaces e.ga j 0 0).headD ⟨0, 0, 0⟩).at_ / 128]
  | _ => placeLines ((copyElems e.h.bits e j).map (·.place))

/-- The lines that a repetition lands. -/
def repLines (c : Core) (e : QEntry) (r : RepState) : List LineWrite :=
  match e.i with
  | .cpmap _ => cpmapLines e r
  | _ => cpinLines c e r

end Sys2Proof.Machine
end

