-- ==== Sys2Proof/Machine/Spools.lean ====
section
/-! DEFINITION. Command and completion spools, kicks, migration and the Timetable's registers (13_scheduler R325 to R328,
R335, R336, R353 to R357). -/

namespace Sys2Proof.Machine

/-- Group entry `g` and its fields (R363). -/
def groupEntry (s : State) (g : Nat) : BitVec 256 := mapGet 0 s.links.groups g
def grpN (e : BitVec 256) : Nat := fieldOf e 0 10 + 1
def grpTenant (e : BitVec 256) : Nat := fieldOf e 10 10
def grpAsid (e : BitVec 256) : Nat := fieldOf e 20 10
def grpSlots (e : BitVec 256) : Nat := fieldOf e 37 8 + 1

/-- The TDI of a VF. -/
def tdiOf (s : State) (vf : Nat) : Tdi := mapGet Tdi.zero s.links.tdi vf

/-- Replace the TDI of a VF. -/
def State.setTdi (s : State) (vf : Nat) (t : Tdi) : State :=
  { s with links := { s.links with tdi := mapSet Tdi.zero s.links.tdi vf t } }

/-- The device spool that spool `n` of a VF is (R325). -/
def spoolNo (s : State) (vf n : Nat) : Option Nat :=
  let a := mapGet 0 s.sched.spalloc vf
  if n < fieldOf a 15 5 then some (fieldOf a 0 10 + n) else none

/-- Command spool `i`. -/
def spoolOf (s : State) (i : Nat) : Spool := mapGet Spool.zero s.sched.spools i

/-- Replace command spool `i`. -/
def State.setSpool (s : State) (i : Nat) (x : Spool) : State :=
  { s with sched := { s.sched with spools := mapSet Spool.zero s.sched.spools i x } }

/-- Set or clear bits of the pending-kick bitmap (R328). -/
def State.pend (s : State) (i : Nat) : State := { s with sched := { s.sched with pkb := s.sched.pkb ||| (1#1024 <<< i) } }
def State.unpend (s : State) (i : Nat) : State := { s with sched := { s.sched with pkb := s.sched.pkb &&& ~~~ (1#1024 <<< i) } }

/-- SPEN, SPSIZE and ORDER_STRICT of a spool (R325). -/
def spEn (x : Spool) : Bool := x.cfg.getLsbD 63
def spSize (x : Spool) : Nat := fieldOf x.cfg 58 5
def spStrict (x : Spool) : Bool := x.cfg.getLsbD 64

/-- Stop a spool with an error (R325 to R327, R330). -/
def stopSpool (s : State) (i err : Nat) : State := s.setSpool i { spoolOf s i with err := err, stop := true }

/-- SPKICK (R326, R327): refused outside RUN (R382); relaxed ordering is refused under ORDER_STRICT. -/
def execSpkick (o : KickEv) (s : State) : Ans :=
  match spoolNo s o.vf o.n with
  | none => .next s
  | some i =>
    let x := spoolOf s i
    if (tdiOf s o.vf).st ≠ 2 ∨ spEn x = false ∨ x.stop then .next s
    else if spStrict x && o.relaxed then .next (stopSpool s i 1)
    else if 2 ^ spSize x < (o.value.toNat + 2 ^ 32 - x.head) % 2 ^ 32 then .next (stopSpool s i 3)
    else .next ((s.setSpool i { x with tail := o.value.toNat }).pend i)

/-- SPOOL_REG_WRITE (R325): the configuration takes a write only while SPEN = 0; enabling sets head and tail to 0. -/
def execSpoolRegWrite (o : VfRegEv) (s : State) : Ans :=
  match spoolNo s o.vf o.n with
  | none => .next s
  | some i =>
    let x := spoolOf s i
    if (tdiOf s o.vf).st = 3 then .next s
    else if o.off = 0 then
      let en := o.value.getLsbD 63
      if spEn x then .next (s.setSpool i { x with cfg := setField x.cfg 63 1 (if en then 1 else 0) })
      else
        let sz := fieldOf o.value 58 5
        if sz < 4 ∨ 16 < sz then .next s
        else
          let v := (o.value &&& ~~~ 0xFFF#64).setWidth 65 ||| (x.cfg &&& (1#65 <<< 64))
          if en then .next (s.setSpool i { x with cfg := v, head := 0, tail := 0 })
          else .next (s.setSpool i { x with cfg := v })
    else if o.off = 8 then
      if spEn x then .next s else .next (s.setSpool i { x with cfg := setField x.cfg 64 1 (fieldOf o.value 0 1) })
    else .next s

/-- SPSTOP_CLEAR (R325): SPERR clears and the spool runs on with what is posted. -/
def execSpstopClear (o : TwoEv) (s : State) : Ans :=
  match spoolNo s o.a o.b with
  | none => .next s
  | some i =>
    if (tdiOf s o.a).st = 3 then .next s
    else
      let x := spoolOf s i
      let s := s.setSpool i { x with err := 0, stop := false }
      .next (if x.head ≠ x.tail then s.pend i else s)

/-- Do two ranges overlap? An empty one overlaps none. -/
def rangesMeet (a n b m : Nat) : Bool := decide (n ≠ 0) && decide (m ≠ 0) && decide (a < b + m) && decide (b < a + n)

/-- SPALLOC_WRITE (R325). -/
def execSpallocWrite (o : IdxValEv) (s : State) : Ans :=
  let first := fieldOf o.value 0 10
  let cnt := fieldOf o.value 15 5
  let idle := (List.range 16).all fun n => match spoolNo s o.idx n with
    | none => true
    | some i => !spEn (spoolOf s i)
  let clash := s.sched.spalloc.any fun e =>
    decide (e.1 ≠ o.idx) && rangesMeet first cnt (fieldOf e.2 0 10) (fieldOf e.2 15 5)
  if (tdiOf s o.idx).st ≠ 0 ∨ idle = false ∨ 1024 < first + cnt ∨ 16 < cnt ∨ clash then .next s
  else .next { s with sched := { s.sched with
    spalloc := mapSet 0 s.sched.spalloc o.idx (BitVec.ofNat 64 (first + cnt * 2 ^ 15)) } }

/-- Completion spool `m` of a VF. -/
def cspoolOf (s : State) (vf m : Nat) : CSpool := mapGet CSpool.zero s.sched.cspools (16 * vf + m)

/-- Replace completion spool `m` of a VF. -/
def State.setCspool (s : State) (vf m : Nat) (x : CSpool) : State :=
  { s with sched := { s.sched with cspools := mapSet CSpool.zero s.sched.cspools (16 * vf + m) x } }

/-- Is the completion spool full (R335)? -/
def csFull (x : CSpool) : Bool := decide (2 ^ fieldOf x.cfg 58 5 ≤ (x.prod + 2 ^ 32 - x.cons) % 2 ^ 32)

/-- CSCONS_WRITE (R336). -/
def execCsconsWrite (o : VfRegEv) (s : State) : Ans :=
  let x := cspoolOf s o.vf o.n
  let v := fieldOf o.value 32 32
  if (tdiOf s o.vf).st = 3 ∨ 2 ^ fieldOf x.cfg 58 5 < (x.prod + 2 ^ 32 - v) % 2 ^ 32 then .next s
  else .next (s.setCspool o.vf o.n { x with cons := v })

/-- COMPLETION_SPOOL_REG_WRITE (R336): word 0 takes a write only while CSEN = 0; enabling sets both counts to 0; CSERR is
cleared by a one. -/
def execCompletionSpoolRegWrite (o : VfRegEv) (s : State) : Ans :=
  let x := cspoolOf s o.vf o.n
  if (tdiOf s o.vf).st = 3 then .next s
  else if o.off = 0 then
    let en := o.value.getLsbD 63
    if x.cfg.getLsbD 63 then .next (s.setCspool o.vf o.n { x with cfg := setField x.cfg 63 1 (if en then 1 else 0) })
    else
      let sz := fieldOf o.value 58 5
      if sz < 4 ∨ 16 < sz then .next s
      else
        let v := o.value &&& ~~~ 0xFFF#64
        .next (s.setCspool o.vf o.n (if en then { x with cfg := v, prod := 0, cons := 0 } else { x with cfg := v }))
  else if o.off = 16 ∧ o.value.getLsbD 1 then .next (s.setCspool o.vf o.n { x with err := false })
  else .next s

/-- A tenant's migration state. -/
def migOf (s : State) (t : Nat) : Mig := mapGet Mig.normal s.sched.mig t

/-- Replace a tenant's migration state. -/
def State.setMig (s : State) (t : Nat) (m : Mig) : State :=
  { s with sched := { s.sched with mig := mapSet Mig.normal s.sched.mig t m } }

/-- MIGCTL_START (R353): taken with a report buffer, one of at least one entry (R380). -/
def execMigctlStart (o : IdxEv) (s : State) : Ans :=
  if (migOf s o.idx).st = 0 ∧ (mapGet 0 s.links.pf0 (0x10000 + 32 * o.idx + 24)).toNat % 2 ^ 32 ≠ 0 then .next (s.setMig o.idx ⟨1, false, 0, []⟩) else .next s

/-- Write the frames' addresses into the host's buffer, 8 bytes each (R353). -/
def reportFrames (m : Map (BitVec 8)) (base : Nat) : List Nat → Map (BitVec 8)
  | [] => m
  | f :: t => reportFrames (memWriteNat m base 8 (f * 65536)) (base + 8) t

/-- One report: as many frames as the buffer takes; the rest goes in the next (R353, R380). -/
def migReport (s : State) (t : Nat) : State :=
  let m := migOf s t
  let buf := (mapGet 0 s.links.pf0 (0x10000 + 32 * t + 16)).toNat
  let cap := (mapGet 0 s.links.pf0 (0x10000 + 32 * t + 24)).toNat % 2 ^ 32
  let now := m.frames.take cap
  let s := { s with links := { s.links with hostMem := reportFrames s.links.hostMem buf now } }
  s.setMig t { m with frames := m.frames.drop cap, count := now.length, ovf := decide (cap < m.frames.length) }

/-- MIGCTL_REPORT (R353). -/
def execMigctlReport (o : IdxEv) (s : State) : Ans :=
  if (migOf s o.idx).st = 1 then .next (migReport s o.idx) else .next s

/-- MIGCTL_STOP (R353). -/
def execMigctlStop (o : IdxEv) (s : State) : Ans :=
  if (migOf s o.idx).st = 1 then .next (s.setMig o.idx { migOf s o.idx with st := 2 }) else .next s

/-- MIGCTL_ABORT (R353). -/
def execMigctlAbort (o : IdxEv) (s : State) : Ans :=
  if (migOf s o.idx).st = 1 ∨ (migOf s o.idx).st = 2 then .next (s.setMig o.idx Mig.normal) else .next s

/-- MIGCTL_RESUME (R353). -/
def execMigctlResume (o : IdxEv) (s : State) : Ans :=
  if (migOf s o.idx).st = 3 then .next (s.setMig o.idx Mig.normal) else .next s

/-- A tenant in STOPPING with no live launch, whose last writes are performed with respect to SYSTEM (R353, R354). -/
def stopReady (s : State) : Option Nat :=
  (s.sched.mig.find? fun e => decide (e.2.st = 2) && (s.sched.launches.all fun l => decide (l.2.tenant ≠ e.1))
    && !(s.links.posted.any fun p => decide (p.1 = e.1)) && !s.work.any fun x => match x.2 with
      | .contrib m => decide (grpTenant (groupEntry s m.group) = e.1) && !m.away
      | _ => false).map (·.1)

/-- MIGRATION_STOPPED (R354): the final report, then `MIGST` = STOPPED. -/
def execMigrationStopped (s : State) : Ans :=
  match stopReady s with
  | none => .next s
  | some t =>
    let s := migReport s t
    .next (s.setMig t { migOf s t with st := 3 })

/-- Change the Timetable's state. -/
def State.onTt (s : State) (f : Ttab → Ttab) : State := { s with sched := { s.sched with tt := f s.sched.tt } }

/-- Journal entry `i` of the ring (R355). -/
def ringAt (t : Ttab) (i : Nat) : BitVec 128 := mapGet 0 t.ring (i % 4096)

/-- The end of the last complete group at or after entry `i`, looking at `n` entries (R355, R356). -/
def lastGroup (t : Ttab) (i acc : Nat) : Nat → Nat
  | 0 => acc
  | n + 1 => lastGroup t (i + 1) (if (ringAt t i).getLsbD 61 then i + 1 else acc) n

/-- Store dword `a` of the standby's data SRAM: the core that does not hold the primary role (R355, R357). -/
def standbyPut (t : Ttab) (a : Nat) (v : Word) : Ttab :=
  if t.role1 then { t with dsram0 := mapSet 0 t.dsram0 a v } else { t with dsram1 := mapSet 0 t.dsram1 a v }

/-- Redo `n` journal entries from entry `i` (R355). -/
def redo (t : Ttab) (i : Nat) : Nat → Ttab
  | 0 => t
  | n + 1 =>
    let e := ringAt t i
    redo (standbyPut t (fieldOf e 0 20 / 8) (e.extractLsb' 64 64)) (i + 1) n

/-- The standby applies the complete groups that it has not applied yet: the ring holds 4096 entries. `JTAIL`, and the applied count
in its data SRAM, follow (R355, R357). -/
def applyGroups (t : Ttab) : Ttab :=
  let e := lastGroup t t.jtail t.jtail (min 4096 (t.jhead - t.jtail))
  if e = t.jtail then t else standbyPut { redo t t.jtail (e - t.jtail) with jtail := e } 0 (BitVec.ofNat 64 e)

/-- One more change of the inventory record (R40). -/
def bumpInv (s : State) : State :=
  { s with plat := { s.plat with inv := setField s.plat.inv 640 16 (fieldOf s.plat.inv 640 16 + 1) } }

/-- The package has failed: FATAL_N, and nothing runs until power-on (R39, R451). -/
def packageFails (s : State) : State := { s with plat := { s.plat with fatalN := true }, down := true }

/-- The open spools: those that are enabled (R325, R356). -/
def openSpools (s : State) : BitVec 1024 :=
  s.sched.spools.foldl (fun m e => if spEn e.2 then m ||| (1#1024 <<< e.1) else m) 0

/-- The take-over routine of R356 ends: the complete groups that remain are applied, every open spool is pending, the standby has the
primary role and the hold is released. -/
def takeOver (s : State) : State :=
  let s := s.onTt fun t =>
    let t := applyGroups t
    { t with role0 := t.role1, role1 := !t.role1, chold := false }
  { s with sched := { s.sched with pkb := s.sched.pkb ||| openSpools s } }

/-- TIMETABLE_TAKEOVER (R356): the hold is set and the standby's routine begins, which ends within 200 µs; STANDBY reads 0. With
no standby the package fails (R39). The error is placed in the primary's bank (R402). -/
def execTimetableTakeover (s : State) : Ans :=
  let s := placeError s 1188 3 6 0 0
  if !s.sched.tt.standby then .next (packageFails s)
  else
    let s := s.onTt fun t => { t with chold := true, standby := false }
    .next (addWork (bumpInv { s with plat := { s.plat with inv := setField s.plat.inv 656 1 0 } }) 170000 .takeover)

/-- CHOLD_RELEASE (R357). -/
def execCholdRelease (s : State) : Ans := .next (s.onTt fun t => { t with chold := false })

/-- TTROLE_WRITE (R357): taken only while CHOLD = 1 or while the other core does not hold the role; writing 0 gives the role up. -/
def execTtroleWrite (o : IdxValEv) (s : State) : Ans :=
  let t := s.sched.tt
  let other := if o.idx = 0 then t.role1 else t.role0
  if o.value.getLsbD 0 = false then
    .next (s.onTt fun t => if o.idx = 0 then { t with role0 := false } else { t with role1 := false })
  else if t.chold = false ∧ other then .next s
  else if o.idx = 0 then .next (s.onTt fun t => { t with role0 := true, role1 := false })
  else .next (s.onTt fun t => { t with role0 := false, role1 := true })

/-- PKBSET (R357). -/
def execPkbset (o : IdxValEv) (s : State) : Ans :=
  .next { s with sched := { s.sched with pkb := s.sched.pkb ||| (o.value.setWidth 1024 <<< (64 * (o.idx % 16))) } }

/-- PKBCLR (R357). -/
def execPkbclr (o : IdxValEv) (s : State) : Ans :=
  .next { s with sched := { s.sched with pkb := s.sched.pkb &&& ~~~ (o.value.setWidth 1024 <<< (64 * (o.idx % 16))) } }

/-- STANDBY_TIMETABLE_FAILURE (R39, R40). -/
def execStandbyTimetableFailure (s : State) : Ans :=
  let s := s.onTt fun t => { t with standby := false }
  .next (bumpInv { s with plat := { s.plat with inv := setField s.plat.inv 656 1 0 } })

end Sys2Proof.Machine
end

