-- ==== Sys2Proof/Machine/Link.lean ====
section
/-! DEFINITION. The words of the L queue (unit 0xA): MSEND (12 R310 to R312), AMO, ACAS and ARED (11 R286 to R290), and the
collective words (14 R363 to R374): their checks at decode on captured operands, and their issue. -/

namespace Sys2Proof.Machine

/-- The fields that the L-queue words share: order, whether k is posted at completion, k, and scope. -/
structure LxWord where
  order : Nat
  post : Bool
  k : Nat
  scope : Nat
  deriving DecidableEq, Repr

/-- The shared fields of an L-queue word (R80); ACAS posts k with its reply, as a returning AMO does (R289). -/
def lxWord (i : Instr) : LxWord :=
  match i with
  | .msend o => ⟨o.order.toNat, decide (o.post = 1), o.k.toNat, o.scope.toNat⟩
  | .amo o => ⟨o.order.toNat, decide (o.post = 1), o.k.toNat, o.scope.toNat⟩
  | .acas o => ⟨o.order.toNat, false, o.k.toNat, o.scope.toNat⟩
  | .ared o => ⟨o.order.toNat, decide (o.post = 1), o.k.toNat, o.scope.toNat⟩
  | .csend o | .crecv o => ⟨o.order.toNat, decide (o.post = 1), o.k.toNat, o.scope.toNat⟩
  | .cagree o | .credx o => ⟨o.order.toNat, decide (o.post = 1), o.k.toNat, o.scope.toNat⟩
  | .cbar o => ⟨o.order.toNat, decide (o.post = 1), o.k.toNat, o.scope.toNat⟩
  | _ => ⟨0, false, 0, 0⟩

/-- Does the order name release (R280)? -/
def isRelease (order : Nat) : Bool := decide (order = 2) || decide (order = 3)

/-- The route of rank `r` of a group: none for a local rank, its port otherwise; an unreadable entry is not local (R363). -/
def routeOf (s : State) (e : BitVec 256) (r : Nat) : Option Nat :=
  match devRead s (grpAsid e) (fieldOf e 64 48 + 2 * r) (grpTenant e) 2 with
  | some v => if v / 16 % 2 = 1 then none else some (v % 16)
  | none => some 16

/-- The descriptor fields of a collective word (R365). -/
def cdGroup (d : Word) : Nat := fieldOf d 0 10
def cdRank (d : Word) : Nat := fieldOf d 10 10
def cdPeer (d : Word) : Nat := fieldOf d 20 10
def cdW64 (d : Word) : Bool := d.getLsbD 30
def cdDl (d : Word) : Bool := d.getLsbD 31
def cdTag (d : Word) : Nat := fieldOf d 32 32

/-- Rows of a view, its elements along dimension 0 aside (R368). -/
def viewRows (x : BitVec 512) : Nat := hExt x 1 * hExt x 2 * hExt x 3

/-- Bytes of one row of E0 elements. -/
def viewRowBytes (x : BitVec 512) : Nat := (hExt x 0 * hElemBits x + 7) / 8

/-- The address of row `t` in element order. -/
def viewRowAddr (x : BitVec 512) (t : Nat) : Nat :=
  hBase x + 128 * (t % hExt x 1 * hPitch x 1 + t / hExt x 1 % hExt x 2 * hPitch x 2 + t / (hExt x 1 * hExt x 2) * hPitch x 3)

/-- Bytes of a view in element order. -/
def viewBytes (x : BitVec 512) : Nat := viewRows x * viewRowBytes x

/-- Granules of a view's bytes. -/
def viewGranules (x : BitVec 512) : List Nat :=
  ((List.range (viewRows x)).flatMap fun t => granulesOf (viewRowAddr x t) (viewRowBytes x)).eraseDups

/-- The i_BDIM coordinate of an element of row `t`, column `c` (R195). -/
def viewMapRow (x : BitVec 512) (t c : Nat) : Nat :=
  match hBdim x with
  | 0 => c
  | 1 => t % hExt x 1
  | 2 => t / hExt x 1 % hExt x 2
  | _ => t / (hExt x 1 * hExt x 2)

/-- Element coordinates of an atomic (R288). -/
def atomCoord (a : Word) (d : Nat) : Nat := a.toNat / 2 ^ (16 * d) % 65536

/-- Bytes of an atomic's element. -/
def atomBytes (i : Instr) : Nat :=
  match i with
  | .amo o => if o.w64 = 1 then 8 else 4
  | .acas o => if o.w64 = 1 then 8 else 4
  | .ared o => if o.w64 = 1 then 8 else 4
  | _ => 4

/-- The address of an atomic (R194, R288). -/
def atomVa (e : QEntry) : Nat := (viewAddr e.h.bits fun d => (atomCoord (cap e 0) d : Nat)).1

/-- The view rows along BDIM that an ARED's granule holds elements of (R195, R290). -/
def aredRows (e : QEntry) : List Nat :=
  let x := e.h.bits
  let n := 1024 / (if hElemBits x = 0 then 8 else hElemBits x)
  if hBdim x = 0 then (List.range n).map (atomCoord (cap e 0) 0 + ·) else [atomCoord (cap e 0) (hBdim x)]

/-- The granules that CSEND reads (R368): its view's, and those of the poison map. -/
def csendGranules (x : BitVec 512) : List Nat :=
  let rows := (List.range (viewRows x)).flatMap fun t =>
    if hBdim x = 0 then (List.range (hExt x 0)).map (viewMapRow x t) else [viewMapRow x t 0]
  viewGranules x ++ (if hPmap x = 0 then [] else ((rows.eraseDups).map (mapGranule x)).eraseDups)

/-- The atomic's operation code (R287): 16 is ACAS. -/
def atomOp (i : Instr) : Nat :=
  match i with
  | .amo o => o.op.toNat
  | .ared o => o.op.toNat
  | _ => 16

/-- Does the atomic return the old value (R286)? -/
def atomRet (i : Instr) : Bool :=
  match i with
  | .amo o => decide (o.ret = 1)
  | .acas _ => true
  | _ => false

/-- Is the word an ARED? -/
def isAred (i : Instr) : Bool :=
  match i with
  | .ared _ => true
  | _ => false

/-- The handle checks of R199. -/
def handleDec (e : QEntry) (raw : IWord) : List DecCheck := [
  need (decide (e.h.st ≠ .empty)) (decOperand raw),
  need (decide (e.h.st ≠ .revoked)) (.trap causeRevoked (BitVec.ofNat 64 e.hn) 0)]

/-- The checks of an atomic word at decode (R288), in their order. -/
def atomCheck (c : Core) (i : Instr) (e : QEntry) (raw : IWord) : DecCheck :=
  let x := e.h.bits
  let n := atomBytes i
  let op := atomOp i
  let va := atomVa e
  let fmt := hFmt x
  let last := if isAred i then 128 * 8 / (if hElemBits x = 0 then 8 else hElemBits x) - 1 else 0
  let inside := (List.range 4).all fun d => decide (atomCoord (cap e 0) d + (if d = 0 then last else 0) < hExt x d)
  let elem := (n == 4 && (fmt == fmtCode .fp32 || fmt == fmtCode .int32)) || fmt == fmtCode .raw8
  let fits := decide (op ≠ 1) || fmt == fmtCode .fp32 || fmt == fmtCode .raw8
  firstCheck (handleDec e raw ++ [
    need (operandOk i && (!atomRet i || decide (c.sys.replySize ≠ 0))) (decOperand raw),
    need (hasRight x 2 && (!atomRet i || hasRight x 0)) (.trap causeRights (BitVec.ofNat 64 e.hn) 0),
    need inside (.trap causeBounds (BitVec.ofNat 64 e.hn) 0),
    need (elem && fits) (decOperand raw),
    need (decide (va % (if isAred i then 128 else n) = 0)) (.trap causeAlign (BitVec.ofNat 64 va) 3),
    need (!isAred i || decide ((cap e 1).toNat % 128 = 0)) (.trap causeAlign (cap e 1) 1),
    match (if isAred i then rangeAddr (cap e 1).toNat 128 else none) with
      | some a => .trap causeRange (BitVec.ofNat 64 a) 1
      | none => .ok])
  where
    fmtCode (f : Fmt) : Nat := ((List.range 14).find? fun k => decide (fmtOfCode k = some f)).getD 63

/-- The checks of MSEND at decode (R310). -/
def msendCheck (s : State) (c : Core) (o : MsendOp) (e : QEntry) (raw : IWord) : DecCheck :=
  let n := o.n.toNat + 1
  let a := (cap e 0).toNat
  firstCheck [
    match rangeAddr a (128 * n) with
      | some b => .trap causeRange (BitVec.ofNat 64 b) 1
      | none => .ok,
    need (decide (a % 128 = 0)) (.trap causeAlign (cap e 0) 1),
    need (operandOk (.msend o) && decide (fieldOf (cap e 1) 0 8 < (partitionOf s c.sys.tenant).length)
      && decide (fieldOf (cap e 1) 8 24 = 0)) (decOperand raw)]

/-- The checks of a collective word at decode (R366): its handle right if it names a view, its line count and the
scratchpad address of its lines if it has them, whether it names a peer, and whether it may set W64. -/
structure CollWord where
  right : Option Nat
  lines : Option Nat
  peer : Bool
  w64 : Bool
  scope : Nat
  deriving DecidableEq, Repr

/-- What R366 needs to know of a collective word. -/
def collWord (i : Instr) : Option CollWord :=
  match i with
  | .csend o => some ⟨some 3, none, true, false, o.scope.toNat⟩
  | .crecv o => some ⟨some 4, none, true, false, o.scope.toNat⟩
  | .cagree o => some ⟨none, some (o.cnt.toNat + 1), false, false, o.scope.toNat⟩
  | .credx o => some ⟨none, some (o.cnt.toNat + 1), false, true, o.scope.toNat⟩
  | .cbar o => some ⟨none, none, false, false, o.scope.toNat⟩
  | _ => none

/-- The checks of R366 in their order. -/
def collCheck (s : State) (c : Core) (i : Instr) (w : CollWord) (e : QEntry) (raw : IWord) : DecCheck :=
  let d := cap e 0
  let g := groupEntry s (cdGroup d)
  let b := (cap e 1).toNat
  let cnt := w.lines.getD 0
  let handle := match w.right with
    | some r => handleDec e raw ++ [
        need (hasRight e.h.bits r) (.trap causeRights (BitVec.ofNat 64 e.hn) 0),
        need (decide (viewBytes e.h.bits ≤ 65536)) (decOperand raw)]
    | none => []
  firstCheck (handle ++ [
    need (g.getLsbD 255) (decOperand raw),
    need (decide (grpTenant g = c.sys.tenant)) (.trap causeOwner (BitVec.ofNat 64 (cdGroup d)) 0),
    need (decide (cdRank d < grpN g) && decide (cdPeer d < grpN g) && decide (routeOf s g (cdRank d) = none)
      && decide (grpAsid g = c.sys.casid) && (w.peer || decide (cdPeer d = 0)) && (w.w64 || !cdW64 d)
      && operandOk i && (!cdW64 d || decide (cnt % 2 = 0))
      && (decide (i ≠ .cbar (cbarOf i)) || decide (b < 2 ^ 32))) (decOperand raw),
    need (decide (cnt = 0) || decide (b % 128 = 0)) (.trap causeAlign (cap e 1) 1),
    match (if cnt = 0 then none else rangeAddr b (128 * cnt)) with
      | some a => .trap causeRange (BitVec.ofNat 64 a) 1
      | none => .ok])
  where
    cbarOf (i : Instr) : CbarOp := match i with
      | .cbar o => o
      | _ => ⟨0, 0, 0, 0, 0, 0, 0⟩

/-- Is the word a CRECV? It makes no contribution and counts as parked from its issue (R376). -/
def isCrecv (i : Instr) : Bool :=
  match i with
  | .crecv _ => true
  | _ => false

/-- Issue of an L-queue word: the command begins, and a word with a release waits for its release set (R280, R367). `f` answers the cycles
that the word's requests may take, the bound for its first items, and these. -/
def linkIssue (s : State) (f : Core → QEntry → Nat × Nat × List Item) : Ans :=
  sendIssue 3 s fun c e =>
    let w := lxWord e.i
    let m : Cmd := { newCmd c 3 e [⟨0, 0, [], false, false⟩] with
      released := !isRelease w.order, sent := false, parked := isCrecv e.i }
    let r := f c e
    .done { c with cmds := c.cmds ++ [m] } r.1 r.2.1 r.2.2

/-- Does an atomic complete before its hub has applied it, with respect to a scope narrower than DEVICE (R274, R278)? -/
def narrowAtom (i : Instr) : Bool :=
  (match i with
  | .amo o => decide (o.ret = 0)
  | .ared _ => true
  | _ => false) && decide ((lxWord i).scope ≤ 2)

/-- The request of an atomic leaves its queue: at CORE scope the word has then completed, and k is posted (R274, R278, R289). -/
def atomLeaves (s : State) (core seq : Nat) (i : Instr) : State :=
  if narrowAtom i ∧ (lxWord i).scope = 0 then
    let s := s.onCmd core 3 seq fun m => { m with early := true }
    if (lxWord i).post then s.setCore core (semPostNow (s.core core) (lxWord i).k) else s
  else s

/-- The requests of an atomic that leaves its core: one whose scope is FORM or PANEL completes as it enters the panel's port. -/
def atomItems (core seq : Nat) (i : Instr) : List Item :=
  (if narrowAtom i ∧ 1 ≤ (lxWord i).scope then [Item.enters core seq] else []) ++ [Item.atomic core seq]

/-- The granules of an L-queue word: an atomic's, with the map granules that an ARED may raise; what a CSEND reads (R290, R368). -/
def wordVas (e : QEntry) : List Nat :=
  match e.i with
  | .amo _ | .acas _ => [atomVa e]
  | .ared _ => atomVa e :: (if hPmap e.h.bits = 0 then [] else ((aredRows e).map (mapGranule e.h.bits)).eraseDups)
  | .csend _ => csendGranules e.h.bits
  | _ => []

/-- The bound for the requests of an L-queue word of core `u` (R465). -/
def wordBound (s : State) (u : Nat) (e : QEntry) : Nat :=
  copyBound s u (hAsid e.h.bits) (s.core u).sys.tenant (wordVas e)

/-- Issue of an atomic: with a release its request is held at the core (R280); its first items are due within `bound` cycles. -/
def atomIssue (s : State) (bound : Nat) (first : Nat → List Item) : Ans :=
  let e := s.me.latch
  match linkIssue s fun _ e => (wordBound s s.cur e, bound, first e.seq) with
  | .next t => .next (if isRelease (lxWord e.i).order then t else atomLeaves t s.cur e.seq e.i)
  | x => x

/-- The first item of an AMO or ACAS: its request, or its wait for the release set. -/
def atomFirst (s : State) : Ans :=
  let e := s.me.latch
  if isRelease (lxWord e.i).order then atomIssue s 0 fun n => [.release s.cur 3 n]
  else atomIssue s (wordBound s s.cur e) fun n => atomItems s.cur n e.i

/-- AMO (R289). -/
def execAmo (_o : AmoOp) (s : State) : Ans := atomFirst s

/-- ACAS (R289). -/
def execAcas (_o : AcasOp) (s : State) : Ans := atomFirst s

/-- ARED (R290): the source line is read at once, whatever the word's order. -/
def execAred (_o : AredOp) (s : State) : Ans := atomIssue s 0 fun n => [.ared s.cur n]

/-- The destination core of a message (R310). -/
def msendDst (s : State) (c : Core) (e : QEntry) : Nat := ((partitionOf s c.sys.tenant)[fieldOf (cap e 1) 0 8]?).getD 0

/-- The header of a message before its lines are read (R313). -/
def msgHeader (c : Core) (o : MsendOp) (e : QEntry) : BitVec 128 :=
  BitVec.ofNat 128 (c.sys.prcore % 256 + o.n.toNat * 2 ^ 8 + o.scope.toNat * 2 ^ 15 + (if o.order = 2 then 2 ^ 18 else 0)
    + fieldOf (cap e 1) 32 32 * 2 ^ 32 + e.seq % 2 ^ 32 * 2 ^ 64)

/-- MSEND (R310 to R312): the message stands at its receiver in issue order and leaves when its release set is performed; in
one locked form it is due at issue + 16. -/
def execMsend (o : MsendOp) (s : State) : Ans :=
  let c := s.me
  let e := c.latch
  let dst := msendDst s c e
  let same := decide (dst / 8 = s.cur / 8) && !s.isSplit s.cur
  let m : MsgIn :=
    { src := c.sys.prcore, srcCore := s.cur, srcSeq := e.seq, tenant := c.sys.tenant
      due := if same then some (c.fc + 16) else none, pos := 0, reserved := false, arrived := false
      header := msgHeader c o e, lines := [], written := false, post := decide (o.post = 1), k := o.k.toNat }
  match linkIssue s fun _ e =>
      (if same then 12 else 1000, if same then 12 else 1000, [if o.order = 2 then Item.release s.cur 3 e.seq else Item.arrive dst s.cur e.seq]) with
  | .next s => .next (s.setCore dst { s.core dst with msgs := (s.core dst).msgs ++ [m] })
  | x => x

/-- CSEND (R368): its reads begin once it may leave the core. -/
def execCsend (_o : CsendOp) (s : State) : Ans := linkIssue s fun _ e => (0, 0, [Item.release s.cur 3 e.seq])

/-- CRECV (R369): waits for its part; COLLECTIVE_COMPLETION goes on. -/
def execCrecv (_o : CsendOp) (s : State) : Ans := linkIssue s fun _ _ => (0, 0, [])

/-- CAGREE (R370): its lines are read as an ARED's (R290), whatever its order. -/
def execCagree (_o : CagreeOp) (s : State) : Ans := linkIssue s fun _ e => (0, 0, [Item.lin s.cur e.seq])

/-- CREDX (R371). -/
def execCredx (_o : CagreeOp) (s : State) : Ans := linkIssue s fun _ e => (0, 0, [Item.lin s.cur e.seq])

/-- CBAR (R372). -/
def execCbar (_o : CbarOp) (s : State) : Ans := linkIssue s fun _ e => (0, 0, [Item.release s.cur 3 e.seq])

end Sys2Proof.Machine
end

