-- ==== Sys2Proof/Machine/Launches.lean ====
section
/-! DEFINITION. Packets, the task graph, verdicts and completion records (13_scheduler R328 to R336), and stopping the tasks
of a launch (R332, R346). -/

namespace Sys2Proof.Machine

/-- A launch by its key. -/
def launchOf (s : State) (k : Nat) : Option Launch :=
  if mapHas s.sched.launches k then (s.sched.launches.find? fun e => e.1 = k).map (·.2) else none

/-- Replace a launch. -/
def State.setLaunch (s : State) (k : Nat) (l : Launch) : State :=
  { s with sched := { s.sched with launches := mapPut s.sched.launches k l } }

/-- Change a launch that is live. -/
def State.onLaunch (s : State) (k : Nat) (f : Launch → Launch) : State :=
  match launchOf s k with
  | some l => s.setLaunch k (f l)
  | none => s

/-- Tasks of a launch (R21). -/
def taskCount (l : Launch) : Nat :=
  fieldOf l.pkt 64 16 * fieldOf l.pkt 80 16 * fieldOf l.pkt 96 16 * (fieldOf l.pkt 112 4 + 1)

/-- Owner, context, form placement and pre-emption bits of a launch (R329). -/
def lOwner (l : Launch) : Nat := fieldOf l.pkt 16 6
def lAsid (l : Launch) : Nat := fieldOf l.pkt 22 10
def lForm (l : Launch) : Bool := l.pkt.getLsbD 8
def lKill (l : Launch) : Bool := l.pkt.getLsbD 9
def lCkpt (l : Launch) : Bool := l.pkt.getLsbD 10
def lDrain (l : Launch) : Bool := l.pkt.getLsbD 11

/-- The VF that a device spool is assigned to, and its number there (R325). -/
def vfOfSpool (s : State) (i : Nat) : Option (Nat × Nat) :=
  (s.sched.spalloc.find? fun e => decide (fieldOf e.2 0 10 ≤ i) && decide (i < fieldOf e.2 0 10 + fieldOf e.2 15 5)).map
    fun e => (e.1, i - fieldOf e.2 0 10)

/-- What the Timetable finds at a spool's head (R326, R330). -/
inductive Peek where
  | none
  | unreadable
  | mismatch
  | badKind
  | packet (kind : Nat) (p : BitVec 1024)
  deriving DecidableEq, Repr

/-- Read the packet at the head of a spool. -/
def peekPacket (s : State) (i : Nat) : Peek :=
  let x := spoolOf s i
  match vfOfSpool s i with
  | none => .none
  | some (vf, _) =>
    if spEn x = false ∨ x.stop ∨ x.head = x.tail then .none
    else
      let tn := (tdiOf s vf).tenant
      let asid := fieldOf x.cfg 48 10
      let va := fieldOf x.cfg 0 48 + 128 * (x.head % 2 ^ spSize x)
      match devRead s asid va tn 128 with
        | none => .unreadable
        | some v =>
          let p := BitVec.ofNat 1024 v
          if fieldOf p 992 32 ≠ x.head % 2 ^ 32 then .mismatch
          else if 4 ≤ fieldOf p 0 4 then .badKind
          else .packet (fieldOf p 0 4) p

/-- The hubs' read of the packet at the head of a spool: errors that it finds are counted (R254 to R256, R326). -/
def readPacket (s : State) (i : Nat) : State :=
  let x := spoolOf s i
  match vfOfSpool s i with
  | some (vf, _) =>
    if spEn x = false ∨ x.stop ∨ x.head = x.tail then s
    else (devGet s (fieldOf x.cfg 48 10) (fieldOf x.cfg 0 48 + 128 * (x.head % 2 ^ spSize x)) (tdiOf s vf).tenant 128).1
  | none => s

/-- May the Timetable parse packets of the spool now (R353, R356, R382)? -/
def spoolOpen (s : State) (i : Nat) : Bool :=
  match vfOfSpool s i with
  | none => false
  | some (vf, _) => decide ((tdiOf s vf).st = 2) && decide ((migOf s (tdiOf s vf).tenant).st < 2) && !s.sched.tt.chold

/-- The next pending spool, in rotation after the one served last (R328). -/
def nextSpool (s : State) : Option Nat :=
  ((List.range 1024).map fun k => (s.sched.served + 1 + k) % 1024).find? fun i =>
    s.sched.pkb.getLsbD i && spoolOpen s i && (spoolOf s i).reread.isNone

/-- The service of the present spool ends; its bit is set again when packets remain that can be parsed (R328): the spool is
enabled and not stopped. -/
def endService (s : State) : State :=
  let i := s.sched.served
  let s := { s with sched := { s.sched with burst := 0 } }
  let x := spoolOf s i
  if x.head ≠ x.tail ∧ x.stop = false ∧ spEn x then s.pend i else s

/-- SPOOL_SERVICE (R328, R330): goes to the next pending spool, or settles a packet that cannot be taken. -/
def execSpoolService (s : State) : Ans :=
  if s.sched.burst ≠ 0 then
    let i := s.sched.served
    let p := peekPacket s i
    let s := readPacket s i
    match p with
    | .unreadable => .next (endService (stopSpool s i 4))
    | .badKind => .next (endService (stopSpool s i 2))
    | .mismatch =>
      let s := addWorkAt s 1700 (.rereadPacket i)
      .next (endService (s.setSpool i { spoolOf s i with reread := some (spoolOf s i).head }))
    | _ => .next (endService s)
  else match nextSpool s with
    | none => .next s
    | some i => .next { s.unpend i with sched := { (s.unpend i).sched with served := i, burst := 8 } }

/-- PACKET_REREAD (R330): a second mismatch stops the spool; otherwise it is served again. -/
def execPacketReread (s : State) : Ans :=
  match takeFrom (fun x => decide (x.1 ≤ s.cyc) && (match x.2 with
      | .rereadPacket _ => true
      | _ => false)) s.work with
  | some (.rereadPacket i, w) =>
    let s := { s with work := w }
    let s := s.setSpool i { spoolOf s i with reread := none }
    let p := peekPacket s i
    let s := readPacket s i
    match p with
    | .mismatch => .next (stopSpool s i 2)
    | _ => .next (s.pend i)
  | _ => .next s

/-- Take the packet of kind `k` at the head of the spool in service (R328). -/
def takePacket (s : State) (k : Nat) : Option (State × Nat × BitVec 1024) :=
  if s.sched.burst = 0 ∨ spoolOpen s s.sched.served = false then none
  else match peekPacket s s.sched.served, vfOfSpool s s.sched.served with
    | .packet k' p, some (vf, _) =>
      if k' = k then
        let i := s.sched.served
        let x := spoolOf s i
        let s := readPacket s i
        let s := s.setSpool i { x with head := (x.head + 1) % 2 ^ 32 }
        let s := { s with sched := { s.sched with burst := s.sched.burst - 1 } }
        some (if s.sched.burst = 0 ∨ (spoolOf s i).head = (spoolOf s i).tail then endService s else s, vf, p)
      else none
    | _, _ => none

/-- A completion record (R334). -/
def recordBits (lid verd ref cause x y z stg rows work fcs wall : Nat) : BitVec 256 :=
  BitVec.ofNat 256 (lid % 2 ^ 32 + verd * 2 ^ 32 + ref * 2 ^ 35 + cause * 2 ^ 39 + x % 2 ^ 16 * 2 ^ 48 + y % 2 ^ 16 * 2 ^ 64
    + z % 2 ^ 16 * 2 ^ 80 + stg % 16 * 2 ^ 96 + min rows (2 ^ 28 - 1) * 2 ^ 100 + work % 2 ^ 64 * 2 ^ 128
    + min (fcs / 1024) (2 ^ 32 - 1) * 2 ^ 192 + min wall (2 ^ 32 - 1) * 2 ^ 224)

/-- The verdict of a launch at DONE (R333): 0 CLEAN to 5 CANCELLED. -/
def verdictOf (l : Launch) : Nat :=
  if l.cancelled then 5 else if l.killed then 4 else if l.faulted then 3 else if l.tainted then 2
  else if l.corrected then 1 else 0

/-- A launch looks at the end of a predecessor (R332). -/
def predEnds (lk verd : Nat) (l : Launch) : Launch :=
  if l.preds.contains lk then
    let l := { l with preds := l.preds.filter (fun k => k ≠ lk) }
    match l.st with
    | .pending => if 2 ≤ verd then { l with st := .held } else if l.preds.isEmpty then { l with st := .running } else l
    | _ => l
  else l

/-- Store the `n` little-endian bytes of `v` at a virtual address for the device, granule by granule in at most `fuel` granules, each
with its walk (R388) and the check of its frame (R392); the first that fails ends it. -/
def devWrite (s : State) (asid tenant : Nat) : Nat → Nat → Nat → Nat → State × PutRes
  | 0, _, _, _ => (s, .done)
  | fuel + 1, va, v, n =>
    if n = 0 then (s, .done)
    else
      let k := min n (128 - va % 128)
      match walkTo s asid va tenant true with
      | (s, .fault) => (s, .fault)
      | (s, .owner) => (s, .owner)
      | (s, .pa a) =>
        match devPut s 256 tenant a (BitVec.ofNat 1024 (v % 2 ^ (8 * k) * 2 ^ (8 * (a % 128))))
            (BitVec.ofNat 128 ((2 ^ k - 1) * 2 ^ (a % 128))) false with
        | (s, .done) => devWrite s asid tenant fuel (va + k) (v / 2 ^ (8 * k)) (n - k)
        | x => x

/-- Change one bit of the slot map (R347). -/
def slotBit (s : State) (l : Launch) (slot : Nat) (v : Bool) : State :=
  let va := fieldOf l.pkt 768 48 + slot / 8
  match devGet s (lAsid l) va l.tenant 1 with
  | (s, some b) =>
    let m := 2 ^ (slot % 8)
    let b' := if v then b ||| m else b &&& (255 - m)
    (devWrite s (lAsid l) l.tenant 1 va b' 1).1
  | (s, none) => s

/-- The save of the task with record `k` is given up: what its runs have used counts for its launch (R334, R461), its slot is free
again (R347), and its contributions under way lose their word. -/
def giveUp (s : State) (k : Nat) : State :=
  match s.sched.recs.find? fun e => e.1 = k with
  | none => s
  | some (_, r) =>
    match launchOf s r.lk, r.saved with
    | some l, some slot =>
      let s := slotBit s l slot false
      let (w, f) := match s.sched.saved.find? fun x => x.1 = k with
        | some (_, c) => (c.task.w.toNat, c.task.fcs)
        | none => (0, 0)
      let s := s.onLaunch r.lk fun l => { l with work := l.work + w, fcs := l.fcs + f }
      { s with
        sched := { s.sched with saved := mapDel s.sched.saved k, recs := mapPut s.sched.recs k { r with saved := none } }
        work := s.work.map fun x => match x.2 with
          | .contrib m => (x.1, .contrib { m with core := m.core.filter fun w => decide (w.1 ≠ 256 + k) })
          | _ => x }
    | _, _ => s

/-- The saved tasks of a launch are given up. -/
def dropSaved (s : State) (lk : Nat) : State :=
  (s.sched.recs.filter fun e => decide (e.2.lk = lk)).foldl (fun s e => giveUp s e.1) s

/-- The parked collective words of the ended tasks of a launch are dropped, and what they still had to send (R28, R376). -/
def dropParked (s : State) (lk : Nat) : State :=
  let ws := (s.cores.map (·.1)).flatMap fun n => ((s.core n).cmds.filter fun m => decide (m.ended.map (·.lk) = some lk)).map fun m => (n, m.e.seq)
  let s := ws.foldl (fun s w => dropCmd s w.1 3 w.2) s
  { s with work := s.work.filter fun x => match x.2 with
    | .contrib m => (match m.core with
      | some w => !ws.contains w
      | none => true)
    | _ => true }

/-- LAUNCH_DONE (R333): the verdict is fixed, successors look at it, the completion record is queued; a record for a spool
with CSEN = 0 is discarded (R336). -/
def launchDone (s : State) (lk : Nat) : State :=
  let s := dropParked (dropSaved s lk) lk
  match launchOf s lk with
  | none => s
  | some l =>
    let v := verdictOf l
    let csp := fieldOf l.pkt 116 4
    let r := recordBits l.lid v l.ref l.fcause l.fx l.fy l.fz l.fstg l.rows l.work l.fcs ((s.time - l.t0) / 1000)
    let s := s.setLaunch lk { l with ended := true }
    let s := { s with sched := { s.sched with
      launches := s.sched.launches.map fun e => (e.1, if e.2.ended then e.2 else predEnds lk v e.2)
      recs := s.sched.recs.filter fun e => e.2.lk ≠ lk
      recent := mapSet [] s.sched.recent l.tenant (((l.lid, v, lk) :: mapGet [] s.sched.recent l.tenant).take 1024) } }
    if (cspoolOf s l.vf csp).cfg.getLsbD 63 then
      { s with sched := { s.sched with dones := s.sched.dones ++ [⟨l.vf, csp, r, lk⟩] } }
    else { s with sched := { s.sched with launches := mapDel s.sched.launches lk } }

/-- Discard everything unissued on a core and let it drain (R332, R346): no cut, no trap; issued commands complete. The save that it is
loaded from or is being made is given up. -/
def stopTask (s : State) (n : Nat) (requeue : Bool) : State :=
  let s := if (s.core n).life = .loading ∨ (s.core n).life = .saving then giveUp s (s.core n).task.recno else s
  let c := s.core n
  let c := flushMask (abandon c) 15 true
  s.setCore n { c with
    life := .draining, trap := none, late := [], dstop := false
    seq := { c.seq with wait := none }
    sys := { c.sys with inh := false }
    task := { c.task with requeue := requeue } }

/-- Is the core executing or loading a task of the launch? -/
def runsLaunch (c : Core) (lk : Nat) : Bool := decide (c.life ≠ .idle) && decide (c.task.launch = lk)

/-- Stop every task of a launch, as by a kill but without requeueing (R332); cores frozen by a violation are released by
VIOLATION_RELEASE. -/
def stopTasks (s : State) (lk : Nat) : State :=
  (s.cores.map (·.1)).foldl (fun s n => if runsLaunch (s.core n) lk && !(s.core n).frozenV then stopTask s n false else s) s

/-- Does a task of the launch still hold a core? -/
def holdsCore (s : State) (lk : Nat) : Bool := (s.cores.map (·.1)).any fun n => runsLaunch (s.core n) lk

/-- An ENDING launch is DONE once every task has stopped and drained (R332). -/
def checkEnding (s : State) (lk : Nat) : State :=
  match launchOf s lk with
  | some l => if l.st = .ending ∧ l.ended = false ∧ holdsCore s lk = false then launchDone s lk else s
  | none => s

/-- A fault of a launch at time `time`: the earliest by its timestamp stands (R333). -/
def noteFault (time cause x y z stg : Nat) (l : Launch) : Launch :=
  if cause ≠ 0 ∧ (l.fcause = 0 ∨ time < l.ft) then { l with fcause := cause, ft := time, fx := x, fy := y, fz := z, fstg := stg }
  else l

/-- Does a trap of the core end its launch instead of entering a handler (R215)? -/
def escalates (c : Core) (t : PendTrap) : Bool :=
  !c.sys.trapen.getLsbD t.cause || c.sys.inh || decide (c.life = .draining ∨ c.life = .saving)
    || decide (t.cause = causeWatchdog)
    || decide (t.cause = causeUeControl)

/-- The faults of a launch whose cores still wait for their commands count by their own times (R333). -/
def pendingFaults (s : State) (lk : Nat) : State :=
  (s.cores.map (·.1)).foldl (fun s n =>
    let c := s.core n
    match c.trap with
    | some t =>
      if runsLaunch c lk && !isViolation t.cause && escalates c t then
        s.onLaunch lk (noteFault c.trapT t.cause c.task.x c.task.y c.task.z c.task.stage)
      else s
    | none => s) s

/-- A launch enters ENDING (R332) with a fault of time `time`: the first fault by time stands; a kill is recorded as such. -/
def endLaunchAt (s : State) (lk : Nat) (killed : Bool) (time cause x y z stg : Nat) : State :=
  let s := s.onLaunch lk fun l =>
    let l := noteFault time cause x y z stg l
    { l with st := .ending, killed := l.killed || killed, faulted := l.faulted || !killed }
  checkEnding (stopTasks (if cause = 0 then s else pendingFaults s lk) lk) lk

/-- A launch enters ENDING now (R332). -/
def endLaunch (s : State) (lk : Nat) (killed : Bool) (cause x y z stg : Nat) : State :=
  endLaunchAt s lk killed s.time cause x y z stg

/-- End the launch of a core's task with a fault of that task (R215, R332). -/
def faultTask (s : State) (n cause : Nat) (killed : Bool) : State :=
  let t := (s.core n).task
  endLaunch s t.launch killed cause t.x t.y t.z t.stage

/-- Reserved bits of a LAUNCH packet (R329). -/
def pktReserved (p : BitVec 1024) : Bool :=
  decide (fieldOf p 4 4 = 0) && decide (fieldOf p 120 8 = 0) && decide (fieldOf p 199 25 = 0) && decide (fieldOf p 327 1 = 0)
    && decide (fieldOf p 481 31 = 0) && decide (fieldOf p 624 16 = 0) && decide (fieldOf p 832 160 = 0)

/-- Limits of a LAUNCH packet's fields (R329, R330). -/
def pktLimits (p : BitVec 1024) : Bool :=
  decide (fieldOf p 32 32 ≠ 0) && decide (fieldOf p 64 16 ≠ 0) && decide (fieldOf p 80 16 ≠ 0) && decide (fieldOf p 96 16 ≠ 0)
    && decide (fieldOf p 128 48 % 128 = 0) && decide (fieldOf p 176 23 % 128 = 0) && decide (fieldOf p 224 32 ≠ 0)
    && decide (fieldOf p 256 48 % 128 = 0) && decide (fieldOf p 304 23 % 128 = 0) && decide (fieldOf p 328 24 % 128 = 0)
    && decide (fieldOf p 352 48 % 64 = 0) && decide (fieldOf p 472 9 ≤ 256) && decide (fieldOf p 512 32 < fieldOf p 224 32)
    && decide (fieldOf p 768 48 % 4096 = 0) && decide (fieldOf p 176 23 + 6 * fieldOf p 224 32 ≤ 2 ^ 23)

/-- Bytes that a launch takes in a cursor block: its entry and its bitmap (R466). -/
def cursorBytes (l : Launch) : Nat := 32 + (taskCount l + 7) / 8

/-- Is there room for another launch in a half of the recovery area (R466)? -/
def cursorRoom (s : State) (asid extra : Nat) : Bool :=
  let half := (fieldOf (asidOf s asid) 105 23 * 4096 - 4096) / 2
  let used := s.sched.launches.foldl (fun n e => if lAsid e.2 = asid ∧ e.2.ended = false then n + cursorBytes e.2 else n) 64
  let sp := s.sched.recs.foldl (fun n e => match launchOf s e.2.lk with
    | some l => if e.2.spawned ∧ lAsid l = asid then n + 64 else n
    | none => n) 0
  decide (used + sp + extra ≤ half)

/-- Identifiers that a packet names as predecessors, each once (R331). -/
def predIds (p : BitVec 1024) : List Nat :=
  (([fieldOf p 640 32, fieldOf p 672 32, fieldOf p 704 32, fieldOf p 736 32].filter fun x => x ≠ 0)).eraseDups

/-- Does a launch of the tenant hold the identifier? One does until its completion record is written (R331). -/
def idTaken (s : State) (tenant lid : Nat) : Bool :=
  s.sched.launches.any fun e => decide (e.2.tenant = tenant) && decide (e.2.lid = lid)

/-- The live launch of a tenant with an identifier. -/
def liveLaunch (s : State) (tenant lid : Nat) : Option Nat :=
  (s.sched.launches.find? fun e => decide (e.2.tenant = tenant) && decide (e.2.lid = lid) && !e.2.ended).map (·.1)

/-- The verdict of a recently completed launch: the tenant's last 1024 are kept (R331). -/
def recentVerdict (s : State) (tenant lid : Nat) : Option Nat :=
  ((mapGet [] s.sched.recent tenant).find? fun e => e.1 = lid).map (·.2.1)

/-- The verdict of a launch that is no longer live, by its key; one that is no longer kept counts as CLEAN (R331). -/
def recentOf (s : State) (tenant lk : Nat) : Nat :=
  match (mapGet [] s.sched.recent tenant).find? fun e => e.2.2 = lk with
  | some e => e.2.1
  | none => 0

/-- The record of the task with index `i` of a launch (R21, R317, R337). -/
def taskRec (s : State) (lk : Nat) (l : Launch) (i : Nat) : TRec :=
  let ex := fieldOf l.pkt 64 16
  let ey := fieldOf l.pkt 80 16
  let ez := fieldOf l.pkt 96 16
  { lk := lk, index := i, entry := fieldOf l.pkt 512 32, join := 0
    frame := fieldOf l.pkt 400 48 + i * fieldOf l.pkt 448 24, fsize := fieldOf l.pkt 472 9
    home := fieldOf l.pkt 400 48 + i * fieldOf l.pkt 448 24
    x := i % ex, y := i / ex % ey, z := i / (ex * ey) % ez, stg := i / (ex * ey * ez)
    spawned := false, readyAt := s.cyc, patience := false, saved := none, busy := false }

/-- Tasks of one stage. -/
def stageCount (l : Launch) : Nat := fieldOf l.pkt 64 16 * fieldOf l.pkt 80 16 * fieldOf l.pkt 96 16

/-- Put a record into the task store. -/
def addRec (s : State) (r : TRec) : State :=
  { s with sched := { s.sched with recs := mapPut s.sched.recs s.sched.nextRec r, nextRec := s.sched.nextRec + 1 } }

/-- Create records for the first stage of a running launch, in index order (R22, R337); how many at a time is the model's
choice (log entry 124). -/
def makeRecs (s : State) (lk : Nat) : Nat → State
  | 0 => s
  | n + 1 =>
    match launchOf s lk with
    | none => s
    | some l =>
      let i := l.created
      if l.st ≠ .running ∨ stageCount l ≤ i then s
      else
        let s1 := s.setLaunch lk { l with created := i + 1 }
        if mapGet false l.done i then makeRecs s1 lk n else makeRecs (addRec s1 (taskRec s lk l i)) lk n

/-- The task with index `i` of a launch has completed: its successor in the next stage becomes ready (R22). -/
def nextStage (s : State) (lk i : Nat) : State :=
  match launchOf s lk with
  | none => s
  | some l =>
    let j := i + stageCount l
    if l.st ≠ .running ∨ taskCount l ≤ j ∨ mapGet false l.done j then s else addRec s (taskRec s lk l j)

/-- Owners that have a record waiting which the stage rule and the join counter let run (R339). -/
def ownsReady (s : State) (o : Nat) : Bool :=
  s.sched.recs.any fun e => decide (e.2.join = 0) && !e.2.busy && (match launchOf s e.2.lk with
    | some l => decide (lOwner l = o) && decide (l.st = .running) && !l.ended
    | none => false)

/-- Records waiting for dispatch of every running launch are topped up to 64 (R337; log entry 124); an owner without a ready record
is eligible no more (R339). -/
def refill (s : State) : State :=
  let s := s.sched.launches.foldl (fun s e =>
    let waiting := (s.sched.recs.filter fun r => decide (r.2.lk = e.1) && !r.2.busy && !r.2.spawned).length
    if e.2.ended then s else makeRecs s e.1 (64 - waiting)) s
  { s with sched := { s.sched with wasElig := s.sched.wasElig.filter (ownsReady s) } }

/-- A refusal (R330): a record with verdict CANCELLED and the reason; the launch never exists. -/
def refuse (s : State) (vf : Nat) (p : BitVec 1024) (ref : Nat) : State :=
  let csp := fieldOf p 116 4
  if (cspoolOf s vf csp).cfg.getLsbD 63 then
    { s with sched := { s.sched with
      dones := s.sched.dones ++ [⟨vf, csp, recordBits (fieldOf p 32 32) 5 ref 0 0 0 0 0 0 0 0 0, 0⟩] } }
  else s

/-- LAUNCH_PACKET (R330 to R332). -/
def execLaunchPacket (s : State) : Ans :=
  match takePacket s 0 with
  | none => .next s
  | some (s, vf, p) =>
    let tn := (tdiOf s vf).tenant
    let te := mapGet 0 s.dev.tenant tn
    let asid := fieldOf p 22 10
    let l0 : Launch :=
      { tenant := tn, vf := vf, lid := fieldOf p 32 32, pkt := p, st := .running, preds := [], killed := false
        faulted := false, tainted := false, corrected := false, cancelled := false, ref := 0, fcause := 0, ft := 0, fx := 0, fy := 0
        fz := 0, fstg := 0, rows := 0, work := 0, fcs := 0, t0 := s.time, created := 0, done := []
        ended := false }
    let ctxRec := decide ((ctxOf s asid).st ≠ 0)
    if te.getLsbD (fieldOf p 16 6) = false then .next (refuse s vf p 1)
    else if pktReserved p = false ∨ pktLimits p = false ∨ (ctxRec ∧ cursorRoom s asid (cursorBytes l0) = false) then
      .next (refuse s vf p 2)
    else if idTaken s tn (fieldOf p 32 32) then .next (refuse s vf p 3)
    else if asidOk s asid tn = false then .next (refuse s vf p 4)
    else
      let ids := predIds p
      let live := ids.filterMap (liveLaunch s tn)
      let bad := ids.any fun i => (liveLaunch s tn i).isNone && (match recentVerdict s tn i with
        | some v => decide (2 ≤ v)
        | none => false)
      let st : LSt := if bad then .held else if live.isEmpty then .running else .pending
      let lk := s.sched.nextLk
      let s := (s.setLaunch lk { l0 with st := st, preds := live })
      .next (refill { s with sched := { s.sched with nextLk := lk + 1 } })

/-- RELEASE_PACKET (R330, R332). The rule R329 gives PASID no meaning here: its value is ignored, as in CANCEL (DESIGN CHOICE, log entry 164). -/
def execReleasePacket (s : State) : Ans :=
  match takePacket s 1 with
  | none => .next s
  | some (s, vf, p) =>
    match liveLaunch s (tdiOf s vf).tenant (fieldOf p 32 32) with
    | none => .next s
    | some lk => .next (refill (s.onLaunch lk fun l =>
        if l.st = .held then { l with st := if l.preds.isEmpty then .running else .pending } else l))

/-- CANCEL_PACKET (R330, R332); PASID as in RELEASE (log entry 164). -/
def execCancelPacket (s : State) : Ans :=
  match takePacket s 2 with
  | none => .next s
  | some (s, vf, p) =>
    match liveLaunch s (tdiOf s vf).tenant (fieldOf p 32 32) with
    | none => .next s
    | some lk =>
      match launchOf s lk with
      | some l =>
        match l.st with
        | .pending | .held => .next (launchDone (s.setLaunch lk { l with cancelled := true }) lk)
        | .running => .next (endLaunch s lk true 0 0 0 0 0)
        | .ending => .next s
      | none => .next s

/-- NOP_PACKET (R329). -/
def execNopPacket (s : State) : Ans :=
  match takePacket s 3 with
  | none => .next s
  | some (s, _, _) => .next s

/-- Are the writes of a launch performed with respect to SYSTEM (R274, R335): no write of its tenant to the host waits for the read that
pushes it, and no contribution of its tasks is on its way? -/
def launchQuiet (s : State) (tenant lk : Nat) : Bool :=
  !(s.links.posted.any fun e => decide (e.1 = tenant)) && !s.work.any fun x => match x.2 with
    | .contrib m => decide (m.lk = lk) && !m.away
    | _ => false

/-- The first completion record whose spool has room, whose TDI may write and whose launch's writes are performed (R335, R336, R356,
R382). -/
def nextDone (s : State) : Option Nat :=
  if s.sched.tt.chold then none
  else (List.range s.sched.dones.length).find? fun i =>
    match s.sched.dones[i]? with
    | some d =>
      let x := cspoolOf s d.vf d.csp
      let first := !(s.sched.dones.take i).any fun e => decide (e.vf = d.vf) && decide (e.csp = d.csp)
      first && decide ((tdiOf s d.vf).st ≠ 3) && (!x.cfg.getLsbD 63 || (!csFull x && launchQuiet s (tdiOf s d.vf).tenant d.lk))
    | none => false

/-- `CSFULL` (R335, R336): a record waits for room in the completion spool. -/
def csFullBit (s : State) (vf m : Nat) : Bool :=
  (s.sched.dones.any fun d => decide (d.vf = vf) && decide (d.csp = m)) && (cspoolOf s vf m).cfg.getLsbD 63 && csFull (cspoolOf s vf m)

/-- COMPLETION_RECORD_WRITE (R335, R336): the record is written and CSPROD advances; a fault or refusal sets CSERR and
discards it. -/
def execCompletionRecordWrite (s : State) : Ans :=
  match nextDone s with
  | none => .next s
  | some i =>
    match s.sched.dones[i]? with
    | none => .next s
    | some d =>
      let x := cspoolOf s d.vf d.csp
      let s := { s with sched := { s.sched with
        dones := s.sched.dones.eraseIdx i, launches := mapDel s.sched.launches d.lk } }
      if x.cfg.getLsbD 63 = false then .next s
      else
        let va := fieldOf x.cfg 0 48 + 32 * (x.prod % 2 ^ fieldOf x.cfg 58 5)
        let tn := (tdiOf s d.vf).tenant
        let asid := fieldOf x.cfg 48 10
        match devWrite s asid tn 2 va d.rec0.toNat 32 with
        | (s, .done) => .next (s.setCspool d.vf d.csp { x with prod := (x.prod + 1) % 2 ^ 32 })
        | (s, _) => .next (s.setCspool d.vf d.csp { x with err := true })

end Sys2Proof.Machine
end

