-- ==== Sys2Proof/Machine/Dispatcher.lean ====
section
/-! DEFINITION. Placement, stride scheduling and lending (13_scheduler R337 to R343), task start and end (01 R22 to R28), the
scrub (01 R34, 09 R248). -/

namespace Sys2Proof.Machine

/-- Is form `f` enabled (R40)? -/
def formEn (s : State) (f : Nat) : Bool := s.plat.inv.getLsbD f

/-- Does a group of a launch with form placement hold form `f` (R23, R30)? -/
def formHeld (s : State) (f : Nat) : Bool :=
  (List.range 8).any fun m =>
    let c := s.core (8 * f + m)
    decide (c.life ≠ .idle) && c.task.grp

/-- Is the core idle and able to take a task? -/
def coreFree (s : State) (n : Nat) : Bool :=
  let c := s.core n
  decide (c.life = .idle) && !c.frozenV && !c.failed && formEn s (n / 8) && (s.isSplit n || !formHeld s (n / 8))

/-- May a record of the owner and tenant use the core (R33, R342)? -/
def coreFor (s : State) (tenant owner n : Nat) : Bool :=
  let fl := flendOf s (n / 8)
  if fl.getLsbD 12 then decide (fieldOf fl 6 6 = owner) && !fl.getLsbD 13 && decide (lentTo s (n / 8) = some tenant)
  else (mapGet 0 s.dev.tenant tenant).getLsbD (256 + n)

/-- Does every busy member of the form run a task of context `asid` (R30, R338)? -/
def formSameCtx (s : State) (f asid : Nat) : Bool :=
  (List.range 8).all fun m => let c := s.core (8 * f + m); decide (c.life = .idle) || decide (c.sys.casid = asid)

/-- The hub that holds a record's home page (R338); H0 where the page does not translate. -/
def homeHub (s : State) (asid tenant va : Nat) : Nat :=
  match (walkFrom s tenant va false [0, 1, 2, 3] (fieldOf (asidOf s asid) 16 29 * 4096)).1 with
  | .pa a => stackOf a / 4
  | _ => 0

/-- The records of a record's group, member by member (R23); the record alone without form placement. -/
def groupOf (s : State) (k : Nat) : List (Nat × TRec) :=
  match s.sched.recs.find? fun e => e.1 = k with
  | none => []
  | some (_, r) =>
    match launchOf s r.lk with
    | some l =>
      if lForm l && !r.spawned then
        s.sched.recs.filter fun e => decide (e.2.lk = r.lk) && !e.2.spawned && decide (e.2.y = r.y) && decide (e.2.z = r.z)
          && decide (e.2.stg = r.stg) && decide (e.2.x / 8 = r.x / 8)
      else [(k, r)]
    | none => []

/-- Tasks of a record's group that have completed already, as they may have when the others were killed, saved or rolled back:
their members are idle ones now (R23). -/
def groupDone (l : Launch) (r : TRec) : Nat :=
  let ex := fieldOf l.pkt 64 16
  ((List.range (min 8 (ex - r.x / 8 * 8))).filter fun m => mapGet false l.done (r.index - r.x + r.x / 8 * 8 + m)).length

/-- Is the record ready (R22, R317), with the whole of its group where it has one and the first of it that is left (R23)? -/
def recReady (s : State) (k : Nat) : Bool :=
  match s.sched.recs.find? fun e => e.1 = k with
  | none => false
  | some (_, r) =>
    match launchOf s r.lk with
    | some l =>
      let g := groupOf s k
      let whole := if lForm l && !r.spawned then 
          decide (g.length + groupDone l r = min 8 (fieldOf l.pkt 64 16 - r.x / 8 * 8)) && g.all fun e => decide (r.x ≤ e.2.x)
        else true
      decide (l.st = .running) && !l.ended && whole && g.all fun e => decide (e.2.join = 0) && !e.2.busy
    | none => false

/-- May a task of the context be dispatched to the core now: while an interval closes or seals, members alone (R259)? -/
def ctxAdmits (s : State) (asid n : Nat) : Bool :=
  let c := ctxOf s asid
  !decide (c.st = 2 ∨ c.st = 3 ∨ c.st = 4 ∨ c.st = 5) || (decide (c.st = 2 ∨ c.st = 3) && c.members.contains n)

/-- The units on which a ready record could be placed now if it had no preference: first cores (R30, R259, R338). -/
def freeUnits (s : State) (k : Nat) : List Nat :=
  match s.sched.recs.find? fun e => e.1 = k with
  | none => []
  | some (_, r) =>
    match launchOf s r.lk with
    | none => []
    | some l =>
      let grp := lForm l && !r.spawned
      let ok (n : Nat) : Bool := coreFree s n && coreFor s l.tenant (lOwner l) n && ctxAdmits s (lAsid l) n
      if grp then
        (List.range 32).map (8 * ·) |>.filter fun b => !s.isSplit b && (List.range 8).all fun m => ok (b + m)
      else (List.range 256).filter fun n => ok n && (s.isSplit n || formSameCtx s (n / 8) (lAsid l))

/-- The home page of a record, or of its group: that of the task with x = 8g (R338). -/
def homeOf (l : Launch) (r : TRec) : Nat :=
  if lForm l && !r.spawned then fieldOf l.pkt 400 48 + (r.index - r.x % 8) * fieldOf l.pkt 448 24 else r.home

/-- Does a unit suit the preference of a record (R338): above its home hub, or any once its patience is over? -/
def suits (s : State) (r : TRec) (n : Nat) : Bool :=
  r.patience || (match launchOf s r.lk with
    | some l => decide (n / 64 = homeHub s (lAsid l) l.tenant (homeOf l r))
    | none => false)

/-- The units on which a ready record may be placed now: first cores (R338). -/
def unitsOfRec (s : State) (k : Nat) : List Nat :=
  match s.sched.recs.find? fun e => e.1 = k with
  | none => []
  | some (_, r) => (freeUnits s k).filter (suits s r)

/-- Owners with a ready record that has a unit (R339). -/
def eligible (s : State) : List Nat :=
  (List.range 64).filter fun o =>
    decide (mapGet 0 s.sched.weight o ≠ 0) && s.sched.recs.any fun e =>
      (match launchOf s e.2.lk with
      | some l => decide (lOwner l = o)
      | none => false) && recReady s e.1 && !(unitsOfRec s e.1).isEmpty

/-- The smallest of a list by a key, the first among equals. -/
def minBy (key : Nat → Nat) : List Nat → Option Nat
  | [] => none
  | x :: t => match minBy key t with
    | some y => some (if key y < key x then y else x)
    | none => some x

/-- Passes at a decision among eligible owners `el`: an owner that becomes eligible after having had no ready record takes at
least the global virtual time (R339); passes are lowered together when it passes 2^62 (R340). -/
def settlePasses (s : State) (el : List Nat) : State :=
  let old := el.filter fun o => s.sched.wasElig.contains o
  let gvt := match minBy (fun o => mapGet 0 s.sched.pass o) old with
    | some o => mapGet 0 s.sched.pass o
    | none => s.sched.gvt
  let pass := el.foldl (fun m o => if s.sched.wasElig.contains o then m else mapSet 0 m o (max (mapGet 0 m o) gvt)) s.sched.pass
  let big := decide (2 ^ 62 < gvt)
  { s with sched := { s.sched with
    pass := if big then pass.map fun e => (e.1, e.2 - 2 ^ 61) else pass
    gvt := if big then gvt - 2 ^ 61 else gvt
    wasElig := (List.range 64).filter fun o => decide (mapGet 0 s.sched.weight o ≠ 0) && (el.contains o || (s.sched.wasElig.contains o && ownsReady s o)) } }

/-- Rank of a core in its partition (R16). -/
def prcoreOf (s : State) (tenant n : Nat) : Nat := ((partitionOf s tenant).filter fun c => c < n).length

/-- The spare site of a form takes a failed member's place when a context comes to run on the form (R39, R351). -/
def takeSpare (s : State) (f : Nat) : State :=
  let m := mapGet 0 s.plat.spareDue f
  if m = 0 then s
  else bumpInv { s with plat := { s.plat with
    spare := mapSet 0 s.plat.spare f m, spareDue := mapSet 0 s.plat.spareDue f 0, inv := setField s.plat.inv (32 + f) 1 1 } }

/-- Give a core the task of a record: loading until its loads complete (R337, R208). -/
def placeOn (s : State) (n k : Nat) (r : TRec) (l : Launch) : State :=
  let c := s.core n
  let t : TaskSt := { TaskSt.none with
    launch := r.lk, recno := k, index := BitVec.ofNat 64 r.index, x := r.x, y := r.y, z := r.z, stage := r.stg
    rem := fieldOf l.pkt 576 32, fresh := decide (c.task.launch ≠ r.lk)
    grp := lForm l && !r.spawned }
  let s := takeSpare s (n / 8)
  let c := { c with
    life := .loading, task := t, exempt := false
    sys := { c.sys with
      prcore := prcoreOf s l.tenant n, casid := lAsid l, owner := lOwner l, launchid := BitVec.ofNat 32 l.lid
      codebase := fieldOf l.pkt 176 23, codesize := fieldOf l.pkt 224 32, wdlimit := BitVec.ofNat 64 (fieldOf l.pkt 544 32)
      wdcount := 0 } }
  let s := s.setCore n c
  let ctx := ctxOf s (lAsid l)
  let s := if ctx.st ≠ 0 ∧ !ctx.members.contains n then s.setCtx (lAsid l) { ctx with members := ctx.members ++ [n] } else s
  { s with sched := { s.sched with
    recs := mapPut s.sched.recs k { r with busy := true }, dispatchAt := mapPut s.sched.dispatchAt n s.cyc } }

/-- What the next dispatch would be: owner, record, unit (R338, R339). The unit is a free choice. -/
def nextDispatch (s : State) : Option (Nat × Nat × Nat) :=
  let el := eligible s
  match minBy (fun o => mapGet 0 (settlePasses s el).sched.pass o) el with
  | none => none
  | some o =>
    let ks := (s.sched.recs.filter fun e => (match launchOf s e.2.lk with
      | some l => decide (lOwner l = o)
      | none => false) && recReady s e.1 && !(unitsOfRec s e.1).isEmpty).map (·.1)
    match minBy (fun k => match s.sched.recs.find? fun e => e.1 = k with
      | some (_, r) => r.readyAt
      | none => 0) ks with
    | none => none
    | some k =>
      let us := unitsOfRec s k
      match us[(Config.freeValue 3 s.free).toNat % us.length]? with
      | some u => some (o, k, u)
      | none => none

/-- DISPATCH (R338, with STRIDE_DECISION R339): the winner's pass rises by stride × cores, the loads begin (R465). -/
def execDispatch (s : State) : Ans :=
  match nextDispatch s with
  | none => .next s
  | some (o, k, u) =>
    let s := settlePasses s (eligible s)
    let g := groupOf s k
    match s.sched.recs.find? fun e => e.1 = k with
    | none => .next s
    | some (_, r) =>
      match launchOf s r.lk with
      | none => .next s
      | some l =>
        let grp := lForm l && !r.spawned
        let cores := if grp then 8 else 1
        let stride := 2 ^ 20 / mapGet 0 s.sched.weight o
        let s := { s with sched := { s.sched with
          pass := mapSet 0 s.sched.pass o (mapGet 0 s.sched.pass o + stride * cores) } }
        let s := g.foldl (fun s e => placeOn s (if grp then u + e.2.x % 8 else u) e.1 e.2 l) s
        let first := if grp then u + r.x % 8 else u
        .next (refill (addWork s devBound (if r.saved.isSome then .resume first else .start first)))

/-- A ready record whose patience is over (R338). -/
def patienceOver (s : State) : Option Nat :=
  (s.sched.recs.find? fun e => !e.2.patience && !e.2.busy && decide (e.2.join = 0) && (match launchOf s e.2.lk with
    | some l => decide (l.st = .running) && decide (e.2.readyAt + 64 * fieldOf l.pkt 608 16 ≤ s.cyc)
    | none => false)).map (·.1)

/-- PLACEMENT_PATIENCE_EXPIRY (R338): any idle unit of the partition qualifies from here on. -/
def execPlacementPatienceExpiry (s : State) : Ans :=
  match patienceOver s with
  | none => .next s
  | some k => match s.sched.recs.find? fun e => e.1 = k with
    | none => .next s
    | some (_, r) => .next { s with sched := { s.sched with recs := mapPut s.sched.recs k { r with patience := true } } }

/-- The counters that the hypervisor holds stay; the guest's frozen copies are zero (R416). -/
def claimedOnly (c : Core) : Map Counter :=
  (c.cn.cnt.filter fun e => c.cn.claim.getLsbD e.1).map fun e => (e.1, { e.2 with gvalue := 0, gcfg := 0 })

/-- What the scrub leaves of a core (R9, R34, R207, R248): everything zero and CLEAN, every bank ACTIVE, SPRETREQ and the
registers of the task that comes kept, the lines owned by the incoming tenant; parked words of ended tasks stay (R28, R376). -/
def scrubbed (c : Core) (tenant : Nat) : Core :=
  { Core.reset with
    life := c.life, failed := c.failed, frozenV := c.frozenV, fc := c.fc, task := { c.task with fresh := true }
    nfree := c.nfree
    msgs := c.msgs, cmds := c.cmds.filter (·.ended.isSome)
    sp := { SpadSt.reset with tagDef := tenant, retreq := c.sp.retreq }
    cn := { CntSt.reset with claim := c.cn.claim, cnt := claimedOnly c }
    sys := { SysSt.reset with
      tenant := tenant, prcore := c.sys.prcore, casid := c.sys.casid, owner := c.sys.owner, launchid := c.sys.launchid
      codebase := c.sys.codebase, codesize := c.sys.codesize, wdlimit := c.sys.wdlimit, wdcount := c.sys.wdcount } }

/-- A core that is loading a task of another tenant than it held last (R34). -/
def needsScrub (s : State) (n : Nat) : Bool :=
  let c := s.core n
  decide (c.life = .loading) && (match launchOf s c.task.launch with
    | some l => decide (l.tenant ≠ c.sys.tenant)
    | none => false)

/-- Messages that had arrived at a core and have not landed wait again, without a reservation (R311). -/
def unarrive (s : State) (n : Nat) : State :=
  let s := { s with work := s.work.filter fun x => match x.2 with
    | .deliver d _ _ => decide (d ≠ n)
    | _ => true }
  let ms := (s.core n).msgs
  let s := s.setCore n { s.core n with
    msgs := ms.map fun m => { m with arrived := false, reserved := false, written := false, due := none } }
  (ms.filter (·.arrived)).foldl (fun s m => addWork s 1 (.arrive n m.srcCore m.srcSeq)) s

/-- Contributions under way lose their word when the task that made them has left its core; a saved task's keep it under a
number beyond every core's. -/
def retag (s : State) (f : Nat × Nat → Option (Nat × Nat)) : State :=
  { s with work := s.work.map fun x => match x.2 with
    | .contrib m => (x.1, .contrib { m with core := m.core.bind f })
    | _ => x }

/-- The number under which a parked word of an ended task goes on: no number of a queue reaches it. -/
def endedSeq (t : TaskSt) (seq : Nat) : Nat := seq + 2 ^ 32 * t.recno

/-- Contributions of the task of core `n` lose their word. -/
def orphan (s : State) (n : Nat) : State := retag s fun w => if w.1 = n ∧ w.2 < 2 ^ 32 then none else some w

/-- The task of core `n` ends: its parked collective words go on without it until their launch is DONE (R28, R376). -/
def parkTask (s : State) (n : Nat) : State :=
  let c := s.core n
  let t := c.task
  let stays (m : Cmd) : Bool := m.parked && m.ended.isNone
  let s := retag s fun w =>
    if w.1 = n ∧ w.2 < 2 ^ 32 then
      (if c.cmds.any fun m => stays m && decide (m.e.seq = w.2) then some (n, endedSeq t w.2) else none)
    else some w
  s.setCore n { c with cmds := c.cmds.filterMap fun m =>
    if m.ended.isSome then some m
    else if m.parked then some { m with e := { m.e with seq := endedSeq t m.e.seq }, ended := some ⟨t.launch, t.x, t.y, t.z, t.stage⟩ }
    else none }

/-- What the scrub's accesses leave (R228, R230, R248): every bank was touched and has served in this cycle, and each has served row SCRUB
for the 1,024 cycles in which every line is written (log entry 133). -/
def scrubTouched (c : Core) (cyc : Nat) : Core :=
  { c with
    sp := { c.sp with banks := (List.range 64).foldl (fun m b => mapPut m b (.active cyc)) c.sp.banks, served := List.range 64 }
    cn := { c.cn with chart := (List.range 64).foldl (fun m b => mapSet 0 m (64 * 13 + b) 1024#32) c.cn.chart } }

/-- SCRUB (R34, R248): the registers, the scratchpad, and the translations that the core holds. -/
def execScrub (s : State) : Ans :=
  if needsScrub s s.cur then
    match launchOf s s.me.task.launch with
    | some l =>
      let s := unarrive s s.cur
      let s := { s with dev := { s.dev with tlb := s.dev.tlb.filter fun t => decide (t.unit ≠ s.cur) } }
      .next (s.onMe fun c => scrubTouched (scrubbed c l.tenant) s.cyc)
    | none => .next s
  else .next s

/-- Why a core's start fails: the core, and a cause that ends the launch FAULTED, or a violation with its address or entry. -/
inductive StartErr where
  | fault (n cause : Nat)
  | viol (n cause : Nat) (where_ : Word)
  deriving DecidableEq, Repr

/-- What a load at dispatch meets (R26, R337), with the state that its reads leave. -/
inductive LoadRes where
  | ok (c : Core) (s : State) (bad corr : Bool)
  | err (s : State) (e : StartErr)
  deriving DecidableEq, Repr

/-- Bytes a to a + n − 1 of a line written by a load or a save read back: fresh check bits, and a unit that is written in part is read for
it (R226); the owner tag is the core's tenant (R224). -/
def padStore (c : Core) (a n v : Nat) (code : BitVec 2) : Core :=
  let us := unitsOf a n
  let part := us.filter fun u => decide (8 * u < a ∨ a + n < 8 * u + 8)
  let hard := part.filter fun u => mapGet false c.sp.dbe u
  let c := mergeSoft c part
  let c := { c with
    sp := { c.sp with
      bytes := memWriteNat c.sp.bytes a n v
      tag := mapSet c.sp.tagDef c.sp.tag (lineOf a) c.sys.tenant
      dbe := clearUnits c.sp.dbe us, sbe := clearUnits c.sp.sbe us
      stale := (List.range n).foldl (fun m i => mapDel m (a + i)) c.sp.stale
      srace := us.foldl mapDel c.sp.srace, erace := us.foldl mapDel c.sp.erace }
    errs := c.errs ++ hard.map fun u => (2, 2, 1, 8 * u) }
  { c with sp := { c.sp with code := mapSet 0 c.sp.code (lineOf a) (if hard.isEmpty then code else 3) } }

/-- Copy `len` bytes from a virtual address into the scratchpad of core `n`, granule by granule (R226), into lines of its tenant (R225);
`strict` stops on a poisoned granule (R337), otherwise its line takes ERROR (R26). A line that a good granule fills is CLEAN, and one that it
writes in part keeps its code: the spec gives neither (log entry 155). -/
def loadBytes (s : State) (n : Nat) (c : Core) (asid tenant : Nat) (strict : Bool) : Nat → Nat → Nat → Nat → Bool → Bool → LoadRes
  | 0, _, _, _, bad, corr => .ok c s bad corr
  | fuel + 1, va, a, len, bad, corr =>
    if len = 0 then .ok c s bad corr
    else
      let k := min len (min (128 - va % 128) (128 - a % 128))
      match walkTo s asid va tenant false with
      | (s, .fault) => .err s (.fault n causeTranslation)
      | (s, .owner) => .err s (.viol n causeOwner (BitVec.ofNat 64 va))
      | (s, .pa p) =>
        let (s, v, poison, cor) := fetchPart s p k
        if strict && poison then .err s (.fault n causePoisonStore)
        else
          let keep := if k = 128 then 0 else lineCode c (lineOf a)
          if !tagOk c (lineOf a) then .err s (.viol n causeOwner (BitVec.ofNat 64 a))
          else
          let c := padStore c a k v (if poison then 3 else keep)
          loadBytes s n c asid tenant strict fuel (va + k) (a + k) (len - k) (bad || poison) (corr || cor)

/-- What loading the handle table meets (R25). -/
inductive TabRes where
  | ok (h : Map Handle) (bad corr : Bool)
  | err (e : StartErr)
  | revoked (entry : Nat) (corr : Bool)
  deriving DecidableEq, Repr

/-- Load handle-table entries `i` and on for core `n` (R25, R26). -/
def loadTable (s : State) (n key asid tenant base : Nat) : Nat → Nat → Map Handle → Bool → Bool → State × TabRes
  | 0, _, h, bad, corr => (s, .ok h bad corr)
  | m + 1, i, h, bad, corr =>
    if base = 0 then (s, .ok [] bad corr)
    else match walkTo s asid (base + 64 * i) tenant false with
      | (s, .fault) => (s, .err (.fault n causeTranslation))
      | (s, .owner) => (s, .err (.viol n causeOwner (BitVec.ofNat 64 (base + 64 * i))))
      | (s, .pa p) =>
        let (s, v, poison, cor) := fetchPart s p 64
        let corr := corr || cor
        if poison then loadTable s n key asid tenant base m (i + 1) h true corr
        else
          let x : BitVec 512 := BitVec.ofNat 512 v
          match handleCheck s key tenant x with
          | .empty => loadTable s n key asid tenant base m (i + 1) h bad corr
          | .ok => loadTable s n key asid tenant base m (i + 1) (mapPut h i ⟨x, .valid⟩) bad corr
          | .seal_ => (s, .err (.viol n causeSeal (BitVec.ofNat 64 i)))
          | .owner => (s, .err (.viol n causeOwner (BitVec.ofNat 64 i)))
          | .revoked _ => (s, .revoked i corr)

/-- The state that task start sets (R24, R27, R214, R298). -/
def startState (s : State) (c : Core) (r : TRec) : Core :=
  let st (n v : Nat) (m : Map Word) : Map Word := mapSet 0 m n (BitVec.ofNat 64 v)
  let q : EQueue := { EQueue.zero with origin := c.fc }
  { c with
    life := .running
    seq := { c.seq with
      pc := BitVec.ofNat 32 r.entry, wait := none, freed := none, freedH := none, nextAt := s.cyc + 1, ready := [], reorig := true
      s := st 1 r.x (st 2 r.y (st 3 r.z (st 4 r.stg (st 5 r.index (st 62 r.frame c.seq.s))))) }
    sys := { c.sys with trapen := 0, inh := false, lvalid := false, livedesc := 0 }
    mx := { c.mx with lastw := [] }
    qm := q, qv := q, qc := q, ql := q, lastD0 := true
    land := [], trap := none, late := [] }

/-- The loads of core `n` at task start (R24 to R26, R337), and its state after them; a corrected granule makes the launch
CORRECTED (R255). -/
def startCore (s : State) (n : Nat) : Except (State × StartErr) State :=
  let c := s.core n
  match s.sched.recs.find? fun e => e.1 = c.task.recno, launchOf s c.task.launch with
  | some (_, r), some l =>
    let asid := lAsid l
    let code := if c.task.fresh then
        loadBytes s n c asid l.tenant true (fieldOf l.pkt 224 32 * 6 / 128 + 2) (fieldOf l.pkt 128 48) (fieldOf l.pkt 176 23)
          (fieldOf l.pkt 224 32 * 6) false false
      else .ok c s false false
    match code with
    | .err s e => .error (s, e)
    | .ok c s _ k1 =>
      let dat := if c.task.fresh then
          loadBytes s n c asid l.tenant true (fieldOf l.pkt 328 24 / 128 + 1) (fieldOf l.pkt 256 48) (fieldOf l.pkt 304 23)
            (fieldOf l.pkt 328 24) false false
        else .ok c s false false
      match dat with
      | .err s e => .error (s, e)
      | .ok c s _ k2 =>
        match loadBytes s n c asid l.tenant false 5 r.frame 0 r.fsize false false with
        | .err s e => .error (s, e)
        | .ok c s bad k3 =>
          match loadTable s n (panelKey s n) asid l.tenant (fieldOf l.pkt 352 48) 32 0 [] false false with
          | (s, .err e) => .error (s, e)
          | (s, .revoked i k4) =>
            let s := s.setCore n (raise { startState s c r with h := [] } s.time
              ⟨causeRevoked, false, 0, true, BitVec.ofNat 64 i, 0, BitVec.ofNat 32 r.entry⟩)
            .ok (if k1 || k2 || k3 || k4 then s.onLaunch c.task.launch fun l => { l with corrected := true } else s)
          | (s, .ok h bad' k4) =>
            let c := startState s { c with h := h } r
            let s := s.setCore n (if bad || bad' then psumSet c 3 else c)
            .ok (if k1 || k2 || k3 || k4 then s.onLaunch c.task.launch fun l => { l with corrected := true } else s)
  | _, _ => .error (s, .fault n causeTranslation)

/-- The cores that start together: a locked group, or one core (R23). -/
def startSet (s : State) (n : Nat) : List Nat :=
  match launchOf s (s.core n).task.launch with
  | some _ => if (s.core n).task.grp then ((List.range 8).map (n / 8 * 8 + ·)).filter fun m =>
      decide ((s.core m).life = .loading) && decide ((s.core m).task.launch = (s.core n).task.launch) else [n]
  | none => [n]

/-- The lines that the loads of core `n` write (R24, R337). -/
def startLines (s : State) (n : Nat) : List Nat :=
  let c := s.core n
  let span (a k : Nat) : List Nat := if k = 0 then [] else (List.range ((a + k - 1) / 128 + 1 - a / 128)).map (a / 128 + ·)
  match s.sched.recs.find? fun e => e.1 = c.task.recno, launchOf s c.task.launch with
  | some (_, r), some l =>
    (if c.task.fresh then span (fieldOf l.pkt 176 23) (6 * fieldOf l.pkt 224 32) ++ span (fieldOf l.pkt 304 23) (fieldOf l.pkt 328 24)
     else []) ++ span 0 r.fsize
  | _, _ => []

/-- The context engine, a load or a save read back touches the banks of some lines (R228), which serve nothing else in this cycle (R230). -/
def bankUse (c : Core) (cyc : Nat) (ls : List Nat) : Core :=
  let bs := (List.range 64).filter fun b => ls.any fun l => decide (bankOf l = b)
  let c := bs.foldl (fun c b => touchBank c cyc b) c
  { c with sp := { c.sp with served := c.sp.served ++ bs } }

/-- Is a bank of some lines not ACTIVE (R228)? -/
def bankWaits (c : Core) (ls : List Nat) : Bool := ls.any fun l => !bankAwake c (bankOf l)

/-- A roll call is requested (R427): a pending one takes the blocks in. -/
def rollCall (s : State) (cause : Nat) (set hubs : List Nat) : State :=
  match s.meas.rc with
  | some r => { s with meas := { s.meas with
      rc := some { r with set := (r.set ++ set).eraseDups, hubs := (r.hubs ++ hubs).eraseDups } } }
  | none => { s with meas := { s.meas with
      rcseq := (s.meas.rcseq + 1) % 2 ^ 32, rc := some ⟨s.meas.rcseq, s.time + 4000, cause, set, hubs⟩ } }

/-- The Thimble's part in a core's violation (R37): the record, the roll call, and the launch ends KILLED. -/
def violationSteps (s : State) (n cause : Nat) (where_ : Word) : State :=
  let c := s.core n
  let s := { s with thim := { s.thim with viols := s.thim.viols ++ [⟨cause, n, c.sys.tenant, where_, s.time⟩] } }
  let form := if s.isSplit n then [n] else (List.range 8).map (n / 8 * 8 + ·)
  faultTask (rollCall s 3 form []) n cause true

/-- TASK_START (R24 to R26): after the loads, which wait for their banks to be ACTIVE (R228), every member of a group fetches its first word
in the same cycle. -/
def execTaskStart (s : State) : Ans :=
  match takeFrom (fun x => decide (x.1 ≤ s.cyc) && (match x.2 with
      | .start n => !needsScrub s n
      | _ => false)) s.work with
  | some (.start n, w) =>
    let s0 := { s with work := w }
    let set := (startSet s0 n).filter fun m => decide ((s0.core m).life = .loading)
    let asleep := set.any fun m => bankWaits (s0.core m) (startLines s0 m)
    let s0 := set.foldl (fun s m => s.setCore m (bankUse (s.core m) s.cyc (startLines s m))) s0
    if asleep then .next (addWorkAt s0 2048 (.start n))
    else match set.foldlM (fun s m => startCore s m) s0 with
    | .ok s => .next s
    | .error (t, .fault m k) => .next (faultTask { s0 with dev := t.dev, meas := t.meas, free := t.free } m k false)
    | .error (t, .viol m k w) => .next (violationSteps { s0 with dev := t.dev, meas := t.meas, free := t.free } m k w)
  | _ => .next s

/-- Has the draining core finished (R28, R321)? Parked collective words are not waited for (R376). -/
def drained (c : Core) : Bool :=
  c.qm.ents.isEmpty && c.qv.ents.isEmpty && c.qc.ents.isEmpty && c.ql.ents.isEmpty && issuedDone c

/-- A member core leaves its context when it becomes idle (R259); the count of released members may now be complete
(R260). -/
def ctxLeave (s : State) (asid n : Nat) : State :=
  let c := ctxOf s asid
  if c.st = 0 then s
  else
    let c := { c with members := c.members.filter (fun m => m ≠ n), rel := c.rel.filter (fun m => m ≠ n) }
    let full := decide (c.st = 2) && decide (c.rel.length = c.members.length)
    s.setCtx asid (if full then { c with st := 3 } else c)

/-- A core becomes idle after a task; loop stack, PSUM and MXEVT are cleared (R321), and the events of its last cycle count (R411). Parked
words of ended tasks stay (R28). -/
def idleCore (c : Core) : Core :=
  let c := countAll c
  { c with
    life := .idle, trap := none, late := [], frozenV := false, dstop := false
    seq := { c.seq with psum := 0, lstk := [], wait := none }
    mx := { c.mx with mxevt := 0 }
    cmds := c.cmds.filter (·.ended.isSome), land := []
    task := { TaskSt.none with launch := c.task.launch } }

/-- After a task's end: the launch is DONE when every task has completed (R333), and a spawned record whose counter can
reach zero no more is discarded (R320). -/
def checkLaunch (s : State) (lk : Nat) : State :=
  match launchOf s lk with
  | none => s
  | some l =>
    if l.ended then s
    else if l.st = .ending then checkEnding s lk
    else if decide (l.done.length = taskCount l) then
      let rs := s.sched.recs.filter fun e => decide (e.2.lk = lk)
      if rs.isEmpty then launchDone s lk
      else if rs.all fun e => e.2.spawned && decide (e.2.join ≠ 0) && !e.2.busy then
        match rs with
        | (_, r) :: _ =>
          endLaunch { s with sched := { s.sched with recs := s.sched.recs.filter fun e => e.2.lk ≠ lk } } lk false causeIllegal
            r.x r.y r.z r.stg
        | [] => s
      else s
    else s

/-- The debug registers of a tenant. -/
def dbgOf (s : State) (t : Nat) : Dbg := mapGet Dbg.zero s.meas.dbg t

/-- Replace the debug registers of a tenant. -/
def State.setDbg (s : State) (t : Nat) (d : Dbg) : State :=
  { s with meas := { s.meas with dbg := mapSet Dbg.zero s.meas.dbg t d } }

/-- Does the armed work stop of the core's tenant name this core's task (R433)? -/
def stopArmed (s : State) (n : Nat) : Bool :=
  let c := s.core n
  let d := dbgOf s c.sys.tenant
  d.wsarm && decide (c.life = .running ∨ c.life = .draining) && decide (d.dlid = c.sys.launchid.toNat)
    && decide (d.wstask = c.task.index)

/-- Retired work of a core counts in the open interval, or in the next once its release is counted (R266). -/
def ctxWork (c : Ctx) (n w : Nat) : Ctx :=
  if c.rel.contains n then { c with workNext := c.workNext + w } else { c with work := c.work + w }

/-- The work that the task of core `n` has retired since it was last counted goes to its context (R266, R426). -/
def noteWork (s : State) (n : Nat) : State :=
  let c := s.core n
  let x := ctxOf s c.sys.casid
  if x.st = 0 then s else s.setCtx c.sys.casid (ctxWork x n (c.task.w.toNat - c.task.wBase))

/-- TASK_COMPLETION (R28, R321): the counts are reported, the record is done with or ready again, the core becomes idle. -/
def execTaskCompletion (s : State) : Ans :=
  let c := s.me
  if c.life ≠ .draining ∨ c.frozenV ∨ drained c = false then .next s
  else
    let t := c.task
    let lk := t.launch
    let d := dbgOf s c.sys.tenant
    let s := if stopArmed s s.cur && !t.requeue then s.setDbg c.sys.tenant { d with wsarm := false, wsmiss := true } else s
    let s := s.onLaunch lk fun l =>
      let l := { l with work := l.work + t.w.toNat, fcs := l.fcs + t.fcs }
      if t.requeue then l
      else
        let l := if c.seq.psum ≠ 0 ∨ c.mx.mxevt &&& 3 ≠ 0 then { l with tainted := true } else l
        match s.sched.recs.find? fun e => e.1 = t.recno with
        | some (_, r) => if l.st = .running ∧ r.spawned = false then { l with done := mapPut l.done r.index true } else l
        | none => l
    let recs := if t.requeue then
        match s.sched.recs.find? fun e => e.1 = t.recno with
        | some (_, r) => mapPut s.sched.recs t.recno { r with busy := false, join := 0, readyAt := s.cyc, patience := false }
        | none => s.sched.recs
      else mapDel s.sched.recs t.recno
    let s := noteWork s s.cur
    let next := if t.requeue then none else match s.sched.recs.find? fun e => e.1 = t.recno with
      | some (_, r) => if r.spawned then none else some r.index
      | none => none
    let s := { s with sched := { s.sched with recs := recs } }
    let s := match next with
      | some i => nextStage s lk i
      | none => s
    let s := if t.requeue then orphan s s.cur else parkTask s s.cur
    let s := ctxLeave (s.onMe idleCore) c.sys.casid s.cur
    .next (refill (checkLaunch s lk))

/-- The members of a form's group that hold a task, or the core itself (R345, R346). -/
def unitSet (s : State) (n : Nat) : List Nat :=
  if (s.core n).task.grp then ((List.range 8).map (n / 8 * 8 + ·)).filter fun m =>
    runsLaunch (s.core m) (s.core n).task.launch else [n]

/-- Does the descriptor in force name vector `v`, tile `t`, register `n` of the kind whose bits begin at `lo` (R211, R348)? -/
def liveV (c : Core) (v : Nat) : Bool := !c.sys.lvalid || c.sys.live.getLsbD (64 + v / 8)
def liveT (c : Core) (t : Nat) : Bool := !c.sys.lvalid || c.sys.live.getLsbD (192 + t)
def liveR (c : Core) (lo n : Nat) : Bool := !c.sys.lvalid || c.sys.live.getLsbD (lo + n)

/-- Is a scratchpad region saved: live, or overlapping the code window, the inbox or the reply spool (R348)? -/
def liveB (c : Core) (j : Nat) : Bool :=
  let meets (a n : Nat) : Bool := rangesMeet (131072 * j) 131072 a n
  liveR c 320 j || meets c.sys.codebase (6 * c.sys.codesize) || meets c.sys.inboxBase (128 * c.sys.inboxSize)
    || meets c.sys.replyBase (128 * c.sys.replySize)

/-- How many of `n` things have a property. -/
def countOf (n : Nat) (p : Nat → Bool) : Nat := ((List.range n).filter p).length

/-- The number of a handle register's state (R198), as `QEHST` has it (R347). -/
def handleNo (x : HState) : Nat :=
  match x with
  | .empty => 0
  | .valid => 1
  | .revoked => 2

/-- Where a register stands in the register area of a slot (R347 gives no order in it: log entry 73): scalars, predicates with
their codes, streams, handles, counters, the states of the handles, then the segment codes of the vectors; with its size in bytes. -/
def regSlots (c : Core) : List (Nat × Nat × Nat) :=
  let some_ (n : Nat) (live : Nat → Bool) (f : Nat → Nat × Nat × Nat) := ((List.range n).filter live).map f
  some_ 64 (liveR c 0) (fun n => (0x1000 + 8 * n, 8, (mapGet 0 c.seq.s n).toNat))
    ++ some_ 16 (liveR c 264) (fun n => let p := mapGet PReg.zero c.vec.p n
      (0x1200 + 256 * n, 130, p.bits.toNat + p.codes.toNat * 2 ^ 1024))
    ++ some_ 32 (liveR c 200) (fun n => (0x2200 + 32 * n, 32, (mapGet 0 c.mx.g n).toNat))
    ++ some_ 32 (liveR c 232) (fun n => (0x2600 + 64 * n, 64, (mapGet Handle.none c.h n).bits.toNat))
    ++ some_ 32 (liveR c 232) (fun n => (0x2F00 + n, 1, handleNo (mapGet Handle.none c.h n).st))
    ++ some_ 16 (liveR c 296) (fun n => let k := mapGet Counter.zero c.cn.cnt n
      (0x2E00 + 16 * n, 16, k.value.toNat + k.cfg.toNat * 2 ^ 64))
    ++ some_ 1024 (liveV c) (fun n => (0x3000 + 2 * n, 2, (mapGet VReg.zero c.vec.v n).codes.toNat))

/-- The granules of the register area that hold a register to be saved, by their numbers in the slot. -/
def regGranNos (c : Core) : List Nat :=
  ((regSlots c).flatMap fun x => (List.range 3).filterMap fun i =>
    if x.1 / 128 + i ≤ (x.1 + x.2.1 - 1) / 128 then some (x.1 / 128 + i) else none).eraseDups

/-- Bytes that a checkpoint of a core writes (R345, R347, R348): the header and the queue entries always, then the granules of the register
area, the vectors, tiles and regions that the descriptor names, and the regions that are always written. -/
def saveBytes (c : Core) : Nat :=
  4096 + 256 * (c.qm.ents.length + c.qv.ents.length + c.qc.ents.length + c.ql.ents.length) + 128 * (regGranNos c).length
    + 1024 * countOf 1024 (liveV c) + 65536 * countOf 8 (liveT c) + 131072 * countOf 64 (liveB c)

/-- The remaining-time estimate (R322). -/
def remaining (c : Core) : Nat := c.task.rem - (c.task.fcs - c.task.remAt)

/-- The slots of a launch's save area that its slot map shows free (R347). -/
def freeSlots (s : State) (l : Launch) : List Nat :=
  let base := fieldOf l.pkt 768 48
  if base = 0 then []
  else (List.range (fieldOf l.pkt 816 16)).filter fun i =>
    match devRead s (lAsid l) (base + i / 8) l.tenant 1 with
    | some b => !b.testBit (i % 8)
    | none => false

/-- The slot map is read for it: the errors that the reads find are counted (R254 to R256, R347). -/
def slotsRead (s : State) (l : Launch) : State :=
  if fieldOf l.pkt 768 48 = 0 then s
  else (List.range ((fieldOf l.pkt 816 16 + 1023) / 1024)).foldl (fun s i =>
    (devGet s (lAsid l) (fieldOf l.pkt 768 48 + 128 * i) l.tenant 1).1) s

/-- What pre-emption does with a task (R345). -/
inductive PreAct where
  | drain | kill | checkpoint
  deriving DecidableEq, Repr

/-- The pre-emption rule at a slice end, and at a recall (R345), decided once for a group: a checkpoint needs a slot for each
member. -/
def preAct (s : State) (set : List Nat) (l : Launch) (tok : Nat) (back : Bool) : PreAct :=
  let r := set.foldl (fun m n => max m (remaining (s.core n))) 0
  let cost := set.foldl (fun m n => max m ((saveBytes (s.core n) + 255) / 256)) 0
  let wd := set.foldl (fun m n => max m (s.core n).sys.wdcount.toNat) 0
  let w := if tok = 0 then 0 else 2 ^ (tok + 9)
  let ck := lCkpt l && decide (set.length ≤ (freeSlots s l).length)
  if back then
    if lKill l && (decide (wd < cost) || !ck) then .kill else if ck then .checkpoint else .drain
  else if lDrain l && decide (r ≤ w) then .drain
  else if lKill l && decide (wd < cost) then .kill
  else if ck then .checkpoint
  else .drain

/-- The save of core `n` begins into slot `k`, which is in use from now on (R344, R347): barriers in wait are abandoned, the
waiting word becomes the cut's. -/
def beginSave (s : State) (l : Launch) (n k : Nat) : State :=
  let c := s.core n
  let s := slotBit s l k true
  let s := { s with sched := { s.sched with recs := s.sched.recs.map fun (e : Nat × TRec) =>
    if e.1 = c.task.recno then (e.1, { e.2 with saved := some k }) else e } }
  let s := s.setCore n { abandon c with life := .saving, seq := { c.seq with wait := none } }
  addWork s devBound (.save n)

/-- PREEMPTION (R344 to R346) of the unit that core `n` belongs to. A task that is to drain is not asked again at a slice
end. -/
def preempt (s : State) (n tok : Nat) (back : Bool) : State :=
  match launchOf s (s.core n).task.launch with
  | none => s
  | some l =>
    let set := unitSet s n
    let s := slotsRead s l
    match preAct s set l tok back with
    | .drain => set.foldl (fun s m => s.setCore m { s.core m with task := { (s.core m).task with told := true } }) s
    | .kill => set.foldl (fun s m => stopTask s m true) s
    | .checkpoint => (set.zip (freeSlots s l)).foldl (fun s x => beginSave s l x.1 x.2) s

/-- May the task of core `n` be pre-empted: it runs, or it drains after `TEXIT`, and its launch has not ended (R341, R343, R344)? -/
def preemptible (s : State) (n : Nat) : Bool :=
  let c := s.core n
  decide (c.life = .running) || (decide (c.life = .draining) && c.task.exited && !c.task.requeue && (match launchOf s c.task.launch with
    | some l => decide (l.st = .running)
    | none => false))

/-- A core whose slice is over and whose task has not been told to drain (R341, R346). -/
def sliceOver (s : State) (n : Nat) : Bool :=
  let us := (mapGet 1000 s.links.pf0 0x108).toNat
  preemptible s n && !s.sched.tt.chold && !(s.core n).frozenV && !(s.core n).task.told
    && decide (mapGet 0 s.sched.dispatchAt n + us * 850 ≤ s.cyc)

/-- Could record `r` run on the unit of core `n` if that unit were free (R30, R259, R338, R344)? -/
def suitsUnit (s : State) (l : Launch) (r : TRec) (n : Nat) : Bool :=
  let set := unitSet s n
  let others := ((List.range 8).map (n / 8 * 8 + ·)).filter fun m => !set.contains m
  let quiet := others.all fun m => decide ((s.core m).life = .idle)
  coreFor s l.tenant (lOwner l) n && ctxAdmits s (lAsid l) n && suits s r n
    && (if lForm l && !r.spawned then !s.isSplit n && quiet
      else s.isSplit n || others.all fun m => decide ((s.core m).life = .idle) || decide ((s.core m).sys.casid = lAsid l))

/-- The records that could run on the unit of core `n`, with their owners. -/
def rivals (s : State) (n : Nat) : List (Nat × Nat) :=
  s.sched.recs.filterMap fun e => match launchOf s e.2.lk with
    | some l => if recReady s e.1 && decide (mapGet 0 s.sched.weight (lOwner l) ≠ 0) && suitsUnit s l e.2 n then some (e.1, lOwner l) else none
    | none => none

/-- The stride decision for the unit of core `n`, were it free (R339, R344): the state with the passes settled, and the owner,
context and tokens of the winner's oldest ready record. -/
def rivalOf (s : State) (n : Nat) : State × Option (Nat × Nat × Nat) :=
  let cs := rivals s n
  let el := (List.range 64).filter fun o => cs.any fun x => decide (x.2 = o)
  let s := settlePasses s el
  match minBy (fun o => mapGet 0 s.sched.pass o) el with
  | none => (s, none)
  | some o =>
    match minBy (fun k => match s.sched.recs.find? fun e => e.1 = k with
      | some (_, r) => r.readyAt
      | none => 0) ((cs.filter fun x => x.2 = o).map (·.1)) with
    | none => (s, none)
    | some k => match s.sched.recs.find? fun e => e.1 = k with
      | some (_, r) => (s, (launchOf s r.lk).map fun l => (o, lAsid l, fieldOf l.pkt 12 4))
      | none => (s, none)

/-- SLICE_END (R341, R344): pre-empts when the winner is another owner or another context; a new slice begins. -/
def execSliceEnd (s : State) : Ans :=
  let n := s.cur
  if sliceOver s n = false then .next s
  else
    let s1 := { s with sched := { s.sched with dispatchAt := mapPut s.sched.dispatchAt n s.cyc } }
    match rivalOf s1 n with
    | (s1, some (o, a, tok)) => if o ≠ s.me.sys.owner ∨ a ≠ s.me.sys.casid then .next (preempt s1 n tok false) else .next s1
    | (s1, none) => .next s1

/-- Could a ready record of the lender run on form `f` once it is back (R343)? -/
def couldRunOn (s : State) (l : Launch) (r : TRec) (f : Nat) : Bool :=
  formEn s f && (if lForm l && !r.spawned then !s.isSplit (8 * f) else true)
    && (List.range 8).any fun m => (mapGet 0 s.dev.tenant l.tenant).getLsbD (256 + 8 * f + m) && ctxAdmits s (lAsid l) (8 * f + m)

/-- A lent form that its lender needs back (R343): a ready record of the lender that may run on the form, and no free unit for
it. -/
def recallDue (s : State) (f : Nat) : Bool :=
  let fl := flendOf s f
  fl.getLsbD 12 && !fl.getLsbD 13 && s.sched.recs.any fun e => match launchOf s e.2.lk with
    | some l => decide (lOwner l = fieldOf fl 0 6) && recReady s e.1 && couldRunOn s l e.2 f && (freeUnits s e.1).isEmpty
    | none => false

/-- A recall under way whose form is idle again (R343). -/
def recallEnds (s : State) (f : Nat) : Bool :=
  (flendOf s f).getLsbD 13 && (List.range 8).all fun m => decide ((s.core (8 * f + m)).life = .idle)

/-- The first core of a form under recall whose task of the borrower runs, or drains after `TEXIT`, and has not been decided on (R343, R345); a task that
is still loading is decided on when it runs. -/
def recallNext (s : State) (f : Nat) : Option Nat :=
  let fl := flendOf s f
  if fl.getLsbD 13 then
    ((List.range 8).map (8 * f + ·)).find? fun n => let c := s.core n
      preemptible s n && !c.task.told && !c.frozenV && decide (c.sys.owner = fieldOf fl 6 6)
  else none

/-- RECALL (R343) of the form of core `cur`: begins, pre-empts the borrower's tasks, ends when the form is idle. At its
beginning every task of the borrower is decided on anew, by the rule for recalls. `FLEND` is zero once the form has returned, on which
the rule is silent (DESIGN CHOICE, log entry 165). -/
def execRecallForm (s : State) : Ans :=
  let f := s.cur / 8
  if recallEnds s f then .next { s with sched := { s.sched with flend := mapSet 0 s.sched.flend f 0 } }
  else match recallNext s f with
    | some n => .next (preempt s n 0 true)
    | none =>
      if recallDue s f then
        let s := (List.range 8).foldl (fun s m =>
          let c := s.core (8 * f + m)
          if c.task.told then s.setCore (8 * f + m) { c with task := { c.task with told := false } } else s) s
        .next { s with sched := { s.sched with flend := mapSet 0 s.sched.flend f (setField (flendOf s f) 13 1 1) } }
      else .next s

end Sys2Proof.Machine
end

