-- ==== Sys2Proof/Machine/Traps.lean ====
section
/-! DEFINITION. Taking traps and violations to their end (08 R213 to R216, 01 R36 to R38), the watchdog (12 R324), breakpoints,
debug stops and work stops (16 R430 to R433), and words that are no instruction (03 R82 to R84). -/

namespace Sys2Proof.Machine

/-- The first unissued entry of a queue: where its cut stands (R215, R303). -/
def cutOf (q : EQueue) : Nat :=
  match q.ents with
  | e :: _ => e.seq
  | [] => q.next

/-- Does the trap enter a debug stop instead of escalating (R432, R433)? -/
def debugStops (s : State) (c : Core) (t : PendTrap) (escalates : Bool) : Bool :=
  let d := dbgOf s c.sys.tenant
  decide (t.cause = causeBreak) &&
    (decide (fieldOf t.info0 32 2 = 2) || (escalates && d.dhold && decide (d.dlid = c.sys.launchid.toNat)))

/-- May the pending trap of a core complete: no violation, and every issued entry has completed (R215)? -/
def trapReady (c : Core) : Bool :=
  match c.trap with
  | some t => !isViolation t.cause && issuedDone c
  | none => false

/-- ESCALATION (R215): the launch ends FAULTED with the cause, of the time at which it was raised (R333); a roll call is made
(R427). -/
def escalate (s : State) (n cause time : Nat) : State :=
  let form := if s.isSplit n then [n] else (List.range 8).map (n / 8 * 8 + ·)
  let t := (s.core n).task
  endLaunchAt (rollCall s 3 form []) t.launch false time cause t.x t.y t.z t.stage

/-- On entering TORN every member is stopped by kill, and held writes are discarded (R268). -/
def enterTorn (s : State) (asid : Nat) : State :=
  let c := ctxOf s asid
  c.members.foldl (fun s n => stopTask s n true) (s.setCtx asid { c with st := 4, held := [], replay := [], pend := false })

/-- A rollback request (R260): OPEN, CLOSING and REPLAY become TORN; a SEALING interval seals first. -/
def rollbackRequest (s : State) (asid : Nat) : State :=
  let c := ctxOf s asid
  match c.st with
  | 1 | 2 | 6 => enterTorn s asid
  | 3 => s.setCtx asid { c with pend := true }
  | _ => s

/-- A debug stop or a containment of core `n` is a rollback request where it is a member of its context (R260; log entry 140). -/
def tearMember (s : State) (n : Nat) : State :=
  let a := (s.core n).sys.casid
  if (ctxOf s a).members.contains n then rollbackRequest s a else s

/-- TRAP_ENTRY (R215): the cut and the cause are recorded, and the handler is entered, a debug stop begins (R432), or the
trap escalates; a cause recorded during the wait escalates in any case. -/
def execTrapEntry (s : State) : Ans :=
  let c := s.me
  match c.trap with
  | none => .next s
  | some t =>
    if isViolation t.cause ∨ issuedDone c = false then .next s
    else
      let esc := escalates c t
      let c1 := abandon c
      let c2 := enterTrap c1 t (cutOf c1.qm) (cutOf c1.qv) (cutOf c1.qc) (cutOf c1.ql)
      let kept : Core := { c2 with sys := { c2.sys with inh := c.sys.inh }, seq := { c2.seq with pc := t.cut, wait := none } }
      match c.late with
      | (at_, x) :: _ =>
        .next (escalate (s.setCore s.cur kept) s.cur (if esc then t.cause else x.cause) (if esc then c.trapT else at_))
      | [] =>
        if debugStops s c t esc then
          let d := dbgOf s c.sys.tenant
          let s := s.setCore s.cur { kept with dstop := true }
          .next (tearMember (if fieldOf t.info0 32 2 = 2 then s.setDbg c.sys.tenant { d with wsarm := false } else s) s.cur)
        else if esc then .next (escalate (s.setCore s.cur kept) s.cur t.cause c.trapT)
        else .next (s.setCore s.cur { c2 with seq := { c2.seq with wait := none, nextAt := s.cyc + 1 } })

/-- VIOLATION (R36, R37): the frozen core's unissued entries are discarded and its launch ends KILLED. -/
def execViolation (s : State) : Ans :=
  let c := s.me
  match c.trap with
  | some t =>
    if isViolation t.cause then
      let c := flushMask (abandon { c with trap := none, late := [] }) 15 true
      .next (violationSteps (s.setCore s.cur { c with seq := { c.seq with wait := none } }) s.cur t.cause c.violAt)
    else .next s
  | none => .next s

/-- Has the frozen core been dealt with, and have its issued commands completed (R37)? -/
def releaseReady (c : Core) : Bool := c.frozenV && c.trap.isNone && issuedDone c

/-- VIOLATION_RELEASE (R37): the core returns idle to its partition. -/
def execViolationRelease (s : State) : Ans :=
  let c := s.me
  if releaseReady c then
    let lk := c.task.launch
    let s := noteWork (giveUp s c.task.recno) s.cur
    let s := { s with sched := { s.sched with recs := mapDel s.sched.recs c.task.recno } }
    let s := s.onLaunch lk fun l => { l with work := l.work + c.task.w.toNat, fcs := l.fcs + c.task.fcs }
    .next (checkEnding (ctxLeave ((parkTask s s.cur).onMe idleCore) c.sys.casid s.cur) lk)
  else .next s

/-- Has the watchdog of core `n` run out, of a task that is not being stopped already (R324)? That of a draining task runs out while a cause
waits for its issued entries too. -/
def watchdogDue (s : State) (n : Nat) : Bool :=
  let c := s.core n
  let ending := match launchOf s c.task.launch with
    | some l => decide (l.st = .ending)
    | none => true
  let free := match c.trap with
    | none => true
    | some t => decide (c.life = .draining) && !isViolation t.cause && decide (t.cause ≠ causeWatchdog)
      && c.late.all fun x => decide (x.2.cause ≠ causeWatchdog)
  !ending && decide (c.life = .running ∨ c.life = .draining) && free && decide (c.sys.wdlimit ≠ 0)
    && decide (c.sys.wdlimit.toNat ≤ c.sys.wdcount.toNat) && !c.frozenV && !c.dstop && !c.task.requeue

/-- The messages of a core that have no place in a ring yet are discarded, with their words (R324). -/
def discardMsgs (s : State) (n : Nat) : State :=
  let gone (m : MsgIn) : Bool := decide (m.srcCore = n) && !m.reserved
  let kept := s.cores.flatMap fun e => (e.2.msgs.filter fun m => decide (m.srcCore = n) && m.reserved).map (·.srcSeq)
  let s := { s with cores := s.cores.map fun (e : Nat × Core) => (e.1, { e.2 with msgs := e.2.msgs.filter fun m => !gone m }) }
  let lost := (s.core n).cmds.filter fun m => m.ended.isNone && !kept.contains m.e.seq && (match m.e.i with
    | .msend _ => true
    | _ => false)
  lost.foldl (fun s m => dropCmd { s with work := s.work.filter fun x => match x.2 with
    | .arrive _ c q => !(decide (c = n) && decide (q = m.e.seq))
    | _ => true } n 3 m.e.seq) s

/-- WATCHDOG (R324): always escalates; the outstanding messages of a task that drains are discarded. -/
def execWatchdog (s : State) : Ans :=
  let c := s.me
  if watchdogDue s s.cur then
    .next ((if c.life = .draining then discardMsgs s s.cur else s).onMe fun c =>
      let t : PendTrap := ⟨causeWatchdog, false, 0, false, c.sys.wdlimit, c.seq.pc.setWidth 64, c.seq.pc⟩
      if c.trap.isSome then { c with late := c.late ++ [(s.time, t)] } else raiseSeq c s.time t)
  else .next s

/-- The match register whose enabled PC the core stands at (R431, R432). -/
def pcMatch (s : State) (n : Nat) : Option Nat :=
  let c := s.core n
  let d := dbgOf s c.sys.tenant
  if c.exempt ∨ d.dlid ≠ c.sys.launchid.toNat ∨ c.life ≠ .running ∨ c.trap.isSome then none
  else (List.range 4).find? fun i =>
    let b := mapGet 0 d.bkpc i
    b.getLsbD 32 && decide (b.extractLsb' 0 32 = c.seq.pc)

/-- PC_MATCH (R432): BREAKPOINT before the word, of kind 1. -/
def execPcMatch (s : State) : Ans :=
  match pcMatch s s.cur with
  | none => .next s
  | some i => .next (s.onMe fun c => raiseSeq c s.time
      ⟨causeBreak, false, 0, true, BitVec.ofNat 64 (2 ^ 32 + i), c.task.w, c.seq.pc⟩)

/-- Has W reached the count of the armed stop (R433)? -/
def workReached (s : State) (n : Nat) : Bool :=
  let c := s.core n
  stopArmed s n && c.trap.isNone && !c.dstop && decide ((dbgOf s c.sys.tenant).wscount = c.task.w)

/-- WORK_STOP (R433): BREAKPOINT of kind 2. -/
def execWorkStop (s : State) : Ans :=
  if workReached s s.cur then
    .next (s.onMe fun c => raiseSeq c s.time ⟨causeBreak, false, 0, true, BitVec.ofNat 64 (2 * 2 ^ 32), c.task.w, c.seq.pc⟩)
  else .next s

/-- BKPT (R430): the cut stands after the word; the word counts. -/
def execBkpt (o : BkptOp) (s : State) : Ans :=
  .next (s.onMe fun c =>
    let c := retire (stepPc c) s.cyc 1
    raiseSeq c s.time ⟨causeBreak, false, 0, true, o.code.setWidth 64, c.task.w, c.seq.pc⟩)

/-- The fault of an engine word that does not decode: its cause and what the trap registers take. The handle of an atomic is checked
before its reserved fields (R288). -/
def reservedFault (c : Core) (w : IWord) (sub : BitVec 4) : Nat × Word × Word :=
  let op := (fld w 38 6).toNat
  let h := getH c (fld w 29 5)
  if (fld w 44 4).toNat = 10 ∧ 1 ≤ op ∧ op ≤ 3 ∧ sub = 3 then
    (match h.st with
    | .empty => (causeIllegal, 5, wordInfo w)
    | .revoked => (causeRevoked, BitVec.ofNat 64 (fld w 29 5).toNat, 0)
    | _ => (causeIllegal, sub.setWidth 64, wordInfo w))
  else (causeIllegal, sub.setWidth 64, wordInfo w)

/-- ILLEGAL_WORD (R74, R82 to R84): the word at the PC is none, charged to its queue where its unit is an engine's (R213);
SCRATCH_RANGE where the PC lies beyond the code window. -/
def execIllegalWord (s : State) : Ans :=
  let c := s.me
  if c.sys.codesize ≤ c.seq.pc.toNat then seqTrap s causeRange (c.seq.pc.setWidth 64) 0
  else
    let w := fetchWord s c
    match decode w with
    | .illegal sub =>
      match queueOfWord w with
      | none => illegalAt s sub.toNat w
      | some q => .next (s.onMe fun c =>
          let r := reservedFault c w sub
          raiseSeq c s.time ⟨r.1, false, q, false, r.2.1, r.2.2, c.seq.pc⟩)
    | .ok _ => .next s

/-- The core that the debugger of a tenant has selected (R431). -/
def selCore (s : State) (t : Nat) : Option Nat := (partitionOf s t)[(dbgOf s t).dsel]?

/-- DCMD_RESUME (R432): as ERET, INH unchanged. -/
def execDcmdResume (o : IdxEv) (s : State) : Ans :=
  match selCore s o.idx with
  | some n =>
    let c := s.core n
    if c.dstop then .next (s.setCore n { leaveTrap c with
        dstop := false, sys := { (leaveTrap c).sys with inh := c.sys.inh }
        seq := { (leaveTrap c).seq with nextAt := s.cyc + 2 } })
    else .next s
  | none => .next s

/-- DCMD_KILL (R432): escalates with BREAKPOINT. -/
def execDcmdKill (o : IdxEv) (s : State) : Ans :=
  match selCore s o.idx with
  | some n => if (s.core n).dstop then .next (escalate s n causeBreak s.time) else .next s
  | none => .next s

/-- DCMD_ROLLCALL (R427, R431) of a tenant's debugger: its partition's cores; from 1024 on, through PF0, where any blocks can be named: every
core and hub (log entry 168). -/
def execDcmdRollcall (o : IdxEv) (s : State) : Ans :=
  .next (if o.idx < 1024 then rollCall s 2 (partitionOf s o.idx) [] else rollCall s 2 (List.range 256) (List.range 4))

/-- What DADDR names (R431): 0 a scalar register, 1 a system register, 2 an 8-byte unit of the scratchpad. -/
def ddataRead (s : State) (n addr : Nat) : Word :=
  let c := s.core n
  let k := addr / 4
  match addr % 4 with
  | 0 => if k < 64 then getS c (BitVec.ofNat 6 k) else 0
  | 1 => 0
  | 2 => BitVec.ofNat 64 (scBytes c (8 * k) 8)
  | _ => 0

/-- WSARM_WRITE (R433): arms live, asks for a rollback, or is refused; a W that equals the count has passed it (log entry 169). -/
def execWsarmWrite (o : IdxEv) (s : State) : Ans :=
  let d := dbgOf s o.idx
  match liveLaunch s o.idx d.dlid with
  | none => .next (s.setDbg o.idx { d with wserr := true })
  | some lk =>
    match launchOf s lk with
    | none => .next (s.setDbg o.idx { d with wserr := true })
    | some l =>
      let run := s.cores.find? fun e => runsLaunch e.2 lk && decide (e.2.task.index = d.wstask)
      let kept := s.sched.saved.find? fun e => decide (e.2.task.launch = lk) && decide (e.2.task.index = d.wstask)
      let past := match run.or kept with
        | some (_, c) => decide (d.wscount.toNat ≤ c.task.w.toNat)
        | none => mapGet false l.done d.wstask.toNat
      if !past then .next (s.setDbg o.idx { d with wsarm := true, wserr := false, wsmiss := false })
      else if (ctxOf s (lAsid l)).st ≠ 0 then
        .next (rollbackRequest (s.setDbg o.idx { d with wsarm := true, wserr := false, wsmiss := false }) (lAsid l))
      else .next (s.setDbg o.idx { d with wserr := true })

end Sys2Proof.Machine
end

