-- ==== Sys2Proof/Machine/Work.lean ====
section
/-! DEFINITION. Work between the blocks: the commands that wait for it, the replay journal (10 R265, R268), which pieces of
work may be done now (11 R277, R284; 10 R261), and how a command ends (11 R278, 16 R410). -/

namespace Sys2Proof.Machine

/-- A cause of a command stops it (origin A, R213); one of a task that has ended is charged to that task's launch (R28). -/
def raiseCmd (s : State) (c q n cause : Nat) (info0 : Word) : State :=
  match (cmdOf s c q n).bind (·.ended) with
  | some t => endLaunch (dropCmd s c q n) t.lk false cause t.x t.y t.z t.stg
  | none => raiseAsync (dropCmd s c q n) c cause q info0 (BitVec.ofNat 64 n)

/-- An OWNER violation found for a command (R36, R37); one of a task that has ended ends that task's launch. -/
def violateCmd (s : State) (c q n : Nat) (where_ : Word) : State :=
  match (cmdOf s c q n).bind (·.ended) with
  | some t =>
    let s := dropCmd s c q n
    let s := { s with thim := { s.thim with viols := s.thim.viols ++ [⟨causeOwner, c, (s.core c).sys.tenant, where_, s.time⟩] } }
    endLaunch (rollCall s 3 [c] []) t.lk true causeOwner t.x t.y t.z t.stg
  | none => violateCore (dropCmd s c q n) c q where_

/-- A PSUM bit that a collective word sets at its core; the word of a task that has ended has no core to set it at (R28; log
entry 18). -/
def collPsum (s : State) (c q n k : Nat) : State :=
  match (cmdOf s c q n).bind (·.ended) with
  | some _ => s
  | none => s.setCore c (psumSet (s.core c) k)

/-- The command completes when every repetition is done and none of its work remains (R278). -/
def reapCmd (s : State) (core q seq : Nat) : State :=
  match cmdOf s core q seq with
  | some m => if m.reps.all (fun r => r.done && r.complete) && !cmdBusy s core q seq then dropCmd s core q seq else s
  | none => s

/-- A repetition is finished. -/
def doneRep (s : State) (core q seq rep : Nat) : State :=
  reapCmd (s.onCmd core q seq fun m => { m with
    reps := m.reps.map fun r => if r.j = rep then { r with done := true, complete := true } else r }) core q seq

/-- A collective word whose effect is over waits for nothing more. -/
def settled (m : Cmd) : Cmd :=
  { m with parked := false, sent := (match m.e.i with
    | .crecv _ => true
    | _ => false) }

/-- Cycles within which the answer of a command comes (R465); a command that waited for a seal, a trap or room has the bound afresh. -/
def answerIn (s : State) (core q seq : Nat) : Nat :=
  match cmdOf s core q seq with
  | some m => if m.till ≤ s.cyc + 1 then devBound else m.till - (s.cyc + 1)
  | none => 1

/-- A word of the L queue has had its effect: k is posted, or it completes at once (R278, R410). -/
def finishWord (s : State) (core seq : Nat) : State :=
  match cmdOf s core 3 seq with
  | some m =>
    let w := lxWord m.e.i
    if w.post && m.ended.isNone then addWork (s.onCmd core 3 seq settled) (answerIn s core 3 seq) (.post core 3 seq 0 w.k) else doneRep s core 3 seq 0
  | none => s

/-- The effect of a word of the L queue has come at its own core: k is posted in this cycle (R410). -/
def finishHere (s : State) (core seq : Nat) : State :=
  match cmdOf s core 3 seq with
  | some m =>
    let w := lxWord m.e.i
    doneRep (if w.post && m.ended.isNone then s.setCore core (semPostNow (s.core core) w.k) else s) core 3 seq 0
  | none => s

/-- Context and tenant of a command's handle. -/
def cmdAsid (m : Cmd) : Nat := hAsid m.e.h.bits

/-- The device address that an item accesses, with its core and context; none for work that touches no granule. -/
def itemVa (s : State) (it : Item) : Option (Nat × Nat × Nat) :=
  match it with
  | .read c q n _ gva => (cmdOf s c q n).map fun m => (c, cmdAsid m, gva)
  | .write c q n _ gva _ _ _ _ => (cmdOf s c q n).map fun m => (c, cmdAsid m, gva)
  | .atomic c n => (cmdOf s c 3 n).map fun m => (c, cmdAsid m, atomVa m.e)
  | .ared c n => (cmdOf s c 3 n).map fun m => (c, cmdAsid m, atomVa m.e)
  | _ => none

/-- The device addresses whose granules an item accesses, with its core and context: none for a write that the hub has accepted
already (R261). -/
def itemVas (s : State) (it : Item) : List (Nat × Nat × Nat) :=
  let word (c q n : Nat) : List (Nat × Nat × Nat) := match cmdOf s c q n with
    | some m => (wordVas m.e).map fun va => (c, cmdAsid m, va)
    | none => []
  match it with
  | .write _ _ _ _ _ _ mask _ codes => if mask = 0 ∧ codes = [] then [] else (itemVa s it).toList
  | .read .. => (itemVa s it).toList
  | .atomic c n => word c 3 n
  | .ared c n => word c 3 n
  | .enters c n => word c 3 n
  | .release c q n => word c q n
  | _ => []

/-- The granules that an item accesses, so that those of two items compare equal: the physical ones where the addresses
translate. -/
def itemGrans (s : State) (it : Item) : List (Nat × Nat) :=
  (itemVas s it).map fun x =>
    match translate s x.1 x.2.1 x.2.2 (s.core x.1).sys.tenant false with
    | .pa a => (x.1, 2 * (a / 128))
    | _ => (x.1, 2 * (x.2.2 / 128) + 1)

/-- Requests of one core to one granule are applied in issue order, and those of a locked form in (fc, member) order, which
is the order of the list (R277, R284). -/
def sameOrder (s : State) (a b : Nat × Nat) : Bool :=
  decide (a.2 = b.2) && (decide (a.1 = b.1) || (decide (a.1 / 8 = b.1 / 8) && !s.isSplit a.1))

/-- Does core `u` hold the leaf of an address (R389)? -/
def tlbHit (s : State) (u asid va : Nat) : Bool := (tlbOf s u asid va).isSome

/-- The physical address of an item where it translates for a write. -/
def itemPa (s : State) (it : Item) : Option Nat :=
  match itemVa s it with
  | some (c, asid, va) => match translate s c asid va (s.core c).sys.tenant true with
    | .pa a => some a
    | _ => none
  | none => none

/-- The 32 bytes of a journal entry (R265). -/
def jrnEntry (kind launch task q seq aux val : Nat) : BitVec 256 :=
  BitVec.ofNat 256 (kind + launch % 2 ^ 32 * 2 ^ 16 + task % 2 ^ 64 * 2 ^ 48 + q * 2 ^ 112 + seq % 2 ^ 32 * 2 ^ 128
    + aux % 2 ^ 32 * 2 ^ 160 + val % 2 ^ 64 * 2 ^ 192)

/-- The journal entry of a word of a core (R265), appended by hub `hub`. -/
def jrnKey (s : State) (core hub kind q seq aux val : Nat) : Jrn :=
  let c := s.core core
  ⟨hub, jrnEntry kind c.sys.launchid.toNat c.task.index.toNat q seq aux val⟩

/-- Are two entries of one scope of order: ATOMIC per granule, which lies at one hub; MSG per receiving task; LATE and CBAR per
acting word (R265)? -/
def jrnScope (x y : Jrn) : Bool :=
  let a := x.bits
  let b := y.bits
  decide (fieldOf a 0 4 = fieldOf b 0 4) &&
    (match fieldOf a 0 4 with
    | 1 => decide (x.hub = y.hub) && decide (fieldOf a 160 32 = fieldOf b 160 32)
    | 2 => decide (fieldOf a 192 64 = fieldOf b 192 64)
    | _ => decide (fieldOf a 16 144 = fieldOf b 16 144))

/-- Is it the outcome of the same word (R268)? -/
def jrnSame (x y : Jrn) : Bool :=
  decide (fieldOf x.bits 0 4 = fieldOf y.bits 0 4) && decide (fieldOf x.bits 16 144 = fieldOf y.bits 16 144)

/-- How an outcome stands to the journal that is replayed (R268). -/
inductive RPos where
  | live
  | next (e : Jrn)
  | later
  | diverged
  deriving DecidableEq, Repr

/-- The place of key `k` in the journal of a context in REPLAY. -/
def replayPos (s : State) (asid : Nat) (k : Jrn) : RPos :=
  let c := ctxOf s asid
  if c.st ≠ 6 then .live
  else
    match c.replay.filter fun e => jrnScope e k with
    | [] => .live
    | e :: t => if jrnSame e k then .next e else if t.any (fun x => jrnSame x k) then .later else .diverged

/-- The state of an interval that goes on, by the releases counted in it (R260). -/
def openState (c : Ctx) : Nat := if c.nrel = 0 then 1 else if c.rel.length = c.members.length then 3 else 2

/-- Replay of the context goes on without entry `e`; the interval is OPEN again when the journal is exhausted (R260). -/
def replayTake (s : State) (asid : Nat) (e : Jrn) : State :=
  let c := ctxOf s asid
  let r := c.replay.erase e
  s.setCtx asid { c with replay := r, st := if r.isEmpty then openState c else c.st }

/-- A divergence ends replay for the whole context (R268). -/
def replayDiverge (s : State) (asid : Nat) : State :=
  let c := ctxOf s asid
  s.setCtx asid { c with replay := [], st := openState c, diverged := true }

/-- Entry `n` goes into the journal ring (R265; log entry 123). -/
def jrnPut (s : State) (asid n : Nat) (e : Jrn) : State :=
  let a := fieldOf (asidOf s asid) 192 41 + 32 * n
  applyGran s a (e.bits.setWidth 1024 <<< (8 * (a % 128))) (BitVec.ofNat 128 (2 ^ 32 - 1) <<< (a % 128)) false

/-- Is a message's outcome served from the journal (R268)? -/
def msgReplayed (s : State) (m : MsgIn) : Bool :=
  match cmdOf s m.srcCore 3 m.srcSeq with
  | some x => x.replayed
  | none => false

/-- Entries of a context's journal in use, with those that its messages on their way into a ring will need (R264, R265). -/
def jrnUsed (s : State) (asid : Nat) : Nat :=
  s.cores.foldl (fun n e => n + (e.2.msgs.filter fun m =>
    m.reserved && decide ((s.core m.srcCore).sys.casid = asid) && !msgReplayed s m).length) (ctxOf s asid).jrn.length

/-- An outcome goes into the journal while the interval is OPEN or CLOSING (R265). -/
def jrnAppend (s : State) (asid : Nat) (e : Jrn) : State :=
  let c := ctxOf s asid
  if c.st ≠ 1 ∧ c.st ≠ 2 then s else jrnPut (s.setCtx asid { c with jrn := c.jrn ++ [e] }) asid c.jrn.length e

/-- Does the journal of a context lack room for one more outcome (R264)? -/
def jrnFull (s : State) (asid : Nat) : Bool :=
  decide ((ctxOf s asid).st = 1 ∨ (ctxOf s asid).st = 2) && decide (jrnRoom s asid ≤ jrnUsed s asid)

/-- Record an outcome; none where the journal has no room (R264, R265). -/
def journal (s : State) (asid : Nat) (e : Jrn) : Option State := if jrnFull s asid then none else some (jrnAppend s asid e)

/-- The journal entry of an atomic on a physical address. -/
def atomKey (s : State) (core seq pa val : Nat) : Jrn :=
  jrnKey s core (stackOf pa / 4) 1 3 seq (stackOf pa % 4 * 2 ^ 30 + pa / 128 % 2 ^ 30) val

/-- The recovery context of a durable frame that has recovery on. -/
def recCtx (s : State) (pa : Nat) : Option Nat :=
  match durableCtx s pa with
  | some a => if (ctxOf s a).st = 0 then none else some a
  | none => none

/-- May an atomic be applied now: it is not held whole (R291), and in REPLAY it is not ahead of its turn (R268)? -/
def atomicReady (s : State) (core seq : Nat) : Bool :=
  match itemPa s (.atomic core seq) with
  | some pa =>
    (holdsWrite s core pa).isNone && (match recCtx s pa with
      | some a => decide (replayPos s a (atomKey s core seq pa 0) ≠ .later)
      | none => true)
  | none => true

/-- Is the item a request that its hub holds or will hold until the seal (R261, R291)? -/
def willHold (s : State) (core : Nat) (it : Item) : Bool :=
  match itemPa s it with
  | some pa => (holdsWrite s core pa).isSome
  | none => false

/-- Is it an atomic that its hub holds whole (R291)? -/
def heldWhole (s : State) (it : Item) : Bool :=
  match it with
  | .atomic c _ => willHold s c it
  | _ => false

/-- Has an atomic entered its panel's port, so that it has completed there, and is it not at its hub yet (R274, R278)? One that its hub
has and holds (R268, R291) is past the port. -/
def inPort (s : State) (x : Nat × Item) : Bool :=
  match x.2 with
  | .atomic c n => (decide (s.cyc < x.1) || atomicReady s c n) && (match cmdOf s c 3 n with
    | some m => m.early && decide ((lxWord m.e.i).scope ≠ 0)
    | none => false)
  | _ => false

/-- Did request `it` enter its panel's port after atomic `x`, which is in it (R275; log entry 137)? A request that has left its core before
counts as entered before. -/
def enteredAfter (s : State) (it x : Item) : Bool :=
  match (itemCmd it).bind (fun i => cmdOf s i.1 i.2.1 i.2.2), (itemCmd x).bind fun i => cmdOf s i.1 i.2.1 i.2.2 with
  | some m, some e =>
    if m.early ∧ m.port ≠ 0 then
      decide (e.port < m.port) || (decide (e.port = m.port) && decide (e.e.seq < m.e.seq))
    else decide (e.port ≤ m.left + 1)
  | _, _ => false

/-- Must a request wait at its panel's port for one that entered before it and goes to the same hub (R275; log entry 137)? -/
def portAhead (s : State) (it : Item) : Bool :=
  s.work.any fun x => inPort s x && decide (x.2 ≠ it) && enteredAfter s it x.2 && (match itemVa s it, itemVa s x.2 with
    | some a, some b => decide (a.1 / 32 = b.1 / 32) && (match itemPa s it, itemPa s x.2 with
      | some p, some q => decide (stackOf p / 4 = stackOf q / 4)
      | _, _ => false)
    | _, _ => false)

/-- Is an atomic that has completed early performed with respect to a scope (R274)? One at CORE scope has entered no port yet. -/
def earlyDone (m : Cmd) (scope : Nat) : Bool := decide (scope = 0) || (decide (scope ≤ 2) && decide ((lxWord m.e.i).scope ≠ 0))

/-- The tenant has writes to the host that no later PCIe read of its function has pushed yet (R274). -/
def unpushed (s : State) (tenant : Nat) : Bool := s.links.posted.any fun e => decide (e.1 = tenant)

/-- What precedes a word of core `core` at its own core is performed with respect to a scope (R274, R280, R367): its early atomics, the
contributions of its collective words that have completed, and at SYSTEM scope its writes to the host; at DEVICE scope and wider also the
atomics of its panel that have completed and are still on their way to their hubs (log entry 137). -/
def setPerformed (s : State) (core scope : Nat) : Bool :=
  let c := s.core core
  (c.cmds.all fun m => !m.early || earlyDone m scope) && (decide (scope < 4) || !unpushed s c.sys.tenant)
    && !(s.work.any fun x => match x.2 with
      | .contrib m => (match m.core with
        | some (n, seq) => decide (n = core) && (cmdOf s core 3 seq).isNone
        | none => false)
      | _ => false)
    && (decide (scope < 3) || !(s.work.any fun x => inPort s x && (match itemCmd x.2 with
      | some (n, _, _) => decide (n / 32 = core / 32)
      | none => false)))

/-- Has a write that its hub has taken been performed: applied by the seal where it was held (R261), pushed where it went to the host and
its word completes at SYSTEM scope (R274)? -/
def heldOver (s : State) (core : Nat) (it : Item) : Bool :=
  match itemPa s it with
  | some pa => (holdsWrite s core pa).isNone && !(isHostFrame s pa && unpushed s (s.core core).sys.tenant)
  | none => true

/-- The reply spool has room (R293). -/
def replyRoom (c : Core) : Bool :=
  decide ((c.sys.replyProd + 2 ^ 32 - c.sys.replyCons) % 2 ^ 32 < 8 * c.sys.replySize)

/-- The message (sender, number) at a core. -/
def msgOf (c : Core) (src seq : Nat) : Option MsgIn :=
  c.msgs.find? fun m => decide (m.srcCore = src) && decide (m.srcSeq = seq)

/-- Is it the first message of its sender that has not arrived (R311)? -/
def msgFirst (c : Core) (src seq : Nat) : Bool :=
  match c.msgs.find? fun m => decide (m.srcCore = src) && !m.arrived with
  | some m => decide (m.srcSeq = seq)
  | none => true

/-- May messages of a tenant arrive at a core now: it holds a task of the tenant or is idle after one, and it is not being
saved or scrubbed (R311)? -/
def msgOpen (c : Core) (tenant : Nat) : Bool :=
  decide (c.sys.tenant = tenant) && decide (c.life ≠ .saving) && decide (c.life ≠ .loading)

/-- The slot of an instance at a rank. -/
def slotKey (g rank slot : Nat) : Nat := (g * 1024 + rank) * 256 + slot

/-- The slot where a rank keeps instance `tag` of a group (R364). -/
def slotOf (s : State) (g rank tag : Nat) : CSlot :=
  mapGet CSlot.zero s.links.slots (slotKey g rank (tag % grpSlots (groupEntry s g)))

/-- Replace it. -/
def State.setSlot (s : State) (g rank tag : Nat) (x : CSlot) : State :=
  { s with links := { s.links with
    slots := mapSet CSlot.zero s.links.slots (slotKey g rank (tag % grpSlots (groupEntry s g))) x } }

/-- Is the command a collective word of (group, tag) at a rank? -/
def isCollOf (m : Cmd) (g rank tag : Nat) : Bool :=
  (collWord m.e.i).isSome && decide (cdGroup (cap m.e 0) = g) && decide (cdRank (cap m.e 0) = rank)
    && decide (cdTag (cap m.e 0) = tag)

/-- Is the slot in use for its tag: words of it are open at the rank, a send part is not consumed, or the rank has not made
its own contribution to a part that others have filled (R364)? -/
def slotBusy (s : State) (g rank : Nat) (x : CSlot) : Bool :=
  x.full &&
    ((s.cores.any fun e => e.2.cmds.any fun m => isCollOf m g rank x.tag)
      || (s.sched.saved.any fun e => e.2.cmds.any fun m => isCollOf m g rank x.tag)
      || (x.src.any fun e => e.2.parts.getLsbD 0 && !e.2.used)
      || ((x.src.any fun e => e.2.parts.getLsbD 1) && x.ownA.isEmpty)
      || ((x.src.any fun e => e.2.parts.getLsbD 2) && x.ownR.isEmpty))

/-- Does the port retrain on the lanes that are left, with its session kept (R359)? -/
def retrains (s : State) (port : Nat) : Bool :=
  let p := mapGet Port.zero s.links.ports port
  decide (p.st = 1) && p.authed

/-- May a contribution be written, or discarded, now (R364)? One to a later tag waits while the slot is in use; what leaves over a port
that retrains is sent on the new width (R359). -/
def slotOpen (s : State) (m : CMove) : Bool :=
  match routeOf s (groupEntry s m.group) m.dst with
  | some p => !retrains s p
  | none =>
    let x := slotOf s m.group m.dst m.tag
    !x.full || decide (m.tag ≤ x.tag) || !slotBusy s m.group m.dst x

/-- Do two contributions come from one sender: one core, or one port and tenant? -/
def oneSender (s : State) (a b : CMove) : Bool :=
  let p (m : CMove) := if m.lk = 0 then routeOf s (groupEntry s m.group) m.src else none
  match p a, p b with
  | some x, some y => decide (x = y) && decide (grpTenant (groupEntry s a.group) = grpTenant (groupEntry s b.group))
  | none, none => decide (a.core.map (·.1) = b.core.map (·.1)) && a.core.isSome
  | _, _ => false

/-- A contribution that waits for its slot stops those that its sender has sent after it (R364). -/
def contribReady (s : State) (m : CMove) : Bool :=
  slotOpen s m && (s.work.takeWhile fun x => decide (x.2 ≠ .contrib m)).all fun x => match x.2 with
    | .contrib b => slotOpen s b || !oneSender s b m
    | _ => true

/-- The data lines of an MSEND. -/
def msendLines (e : QEntry) : List Nat :=
  match e.i with
  | .msend o => (List.range (o.n.toNat + 1)).map fun i => (cap e 0).toNat / 128 + i
  | _ => []

/-- Lines that a message takes in the ring: its header and its data (R311). -/
def msgSize (m : MsgIn) : Nat := fieldOf m.header 8 5 + 2

/-- The lines of a message in the ring (R309, R311, R313). -/
def msgWrites (c : Core) (m : MsgIn) : List LineWrite :=
  let at_ (k : Nat) : Nat := c.sys.inboxBase / 128 + (m.pos + k) % 2 ^ 32 % (max 1 c.sys.inboxSize)
  ⟨at_ 0, m.header.setWidth 1024, BitVec.allOnes 128, 0, 0⟩
    :: m.lines.zipIdx.map fun x => { x.1 with line := at_ (x.2 + 1) }

/-- The scratchpad lines of a CAGREE or CREDX. -/
def collLines (e : QEntry) : List Nat :=
  match collWord e.i with
  | some w => (List.range (w.lines.getD 0)).map fun i => (cap e 1).toNat / 128 + i
  | none => []

/-- First byte of the entry of the reply spool that is written next (R293). -/
def replyAt (c : Core) : Nat := c.sys.replyBase + 16 * (c.sys.replyProd % (8 * c.sys.replySize))

/-- The untimed requests that a piece of work makes of a core's banks: the core, the row of the seating chart, the lines (R230); the
lines of one piece of work are served together (log entry 128). -/
def padLines (s : State) (it : Item) : Option (Nat × Nat × List Nat) :=
  match it with
  | .landing c q n rep => (cmdOf s c q n).map fun m => (c, 8, repPadLines m.e rep)
  | .reply c _ _ _ _ _ => some (c, 11, [lineOf (replyAt (s.core c))])
  | .arrive _ src n => (cmdOf s src 3 n).map fun m => (src, 10, msendLines m.e)
  | .deliver dst src n => (msgOf (s.core dst) src n).map fun m => (dst, 11, (msgWrites (s.core dst) m).map (·.line))
  | .ared c n => (cmdOf s c 3 n).map fun m => (c, 10, [(cap m.e 1).toNat / 128])
  | .lin c n => (cmdOf s c 3 n).map fun m => (c, 10, collLines m.e)
  | _ => none

/-- Are the banks that a piece of work asks for free in this cycle (R231)? -/
def padReady (s : State) (it : Item) : Bool :=
  match padLines s it with
  | some (c, _, ls) => portFree (s.core c) ls
  | none => true

/-- Is it the first message of its sender whose lines are still to be written (R311)? -/
def msgTurnToLand (c : Core) (src seq : Nat) : Bool :=
  match c.msgs.find? fun m => decide (m.srcCore = src) && m.reserved && !m.written with
  | some m => decide (m.srcSeq = seq)
  | none => true

/-- Is the pending trap a work stop (R433)? Nothing more of its cycle issues. -/
def workStopped (c : Core) : Bool :=
  match c.trap with
  | some t => decide (t.cause = causeBreak) && decide (fieldOf t.info0 32 2 = 2)
  | none => false

/-- May words of a core issue, and barriers complete (R215, R300, R432)? -/
def issues (c : Core) : Bool :=
  decide (c.life = .running ∨ c.life = .draining) && !c.dstop && !c.sys.inh
    && ((c.trap.isNone && !c.frozenV) || (c.trap.isSome && c.trapNow && !workStopped c))

/-- The head of queue `q` where it is due in the present fc (R85, R299): after a freeze only the second word of a pair, and a
`CPOUT` for which the outbound half of the landing buffer had no room (R233). -/
def issueHead (c : Core) (q : Nat) : Option QEntry :=
  let x := c.queue q
  match x.ents with
  | [] => none
  | e :: _ =>
    if c.seq.reorig || x.bwait || c.heldq.getLsbD q || !(c.entered || decide (e.d = 0) || isCpout e.i) || decide (c.fc < issueFc x e) then none
    else some e

/-- Does core `n` lack room in its landing buffer for its due `CPOUT` (R233)? -/
def outWaits (s : State) (n : Nat) : Bool :=
  issues (s.core n) && (match issueHead (s.core n) 2 with
    | some e => isCpout e.i && !outRoom s n e
    | none => false)

/-- Is the item a request of a word that comes after a `CPOUT` of its fc which waits for room (R233, R277, R284)? -/
def outHeld (s : State) (it : Item) : Bool :=
  match itemCmd it with
  | some (c, q, n) => (match cmdOf s c q n with
    | some m => (List.range 8).any fun i =>
        let k := c / 8 * 8 + i
        (decide (k = c) || (!s.isSplit c && decide (k < c))) && itemAfter s k (s.core k).fc 2 it && decide (m.issueFc = (s.core k).fc)
          && outWaits s k
    | none => false)
  | none => false

/-- May a piece of work be done now, its order and the banks it asks for aside? -/
def itemOk (s : State) (it : Item) : Bool :=
  !outHeld s it && match it with
  | .read c q n rep _ => !portAhead s it && !(s.work.any fun x => match x.2 with
      | .read c' q' n' r' _ => decide (c' = c) && decide (q' = q) && decide (n' = n) && decide (r' < rep)
      | _ => false)
  | .post c q n rep _ => !(s.work.any fun x => match x.2 with
      | .write c' q' n' r' _ _ m' _ k' => decide (c' = c) && decide (q' = q) && decide (n' = n) && decide (r' < rep)
        && (decide (m' ≠ 0) || !k'.isEmpty)
      | _ => false)
  | .write c q n rep _ _ mask _ codes =>
    if mask = 0 ∧ codes = [] then heldOver s c it
    else !portAhead s it && (codes.all (fun e => decide (16 ≤ e.2)) || !(s.work.any fun x => match x.2 with
      | .write c' q' n' r' _ _ m' _ _ => decide (c' = c) && decide (q' = q) && decide (n' = n) && decide (r' ≤ rep) && decide (m' ≠ 0)
      | _ => false))
  | .atomic c n => atomicReady s c n && !portAhead s it
  | .release c q n => match cmdOf s c q n with
    | some m => !isRelease (lxWord m.e.i).order || setPerformed s c (lxWord m.e.i).scope
    | none => true
  | .reply c _ _ _ _ _ => replyRoom (s.core c)
  | .arrive dst src n => match msgOf (s.core dst) src n with
    | some m => msgOpen (s.core dst) m.tenant && msgFirst (s.core dst) src n
    | none => true
  | .deliver dst src n => msgTurnToLand (s.core dst) src n
  | .contrib m => contribReady s m
  | .start n => !needsScrub s n
  | .resume n => !needsScrub s n
  | .save n => issuedDone (s.core n)
  | _ => true

/-- May a piece of work be done now, its order aside? -/
def itemReady (s : State) (it : Item) : Bool := itemOk s it && padReady s it

/-- The first piece of work that is due, may be done, and satisfies `p`; `seen` holds the granules of the work before it, and whether
the hub holds it whole: such an atomic stands before later requests that are held themselves, and before no others (R261, R291). -/
def findWork (s : State) (p : Item → Bool) : Nat → List (Nat × Item) → List (List (Nat × Nat) × Bool) → Option (Nat × Item)
  | _, [], _ => none
  | i, (t, it) :: rest, seen =>
    let gs := itemGrans s it
    let blocked := gs.any fun k => seen.any fun x => x.1.any (sameOrder s k) && (!x.2 || willHold s k.1 it)
    if p it && decide (t ≤ s.cyc) && !blocked && itemReady s it then some (i, it)
    else findWork s p (i + 1) rest (if gs.isEmpty then seen else (gs, heldWhole s it) :: seen)

/-- The first piece of work of a kind that may be done now, with its place. -/
def workDue (s : State) (p : Item → Bool) : Option (Nat × Item) := findWork s p 0 s.work []

/-- A due piece of work with banks that it has still to touch (R228): the core and their lines. -/
def padAsleep (s : State) : Option (Nat × List Nat) :=
  s.work.findSome? fun x =>
    if x.1 ≤ s.cyc ∧ itemOk s x.2 = true then
      match padLines s x.2 with
      | some (c, _, ls) => (match asleep (s.core c) ls with
        | [] => none
        | l => some (c, l))
      | none => none
    else none

/-- The bank that a due piece of work waits for (R231): the core, the row, the bank. -/
def padWaits (s : State) (x : Nat × Item) : Option (Nat × Nat × Nat) :=
  if x.1 ≤ s.cyc ∧ itemOk s x.2 = true then
    match padLines s x.2 with
    | some (c, row, ls) => (ls.find? fun l => portBusy (s.core c) (bankOf l)).map fun l => (c, row, bankOf l)
    | none => none
  else none

/-- Take away the work at place `i`. -/
def State.dropWork (s : State) (i : Nat) : State := { s with work := s.work.eraseIdx i }

/-- Put other work in the place of the work at `i`, so that it keeps its order; it is due after a free delay below `bound`. -/
def State.swapWork (s : State) (i bound : Nat) (it : Item) : State :=
  let (n, s) := s.draw 1 bound
  { s with work := s.work.set i (s.cyc + n, it) }

/-- The same with several pieces of work. -/
def State.swapItems (s : State) (i bound : Nat) (l : List Item) : State :=
  let rest := s.work.drop (i + 1)
  let s := l.foldl (fun s it => addWork s bound it) { s with work := s.work.take i }
  { s with work := s.work ++ rest }

/-- The launch that a command is charged to: its task's. -/
def cmdLaunch (s : State) (core : Nat) (m : Cmd) : Nat :=
  match m.ended with
  | some t => t.lk
  | none => (s.core core).task.launch

/-- A corrected granule charges the launch of the command (R255, R333). -/
def chargeCorrected (s : State) (core : Nat) (m : Cmd) : State :=
  let s := s.setCore core (countEv (s.core core) 0x19 1)
  s.onLaunch (cmdLaunch s core m) fun l => { l with corrected := true }

/-- The owner that the words of a core, or of a saved task (256 or more), are charged to (R421). -/
def ownerOf (s : State) (c : Nat) : Option Nat :=
  if c < 256 then some (s.core c).sys.owner
  else (s.sched.saved.find? fun e => e.1 + 256 = c).map fun e => e.2.sys.owner

/-- Charge `n` to usage field `f` of the owner of a core's task (R420, R421): 1 URD, 2 UWR, 3 ULINK. -/
def charge (s : State) (c f n : Nat) : State :=
  match ownerOf s c with
  | some o => addUsage s (5 * o + f) n
  | none => s

/-- Bytes of a granule that are payload of a read (R421): of the elements or of the view's rows, each byte once; CPMAP reads
map bytes. -/
def payloadIn (m : Cmd) (rep g : Nat) : Nat :=
  let x := m.e.h.bits
  let inRange (a n i : Nat) : Bool := decide (a ≤ g + i) && decide (g + i < a + n)
  let has (i : Nat) : Bool :=
    match m.e.i with
    | .cpin _ => (copyElems x m.e rep).any fun y => inRange y.va y.n i
    | .cpmap _ => (mapRows x m.e rep).any fun t => decide (g + i = hPmap x + t.toNat / 4)
    | .csend _ => (List.range (viewRows x)).any fun t => inRange (viewRowAddr x t) (viewRowBytes x) i
    | _ => false
  ((List.range 128).filter has).length

end Sys2Proof.Machine
end

