-- ==== Sys2Proof/Machine/Hub.lean ====
section
/-! DEFINITION. What the hubs do (10 R249 to R265, 11 R286 to R294, 15 R386 to R393): TRANSLATION_WALK, HUB_READ, HUB_WRITE,
HUB_ATOMIC, COPY_TRANSLATION_FAULT, and at the cores what comes back from them: the ARED source read, replies and completion
posts, and a held word that leaves its core. -/

namespace Sys2Proof.Machine

/-- Is the work a device-memory request that a hub serves? -/
def isHubItem : Item → Bool
  | .read .. | .write .. | .atomic .. => true
  | _ => false

/-- The next request that a hub can serve. -/
def hubDue (s : State) : Option (Nat × Item) := workDue s isHubItem

/-- Does a request have to be walked first (R389)? -/
def needsWalk (s : State) (it : Item) : Bool :=
  match itemVa s it with
  | some (c, asid, va) => !tlbHit s c asid va
  | none => false

/-- A request of a command fails (R243, R245, R288, R388): a copy's fault is reported to its core; any other command is
stopped with TRANSLATION, origin A; an ownership failure is an OWNER violation. -/
def hubFail (s : State) (i : Nat) (it : Item) (r : XRes) : State :=
  match r, itemCmd it, itemVa s it with
  | .owner, some (c, q, n), some (_, _, va) => violateCmd s c q n (BitVec.ofNat 64 va)
  | _, some (c, q, n), some (_, _, va) =>
    match it with
    | .read _ 2 _ rep gva => s.swapWork i 1 (.copyFault c q n rep gva)
    | .write _ 2 _ rep gva _ _ _ _ => s.swapWork i 1 (.copyFault c q n rep gva)
    | _ => raiseCmd s c q n causeTranslation (BitVec.ofNat 64 va)
  | _, _, _ => s.dropWork i

/-- A leaf enters the cache of its core, which holds 256 (R389); which one goes the spec does not say: the oldest (log entry 154). -/
def tlbAdd (l : List Tlb) (t : Tlb) : List Tlb :=
  (if 256 ≤ (l.filter fun x => decide (x.unit = t.unit)).length then l.eraseP fun x => decide (x.unit = t.unit) else l) ++ [t]

/-- TRANSLATION_WALK (R386 to R389): a leaf is cached; a walk that fails, the check of the page owner table with it, fails its request. -/
def execTranslationWalk (s : State) : Ans :=
  match hubDue s with
  | none => .next s
  | some (i, it) =>
    match itemVa s it with
    | none => .next (s.dropWork i)
    | some (c, asid, va) =>
      if tlbHit s c asid va then .next s
      else
        let s := s.setCore c (countEv (s.core c) 0x18 1)
        let tn := (s.core c).sys.tenant
        if !asidOk s asid tn then .next (hubFail s i it .owner)
        else
          let write := match it with
            | .read .. => false
            | _ => true
          let r := walkFrom s tn va write [0, 1, 2, 3] (fieldOf (asidOf s asid) 16 29 * 4096)
          let s := walkReads s asid tn va
          match r with
          | (.pa a, some t) =>
            if frameOk s tn a write then .next { s with dev := { s.dev with tlb := tlbAdd s.dev.tlb { t with unit := c, asid := asid } } }
            else .next (hubFail s i it .owner)
          | (r, _) => .next (hubFail s i it r)

/-- Send a request to the host; it times out after 10 ms of form cycles (R384). -/
def askHost (s : State) (it : Item) : State :=
  let n := match s.links.hostReq.reverse with
    | (k, _, _) :: _ => k + 1
    | [] => 0
  let s := match itemCmd it with
    | some (c, q, k) => s.onCmd c q k fun m => { m with till := max m.till (s.cyc + 8500000 + answerBound) }
    | none => s
  { s with links := { s.links with hostReq := s.links.hostReq ++ [(n, s.cyc + 8500000, it)] } }

/-- Request `k` of a tenant's function has completed: the writes that left before it are performed with respect to SYSTEM (R274). -/
def pushed (s : State) (tenant k : Nat) : State :=
  { s with links := { s.links with posted := s.links.posted.filter fun e => decide (e.1 ≠ tenant) || e.2.contains k } }

/-- A write request that its hub has taken, held until the seal (R261) or on its way to the host (R274). -/
def takenWrite (c q n rep gva : Nat) : Item := .write c q n rep gva 0 0 0 []

/-- A tenant for whose writes a word waits at SYSTEM or RECOVERY scope, or a completion record or the end of a migration (R335, R354),
while no read that pushes them is out (R274, R280). -/
def flushDue (s : State) : Option Nat :=
  (s.links.posted.find? fun e =>
    (readsOut s e.1).all (fun k => e.2.contains k) &&
      ((s.work.any fun x => match x.2 with
        | .release c q n => decide ((s.core c).sys.tenant = e.1) && (match cmdOf s c q n with
          | some m => isRelease (lxWord m.e.i).order && decide (4 ≤ (lxWord m.e.i).scope)
          | none => false)
        | .write c _ _ _ _ _ mask _ codes => decide (mask = 0) && codes.isEmpty && decide ((s.core c).sys.tenant = e.1) &&
          (match itemPa s x.2 with
          | some a => isHostFrame s a
          | none => false)
        | _ => false)
      || s.cores.any fun c => decide (c.2.sys.tenant = e.1) && (match c.2.seq.wait with
        | some (.fence o, _) => decide (4 ≤ o.scope.toNat)
        | some (.rrel _, _) => true
        | _ => false)
      || (s.sched.dones.any fun d => decide ((tdiOf s d.vf).tenant = e.1)) || decide ((migOf s e.1).st = 2))).map (·.1)

/-- An atomic enters its panel's port: with respect to FORM or PANEL it has then completed, and k is posted (R274, R278, R289). -/
def enterPort (s : State) (i core seq : Nat) : State :=
  let s := s.dropWork i
  match cmdOf s core 3 seq with
  | none => s
  | some m =>
    let s := s.onCmd core 3 seq fun m => { m with early := true, port := s.cyc + 1 }
    let w := lxWord m.e.i
    if w.post && m.ended.isNone then s.setCore core (semPostNow (s.core core) w.k) else s

/-- Is the work an atomic's entry into its port, or the Timetable's take-over routine? -/
def isEnters : Item → Bool
  | .enters .. | .takeover => true
  | _ => false

/-- An atomic enters its port, the standby Timetable core has taken over (R356), or a read that pushes writes to the host leaves. -/
def portTurn (s : State) : Option State :=
  match workDue s isEnters with
  | some (i, .enters c n) => some (enterPort s i c n)
  | some (i, .takeover) => some (takeOver (s.dropWork i))
  | _ => (flushDue s).map fun t => askHost s (.hostFlush t)

/-- A granule of a repetition has arrived with its code. -/
def gotGran (s : State) (c q n rep gva : Nat) (d : BitVec 1024) (code : BitVec 2) : State :=
  s.onCmd c q n fun m => { m with reps := m.reps.map fun r =>
    if r.j = rep then { r with got := r.got ++ [⟨gva / 128, d, BitVec.allOnes 128, code, 0⟩] } else r }

/-- Is the copy timed (R236)? -/
def isTimed (i : Instr) : Bool :=
  match i with
  | .cpin o => decide (o.mode = 1)
  | _ => false

/-- Bytes of the inbound half of the landing buffer that timed repetitions share: 16 KiB of it is for untimed landings (R233). -/
def inboundRoom : Nat := 114688

/-- Bytes that a repetition takes in the landing buffer. -/
def repRoom (e : QEntry) (j : Nat) : Nat := placeBytes ((copyElems e.h.bits e j).map (·.place))

/-- The timed repetitions of core `c` that hold room in the landing buffer, with their words (R233). -/
def roomHeld (s : State) (c : Nat) : List (QEntry × RepState) :=
  (s.core c).cmds.flatMap fun m => if isTimed m.e.i then
    (m.reps.filter fun r => !r.done && !r.got.isEmpty).map fun r => (m.e, r) else []

/-- Requests of a command that leave again take their place in the order of their core's requests (R277, R284), within what is left of the
command's bound (R465). -/
def fetchAgain (s : State) (c q n : Nat) (its : List Item) : State :=
  match cmdOf s c q n with
  | some m => sendWork s c m.issueFc q (max 1 (answerIn s c q n - answerBound)) its
  | none => s

/-- Repetition `j` loses its data and fetches it again (R233). -/
def refetch (s : State) (c : Nat) (e : QEntry) (j : Nat) : State :=
  let mine : Item → Bool := fun it => match it with
    | .read c' q' n' r' _ => decide (c' = c) && decide (q' = 2) && decide (n' = e.seq) && decide (r' = j)
    | _ => false
  let s := s.onCmd c 2 e.seq fun m => { m with reps := m.reps.map fun r =>
    if r.j = j then { r with got := [], complete := false } else r }
  let s := { s with
    work := s.work.filter fun x => !mine x.2
    links := { s.links with hostReq := s.links.hostReq.filter fun x => !mine x.2.2 } }
  fetchAgain s c 2 e.seq ((repReads e.h.bits e j).map fun g => .read c 2 e.seq j g)

/-- Room for repetition `r` of `e`, which holds none yet: later-promised repetitions lose theirs as long as it is short (R233). The
answer says whether there is room. -/
def makeRoom (s : State) (c : Nat) (e : QEntry) (r : RepState) : Nat → State × Bool
  | 0 => (s, false)
  | n + 1 =>
    let held := roomHeld s c
    if held.foldl (fun k x => k + repRoom x.1 x.2.j) 0 + repRoom e r.j ≤ inboundRoom then (s, true)
    else match held.filter fun x => decide (r.p < x.2.p) with
      | [] => (s, false)
      | x :: t =>
        let y := t.foldl (fun a b => if a.2.p < b.2.p then b else a) x
        makeRoom (refetch s c y.1 y.2.j) c e r n

/-- Does the landing buffer take a granule of repetition `rep` (R233)? What is not timed, or is LATE already, needs no room. -/
def takesRoom (s : State) (c q n rep : Nat) : State × Bool :=
  match cmdOf s c q n with
  | some m =>
    if !isTimed m.e.i then (s, true)
    else match m.reps.find? fun r => decide (r.j = rep) with
      | some r => if r.done ∨ r.got ≠ [] then (s, true) else makeRoom s c m.e r ((roomHeld s c).length + 1)
      | none => (s, true)
  | none => (s, true)

/-- Does a granule of the repetition still have to come? -/
def repWaits (s : State) (c q n rep : Nat) : Bool :=
  let mine : Item → Bool := fun it => match it with
    | .read c' q' n' r' _ => decide (c' = c) && decide (q' = q) && decide (n' = n) && decide (r' = rep)
    | _ => false
  (s.work.any fun x => mine x.2) || s.links.hostReq.any fun x => mine x.2.2

/-- The bytes and line codes that CSEND sends (R368). -/
def sendLines (e : QEntry) (r : RepState) : List (BitVec 1024 × BitVec 2) :=
  let x := e.h.bits
  let n := viewBytes x
  let w := viewRowBytes x
  let byteAt (p : Nat) : Nat × BitVec 2 :=
    let t := p / w
    let b := gotByte r (viewRowAddr x t + p % w)
    let col := p % w * 8 / (if hElemBits x = 0 then 8 else hElemBits x)
    (b.1, maxCode b.2 (if hPmap x = 0 then 0 else gotRow x r (viewMapRow x t col)))
  (List.range ((n + 127) / 128)).map fun l =>
    let bs := (List.range (min 128 (n - 128 * l))).map fun i => byteAt (128 * l + i)
    (BitVec.ofNat 1024 (joinNat 8 (bs.map (·.1))), maxCodes (bs.map (·.2)))

/-- Does the tenant have a bound stream on a port whose session is open (R362)? A port that retrains keeps its session (R359). -/
def streamOf (s : State) (port tenant : Nat) : Option Nat :=
  if (mapGet Port.zero s.links.ports port).st ≠ 3 ∧ retrains s port = false then none
  else (s.links.streams.find? fun e => decide (e.1 / 1024 = port) && decide (e.2.tenant = tenant)).map (·.1)

/-- What a word of a saved task finds when its task resumes (R376): its contribution has been delivered, or the word was dropped (R368). -/
def savedDone (s : State) (k seq : Nat) (dropped : Bool) : State :=
  { s with sched := { s.sched with saved := s.sched.saved.map fun e =>
    if e.1 = k then (e.1, { (if dropped then psumSet e.2 1 else e.2) with cmds := e.2.cmds.map fun m =>
      if m.q = 3 ∧ m.e.seq = seq then { m with old := 1, code := if dropped then 1 else m.code } else m })
    else e } }

/-- A collective word is dropped with its port or stream (R368): it completes and sets PSUM.LATE; that of a saved task does so at its
resumption (R376). -/
def dropColl (s : State) (c seq : Nat) : State :=
  if c < 256 then finishWord (collPsum s c 3 seq 1) c seq else savedDone s (c - 256) seq true

/-- A contribution leaves its core for every rank it is for (R364, R368, R370): the word then counts as parked (R376). -/
def contribute (s : State) (c seq part bytes : Nat) (dsts : List Nat) (lines : List (BitVec 1024 × BitVec 2)) : State :=
  match cmdOf s c 3 seq with
  | none => s
  | some m =>
    let d := cap m.e 0
    let g := groupEntry s (cdGroup d)
    let s := s.onCmd c 3 seq fun m => { m with sent := true, parked := true }
    let shut := dsts.any fun r => match routeOf s g r with
      | some p => (streamOf s p (grpTenant g)).isNone
      | none => false
    if shut then dropColl s c seq
    else dsts.foldl (fun s r => addWork s devBound
      (.contrib ⟨cdGroup d, cdTag d, r, cdRank d, part, bytes, lines, some (c, seq), cmdLaunch s c m, false⟩)) s

/-- Every granule of a repetition has arrived. -/
def repArrived (s : State) (c q n rep : Nat) : State :=
  let s := s.onCmd c q n fun m => { m with
    reps := m.reps.map fun r => if r.j = rep then { r with complete := true } else r }
  match cmdOf s c q n with
  | none => s
  | some m =>
    match m.e.i with
    | .csend _ => match m.reps.find? fun r => decide (r.j = rep) with
      | some r => contribute s c n 0 (viewBytes m.e.h.bits) [cdPeer (cap m.e 0)] (sendLines m.e r)
      | none => s
    | _ =>
      let late := m.reps.any fun r => decide (r.j = rep) && r.done
      if late then reapCmd s c q n
      else if isTimed m.e.i then s
      else addWorkAt s 0 (.landing c q n rep)

/-- A granule of a repetition arrives; one that the landing buffer has no room for is fetched again (R233). -/
def arriveGran (s : State) (c q n rep gva : Nat) (d : BitVec 1024) (code : BitVec 2) : State :=
  match takesRoom s c q n rep with
  | (s, false) => fetchAgain s c q n [.read c q n rep gva]
  | (s, true) =>
    let s := gotGran s c q n rep gva d code
    if repWaits s c q n rep then s else repArrived s c q n rep

/-- HUB_READ (R252 to R256, R384): the granule at the hub, with a core's own held writes (R261), arrives at its command. -/
def execHubRead (s : State) : Ans :=
  match hubDue s with
  | some (i, .read c q n rep gva) =>
    match cmdOf s c q n with
    | none => .next (s.dropWork i)
    | some m =>
      match translate s c (cmdAsid m) gva (s.core c).sys.tenant false with
      | .pa a =>
        if isHostFrame s a then .next (askHost (s.dropWork i) (.read c q n rep gva))
        else
          let (s, d, code, corrected) := hubReadGran s a
          let s := if corrected then chargeCorrected s c m else s
          let s := charge (if q = 2 then s.setCore c (countEv (s.core c) 0x16 128) else s) c 1 (payloadIn m rep gva)
          .next (arriveGran (s.dropWork i) c q n rep gva (heldView s c a d) (heldCode s c a code))
      | r => .next (hubFail s i (.read c q n rep gva) r)
  | _ => .next s

/-- Semaphore of a copy under SEM (R80). -/
def copySem (i : Instr) : Option Nat :=
  match i with
  | .cpin o | .cpout o | .cpset o | .cpmap o => if o.mode = 0 then some o.k.toNat else none
  | _ => none

/-- Does a write of the repetition still have to be performed? -/
def repWrites (s : State) (c q n rep : Nat) : Bool :=
  s.work.any fun x => match x.2 with
    | .write c' q' n' r' _ _ _ _ _ => decide (c' = c) && decide (q' = q) && decide (n' = n) && decide (r' = rep)
    | _ => false

/-- A write of a repetition has been performed; with the last one k is posted (R245, R246) or the word goes on. -/
def writePerformed (s : State) (c q n rep : Nat) : State :=
  if repWrites s c q n rep then s
  else match cmdOf s c q n with
    | none => s
    | some m =>
      if q = 3 then (if m.early then doneRep s c 3 n 0 else finishWord s c n)
      else if m.reps.any (fun r => decide (r.j = rep) && r.done) then reapCmd s c q n
      else match copySem m.e.i with
        | some k => addWork s (answerIn s c q n) (.post c q n rep k)
        | none => doneRep s c q n rep

/-- LOG_FULL (R264): raised on the core, and the command is stopped. -/
def logFull (s : State) (c q n asid : Nat) : State :=
  raiseCmd s c q n causeLogFull (BitVec.ofNat 64 asid)

/-- Count the poison-map rows that a write gives a code other than CLEAN, for the launch's `CROWS` (R334). -/
def countRows (s : State) (core : Nat) (m : Cmd) (codes : List (Nat × Nat)) : State :=
  let k := (codes.filter fun e => decide (e.2 < 16 ∧ e.2 % 4 ≠ 0)).length
  if k = 0 then s else s.onLaunch (cmdLaunch s core m) fun l => { l with rows := l.rows + k }

/-- HUB_WRITE (R245, R253, R257, R261 to R264): a write is applied with its undo entry, or held until the seal; a write that
was held has been applied by the seal and is now performed. -/
def execHubWrite (s : State) : Ans :=
  match hubDue s with
  | some (i, .write c q n rep gva data mask code codes) =>
    match cmdOf s c q n with
    | none => .next (s.dropWork i)
    | some m =>
      match translate s c (cmdAsid m) gva (s.core c).sys.tenant true with
      | .pa a =>
        if mask = 0 ∧ codes = [] then .next (writePerformed (s.dropWork i) c q n rep)
        else
          let host := isHostFrame s a
          let s := if q = 2 then s.setCore c (countEv (s.core c) 0x17 128) else s
          if host then
            let tn := (s.core c).sys.tenant
            let s := if hostOpen s tn then countRows (hostWrite s tn a data mask codes) c m codes else s
            if q = 3 ∧ 4 ≤ (lxWord m.e.i).scope then .next { s with work := s.work.set i (s.cyc, takenWrite c q n rep gva) }
            else .next (writePerformed (s.dropWork i) c q n rep)
          else
            let s := charge s c 2 (onesBelow mask.toNat 128)
            match hubWriteGran s c a data mask (codes.all fun e => decide (16 ≤ e.2)) codes with
            | .done s => .next (writePerformed (countRows (s.dropWork i) c m codes) c q n rep)
            | .held s =>
              let s := countRows s c m codes
              .next { s with work := s.work.set i (s.cyc, takenWrite c q n rep gva) }
            | .full s asid => .next (logFull s c q n asid)
      | r => .next (hubFail s i (.write c q n rep gva data mask code codes) r)
  | _ => .next s

/-- A map write of command (core, queue, seq) for repetition `low` or a later one leaves the row's old code in play (R245). -/
def keepsOld (c q n low : Nat) (it : Item) : Item :=
  match it with
  | .write c' q' n' r g d w k codes =>
    if c' = c ∧ q' = q ∧ n' = n ∧ low ≤ r then .write c' q' n' r g d w k (codes.map fun e => (e.1, if e.2 < 4 then e.2 + 4 else e.2))
    else it
  | _ => it

/-- COPY_TRANSLATION_FAULT (R243, R245): repetitions below the faulting one go on; the faulting one and later ones land and
post nothing, no granule of the faulting page is written, and a row that they rewrite only in part keeps its old code in play. -/
def execCopyTranslationFault (s : State) : Ans :=
  match workDue s (fun it => match it with
    | .copyFault .. => true
    | _ => false) with
  | some (i, .copyFault c q n rep va) =>
    let s := s.dropWork i
    match cmdOf s c q n with
    | none => .next s
    | some m =>
      let page (x : Nat) : Nat := x / 65536
      let onPage : Item → Bool := fun it => match it with
        | .write c' q' n' _ g _ _ _ _ => decide (c' = c) && decide (q' = q) && decide (n' = n) && decide (page g = page va)
        | _ => false
      let isIn : Bool := match m.e.i with
        | .cpin _ | .cpmap _ => true
        | _ => false
      let low := s.work.foldl (fun f x => match x.2 with
        | .write _ _ _ r _ _ _ _ _ => if onPage x.2 then min f r else f
        | _ => f) rep
      let gone : Item → Bool := fun it => onPage it || (isIn && (match it with
        | .read c' q' n' r _ => decide (c' = c) && decide (q' = q) && decide (n' = n) && decide (rep ≤ r)
        | .landing c' q' n' r => decide (c' = c) && decide (q' = q) && decide (n' = n) && decide (rep ≤ r)
        | _ => false)) || (match it with
        | .post c' q' n' r _ => decide (c' = c) && decide (q' = q) && decide (n' = n) && decide (low ≤ r)
        | _ => false)
      let left : List (Nat × Item) := s.work.filter fun x => !gone x.2
      let s : State := { s with work := left.map fun x => (x.1, keepsOld c q n low x.2) }
      let s := s.onCmd c q n fun m => { m with reps := m.reps.map fun r =>
        if low ≤ r.j then { r with done := true, complete := true } else r }
      .next (reapCmd (raiseAsync s c causeTranslation q (BitVec.ofNat 64 va) (BitVec.ofNat 64 n)) c q n)
  | _ => .next s

/-- The operations of a hub atomic on n bytes (R287); 16 is compare and swap. -/
def atomOpN (op n old x cmp : Nat) : Nat :=
  if op = 16 then (if old = cmp % 2 ^ (8 * n) then x % 2 ^ (8 * n) else old)
  else if n = 4 then atomOp32 op old x
  else
    let a : BitVec 64 := BitVec.ofNat 64 old
    let b : BitVec 64 := BitVec.ofNat 64 x
    match op with
    | 0 => (a + b).toNat
    | 2 => (if a.toInt < b.toInt then b else a).toNat
    | 3 => (if a.toInt < b.toInt then a else b).toNat
    | 4 => (if a.toNat < b.toNat then b else a).toNat
    | 5 => (if a.toNat < b.toNat then a else b).toNat
    | 6 => (a &&& b).toNat
    | 7 => (a ||| b).toNat
    | 8 => (a ^^^ b).toNat
    | _ => b.toNat

/-- The new granule of an atomic (R289, R290), with the bytes it writes: none where an ACAS fails its comparison. -/
def atomGran (m : Cmd) (pa : Nat) (d : BitVec 1024) : BitVec 1024 × BitVec 128 :=
  let n := atomBytes m.e.i
  let op := atomOp m.e.i
  if isAred m.e.i then
    let src := match m.data with
      | w :: _ => w.data
      | [] => 0
    (BitVec.ofNat 1024 (joinNat (8 * n) ((List.range (128 / n)).map fun i =>
      atomOpN op n (d.toNat / 2 ^ (8 * n * i) % 2 ^ (8 * n)) (src.toNat / 2 ^ (8 * n * i) % 2 ^ (8 * n)) 0)), BitVec.allOnes 128)
  else
    let sh := 8 * (pa % 128)
    let old := d.toNat / 2 ^ sh % 2 ^ (8 * n)
    let new := atomOpN op n old (cap m.e 1).toNat (cap m.e 2).toNat
    if op = 16 ∧ old ≠ (cap m.e 2).toNat % 2 ^ (8 * n) then (d, 0)
    else (BitVec.ofNat 1024 (new * 2 ^ sh), BitVec.ofNat 128 (2 ^ n - 1) <<< (pa % 128))

/-- The map granules of an ARED whose source is not CLEAN. -/
def aredMaps (m : Cmd) : List Nat :=
  if isAred m.e.i ∧ m.code ≠ 0 ∧ hPmap m.e.h.bits ≠ 0 then
    ((aredRows m.e).map (mapGranule m.e.h.bits)).eraseDups else []

/-- Where the map granules do not all translate: the answer, with the map address (R257). -/
def mapsFail (s : State) (core : Nat) (m : Cmd) (tenant : Nat) : Option (XRes × Nat) :=
  (aredMaps m).findSome? fun g => match translate s core (cmdAsid m) g tenant true with
    | .pa _ => none
    | r => some (r, g)

/-- Raise the row codes of an ARED (R257, R290); with the contexts whose logs had no room for it (R264), and the map granules whose write
is held until the seal (R261) or, at SYSTEM scope, on its way to the host (R274). -/
def raiseRows (s : State) (core : Nat) (m : Cmd) (tenant : Nat) : State × List Nat × List Nat :=
  (aredMaps m).foldl (fun (r : State × List Nat × List Nat) g =>
    let s := r.1
    match translate s core (cmdAsid m) g tenant true with
    | .pa a =>
      let fs := ((aredRows m.e).filter fun t => decide (mapGranule m.e.h.bits t = g)).map fun t =>
        ((hPmap m.e.h.bits + t / 4) % 128 * 4 + t % 4, 4 + m.code.toNat)
      if isHostFrame s a then
        (if hostOpen s tenant then countRows (hostWrite s tenant a 0 0 fs) core m fs else s, r.2.1,
          if 4 ≤ (lxWord m.e.i).scope then r.2.2 ++ [g] else r.2.2)
      else match hubWriteGran s core a 0 0 false fs with
      | .done s => (countRows s core m fs, r.2.1, r.2.2)
      | .held s => (countRows s core m fs, r.2.1, r.2.2 ++ [g])
      | .full s x => (s, r.2.1 ++ [x], r.2.2)
    | _ => r) (s, [], [])

/-- An ARED whose map writes are still to be performed waits for them (R261, R274, R278); it has entered its port by now. -/
def mapsTaken (s : State) (core seq : Nat) (gs : List Nat) : State :=
  let s := match s.work.findIdx? fun x => decide (x.2 = .enters core seq) with
    | some i => enterPort s i core seq
    | none => s
  { s with work := s.work ++ gs.map fun g => (s.cyc, takenWrite core 3 seq 0 g) }

/-- What an atomic leaves at its core once the hub has decided (R289): a reply on its way, or the end of the word; one that has
completed early is only taken off (R278). -/
def atomAnswer (s : State) (core seq : Nat) (m : Cmd) (code old : Nat) : State :=
  if atomRet m.e.i then
    addWork s (answerIn s core 3 seq) (.reply core seq (lxWord m.e.i).k code old (if atomBytes m.e.i = 8 then 1 else 0))
  else
    let s := { s with work := s.work.filter fun x => decide (x.2 ≠ .enters core seq) }
    let s := if code = 3 then s.setCore core (psumSet (s.core core) 3) else s
    if m.early then doneRep s core 3 seq 0 else finishWord s core seq

/-- May an atomic go to the host as a PCIe AtomicOp (R292)? -/
def hostAtomic (i : Instr) : Bool :=
  !isAred i && (decide (atomOp i = 0) || decide (atomOp i = 9) || decide (atomOp i = 16))

/-- HUB_ATOMIC (R257, R265, R268, R289 to R292): applied in one step, journaled on a durable frame; a poisoned granule is
not written and answers ERROR. -/
def execHubAtomic (s : State) : Ans :=
  match hubDue s with
  | some (i, .atomic c n) =>
    match cmdOf s c 3 n with
    | none => .next (s.dropWork i)
    | some m =>
      let tn := (s.core c).sys.tenant
      let va := atomVa m.e
      match translate s c (cmdAsid m) va tn true with
      | .pa a =>
        if isHostFrame s a then
          if hostAtomic m.e.i then .next (askHost (s.dropWork i) (.atomic c n))
          else .next (hubFail s i (.atomic c n) .fault)
        else
          let s := walksOf s c (cmdAsid m) tn (aredMaps m)
          match mapsFail s c m tn with
          | some (.owner, _) => .next (hubFail s i (.atomic c n) .owner)
          | some (_, g) => .next (raiseAsync (dropCmd s c 3 n) c causeTranslation 3 (BitVec.ofNat 64 g) (BitVec.ofNat 64 n))
          | none =>
            let (s1, d, code, corrected) := hubReadGran s a
            let d := heldView s c a d
            let code := heldCode s c a code
            let s1 := if corrected then chargeCorrected s1 c m else s1
            let bytes := if isAred m.e.i then 128 else atomBytes m.e.i
            let s1 := charge (charge s1 c 1 bytes) c 2 bytes
            let bad := decide (code = 3)
            let w := atomBytes m.e.i
            let old := if bad ∨ isAred m.e.i then 0 else d.toNat / 2 ^ (8 * (a % 128)) % 2 ^ (8 * w)
            let (nd, mask) := atomGran m a d
            let rec_ := recCtx s a
            let key := atomKey s c n a (if atomRet m.e.i then old else 0)
            let pos := match rec_ with
              | some x => replayPos s x key
              | none => .live
            let jr : Option State := match rec_ with
              | some x => journal s1 x key
              | none => some s1
            match jr with
            | none => .next (logFull (setFull s1 (rec_.getD 0)) c 3 n (rec_.getD 0))
            | some s2 =>
              let r : WRes := if bad ∨ mask = 0 then .done s2 else hubWriteGran s2 c a nd mask false []
              match r with
              | .full s3 asid => .next (logFull { s3 with ctxs := (setFull s1 asid).ctxs } c 3 n asid)
              | .held s3 => .next s3
              | .done s3 =>
                let (s3, full, taken) := if bad then (s3, [], []) else raiseRows s3 c m tn
                let s3 := s3.dropWork i
                let (s3, old) := match rec_, pos with
                  | some x, .next e => (replayTake s3 x e, if atomRet m.e.i then fieldOf e.bits 192 64 else old)
                  | some x, .diverged => (replayDiverge s3 x, old)
                  | _, _ => (s3, old)
                match full, taken with
                | x :: _, _ => .next (logFull s3 c 3 n x)
                | [], [] => .next (atomAnswer s3 c n m code.toNat old)
                | [], gs => .next (mapsTaken s3 c n gs)
      | r => .next (hubFail s i (.atomic c n) r)
  | _ => .next s

/-- ARED_SOURCE_READ (R290): the source line is read and checked against PPOL; the request then goes to the hub, or waits for the word's
release set (R280). -/
def execAredSourceRead (s : State) : Ans :=
  match workDue s (fun it => match it with
    | .ared .. => true
    | _ => false) with
  | some (i, .ared c n) =>
    match cmdOf s c 3 n with
    | none => .next (s.dropWork i)
    | some m =>
      let x := m.e.h.bits
      let line := (cap m.e 1).toNat / 128
      let co := s.core c
      if !tagsOk co [line] then .next (violateCore (dropCmd s c 3 n) c 3 (cap m.e 1))
      else
        let k := codeSeen co line
        let d := BitVec.ofNat 1024 (bytesSeen co (128 * line) 128)
        let s := s.setCore c (touchLines co s.cyc 16 [line])
        if (hPpol x = 1 ∧ k ≠ 0) ∨ (hPpol x = 2 ∧ k = 3) then
          .next (raiseAsync (dropCmd s c 3 n) c causePoisonStore 3
            (BitVec.ofNat 64 (atomCoord (cap m.e 0) (hBdim x))) (BitVec.ofNat 64 n))
        else
          let s := s.onCmd c 3 n fun m => { m with data := [⟨line, d, BitVec.allOnes 128, k, 0⟩], code := k }
          if isRelease (lxWord m.e.i).order then .next { s with work := s.work.set i (s.cyc, .release c 3 n) }
          else .next (s.swapItems i (max 1 (answerIn s c 3 n - answerBound)) (atomItems c n m.e.i))
  | _ => .next s

/-- Is the work a reply, a post, a held word? -/
def isReply : Item → Bool
  | .reply .. => true
  | _ => false
def isPost : Item → Bool
  | .post .. => true
  | _ => false
def isRelItem : Item → Bool
  | .release .. => true
  | _ => false

/-- Write bytes of the scratchpad that leave the line's code as it is (R293). -/
def plainBytes (c : Core) (a n v : Nat) : Core :=
  let us := unitsOf a n
  let v := if c.sp.acc.isEmpty then v else besideSlot c a v n
  let c := (List.range n).foldl (fun c i => keepStale c (a + i)) c
  { c with sp := { c.sp with
    bytes := memWriteNat c.sp.bytes a n v
    dbe := clearUnits c.sp.dbe us
    sbe := clearUnits c.sp.sbe us
    srace := us.foldl mapDel c.sp.srace } }

/-- REPLY_WRITE (R289, R293): the entry's bytes, then REPLYPROD, then the post; a reply whose task is gone is not written
(R291). -/
def execReplyWrite (s : State) : Ans :=
  match workDue s isReply with
  | some (i, .reply c n k code old w64) =>
    let s := s.dropWork i
    match cmdOf s c 3 n with
    | none => .next s
    | some _ =>
      let co := s.core c
      let a := replyAt co
      if !tagOk co (lineOf a) then .next (violateCore (dropCmd s c 3 n) c 3 (BitVec.ofNat 64 a))
      else
        let co := touchBank (portTouch co 16 (lineOf a)) s.cyc (lineOf a)
        let co := plainBytes co a 16 (n % 2 ^ 32 + code * 2 ^ 32 + w64 * 2 ^ 34 + old % 2 ^ 64 * 2 ^ 64)
        let co := { co with sys := { co.sys with replyProd := (co.sys.replyProd + 1) % 2 ^ 32 } }
        let co := psumCode co (BitVec.ofNat 2 code)
        .next (doneRep (s.setCore c (semPostNow co k)) c 3 n 0)
  | _ => .next s

/-- COMPLETION_POST (R245, R289, R311, R410): a post of a command that is gone is discarded. -/
def execCompletionPost (s : State) : Ans :=
  match workDue s isPost with
  | some (i, .post c q n rep k) =>
    let s := s.dropWork i
    match cmdOf s c q n with
    | none => .next s
    | some _ => .next (doneRep (s.setCore c (semPostNow (s.core c) k)) c q n rep)
  | _ => .next s

end Sys2Proof.Machine
end

