-- ==== Sys2Proof/Machine/Messages.lean ====
section
/-! DEFINITION. Messages and the landings of copies (12 R309 to R316, 09 R233 to R238): MESSAGE_ARRIVAL, MESSAGE_RESERVE,
MESSAGE_LANDING, TIMED_MESSAGE_LANDING, MRECV, MPEEK, UNTIMED_LANDING and TIMED_LANDING. -/

namespace Sys2Proof.Machine

/-- Lines of the scratchpad read by an untimed `LIN` request (R230, R311): none where a line belongs to another tenant. -/
def linRead (s : State) (n : Nat) (lines : List Nat) : Option (State × List (BitVec 1024 × BitVec 2)) :=
  let c := s.core n
  if tagsOk c lines then
    some (s.setCore n (touchLines c s.cyc 16 lines),
      lines.map fun l => (BitVec.ofNat 1024 (bytesSeen c (128 * l) 128), codeSeen c l))
  else none

/-- Free lines of the ring (R311). -/
def inboxFree (c : Core) : Nat := c.sys.inboxSize - (c.sys.inboxRes + 2 ^ 32 - c.sys.inboxCons) % 2 ^ 32

/-- Take a message off a core's list. -/
def dropMsg (s : State) (dst src seq : Nat) : State :=
  let c := s.core dst
  s.setCore dst { c with msgs := c.msgs.filter fun m => !(decide (m.srcCore = src) && decide (m.srcSeq = seq)) }

/-- Change a message. -/
def onMsg (s : State) (dst src seq : Nat) (f : MsgIn → MsgIn) : State :=
  let c := s.core dst
  s.setCore dst { c with msgs := c.msgs.map fun m => if m.srcCore = src ∧ m.srcSeq = seq then f m else m }

/-- Does a core run a task? -/
def runsTask (c : Core) : Bool := decide (c.life ≠ .idle)

/-- A message that can never land (R314). -/
def inboxOverflow (s : State) (dst : Nat) (m : MsgIn) : State :=
  let s := dropMsg s dst m.srcCore m.srcSeq
  let n := if runsTask (s.core dst) then dst else m.srcCore
  finishWord (raiseAsync s n causeInbox 3 (BitVec.ofNat 64 m.src) 0) m.srcCore m.srcSeq

/-- MESSAGE_ARRIVAL (R311, R312, R314): the lines are read, and the message takes its place among those that wait; a timed
one that finds no room lands when room frees. -/
def execMessageArrival (s : State) : Ans :=
  match workDue s (fun it => match it with
    | .arrive .. => true
    | _ => false) with
  | some (i, .arrive dst src seq) =>
    let s := s.dropWork i
    match msgOf (s.core dst) src seq, cmdOf s src 3 seq with
    | some m, some cm =>
      match linRead s src (msendLines cm.e) with
      | none => .next (violateCore (dropCmd (dropMsg s dst src seq) src 3 seq) src 3 (cap cm.e 0))
      | some (s, ls) =>
        let code := maxCodes (ls.map (·.2))
        let s := if m.lines.isEmpty then s.setCore src (countEv (s.core src) 0x14 (msgSize m)) else s
        let r := s.core dst
        if r.sys.inboxSize < msgSize m then .next (inboxOverflow s dst m)
        else
          let room := decide (msgSize m ≤ inboxFree r) && !(r.msgs.any fun x => x.arrived && !x.reserved)
          let m := { m with
            arrived := true, due := if room then m.due else none
            header := m.header ||| (code.setWidth 128 <<< 13)
            lines := ls.map fun x => ⟨0, x.1, BitVec.allOnes 128, x.2, 0⟩ }
          let s := dropMsg s dst src seq
          .next (s.setCore dst { s.core dst with msgs := (s.core dst).msgs ++ [m] })
    | _, _ => .next (dropMsg s dst src seq)
  | _ => .next s

/-- The journal entry of a message: its sender's word, its receiver's task (R265). -/
def msgKey (s : State) (dst : Nat) (m : MsgIn) : Jrn :=
  jrnKey s m.srcCore 0 2 3 m.srcSeq 0 (s.core dst).task.index.toNat

/-- The context of a message's sender, where it has recovery. -/
def msgCtx (s : State) (m : MsgIn) : Option Nat :=
  let a := (s.core m.srcCore).sys.casid
  if (ctxOf s a).st = 0 then none else some a

/-- How the message stands to the journal that is replayed (R268). -/
def msgTurn (s : State) (dst : Nat) (m : MsgIn) : RPos :=
  match msgCtx s m with
  | some a => replayPos s a (msgKey s dst m)
  | none => .live

/-- The next message that may reserve at a core: the earliest that has arrived, as its room and the replay allow (R268,
R311). -/
def reserveDue (s : State) (dst : Nat) : Option MsgIn :=
  let c := s.core dst
  match c.msgs.find? fun m => m.arrived && !m.reserved && decide (msgTurn s dst m ≠ .later) with
  | some m => if msgSize m ≤ inboxFree c then some m else none
  | none => none

/-- MESSAGE_RESERVE (R311, R312) at core `cur`: ring positions are reserved; a message that is not timed lands within the 3,400
cycles of R312, of which its arrival may have taken 1,000 and its banks 130. A message that the journal has no room for raises
LOG_FULL at its sender and is not applied (R264). -/
def execMessageReserve (s : State) : Ans :=
  let dst := s.cur
  match reserveDue s dst with
  | none => .next s
  | some m =>
    let full := match msgCtx s m with
      | some a => jrnFull s a
      | none => false
    if full then
      let a := (s.core m.srcCore).sys.casid
      .next (logFull (setFull (dropMsg s dst m.srcCore m.srcSeq) a) m.srcCore 3 m.srcSeq a)
    else
      let s := match msgCtx s m, msgTurn s dst m with
        | some a, .next e => (replayTake s a e).onCmd m.srcCore 3 m.srcSeq fun x => { x with replayed := true }
        | some a, .diverged => replayDiverge s a
        | _, _ => s
      let c := s.core dst
      let s := s.setCore dst { c with sys := { c.sys with inboxRes := (c.sys.inboxRes + msgSize m) % 2 ^ 32 } }
      let s := onMsg s dst m.srcCore m.srcSeq fun x => { x with reserved := true, pos := c.sys.inboxRes }
      .next (if m.due.isSome then s else addWork s 2200 (.deliver dst m.srcCore m.srcSeq))

/-- INBOXPROD passes every leading message whose lines are written; each is journaled, unless it was served from the journal, and
completes its MSEND (R265, R268, R311). -/
def passInbox (s : State) (dst : Nat) : Nat → State
  | 0 => s
  | n + 1 =>
    let c := s.core dst
    match c.msgs.find? fun m => m.reserved && m.written && decide (m.pos = c.sys.inboxProd) with
    | none => s
    | some m =>
      let s := match msgCtx s m with
        | some a => if msgReplayed s m then s else jrnAppend s a (msgKey s dst m)
        | none => s
      let s := dropMsg s dst m.srcCore m.srcSeq
      let c := s.core dst
      let s := s.setCore dst { c with sys := { c.sys with inboxProd := (c.sys.inboxProd + msgSize m) % 2 ^ 32 } }
      passInbox (if m.srcCore = dst then finishHere s dst m.srcSeq else finishWord s m.srcCore m.srcSeq) dst n

/-- The lines of a reserved message are written (R311, R312) and counted (R412). -/
def landMsg (s : State) (dst : Nat) (m : MsgIn) (row : Nat) : State :=
  let s := s.setCore dst (countEv (writeLines (s.core dst) s.time s.cyc ⟨if m.due.isSome then 1 else 0, 4, 0⟩ row (msgWrites (s.core dst) m)) 0x15 (msgSize m))
  let s := onMsg s dst m.srcCore m.srcSeq fun x => { x with written := true }
  passInbox s dst (s.core dst).msgs.length

/-- MESSAGE_LANDING (R311, R312). -/
def execMessageLanding (s : State) : Ans :=
  match workDue s (fun it => match it with
    | .deliver .. => true
    | _ => false) with
  | some (i, .deliver dst src seq) =>
    let s := s.dropWork i
    match msgOf (s.core dst) src seq with
    | some m => if m.written then .next s else .next (landMsg s dst m 16)
    | none => .next s
  | _ => .next s

/-- A timed message whose fc has come at a core (R312). -/
def timedMsg (c : Core) : Option MsgIn :=
  c.msgs.find? fun m => m.reserved && !m.written && (match m.due with
    | some d => decide (d ≤ c.fc)
    | none => false)

/-- TIMED_MESSAGE_LANDING (R19, R312) at core `cur`, in the fc due. Earlier messages of its sender that have their place in the ring and have
not landed, whose time is their own, land before it (R311). -/
def execTimedMessageLanding (s : State) : Ans :=
  match timedMsg s.me with
  | some m =>
    let before := (s.me.msgs.takeWhile fun x => decide (x ≠ m)).filter fun x => decide (x.srcCore = m.srcCore) && x.reserved && !x.written
    .next (landMsg (before.foldl (fun s x => landMsg s s.cur x 16) s) s.cur m 11)
  | none => .next s

/-- MRECV acquires the message at the head of the ring: the scalar accesses that follow observe its lines (R281, R315). -/
def acquireMsg (c : Core) : Core :=
  let size := max 1 c.sys.inboxSize
  let head := c.sys.inboxBase / 128 + c.sys.inboxCons % size
  let n := scBytes c (128 * head + 1) 1 % 32 + 2
  let lines := (List.range n).map fun k => c.sys.inboxBase / 128 + (c.sys.inboxCons + k) % 2 ^ 32 % size
  { c with sp := { c.sp with erace := c.sp.erace.filter fun e => !lines.contains (e.1 / 16) } }

/-- Start of the message at the head of the ring (R315). -/
def inboxHead (c : Core) : Nat := c.sys.inboxBase + 128 * (c.sys.inboxCons % max 1 c.sys.inboxSize)

/-- The PC of an `MRECV` that has freed its message and was taken out of its wait by a cut: of the handler while one runs. -/
def freedAt (c : Core) : Option (BitVec 32) := if c.sys.inh then c.seq.freedH else c.seq.freed

/-- Does an MRECV free a message now (R315): with FREE, and only once, before its wait (log entry 59)? -/
def mrecvFrees (o : MrecvOp) (c : Core) : Bool := c.seq.wait.isNone && decide (o.free = 1) && decide (freedAt c ≠ some c.seq.pc)

/-- MRECV (R315): FREE acts once, before the wait; a word that a cut has taken out of its wait does not free again (R303, log entry
59). -/
def execMrecv (o : MrecvOp) (s : State) : Ans :=
  let s := if o.poll = 1 then s else inWait s
  let c := s.me
  let empty (c : Core) : Bool := decide (c.sys.inboxProd = c.sys.inboxCons)
  let first := mrecvFrees o c
  if first && empty c then illegalAt s 5 (wordOf (.mrecv o))
  else
    let c := if first then
        (let c := touchRead c s.cyc (inboxHead c + 1) 1
         { c with sys := { c.sys with inboxCons := (c.sys.inboxCons + scBytes c (inboxHead c + 1) 1 % 32 + 2) % 2 ^ 32 } }) else c
    let s := s.setCore s.cur c
    if empty c then
      if o.poll = 1 then writeNext s o.sd (BitVec.allOnes 64) 2
      else
        let pc := if o.free = 1 then some c.seq.pc else freedAt c
        waitOn (s.setCore s.cur (if c.sys.inh then { c with seq := { c.seq with freedH := pc } } else { c with seq := { c.seq with freed := pc } }))
          (.mrecv o)
    else writeNext (s.setCore s.cur (acquireMsg c)) o.sd (BitVec.ofNat 64 (inboxHead c)) 2

/-- MPEEK (R316). -/
def execMpeek (o : DestOp) (s : State) : Ans :=
  let c := s.me
  writeNext s o.sd (BitVec.ofNat 64 ((c.sys.inboxProd + 2 ^ 32 - c.sys.inboxCons) % 2 ^ 32 + inboxFree c % 2 ^ 32 * 2 ^ 32)) 1

/-- A repetition has landed: its lines are written as copy landings. -/
def landRep (s : State) (n q seq : Nat) (r : RepState) (row : Nat) (ws : List LineWrite) : State :=
  let s := s.setCore n (writeLines (s.core n) s.time s.cyc ⟨2, q, seq⟩ row ws)
  s.onCmd n q seq fun m => { m with reps := m.reps.map fun x => if x.j = r.j then { x with done := true } else x }

/-- UNTIMED_LANDING (R240, R242, R245, R247): the repetition's lines are written, but for the bytes that a later repetition of the
word has written already; under SEM k is posted with it. -/
def execUntimedLanding (s : State) : Ans :=
  match workDue s (fun it => match it with
    | .landing .. => true
    | _ => false) with
  | some (i, .landing n q seq rep) =>
    let s := s.dropWork i
    match cmdOf s n q seq with
    | none => .next s
    | some m =>
      match m.reps.find? fun r => decide (r.j = rep) with
      | none => .next s
      | some r =>
        let later := m.reps.filter fun x => decide (rep < x.j) && x.done
        let ws := (repLines (s.core n) m.e r).map fun w => { w with
          mask := w.mask &&& ~~~ (later.foldl (fun k x => (repLines (s.core n) m.e x).foldl (fun k y =>
            if y.line = w.line then k ||| y.mask else k) k) 0) }
        let s := landRep s n q seq r 16 ws
        let s := match copySem m.e.i with
          | some k => s.setCore n (semPostNow (s.core n) k)
          | none => s
        .next (reapCmd s n q seq)
  | _ => .next s

/-- The policy of a timed copy (R234): MARK or HOLD. -/
def isMark (e : QEntry) : Bool := e.slot.getLsbD 2

/-- The journal key of a repetition's LATE event (R265). -/
def lateKey (s : State) (n : Nat) (e : QEntry) (j : Nat) : Jrn := jrnKey s n 0 3 2 e.seq j 0

/-- In REPLAY a MARK repetition is LATE when the journal says so, and is held otherwise (R268). -/
def replayLate (s : State) (n : Nat) (e : QEntry) (j : Nat) : Option Bool :=
  let a := (s.core n).sys.casid
  if (ctxOf s a).st ≠ 6 then none
  else some ((ctxOf s a).replay.any fun x => jrnSame x (lateKey s n e j) && decide (fieldOf x.bits 160 32 = j))

/-- Must the counter wait for the repetition (R237, R268)? -/
def repHolds (s : State) (n : Nat) (e : QEntry) (r : RepState) : Bool :=
  !r.complete && (!isMark e || (match replayLate s n e r.j with
    | some late => !late
    | none => false))

/-- A timed repetition whose promised fc has come, in the order of R236. -/
def timedDue (s : State) (n : Nat) : Option (Cmd × RepState) :=
  let c := s.core n
  let all := c.cmds.flatMap fun m => if isTimed m.e.i then (m.reps.filter fun r => !r.done && decide (r.p ≤ c.fc)).map fun r => (m, r)
    else []
  match all with
  | [] => none
  | x :: t => some (t.foldl (fun a b => if b.2.p < a.2.p then b else a) x)

/-- Zeros with code LATE over the footprint of a repetition (R238). -/
def lateLines (c : Core) (e : QEntry) (r : RepState) : List LineWrite :=
  (repLines c e r).map fun w => { w with data := 0, code := 1, keep := 0 }

/-- The slot that a timed copy names notes a LATE event (R234, R235). -/
def slotLate (c : Core) (i : Instr) : Core :=
  match slotReg i with
  | some n =>
    let l := mapGet 0 c.sys.lslot n.toNat
    let cnt := fieldOf l 41 12
    let l := setField (setField l 40 1 1) 41 12 (if cnt < 4095 then cnt + 1 else cnt)
    { c with sys := { c.sys with lslot := mapSet 0 c.sys.lslot n.toNat l } }
  | none => c

/-- TIMED_LANDING (R236 to R238) at core `cur`: a complete repetition is written in its fc; under MARK an incomplete one is
written as zeros with code LATE, and its data is discarded whenever it arrives. -/
def execTimedLanding (s : State) : Ans :=
  let n := s.cur
  match timedDue s n with
  | none => .next s
  | some (m, r) =>
    if r.complete && replayLate s n m.e r.j ≠ some true then
      .next (reapCmd (landRep s n 2 m.e.seq r 8 (repLines (s.core n) m.e r)) n 2 m.e.seq)
    else
      let a := (s.core n).sys.casid
      let key := lateKey s n m.e r.j
      let s1 := landRep s n 2 m.e.seq r 8 (lateLines (s.core n) m.e r)
      let s1 := s1.setCore n (countEv (slotLate (psumSet (s1.core n) 1) m.e.i) 0x1A 1)
      let s1 := match replayLate s n m.e r.j with
        | some true => match (ctxOf s1 a).replay.find? fun x => jrnSame x key && decide (fieldOf x.bits 160 32 = r.j) with
          | some e => replayTake s1 a e
          | none => s1
        | _ => match journal s1 a key with
          | some s2 => s2
          | none => setFull (raiseAsync s1 n causeLogFull 2 (BitVec.ofNat 64 a) (BitVec.ofNat 64 m.e.seq)) a
      .next (reapCmd s1 n 2 m.e.seq)

end Sys2Proof.Machine
end

