-- ==== Sys2Proof/Machine/Collective.lean ====
section
/-! DEFINITION. Collectives (14 R363 to R376): what leaves a core when its release set is performed, contributions at the
receive spools, the barrier and its verdict, and the completion of collective words. -/

namespace Sys2Proof.Machine

/-- Where a walk for a spool fails (R388, R392): whether the page owner table refuses it, and the address. -/
abbrev SpoolErr := Bool × Nat

/-- The receive spool of a local rank (R363, R364): its handle record; one that is uncorrectable fails as a table entry does (R388; log
entry 66). -/
def rspool (s : State) (g rank : Nat) : State × Except SpoolErr (BitVec 512) :=
  let e := groupEntry s g
  let va := fieldOf e 112 48 + 64 * rank
  match devFetch s (grpAsid e) (grpTenant e) 2 va 64 with
  | (s, .bytes v false _) => (s, .ok (BitVec.ofNat 512 v))
  | (s, .owner) => (s, .error (true, va))
  | (s, _) => (s, .error (false, va))

/-- The context and address of line `l` of the area that source `src` holds in the slot of instance `tag` (R364): those of the handle's
view. -/
def spoolLine (s : State) (g rank src tag l : Nat) : State × Except SpoolErr (Nat × Nat) :=
  let e := groupEntry s g
  match rspool s g rank with
  | (s, .ok h) => (s, .ok (hAsid h, hBase h + 128 * (l + 641 * src + 641 * grpN e * (tag % grpSlots e))))
  | (s, .error x) => (s, .error x)

/-- The hub link engine writes one line of a spool; the answer says where its walk fails. -/
def putSpoolLine (s : State) (g rank src tag l : Nat) (d : BitVec 1024) : State × Option SpoolErr :=
  match spoolLine s g rank src tag l with
  | (s, .error x) => (s, some x)
  | (s, .ok (asid, va)) =>
    match devPutGran s 256 asid va (grpTenant (groupEntry s g)) d with
    | (s, .owner) => (s, some (true, va))
    | (s, .fault) => (s, some (false, va))
    | (s, _) => (s, none)

/-- It writes several lines, to the first that fails. -/
def putSpoolLines (s : State) (g rank src tag : Nat) : List (Nat × BitVec 1024) → State × Option SpoolErr
  | [] => (s, none)
  | x :: t =>
    match putSpoolLine s g rank src tag x.1 x.2 with
    | (s, none) => putSpoolLines s g rank src tag t
    | r => r

/-- One line of a spool as the hub reads it (R253 to R256), ERROR where it is uncorrectable, and whether it was corrected. -/
def getSpoolLine (s : State) (g rank src tag l : Nat) : State × Except SpoolErr (BitVec 1024 × BitVec 2 × Bool) :=
  match spoolLine s g rank src tag l with
  | (s, .error x) => (s, .error x)
  | (s, .ok (asid, va)) =>
    match devFetch s asid (grpTenant (groupEntry s g)) 2 va 128 with
    | (s, .bytes v bad corr) => (s, .ok (BitVec.ofNat 1024 v, if bad then 3 else 0, corr))
    | (s, .owner) => (s, .error (true, va))
    | (s, .fault) => (s, .error (false, va))

/-- Several lines of a spool, in order, to the first that fails. -/
def getSpoolLines (s : State) (g rank src tag : Nat) : List Nat → State × Except SpoolErr (List (BitVec 1024 × BitVec 2 × Bool))
  | [] => (s, .ok [])
  | l :: t =>
    match getSpoolLine s g rank src tag l with
    | (s, .error x) => (s, .error x)
    | (s, .ok y) =>
      match getSpoolLines s g rank src tag t with
      | (s, .ok ys) => (s, .ok (y :: ys))
      | x => x

/-- A word's access to a spool fails (R36, R388, R392): TRANSLATION, or an OWNER violation, of its core. -/
def spoolFails (s : State) (c seq : Nat) (x : SpoolErr) : State :=
  if x.1 then violateCmd s c 3 seq (BitVec.ofNat 64 x.2) else raiseCmd s c 3 seq causeTranslation (BitVec.ofNat 64 x.2)

/-- Corrected granules among the lines that a word reads charge its launch, each (R255). -/
def chargeLines (s : State) (c : Nat) (m : Cmd) (ys : List (BitVec 1024 × BitVec 2 × Bool)) : State :=
  (ys.filter (·.2.2)).foldl (fun s _ => chargeCorrected s c m) s

/-- The first line of a part: send, agree, reduce (R364). -/
def partBase (p : Nat) : Nat := if p = 0 then 0 else if p = 1 then 512 else 576

/-- The barrier record of an instance on this device. -/
def barOf (s : State) (g tag : Nat) : Option Barrier := s.links.bars.find? fun b => decide (b.group = g) && decide (b.tag = tag)

/-- Replace the barrier record of an instance. -/
def State.setBar (s : State) (b : Barrier) : State :=
  { s with links := { s.links with
    bars := (s.links.bars.filter fun x => !(decide (x.group = b.group) && decide (x.tag = b.tag))) ++ [b] } }

/-- The verdict that the hub of a local rank holds (R372, R373): the ranks missing. -/
def verdictAt (s : State) (g tag : Nat) : Option (List Nat) :=
  match barOf s g tag with
  | some b => if b.seen.isEmpty then none else b.verdict
  | none => none

/-- The local ranks of a group. -/
def localRanks (s : State) (g : Nat) : List Nat :=
  let e := groupEntry s g
  (List.range (grpN e)).filter fun r => decide (routeOf s e r = none)

/-- An arrival at the coordinator (R372): the first arrival's deadline counts, in µs; the last arrival gives ALL. -/
def barArrive (s : State) (g tag rank deadline : Nat) : State :=
  let e := groupEntry s g
  let lost := s.links.bars.any fun b => decide (b.group = g) && decide (b.tag % grpSlots e = tag % grpSlots e) && decide (tag < b.tag)
  let b := match barOf s g tag with
    | some b => b
    | none => ⟨g, tag, [], if deadline = 0 then none else some (s.time + 1000 * deadline), none, []⟩
  if (barOf s g tag).isNone && lost then s
  else
    let a := if b.arrived.contains rank then b.arrived else b.arrived ++ [rank]
    let v := if b.verdict.isNone && decide (a.length = grpN e) then some [] else b.verdict
    let s := { s with links := { s.links with bars := s.links.bars.filter fun x =>
      !(decide (x.group = g) && decide (x.tag % grpSlots e = tag % grpSlots e) && decide (x.tag < tag) && x.verdict.isSome) } }
    s.setBar { b with arrived := a, verdict := v }

/-- Port `n`. -/
def portOf (s : State) (n : Nat) : Port := mapGet Port.zero s.links.ports n

/-- Replace port `n`; `PORTEN` follows its state and `PORTWIDE` its width, with one more change of the inventory (R40, R359). -/
def State.setPort (s : State) (n : Nat) (p : Port) : State :=
  let old := portOf s n
  let s := { s with links := { s.links with ports := mapSet Port.zero s.links.ports n p } }
  let en (q : Port) : Nat := if q.st = 3 then 1 else 0
  let wd (q : Port) : Nat := if q.wide then 1 else 0
  if en old = en p ∧ wd old = wd p then s
  else bumpInv { s with plat := { s.plat with inv := setField (setField s.plat.inv (64 + n) 1 (en p)) (80 + n) 1 (wd p) } }

/-- Add one to a number that holds at its maximum. -/
def holdInc (v bits : Nat) : Nat := if v + 1 < 2 ^ bits then v + 1 else v

/-- The port over which rank `src` of a group reaches this device. -/
def fromPort (s : State) (g src : Nat) : Option Nat := routeOf s (groupEntry s g) src

/-- Discard what arrived over a port and waits at the hub (R359, R360): for one tenant, or for all. -/
def dropArrived (s : State) (port : Nat) (tenant : Option Nat) : State :=
  { s with work := s.work.filter fun x => match x.2 with
    | .contrib m => !(m.core.isNone && decide (fromPort s m.group m.src = some port) && (match tenant with
        | some t => decide (grpTenant (groupEntry s m.group) = t)
        | none => true))
    | _ => true }

/-- Is a collective word one that a port carries (R360, R368)? -/
def carriedBy (s : State) (port : Nat) (m : Cmd) : Bool :=
  let d := cap m.e 0
  let g := groupEntry s (cdGroup d)
  (collWord m.e.i).isSome && !(decide (m.old = 1)) && match m.e.i with
    | .csend _ => decide (routeOf s g (cdPeer d) = some port)
    | .crecv _ => false
    | .cbar _ => !g.getLsbD 30 && decide (fieldOf g 33 4 = port)
    | _ => (List.range (grpN g)).any fun r => decide (routeOf s g r = some port)

/-- Drop what a closed port or stream carried for a tenant (R360, R368): contributions on their way out, and the collective words, those of
saved tasks among them. -/
def dropCarried (s : State) (port : Nat) (tenant : Option Nat) : State :=
  let of (t : Nat) : Bool := tenant.all fun x => decide (x = t)
  let s := { s with work := s.work.filter fun x => match x.2 with
    | .contrib m => !(decide (routeOf s (groupEntry s m.group) m.dst = some port) && of (grpTenant (groupEntry s m.group)))
    | _ => true }
  let words := s.cores.flatMap fun e => if of e.2.sys.tenant then (e.2.cmds.filter (carriedBy s port)).map fun m => (e.1, m.e.seq) else []
  let kept := s.sched.saved.flatMap fun e => if of e.2.sys.tenant then (e.2.cmds.filter (carriedBy s port)).map fun m => (e.1, m.e.seq) else []
  let s := words.foldl (fun s w => dropColl (dropItems s w.1 3 w.2) w.1 w.2) s
  kept.foldl (fun s w => savedDone s w.1 w.2 true) s

/-- A stream closes at this end (R360); it counts, also where the stream is unbound already, and may be bound again only under new keys. -/
def closeStream (s : State) (n stream : Nat) : State :=
  let p := portOf s n
  let s := s.setPort n { p with strcl := holdInc p.strcl 16 }
  let s := { s with links := { s.links with shut := mapSet false s.links.shut (1024 * n + stream) true } }
  match s.links.streams.find? fun e => e.1 = 1024 * n + stream with
  | none => s
  | some (k, b) =>
    let s := dropCarried (dropArrived s n (some b.tenant)) n (some b.tenant)
    { s with links := { s.links with streams := mapDel s.links.streams k } }

/-- A violation by the peer of a stream (R36, R37): the record with the group, a roll call of the port's hub, the stream closes. -/
def peerViolation (s : State) (n stream tenant where_ : Nat) : State :=
  let s := { s with thim := { s.thim with viols := s.thim.viols ++ [⟨causeOwner, 512 + n, tenant, BitVec.ofNat 64 where_, s.time⟩] } }
  closeStream (rollCall s 3 [] [n / 4]) n stream

/-- A secret of `n` words that SPDM has agreed on: the spec derives it from nothing it holds, so it is free (log entry 1). -/
def State.drawKey (s : State) (n : Nat) : Nat × State :=
  (joinNat 64 ((List.range n).map fun i => (Config.freeValue 12 (s.free * 64 + i)).toNat), { s with free := s.free + 1 })

/-- The key of a direction of link stream `k` (R362): 32 bytes of HKDF-Expand from the session's secret over the label, the stream
and the direction (log entry 142). -/
def linkKey (secret k dir : Nat) : Nat :=
  let label := [0x53, 0x4B, 0x31, 0x36, 0x31, 0x30, 0x20, 0x6D, 0x6F, 0x6C, 0x70, 0x6F, 0x6C]
  hkdf384 secret 16 (bytesVal (label ++ bytesOf 2 (k % 1024) ++ [dir])) % 2 ^ 256

/-- A stream begins under the keys of its port's session: its counters start at 0 (R362). -/
def keyedStream (s : State) (k : Nat) (b : LStream) : LStream :=
  let x := (portOf s (k / 1024)).secret
  { b with fin := 0, fout := 0, key0 := linkKey x k 0, key1 := linkKey x k 1 }

/-- SPDM `KEY_UPDATE` of a port's session (R362): every stream is keyed again under a new secret, its counters start at 0, and streams that
have closed may be bound again. -/
def rekey (s : State) (n : Nat) : State :=
  let (x, s) := s.drawKey 6
  let s := s.setPort n { portOf s n with secret := x }
  { s with links := { s.links with
    streams := s.links.streams.map fun e => if e.1 / 1024 = n then (e.1, keyedStream s e.1 e.2) else e
    shut := s.links.shut.filter fun e => e.1 / 1024 ≠ n } }

/-- A stream of port `n` whose `FSEQ` has reached 2^40 in a direction has its session keyed again (R362). -/
def rekeyDue (s : State) (n : Nat) : State :=
  if s.links.streams.any fun e => decide (e.1 / 1024 = n) && decide (2 ^ 40 ≤ e.2.fin ∨ 2 ^ 40 ≤ e.2.fout) then rekey s n else s

/-- A word of core `c` leaves on a stream (R358, R421): in how many flits it travels the spec does not say, so the number is
free (log entry 1); the stream's counter, the port's payload bytes and the owner's ULINK advance. -/
def countOut (s : State) (k : Nat) (c : Option Nat) : State :=
  let (n, s) := s.draw 8 65536
  let s := { s with links := { s.links with streams := s.links.streams.map fun e =>
    if e.1 = k then (e.1, { e.2 with fout := e.2.fout + (n + 1) }) else e } }
  let s := rekeyDue (addUsage s (352 + 2 * (k / 1024)) (240 * (n + 1))) (k / 1024)
  match c with
  | some c => charge s c 3 (240 * (n + 1))
  | none => s

/-- The journaled verdict of a CBAR in REPLAY (R268): the ranks marked, none where the journal has no entry of it. -/
def replayBar (s : State) (n : Nat) (e : QEntry) : Option (List Nat × List Jrn) :=
  let c := ctxOf s (s.core n).sys.casid
  if c.st ≠ 6 then none
  else
    let es := c.replay.filter fun x => jrnSame x (jrnKey s n 0 4 3 e.seq 0 0)
    some ((es.flatMap fun x =>
      ((List.range 64).filter fun r => (fieldOf x.bits 192 64).testBit r).map fun r => 64 * fieldOf x.bits 160 32 + r), es)

/-- A CBAR reaches its coordinator (R372): here, or over the port toward it. -/
def cbarLeaves (s : State) (n : Nat) (m : Cmd) : State :=
  let d := cap m.e 0
  let g := cdGroup d
  let e := groupEntry s g
  let s := s.onCmd n 3 m.e.seq fun m => { m with sent := true, parked := true }
  let s := match replayBar s n m.e with
    | some (_, es) => s.onCmd n 3 m.e.seq fun m => { m with replayed := true, code := if es.isEmpty then 0 else 1 }
    | none => s
  match replayBar s n m.e with
  | some (_, []) =>
    if e.getLsbD 30 then barArrive s g (cdTag d) (cdRank d) 0
    else match streamOf s (fieldOf e 33 4) (grpTenant e) with
      | some k => countOut s k (some n)
      | none => dropColl s n m.e.seq
  | some (missing, es) =>
    let b : Barrier := match barOf s g (cdTag d) with
      | some b => b
      | none => ⟨g, cdTag d, [], none, none, []⟩
    es.foldl (fun s x => replayTake s (s.core n).sys.casid x) (s.setBar { b with verdict := some missing })
  | none =>
    if e.getLsbD 30 then barArrive s g (cdTag d) (cdRank d) ((cap m.e 1).toNat % 2 ^ 32)
    else match streamOf s (fieldOf e 33 4) (grpTenant e) with
      | some k => countOut s k (some n)
      | none => dropColl s n m.e.seq

/-- A CAGREE or CREDX sends its lines to every rank, its own among them (R370, R371). -/
def linesLeave (s : State) (n : Nat) (m : Cmd) (part : Nat) : State :=
  let g := groupEntry s (cdGroup (cap m.e 0))
  contribute s n m.e.seq part (128 * m.data.length) (List.range (grpN g)) (m.data.map fun w => (w.data, w.code))

/-- Is the work the read of a CAGREE's or CREDX's lines? -/
def isLin : Item → Bool
  | .lin .. => true
  | _ => false

/-- A CAGREE or CREDX reads its lines (R290, R370, R371); a line of another tenant is an OWNER violation (R225). The word then waits for its
release set. -/
def linTurn (s : State) : Option State :=
  match workDue s isLin with
  | some (i, .lin n seq) =>
    match cmdOf s n 3 seq with
    | none => some (s.dropWork i)
    | some m =>
      match linRead s n (collLines m.e) with
      | none => some (violateCore (dropCmd s n 3 seq) n 3 (cap m.e 1))
      | some (s, ls) =>
        let ws := ((collLines m.e).zip ls).map fun x => (⟨x.1, x.2.1, BitVec.allOnes 128, x.2.2, 0⟩ : LineWrite)
        let s := s.onCmd n 3 seq fun m => { m with data := ws }
        some { s with work := s.work.set i (s.cyc, .release n 3 seq) }
  | _ => none

/-- A CSEND begins its reads (R368), which take the place of the work at `i` (R277); a view without bytes leaves at once. -/
def csendReads (s : State) (i n : Nat) (m : Cmd) : State :=
  let gs := csendGranules m.e.h.bits
  if gs.isEmpty then contribute (s.dropWork i) n m.e.seq 0 0 [cdPeer (cap m.e 0)] []
  else s.swapItems i (wordBound s n m.e) (gs.map fun g => .read n 3 m.e.seq 0 g)

/-- RELEASE_SET_PERFORMED (R280, R311, R367): a held word leaves its core. -/
def execReleaseSetPerformed (s : State) : Ans :=
  match workDue s isRelItem with
  | some (i, .release n q seq) =>
    match cmdOf s n q seq with
    | none => .next (s.dropWork i)
    | some m =>
      let b := wordBound s n m.e
      let s := s.onCmd n q seq fun m => { m with released := true, left := s.cyc, till := s.cyc + b + answerBound }
      match m.e.i with
      | .amo _ | .acas _ | .ared _ => .next (atomLeaves (s.swapItems i b (atomItems n seq m.e.i)) n seq m.e.i)
      | .msend _ =>
        let dst := msendDst s (s.core n) m.e
        .next (s.swapWork i (if dst / 8 = n / 8 ∧ s.isSplit n = false then 1 else 1000) (.arrive dst n seq))
      | .csend _ => .next (csendReads s i n m)
      | .cagree _ => .next (linesLeave (s.dropWork i) n m 1)
      | .credx _ => .next (linesLeave (s.dropWork i) n m 2)
      | .cbar _ => .next (cbarLeaves (s.dropWork i) n m)
      | _ => .next (s.dropWork i)
  | _ => .next s

/-- The word that made a contribution has had its effect: a CSEND completes (R368, R374), with DL once the verdict is there (R373); that
of a saved task after resumption (R376). -/
def contribDone (s : State) (m : CMove) : State :=
  match m.core with
  | some (c, seq) =>
    if m.part ≠ 0 then s
    else if c < 256 then
      match cmdOf s c 3 seq with
      | some w => if cdDl (cap w.e 0) ∧ (verdictAt s m.group m.tag).isNone = true then s.onCmd c 3 seq fun m => { m with old := 1 }
        else finishWord s c seq
      | none => s
    else savedDone s (c - 256) seq false
  | none => s

/-- A contribution is put into its slot (R364): the first of its part alone; memory, the status line last, then the codes. One with a line
whose walk fails is not. -/
def storeContrib (s : State) (m : CMove) : State × Option SpoolErr :=
  let x0 := slotOf s m.group m.dst m.tag
  let x : CSlot := if x0.full ∧ x0.tag = m.tag then x0 else { CSlot.zero with tag := m.tag, full := true }
  if m.src = m.dst ∧ m.part ≠ 0 then
    (s.setSlot m.group m.dst m.tag (if m.part = 1 then (if x.ownA.isEmpty then { x with ownA := m.lines } else x)
      else if x.ownR.isEmpty then { x with ownR := m.lines } else x), none)
  else
    let k := mapGet ⟨0, 0, [], false⟩ x.src m.src
    if k.parts.getLsbD m.part then (s, none)
    else
      let b := partBase m.part
      let codes := m.lines.zipIdx.foldl (fun c l => mapSet 0 c (b + l.2) l.1.2) k.codes
      let k : Contrib := ⟨k.parts ||| (1#3 <<< m.part), if m.part = 0 then m.bytes else k.bytes, codes, k.used⟩
      let status := BitVec.ofNat 1024 (m.tag % 2 ^ 32 + k.parts.toNat * 2 ^ 32 + k.bytes % 2 ^ 17 * 2 ^ 35)
      match putSpoolLines s m.group m.dst m.src m.tag ((m.lines.zipIdx.map fun l => (b + l.2, l.1.1)) ++ [(640, status)]) with
      | (s, none) => (s.setSlot m.group m.dst m.tag { x with src := mapPut x.src m.src k }, none)
      | r => r

/-- The walk for a contribution fails (R36, R388, R392): its word's core takes the cause, or the stream of the peer that sent it closes; what
a saved or ended task sent is discarded (log entry 66). -/
def contribFails (s : State) (m : CMove) (x : SpoolErr) : State :=
  match m.core with
  | some (c, seq) => if c < 256 then spoolFails s c seq x else savedDone s (c - 256) seq false
  | none =>
    let e := groupEntry s m.group
    match (if m.lk = 0 then routeOf s e m.src else none) with
    | some p => (match streamOf s p (grpTenant e) with
      | some k => if x.1 then peerViolation s p (k % 1024) (grpTenant e) m.group else s
      | none => s)
    | none => s

/-- A CSEND of a context in REPLAY whose slot has been reused completes with LATE and sets `DIVERGED` (R374, R377). -/
def sendLost (s : State) (m : CMove) : State :=
  match m.core with
  | some (c, seq) =>
    let a := (s.core c).sys.casid
    if m.part = 0 ∧ c < 256 ∧ (ctxOf s a).st = 6 then collPsum (replayDiverge s a) c 3 seq 1 else s
  | none => s

/-- CONTRIBUTION_WRITE (R364, R368, R373, R374): stored at the rank's hub, or discarded where it is a second one, of an
earlier tag than the slot holds, or of a rank that the verdict excludes; for a remote rank it leaves over its port, and the word of a send
part completes within the bound of R465 after that, when the peer's hub has written it (log entry 64). -/
def execContributionWrite (s : State) : Ans :=
  match workDue s (fun it => match it with
    | .contrib _ => true
    | _ => false) with
  | some (i, .contrib m) =>
    let s := s.dropWork i
    let e := groupEntry s m.group
    match routeOf s e m.dst with
    | some p =>
      if m.away then .next (contribDone s m)
      else match streamOf s p (grpTenant e), m.core with
        | some k, w =>
          let s := countOut s k (w.map (·.1))
          .next (if m.part = 0 ∧ w.isSome = true then addWork s devBound (.contrib { m with lines := [], away := true }) else s)
        | none, some (c, seq) => .next (dropColl s c seq)
        | none, none => .next s
    | none =>
      let x := slotOf s m.group m.dst m.tag
      let lost := x.full && decide (m.tag < x.tag)
      let gone := lost || (match verdictAt s m.group m.tag with
        | some missing => missing.contains m.src
        | none => false)
      if gone then .next (contribDone (if lost then sendLost s m else s) m)
      else
        let s := match m.core with
          | some (c, _) => charge s c 2 (128 * m.lines.length)
          | none => s
        match storeContrib s m with
        | (s, none) => .next (contribDone s m)
        | (s, some x) => .next (contribFails s m x)
  | _ => .next s

/-- A barrier whose deadline has passed without a verdict (R372). -/
def deadlineDue (s : State) : Option Barrier :=
  s.links.bars.find? fun b => b.verdict.isNone && (match b.deadline with
    | some t => decide (t ≤ s.time)
    | none => false)

/-- CBAR_DEADLINE (R372): the verdict is MISSING with the ranks that have not arrived. -/
def execCbarDeadline (s : State) : Ans :=
  match deadlineDue s with
  | some b => .next (s.setBar { b with
      verdict := some ((List.range (grpN (groupEntry s b.group))).filter fun r => !b.arrived.contains r) })
  | none => .next s

/-- The open CBAR words of an instance that have arrived: core and command. -/
def openCbars (s : State) (g tag : Nat) : List (Nat × Cmd) :=
  s.cores.flatMap fun e => (e.2.cmds.filter fun m => m.sent && (match m.e.i with
    | .cbar _ => decide (cdGroup (cap m.e 0) = g) && decide (cdTag (cap m.e 0) = tag)
    | _ => false)).map fun m => (e.1, m)

/-- A barrier whose verdict has not reached its ranks, or has a word still to complete. -/
def verdictDue (s : State) : Option Barrier :=
  s.links.bars.find? fun b => b.verdict.isSome && (b.seen.isEmpty || !(openCbars s b.group b.tag).isEmpty)

/-- Discard the contributions of excluded ranks from a slot (R373). -/
def excludeRanks (s : State) (g rank tag : Nat) (missing : List Nat) : State :=
  let x := slotOf s g rank tag
  if x.full ∧ x.tag = tag then s.setSlot g rank tag { x with
    src := x.src.filter fun e => !missing.contains e.1
    ownA := if missing.contains rank then [] else x.ownA, ownR := if missing.contains rank then [] else x.ownR }
  else s

/-- A CBAR completes with its verdict (R265, R372): marked ranks are journaled, PSUM.LATE is set. In REPLAY only the journal marks
ranks, and an outcome served from it is not journaled again (R268). -/
def cbarDone (s : State) (n : Nat) (m : Cmd) (missing : List Nat) : State :=
  if missing.isEmpty ∨ (m.replayed ∧ m.code = 0) then finishWord s n m.e.seq
  else if m.replayed then finishWord (collPsum s n 3 m.e.seq 1) n m.e.seq
  else
    let a := (s.core n).sys.casid
    let s := collPsum s n 3 m.e.seq 1
    let groups := (missing.map (· / 64)).eraseDups
    let s := groups.foldl (fun s k =>
      let v := missing.foldl (fun v r => if r / 64 = k then v ||| 2 ^ (r % 64) else v) 0
      match journal s a (jrnKey s n 0 4 3 m.e.seq k v) with
      | some s => s
      | none => setFull (raiseCmd s n 3 m.e.seq causeLogFull (BitVec.ofNat 64 a)) a) s
    finishWord s n m.e.seq

/-- The coordinator sends the verdict to the hubs of remote ranks (R372), over each port that leads to one. -/
def verdictOut (s : State) (g : Nat) : State :=
  let e := groupEntry s g
  if e.getLsbD 30 then
    (((List.range (grpN e)).filterMap (routeOf s e)).eraseDups).foldl (fun s p => match streamOf s p (grpTenant e) with
      | some k => countOut s k none
      | none => s) s
  else s

/-- CBAR_VERDICT (R372, R373): the verdict reaches the hubs of the local ranks, and leaves for those of the remote ones; every CBAR that has
arrived completes. -/
def execCbarVerdict (s : State) : Ans :=
  match verdictDue s with
  | none => .next s
  | some b =>
    let missing := b.verdict.getD []
    let ranks := localRanks s b.group
    let s := if b.seen.isEmpty then verdictOut s b.group else s
    let s := s.setBar { b with seen := grpN (groupEntry s b.group) :: ranks }
    let s := ranks.foldl (fun s r => excludeRanks s b.group r b.tag missing) s
    .next ((openCbars s b.group b.tag).foldl (fun s x => cbarDone s x.1 x.2 missing) s)

/-- How a collective word that waits can complete. -/
inductive CollEnd where
  | wait
  | lost
  | excluded
  | full (missing : List Nat)
  deriving DecidableEq, Repr

/-- Has rank `q` contributed part `p` to a slot of rank `r`? -/
def contributed (x : CSlot) (r p q : Nat) : Bool :=
  if q = r then (if p = 1 then !x.ownA.isEmpty else !x.ownR.isEmpty)
  else (mapGet ⟨0, 0, [], false⟩ x.src q).parts.getLsbD p

/-- How the collective word stands now (R369 to R374). -/
def collEnd (s : State) (m : Cmd) : CollEnd :=
  let d := cap m.e 0
  let g := cdGroup d
  let x := slotOf s g (cdRank d) (cdTag d)
  let v := verdictAt s g (cdTag d)
  let lost := x.full && decide (cdTag d < x.tag)
  let mine := x.full && decide (x.tag = cdTag d)
  let ready (p : Nat) : CollEnd :=
    if !m.sent then .wait
    else if lost then .lost
    else if !mine then .wait
    else match cdDl d, v with
      | true, none => .wait
      | dl, v =>
        let missing := if dl then v.getD [] else []
        if (List.range (grpN (groupEntry s g))).all fun q => missing.contains q || contributed x (cdRank d) p q then .full missing
        else .wait
  match m.e.i with
  | .crecv _ =>
    if m.sent then .wait
    else if lost then .lost
    else match cdDl d, v with
      | true, none => .wait
      | true, some missing => if missing.contains (cdPeer d) then .excluded else got x d mine
      | false, _ => got x d mine
  | .cagree _ => ready 1
  | .credx _ => ready 2
  | .csend _ => if m.old = 1 ∧ (cdDl d = false ∨ v.isSome = true) then .full [] else .wait
  | .cbar _ =>
    let e := groupEntry s g
    if m.sent && (barOf s g (cdTag d)).isNone && (s.links.bars.any fun b =>
      decide (b.group = g) && decide (b.tag % grpSlots e = cdTag d % grpSlots e) && decide (cdTag d < b.tag)) then .lost else .wait
  | _ => .wait
  where
    got (x : CSlot) (d : Word) (mine : Bool) : CollEnd :=
      let k := mapGet ⟨0, 0, [], false⟩ x.src (cdPeer d)
      if mine && k.parts.getLsbD 0 && !k.used then .full [] else .wait

/-- A collective word of the core that can complete now. -/
def collDue (s : State) (n : Nat) : Option Cmd :=
  (s.core n).cmds.find? fun m => decide (collEnd s m ≠ .wait) && (m.ended.isSome || portFree (s.core n) (collLines m.e))

/-- The lines of the first collective word of core `n` whose result waits for its banks (R230, R231). -/
def collHeld (s : State) (n : Nat) : Option (List Nat) :=
  ((s.core n).cmds.find? fun m => decide (collEnd s m ≠ .wait) && m.ended.isNone && !portFree (s.core n) (collLines m.e)).map
    fun m => collLines m.e

/-- The elements of a view in element order with their bytes and codes from `n` received bytes (R369). -/
def recvElems (x : BitVec 512) (n : Nat) (byteAt : Nat → Nat) (codeAt_ : Nat → BitVec 2) : List OutElem :=
  let b := hElemBits x
  let w := viewRowBytes x
  (List.range (viewRows x)).flatMap fun t => (List.range (hExt x 0)).filterMap fun k =>
    let p := t * w + k * b / 8
    let len := min ((b + 7) / 8) (n - p)
    if n ≤ p then none
    else
      let bs := (List.range len).map fun i => byteAt (p + i)
      let v := bs.foldr (fun b n => b + 256 * n) 0
      let bit := k * b % 8
      some ⟨0, ⟨viewRowAddr x t + k * b / 8, len, bit, viewMapRow x t k, t, k, ⟨0, 0, 0⟩⟩,
        if b = 4 then v / 2 ^ bit % 16 else v, maxCodes ((List.range len).map fun i => codeAt_ (p + i))⟩

/-- Raise every map row of a view to LATE (R373). -/
def lateRows (n seq : Nat) (x : BitVec 512) : List Item :=
  if hPmap x = 0 then []
  else
    let rows := List.range (hExt x (hBdim x))
    ((rows.map (mapGranule x)).eraseDups).map fun g =>
      .write n 3 seq 0 g 0 0 0 ((rows.filter fun t => decide (mapGranule x t = g)).map fun t =>
        ((hPmap x + t / 4) % 128 * 4 + t % 4, 5))

/-- Send the writes of a CRECV on their way; without any it completes (R369). -/
def recvWrites (s : State) (n seq : Nat) (items : List Item) : State :=
  if items.isEmpty then finishWord s n seq
  else
    let b := match cmdOf s n 3 seq with
      | some m => copyBound s n (cmdAsid m) (s.core n).sys.tenant (items.flatMap itemGva)
      | none => devBound
    items.foldl (fun s it => addWork s b it)
      (s.onCmd n 3 seq fun m => { m with sent := true, parked := false, left := s.cyc, till := s.cyc + b + answerBound })

/-- A CRECV completes (R369, R373, R374). -/
def recvEnd (s : State) (n : Nat) (m : Cmd) (r : CollEnd) : State :=
  let x := m.e.h.bits
  let d := cap m.e 0
  let g := cdGroup d
  let seq := m.e.seq
  match r with
  | .lost => recvWrites (collPsum s n 3 seq 1) n seq
      (writeItems n 3 seq x (recvElems x (viewBytes x) (fun _ => 0) (fun _ => 1)) [0])
  | .excluded => recvWrites (collPsum s n 3 seq 1) n seq (lateRows n seq x)
  | .full _ =>
    let sl := slotOf s g (cdRank d) (cdTag d)
    let k := mapGet ⟨0, 0, [], false⟩ sl.src (cdPeer d)
    let len := min k.bytes (viewBytes x)
    let uneq := decide (k.bytes ≠ viewBytes x)
    match getSpoolLines s g (cdRank d) (cdPeer d) (cdTag d) (List.range ((len + 127) / 128)) with
    | (s, .error x) => spoolFails s n seq x
    | (s, .ok ys) =>
    let s := chargeLines s n m ys
    let lines := ys.zipIdx.map fun y => (y.1.1, maxCode y.1.2.1 (mapGet 0 k.codes y.2))
    let byteAt (p : Nat) : Nat := match lines[p / 128]? with
      | some y => (y.1.extractLsb' (8 * (p % 128)) 8).toNat
      | none => 0
    let codeOf (p : Nat) : BitVec 2 := match lines[p / 128]? with
      | some y => y.2
      | none => 0
    let es := recvElems x len byteAt codeOf
    let refused := es.find? fun e => (decide (hPpol x = 1) && decide (e.code ≠ 0)) || (decide (hPpol x = 2) && decide (e.code = 3))
    (match refused with
    | some e => raiseCmd s n 3 seq causePoisonStore (BitVec.ofNat 64 e.y.row)
    | none =>
      let s := s.setSlot g (cdRank d) (cdTag d) { sl with src := mapPut sl.src (cdPeer d) { k with used := true } }
      let s := if uneq then collPsum s n 3 seq 2 else s
      let es := if uneq then es.map fun e => { e with code := maxCode e.code 2 } else es
      recvWrites s n seq (writeItems n 3 seq x es [0]))
  | .wait => s

/-- The `n` lines of the contribution of rank `q` to a part: its own, or those in the spool, with their codes. -/
def partLines (s : State) (c : Nat) (m : Cmd) (x : CSlot) (p n q : Nat) : State × Except SpoolErr (List (BitVec 1024 × BitVec 2)) :=
  let d := cap m.e 0
  if q = cdRank d then (s, .ok ((List.range n).map fun l => ((if p = 1 then x.ownA else x.ownR)[l]?).getD (0, 0)))
  else
    match getSpoolLines s (cdGroup d) (cdRank d) q (cdTag d) ((List.range n).map (partBase p + ·)) with
    | (s, .error x) => (s, .error x)
    | (s, .ok ys) => (chargeLines s c m ys, .ok (ys.zipIdx.map fun y =>
      (y.1.1, maxCode y.1.2.1 (mapGet 0 (mapGet ⟨0, 0, [], false⟩ x.src q).codes (partBase p + y.2)))))

/-- The contributions of several ranks to a part, to the first that cannot be read. -/
def partsOf (s : State) (c : Nat) (m : Cmd) (x : CSlot) (p n : Nat) : List Nat → State × Except SpoolErr (List (List (BitVec 1024 × BitVec 2)))
  | [] => (s, .ok [])
  | q :: t =>
    match partLines s c m x p n q with
    | (s, .error x) => (s, .error x)
    | (s, .ok y) =>
      match partsOf s c m x p n t with
      | (s, .ok ys) => (s, .ok (y :: ys))
      | r => r

/-- Field of a line as a number. -/
def lineField (d : BitVec 1024) (lo len : Nat) : Nat := d.toNat / 2 ^ lo % 2 ^ len

/-- The agreed line of CAGREE (R370). -/
def agreeLine (qs : List (BitVec 1024 × BitVec 2)) (missing : Bool) : BitVec 1024 :=
  BitVec.ofNat 1024 (joinNat 32 ((List.range 32).map fun i =>
    let e : Int := qs.foldl (fun m y => max m (sintOf 16 (lineField y.1 (32 * i) 16))) (-32768)
    let c := maxCodes ((if missing then 1 else 0) :: qs.map fun y => maxCode (BitVec.ofNat 2 (lineField y.1 (32 * i + 16) 2)) y.2)
    (e % 65536).toNat + c.toNat * 2 ^ 16))

/-- One summed value of CREDX (R371): the bits, and whether it was clamped. A sum outside the INT64 range is a free value
(log entry 1). -/
def redxValue (s : State) (w64 : Bool) (k : Nat) (vs : List Nat) : Nat × Bool :=
  let sum : Int := vs.foldl (fun (t : Int) v => t + sintOf (if w64 then 64 else 32) v) 0
  if w64 then
    (if sum < -(2 ^ 63 : Int) ∨ (2 ^ 63 : Int) ≤ sum then (Config.freeValue 6 (s.free * 4096 + k)).toNat
     else (sum % (2 ^ 64 : Int)).toNat, false)
  else if sum < -(2 ^ 31 : Int) then (2 ^ 31, true)
  else if (2 ^ 31 : Int) ≤ sum then (2 ^ 31 - 1, true)
  else ((sum % (2 ^ 32 : Int)).toNat, false)

/-- The reduced line of CREDX with its code (R371). -/
def redxLine (s : State) (w64 : Bool) (l : Nat) (qs : List (BitVec 1024 × BitVec 2)) (missing : Bool) : BitVec 1024 × BitVec 2 :=
  let b := if w64 then 64 else 32
  let vs := (List.range (1024 / b)).map fun i => redxValue s w64 (32 * l + i) (qs.map fun y => lineField y.1 (b * i) b)
  (BitVec.ofNat 1024 (joinNat b (vs.map (·.1))),
    maxCodes ((if missing then 1 else 0) :: (if vs.any (·.2) then 2 else 0) :: qs.map (·.2)))

/-- The result lines of a CAGREE or CREDX are written as collective landings (R232, R370, R371); the word of a task that has ended
has no lines of its own left to write (R28; log entry 18). -/
def resultLines (s : State) (n : Nat) (m : Cmd) (ws : List (BitVec 1024 × BitVec 2)) : State :=
  let lw := ((collLines m.e).zip ws).map fun y => (⟨y.1, y.2.1, BitVec.allOnes 128, y.2.2, 2⟩ : LineWrite)
  let s := { s with free := s.free + 1 }
  finishHere (if m.ended.isSome then s else s.setCore n (writeLines (s.core n) s.time s.cyc ⟨0, 3, m.e.seq⟩ 16 lw)) n m.e.seq

/-- A CAGREE or CREDX completes. -/
def reduceEnd (s : State) (n : Nat) (m : Cmd) (p : Nat) (r : CollEnd) : State :=
  let d := cap m.e 0
  let ls := List.range (collLines m.e).length
  match r with
  | .full missing =>
    let x := slotOf s (cdGroup d) (cdRank d) (cdTag d)
    let qs := (List.range (grpN (groupEntry s (cdGroup d)))).filter fun q => !missing.contains q
    (match partsOf s n m x p ls.length qs with
    | (s, .error x) => spoolFails s n m.e.seq x
    | (s, .ok parts) => resultLines s n m (ls.map fun l =>
      let ys := parts.map fun y => y[l]?.getD (0, 3)
      if p = 1 then (agreeLine ys (!missing.isEmpty), 0) else redxLine s (cdW64 d) l ys (!missing.isEmpty)))
  | _ => resultLines s n m (ls.map fun _ => (0, 1))

/-- A word of a context in REPLAY that completes as `r`: one whose slot has gone sets `DIVERGED` (R268, R377). -/
def collReplay (s : State) (n : Nat) (r : CollEnd) : State :=
  let a := (s.core n).sys.casid
  if r = .lost ∧ (ctxOf s a).st = 6 then replayDiverge s a else s

/-- COLLECTIVE_COMPLETION (R369 to R374, R377) at core `cur`. -/
def execCollectiveCompletion (s : State) : Ans :=
  let n := s.cur
  match collDue s n with
  | none => .next s
  | some m =>
    let r := collEnd s m
    let s := collReplay s n r
    match m.e.i with
    | .crecv _ => .next (recvEnd s n m r)
    | .cagree _ => .next (reduceEnd s n m 1 r)
    | .credx _ => .next (reduceEnd s n m 2 r)
    | .csend _ => .next (finishWord s n m.e.seq)
    | _ => .next (finishWord (collPsum s n 3 m.e.seq 1) n m.e.seq)

end Sys2Proof.Machine
end

