-- ==== Sys2Proof/Machine/SystemRegs.lean ====
section
/-! DEFINITION. The system registers and the words that read and write them (08_handles_and_system_registers R206 to R212;
R122, R309, R294 for the registers with rules of their own). -/

namespace Sys2Proof.Machine

/-- A system register as read (R207). -/
def csrRead (s : State) (n : Nat) : Word :=
  let c := s.me
  let y := c.sys
  match n with
  | 0x000 => coreid c s.cur
  | 0x001 => boolWord (s.isSplit s.cur)
  | 0x002 => y.launchid.setWidth 64
  | 0x003 => BitVec.ofNat 64 y.codebase
  | 0x004 => BitVec.ofNat 64 y.codesize
  | 0x005 => y.rndseed
  | 0x006 => BitVec.ofNat 64 y.livedesc ||| (boolWord y.lvalid <<< 63)
  | 0x007 => rotWord c
  | 0x008 => c.seq.psum
  | 0x009 => c.mx.mxevt
  | 0x00A => y.wdlimit
  | 0x00B => y.wdcount
  | 0x020 => y.trapvec.setWidth 64
  | 0x021 => y.trapen
  | 0x022 => trapcauseWord c
  | 0x023 => y.info0
  | 0x024 => y.info1
  | 0x025 => y.cutpc.setWidth 64
  | 0x026 => y.cutM.setWidth 64
  | 0x027 => y.cutV.setWidth 64
  | 0x028 => y.cutC.setWidth 64
  | 0x029 => y.cutL.setWidth 64
  | 0x02A => y.scr0
  | 0x02B => y.scr1
  | 0x030 => BitVec.ofNat 64 y.inboxBase
  | 0x031 => BitVec.ofNat 64 y.inboxSize
  | 0x032 => BitVec.ofNat 64 y.inboxProd
  | 0x033 => BitVec.ofNat 64 y.inboxCons
  | 0x034 => BitVec.ofNat 64 y.replyBase
  | 0x035 => BitVec.ofNat 64 y.replySize
  | 0x036 => BitVec.ofNat 64 y.replyProd
  | 0x037 => BitVec.ofNat 64 y.replyCons
  | 0x040 => eventsWord c s.time
  | 0x041 => y.timecmp
  | k =>
    if 0x010 ≤ k ∧ k ≤ 0x017 then (lstk c ((k - 0x010) / 2)).extractLsb' (64 * (k % 2)) 64
    else if 0x050 ≤ k ∧ k ≤ 0x05F then mapGet 0 y.lslot (k - 0x050)
    else 0

/-- The causes that TRAPEN can enable (R213). -/
def trapenMask : Word := 0x00000000771F301E

/-- Has the register a field that a task may write (R206, R207)? -/
def csrWritable (n : Nat) : Bool :=
  match n with
  | 0x005 | 0x008 | 0x009 | 0x020 | 0x021 | 0x025 | 0x02A | 0x02B | 0x030 | 0x031 | 0x034 | 0x035 | 0x037 | 0x040
  | 0x041 => true
  | k => decide (0x010 ≤ k) && decide (k ≤ 0x017)

/-- The value a write, set or clear leaves in a rw register of the mask `m` (R206). -/
def csrMix (k : CsrKind) (m old x : Word) : Word :=
  match k with
  | .write => x &&& m
  | .set => (old ||| x) &&& m
  | .clear => (old &&& ~~~ x) &&& m

/-- Write, set or clear a system register without rules of its own (R206, R212, R213, R127, R182). -/
def csrWrite (k : CsrKind) (n : Nat) (x : Word) (c : Core) : Core :=
  let y := c.sys
  let w := decide (k = .write)
  match n with
  | 0x005 => { c with sys := { y with rndseed := csrMix k (BitVec.allOnes 64) y.rndseed x } }
  | 0x008 => if w then psumClear c x else c
  | 0x009 => if w then { c with mx := { c.mx with mxevt := (c.mx.mxevt &&& ~~~ (x &&& 7)) ||| c.mx.mxNew } } else c
  | 0x020 => { c with sys := { y with trapvec := (csrMix k 0xFFFFFFFF (y.trapvec.setWidth 64) x).setWidth 32 } }
  | 0x021 => { c with sys := { y with trapen := csrMix k trapenMask y.trapen x } }
  | 0x025 => { c with sys := { y with cutpc := (csrMix k 0xFFFFFFFF (y.cutpc.setWidth 64) x).setWidth 32 } }
  | 0x02A => { c with sys := { y with scr0 := csrMix k (BitVec.allOnes 64) y.scr0 x } }
  | 0x02B => { c with sys := { y with scr1 := csrMix k (BitVec.allOnes 64) y.scr1 x } }
  | 0x040 => if w && x.getLsbD 2 then { c with sys := { y with sempost := y.sempostNew } } else c
  | 0x041 => { c with sys := { y with timecmp := csrMix k (BitVec.allOnes 64) y.timecmp x, timer := false } }
  | _ => c

/-- PRIV: a write to a register with no field the task may write (R206). -/
def privAt (s : State) (n : Nat) (w : IWord) : Ans := seqTrap s causePriv (BitVec.ofNat 64 n) (wordInfo w)

/-- A writing system-register word (R206). -/
def csrOp3 (k : CsrKind) (o : CsrOp) (w : IWord) (s : State) : Ans :=
  if csrWritable o.sysno.toNat then coreNext s (csrWrite k o.sysno.toNat (getS s.me o.sa)) else privAt s o.sysno.toNat w

def execCsrr (o : CsrrOp) (s : State) : Ans := writeNext s o.sd (csrRead s o.sysno.toNat) 1
def execCsrw (o : CsrOp) (s : State) : Ans := csrOp3 .write o (wordOf (.csrw o)) s
def execCsrs (o : CsrOp) (s : State) : Ans := csrOp3 .set o (wordOf (.csrs o)) s
def execCsrc (o : CsrOp) (s : State) : Ans := csrOp3 .clear o (wordOf (.csrc o)) s

/-- The kind, source and number of the writing system-register word at decode (R78, R93). -/
def csrAtPc (s : State) : CsrKind × BitVec 6 × Nat :=
  let w := fetchWord s s.me
  let k := match (fld w 38 6).toNat with
    | 2 => CsrKind.set
    | 3 => CsrKind.clear
    | _ => CsrKind.write
  (k, fld w 26 6, (fld w 14 12).toNat)

/-- May the loop stack hold these four entries (R122)? -/
def lstkLegal (e0 e1 e2 e3 : BitVec 128) : Bool :=
  let one (e : BitVec 128) : Bool :=
    decide ((lpNr e).toNat ≤ 96) &&
      (if lpNr e = 0 then decide (lpVrb e = 0) else decide ((lpVrb e).toNat < 8 * (lpNr e).toNat))
  let chain (a b : BitVec 128) : Bool := decide (lpValid b = 0) || decide (lpValid a = 1)
  one e0 && one e1 && one e2 && one e3 && chain e0 e1 && chain e1 e2 && chain e2 e3

/-- A write to half `h` (0 low, 1 high) of an entry; reserved bits read zero (R122). -/
def lstkHalf (k : CsrKind) (e : BitVec 128) (h : Nat) (x : Word) : BitVec 128 :=
  if h = 0 then e.extractLsb' 64 64 ++ csrMix k 0x801FFFFFFFFFFFFF (e.extractLsb' 0 64) x
  else csrMix k 0x00000000FFFFFFFF (e.extractLsb' 64 64) x ++ e.extractLsb' 0 64

/-- A write to the loop stack (R122): discarded where it would leave an illegal stack. -/
def loopStackSet (k : CsrKind) (n : Nat) (x : Word) (c : Core) : Core :=
  let j := (n - 0x010) / 2
  let e := lstkHalf k (lstk c j) (n % 2) x
  let g (i : Nat) := if i = j then e else lstk c i
  if lstkLegal (g 0) (g 1) (g 2) (g 3) then setLstk c j e else c

/-- LOOP_STACK_WRITE (R122). -/
def execLoopStackWrite (s : State) : Ans :=
  let (k, sa, n) := csrAtPc s
  coreNext s fun c => loopStackSet k n (getS c sa) c

/-- A write to the inbox registers (R309). -/
def inboxSet (k : CsrKind) (n : Nat) (x : Word) (c : Core) : Core :=
    let y := c.sys
    let base := if n = 0x030 then (csrMix k 0x7FFFFF (BitVec.ofNat 64 y.inboxBase) x).toNat else y.inboxBase
    let size := if n = 0x030 then y.inboxSize else (csrMix k 0x1FFFF (BitVec.ofNat 64 y.inboxSize) x).toNat
    if base % 128 ≠ 0 ∨ spadSize < base + 128 * size ∨ y.inboxProd ≠ y.inboxCons ∨ y.inboxRes ≠ y.inboxProd then c
    else { c with sys := { y with
      inboxBase := base, inboxSize := size, inboxProd := 0, inboxCons := 0, inboxRes := 0 } }

/-- INBOX_SPOOL_WRITE (R309). -/
def execInboxSpoolWrite (s : State) : Ans :=
  let (k, sa, n) := csrAtPc s
  coreNext s fun c => inboxSet k n (getS c sa) c

/-- Is a returning atomic of the core outstanding (R294)? -/
def returningOut (c : Core) : Bool :=
  c.cmds.any (fun m => match m.e.i with
    | .amo o => decide (o.ret = 1)
    | .acas _ => true
    | _ => false)

/-- The capacity of the reply spool in entries (R293). -/
def replyCap (c : Core) : Nat := 8 * c.sys.replySize

/-- Entries in the reply spool (R293). -/
def replyUsed (c : Core) : Nat := (c.sys.replyProd + 2 ^ 32 - c.sys.replyCons) % 2 ^ 32

/-- A write to the reply registers (R294). -/
def replySet (k : CsrKind) (n : Nat) (x : Word) (c : Core) : Core :=
    let y := c.sys
    match n with
    | 0x037 =>
      let v := (csrMix k 0xFFFFFFFF (BitVec.ofNat 64 y.replyCons) x).toNat
      if replyCap c < (y.replyProd + 2 ^ 32 - v) % 2 ^ 32 then c else { c with sys := { y with replyCons := v } }
    | 0x034 =>
      if returningOut c then c
      else { c with sys := { y with
        replyBase := (csrMix k 0x7FFFFF (BitVec.ofNat 64 y.replyBase) x).toNat, replyProd := 0, replyCons := 0 } }
    | _ =>
      if returningOut c then c
      else { c with sys := { y with
        replySize := (csrMix k 0x1FFFF (BitVec.ofNat 64 y.replySize) x).toNat, replyProd := 0, replyCons := 0 } }

/-- REPLY_SPOOL_WRITE (R294). -/
def execReplySpoolWrite (s : State) : Ans :=
  let (k, sa, n) := csrAtPc s
  coreNext s fun c => replySet k n (getS c sa) c

/-- A write to any system register that a task may write (R206). -/
def csrSet (n : Nat) (x : Word) (c : Core) : Core :=
  if !csrWritable n then c
  else if 0x010 ≤ n ∧ n ≤ 0x017 then loopStackSet .write n x c
  else if n = 0x030 ∨ n = 0x031 then inboxSet .write n x c
  else if n = 0x034 ∨ n = 0x035 ∨ n = 0x037 then replySet .write n x c
  else csrWrite .write n x c

end Sys2Proof.Machine
end

