-- ==== Sys2Proof/Machine/Counters.lean ====
section
/-! DEFINITION. Performance counters, the seating chart, usage counters, roll calls and the words and events about them
(16_counters R411 to R429), the timer event (08 R212), retention requests and bank states (09 R227 to R231). -/

namespace Sys2Proof.Machine

/-- What the guest reads of a counter's value and configuration (R416). -/
def guestValue (c : Core) (n : Nat) : Word := if stolen c n then (cntOf c n).gvalue else (cntOf c n).value
def guestCfg (c : Core) (n : Nat) : Word :=
  if stolen c n then (cntOf c n).gcfg ||| 0x8000000000000000 else (cntOf c n).cfg

/-- Word `i` of a snapshot half (R418): below 1024 a cell, then SNSEQ, SNPC, SNTIME. -/
def snapWord (c : Core) (half i : Nat) : Word := mapGet 0 (if half = 0 then c.cn.snap0 else c.cn.snap1) i

/-- CNTR (R413): an index beyond the chart or the half raises ILLEGAL OPERAND. -/
def execCntr (o : CntrOp) (s : State) : Ans :=
  let c := s.me
  let n := o.n.toNat
  let i := (getS c o.sa).toNat
  match o.kind.toNat with
  | 0 => writeNext s o.sd (guestValue c n) 1
  | 1 =>
    let v := guestValue c n
    .next (s.onMe fun c => retire (stepPc (setSLat { c with cn := { c.cn with cntsh := v.extractLsb' 32 32 } } s.cyc o.sd
      ((v.extractLsb' 0 32).setWidth 64) 1)) s.cyc 1)
  | 2 => writeNext s o.sd (c.cn.cntsh.setWidth 64) 1
  | 3 => writeNext s o.sd (guestCfg c n) 1
  | 4 => if 1024 ≤ i then illegalAt s 5 (wordOf (.cntr o))
    else writeNext s o.sd ((mapGet 0 c.cn.chart i).setWidth 64) 1
  | 5 => if 1027 ≤ i then illegalAt s 5 (wordOf (.cntr o)) else writeNext s o.sd (snapWord c o.half.toNat i) 1
  | 6 => writeNext s o.sd c.task.w 1
  | 7 => writeNext s o.sd (c.cn.roll.extractLsb' (64 * n) 64) 1
  | _ => illegalAt s 3 (wordOf (.cntr o))

/-- CNTW kind 0 (R414): discarded while the counter is stolen. -/
def execCntwValue (o : CntwOp) (s : State) : Ans :=
  coreNext s fun c => if stolen c o.n.toNat then c
    else setCnt c o.n.toNat { cntOf c o.n.toNat with value := getS c o.sa }

/-- CNTW kind 1 (R414): EVT, EN and RCEN; WRAP is cleared by a one. -/
def execCntwCfg (o : CntwOp) (s : State) : Ans :=
  let v := getS s.me o.sa
  if 0x1C ≤ fieldOf v 0 8 then illegalAt s 5 (wordOf (.cntwCfg o))
  else coreNext s fun c => if stolen c o.n.toNat then c
    else
      let x := cntOf c o.n.toNat
      let wrap := if v.getLsbD 10 then 0 else fieldOf x.cfg 10 1
      setCnt c o.n.toNat { x with cfg := BitVec.ofNat 64 (fieldOf v 0 10 + wrap * 2 ^ 10) }

/-- CNTW kind 2 (R414). -/
def execCntwChartClear (s : State) : Ans := coreNext s fun c => { c with cn := { c.cn with chart := [] } }

/-- COUNTER_WRAP (R411, R427): WRAP is set; with RCEN the carry starts a roll call of the partition. -/
def execCounterWrap (s : State) : Ans :=
  let c := s.me
  match (List.range 16).find? fun n => c.cn.wraps.getLsbD n with
  | none => .next s
  | some n =>
    let x := cntOf c n
    let c := setCnt c n { x with cfg := x.cfg ||| 0x400 }
    let s := s.setCore s.cur { c with cn := { c.cn with wraps := c.cn.wraps &&& ~~~ (1#16 <<< n) } }
    .next (if x.cfg.getLsbD 9 then rollCall s 4 (partitionOf s c.sys.tenant) [] else s)

/-- CNTCLAIM_WRITE (R416): claims freeze the guest's copy, releases reload it. -/
def execCntclaimWrite (o : IdxValEv) (s : State) : Ans :=
  let c := s.core o.idx
  let v : BitVec 16 := o.value.setWidth 16
  let c := (List.range 16).foldl (fun c n =>
    let x := cntOf c n
    if v.getLsbD n && !stolen c n then setCnt c n { x with gvalue := x.value, gcfg := x.cfg }
    else if !v.getLsbD n && stolen c n then setCnt c n { x with value := x.gvalue, cfg := x.gcfg, gvalue := 0, gcfg := 0 }
    else c) c
  .next (s.setCore o.idx { c with cn := { c.cn with claim := v, rests := (s.core o.idx).cn.claim &&& ~~~ v } })

/-- Is a sample of the shared counters due (R424)? -/
def sampleDue (s : State) : Bool :=
  match s.meas.samples with
  | [] => decide (1000 ≤ s.time)
  | (t, _) :: _ => decide (t / 1000 < s.time / 1000)

/-- COUNTER_SAMPLE (R424): as many samples are kept as a delay can look back to. -/
def execCounterSample (s : State) : Ans :=
  if sampleDue s then
    .next { s with meas := { s.meas with
      samples := ((s.time / 1000 * 1000, s.meas.usage) :: s.meas.samples).take 65537 } }
  else .next s

/-- G(t) of R424: quantised and delayed by the tenant's policy. -/
def guestView (s : State) (tenant i : Nat) : Word :=
  let p := mapGet 0 s.links.pf0 (0x20000 + 8 * tenant)
  let q := fieldOf p 0 6
  let lim := 1000 * fieldOf p 8 16
  match s.meas.samples.find? fun e => e.1 + lim ≤ s.time with
  | some (_, m) => BitVec.ofNat 64 ((mapGet 0 m i).toNat / 2 ^ q * 2 ^ q)
  | none => 0

/-- The answer to a host's register or window read. -/
def State.answer (s : State) (vf : Nat) (v : Nat) (ur ep : Bool) : State :=
  { s with links := { s.links with answers := mapPut s.links.answers vf (v, ur, ep) } }

/-- GUEST_COUNTER_READ_LO (R424): VFSH takes the high half. -/
def execGuestCounterReadLo (o : TwoEv) (s : State) : Ans :=
  let g := guestView s (tdiOf s o.a).tenant o.b
  .next ({ s with meas := { s.meas with vfsh := mapSet 0 s.meas.vfsh o.a (g.extractLsb' 32 32) } }.answer o.a
    (fieldOf g 0 32) false false)

/-- A core's roll-call record (R428). -/
def rollRecord (s : State) (n : Nat) (r : RollCall) : BitVec 1024 :=
  let c := s.core n
  let q32 (x : Nat) : BitVec 32 := BitVec.ofNat 32 x
  let b (x : Bool) : BitVec 1 := if x then 1 else 0
  let w (x : Nat) : BitVec 64 := BitVec.ofNat 64 x
  0#128 ++ c.task.index ++ 0#8 ++ (coreid c n).extractLsb' 0 24 ++ (if c.life = .idle then 0#32 else c.sys.launchid)
    ++ c.task.w ++ 0#28 ++ (eventsWord c s.time).extractLsb' 0 4 ++ 0#27 ++ c.seq.psum.extractLsb' 0 5
    ++ w c.task.frozen ++ w c.task.fcs ++ w c.task.wall
    ++ q32 (cutOf c.ql) ++ q32 (cutOf c.qc) ++ q32 (cutOf c.qv) ++ q32 (cutOf c.qm)
    ++ q32 c.ql.next ++ q32 c.qc.next ++ q32 c.qv.next ++ q32 c.qm.next
    ++ 0#29 ++ b c.dstop ++ b (decide (c.life = .draining)) ++ b c.sys.inh ++ c.seq.pc ++ w r.t ++ 0#29
    ++ BitVec.ofNat 3 r.cause ++ q32 r.seq

/-- Is the pending roll call due (R427)? -/
def rollDue (s : State) : Bool :=
  match s.meas.rc with
  | some r => decide (r.t ≤ s.time)
  | none => false

/-- ROLL_CALL_LATCH (R427, R428): every block of the set latches its record. -/
def execRollCallLatch (s : State) : Ans :=
  match s.meas.rc with
  | none => .next s
  | some r =>
    if s.time < r.t then .next s
    else
      let s1 := r.set.foldl (fun t n => t.setCore n { t.core n with cn := { (t.core n).cn with roll := rollRecord s n r } }) s
      let hub := r.hubs.foldl (fun m h => mapPut m h (BitVec.ofNat 128 (r.seq + r.cause * 2 ^ 32 + r.t % 2 ^ 64 * 2 ^ 64))) s1.meas.hubrc
      .next { s1 with meas := { s1.meas with rc := none, hubrc := hub } }

/-- ROLLCALL (R429): requests, then waits until its own core has latched. -/
def execRollcall (o : DestOp) (s : State) : Ans :=
  let s := inWait s
  match s.me.seq.wait with
  | none =>
    let s := rollCall s 1 (partitionOf s s.me.sys.tenant) []
    let s := rollCall s 1 [s.cur] []
    .next (s.onMe fun c => { c with seq := { c.seq with wait := some (.rollcall o, 1) } })
  | some _ =>
    if (match s.meas.rc with
      | some r => r.set.contains s.cur
      | none => false) then .next s
    else writeNext s o.sd (s.me.cn.roll.extractLsb' 64 64) 1

/-- Has the timestamp reached TIMECMP without being noted (R212)? -/
def timerDue (s : State) (n : Nat) : Bool :=
  let c := s.core n
  !c.sys.timer && (eventsWord c s.time).getLsbD 3

/-- TIMER_EVENT (R212): the condition of EVENTS.TIMER has come to hold. -/
def execTimerEvent (s : State) : Ans :=
  if timerDue s s.cur then .next (s.onMe fun c => { c with sys := { c.sys with timer := true } }) else .next s

/-- SPRETREQ_WRITE (R227 to R229): a bank whose request is cleared leaves retention. -/
def execSpretreqWrite (o : IdxValEv) (s : State) : Ans :=
  let c := s.core o.idx
  let gone := (List.range 64).filter fun b => !o.value.getLsbD b && c.sp.retreq.getLsbD b && (match mapGet (BankSt.active 0) c.sp.banks b with
    | .entering _ | .retained => true
    | _ => false)
  let c := gone.foldl (fun c b => let c := settleBank c b
    { c with sp := { c.sp with banks := mapPut c.sp.banks b (.exiting (s.cyc + 2048)) } }) c
  .next (s.setCore o.idx { c with sp := { c.sp with retreq := o.value } })

/-- SPRETST (R227): bit j is set while bank j is ENTERING or RETAINED. -/
def spretst (c : Core) : Word :=
  BitVec.ofNat 64 ((List.range 64).foldl (fun n b => match mapGet (BankSt.active 0) c.sp.banks b with
    | .entering _ | .retained => n + 2 ^ b
    | _ => n) 0)

/-- A requested bank that has been idle for 4,096 cycles (R228). -/
def entryBank (s : State) (c : Core) : Option Nat :=
  if c.sp.retreq = 0 then none
  else (List.range 64).find? fun b => c.sp.retreq.getLsbD b && (match mapGet (BankSt.active 0) c.sp.banks b with
    | .active t => decide (t + 4096 ≤ s.cyc)
    | _ => false)

/-- RETENTION_ENTRY (R228). -/
def execRetentionEntry (s : State) : Ans :=
  match entryBank s s.me with
  | some b => .next (s.onMe fun c => { c with sp := { c.sp with banks := mapPut c.sp.banks b (.entering (s.cyc + 2048)) } })
  | none => .next s

/-- A bank whose entry is over (R228). -/
def enteredBank (s : State) (c : Core) : Option Nat :=
  (c.sp.banks.find? fun e => match e.2 with
    | .entering t => decide (t ≤ s.cyc)
    | _ => false).map (·.1)

/-- RETENTION_ENTERED (R228). -/
def execRetentionEntered (s : State) : Ans :=
  match enteredBank s s.me with
  | some b => .next (s.onMe fun c => { c with sp := { c.sp with banks := mapPut c.sp.banks b .retained } })
  | none => .next s

/-- A bank whose exit is over (R228). -/
def exitedBank (s : State) (c : Core) : Option Nat :=
  (c.sp.banks.find? fun e => match e.2 with
    | .exiting t => decide (t ≤ s.cyc)
    | _ => false).map (·.1)

/-- RETENTION_EXIT_DONE (R228, R229). -/
def execRetentionExitDone (s : State) : Ans :=
  match exitedBank s s.me with
  | some b => .next (s.onMe fun c =>
      settleBank { c with sp := { c.sp with banks := mapPut c.sp.banks b (.active s.cyc) } } b)
  | none => .next s

end Sys2Proof.Machine
end

