-- ==== Sys2Proof/Machine/QueueWords.lean ====
section
/-! DEFINITION. Queue-control words (12 R304 to R306; 16 R405 to R410): SWAIT, BAR and WAITC issue as barriers that wait at
the head of their queue, and BARRIER_COMPLETION ends the wait; SPOST and QMARK act at issue. -/

namespace Sys2Proof.Machine

/-- A barrier word issues (R85): it stays at the head of its queue, in wait. It counts at its first issue alone (R425), which
its `slot` records. -/
def barrierIssue (q : BitVec 2) (s : State) : Ans :=
  .next (s.onMe fun c =>
    let x := c.queue q.toNat
    match x.ents with
    | e :: t => if e.seq = c.latch.seq ∧ !x.bwait then
        let c' := c.setQueue q.toNat { x with ents := { e with slot := 1 } :: t, last := some c.fc, bwait := true }
        if e.slot = 0 then countIssue c' q.toNat (slipped x e) else c'
      else c
    | [] => c)

/-- SWAIT (R409), BAR (R304), WAITC (R305) at issue. -/
def execSwait (o : SemQOp) (s : State) : Ans := barrierIssue o.q s
def execBar (o : BarOp) (s : State) : Ans := barrierIssue o.q s
def execWaitc (o : WaitcOp) (s : State) : Ans := barrierIssue o.q s

/-- SPOST (R408). -/
def execSpost (o : SemQOp) (s : State) : Ans :=
  engineIssue o.q.toNat s fun c e =>
    let k := getSem c o.k.toNat
    let n := o.n.toNat
    if k.ceil < k.count + n then .trap causeSemCeiling (o.k.setWidth 64) (BitVec.ofNat 64 e.seq)
    else
      let c := setSem c o.k.toNat { k with count := k.count + n }
      .done (if n = 0 then c else countEv (eventSempost c) 0x12 1)

/-- SPOST with SUB (R408): no post. -/
def execSpostSub (o : SemQOp) (s : State) : Ans :=
  engineIssue o.q.toNat s fun c e =>
    let k := getSem c o.k.toNat
    if k.count < o.n.toNat then .trap causeSemUnder (o.k.setWidth 64) (BitVec.ofNat 64 e.seq)
    else .done (setSem c o.k.toNat { k with count := k.count - o.n.toNat })

/-- QMARK (R306): with REST the queue becomes slack. -/
def execQmark (o : QmarkOp) (s : State) : Ans :=
  engineIssue o.q.toNat s fun c _ =>
    .done (if o.rest = 1 then c.setQueue o.q.toNat { c.queue o.q.toNat with running := false } else c)

/-- The BAR at the head of a queue, if it waits there: mask and FORM bit. -/
def waitingBar (x : EQueue) : Option (BitVec 4 × BitVec 1) :=
  match x.bwait, x.ents with
  | true, e :: _ => match e.i with
    | .bar o => some (o.mask, o.form)
    | _ => none
  | _, _ => none

/-- Has the core arrived at a BAR: every queue of the mask has it at its head (R304)? -/
def barHere (c : Core) (mask : BitVec 4) (form : BitVec 1) : Bool :=
  (List.range 4).all fun q => !mask.getLsbD q || decide (waitingBar (c.queue q) = some (mask, form))

/-- Does a member count as arrived although its queues do not stand at the BAR: idle, without a task, or past TEXIT (R304)? -/
def barExcused (c : Core) : Bool := decide (c.life = .idle ∨ c.life = .draining) || c.task.exited

/-- May the BAR of core `n` complete (R304)? -/
def barDone (s : State) (n : Nat) (mask : BitVec 4) (form : BitVec 1) : Bool :=
  let c := s.core n
  barHere c mask form && (decide (form = 0) || (List.range 8).all fun i =>
    let m := s.core (n / 8 * 8 + i)
    decide (n / 8 * 8 + i = n) || barHere m mask form || barExcused m)

/-- The wait at the head of queue `q` of core `n`: what its evaluation in this fc answers (R304, R305, R409). -/
inductive WaitRes where
  | stay
  | finish
  | trap (cause : Nat) (k : Word) (seq : Nat)
  deriving DecidableEq, Repr

/-- Evaluate the barrier in wait at the head of a queue. -/
def evalWait (s : State) (n q : Nat) : WaitRes :=
  let c := s.core n
  let x := c.queue q
  match x.bwait, x.ents with
  | true, e :: _ =>
    match e.i with
    | .swait o =>
      let k := getSem c o.k.toNat
      if k.ceil < o.n.toNat then .trap causeSemUnder (o.k.setWidth 64) e.seq
      else if k.ovf then .trap causeSemCeiling (o.k.setWidth 64) e.seq
      else if o.n.toNat ≤ k.count then .finish else .stay
    | .waitc o =>
      -- entries of src enqueued before the WAITC; itself it does not count
      let before := (openSeqs c o.src.toNat).filter fun a => seqEarlier a e.sysv.toNat
      if before.eraseDups.length ≤ o.n.toNat then .finish else .stay
    | .bar o => if barDone s n o.mask o.form then .finish else .stay
    | _ => .stay
  | _, _ => .stay

/-- The first queue of a core whose wait ends or traps in this fc, in the order M, V, C, L (R406). -/
def waitEnds (s : State) (n : Nat) : Option Nat :=
  (List.range 4).find? fun q => decide (evalWait s n q ≠ .stay)

/-- A barrier has completed (R85, R299): the entry leaves and the present fc is the queue's new origin. -/
def finishWait (c : Core) (q : Nat) : Core :=
  let x := c.queue q
  let x := { x with ents := x.ents.drop 1 }
  c.setQueue q { newOrigin x c.fc with running := true }

/-- BARRIER_COMPLETION (R304, R305, R406, R409): a fault leaves the word held and unissued. -/
def execBarrierCompletion (s : State) : Ans :=
  match waitEnds s s.cur with
  | none => .next s
  | some q =>
    let c := s.me
    match evalWait s s.cur q, (c.queue q).ents with
    | .trap k i0 seq, _ =>
      let c := abandonAt c q
      .next (s.setCore s.cur (raise { c with heldq := c.heldq ||| (1#4 <<< q) } s.time
        ⟨k, false, q, false, i0, BitVec.ofNat 64 seq, c.seq.pc⟩))
    | .finish, e :: _ =>
      match e.i with
      | .swait o => .next (s.onMe fun c =>
          let k := getSem c o.k.toNat
          finishWait (setSem c o.k.toNat { k with count := k.count - o.n.toNat }) q)
      | .bar o =>
        let ms := if o.form = 0 then [s.cur] else (List.range 8).map (s.cur / 8 * 8 + ·)
        .next (ms.foldl (fun s m => if barHere (s.core m) o.mask o.form then
          s.setCore m ((List.range 4).foldl (fun c r => if o.mask.getLsbD r then finishWait c r else c) (s.core m))
          else s) s)
      | _ => .next (s.onMe fun c => finishWait c q)
    | _, _ => .next s

/-- Has a core nothing left of the copies it must wait for? A sequencer word in wait is tried again (R302). -/
def waitingWord (c : Core) : Option Instr := c.seq.wait.map (·.1)

end Sys2Proof.Machine
end

