-- ==== Sys2Proof/Machine/Enqueue.lean ====
section
/-! DEFINITION. ENQUEUE (01 R29): the checks of an engine word at decode, in the order of R82 and of its home chapter, and the
entry it becomes. -/

namespace Sys2Proof.Machine

/-- Is the word a vector word of units 0x5 to 0x7 (R87)? -/
def isVectorWord (w : IWord) : Bool :=
  let u := (fld w 44 4).toNat
  decide (5 ≤ u) && decide (u ≤ 7)

/-- Does pipe B accept the word (R136)? -/
def pipeBOk (i : Instr) (w : IWord) : Bool :=
  decide ((fld w 44 4).toNat = 5 ∨ (fld w 44 4).toNat = 6) &&
    (match i with
    | .vrcpF32 _ | .vrcpBf16 _ | .vrcpF16 _ | .vrsqF32 _ | .vrsqBf16 _ | .vrsqF16 _ | .vsqrtF32 _ | .vsqrtBf16 _
    | .vsqrtF16 _ | .vexp2F32 _ | .vexp2Bf16 _ | .vexp2F16 _ | .vlog2F32 _ | .vlog2Bf16 _ | .vlog2F16 _ | .vtanhF32 _
    | .vtanhBf16 _ | .vtanhF16 _ => false
    | _ => true)

/-- May the word carry d = 0 (R87, R136)? -/
def deltaOk (c : Core) (i : Instr) (w : IWord) : Bool :=
  decide (fld w 34 4 ≠ 0) || (pipeBOk i w && !c.lastD0)

/-- The address of R464 over some equal accesses: the first where it lies out of range, else the lowest byte that does. -/
def rangeOf (n : Nat) (as : List Nat) : Option Nat :=
  rangeFault (as.headD 0) (as.map fun a => ⟨a, n, 0⟩)

/-- Range, then alignment, of scratchpad addresses taken from captured operands (R151). -/
def spanCheck (n : Nat) (as : List Nat) (misaligned : Option Word) (rw : Word) : DecCheck :=
  match rangeOf n as, misaligned with
  | some a, _ => .trap causeRange (BitVec.ofNat 64 a) rw
  | none, some a => .trap causeAlign a rw
  | none, none => .ok

/-- The first misaligned address of VLD and VST. -/
def vldMis (e : QEntry) (k : Nat) : Option Word :=
  let a := cap e 0 + BitVec.ofNat 64 (1024 * k)
  if a.toNat % 128 ≠ 0 then some a else none

/-- The first misaligned address of VLDS and VSTS (R151). -/
def vldsMis (e : QEntry) : Option Word :=
  if (cap e 0).toNat % 128 ≠ 0 then some (cap e 0)
  else if (cap e 1).toNat % 128 ≠ 0 then some (cap e 0 + cap e 1) else none

/-- The header access of VXSENC and VXSDEC (R163, R164). -/
def xsumCheck (e : QEntry) : DecCheck :=
  spanCheck 32 [(cap e 0).toNat] (if (cap e 0).toNat % 32 ≠ 0 then some (cap e 0) else none) 1

/-- Lanes of a format in a vector register. -/
def fmtLanes (f : BitVec 6) : Nat :=
  match fmtOfCode f.toNat with
  | some x => 8192 / fmtBits x
  | none => 1

/-- The descriptor of VCVT is accepted (R160). -/
def vcvtOk (d : Word) (q : Nat) : Bool :=
  let df := d.extractLsb' 0 6
  let sf := d.extractLsb' 6 6
  let ls := fmtLanes sf
  let ld := fmtLanes df
  decide (fieldOf d 16 48 = 0) && fmtConvertible df && fmtConvertible sf && decide (fieldOf d 12 3 ≤ 4)
    && decide (q < max ls ld / min ls ld)

/-- The descriptor of VQUANT is accepted (R161): S is +0 or finite and positive. -/
def vquantOk (d : Word) : Bool :=
  decide (fieldOf d 38 26 = 0) && decide (fieldOf d 31 1 = 0) && decide (fieldOf d 23 8 ≠ 255)

/-- The bounds of VCLAMP are accepted (R168). -/
def vclampOk (ty : BitVec 2) (d : Word) : Bool :=
  let t := clampTy ty
  let lo := clampLo d
  let hi := clampHi d
  !fvIsNan lo && !fvIsNan hi && decide (fvCmp lo hi ≤ 0)
    && decide (fvCmp (fdecode (vtySpec t) (clampLoIn t d)) (fdecode (vtySpec t) (clampHiIn t d)) ≤ 0)

/-- The checks of a V-queue word's captured operands (R151, R160, R161, R168). -/
def vecCheck (i : Instr) (e : QEntry) (raw : IWord) : DecCheck :=
  match i with
  | .vld o => spanCheck 128 (vldAddrs e o.k.toNat) (vldMis e o.k.toNat) 1
  | .vst o => spanCheck 128 (vldAddrs e o.k.toNat) (vldMis e o.k.toNat) 2
  | .vlds _ => spanCheck 128 (vldsAddrs e) (vldsMis e) 1
  | .vsts _ => spanCheck 128 (vldsAddrs e) (vldsMis e) 2
  | .vxsencX32 _ | .vxsencX64l _ | .vxsencX64h _ | .vxsdecX32 _ | .vxsdecX64l _ | .vxsdecX64h _ => xsumCheck e
  | .vcvt o => need (vcvtOk (cap e 0) o.q.toNat) (decOperand raw)
  | .vquantIdx _ | .vquantScl _ => need (vquantOk (cap e 0)) (decOperand raw)
  | .vclamp o => need (vclampOk o.ty (cap e 0)) (decOperand raw)
  | _ => .ok

/-- Every place of a stream block over `n` repetitions. -/
def blockPlaces (g : BitVec 256) (n : Nat) : List Place :=
  (List.range n).flatMap fun j => (List.range (gRows g)).flatMap fun r => (List.range (gCols g)).flatMap fun k => gPlaces g j r k

/-- The places of sparsity metadata and scale records that an array word reads (R184, R185). -/
def metaPlaces (k : MKind) (o : MmaOp) (g : BitVec 256) (n : Nat) : List Place :=
  let cols := if o.tb = 1 then gRows g else gCols g
  match k with
  | .mma => []
  | .mmas => (List.range n).flatMap fun j => (List.range cols).map fun col => ⟨gSparse g + 1024 * j + 8 * col, 8, 0⟩
  | .mmaq => (List.range n).flatMap fun j => (List.range cols).flatMap fun col =>
      let a := gScalebase g + col * gScalestride g + 384 * (j / 256)
      [⟨a + j % 256, 1, 0⟩, ⟨a + 256, 4, 0⟩]

/-- The lowest byte of a footprint at or above 2^23 (R175). -/
def footFault (ps : List Place) : Option Nat :=
  match ps.filterMap fun p => rangeAddr p.at_ p.n with
  | [] => none
  | b :: t => some (t.foldl min b)

/-- The footprint, then the configured rows and the formats (R175). -/
def footCheck (ps : List Place) (gs : List (BitVec 256)) (fmtOk : Bool) (rw : Word) (raw : IWord) : DecCheck :=
  match footFault ps with
  | some a => .trap causeRange (BitVec.ofNat 64 a) rw
  | none => need ((gs.all fun g => decide (gRows g ≠ 0)) && fmtOk) (decOperand raw)

/-- Operand formats that pair (R178). -/
def pairOk (k : MKind) (pack : BitVec 1) (a b : Nat) : Bool :=
  let fl (x : Nat) : Bool := decide (x ≤ 4)
  let it (x : Nat) : Bool := decide (7 ≤ x) && decide (x ≤ 9)
  let packs := decide (b = 3) || decide (b = 4) || decide (b = 9) || decide (b = 10)
  (match k with
  | .mmaq => fl a && decide (b = 10) && decide (pack = 1)
  | _ => (fl a && fl b) || (it a && it b)) && (decide (pack = 0) || packs)

/-- The checks of an M-queue word's streams (R175, R178, R188 to R191). No rule gives TPOIS's ALIGN a TRAPINFO1: 2 for get and 1 for mark are
the model's choice (log entry 156). -/
def matCheck (i : Instr) (e : QEntry) (raw : IWord) : DecCheck :=
  match i with
  | .tld _ => footCheck (blockPlaces e.ga 1) [e.ga] (decide (gFormat e.ga ≤ 9) && decide (gLayout e.ga ≠ 2)) 1 raw
  | .tdrain _ => footCheck (blockPlaces e.ga 1) [e.ga] (decide (gFormat e.ga ≤ 9) && decide (gLayout e.ga ≠ 2)) 2 raw
  | .tbias _ => footCheck (blockPlaces e.ga 1) [e.ga] (decide (gLayout e.ga ≠ 2)) 1 raw
  | .tpoisGet _ => firstCheck [footCheck [⟨gBase e.ga, 32, 0⟩] [e.ga] true 2 raw,
      need (decide (gBase e.ga % 32 = 0)) (.trap causeAlign (BitVec.ofNat 64 (gBase e.ga)) 2)]
  | .tpoisMark _ => firstCheck [footCheck [⟨gBase e.ga, 32, 0⟩] [e.ga] true 1 raw,
      need (decide (gBase e.ga % 32 = 0)) (.trap causeAlign (BitVec.ofNat 64 (gBase e.ga)) 1)]
  | _ => match mkindOf i with
    | some (k, o) =>
      let n := o.rep.toNat + 1
      footCheck (blockPlaces e.ga n ++ blockPlaces e.gb n ++ metaPlaces k o e.gb n) [e.ga, e.gb]
        (pairOk k o.pack (gFormat e.ga) (gFormat e.gb)) 1 raw
    | none => .ok

/-- The checks of a word at decode on its captured operands, by its home chapter. -/
def enqCheck (s : State) (c : Core) (i : Instr) (e : QEntry) (raw : IWord) : DecCheck :=
  match i with
  | .cpin _ | .cpout _ | .cpset _ | .cpmap _ => match copyWord i with
    | some w => copyCheck c w e raw
    | none => .ok
  | .msend o => msendCheck s c o e raw
  | .amo _ | .acas _ | .ared _ => atomCheck c i e raw
  | .csend _ | .crecv _ | .cagree _ | .credx _ | .cbar _ => match collWord i with
    | some w => collCheck s c i w e raw
    | none => .ok
  | .bar o => need (operandOk i && (decide (o.form = 0) || !s.isSplit s.cur)) (decOperand raw)
  | _ => firstCheck [need (operandOk i) (decOperand raw), vecCheck i e raw, matCheck i e raw]

/-- A decode trap of an engine word: precise, and charged to its queue (R83, R213). -/
def decTrap (s : State) (q cause : Nat) (i0 i1 : Word) : Ans :=
  .next (s.onMe fun c => raiseSeq c s.time ⟨cause, false, q, false, i0, i1, c.seq.pc⟩)

/-- The entry of an engine word at this moment, with its names resolved (R90 to R92). -/
def entryOf (c : Core) (q : Nat) (i : Instr) (w : IWord) : QEntry :=
  let i' := match decode (resolveWord c w) with
    | .ok j => j
    | .illegal _ => i
  let e := makeEntry c q i' w
  match waitcSrc i with
  | some src => { e with sysv := BitVec.ofNat 64 (c.queue src).next }
  | none => e

/-- ENQUEUE (R29, R82, R83, R297 to R299): the word at the PC is checked even while its queue is full; with room it becomes
an entry, and the sequencer goes on. -/
def execEnqueue (s : State) : Ans :=
  let c := s.me
  let w := fetchWord s c
  match decode w, queueOfWord w with
  | .ok i, some q =>
    if !deltaOk c i w then decTrap s q causeIllegal 4 (wordInfo w)
    else
      let e := entryOf c q i w
      match enqCheck s c i e w with
      | .trap k i0 i1 => decTrap s q k i0 i1
      | .ok =>
        if 64 ≤ (c.queue q).ents.length then .next s
        else
          let c := pushEntry c q e
          let c := if q = 1 then { c with lastD0 := !isVectorWord w || decide (e.d = 0) } else c
          .next (s.setCore s.cur (stepPc { c with
            seq := { c.seq with nextAt := s.cyc + 1, wait := none }
            nfree := c.nfree + 1
            exempt := false }))
  | _, _ => .next s

end Sys2Proof.Machine
end

