-- ==== Sys2Proof/Machine/Tasks.lean ====
section
/-! DEFINITION. Task words (12 R317 to R323), FENCE (11 R295), recovery words (10 R270 to R272), and the end of a sequencer wait (12 R302). -/

namespace Sys2Proof.Machine

/-- The address of LIVE's descriptor (R323). -/
def liveAddr (o : LiveOp) (c : Core) : Word := getS c o.sa + sext64 o.imm

/-- LIVE (R211, R323): a scalar load (R114, R115) whose result, LIVEDESC, can be read 8 cycles later: its time stands beside those of the
registers (R106), under number 96. -/
def execLive (o : LiveOp) (s : State) : Ans :=
  let c := s.me
  let a := liveAddr o c
  match accessCheck c a 64 64 1 1 with
  | .trap k i0 i1 => seqTrap s k i0 i1
  | .ok =>
    let c := sawUnits (touchRead c s.cyc a.toNat 64) (unitsOf a.toNat 64)
    let code := lineCode c (lineOf a.toNat)
    let x : BitVec 512 := BitVec.ofNat 512 (scRead c a.toNat 64)
    let s := s.setCore s.cur (psumCode c code)
    if code ≠ 0 ∨ fieldOf x 312 8 ≠ 0 ∨ fieldOf x 384 128 ≠ 0 then illegalAt s 5 (wordOf (.live o))
    else coreNext s fun c => { c with
      seq := { c.seq with ready := mapSet 0 c.seq.ready 96 (s.cyc + 8) }
      sys := { c.sys with livedesc := a.toNat, lvalid := true, live := x }
      vec := { c.vec with dup := [] } }

/-- Reserved bits of a record template (R317). -/
def templateReserved (x : BitVec 512) : Bool :=
  decide (fieldOf x 121 7 = 0) && decide (fieldOf x 176 16 = 0) && decide (fieldOf x 244 12 = 0) && decide (fieldOf x 305 15 = 0)
    && decide (fieldOf x 384 128 = 0)

/-- The checks of a template (R318). -/
def templateOk (s : State) (x : BitVec 512) : Bool :=
  let c := s.me
  let lk := c.task.launch
  decide (fieldOf x 112 9 ≤ 256) && decide (fieldOf x 0 32 < c.sys.codesize) && templateReserved x
    && (match launchOf s lk with
      | some l => decide (taskCount l ≤ fieldOf x 320 64)
      | none => true)
    && !(s.sched.recs.any fun e => decide (e.2.lk = lk) && e.2.spawned && decide (e.2.index = fieldOf x 320 64))

/-- Is the tenant's task store full? The spec bounds it by the recovery area alone (R466). -/
def storeFull (s : State) : Bool :=
  match launchOf s s.me.task.launch with
  | some l => decide ((ctxOf s (lAsid l)).st ≠ 0) && !cursorRoom s (lAsid l) 64
  | none => false

/-- The record that TSPAWN makes (R317, R318). -/
def spawnRec (s : State) (x : BitVec 512) : TRec :=
  { lk := s.me.task.launch, index := fieldOf x 320 64, entry := fieldOf x 0 32, join := fieldOf x 32 32
    frame := fieldOf x 64 48, fsize := fieldOf x 112 9, home := fieldOf x 128 48, x := fieldOf x 192 16, y := fieldOf x 208 16
    z := fieldOf x 224 16, stg := fieldOf x 240 4, spawned := true, readyAt := s.cyc, patience := false, saved := none
    busy := false }

/-- Stay in a wait with a phase number. -/
def waitPhase (s : State) (i : Instr) (k : Nat) : Ans :=
  .next (s.onMe fun c => { c with seq := { c.seq with wait := some (i, k) } })

/-- TSPAWN after its checks (R318): waits as FENCE at DEVICE, for room, and for the acknowledgement. The phase holds the
template and the cycle of the acknowledgement. -/
def spawnOn (s : State) (o : SrcOp) (x : BitVec 512) (ack : Nat) : Ans :=
  let s := inWait s
  let i : Instr := .tspawn o
  if ack = 0 then
    if !allDone s.me ∨ !setPerformed s s.cur 3 ∨ storeFull s then waitPhase s i (x.toNat * 2 ^ 64)
    else
      let (n, s) := s.draw 1 1000
      waitPhase s i (x.toNat * 2 ^ 64 + (s.cyc + 1 + n))
  else if s.cyc < ack then waitPhase s i (x.toNat * 2 ^ 64 + ack)
  else if !templateOk s x then illegalAt s 5 (wordOf i)
  else coreNext { s with sched := { s.sched with
    recs := mapPut s.sched.recs s.sched.nextRec (spawnRec s x), nextRec := s.sched.nextRec + 1 } } fun c => c

/-- TSPAWN (R318). -/
def execTspawn (o : SrcOp) (s : State) : Ans :=
  let c := s.me
  match c.seq.wait with
  | some (_, k) => spawnOn s o (BitVec.ofNat 512 (k / 2 ^ 64)) (k % 2 ^ 64)
  | none =>
    let a := getS c o.sa
    match accessCheck c a 64 64 1 1 with
    | .trap k i0 i1 => seqTrap s k i0 i1
    | .ok =>
      let c := touchRead c s.cyc a.toNat 64
      let code := lineCode c (lineOf a.toNat)
      let x : BitVec 512 := BitVec.ofNat 512 (scRead c a.toNat 64)
      let s := s.setCore s.cur (psumCode c code)
      if code ≠ 0 ∨ templateOk s x = false then illegalAt s 5 (wordOf (.tspawn o)) else spawnOn s o x 0

/-- TJOIN after its checks (R319): waits as FENCE at DEVICE and for the acknowledgement, when the hub decrements. -/
def joinOn (s : State) (o : TjoinOp) (ack : Nat) : Ans :=
  let s := inWait s
  let i : Instr := .tjoin o
  let c := s.me
  if ack = 0 then
    if !allDone c ∨ !setPerformed s s.cur 3 then waitPhase s i 0
    else
      let (n, s) := s.draw 1 1000
      waitPhase s i (s.cyc + 1 + n)
  else if s.cyc < ack then waitPhase s i ack
  else
    let idx := (getS c o.sa).toNat
    let d := (getS c o.sb).toNat
    match s.sched.recs.find? fun e => decide (e.2.lk = c.task.launch) && e.2.spawned && decide (e.2.index = idx)
        && decide (e.2.join ≠ 0) with
    | none => illegalAt s 5 (wordOf i)
    | some (k, r) =>
      if r.join < d then illegalAt s 5 (wordOf i)
      else coreNext { s with sched := { s.sched with
        recs := mapPut s.sched.recs k { r with join := r.join - d, readyAt := if r.join = d then s.cyc else r.readyAt } } } fun c => c

/-- TJOIN (R319). -/
def execTjoin (o : TjoinOp) (s : State) : Ans :=
  let d := (getS s.me o.sb).toNat
  if d = 0 ∨ 2 ^ 32 ≤ d then illegalAt s 5 (wordOf (.tjoin o))
  else joinOn s o (match s.me.seq.wait with
    | some (_, k) => k
    | none => 0)

/-- TEXIT (R299, R321): in a handler the held entries are discarded; the queues become slack; the core drains. -/
def execTexit (s : State) : Ans :=
  coreNext s fun c =>
    let c := if c.sys.inh then flushMask c 15 true else c
    { c with
      life := .draining, sys := { c.sys with inh := false }, task := { c.task with exited := true }
      qm := { c.qm with running := false }, qv := { c.qv with running := false }, qc := { c.qc with running := false }
      ql := { c.ql with running := false } }

/-- A release is counted in the open interval (R260, R270). -/
def countRelease (s : State) (asid : Nat) : State :=
  let c := ctxOf s asid
  let t := s.me.task
  let c := { c with rel := c.rel ++ [s.cur], nrel := c.nrel + 1, work := c.work + (t.w.toNat - t.wBase) }
  let s := s.onMe fun d => { d with task := { t with wBase := t.w.toNat } }
  s.setCtx asid { c with st := if c.st = 6 then 6 else openState c }

/-- FENCE (R295): RECOVERY raises ILLEGAL OPERAND; CORE orders fetch and the sequencer's own stores, which are written at
once, every landed write to the code window with them (log entry 138); FORM and wider also wait for every entry of all four queues and
for the writes before it to be performed with respect to the scope (R274). -/
def execFence (o : FenceOp) (s : State) : Ans :=
  if !operandOk (.fence o) then illegalAt s 5 (wordOf (.fence o))
  else
    let s := if o.scope = 0 then s else inWait s
    if o.scope = 0 ∨ (allDone s.me = true ∧ setPerformed s s.cur o.scope.toNat = true) then
      coreNext s fun c => fenced c (decide (o.scope ≠ 0))
    else waitOn s (.fence o)

/-- RREL (R270): the first wait phase tests PSUM; the release is counted once every entry has completed and no release of
the core is counted in the open interval. -/
def execRrel (o : DestOp) (s : State) : Ans :=
  let s := inWait s
  let c := s.me
  let x := ctxOf s c.sys.casid
  if x.st = 0 then
    if allDone c && setPerformed s s.cur 4 then coreNext s fun c => setSLat (fenced c true) s.cyc o.sd 0 1
    else waitOn s (.rrel o)
  else if c.seq.wait.isNone && decide (c.seq.psum &&& 0x1E ≠ 0) then seqTrap s causePoisonRec c.seq.psum 0
  else if !allDone c || !setPerformed s s.cur 5 || x.rel.contains s.cur || !decide (x.st = 1 ∨ x.st = 2 ∨ x.st = 6) then waitOn s (.rrel o)
  else writeNext (countRelease s c.sys.casid) o.sd (BitVec.ofNat 64 x.iv) 1

/-- `RPSTAT` (R271). -/
def rpstat (x : Ctx) : Nat :=
  x.st + (if x.diverged then 8 else 0) + (if x.full then 16 else 0) + x.nrel % 2 ^ 16 * 2 ^ 16 + x.members.length % 2 ^ 16 * 2 ^ 32

/-- RPGET (R271). -/
def execRpget (o : WhichOp) (s : State) : Ans :=
  let a := s.me.sys.casid
  let x := ctxOf s a
  let v := if x.st = 0 then 0 else match o.which.toNat with
    | 0 => x.point
    | 1 => rpstat x
    | 2 => x.log.length % 2 ^ 32 + logRoom s a * 2 ^ 32
    | _ => x.jrn.length % 2 ^ 32 + jrnRoom s a * 2 ^ 32
  writeNext s o.sd (BitVec.ofNat 64 v) 8

/-- Does a hub hold an atomic of the core whole, on a frame of the context (R272, R291)? -/
def heldAtom (s : State) (n asid : Nat) : Bool :=
  s.work.any fun x => decide (x.1 ≤ s.cyc) && heldWhole s x.2 && (match x.2 with
    | .atomic c _ => decide (c = n) && decide ((itemPa s x.2).bind (durableCtx s) = some asid)
    | _ => false)

/-- RSTAT (R272). -/
def execRstat (o : DestOp) (s : State) : Ans :=
  let x := ctxOf s s.me.sys.casid
  let v := if x.st = 0 then 0 else (if x.rel.contains s.cur then 1 else 0)
    + (if (x.held.any fun h => decide (h.core = s.cur)) || heldAtom s s.cur s.me.sys.casid then 2 else 0) + (if x.st = 6 then 4 else 0) + x.iv % 2 ^ 32 * 2 ^ 32
  writeNext s o.sd (BitVec.ofNat 64 v) 1

/-- A waiting word tries again (R302). -/
def retryWait (i : Instr) (s : State) : Ans :=
  match i with
  | .pchk o => execPchk o s
  | .qsync o => execQsync o s
  | .qsyncUpto o => execQsyncUpto o s
  | .fence o => execFence o s
  | .rrel o => execRrel o s
  | .waitev o => execWaitev o s
  | .mrecv o => execMrecv o s
  | .tspawn o => execTspawn o s
  | .tjoin o => execTjoin o s
  | .rollcall o => execRollcall o s
  | _ => .next s

/-- Would trying the waiting word of a core again change anything: it completes, raises a trap, or enters another phase? -/
def waitOver (s : State) (n : Nat) : Bool :=
  match (s.core n).seq.wait with
  | some (i, k) =>
    (match retryWait i { s with cur := n } with
    | .next t => decide ((t.core n).seq.wait ≠ some (i, k)) || decide ((t.core n).trap ≠ (s.core n).trap)
    | _ => false)
  | none => false

/-- SEQUENCER_WAIT_END (R302): the word completes, or goes on to its next wait. -/
def execSequencerWaitEnd (s : State) : Ans :=
  match s.me.seq.wait with
  | some (i, _) => retryWait i s
  | none => .next s

end Sys2Proof.Machine
end

