-- ==== Sys2Proof/Machine/Recovery.lean ====
section
/-! DEFINITION. Sealing an interval and rolling one back (10 R260, R261, R266 to R268, R466; 13 R352). -/

namespace Sys2Proof.Machine

/-- Store a whole granule of a hub-managed structure. -/
def hubStore (s : State) (pa : Nat) (d : BitVec 1024) : State := applyGran s pa d (BitVec.allOnes 128) true

/-- Store `n` bytes of a number from a physical address that is a multiple of 128; the last granule is filled with zeros. -/
def hubStoreBytes (s : State) (pa v n : Nat) : State :=
  (List.range ((n + 127) / 128)).foldl (fun s i => hubStore s (pa + 128 * i) (BitVec.ofNat 1024 (v / 2 ^ (1024 * i)))) s

/-- Live launches of a context (R352). -/
def ctxLaunches (s : State) (asid : Nat) : List (Nat × Launch) :=
  s.sched.launches.filter fun e => decide (lAsid e.2 = asid) && !e.2.ended

/-- Spawned records of a context that are not complete (R352). -/
def ctxSpawned (s : State) (asid : Nat) : List TRec :=
  (s.sched.recs.filter fun e => e.2.spawned && (match launchOf s e.2.lk with
    | some l => decide (lAsid l = asid)
    | none => false)).map (·.2)

/-- A state number of `YSTATE` (R466). -/
def lstNo (x : LSt) : Nat :=
  match x with
  | .pending => 0
  | .held => 1
  | .running => 2
  | .ending => 3

/-- The completion bitmap of a launch as a number (R466). -/
def doneBits (l : Launch) : Nat := l.done.foldl (fun n e => if e.2 then n ||| 2 ^ e.1 else n) 0

/-- A record in the layout of R317. -/
def recBits (s : State) (r : TRec) : Nat :=
  let (lid, own, asid) := match launchOf s r.lk with
    | some l => (l.lid, lOwner l, lAsid l)
    | none => (0, 0, 0)
  r.entry + r.join * 2 ^ 32 + r.frame * 2 ^ 64 + r.fsize * 2 ^ 112 + r.home * 2 ^ 128 + r.x * 2 ^ 192 + r.y * 2 ^ 208
    + r.z * 2 ^ 224 + r.stg * 2 ^ 240 + lid * 2 ^ 256 + own * 2 ^ 288 + asid * 2 ^ 294 + (if r.spawned then 2 ^ 304 else 0)
    + r.index * 2 ^ 320

/-- Start of the half that interval `k` writes (R466). -/
def halfStart (s : State) (asid k : Nat) : Nat :=
  let e := asidOf s asid
  fieldOf e 64 41 + 4096 + k % 2 * ((fieldOf e 105 23 * 4096 - 4096) / 2)

/-- The bitmaps of a cursor block, their addresses and their total length (R466). -/
def cursorMaps (base : Nat) : List (Nat × Launch) → Nat → List Nat × Nat × Nat
  | [], _ => ([], 0, 0)
  | (_, l) :: t, off =>
    let n := (taskCount l + 7) / 8
    let r := cursorMaps base t (off + n)
    ((base + off) :: r.1, doneBits l + r.2.1 * 2 ^ (8 * n), n + r.2.2)

/-- The cursor block of interval `k`: its value and its length in bytes (R466). -/
def cursorBlock (s : State) (asid k : Nat) : Nat × Nat :=
  let ls := ctxLaunches s asid
  let sp := ctxSpawned s asid
  let fixed := 64 + 32 * ls.length + 64 * sp.length
  let (ads, maps, n) := cursorMaps (halfStart s asid k) ls fixed
  let head := k + ls.length * 2 ^ 64 + sp.length * 2 ^ 96
  let ents := (ls.zip ads).map fun x =>
    x.1.2.lid + lstNo x.1.2.st * 2 ^ 32 + x.1.2.preds.length * 2 ^ 34 + x.2 * 2 ^ 64 + taskCount x.1.2 * 2 ^ 128
  let entsN := ents.foldr (fun e n => e + n * 2 ^ 256) 0
  let spN := (sp.map (recBits s)).foldr (fun e n => e + n * 2 ^ 512) 0
  (head + entsN * 2 ^ 512 + spN * 2 ^ (512 + 256 * ls.length) + maps * 2 ^ (8 * fixed), fixed + n)

/-- The key slot that new recovery records are sealed with (R399, R400). -/
def recKey (s : State) (tenant : Nat) : Nat :=
  let t := mapGet 0 s.dev.tenant tenant
  let b := if t.getLsbD 74 then 1 - fieldOf t 73 1 else fieldOf t 73 1
  fieldOf (mapGet 0 s.dev.keys (2 * tenant + b)) 768 256

/-- Bytes 0 to 31 of a SHA-384 digest as a little-endian number; the digest's bit 383 is the first bit of byte 0. -/
def digestHead (d : BitVec 384) : Nat :=
  (List.range 32).foldr (fun i n => (d.extractLsb' (8 * (47 - i)) 8).toNat + 256 * n) 0

/-- The recovery record of interval `k` (R266). -/
def recoveryRecord (s : State) (asid : Nat) (c : Ctx) : BitVec 1024 :=
  let (v, n) := cursorBlock s asid c.iv
  let body := c.iv + asid * 2 ^ 64 + c.nrel % 2 ^ 32 * 2 ^ 96 + c.work % 2 ^ 64 * 2 ^ 128 + s.time % 2 ^ 64 * 2 ^ 192
    + halfStart s asid c.iv * 2 ^ 256 + digestHead (sha384 n v) * 2 ^ 384
  let mac := cmac (recKey s (fieldOf (asidOf s asid) 1 10)) 120 body
  BitVec.ofNat 1024 (body + mac % 2 ^ 64 * 2 ^ 960)

/-- The command that a held write belongs to: the first of the core's commands that waits on the granule. -/
def heldCmd (s : State) (h : Held) : Option (Nat × Nat × Nat) :=
  (s.work.findSome? fun x => match x.2 with
    | .write c q n _ _ _ mask _ codes =>
      if c = h.core ∧ mask = 0 ∧ codes = [] ∧ (itemPa s x.2).map (· / 128 * 128) = some h.pa then some (c, q, n) else none
    | .atomic c n => if c = h.core ∧ (itemPa s x.2).map (· / 128 * 128) = some h.pa then some (c, 3, n) else none
    | _ => none)

/-- A held write is applied at the seal and logged in the new interval (R261, R264). -/
def applyHeld (s : State) (asid : Nat) (h : Held) : State :=
  match logFirst s h.pa with
  | some s => applyWrite s h.pa h.data h.mask h.whole h.codes
  | none =>
    let s := setFull s asid
    match heldCmd s h with
    | some (c, q, n) => logFull s c q n asid
    | none => s

/-- Durable bits of a context's frames whose clearing was asked for are cleared at the seal (R403). -/
def clearDurable (s : State) (asid : Nat) : State :=
  let mine (f : Nat) : Bool := decide (fieldOf (mapGet 0 s.dev.dur f) 16 10 = asid)
  let fs := s.dev.durOff.filter mine
  { s with dev := { s.dev with
    durOff := s.dev.durOff.filter fun f => !mine f
    pot := fs.foldl (fun m f => mapSet 0 m f (setField (mapGet 0 m f) 13 1 0)) s.dev.pot
    dur := fs.foldl (fun m f => mapSet 0 m f 0) s.dev.dur } }

/-- The cursor block that stands at an address: its value and its length in bytes, by its header (R466). -/
def cursorAt (s : State) (pa : Nat) : Nat × Nat :=
  let head := memReadNat s.dev.mem pa 64
  let nl := head / 2 ^ 64 % 2 ^ 32
  let fixed := 64 + 32 * nl + 64 * (head / 2 ^ 96 % 2 ^ 32)
  let maps := (List.range nl).foldl (fun n i => n + (memReadNat s.dev.mem (pa + 64 + 32 * i + 16) 8 + 7) / 8) 0
  (memReadNat s.dev.mem pa (fixed + maps), fixed + maps)

/-- The interval of the record in slot `k` where that record is valid (R267): its seal verifies, under the key of either slot of its tenant
while that holds one (R400), its interval belongs to the slot, and its digest is that of its cursor block. -/
def validRecord (s : State) (asid k : Nat) : Option Nat :=
  let a := asidOf s asid
  let pa := fieldOf a 64 41 + 128 * k
  let r := granData s pa
  let body := r.toNat % 2 ^ 960
  let key (b : Nat) : BitVec 1088 := mapGet 0 s.dev.keys (2 * fieldOf a 1 10 + b)
  let sealed := [0, 1].any fun b => (key b).getLsbD 1024 && decide (cmac (fieldOf (key b) 768 256) 120 body % 2 ^ 64 = fieldOf r 960 64)
  let (v, n) := cursorAt s (fieldOf r 256 41)
  if !granBad s pa && sealed && decide (fieldOf r 0 64 % 2 = k) && decide (digestHead (sha384 n v) = fieldOf r 384 256) then
    some (fieldOf r 0 64)
  else none

/-- Both slots hold valid records whose intervals differ by other than 1 (R267, the third case): the smaller. -/
def tornPair (s : State) (asid : Nat) : Option Nat :=
  match validRecord s asid 0, validRecord s asid 1 with
  | some x, some y => if x + 1 = y ∨ y + 1 = x then none else some (min x y)
  | _, _ => none

/-- The point of a context at a rollback (R267): in the third case the smaller record's, and the Thimble records a hub error (log entry
139). -/
def tornPoint (s : State) (asid : Nat) : State × Nat :=
  match tornPair s asid with
  | some p =>
    let h := stackOf (fieldOf (asidOf s asid) 64 41) / 4
    (placeError s (1152 + h) 2 0 h (fieldOf (asidOf s asid) 64 41), p)
  | none => (s, (ctxOf s asid).point)

/-- Can the record of interval `k` not be valid once it is written (R267, the second case): a channel that stores it or its cursor block has
failed, so that the write is discarded (R251)? -/
def recordLost (s : State) (asid k : Nat) : Bool :=
  chanFailed s (fieldOf (asidOf s asid) 64 41 + 128 * (k % 2)) ||
    (List.range (((cursorBlock s asid k).2 + 127) / 128)).any fun i => chanFailed s (halfStart s asid k + 128 * i)

/-- A context whose interval is sealing (R260). -/
def sealDue (s : State) : Option Nat := (s.ctxs.find? fun e => decide (e.2.st = 3)).map (·.1)

/-- INTERVAL_SEAL (R260, R261, R266): cursor block, record with its seal, the new point, the new interval, then the held
writes in the order in which they were accepted. An interval that is torn by R267 is not sealed but rolled back. -/
def execIntervalSeal (s : State) : Ans :=
  match sealDue s with
  | none => .next s
  | some asid =>
    let c := ctxOf s asid
    if (tornPair s asid).isSome ∨ recordLost s asid c.iv then .next (enterTorn s asid) else
    let (v, n) := cursorBlock s asid c.iv
    let r := recoveryRecord s asid c
    let ents : List CurEnt := (ctxLaunches s asid).map fun e => ⟨e.1, e.2.st, e.2.preds, e.2.done, e.2.tainted, e.2.corrected, e.2.rows⟩
    let sp := ctxSpawned s asid
    let s := hubStoreBytes s (halfStart s asid c.iv) v n
    let s := hubStore s (fieldOf (asidOf s asid) 64 41 + 128 * (c.iv % 2)) r
    let s := s.setCtx asid { c with
      st := 1, point := c.iv, iv := c.iv + 1, diverged := false, full := false, rel := [], nrel := 0, log := [], jrn := [], replay := []
      held := [], work := c.workNext, workNext := 0, cursor := ents, cspawn := sp, ocursor := c.cursor, ospawn := c.cspawn, pend := false }
    let s := clearDurable (c.held.foldl (fun s h => applyHeld s asid h) s) asid
    .next (if c.pend then enterTorn s asid else s)

/-- Has a TORN context stopped: no members, no work of its own under way (R260)? -/
def tornReady (s : State) : Option Nat :=
  (s.ctxs.find? fun e => decide (e.2.st = 4) && e.2.members.isEmpty).map (·.1)

/-- Restore one undo entry (R268): whole blocks are written, with their tags and check bits (R253, R256); what was uncorrectable stays so.
The frame counts as written (R353). -/
def undoOne (s : State) (u : Undo) : State :=
  let mem := s.dev.mem.filter fun x => !(decide (u.pa ≤ x.1) && decide (x.1 < u.pa + 4096))
  let mem := u.old.foldl (fun m x => memWrite m x.1 x.2) mem
  let gs := (List.range 32).map (u.pa / 128 + ·)
  let clr (m : Map Bool) : Map Bool := gs.foldl (fun m g => mapSet false m g false) m
  let f := u.pa / 65536
  let e := mapGet 0 s.dev.dur f
  let syn := u.bad.foldl (fun m i => mapSet false m (u.pa / 128 + i) true) (clr s.dev.syn)
  frameWritten { s with dev := { s.dev with
    mem := mem, tagBad := (List.range 8).foldl (fun m i => mapSet false m (u.pa / 512 + i) false) s.dev.tagBad
    syn := syn, dbe := clr s.dev.dbe, sbe := clr s.dev.sbe, dur := mapSet 0 s.dev.dur f (setField e 0 16 0) } } u.pa

/-- A launch goes back to what the cursor block says of it, and to what the tasks complete at the cut had made of its verdict and rows (R352);
predecessors that have ended since count as ended. The work of every run stays counted (R426). -/
def restoreLaunch (s : State) (l : Launch) (e : CurEnt) : Launch :=
  let l := { l with
    st := e.st, preds := e.preds, done := e.done, tainted := e.tainted, corrected := e.corrected, rows := e.rows, created := 0, faulted := false, killed := false, fcause := 0
    fx := 0, fy := 0, fz := 0, fstg := 0 }
  e.preds.foldl (fun l k => match launchOf s k with
    | some p => if p.ended then predEnds k (verdictOf p) l else l
    | none => predEnds k (recentOf s l.tenant k) l) l

/-- A launch parsed after the seal restarts as if parsed at the rollback (R331, R352); the work of every run stays counted (R426). -/
def reparse (s : State) (l : Launch) : Launch :=
  let ids := predIds l.pkt
  let live := ids.filterMap fun i => if i = l.lid then none else liveLaunch s l.tenant i
  let bad := ids.any fun i => (liveLaunch s l.tenant i).isNone && (match recentVerdict s l.tenant i with
    | some v => decide (2 ≤ v)
    | none => false)
  { l with
    st := if bad then .held else if live.isEmpty then .running else .pending
    preds := live, done := [], tainted := false, corrected := false, rows := 0, t0 := s.time, created := 0, faulted := false, killed := false, fcause := 0, fx := 0, fy := 0, fz := 0, fstg := 0 }

/-- Relaunch from the cursor block of the last sealed point (R268, R352). -/
def relaunch (s : State) (asid : Nat) : State :=
  let c := ctxOf s asid
  let back := (ctxLaunches s asid).filter fun e => !(decide (e.2.st = .ending) && e.2.killed)
  let s := back.foldl (fun s b => dropSaved s b.1) s
  let back := back.filterMap fun b => (launchOf s b.1).map fun l => (b.1, l)
  let s := { s with sched := { s.sched with
    recs := s.sched.recs.filter fun e => !(back.any fun b => decide (b.1 = e.2.lk)) } }
  let s := back.foldl (fun s b =>
    match c.cursor.find? fun e => decide (e.lk = b.1) with
    | some e => s.setLaunch b.1 (restoreLaunch s b.2 e)
    | none => s.setLaunch b.1 (reparse s b.2)) s
  let s := c.cspawn.foldl (fun s r =>
    if back.any fun b => decide (b.1 = r.lk) then { s with sched := { s.sched with
      recs := mapPut s.sched.recs s.sched.nextRec { r with busy := false, saved := none, readyAt := s.cyc }
      nextRec := s.sched.nextRec + 1 } }
    else s) s
  let s := back.foldl (fun s b => match launchOf s b.1 with
    | some l => l.done.foldl (fun s e => if e.2 then nextStage s b.1 e.1 else s) s
    | none => s) s
  back.foldl (fun s b => checkEnding s b.1) (refill s)

/-- ROLLBACK (R260, R267, R268, R352): undo entries in descending order, the interval opened afresh, the context relaunched;
in REPLAY until the journal is exhausted. -/
def execRollback (s : State) : Ans :=
  match tornReady s with
  | none => .next s
  | some asid =>
    let (s, point) := tornPoint s asid
    let c := ctxOf s asid
    let s := (c.log.filter fun u => decide (u.seq = point + 1)).reverse.foldl undoOne s
    let back := decide (point % 2 ≠ c.point % 2)
    let s := s.setCtx asid { c with
      point := point, iv := point + 1, cursor := if back then c.ocursor else c.cursor, cspawn := if back then c.ospawn else c.cspawn
      st := if c.jrn.isEmpty then 1 else 6, diverged := false, rel := [], nrel := 0, log := [], replay := c.jrn, held := [], work := 0
      workNext := 0, pend := false }
    .next (relaunch s asid)

end Sys2Proof.Machine
end

