-- ==== Sys2Proof/Machine/Tables.lean ====
section
/-! DEFINITION. Events on the tables of 15 and on device memory: the patrol scrub and channel failures (10 R251, R256),
invalidation (15 R390), revocation sweeps (15 R396, R397), key rotation (15 R400), error-bank slots (15 R401, R402). -/

namespace Sys2Proof.Machine

/-- PATROL_SCRUB (R256) of granule number `idx`: a read whose corrections are charged to no launch, and its bytes to no owner (R421). -/
def execPatrolScrub (o : IdxEv) (s : State) : Ans :=
  let pa := 128 * o.idx
  if paMapped s pa then
    .next (hubReadGran s pa).1
  else .next s

/-- CHANNEL_FAILURE (R40, R251) of channel `b` of stack `a`. -/
def execChannelFailure (o : TwoEv) (s : State) : Ans :=
  let bad := mapGet 0 s.dev.chanBad o.a ||| (1#32 <<< o.b)
  let s := { s with dev := { s.dev with chanBad := mapSet 0 s.dev.chanBad o.a bad } }
  let en := fieldOf s.plat.inv (128 + 32 * o.a) 32
  let en' := en &&& (2 ^ 32 - 1 - 2 ^ (o.b % 32))
  let inv := setField s.plat.inv (128 + 32 * o.a) 32 en'
  let inv := if en' = 0 then setField inv (96 + o.a) 1 0 else inv
  let p := 2 * onesBelow (mappedChans s o.a &&& ~~~ bad).toNat 32
  -- free frames beyond the range that is left are withdrawn
  let first := o.a * 2 ^ 21 + framesOf p
  let last := o.a * 2 ^ 21 + framesOf (2 * onesBelow (mappedChans s o.a).toNat 32)
  let pot := (List.range (last - first)).foldl (fun m i =>
    let f := first + i
    if potState (mapGet 0 m f) = 0 then mapSet 0 m f (BitVec.ofNat 64 (7 * 2 ^ 10)) else m) s.dev.pot
  .next (bumpInv { s with plat := { s.plat with inv := inv }, dev := { s.dev with pot := pot } })

/-- Remove cached translations of a context, or of the leaf that holds an address (R390). -/
def invalidate (l : List Tlb) (asid va : Nat) (all : Bool) : List Tlb :=
  l.filter fun t => !(decide (t.asid = asid) && (all || (decide (t.va ≤ va) && decide (va < t.va + t.size))))

/-- `IBUSY` (R390): an access that used the old translation is still to be performed with respect to DEVICE, however long that takes
(log entry 166). -/
def xlBusy (s : State) (vf : Nat) : Bool := stillUsed s (waitOf s vf)

/-- XLINV_WRITE (R390) of VF `idx`: caches and walkers lose the translation at once, and the request completes with the last access that
used it; a write meanwhile is discarded. An unlocked TDI has no tenant, so that no ASID is of it. -/
def execXlinvWrite (o : IdxValEv) (s : State) : Ans :=
  let asid := fieldOf o.value 48 10
  if ((tdiOf s o.idx).st ≠ 0 ∧ (tdiOf s o.idx).st ≠ 2) ∨ xlBusy s o.idx then .next s
  else if (tdiOf s o.idx).st = 0 ∨ asidOk s asid (tdiOf s o.idx).tenant = false then
    .next { s with dev := { s.dev with ierr := mapSet false s.dev.ierr o.idx true } }
  else
    let s := s.setWait o.idx (oldUse s (tdiOf s o.idx).tenant [asid])
    .next { s with dev := { s.dev with
      ierr := mapSet false s.dev.ierr o.idx false
      tlb := invalidate s.dev.tlb asid (fieldOf o.value 16 32 * 65536) (o.value.getLsbD 58) } }

/-- Does a handle of the tenant's core belong to the family with an older generation (R397)? -/
def staleHandle (x : BitVec 512) (family gen : Nat) : Bool := decide (hFamily x = family) && decide (hGen x < gen)

/-- What a sweep does at one core (R200, R397): the handle cache is emptied, handle registers become REVOKED, unissued entries are marked. -/
def sweepCore (c : Core) (family gen : Nat) : Core :=
  let h := c.h.map fun e => (e.1, if e.2.st = .valid ∧ staleHandle e.2.bits family gen then ⟨0, .revoked⟩ else e.2)
  let one (e : QEntry) : QEntry := { e with mark := e.mark || (decide (e.h.st = .valid) && staleHandle e.h.bits family gen) }
  let mark (q : EQueue) : EQueue := { q with ents := q.ents.map one }
  { c with h := h, seq := { c.seq with gens := [] }, qm := mark c.qm, qv := mark c.qv, qc := mark c.qc, ql := mark c.ql }

/-- The first sweep with a core still to sweep, and that core. -/
def sweepDue (s : State) : Option (Sweep × Nat) :=
  s.dev.sweeps.findSome? fun w => match w.toSweep with
    | n :: _ => some (w, n)
    | [] => none

/-- REVOCATION_SWEEP (R397): one core is swept, between two sequencer words, or one hub, numbered from 256, which keeps no generation. -/
def execRevocationSweep (s : State) : Ans :=
  match sweepDue s with
  | none => .next s
  | some (w, n) =>
    let s := if n < 256 ∧ (s.core n).sys.tenant = w.tenant then s.setCore n (sweepCore (s.core n) w.family w.gen) else s
    .next { s with dev := { s.dev with sweeps := s.dev.sweeps.map fun x =>
      if x = w then { x with toSweep := x.toSweep.drop 1, toAck := x.toAck ++ [n] } else x } }

/-- The tenant of an issued command of core `n`: of its launch, where its task has ended (R28, R376). -/
def cmdTenant (s : State) (n : Nat) (m : Cmd) : Nat :=
  match m.ended with
  | some t => (match s.sched.launches.find? fun l => decide (l.1 = t.lk) with
    | some l => l.2.tenant
    | none => (s.core n).sys.tenant)
  | none => (s.core n).sys.tenant

/-- Is a link or collective operation under a matching receive-spool handle under way at the hubs (R364, R397)? -/
def spoolStale (s : State) (w : Sweep) : Bool :=
  s.work.any fun x => match x.2 with
    | .contrib m => decide (grpTenant (groupEntry s m.group) = w.tenant) && (match (rspool s m.group m.dst).2.toOption with
      | some h => staleHandle h w.family w.gen
      | none => false)
    | _ => false

/-- Has every issued command under a matching handle completed at a core, and every handle word in progress (R198), or every such operation
at a hub (R397)? -/
def ackReady (s : State) (w : Sweep) (n : Nat) : Bool :=
  if 256 ≤ n then !spoolStale s w else
  ((List.range 32).all fun h => decide (mapGet 0 (s.core n).seq.ready (64 + h) ≤ s.cyc)) && !((s.core n).cmds.any fun m => decide (cmdTenant s n m = w.tenant) && decide (m.e.h.st ≠ .empty) &&
    staleHandle m.e.h.bits w.family w.gen)

/-- The first acknowledgement that can be given. -/
def ackDue (s : State) : Option (Sweep × Nat) :=
  s.dev.sweeps.findSome? fun w => if w.toSweep = [] then (match w.toAck.find? (ackReady s w) with
    | some n => some (w, n)
    | none => if w.toAck = [] then some (w, 260) else none) else none

/-- SWEEP_ACK (R397): the last acknowledgement completes the sweep. -/
def execSweepAck (s : State) : Ans :=
  match ackDue s with
  | none => .next s
  | some (w, n) =>
    let left := w.toAck.filter fun m => m ≠ n
    if left.isEmpty then .next { s with dev := { s.dev with sweeps := s.dev.sweeps.filter fun x => x ≠ w } }
    else .next { s with dev := { s.dev with sweeps := s.dev.sweeps.map fun x => if x = w then { x with toAck := left } else x } }

/-- Begin a revocation (R396, R397): the new generation, then the sweep of the partition and of the four hubs. -/
def bumpFamily (s : State) (tenant family : Nat) : State :=
  let g := genOf s tenant family
  if 0xFFFF ≤ g then s
  else { s with dev := { s.dev with
    gens := mapSet 0 s.dev.gens (tenant * 256 + family) (g + 1)
    sweeps := s.dev.sweeps ++ [⟨tenant, family, g + 1, partitionOf s tenant ++ [256, 257, 258, 259], []⟩] } }

/-- Fresh keys for a slot of a tenant, free values (log entry 1), and one more load of it (R399). -/
def freshKeys (s : State) (tenant slot : Nat) : State :=
  let k := mapGet 0 s.dev.keys (2 * tenant + slot)
  let fresh := joinNat 64 ((List.range 16).map fun i => (Config.freeValue 10 (s.free * 16 + i)).toNat)
  let k' : BitVec 1088 := BitVec.ofNat 1088 (fresh + 2 ^ 1024 + (fieldOf k 1056 32 + 1) % 2 ^ 32 * 2 ^ 1056)
  { s with free := s.free + 1, dev := { s.dev with keys := mapSet 0 s.dev.keys (2 * tenant + slot) k' } }

/-- A tenant's frame still stored under the old key slot (R400). -/
def rotFrame (s : State) (r : Rotation) : Option Nat :=
  (s.dev.pot.find? fun e => decide (fieldOf e.2 0 10 = r.tenant) && decide (potState e.2 = 1 ∨ potState e.2 = 2 ∨ potState e.2 = 4)
    && decide (fieldOf e.2 14 1 = r.slotA)).map (·.1)

/-- The hub reads every granule of a frame and writes it again: corrections and failing blocks take their course (R253 to R256), charged
to no launch; the bytes count for the stack alone (R421). -/
def readFrame (s : State) (f : Nat) : State :=
  let wrong := ((s.dev.tagBad.filter fun e => decide (e.1 / 128 = f)).map fun e => 512 * e.1) ++
    (((s.dev.dbe ++ s.dev.sbe).filter fun e => decide (e.1 / 512 = f)).map fun e => 128 * e.1)
  let s1 := wrong.foldl (fun s pa => (hubReadGran s pa).1) s
  addUsage (addUsage { s1 with meas := { s1.meas with usage := s.meas.usage } } (320 + 2 * stackOf (65536 * f)) 65536)
    (321 + 2 * stackOf (65536 * f)) 65536

/-- ROTATION_FRAME (R400): one frame is re-encrypted, keeping its plaintext; blocks whose tag fails take the syndrome; with
no frame left the tenant's active slot changes and the old one is erased. -/
def execRotationFrame (s : State) : Ans :=
  match s.dev.rots with
  | [] => .next s
  | r :: rest =>
    match rotFrame s r with
    | some f =>
      let s := readFrame s f
      let e := mapGet 0 s.dev.pot f
      .next { s with dev := { s.dev with pot := mapSet 0 s.dev.pot f (setField e 14 1 (1 - r.slotA)) } }
    | none =>
      let t := mapGet 0 s.dev.tenant r.tenant
      let t := setField (setField t 73 1 (1 - r.slotA)) 74 1 0
      let k := mapGet 0 s.dev.keys (2 * r.tenant + r.slotA)
      .next { s with dev := { s.dev with
        rots := rest, tenant := mapSet 0 s.dev.tenant r.tenant t
        keys := mapSet 0 s.dev.keys (2 * r.tenant + r.slotA) (BitVec.ofNat 1088 (fieldOf k 1056 32 * 2 ^ 1056)) } }

/-- A clear of an error bank (R401, R402): bits of EBSTAT written as ones; bit 62 frees FIRST, bit 63 frees NEXT. -/
def clearBank (b : Bank) (v : Word) : Bank :=
  let st := b.stat
  let st := if fieldOf v 0 16 ≠ 0 then setField st 0 16 0 else st
  let st := if fieldOf v 16 16 ≠ 0 then setField st 16 16 0 else st
  let st := if fieldOf v 32 8 ≠ 0 then setField st 32 8 0 else st
  let st := if v.getLsbD 40 then setField st 40 1 0 else st
  let snd := if v.getLsbD 63 then 0 else b.second
  if v.getLsbD 62 then ⟨st, snd, 0⟩ else ⟨st, b.first, snd⟩

/-- ERROR_SLOT_CLEAR (R402) of bank `idx`: clearing FIRST moves NEXT into it in one step. -/
def execErrorSlotClear (o : IdxValEv) (s : State) : Ans :=
  .next { s with dev := { s.dev with
    banks := mapSet Bank.zero s.dev.banks o.idx (clearBank (mapGet Bank.zero s.dev.banks o.idx) o.value) } }

end Sys2Proof.Machine
end

