-- ==== Sys2Proof/Machine/Context.lean ====
section
/-! DEFINITION. The context-save engine (13 R347 to R350, 15 R398) and the failure of a core (13 R351, 01 R39). -/

namespace Sys2Proof.Machine

/-- Start of save slot `n` (R347). -/
def slotBase (l : Launch) (n : Nat) : Nat := fieldOf l.pkt 768 48 + 4096 + 0x00A00000 * n

/-- A field of a slot's header: its width in bits, what a core puts into it, and the core that takes it back. -/
abbrev HeadField := Nat × (Core → Nat) × (Core → Nat → Core)

/-- The cut, the PC, the loop stack, PSUM, MXEVT and the trap registers (R347); the cut's numbers are those of the entries themselves. -/
def headSeq : List HeadField :=
  let cut (q : Nat) : HeadField := (32, fun c => cutOf (c.queue q), fun c _ => c)
  let sys (w : Nat) (g : SysSt → Nat) (f : SysSt → Nat → SysSt) : HeadField := (w, fun c => g c.sys, fun c v => { c with sys := f c.sys v })
  (List.range 4).map cut
    ++ [(32, fun c => c.seq.pc.toNat, fun c v => { c with seq := { c.seq with pc := BitVec.ofNat 32 v } })]
    ++ (List.range 4).map (fun n => ((128, fun c => (mapGet 0 c.seq.lstk n).toNat,
      fun c v => { c with seq := { c.seq with lstk := mapSet 0 c.seq.lstk n (BitVec.ofNat 128 v) } }) : HeadField))
    ++ [(64, fun c => c.seq.psum.toNat, fun c v => { c with seq := { c.seq with psum := BitVec.ofNat 64 v } }),
      (64, fun c => c.mx.mxevt.toNat, fun c v => { c with mx := { c.mx with mxevt := BitVec.ofNat 64 v } }),
      sys 32 (·.trapvec.toNat) (fun y v => { y with trapvec := BitVec.ofNat 32 v }),
      sys 64 (·.trapen.toNat) (fun y v => { y with trapen := BitVec.ofNat 64 v }),
      sys 16 (·.cause.toNat) (fun y v => { y with cause := BitVec.ofNat 10 v }),
      sys 16 (·.inh.toNat) (fun y v => { y with inh := decide (v ≠ 0) }),
      sys 64 (·.info0.toNat) (fun y v => { y with info0 := BitVec.ofNat 64 v }),
      sys 64 (·.info1.toNat) (fun y v => { y with info1 := BitVec.ofNat 64 v }),
      sys 32 (·.cutpc.toNat) (fun y v => { y with cutpc := BitVec.ofNat 32 v }),
      sys 32 (·.cutM.toNat) (fun y v => { y with cutM := BitVec.ofNat 32 v }),
      sys 32 (·.cutV.toNat) (fun y v => { y with cutV := BitVec.ofNat 32 v }),
      sys 32 (·.cutC.toNat) (fun y v => { y with cutC := BitVec.ofNat 32 v }),
      sys 32 (·.cutL.toNat) (fun y v => { y with cutL := BitVec.ofNat 32 v }),
      sys 64 (·.scr0.toNat) (fun y v => { y with scr0 := BitVec.ofNat 64 v }),
      sys 64 (·.scr1.toNat) (fun y v => { y with scr1 := BitVec.ofNat 64 v })]

/-- The spool registers, the landing slots, RNDSEED and the liveness descriptor in force (R347). -/
def headSys : List HeadField :=
  let sys (w : Nat) (g : SysSt → Nat) (f : SysSt → Nat → SysSt) : HeadField := (w, fun c => g c.sys, fun c v => { c with sys := f c.sys v })
  [sys 64 (·.inboxBase) (fun y v => { y with inboxBase := v }), sys 64 (·.inboxSize) (fun y v => { y with inboxSize := v }),
    sys 64 (·.inboxProd) (fun y v => { y with inboxProd := v, inboxRes := v }), sys 64 (·.inboxCons) (fun y v => { y with inboxCons := v }),
    sys 64 (·.replyBase) (fun y v => { y with replyBase := v }), sys 64 (·.replySize) (fun y v => { y with replySize := v }),
    sys 64 (·.replyProd) (fun y v => { y with replyProd := v }), sys 64 (·.replyCons) (fun y v => { y with replyCons := v })]
    ++ (List.range 16).map (fun n => sys 64 (fun y => (mapGet 0 y.lslot n).toNat)
      (fun y v => { y with lslot := mapSet 0 y.lslot n (BitVec.ofNat 64 v) }))
    ++ [sys 64 (·.rndseed.toNat) (fun y v => { y with rndseed := BitVec.ofNat 64 v }), sys 32 (·.livedesc) (fun y v => { y with livedesc := v }),
      sys 32 (·.lvalid.toNat) (fun y v => { y with lvalid := decide (v ≠ 0) }),
      sys 512 (·.live.toNat) (fun y v => { y with live := BitVec.ofNat 512 v })]

/-- The next sequence numbers, running or slack, the semaphores, the counts, CNTSH, the remaining-time estimate, and the tiles' shapes,
types and row codes (R347). -/
def headRest : List HeadField :=
  let task (w : Nat) (g : TaskSt → Nat) (f : TaskSt → Nat → TaskSt) : HeadField := (w, fun c => g c.task, fun c v => { c with task := f c.task v })
  let tile (w t : Nat) (g : Tile → Nat) (f : Tile → Nat → Tile) : HeadField := (w, fun c => g (mapGet Tile.zero c.mx.tiles t),
    fun c v => { c with mx := { c.mx with tiles := mapSet Tile.zero c.mx.tiles t (f (mapGet Tile.zero c.mx.tiles t) v) } })
  (List.range 4).map (fun q => ((32, fun c => (c.queue q).next, fun c v => c.setQueue q { c.queue q with next := v }) : HeadField))
    ++ (List.range 4).map (fun q => ((32, fun c => (c.queue q).running.toNat,
      fun c v => c.setQueue q { c.queue q with running := decide (v ≠ 0) }) : HeadField))
    ++ (List.range 16).map (fun n => ((64, fun c => (semWord (getSem c n)).toNat,
      fun c v => setSem c n ⟨v % 2 ^ 16, v / 2 ^ 16 % 2 ^ 16, decide (v / 2 ^ 32 % 2 = 1)⟩) : HeadField))
    ++ [task 64 (·.wall) (fun t v => { t with wall := v }), task 64 (·.fcs) (fun t v => { t with fcs := v }),
      task 64 (·.frozen) (fun t v => { t with frozen := v }),
      (64, fun c => c.sys.wdcount.toNat, fun c v => { c with sys := { c.sys with wdcount := BitVec.ofNat 64 v } }),
      task 64 (·.words) (fun t v => { t with words := v }), task 64 (·.w.toNat) (fun t v => { t with w := BitVec.ofNat 64 v }),
      (64, fun c => c.cn.cntsh.toNat, fun c v => { c with cn := { c.cn with cntsh := BitVec.ofNat 32 v } }),
      (64, remaining, fun c v => { c with task := { c.task with rem := v, remAt := c.task.fcs } })]
    ++ (List.range 8).flatMap fun t => [tile 16 t (·.rows) (fun x v => { x with rows := v }), tile 16 t (·.cols) (fun x v => { x with cols := v }),
      tile 16 t (·.int.toNat) (fun x v => { x with int := decide (v ≠ 0) }), tile 16 t (·.drows) (fun x v => { x with drows := v }),
      tile 16 t (·.dcols) (fun x v => { x with dcols := v }), tile 16 t (·.dint.toNat) (fun x v => { x with dint := decide (v ≠ 0) }),
      tile 256 t (fun x => joinNat 2 ((List.range 128).map fun r => (mapGet 0 x.codes r).toNat))
        (fun x v => { x with codes := (List.range 128).foldl (fun m r => mapSet 0 m r (BitVec.ofNat 2 (v / 4 ^ r))) [] })]

/-- The fields of a slot's header, in the order in which R347 names them, one after another from its first byte (log entry 73). -/
def headFields : List HeadField := headSeq ++ headSys ++ headRest

/-- Fields put one after another. -/
def headBits (c : Core) : List HeadField → Nat
  | [] => 0
  | (w, g, _) :: t => g c % 2 ^ w + 2 ^ w * headBits c t

/-- Fields taken back one after another. -/
def headTake (c : Core) : Nat → List HeadField → Core
  | _, [] => c
  | v, (w, _, f) :: t => headTake (f c (v % 2 ^ w)) (v / 2 ^ w) t

/-- A saved queue entry (R347). -/
def entryBits (e : QEntry) : Nat :=
  let w := (encode e.i).getD 0
  let slot := if (slotReg e.i).isSome then e.slot.toNat else 0
  w.toNat + e.d * 2 ^ 48 + handleNo e.h.st * 2 ^ 52 + (if e.mark then 2 ^ 54 else 0) + e.seq % 2 ^ 32 * 2 ^ 64
    + joinNat 64 ((e.caps.take 3).map (·.toNat)) * 2 ^ 128 + e.sysv.toNat * 2 ^ 320 + slot * 2 ^ 384
    + e.h.bits.toNat * 2 ^ 512 + e.ga.toNat * 2 ^ 1024 + e.gb.toNat * 2 ^ 1280

/-- The bytes of the register area of a core (R347). -/
def regBytes (c : Core) : Map (BitVec 8) := (regSlots c).foldl (fun m x => memWriteNat m x.1 x.2.1 x.2.2) []

/-- The granules of a core's save image: offset in the slot, and data (R347, R348). -/
def saveImage (c : Core) : List (Nat × BitVec 1024) :=
  let head := headBits c headFields
  let regs := regBytes c
  let vecs := (List.range 1024).flatMap fun v => if liveV c v then
      (List.range 8).map fun j => (0x10000 + 1024 * v + 128 * j, (mapGet VReg.zero c.vec.v v).bits.extractLsb' (1024 * j) 1024) else []
  let tiles := (List.range 8).flatMap fun t => if liveT c t then
      (List.range 512).map fun k => (0x110000 + 65536 * t + 128 * k, BitVec.ofNat 1024 (joinNat 32
        ((List.range 32).map fun i => (mapGet 0 (mapGet Tile.zero c.mx.tiles t).elems (32 * k + i)).toNat))) else []
  let ents := (List.range 4).flatMap fun q => ((c.queue q).ents.zipIdx).flatMap fun x =>
    let b := entryBits x.1
    [(0x190000 + 16384 * q + 256 * x.2, BitVec.ofNat 1024 b), (0x190080 + 16384 * q + 256 * x.2, BitVec.ofNat 1024 (b / 2 ^ 1024))]
  let pad := (List.range 64).flatMap fun j => if liveB c j then
      (List.range 1024).map fun k => (0x200000 + 131072 * j + 128 * k,
        BitVec.ofNat 1024 (memReadNat c.sp.bytes (131072 * j + 128 * k) 128)) else []
  (List.range 32).map (fun k => (128 * k, BitVec.ofNat 1024 (head / 2 ^ (1024 * k))))
    ++ (regGranNos c).map (fun g => (128 * g, BitVec.ofNat 1024 (memReadNat regs (128 * g) 128)))
    ++ vecs ++ tiles ++ ents ++ pad

/-- Write the granules of a slot, to the first that cannot be written: its address, and why. -/
def putSlot (s : State) (n : Nat) (l : Launch) (base : Nat) : List (Nat × BitVec 1024) → State × Option (Nat × PutRes)
  | [] => (s, none)
  | g :: t =>
    match devPutGran s n (lAsid l) (base + g.1) l.tenant g.2 with
    | (s, .done) => putSlot s n l base t
    | (s, r) => (s, some (base + g.1, r))

/-- The scratchpad lines that a save reads (R348). -/
def saveLines (c : Core) : List Nat :=
  (List.range 64).flatMap fun j => if liveB c j then (List.range 1024).map (1024 * j + ·) else []

/-- Its reads find and count the errors of the lines (R226). -/
def saveReads (c : Core) (cyc : Nat) : Core :=
  ((saveLines c).filter fun l => (List.range 16).any fun u =>
    mapGet false c.sp.sbe (16 * l + u) || mapGet false c.sp.dbe (16 * l + u)).foldl (fun c l => touchReadAs 15 c cyc (128 * l) 128) c

/-- Read granules of a slot for core `n`, one after another, to the first that cannot be read: each with its offset, its data and whether it
is poisoned; then whether one was corrected (R254 to R256). With `strict` a poisoned one ends it, as at the loads of R337. -/
def getSlot (s : State) (n : Nat) (l : Launch) (base : Nat) (strict : Bool) :
    List Nat → State × Except StartErr (List (Nat × Nat × Bool) × Bool)
  | [] => (s, .ok ([], false))
  | off :: t =>
    match walkTo s (lAsid l) (base + off) l.tenant false with
    | (s, .fault) => (s, .error (.fault n causeTranslation))
    | (s, .owner) => (s, .error (.viol n causeOwner (BitVec.ofNat 64 (base + off))))
    | (s, .pa a) =>
      let (s, v, bad, cor) := fetchPart s a 128
      if strict && bad then (s, .error (.fault n causePoisonStore))
      else match getSlot s n l base strict t with
        | (s, .ok (r, k)) => (s, .ok ((off, v, bad) :: r, cor || k))
        | x => x

/-- A queue entry read back from its record (R347, R350). -/
def entryFrom (e : QEntry) (b : Nat) : QEntry :=
  let f (lo len : Nat) : Nat := b / 2 ^ lo % 2 ^ len
  let i := match decode (BitVec.ofNat 48 (f 0 48)) with
    | .ok i => if isEngine i then i else e.i
    | .illegal _ => e.i
  { e with
    i := i, d := f 48 4, mark := decide (f 54 1 = 1), seq := f 64 32
    h := ⟨BitVec.ofNat 512 (f 512 512), if f 52 2 = 1 then .valid else if f 52 2 = 2 then .revoked else .empty⟩
    caps := e.caps.zipIdx.map fun x => if x.2 < 3 then BitVec.ofNat 64 (f (128 + 64 * x.2) 64) else x.1
    sysv := BitVec.ofNat 64 (f 320 64), slot := BitVec.ofNat 64 (f 384 64)
    ga := BitVec.ofNat 256 (f 1024 256), gb := BitVec.ofNat 256 (f 1280 256) }

/-- The register area read back: each register that was saved takes what its bytes hold (R347, R350). -/
def takeRegs (c : Core) (m : Map (BitVec 8)) : Core :=
  let at_ (a n : Nat) : Nat := memReadNat m a n
  let st (n : Nat) : HState := if at_ (0x2F00 + n) 1 = 1 then .valid else if at_ (0x2F00 + n) 1 = 2 then .revoked else .empty
  let each {α : Type} (n : Nat) (live : Nat → Bool) (f : α → Nat → α) (x : α) : α := ((List.range n).filter live).foldl f x
  let ss := each 64 (liveR c 0) (fun r n => mapSet 0 r n (BitVec.ofNat 64 (at_ (0x1000 + 8 * n) 8))) c.seq.s
  let ps := each 16 (liveR c 264) (fun r n => mapSet PReg.zero r n
    ⟨BitVec.ofNat 1024 (at_ (0x1200 + 256 * n) 128), BitVec.ofNat 16 (at_ (0x1280 + 256 * n) 2)⟩) c.vec.p
  let vs := each 1024 (liveV c) (fun r n => mapSet VReg.zero r n
    { mapGet VReg.zero r n with codes := BitVec.ofNat 16 (at_ (0x3000 + 2 * n) 2) }) c.vec.v
  let gs := each 32 (liveR c 200) (fun r n => mapSet 0 r n (BitVec.ofNat 256 (at_ (0x2200 + 32 * n) 32))) c.mx.g
  let hs := each 32 (liveR c 232) (fun r n => mapSet Handle.none r n ⟨BitVec.ofNat 512 (at_ (0x2600 + 64 * n) 64), st n⟩) c.h
  let ks := each 16 (liveR c 296) (fun r n => mapSet Counter.zero r n
    { Counter.zero with value := BitVec.ofNat 64 (at_ (0x2E00 + 16 * n) 8), cfg := BitVec.ofNat 64 (at_ (0x2E08 + 16 * n) 8) }) c.cn.cnt
  { c with
    seq := { c.seq with s := ss }
    vec := { c.vec with p := ps, v := vs }
    mx := { c.mx with g := gs }
    h := hs
    cn := { c.cn with cnt := ks } }

/-- One granule of a vector, a tile or the scratchpad read back; a poisoned one gives its segment, its row or its line ERROR (R26,
R254). -/
def takeData (c : Core) (x : Nat × Nat × Bool) : Core :=
  let (off, b, bad) := x
  if off < 0x110000 then
    let v := (off - 0x10000) / 1024
    let j := off / 128 % 8
    let r := mapGet VReg.zero c.vec.v v
    let bits := r.bits.toNat - r.bits.toNat / 2 ^ (1024 * j) % 2 ^ 1024 * 2 ^ (1024 * j) + b * 2 ^ (1024 * j)
    let x : VReg := ⟨BitVec.ofNat 8192 bits, if bad then r.codes ||| (3#16 <<< (2 * j)) else r.codes⟩
    { c with vec := { c.vec with v := mapSet VReg.zero c.vec.v v x } }
  else if off < 0x190000 then
    let t := (off - 0x110000) / 65536
    let k := (off - 0x110000) / 128 % 512
    let r := mapGet Tile.zero c.mx.tiles t
    let es := (List.range 32).foldl (fun m i => mapSet 0 m (32 * k + i) (BitVec.ofNat 32 (b / 2 ^ (32 * i)))) r.elems
    let x : Tile := { r with elems := es, codes := if bad then mapSet 0 r.codes (k / 4) 3 else r.codes }
    { c with mx := { c.mx with tiles := mapSet Tile.zero c.mx.tiles t x } }
  else
    let a := off - 0x200000
    let bytes := memWriteNat c.sp.bytes a 128 b
    { c with sp := { c.sp with bytes := bytes, code := if bad then mapSet 0 c.sp.code (lineOf a) 3 else c.sp.code } }

/-- The entries of a queue read back, in their places. -/
def takeEnts (c : Core) (q : Nat) (gs : List (Nat × Nat × Bool)) : Core :=
  let at_ (off : Nat) : Nat := match gs.find? fun g => g.1 = off with
    | some g => g.2.1
    | none => 0
  let x := c.queue q
  let es := x.ents.zipIdx.map fun e =>
    entryFrom e.1 (at_ (0x190000 + 16384 * q + 256 * e.2) + 2 ^ 1024 * at_ (0x190080 + 16384 * q + 256 * e.2))
  c.setQueue q { x with ents := es }

/-- The granules of a slot that hold vectors, tiles and regions of the scratchpad. -/
def dataGrans (c : Core) : List Nat :=
  ((List.range 1024).flatMap fun v => if liveV c v then (List.range 8).map fun j => 0x10000 + 1024 * v + 128 * j else [])
    ++ ((List.range 8).flatMap fun t => if liveT c t then (List.range 512).map fun k => 0x110000 + 65536 * t + 128 * k else [])
    ++ (List.range 64).flatMap fun j => if liveB c j then (List.range 1024).map fun k => 0x200000 + 131072 * j + 128 * k else []

/-- The slot is read back before the first fetch (R350): the core as memory now holds it, and whether a granule was corrected. The
header, the registers and the queue entries must be free of poison (R337). -/
def readSlot (s : State) (n : Nat) (l : Launch) (base : Nat) (sv : Core) : State × Except StartErr (Core × Bool) :=
  match getSlot s n l base true ((List.range 32).map (128 * ·)) with
  | (s, .error e) => (s, .error e)
  | (s, .ok (hd, k1)) =>
    let c := headTake sv (joinNat 1024 (hd.map (·.2.1))) headFields
    match getSlot s n l base true ((regGranNos c).map (128 * ·)) with
    | (s, .error e) => (s, .error e)
    | (s, .ok (rg, k2)) =>
      let c := takeRegs c (rg.foldl (fun m g => memWriteNat m g.1 128 g.2.1) [])
      match getSlot s n l base true ((List.range 4).flatMap fun q => (c.queue q).ents.zipIdx.flatMap fun e =>
          [0x190000 + 16384 * q + 256 * e.2, 0x190080 + 16384 * q + 256 * e.2]) with
      | (s, .error e) => (s, .error e)
      | (s, .ok (es, k3)) =>
        let c := (List.range 4).foldl (fun c q => takeEnts c q es) c
        match getSlot s n l base false (dataGrans c) with
        | (s, .error e) => (s, .error e)
        | (s, .ok (ds, k4)) => (s, .ok (ds.foldl takeData c, k1 || k2 || k3 || k4))

/-- The cut of a task that leaves its core (R303, R344): barriers in wait are abandoned; the queues keep their entries. -/
def cutCore (c : Core) : Core :=
  let c := abandon c
  { c with seq := { c.seq with wait := none }, task := { c.task with wBase := c.task.w.toNat } }

/-- A save is complete: the image stands in slot `k`, the record is ready again and marked saved, the core is idle (R346 to
R348). Messages wait for the core's next task (R348); parked words of ended tasks stay with the core. Where a granule of the slot cannot be
written, the cause is raised on the core (R264, R388, R392) and nothing is saved. -/
def saveInto (s : State) (n : Nat) (l : Launch) (k : Nat) : State :=
  let s := s.setCore n (bankUse (countAll (saveReads (s.core n) s.cyc)) s.cyc (saveLines (s.core n)))
  match putSlot s n l (slotBase l k) (saveImage (cutCore (s.core n))) with
  | (s, some (va, .owner)) => violateCore (addWorkAt s 1 (.save n)) n 0 (BitVec.ofNat 64 va)
  | (s, some (_, .full a)) => raiseAsync (addWorkAt s 1 (.save n)) n causeLogFull 0 (BitVec.ofNat 64 a) 0
  | (s, some (va, _)) => raiseAsync (addWorkAt s 1 (.save n)) n causeTranslation 0 (BitVec.ofNat 64 va) 0
  | (s, none) =>
    let s := noteWork (unarrive s n) n
    let c := s.core n
    let cnt := c.cn.cnt.map fun e =>
      (e.1, if c.cn.claim.getLsbD e.1 then { Counter.zero with value := e.2.gvalue, cfg := e.2.gcfg } else e.2)
    let saved := cutCore { c with
      cn := { c.cn with cnt := cnt }, msgs := [], sys := { c.sys with inboxRes := c.sys.inboxProd }
      cmds := c.cmds.filter (·.ended.isNone) }
    let rec_ := c.task.recno
    let recs := match s.sched.recs.find? fun e => e.1 = rec_ with
      | some (_, r) => mapPut s.sched.recs rec_ { r with busy := false, join := 0, readyAt := s.cyc, patience := false, saved := some k }
      | none => s.sched.recs
    let s := { s with sched := { s.sched with recs := recs, saved := mapPut s.sched.saved rec_ saved } }
    let s := retag s fun w => if w.1 = n ∧ w.2 < 2 ^ 32 then some (256 + rec_, w.2) else some w
    refill (ctxLeave (s.setCore n { idleCore c with
      qm := EQueue.zero, qv := EQueue.zero, qc := EQueue.zero, ql := EQueue.zero }) c.sys.casid n)

/-- CONTEXT_SAVE (R225, R228, R344, R346 to R348): once the banks it reads are ACTIVE, the image is written to the slot that was
set aside; a line that is not the tenant's is an OWNER violation. A cause that an issued entry raises while the task is being stopped is taken
first: it escalates (R215, R344; log entry 73). -/
def execContextSave (s : State) : Ans :=
  match workDue s (fun it => match it with
    | .save _ => true
    | _ => false) with
  | some (i, .save n) =>
    let s := s.dropWork i
    let c := s.core n
    if c.life ≠ .saving then .next s
    else if c.trap.isSome then .next (addWorkAt s 1 (.save n))
    else match launchOf s c.task.launch, s.sched.recs.find? fun e => e.1 = c.task.recno with
      | some l, some (_, r) =>
        if bankWaits c (saveLines c) then .next (addWorkAt (s.setCore n (bankUse c s.cyc (saveLines c))) 2048 (.save n))
        else match (saveLines c).find? fun x => !tagOk c x with
          | some x => .next (violateCore s n 0 (BitVec.ofNat 64 (128 * x)))
          | none => match r.saved with
            | some k => .next (saveInto s n l k)
            | none => .next s
      | _, _ => .next s
  | _ => .next s

/-- Unsaved state holds zero or what another task of the tenant left (R349): a free bit decides, register by register. -/
def unsaved {α : Type} (c : Core) (k : Nat) (zero old : α) : α := if freeBit c (8192 + k) then old else zero

/-- A map whose unsaved entries are settled: kept where `live`, else settled as R349 allows. -/
def mergeMap {α : Type} [DecidableEq α] (c : Core) (k0 n : Nat) (zero : α) (live : Nat → Bool) (sv old : Map α) : Map α :=
  (List.range n).foldl (fun m i =>
    let v := if live i then mapGet zero sv i else unsaved c (k0 + i) zero (mapGet zero old i)
    mapSet zero m i v) []

/-- The scratchpad after resumption (R348, R349): the regions that were saved as they were read back, with fresh check bits (R226); of the
others a free bit decides whether a region holds zeros or what another task of the tenant left, its errors included. -/
def mergePad (c sv : Core) : SpadSt :=
  let keep (a : Nat) : Bool := liveB sv (a / 131072)
  let old (a : Nat) : Bool := !keep a && freeBit c (65536 + a / 131072)
  let bytes := (c.sp.bytes.filter fun e => old e.1).foldl (fun m e => memWrite m e.1 e.2) (sv.sp.bytes.filter fun e => keep e.1)
  let code := (c.sp.code.filter fun e => old (128 * e.1)).foldl (fun m e => mapSet 0 m e.1 e.2)
    (sv.sp.code.filter fun e => keep (128 * e.1))
  { c.sp with
    bytes := bytes, code := code, tag := [], tagDef := sv.sys.tenant, dbe := c.sp.dbe.filter fun e => old (8 * e.1)
    sbe := c.sp.sbe.filter fun e => old (8 * e.1), acc := [], lines := [], stale := [], srace := [], erace := [] }

/-- Stale handles and captured handles at resumption (R398). -/
def restale (s : State) (c : Core) : Core :=
  let bad (h : Handle) : Bool := decide (h.st = .valid) && decide (hGen h.bits ≠ genOf s c.sys.tenant (hFamily h.bits))
  let one (e : QEntry) : QEntry := { e with mark := e.mark || bad e.h }
  let q (x : EQueue) : EQueue := { x with ents := x.ents.map one }
  { c with
    h := c.h.map fun e => (e.1, if bad e.2 then ⟨0, .revoked⟩ else e.2)
    qm := q c.qm, qv := q c.qv, qc := q c.qc, ql := q c.ql }

/-- The core of a resumed task (R349, R350): the saved state on the unit it was dispatched to, new time origins (R86). The header is saved
always: the landing slots and the tiles' shapes, types and row codes are as saved; TIMECMP and EVENTS.SEMPOST, which no part of the slot
holds, are unsaved state. The seating chart and its snapshots stay the core's own (R417, R418). -/
def resumed (s : State) (c sv : Core) : Core :=
  let vec : VecSt := { v := mergeMap c 0 1024 VReg.zero (liveV sv) sv.vec.v c.vec.v, p := mergeMap c 1024 16 PReg.zero (liveR sv 264) sv.vec.p c.vec.p
                       dup := [], vbad := [], pbad := [] }
  let tile (t : Nat) : Tile :=
    let x := mapGet Tile.zero sv.mx.tiles t
    if liveT sv t then x else { x with elems := unsaved c (1100 + t) [] (mapGet Tile.zero c.mx.tiles t).elems }
  let mx : MxSt := { sv.mx with
    tiles := (List.range 8).foldl (fun m t => mapSet Tile.zero m t (tile t)) []
    g := mergeMap c 1110 32 0 (liveR sv 200) sv.mx.g c.mx.g, arrayEnd := c.fc, jobs := [], lastw := [] }
  let h := sv.h.filter fun e => liveR sv 232 e.1
  let s' := mergeMap c 1300 64 0 (liveR sv 0) sv.seq.s c.seq.s
  let guest (n : Nat) : Counter := let x := mapGet Counter.zero c.cn.cnt n
    if c.cn.claim.getLsbD n then { Counter.zero with value := x.gvalue, cfg := x.gcfg } else x
  let cnt := mergeMap c 1400 16 Counter.zero (liveR sv 296) sv.cn.cnt ((List.range 16).map fun n => (n, guest n))
  let cnt := (List.range 16).foldl (fun m n => if c.cn.claim.getLsbD n then
      (let p := mapGet Counter.zero c.cn.cnt n
       let g := mapGet Counter.zero m n
       mapSet Counter.zero m n { p with gvalue := g.value, gcfg := g.cfg }) else m) cnt
  let sys : SysSt := { sv.sys with
    prcore := c.sys.prcore, tenant := c.sys.tenant, casid := c.sys.casid, owner := c.sys.owner, launchid := c.sys.launchid
    timecmp := unsaved c 1500 0 c.sys.timecmp, timer := false, sempost := unsaved c 1501 false c.sys.sempost }
  let q (x : EQueue) : EQueue := { x with ents := x.ents.map fun e => { e with minFc := 0 } }
  let d : Core := { sv with
    life := if sv.task.exited then .draining else .running, frozenV := false, dstop := sv.dstop, failed := c.failed, fc := c.fc, entered := c.entered
    stall := c.stall, errs := c.errs, nfree := c.nfree + 1, vec := vec, mx := mx, h := h, sys := sys, sp := mergePad c sv
    seq := { sv.seq with s := s', nextAt := s.cyc + 1, ready := [], wait := none, gens := c.seq.gens }
    cn := { c.cn with k := sv.cn.k, kprev := sv.cn.k, kposts := [], cnt := cnt, cntsh := sv.cn.cntsh }
    cmds := sv.cmds ++ c.cmds.filter (·.ended.isSome), task := { sv.task with told := false, recno := c.task.recno }
    qm := q sv.qm, qv := q sv.qv, qc := q sv.qc, ql := q sv.ql
    msgs := c.msgs, land := [], trap := none, trapNow := false, heldq := 0, late := [], exempt := true }
  let d := newOrigins (restale s d)
  if sv.task.exited then { d with seq := { d.seq with reorig := false } } else d

/-- The core that a loading core resumes as, after the slot has been read back; none has been saved where it is not there (R350). -/
def loadSaved (s : State) (n : Nat) : State × Except StartErr (Option (Core × Bool)) :=
  let k := (s.core n).task.recno
  match s.sched.saved.find? fun e => e.1 = k, s.sched.recs.find? fun e => e.1 = k, launchOf s (s.core n).task.launch with
  | some (_, sv), some (_, r), some l =>
    (match r.saved with
    | some slot =>
      (match readSlot s n l (slotBase l slot) sv with
      | (s, .ok x) => (s, .ok (some x))
      | (s, .error e) => (s, .error e))
    | none => (s, .ok none))
  | _, _, _ => (s, .ok none)

/-- Has the word of a saved task had its effect while it was away, so that it completes at resumption (R368, R376)? A CSEND under DL that was not
dropped waits for its verdict like any other (R373). -/
def awayDone (m : Cmd) : Bool :=
  decide (m.old = 1) && (match m.e.i with
    | .csend _ => decide (m.code = 1)
    | _ => true)

/-- One member resumes as `sv` (R350): its slot is free again; words whose contribution arrived meanwhile complete. -/
def resumeOne (s : State) (n : Nat) (sv : Core) (corr : Bool) : State :=
  let c := s.core n
  let k := c.task.recno
  let s := match s.sched.recs.find? fun e => e.1 = k, launchOf s c.task.launch with
    | some (_, r), some l =>
      let s := match r.saved with
        | some slot => slotBit s l slot false
        | none => s
      { s with sched := { s.sched with recs := mapPut s.sched.recs k { r with saved := none } } }
    | _, _ => s
  let s := if corr then s.onLaunch c.task.launch fun l => { l with corrected := true } else s
  let s := { s with sched := { s.sched with saved := mapDel s.sched.saved k } }
  let s := retag s fun w => if w.1 = 256 + k then some (n, w.2) else some w
  let s := s.setCore n (resumed s c sv)
  ((sv.cmds.filter awayDone).map (·.e.seq)).foldl (fun s q => finishWord s n q) s

/-- Members resume one after another; the first whose slot cannot be read back ends it. -/
def resumeAll (s : State) : List Nat → State × Option StartErr
  | [] => (s, none)
  | n :: t =>
    match loadSaved s n with
    | (s, .error e) => (s, some e)
    | (s, .ok none) => resumeAll s t
    | (s, .ok (some (sv, corr))) => resumeAll (resumeOne s n sv corr) t

/-- The scratchpad lines that a resumption of core `n` writes. -/
def resumeLines (s : State) (n : Nat) : List Nat :=
  match s.sched.saved.find? fun e => e.1 = (s.core n).task.recno with
  | some (_, sv) => saveLines sv
  | none => []

/-- CONTEXT_RESUME (R350): every member of a group resumes in the same cycle, once the banks that it writes are ACTIVE (R228). A slot that cannot
be read back ends the launch, as a load at dispatch does (R337, R388, R392). -/
def execContextResume (s : State) : Ans :=
  match workDue s (fun it => match it with
    | .resume _ => true
    | _ => false) with
  | some (i, .resume n) =>
    let s := s.dropWork i
    let set := (startSet s n).filter fun m => decide ((s.core m).life = .loading)
    let asleep := set.any fun m => bankWaits (s.core m) (resumeLines s m)
    let s := set.foldl (fun s m => s.setCore m (bankUse (s.core m) s.cyc (resumeLines s m))) s
    if asleep then .next (addWorkAt s 2048 (.resume n))
    else match resumeAll s set with
      | (s, none) => .next s
      | (t, some (.fault m k)) => .next (faultTask { s with dev := t.dev, meas := t.meas, free := t.free } m k false)
      | (t, some (.viol m k w)) => .next (violationSteps { s with dev := t.dev, meas := t.meas, free := t.free } m k w)
  | _ => .next s

/-- Take away every piece of work that a core has under way. -/
def dropCoreWork (s : State) (n : Nat) : State :=
  let mine (it : Item) : Bool := match it with
    | .start m | .save m | .resume m => decide (m = n)
    | .ared m _ => decide (m = n)
    | it => match itemCmd it with
      | some (c, _, _) => decide (c = n)
      | none => false
  orphan { s with
    work := s.work.filter fun x => !mine x.2
    links := { s.links with hostReq := s.links.hostReq.filter fun x => !mine x.2.2 } } n

/-- The counts of a discarded run of core `n` go to its launch (R425, R461). -/
def countRun (s : State) (n : Nat) : State :=
  let t := (s.core n).task
  s.onLaunch t.launch fun l => { l with work := l.work + t.w.toNat, fcs := l.fcs + t.fcs }

/-- A core stops at once, without a cut; its task's record is ready again or, where the launch does not allow kill, its
launch ends FAULTED with UE_CONTROL (R351, R452). What its task has retired counts (R426); a save that it makes or is loaded from is given
up. -/
def dropTask (s : State) (n : Nat) : State :=
  let c := s.core n
  if c.life = .idle then s
  else
    let lk := c.task.launch
    let s := countRun (dropCoreWork (noteWork s n) n) n
    let kill := match launchOf s lk with
      | some l => lKill l
      | none => true
    let s := if c.life = .loading ∨ c.life = .saving then giveUp s c.task.recno else s
    let recs := match s.sched.recs.find? fun e => e.1 = c.task.recno with
      | some (_, r) => mapPut s.sched.recs c.task.recno { r with busy := false, join := 0, readyAt := s.cyc, patience := false, saved := none }
      | none => s.sched.recs
    let s := { s with sched := { s.sched with recs := recs } }
    let s := ctxLeave (s.setCore n { idleCore c with qm := EQueue.zero, qv := EQueue.zero, qc := EQueue.zero, ql := EQueue.zero }) c.sys.casid n
    if kill then checkEnding s lk else endLaunch s lk false causeUeControl c.task.x c.task.y c.task.z c.task.stage

/-- The site at which a member works (R16): site 8 where the spare replaces it. -/
def siteOf (s : State) (n : Nat) : Nat := if mapGet 0 s.plat.spare (n / 8) = n % 8 + 1 then 8 else n % 8

/-- CORE_FAILURE (R39, R260, R351) of core `idx`: its context is rolled back where it has recovery (log entry 140); its group's tasks
end; the spare site takes its index at the next placement on the form (log entry 78), or the form is disabled and its launches end
FAULTED. -/
def execCoreFailure (o : IdxEv) (s : State) : Ans :=
  let n := o.idx
  let f := n / 8
  let set := unitSet s n
  let s := if (s.core n).life = .idle then s else tearMember s n
  let s := (set.filter fun m => m ≠ n).foldl (fun s m =>
    if (match launchOf s (s.core m).task.launch with
      | some l => lKill l
      | none => true) then stopTask s m true else s) s
  let lk := (s.core n).task.launch
  let busy := decide ((s.core n).life ≠ .idle)
  let t := (s.core n).task
  let s := dropTask s n
  let bad := mapSet false s.plat.siteBad (9 * f + siteOf s n) true
  let s := { s with plat := { s.plat with siteBad := bad } }
  let s := s.setCore n { Core.reset with
    fc := (s.core n).fc, cn := { CntSt.reset with claim := (s.core n).cn.claim }, sys := { SysSt.reset with prcore := (s.core n).sys.prcore } }
  let used : Nat := mapGet 0 s.plat.spare f + mapGet 0 s.plat.spareDue f
  if used = 0 ∧ mapGet false bad (9 * f + 8) = false then
    .next { s with plat := { s.plat with spareDue := mapSet 0 s.plat.spareDue f (n % 8 + 1) } }
  else
    let inv := setField (setField s.plat.inv f 1 0) 112 6 (fieldOf s.plat.inv 112 6 - fieldOf s.plat.inv f 1)
    let s := s.setCore n { s.core n with failed := true }
    let s := if busy then endLaunch s lk false causeUeControl t.x t.y t.z t.stage else s
    let s := (List.range 8).foldl (fun s m =>
      let c := s.core (8 * f + m)
      if c.life ≠ .idle then endLaunch s c.task.launch false causeUeControl c.task.x c.task.y c.task.z c.task.stage else s) s
    .next (bumpInv { s with plat := { s.plat with inv := inv } })

end Sys2Proof.Machine
end

