-- ==== Sys2Proof/Machine/Ports.lean ====
section
/-! DEFINITION. Events of the Molpol ports (14_links_and_host R358 to R362): detection, training, lanes, authentication, keys,
flits, and the close of a port or a stream. -/

namespace Sys2Proof.Machine

/-- A port closes (R359): its bindings, its flits in flight and the words it carried go. -/
def closePort (s : State) (n reason : Nat) : State :=
  let s := dropCarried (dropArrived s n none) n none
  let s := { s with links := { s.links with streams := s.links.streams.filter fun e => e.1 / 1024 ≠ n } }
  s.setPort n { portOf s n with st := 4, close := reason, authed := false }

/-- PORT_DETECT (R359): an enabled port that is DOWN begins to train. -/
def execPortDetect (o : IdxEv) (s : State) : Ans :=
  let p := portOf s o.idx
  if p.st = 0 ∧ p.enabled then .next (s.setPort o.idx { p with st := 1 }) else .next s

/-- LANE_TRAINING (R359) of port `idx`: `value` holds the lanes that train. A retrained port keeps its session. -/
def execLaneTraining (o : IdxValEv) (s : State) : Ans :=
  let p := portOf s o.idx
  if p.st ≠ 1 then .next s
  else
    let v := fieldOf o.value 0 8
    let p := { p with lanes := p.lanes ||| ~~~ (BitVec.ofNat 8 v) }
    let up : Nat := if p.authed then 3 else 2
    if v = 255 then .next (s.setPort o.idx { p with st := up, wide := true, half := false })
    else if v % 16 = 15 then .next (s.setPort o.idx { p with st := up, wide := false, half := false })
    else if v / 16 = 15 then .next (s.setPort o.idx { p with st := up, wide := false, half := true })
    else
      let s := dropCarried (dropArrived s o.idx none) o.idx none
      let s := { s with links := { s.links with streams := s.links.streams.filter fun e => e.1 / 1024 ≠ o.idx } }
      .next (s.setPort o.idx { p with st := 0, authed := false })

/-- LANE_FAILURE (R359) of lane `b` of port `a`: an OPEN port that uses the lane retrains. -/
def execLaneFailure (o : TwoEv) (s : State) : Ans :=
  let p := portOf s o.a
  let q := { p with lanes := p.lanes ||| (1#8 <<< o.b) }
  let uses := p.wide || decide (decide (4 ≤ o.b) = p.half)
  if p.st = 3 ∧ uses then .next (s.setPort o.a { q with st := 1 }) else .next (s.setPort o.a q)

/-- Measurement slot `n`. -/
def msOf (s : State) (n : Nat) : BitVec 512 := mapGet 0 s.thim.ms n

/-- An extend of a measurement slot with 48 bytes (R438). -/
def extended (m : BitVec 512) (v : Nat) : BitVec 512 :=
  let d := digestNat (sha384 96 (fieldOf m 0 384 + v % 2 ^ 384 * 2 ^ 384))
  setField (setField m 0 384 d) 384 32 (fieldOf m 384 32 + 1)

/-- The bytes of the link policy: four digests of 48 bytes for each of `LPOLN` sets (R380, R444). -/
def policyBytes (s : State) : Nat × Nat :=
  let n := (mapGet 0 s.links.pf0 0xB000).toNat
  (192 * n, joinNat 64 ((List.range (24 * n)).map fun i => (mapGet 0 s.links.pf0 (0xC000 + 8 * i)).toNat))

/-- The first port to open locks the link policy, which ms5 measures (R438, R444). -/
def lockPolicy (s : State) : State :=
  if (msOf s 5).getLsbD 416 then s
  else
    let (n, v) := policyBytes s
    let m := extended (msOf s 5) (digestNat (sha384 n v))
    { s with thim := { s.thim with ms := mapSet 0 s.thim.ms 5 (setField m 416 1 1) } }

/-- Do the measurements that a peer has reported match a set of the link policy (R361, R444)? -/
def policyHas (s : State) (meas : Nat) : Bool :=
  let (n, v) := policyBytes s
  (List.range (n / 192)).any fun i => decide (v / 2 ^ (1536 * i) % 2 ^ 1536 = meas % 2 ^ 1536)

/-- PORT_AUTHENTICATION (R361): the port opens, or closes where any check fails; that the signatures verify comes with the event, the
measurements are compared here (log entry 167). -/
def execPortAuthentication (o : AuthEv) (s : State) : Ans :=
  let p := portOf s o.idx
  if p.st ≠ 2 then .next s
  else if o.ok && policyHas s o.meas then
    let (x, s) := s.drawKey 6
    .next (lockPolicy (s.setPort o.idx { p with st := 3, authed := true, secret := x }))
  else .next (closePort s o.idx 1)

/-- KEY_UPDATE (R359, R362): every stream of the session is keyed again and its counters start at 0; a failure closes the
port. -/
def execKeyUpdate (o : FlagEv) (s : State) : Ans :=
  if (portOf s o.idx).st ≠ 3 then .next s
  else if o.ok then
    .next (rekey s o.idx)
  else .next (closePort s o.idx 2)

/-- PORT_RESET (R359): a CLOSED port goes DOWN; the counts and the lanes failed since power-on stay. -/
def execPortReset (o : IdxEv) (s : State) : Ans :=
  let p := portOf s o.idx
  if p.st = 4 then .next (s.setPort o.idx { p with st := 0, authed := false }) else .next s

/-- May a peer reached over port `n` on a stream of `tenant` act on the group with rank `r` as its own (R360, R362)? -/
def peerMay (s : State) (n tenant g r : Nat) : Bool :=
  let e := groupEntry s g
  e.getLsbD 255 && decide (grpTenant e = tenant) && decide (r < grpN e) && decide (routeOf s e r = some n)

/-- Deliver what a data flit of a bound stream carries (R360, R364, R372). -/
def deliverFlit (s : State) (n stream tenant : Nat) (load : FlitLoad) : State :=
  match load with
  | .none => s
  | .contrib g tag dst src part bytes lines =>
    if peerMay s n tenant g src && decide (dst < grpN (groupEntry s g)) && decide (routeOf s (groupEntry s g) dst = none) then
      addWork s devBound (.contrib ⟨g, tag, dst, src, part % 3, bytes, lines, none, 0, false⟩)
    else peerViolation s n stream tenant g
  | .arrival g tag rank deadline =>
    if peerMay s n tenant g rank && (groupEntry s g).getLsbD 30 then barArrive s g tag rank (deadline % 2 ^ 32)
    else peerViolation s n stream tenant g
  | .verdict g tag missing =>
    let e := groupEntry s g
    if e.getLsbD 255 && decide (grpTenant e = tenant) && !e.getLsbD 30 && decide (fieldOf e 33 4 = n) then
      let b : Barrier := match barOf s g tag with
        | some b => b
        | none => ⟨g, tag, [], none, none, []⟩
      if b.verdict.isSome then s else s.setBar { b with verdict := some missing }
    else peerViolation s n stream tenant g

/-- FLIT_RECEIVE (R358 to R360, R362, R401); the load comes decoded, with the truth of the CRC and of `FTAG` (log entry 167). -/
def execFlitReceive (o : FlitEv) (s : State) : Ans :=
  let p := portOf s o.port
  if p.st ≠ 3 then .next s
  else if !o.crcOk then
    let (lane, s) := s.draw 9 8
    let s := placeError s (1172 + o.port) 1 5 lane o.fseq
    .next (s.setPort o.port { p with retry := holdInc p.retry 32 })
  else if 4 < o.kind then .next (closePort s o.port 3)
  else if o.kind ≠ 1 then .next s
  else
    let s := addUsage s (353 + 2 * o.port) 240
    let k := 1024 * o.port + o.stream
    match s.links.streams.find? fun e => e.1 = k with
    | none => .next (closeStream s o.port o.stream)
    | some (_, b) =>
      if !o.tagOk then .next (closeStream s o.port o.stream)
      else
        let s := { s with links := { s.links with streams := mapPut s.links.streams k { b with fin := o.fseq + 1 } } }
        .next (deliverFlit (rekeyDue s o.port) o.port o.stream b.tenant o.load)

end Sys2Proof.Machine
end

