-- ==== Sys2Proof/Machine/Host.lean ====
section
/-! DEFINITION. The host port (14_links_and_host R378 to R384): BAR2 accesses, the TDISP states, requests to the host and
their completions, and the SPDM responder (17 R443). -/

namespace Sys2Proof.Machine

/-- Are the Thimble's services and its DOE responder open (R441): boot stage 4, no error? -/
def thimOpen (s : State) : Bool := decide (s.thim.stage = 4) && decide (s.thim.err = 0) && !s.thim.halted

/-- A TDI enters ERROR (R382); only a locked or running one does. -/
def tdiError (s : State) (vf : Nat) : State :=
  let t := tdiOf s vf
  if t.st = 1 ∨ t.st = 2 then s.setTdi vf { t with st := 3 } else s

/-- A violation of a host function (R36, R37): the record with the address, a roll call of H0, TDISP ERROR. -/
def hostViolation (s : State) (vf va : Nat) : State :=
  let s := { s with thim := { s.thim with
    viols := s.thim.viols ++ [⟨causeOwner, 256 + vf, (tdiOf s vf).tenant, BitVec.ofNat 64 va, s.time⟩] } }
  tdiError (rollCall s 3 [] [0]) vf

/-- May a BAR2 access be tried at all (R381, R382): in RUN, with the T bit? -/
def bar2Open (s : State) (o : HostEv) : Bool := decide ((tdiOf s o.vf).st = 2) && o.tbit

/-- Does it fall in an enabled window (R379, R381)? -/
def winOpen (s : State) (o : HostEv) : Bool := (tdiOf s o.vf).win.getLsbD 63 && decide (o.off + o.n ≤ 2 ^ 36)

/-- The translations of `n` bytes from a virtual address (R381): the physical addresses, or the first answer that fails
and its address. -/
def hostRange (s : State) (asid tenant va : Nat) (write : Bool) : Nat → Except (XRes × Nat) (List Nat)
  | 0 => .ok []
  | n + 1 =>
    match translate s 256 asid va tenant write with
    | .pa a => (match hostRange s asid tenant (va + 1) write n with
      | .ok l => .ok (a :: l)
      | .error e => .error e)
    | e => .error (e, va)

/-- The walks of an access, one for each page it meets, with their reads (R253 to R256); then its translations. -/
def hostWalk (s : State) (o : HostEv) (write : Bool) : State × Except (XRes × Nat) (List Nat) :=
  let w := (tdiOf s o.vf).win
  let va := fieldOf w 0 48 + o.off
  let s := walksOf s 256 (fieldOf w 48 10) (tdiOf s o.vf).tenant
    ((List.range ((va % 65536 + o.n + 65535) / 65536)).map fun i => max va ((va / 65536 + i) * 65536))
  (s, hostRange s (fieldOf w 48 10) (tdiOf s o.vf).tenant va write o.n)

/-- The bytes at a list of addresses, read granule by granule at their hubs (R253 to R256), and whether any is ERROR (R381);
a host-window byte is the host's own. -/
def hostReadBytes (s : State) : List Nat → State × Nat × Bool
  | [] => (s, 0, false)
  | a :: l =>
    let (s1, v, bad) := hostReadBytes s l
    if isHostFrame s1 a then (s1, (memRead s1.links.hostMem (hostAddr s1 a)).toNat + 256 * v, bad)
    else
      let fresh := l.all fun b => decide (b / 128 ≠ a / 128)
      let (s2, d, code) : State × BitVec 1024 × BitVec 2 :=
        if fresh then (let r := hubReadGran s1 a; (r.1, r.2.1, r.2.2.1)) else (s1, granData s1 a, if granBad s1 a then 3 else 0)
      (s2, (d.extractLsb' (8 * (a % 128)) 8).toNat + 256 * v, bad || decide (code = 3))

/-- HOST_BAR2_READ (R381): the answer carries the data, Unsupported Request, or the EP bit. -/
def execHostBar2Read (o : HostEv) (s : State) : Ans :=
  if !bar2Open s o || !winOpen s o then .next (s.answer o.vf 0 true false)
  else
    match hostWalk s o false with
    | (s, .error (.owner, va)) => .next ((hostViolation s o.vf va).answer o.vf 0 true false)
    | (s, .error _) => .next (s.answer o.vf 0 true false)
    | (s, .ok l) =>
      let (s, v, bad) := hostReadBytes s l
      .next (s.answer o.vf v false bad)

/-- Apply the bytes of a host write, granule by granule (R253, R263, R264, R381); one that needs an entry which the log has
no room for is not applied. -/
def hostWriteBytes (s : State) (v : Nat) : List Nat → State
  | [] => s
  | a :: l =>
    let s1 :=
      if isHostFrame s a then
        { s with links := { s.links with hostMem := memWrite s.links.hostMem (hostAddr s a) (BitVec.ofNat 8 v) } }
      else match hubWriteGran s 256 a (BitVec.ofNat 1024 (v % 256 * 2 ^ (8 * (a % 128)))) (1#128 <<< (a % 128)) false [] with
        | .done s => s
        | .held s => s
        | .full s _ => s
    hostWriteBytes s1 (v / 256) l

/-- An AtomicOp of the host at one physical address (R378, R381): the old value goes back; a granule that is ERROR is not written, and
its completion has the EP bit set. -/
def hostAtomicOp (s : State) (o : HostEv) (l : List Nat) (a : Nat) : State :=
  let (s, old, bad) := hostReadBytes s l
  let new := atomOpN (match o.op with
    | 1 => 0
    | 2 => 9
    | _ => 16) o.n old o.value o.cmp
  if bad then s.answer o.vf old false true
  else if isHostFrame s a then
    { s with links := { s.links with hostMem := memWriteNat s.links.hostMem (hostAddr s a) o.n new } }.answer o.vf old false false
  else if o.op = 3 ∧ old ≠ o.cmp % 2 ^ (8 * o.n) then s.answer o.vf old false false
  else
    match hubWriteGran s 256 a (BitVec.ofNat 1024 (new * 2 ^ (8 * (a % 128)))) (BitVec.ofNat 128 (2 ^ o.n - 1) <<< (a % 128)) false [] with
    | .done s => s.answer o.vf old false false
    | .held s => s.answer o.vf old false false
    | .full s _ => s.answer o.vf 0 true false

/-- HOST_BAR2_WRITE (R378, R381): a posted write that the window or a translation stops is dropped, an AtomicOp answered with Unsupported
Request; an AtomicOp is of 4 or 8 bytes, naturally aligned. -/
def execHostBar2Write (o : HostEv) (s : State) : Ans :=
  let ur (s : State) : State := s.answer o.vf 0 true false
  let lost (s : State) : State := if o.op = 0 then s else ur s
  if !bar2Open s o then .next (ur s)
  else if !winOpen s o then .next (lost s)
  else if o.op ≠ 0 ∧ ((o.n ≠ 4 ∧ o.n ≠ 8) ∨ o.off % o.n ≠ 0 ∨ 3 < o.op) then .next (ur s)
  else
    match hostWalk s o true with
    | (s, .error (.owner, va)) => .next (lost (hostViolation s o.vf va))
    | (s, .error _) => .next (lost s)
    | (s, .ok []) => .next s
    | (s, .ok (a :: l)) => .next (if o.op = 0 then hostWriteBytes s o.value (a :: l) else hostAtomicOp s o (a :: l) a)

/-- Is a set of cores free to be bound: none in another partition, locked forms whole (R30, R33, R395)? -/
def coresFree (s : State) (cores : BitVec 256) : Bool :=
  (List.range 256).all fun n => !cores.getLsbD n ||
    (s.dev.tenant.all (fun e => !e.2.getLsbD 64 || !e.2.getLsbD (256 + n)) &&
      (s.isSplit n || (List.range 8).all fun m => cores.getLsbD (n / 8 * 8 + m)))

/-- The Thimble's answer to a TDISP message for a function: 0 done, 1 a precondition failed (R403, R445). -/
def tdispAnswer (s : State) (vf stat : Nat) : State :=
  { s with thim := { s.thim with resp := mapPut s.thim.resp (2 ^ 40 + vf) (BitVec.ofNat 64 stat) } }

/-- LOCK_INTERFACE_REQUEST (R382, R399, R403): a CONFIG_UNLOCKED function is bound to its tenant and partition, whose active slot gets fresh
keys; a request whose preconditions fail changes nothing and is answered with an error code. -/
def execLockInterfaceRequest (o : LockEv) (s : State) : Ans :=
  let t := tdiOf s o.vf
  let e := mapGet 0 s.dev.tenant o.tenant
  if !thimOpen s then .next s
  else if t.st ≠ 0 ∨ o.vf = 0 ∨ 255 < o.vf ∨ 1024 ≤ o.tenant ∨ e.getLsbD 64 ∨ !coresFree s o.cores then .next (tdispAnswer s o.vf 1)
  else
    let s := freshKeys (tdispAnswer s o.vf 0) o.tenant 0
    let entry : BitVec 512 := o.owners.setWidth 512 ||| (1#512 <<< 64) ||| (BitVec.ofNat 512 o.vf <<< 65) ||| (o.cores.setWidth 512 <<< 256)
    let s := { s with dev := { s.dev with tenant := mapSet 0 s.dev.tenant o.tenant entry } }
    .next (s.setTdi o.vf { t with st := 1, tenant := o.tenant })

/-- START_INTERFACE_REQUEST (R382, R383): the TDI runs on its IDE stream. -/
def execStartInterfaceRequest (o : IdxEv) (s : State) : Ans :=
  let t := tdiOf s o.idx
  if thimOpen s ∧ t.st = 1 then
    let (x, s) := s.drawKey 4
    let (y, s) := s.drawKey 4
    .next (s.setTdi o.idx { t with st := 2, ide := true, keyRx := x, keyTx := y })
  else .next s

/-- Frames of a tenant that its unbinding releases (R382, R403). -/
def framesOfTenant (s : State) (tenant : Nat) : List Nat :=
  (s.dev.pot.filter fun e => decide (fieldOf e.2 0 10 = tenant) && decide (potState e.2 = 1 ∨ potState e.2 = 2 ∨ potState e.2 = 4 ∨ potState e.2 = 5)).map (·.1)

/-- STOP of a TDI (R382): CONFIG_UNLOCKED at once, its launches end KILLED, every family is bumped; the frames, the tenant
entry and the cores follow when the sweeps and the tasks are done (R397). -/
def stopTdi (s : State) (vf : Nat) : State :=
  let t := tdiOf s vf
  let bound := (mapGet 0 s.dev.tenant t.tenant).getLsbD 64 && decide (fieldOf (mapGet 0 s.dev.tenant t.tenant) 65 8 = vf)
  let s := s.setTdi vf { t with st := 0, ide := false, keyRx := 0, keyTx := 0 }
  if !bound then s
  else
    let lks := (s.sched.launches.filter fun e => decide (e.2.tenant = t.tenant) && !e.2.ended).map (·.1)
    let s := lks.foldl (fun s k => endLaunch s k true 0 0 0 0 0) s
    let s := (List.range 256).foldl (fun s f => bumpFamily s t.tenant f) s
    { s with thim := { s.thim with pend := s.thim.pend ++
      [⟨15, 1024, 0, 0, t.tenant, (List.range 256).map fun f => (f, genOf s t.tenant f), 0, vf, [], 0⟩] } }

/-- STOP_INTERFACE_REQUEST (R382). -/
def execStopInterfaceRequest (o : IdxEv) (s : State) : Ans :=
  if thimOpen s then .next (stopTdi s o.idx) else .next s

/-- TDI_ERROR (R382): a frozen register was changed, or the stream's integrity failed. -/
def execTdiError (o : IdxEv) (s : State) : Ans := .next (tdiError s o.idx)

/-- IDE_KEY_REFRESH (R383) of function `idx`: its stream has new keys; the pause is one of time alone and no request is lost. -/
def execIdeKeyRefresh (o : IdxEv) (s : State) : Ans :=
  let t := tdiOf s o.idx
  if t.st = 2 then
    let (x, s) := s.drawKey 4
    let (y, s) := s.drawKey 4
    .next (s.setTdi o.idx { t with keyRx := x, keyTx := y })
  else .next s

/-- A request to the host is answered (R384, R292): an error gives the code ERROR. -/
def hostAnswered (s : State) (it : Item) (data : BitVec 1024) (err : Bool) : State :=
  let code : BitVec 2 := if err then 3 else 0
  match it with
  | .read c q n rep gva =>
    (match cmdOf s c q n with
    | none => s
    | some _ =>
      arriveGran (if q = 2 then s.setCore c (countEv (s.core c) 0x16 128) else s) c q n rep gva data code)
  | .atomic c n =>
    (match cmdOf s c 3 n with
    | none => s
    | some m => atomAnswer s c n m code.toNat (if err then 0 else data.toNat % 2 ^ (8 * atomBytes m.e.i)))
  | _ => s

/-- Request `k` to the host is over, with this answer. -/
def hostOver (s : State) (k : Nat) (it : Item) (data : BitVec 1024) (err : Bool) : State :=
  let s := { s with links := { s.links with hostReq := s.links.hostReq.filter fun r => r.1 ≠ k } }
  let s := match askTenant s it with
    | some t => pushed s t k
    | none => s
  hostAnswered s it data err

/-- HOST_COMPLETION (R384) of request `idx`; one that has timed out already is discarded. A function that is not in RUN has its DMA
blocked, so that no completion comes and the request times out (R36, R382, R384). -/
def execHostCompletion (o : HostDataEv) (s : State) : Ans :=
  match s.links.hostReq.find? fun r => r.1 = o.idx with
  | none => .next s
  | some (_, _, it) =>
    if (askTenant s it).all (hostOpen s) then
      .next (hostOver s o.idx it o.data o.err)
    else .next s

/-- The first request to the host that has timed out. -/
def hostLate (s : State) : Option (Nat × Nat × Item) := s.links.hostReq.find? fun r => decide (r.2.1 ≤ s.cyc)

/-- HOST_COMPLETION_TIMEOUT (R384). -/
def execHostCompletionTimeout (s : State) : Ans :=
  match hostLate s with
  | none => .next s
  | some (k, _, it) => .next (hostOver s k it 0 true)

/-- HOST_PORT_RESET (R451): every TDI is taken through STOP. -/
def execHostPortReset (s : State) : Ans :=
  .next ((s.links.tdi.map (·.1)).foldl stopTdi s)

/-- SPDM_REQUEST (R443): a version other than 1.3 or an algorithm that is not listed gets ERROR, and on a port the port closes;
the answer is kept: 0 served, 1 ERROR with UnsupportedRequest. -/
def execSpdmRequest (o : SpdmEv) (s : State) : Ans :=
  let ok := decide (o.version = 13) && o.listed
  if !thimOpen s ∨ (o.port < 16 ∧ (portOf s o.port).st ≠ 2 ∧ (portOf s o.port).st ≠ 3) then .next s
  else
    let s := { s with thim := { s.thim with resp := mapPut s.thim.resp (65536 * (1025 + o.port)) (if ok then 0 else 1) } }
    if ok ∨ 16 ≤ o.port then .next s
    else .next (closePort s o.port (if (portOf s o.port).st = 2 then 1 else 4))

end Sys2Proof.Machine
end

