-- ==== Sys2Proof/Machine/Services.lean ====
section
/-! DEFINITION. The services of the Thimble (15_tables R391 to R403, 17 R445, R446, 16 R422, 13 R342): requests, their checks,
their answers in the response registers, and the requests that complete later. -/

namespace Sys2Proof.Machine

/-- The caller number of the hypervisor, through PF0. -/
def hvCaller : Nat := 1024

/-- Write an answer: header (code with bit 15, SREQ, SSTAT), SBLEN, body words; PF0's `SVST` shows DONE (R380, R445). -/
def respond (s : State) (caller req svc stat : Nat) (body : List Nat) : State :=
  let base := 65536 * caller
  let old := s.thim.resp.filter fun e => decide (e.1 / 65536 ≠ caller)
  let ws := (svc + 0x8000 + req % 2 ^ 16 * 2 ^ 16 + stat * 2 ^ 48) :: (8 * body.length) :: body
  let resp := ws.zipIdx.foldl (fun m e => mapPut m (base + e.2) (BitVec.ofNat 64 e.1)) old
  let s := { s with thim := { s.thim with resp := resp } }
  if caller = hvCaller then
    { s with links := { s.links with pf0 := mapSet 0 s.links.pf0 0x208 (setField (setField (mapGet 0 s.links.pf0 0x208) 0 1 0) 1 1 1) } }
  else s

/-- A request completes: its owner is charged one UTHIM (R421). -/
def complete (s : State) (svc caller owner req : Nat) (body : List Nat) : State :=
  respond (addUsage s (5 * owner + 4) 1) caller req svc 0 body

/-- May the caller name this owner (R421)? -/
def ownerAllowed (s : State) (caller owner : Nat) : Bool :=
  decide (owner < 64) && (decide (caller = hvCaller) ||
    ((mapGet 0 s.dev.tenant caller).getLsbD 64 && (mapGet 0 s.dev.tenant caller).getLsbD owner))

/-- Serve a request: `who` 0 tenants alone, 1 the hypervisor alone, 2 both. `k` answers the new state and the body, or an
error code with the body. -/
def serve (s : State) (svc caller owner req who : Nat) (k : Except (Nat × List Nat) (State × List Nat)) : Ans :=
  if !thimOpen s then .next s
  else if !ownerAllowed s caller owner ∨ (who = 0 ∧ caller = hvCaller) ∨ (who = 1 ∧ caller ≠ hvCaller) then
    .next (respond s caller req svc 3 [])
  else match k with
    | .ok (s, body) => .next (complete s svc caller owner req body)
    | .error (e, body) => .next (respond s caller req svc e body)

/-- Serve a request that completes later (R397, R422). -/
def serveLater (s : State) (p : SvcPend) (who : Nat) (k : Except Nat (State × SvcPend)) : Ans :=
  if !thimOpen s then .next s
  else if !ownerAllowed s p.caller p.owner ∨ (who = 0 ∧ p.caller = hvCaller) ∨ (who = 1 ∧ p.caller ≠ hvCaller) then
    .next (respond s p.caller p.req p.svc 3 [])
  else match k with
    | .ok (s, p) => .next { s with thim := { s.thim with pend := s.thim.pend ++ [p] } }
    | .error e => .next (respond s p.caller p.req p.svc e [])

/-- The page owner entry of frame `f`. -/
def frameEnt (s : State) (f : Nat) : Word := potOf s (65536 * f)

/-- Replace it; cached translations of the frame are removed (R393). -/
def State.setFrame (s : State) (f : Nat) (e : Word) : State :=
  { s with dev := { s.dev with
    pot := mapSet 0 s.dev.pot f e
    tlb := s.dev.tlb.filter fun t => !(decide (t.pa ≤ f * 65536) && decide (f * 65536 < t.pa + t.size)) } }

/-- Fill a frame with zeros, with fresh check bits and tags (R393); the hub writes it (R353). -/
def zeroFrame (s : State) (f : Nat) : State :=
  let clr (m : Map Bool) (n : Nat) : Map Bool := m.filter fun e => decide (e.1 / n ≠ f)
  frameWritten { s with dev := { s.dev with
    mem := s.dev.mem.filter fun e => decide (e.1 / 65536 ≠ f)
    syn := clr s.dev.syn 512, dbe := clr s.dev.dbe 512, sbe := clr s.dev.sbe 512, tagBad := clr s.dev.tagBad 128 } } (65536 * f)

/-- Is a physical address that of a frame in the map? -/
def isFrame (s : State) (pa : Nat) : Bool := decide (pa % 65536 = 0) && paMapped s pa

/-- The key slot of a tenant's new frames (R391, R400). -/
def newSlot (s : State) (tenant : Nat) : Nat :=
  let t := mapGet 0 s.dev.tenant tenant
  if t.getLsbD 74 then 1 - fieldOf t 73 1 else fieldOf t 73 1

/-- Per-frame status of a request: 0 where the check holds, 1 where it fails (R445). -/
def frameStats (fs : List Nat) (p : Nat → Bool) : List Nat := fs.map fun a => if p a then 0 else 1

/-- A request over frames: nothing changes where any frame fails its check (R403). -/
def frameService (s : State) (fs : List Nat) (p : Nat → Bool) (f : State → Nat → State) :
    Except (Nat × List Nat) (State × List Nat) :=
  if fs.all p then .ok (fs.foldl f s, frameStats fs p) else .error (1, frameStats fs p)

/-- ASSIGN (R393, R403). -/
def execAssign (o : SvcFrames) (s : State) : Ans :=
  serve s 1 o.caller o.owner o.req 0 (frameService s (o.frames.map (·.1))
    (fun pa => isFrame s pa && decide (potState (potOf s pa) = 0))
    fun s pa => (zeroFrame s (pa / 65536)).setFrame (pa / 65536)
      (BitVec.ofNat 64 (o.caller + 2 ^ 10 + newSlot s o.caller * 2 ^ 14)))

/-- Is the frame owned by the caller in one of the states? -/
def ownedIn (s : State) (caller : Nat) (sts : List Nat) (pa : Nat) : Bool :=
  isFrame s pa && sts.contains (potState (potOf s pa)) && decide (fieldOf (potOf s pa) 0 10 = caller)

/-- SHARE (R403). -/
def execShare (o : SvcFrames) (s : State) : Ans :=
  serve s 2 o.caller o.owner o.req 0 (frameService s (o.frames.map (·.1))
    (fun pa => ownedIn s o.caller [1] pa && !(potOf s pa).getLsbD 13)
    fun s pa => s.setFrame (pa / 65536) (setField (potOf s pa) 10 3 2))

/-- HOSTWIN (R391, R403): the host page of a TDI with an IDE stream. -/
def execHostwin (o : SvcFrames) (s : State) : Ans :=
  let ide := s.links.tdi.any fun e => e.2.ide && decide (e.2.tenant = o.caller)
  let ok (e : Nat × Nat) : Bool := ide && isFrame s e.1 && decide (potState (potOf s e.1) = 0) && decide (e.2 % 65536 = 0)
  let stats := o.frames.map fun e => if ok e then 0 else 1
  serve s 3 o.caller o.owner o.req 0 (if o.frames.all ok then
      .ok (o.frames.foldl (fun s e => s.setFrame (e.1 / 65536)
        (BitVec.ofNat 64 (o.caller + 5 * 2 ^ 10 + e.2 / 65536 % 2 ^ 48 * 2 ^ 16))) s, stats)
    else .error (1, stats))

/-- Bump families, and the sweeps to wait for (R396, R397). -/
def bumpAll (s : State) (tenant : Nat) (fs : List Nat) : State × List (Nat × Nat) :=
  let s := fs.foldl (fun s f => bumpFamily s tenant f) s
  (s, fs.map fun f => (f, genOf s tenant f))

/-- RELEASE (R393, R397, R403): the named families are swept first. -/
def execReleaseService (o : SvcFrames) (s : State) : Ans :=
  let fs := o.frames.map (·.1)
  let p : SvcPend := ⟨4, o.caller, o.owner, o.req, o.caller, [], 0, 0, fs.map (· / 65536), 0⟩
  serveLater s p 0 (if fs.all (ownedIn s o.caller [1, 2, 5]) && o.families.all fun f => decide (f < 256) then
      (let (s, w) := bumpAll s o.caller o.families
       .ok (s, { p with fams := w }))
    else .error 1)

/-- DURABLE (R262, R403): `a` the frame, `b` twice the ASID plus set; a clear takes effect at the next seal. -/
def execDurable (o : SvcEv) (s : State) : Ans :=
  let asid := o.b / 2 % 1024
  let f := o.a / 65536
  let ok := ownedIn s o.caller [1] o.a && asidOk s asid o.caller && (asidOf s asid).getLsbD 11
  let set := decide (o.b % 2 = 1)
  let dur := (frameEnt s f).getLsbD 13
  serve s 5 o.caller o.owner o.req 0 (if !ok then .error (1, [])
    else if set then
      (if dur then .error (1, [])
       else .ok ({ s.setFrame f (setField (frameEnt s f) 13 1 1) with dev :=
        { (s.setFrame f (setField (frameEnt s f) 13 1 1)).dev with dur := mapSet 0 s.dev.dur f (BitVec.ofNat 64 (asid * 2 ^ 16)) } }, []))
    else if !dur ∨ fieldOf (mapGet 0 s.dev.dur f) 16 10 ≠ asid then .error (1, [])
    else .ok ({ s with dev := { s.dev with durOff := if s.dev.durOff.contains f then s.dev.durOff else s.dev.durOff ++ [f] } }, []))

/-- Frames that a range of bytes meets. -/
def framesIn (pa n : Nat) : List Nat :=
  if n = 0 then [] else (List.range ((pa + n - 1) / 65536 + 1 - pa / 65536)).map (pa / 65536 + ·)

/-- Take recovery away from a context (R260): its held writes are applied and its state is OFF. -/
def recoveryOff (s : State) (a : Nat) : State :=
  let held := (ctxOf s a).held
  held.foldl (fun s h => applyWrite s h.pa h.data h.mask h.whole h.codes) (s.setCtx a Ctx.off)

/-- Give a context recovery (R259, R260): interval 1, the cores that run its tasks as members. -/
def recoveryOn (s : State) (a : Nat) : State :=
  let ms := (s.cores.filter fun e => decide (e.2.life ≠ .idle) && decide (e.2.sys.casid = a)).map (·.1)
  s.setCtx a { Ctx.off with st := 1, iv := 1, members := ms }

/-- CONTEXT (R259, R260, R394, R403): `a` the ASID, `x` the entry, `addrs` frames that become log frames. -/
def execContext (o : SvcEv) (s : State) : Ans :=
  let e : BitVec 256 := o.x.extractLsb' 0 256
  let cur := asidOf s o.a
  let live := s.sched.launches.any fun l => decide (lAsid l.2 = o.a) && !l.2.ended
  let valid := e.getLsbD 0
  let rc := valid && e.getLsbD 11
  let logs := framesIn (fieldOf e 128 41) (4224 * fieldOf e 169 23) ++ framesIn (fieldOf e 192 41) (32 * fieldOf e 233 23)
  let isLog (f : Nat) : Bool := o.addrs.contains (65536 * f) ||
    (decide (potState (frameEnt s f) = 4) && decide (fieldOf (frameEnt s f) 0 10 = o.caller))
  let k : Except (Nat × List Nat) (State × List Nat) :=
    if 1024 ≤ o.a ∨ fieldOf e 12 4 ≠ 0 ∨ fieldOf e 45 19 ≠ 0 then .error (2, [])
    else if cur.getLsbD 0 && decide (fieldOf cur 1 10 ≠ o.caller) then .error (1, [])
    else if valid && decide (fieldOf e 1 10 ≠ o.caller) then .error (1, [])
    else if !valid && live then .error (1, [])
    else if rc && (decide (fieldOf e 105 23 < 3) || decide (fieldOf e 64 41 % 4096 ≠ 0) || !logs.all isLog) then .error (1, [])
    else if !o.addrs.all (fun pa => ownedIn s o.caller [1] pa && !(potOf s pa).getLsbD 13) then .error (1, [])
    else
      let s := o.addrs.foldl (fun s pa => s.setFrame (pa / 65536) (setField (potOf s pa) 10 3 4)) s
      let s := { s with dev := { s.dev with asid := mapSet 0 s.dev.asid o.a e, tlb := invalidate s.dev.tlb o.a 0 true } }
      let on := decide ((ctxOf s o.a).st ≠ 0)
      .ok (if on && !rc then recoveryOff s o.a else if rc && !on then recoveryOn s o.a else s, [])
  serve s 6 o.caller o.owner o.req 0 k

/-- REVOKE of family `a` (R396, R397). -/
def execRevoke (o : SvcEv) (s : State) : Ans :=
  let p : SvcPend := ⟨7, o.caller, o.owner, o.req, o.caller, [], 0, o.a, [], 0⟩
  serveLater s p 0 (if 256 ≤ o.a ∨ 0xFFFF ≤ genOf s o.caller o.a then .error 1
    else
      let (s, w) := bumpAll s o.caller [o.a]
      .ok (s, { p with fams := w }))

/-- The conditions of R194 on a record. -/
def viewLegal (x : BitVec 512) : Bool :=
  let r := hRankm1 x + 1
  let b := hElemBits x
  let fmt := hFmt x
  let span := (hExt x 0 * b + 7) / 8 + 128 * ((hExt x 1 - 1) * hPitch x 1 + (hExt x 2 - 1) * hPitch x 2 + (hExt x 3 - 1) * hPitch x 3)
  let elems := hExt x 0 * hExt x 1 * hExt x 2 * hExt x 3
  let lo := fdecode f32 (hBlo x)
  let hi := fdecode f32 (hBhi x)
  (fmtOfCode fmt).isSome && decide (fmt ≠ 11) && decide (hBdim x < r) && decide (hBase x % 128 = 0)
    && (List.range 4).all (fun d => if d < r then decide (hExt x d ≠ 0) else decide (hExt x d = 1) && decide (hPitch x d = 0))
    && (decide (r < 2) || decide ((hExt x 0 * b + 7) / 8 ≤ 128 * hPitch x 1))
    && (decide (r < 3) || decide (hExt x 1 * hPitch x 1 ≤ hPitch x 2))
    && (decide (r < 4) || decide (hExt x 2 * hPitch x 2 ≤ hPitch x 3))
    && decide (hBase x + span ≤ 2 ^ 48)
    && (decide (hPmap x = 0) || decide (hPmap x + (hExt x (hBdim x) + 3) / 4 ≤ 2 ^ 48))
    && (if fmt = 10 then decide (hScale x % 128 = 0) && decide (hScale x + 384 * ((elems + 16383) / 16384) ≤ 2 ^ 48)
        else decide (hScale x = 0))
    && !fvIsNan lo && !fvIsNan hi && decide (fvCmp lo hi ≤ 0)
    && decide (hRights x < 512) && decide (hPpol x ≠ 3) && decide (fieldOf x 404 44 = 0)

/-- Does every byte of a range translate to a frame that the caller's agents may read, and write where asked (R392, R446)? -/
def rangeMay (s : State) (asid tenant va n : Nat) (write : Bool) : Bool :=
  (List.range (if n = 0 then 0 else (va + n - 1) / 65536 + 1 - va / 65536)).all fun i =>
    match translate s 256 asid (max va ((va / 65536 + i) * 65536)) tenant false with
    | .pa a => !write || frameOk s tenant a true
    | _ => false

/-- The frames that a record names may be used for its rights (R446). -/
def viewMay (s : State) (tenant : Nat) (x : BitVec 512) : Bool :=
  let asid := hAsid x
  let wr := hasRight x 1 || hasRight x 2 || hasRight x 4
  let elems := hExt x 0 * hExt x 1 * hExt x 2 * hExt x 3
  ((List.range (viewRows x)).all fun t => rangeMay s asid tenant (viewRowAddr x t) (viewRowBytes x) wr)
    && (decide (hPmap x = 0) || rangeMay s asid tenant (hPmap x) ((hExt x (hBdim x) + 3) / 4) wr)
    && (decide (hFmt x ≠ 10) || rangeMay s asid tenant (hScale x) (384 * ((elems + 16383) / 16384)) false)

/-- A record minted at the current generation and sealed with slot 0 (R446). -/
def minted (s : State) (caller : Nat) (x : BitVec 512) : BitVec 512 :=
  sealRec (mapGet 0 s.thim.slots 0) (setField x 370 16 (genOf s caller (hFamily x)))

/-- MINT (R194, R446). -/
def execMint (o : SvcEv) (s : State) : Ans :=
  let x := o.x
  serve s 8 o.caller o.owner o.req 0 (
    if hGen x ≠ 0 ∨ fieldOf x 448 64 ≠ 0 then .error (2, [])
    else if viewLegal x && asidOk s (hAsid x) o.caller && decide (genOf s o.caller (hFamily x) < 0xFFFF) && viewMay s o.caller x then
      .ok (s, (List.range 8).map fun i => ((minted s o.caller x).extractLsb' (64 * i) 64).toNat)
    else .error (1, []))

/-- ROTATE (R399, R400): fresh keys go into the other slot; new frames are stored under it. -/
def execRotate (o : SvcEv) (s : State) : Ans :=
  let tn := if o.caller = hvCaller then o.a else o.caller
  let t := mapGet 0 s.dev.tenant tn
  let a := fieldOf t 73 1
  let p : SvcPend := ⟨9, o.caller, o.owner, o.req, tn, [], 0, 0, [], 0⟩
  serveLater s p 2 (if !t.getLsbD 64 ∨ t.getLsbD 74 then .error 1
    else
      let s := freshKeys s tn (1 - a)
      .ok ({ s with dev := { s.dev with
        tenant := mapSet 0 s.dev.tenant tn (setField t 74 1 1)
        rots := s.dev.rots ++ [⟨tn, a⟩] } }, p))

/-- REPORT (R422) of owner mask `a` with nonce `x`: the records are taken at the time of a roll call of the hubs. -/
def execReportService (o : SvcEv) (s : State) : Ans :=
  let mask : BitVec 64 := BitVec.ofNat 64 o.a
  let may := decide (o.caller = hvCaller) || decide (mask &&& ~~~ ((mapGet 0 s.dev.tenant o.caller).extractLsb' 0 64) = 0)
  let s1 := rollCall s 2 [] [0, 1, 2, 3]
  let t := match s1.meas.rc with
    | some r => r.t
    | none => s.time
  serveLater s ⟨10, o.caller, o.owner, o.req, o.caller, [], t, o.a % 2 ^ 64, [], o.x⟩ 2
    (if may then .ok (s1, ⟨10, o.caller, o.owner, o.req, o.caller, [], t, o.a % 2 ^ 64, [], o.x⟩) else .error 3)

/-- EXTEND (R438, R445) of slot `a` with `x`; `b` locks it. -/
def execExtend (o : SvcEv) (s : State) : Ans :=
  let m := msOf s o.a
  serve s 11 o.caller o.owner o.req 1 (
    if o.a < 16 ∨ 31 < o.a then .error (2, [])
    else if m.getLsbD 416 then .error (1, [])
    else
      let m := extended m (fieldOf o.x 0 384)
      let m := if o.b % 2 = 1 then setField m 416 1 1 else m
      .ok ({ s with thim := { s.thim with ms := mapSet 0 s.thim.ms o.a m } },
        (List.range 6).map fun i => fieldOf m (64 * i) 64))

/-- LOAN (R342, R343) of form `a`: `b` holds lender, borrower (times 64) and start (times 4096). -/
def execLoan (o : SvcEv) (s : State) : Ans :=
  let fl := flendOf s o.a
  let start := decide (o.b / 4096 % 2 = 1)
  serve s 12 o.caller o.owner o.req 1 (
    if 32 ≤ o.a ∨ !formEn s o.a ∨ (start ∧ fl.getLsbD 12) ∨ (!start ∧ !fl.getLsbD 12) then .error (1, [])
    else if start then
      .ok ({ s with sched := { s.sched with flend := mapSet 0 s.sched.flend o.a (BitVec.ofNat 64 (o.b % 4096 + 4096)) } }, [])
    else
      let s := { s with sched := { s.sched with flend := mapSet 0 s.sched.flend o.a (setField fl 13 1 1) } }
      .ok ((List.range 8).foldl (fun s m =>
        let c := s.core (8 * o.a + m)
        if c.task.told then s.setCore (8 * o.a + m) { c with task := { c.task with told := false } } else s) s, []))

/-- The conditions of R364 on the receive spool of a local rank. -/
def spoolLegal (s : State) (g rank : Nat) : Bool :=
  let e := groupEntry s g
  match (rspool s g rank).2.toOption with
  | none => false
  | some x =>
    decide (handleCheck s (mapGet 0 s.thim.slots 0) (grpTenant e) x = .ok) && hasRight x 4 && decide (hFmt x = 13)
      && decide (hRankm1 x = 3) && decide (hExt x 0 = 128) && decide (hPitch x 1 = 1) && decide (hExt x 1 = 641)
      && decide (hPitch x 2 = 641) && decide (hExt x 2 = grpN e) && decide (hPitch x 3 = 641 * grpN e)
      && decide (hExt x 3 = grpSlots e)
      && (List.range (641 * grpN e * grpSlots e)).all fun l =>
        match translate s 256 (hAsid x) (hBase x + 128 * l) (grpTenant e) false with
        | .pa a => !(potOf s a).getLsbD 13
        | _ => true

/-- LINK (R360, R362, R363): `a` 0 binds stream `b` (port × 1024 + stream) to the caller, 1 writes group entry `b`, 2 unbinds
stream `b`. -/
def execLink (o : SvcEv) (s : State) : Ans :=
  let bound := s.links.streams.find? fun e => e.1 = o.b
  let k : Except (Nat × List Nat) (State × List Nat) :=
    if o.a = 0 then
      (if (portOf s (o.b / 1024)).st ≠ 3 ∨ bound.isSome ∨ mapGet false s.links.shut o.b then .error (1, [])
       else .ok ({ s with links := { s.links with streams := mapPut s.links.streams o.b (keyedStream s o.b ⟨o.caller, 0, 0, 0, 0⟩) } }, []))
    else if o.a = 2 then
      (match bound with
       | some (_, b) => if b.tenant = o.caller then
           .ok ({ s with links := { s.links with
             streams := mapDel s.links.streams o.b, shut := mapSet false s.links.shut o.b true } }, [])
         else .error (1, [])
       | none => .error (1, []))
    else if o.a = 1 then
      let e : BitVec 256 := o.x.extractLsb' 0 256
      let valid := e.getLsbD 255
      let s1 := { s with links := { s.links with groups := mapSet 0 s.links.groups o.b e } }
      let old := groupEntry s o.b
      if 1024 ≤ o.b ∨ fieldOf e 45 19 ≠ 0 ∨ fieldOf e 160 95 ≠ 0 then .error (2, [])
      else if old.getLsbD 255 && (valid || decide (grpTenant old ≠ o.caller)) then .error (1, [])
      else if valid && (decide (grpTenant e ≠ o.caller) || !asidOk s (grpAsid e) o.caller
          || !(localRanks s1 o.b).all (spoolLegal s1 o.b)) then .error (1, [])
      else .ok (s1, [])
    else .error (2, [])
  serve s 13 o.caller o.owner o.req 0 k

/-- CLEAR (R401 to R403) of error bank `a`: bit 0 of `b` frees FIRST, bit 1 NEXT, and bit 2 clears the counts. -/
def execClear (o : SvcEv) (s : State) : Ans :=
  let v : Word := BitVec.ofNat 64 (o.b % 2 * 2 ^ 62 + o.b / 2 % 2 * 2 ^ 63 + o.b / 4 % 2 * (2 ^ 41 - 1))
  serve s 14 o.caller o.owner o.req 1 (
    if 1191 ≤ o.a then .error (2, [])
    else .ok ({ s with dev := { s.dev with
      banks := mapSet Bank.zero s.dev.banks o.a (clearBank (mapGet Bank.zero s.dev.banks o.a) v) } }, []))

/-- Frames past a stack's remaining range become withdrawn instead of free (R251, R393). -/
def isWithdrawn (s : State) (f : Nat) : Bool :=
  let j := f / 2 ^ 21 % 16
  let p := 2 * onesBelow (mappedChans s j &&& ~~~ (mapGet 0 s.dev.chanBad j)).toNat 32
  decide (framesOf p ≤ f % 2 ^ 21)

/-- A frame leaves its state for scrubbing: no agent may access it, and no translation of it is left (R392, R393). -/
def scrubFrame (s : State) (f : Nat) : State := s.setFrame f (setField (frameEnt s f) 10 3 3)

/-- A frame passes through scrubbing, which writes every granule, to free (R393). -/
def freeFrame (s : State) (f : Nat) : State :=
  let s := (zeroFrame (scrubFrame s f) f).setFrame f (if isWithdrawn s f then BitVec.ofNat 64 (7 * 2 ^ 10) else 0)
  { s with dev := { s.dev with dur := mapSet 0 s.dev.dur f 0, durOff := s.dev.durOff.filter fun g => g ≠ f } }

/-- Is no sweep that the request waits for still running (R397)? -/
def sweepsOver (s : State) (tenant : Nat) (fams : List (Nat × Nat)) : Bool :=
  s.dev.sweeps.all fun w => !(decide (w.tenant = tenant) && fams.any fun e => decide (e.1 = w.family) && decide (w.gen ≤ e.2))

/-- May a pending request complete now? -/
def pendReady (s : State) (p : SvcPend) : Bool :=
  sweepsOver s p.tenant p.fams && decide (p.at_ ≤ s.time) &&
    (match p.svc with
    | 9 => !(mapGet 0 s.dev.tenant p.tenant).getLsbD 74
    | 4 => p.arg = 0 || !stillUsed s (waitOf s (1024 + p.caller))
    | 15 => !(s.links.hostReq.any fun r => decide (askTenant s r.2.2 = some p.tenant)) && (s.sched.launches.all fun l => decide (l.2.tenant ≠ p.tenant) || l.2.ended) &&
        (partitionOf s p.tenant).all fun n => decide ((s.core n).life = .idle)
    | _ => true)

/-- The body of a usage report (R422). -/
def reportBody (s : State) (p : SvcPend) (number : Nat) : List Nat :=
  let os := (List.range 64).filter fun o => p.arg.testBit o
  (List.range 4).map (fun i => fieldOf p.x (64 * i) 64) ++ [p.at_ % 2 ^ 64, p.arg, number, 0]
    ++ os.flatMap fun o => (List.range 8).map fun f => if f < 5 then (mapGet 0 s.meas.usage (5 * o + f)).toNat else 0

/-- A signature of `len` bytes with a key slot (operation 1 ECDSA, 2 LMS or HSS): a different one each time (R435, R436). -/
def signature (s : State) (op slot len n v : Nat) : Nat :=
  Config.keyed op (mapGet 0 s.thim.slots slot) ((v * 2 ^ 32 + n) * 2 ^ 64 + s.free) % 2 ^ (8 * len)

/-- The words of a signature of `len` bytes over a digest (R422, R442). -/
def sigWords (s : State) (op slot len : Nat) (digest : BitVec 384) : List Nat :=
  let v := signature s op slot len 48 (digestNat digest)
  (List.range ((len + 7) / 8)).map fun i => v / 2 ^ (64 * i) % 2 ^ 64

/-- The tenant's functions that are being unbound forget it; its cores are scrubbed, its writes performed and its frames freed (R382, R393,
R403). -/
def unbind (s : State) (tenant : Nat) : State :=
  let part := partitionOf s tenant
  let as := (s.ctxs.map (·.1)).filter fun a => decide (fieldOf (asidOf s a) 1 10 = tenant)
  let s := as.foldl (fun s a => ((ctxOf s a).held.foldl (fun s h => applyWrite s h.pa h.data h.mask h.whole h.codes) s).setCtx a
    { ctxOf s a with held := [] }) s
  let s := (framesOfTenant s tenant).foldl freeFrame s
  let s := part.foldl (fun s n => s.setCore n (scrubTouched (scrubbed (s.core n) 0) s.cyc)) s
  { s with
    dev := { s.dev with tenant := mapSet 0 s.dev.tenant tenant 0, rots := s.dev.rots.filter fun r => r.tenant ≠ tenant }
    links := { s.links with tdi := s.links.tdi.map fun e => if e.2.tenant = tenant then (e.1, { e.2 with tenant := 0 }) else e } }

/-- A pending request completes (R397, R400, R422). A release has two parts: the frames enter scrubbing, and once every access judged under
their old entries is performed they are zeroed and free (R393). -/
def finishPend (s : State) (p : SvcPend) : State :=
  let s := { s with thim := { s.thim with pend := s.thim.pend.erase p } }
  match p.svc with
  | 4 =>
    if p.arg = 0 then
      let as := (s.ctxs.filter fun e => e.2.held.any fun h => p.frames.contains (h.pa / 65536)).map (·.1)
      let s := (p.frames.foldl scrubFrame s).setWait (1024 + p.caller) (oldUse s p.caller as)
      { s with thim := { s.thim with pend := s.thim.pend ++ [{ p with arg := 1 }] } }
    else complete (p.frames.foldl freeFrame s) 4 p.caller p.owner p.req (p.frames.map fun _ => 0)
  | 7 => complete s 7 p.caller p.owner p.req [genOf s p.tenant p.arg]
  | 9 => complete s 9 p.caller p.owner p.req []
  | 10 =>
    let number := s.meas.reports + 1
    let body := reportBody s p number
    let d := sha384 (8 * body.length) (joinNat 64 body)
    let s := { s with meas := { s.meas with reports := number }, free := s.free + 1 }
    complete s 10 p.caller p.owner p.req (body ++ sigWords s 1 5 96 d ++ sigWords s 2 6 3292 d)
  | _ => unbind s p.tenant

/-- What the Thimble completes between two cycles. -/
def settleThimble (s : State) : State :=
  s.thim.pend.foldl (fun s p => if pendReady s p then finishPend s p else s) s

/-- The caller of a service request. -/
def svcCaller (i : Instr) : Option Nat :=
  match i with
  | .assign o | .share o | .hostwin o | .releaseService o => some o.caller
  | .durable o | .context o | .revoke o | .mint o | .rotate o | .reportService o | .extend o | .loan o | .link o | .clear o =>
    some o.caller
  | _ => none

/-- Requests of one caller are served one at a time (R445): does this one wait? -/
def svcWaits (s : State) (i : Instr) : Bool :=
  match svcCaller i with
  | some c => s.thim.pend.any fun p => decide (p.caller = c) && decide (p.svc ≠ 15)
  | none => false

end Sys2Proof.Machine
end

