-- ==== Sys2Proof/Machine/Thimble.lean ====
section
/-! DEFINITION. The Thimble's crypto engines (17_security_and_platform R435, R436), the measurement extend (R438) and the first
stage of the boot (R439 to R441). Each row acts on the engine that is busy with its operation. -/

namespace Sys2Proof.Machine

/-- An engine register: engine offset plus register offset (R435). -/
def engReg (s : State) (k : Nat) : Word := mapGet 0 s.thim.eng k

/-- Write an engine register. -/
def State.setEng (s : State) (k : Nat) (v : Word) : State :=
  { s with thim := { s.thim with eng := mapSet 0 s.thim.eng k v } }

/-- The operation that the engine at `base` runs; 0 where it is idle. -/
def engCode (s : State) (base : Nat) : Nat := if (engReg s (base + 0x30)).getLsbD 0 then (engReg s base).toNat else 0

/-- The largest operation code of an engine (R435). -/
def engMax (base : Nat) : Nat :=
  match base with
  | 0x000 => 2
  | 0x100 => 2
  | 0x200 => 3
  | 0x300 => 4
  | 0x400 => 3
  | 0x500 => 1
  | _ => 0

/-- A write to `ECMD` (R435): a code that the engine has sets BUSY, another one sets `EERR` to 1. -/
def engStart (s : State) (base code : Nat) : State :=
  if (engReg s (base + 0x30)).getLsbD 0 ∨ code = 0 then s
  else if engMax base < code then s.setEng (base + 0x30) 0x10
  else (s.setEng base (BitVec.ofNat 64 code)).setEng (base + 0x30) 1

/-- The operation ends (R435). -/
def engEnd (s : State) (base : Nat) (ok : Bool) (err : Nat) : State :=
  (s.setEng base 0).setEng (base + 0x30) (BitVec.ofNat 64 ((if ok then 2 else 0) + err * 16))

/-- Bytes at a physical address, frame by frame, at most `fuel` frames: those of a host-window frame stand in the host's page (R391). -/
def physRead (s : State) : Nat → Nat → Nat → Nat
  | 0, _, _ => 0
  | fuel + 1, p, n =>
    let k := min n (65536 - p % 65536)
    let v := if isHostFrame s p then memReadNat s.links.hostMem (hostAddr s p) k else memReadNat s.dev.mem p k
    if k = n then v else v + 2 ^ (8 * k) * physRead s fuel (p + k) (n - k)

/-- Bytes at a Thimble address (R434): an error 2 outside the regions, 4 where device memory is uncorrectable. -/
def thimRead (s : State) (a n : Nat) : Except Nat Nat :=
  if 0x10000000 ≤ a ∧ a + n ≤ 0x10100000 then .ok (memReadNat s.thim.sram (a - 0x10000000) n)
  else if 0x30000000 ≤ a ∧ a + n ≤ 0x31000000 then .ok (memReadNat s.thim.flash (a - 0x30000000) n)
  else if 2 ^ 41 ≤ a ∧ a + n ≤ 2 ^ 42 then
    let p := a - 2 ^ 41
    if (List.range n).all fun i => paMapped s (p + i) then
      (if (List.range n).any fun i => (if isHostFrame s (p + i) then !hostOpen s (fieldOf (potOf s (p + i)) 0 10) else granBad s (p + i)) then .error 4 else .ok (physRead s (n / 65536 + 2) p n))
    else .error 2
  else .error 2

/-- The home hub reads the granules of `n` bytes at a Thimble address: what it finds wrong takes its course (R253 to R256, R434). -/
def thimSees (s : State) (a n : Nat) : State :=
  if 2 ^ 41 ≤ a ∧ a + n ≤ 2 ^ 42 ∧ 0 < n then
    (List.range ((a + n - 1) / 128 + 1 - a / 128)).foldl (fun s i =>
      let p := (a / 128 + i) * 128 - 2 ^ 41
      if !paMapped s p then s else if isHostFrame s p then (hostFetch s p 1).1 else (hubReadGran s p).1) s
  else s

/-- Store bytes at a Thimble address (R434, R435); a durable frame's blocks are logged as for every agent (R258, R263, R264), and a
host-window frame's granules go to the host (R391). -/
def thimWrite (s : State) (a n v : Nat) : Except Nat State :=
  if 0x10000000 ≤ a ∧ a + n ≤ 0x10100000 then
    .ok { s with thim := { s.thim with sram := memWriteNat s.thim.sram (a - 0x10000000) n v } }
  else if 2 ^ 41 ≤ a ∧ a + n ≤ 2 ^ 42 ∧ (List.range n).all (fun i => paMapped s (a - 2 ^ 41 + i)) then
    .ok ((List.range ((a % 128 + n + 127) / 128)).foldl (fun s i =>
      let g := (a - 2 ^ 41) / 128 * 128 + 128 * i
      let w := v * 2 ^ (8 * (a % 128)) / 2 ^ (1024 * i) % 2 ^ 1024
      let m : BitVec 128 := BitVec.ofNat 128 ((2 ^ n - 1) * 2 ^ (a % 128) / 2 ^ (128 * i))
      (devPut s 256 (fieldOf (potOf s g) 0 10) g (BitVec.ofNat 1024 w) m (decide (m = BitVec.allOnes 128))).1) s)
  else .error 2

/-- An operand of `EKEY` (R435): a key slot, which must hold a key, or bytes at an address. -/
def engKey (s : State) (k : Word) (n : Nat) : Except Nat Nat :=
  if k.getLsbD 63 then
    (if mapHas s.thim.slots (fieldOf k 0 8) then .ok (mapGet 0 s.thim.slots (fieldOf k 0 8)) else .error 3)
  else thimRead s k.toNat n

/-- Where an operation of the engine at `base` reads its operands, and their lengths (R435). -/
def engOperands (s : State) (base code : Nat) : List (Nat × Nat) :=
  let src := (engReg s (base + 0x08)).toNat
  let msg := [(src, (engReg s (base + 0x10)).toNat % 2 ^ 32)]
  let key (n : Nat) : List (Nat × Nat) := if (engReg s (base + 0x18)).getLsbD 63 then [] else [((engReg s (base + 0x18)).toNat, n)]
  let sig := (engReg s (base + 0x20)).toNat
  match base, code with
  | 0x100, 1 => (src, 48) :: key 96 ++ [(sig, 96)]
  | 0x100, _ => [(src, 48)]
  | 0x200, 1 => msg ++ key 48 ++ [(sig, 1620)]
  | 0x200, 3 => []
  | 0x300, 4 => []
  | 0x500, _ => []
  | _, _ => msg

/-- An operation that starts reads its operands. -/
def engReads (s : State) (base code : Nat) : State :=
  if (engReg s (base + 0x30)).getLsbD 0 ∨ code = 0 ∨ engMax base < code then s
  else (engOperands s base code).foldl (fun s x => thimSees s x.1 x.2) s

/-- A key operand that has to be a slot. -/
def engSlot (s : State) (k : Word) : Except Nat Nat := if k.getLsbD 63 then engKey s k 0 else .error 3

/-- Write an output: to a key slot, or to an address (R435). -/
def engOut (s : State) (dst : Word) (n v : Nat) : Except Nat State :=
  if dst.getLsbD 63 then .ok { s with thim := { s.thim with slots := mapPut s.thim.slots (fieldOf dst 0 8) v } }
  else thimWrite s dst.toNat n v

/-- End an operation with what it answers: the state and whether it succeeded, or an error code. -/
def engDone (s : State) (base : Nat) (r : Except Nat (State × Bool)) : State :=
  match r with
  | .ok (s, ok) => engEnd s base ok 0
  | .error e => engEnd s base false e

/-- The message operand: `ELEN` bytes at `ESRC`, and their number. -/
def engMsg (s : State) (base : Nat) : Except Nat (Nat × Nat) := do
  let n := (engReg s (base + 0x10)).toNat % 2 ^ 32
  let v ← thimRead s (engReg s (base + 0x08)).toNat n
  .ok (n, v)

/-- SHA operation (R435). -/
def doSha (s : State) (long : Bool) : State :=
  engDone s 0x000 (do
    let (n, v) ← engMsg s 0x000
    let d := if long then digestNat (sha384 n v) else bytesVal ((bytesOf 32 (sha256 n v).toNat).reverse)
    let s ← engOut s (engReg s 0x028) (if long then 48 else 32) d
    .ok (s, true))

/-- ECDSA verification (R435). -/
def doEcdsaVerify (s : State) : State :=
  engDone s 0x100 (do
    let d ← thimRead s (engReg s 0x108).toNat 48
    let k ← engKey s (engReg s 0x118) 96
    let g ← thimRead s (engReg s 0x120).toNat 96
    .ok (s, Config.verifies 1 k d g))

/-- ECDSA signature with a key slot (R435). -/
def doEcdsaSign (s : State) : State :=
  engDone s 0x100 (do
    let d ← thimRead s (engReg s 0x108).toNat 48
    let _ ← engSlot s (engReg s 0x118)
    let v := signature s 1 (fieldOf (engReg s 0x118) 0 8) 96 48 d
    let s ← engOut { s with free := s.free + 1 } (engReg s 0x128) 96 v
    .ok (s, true))

/-- LMS or HSS verification (R435, R436): a key that begins with level count 2 is an HSS key (log entry 5). -/
def doLmsVerify (s : State) : State :=
  engDone s 0x200 (do
    let (n, v) ← engMsg s 0x200
    let head ← engKey s (engReg s 0x218) 4
    let hss := decide (head % 2 ^ 32 = 2 * 2 ^ 24)
    let k ← engKey s (engReg s 0x218) (if hss then 52 else 48)
    let g ← thimRead s (engReg s 0x220).toNat (if hss then 3292 else 1620)
    .ok (s, Config.verifies 2 k (v * 2 ^ 32 + n) g))

/-- HSS signature with a key slot (R435, R442): its length goes to `ELEN`. -/
def doHssSign (s : State) : State :=
  engDone s 0x200 (do
    let (n, v) ← engMsg s 0x200
    let _ ← engSlot s (engReg s 0x218)
    let slot := fieldOf (engReg s 0x218) 0 8
    let len := if slot = 4 then 1620 else 3292
    let g := signature s 2 slot len n v
    let s ← engOut { s with free := s.free + 1 } (engReg s 0x228) len g
    .ok (s.setEng 0x210 (BitVec.ofNat 64 len), true))

/-- BOOTINC (R435, R436): the next boot-counter fuse; the operation fails where none is left. -/
def doBootinc (s : State) : State :=
  if s.thim.bootcnt < 32768 then
    engEnd { s with thim := { s.thim with bootcnt := s.thim.bootcnt + 1 } } 0x200 true 0
  else engEnd s 0x200 false 0

/-- CMAC with a key slot (R435). -/
def doCmac (s : State) : State :=
  engDone s 0x300 (do
    let (n, v) ← engMsg s 0x300
    let k ← engSlot s (engReg s 0x318)
    let s ← engOut s (engReg s 0x328) 16 (cmac k n v)
    .ok (s, true))

/-- GCM seal (R435): the ciphertext and then the tag of 16 bytes; the spec does not give the nonce (log entry 5). -/
def doGcmSeal (s : State) : State :=
  engDone s 0x300 (do
    let (n, v) ← engMsg s 0x300
    let k ← engSlot s (engReg s 0x318)
    let c := Config.keyed 4 k ((v * 2 ^ 32 + n) * 2 ^ 64 + s.free) % 2 ^ (8 * (n + 16))
    let s ← engOut { s with free := s.free + 1 } (engReg s 0x328) (n + 16) c
    .ok (s, true))

/-- GCM open (R435): nothing is written where the tag does not verify. -/
def doGcmOpen (s : State) : State :=
  engDone s 0x300 (do
    let (n, v) ← engMsg s 0x300
    let k ← engSlot s (engReg s 0x318)
    if Config.verifies 3 k (v * 2 ^ 32 + n) 0 then
      (do
        let s ← engOut s (engReg s 0x328) (n - 16) (Config.keyed 5 k (v * 2 ^ 32 + n) % 2 ^ (8 * (n - 16)))
        .ok (s, true))
    else .ok (s, false))

/-- Copy a key slot (R399, R435, R437): `EDST` names, by its low byte, the handle units of panels 0 to 7 or hubs 8 to 11; with
bit 8 set, bits [19:9] name a tenant's key slot. -/
def doKeyCopy (s : State) : State :=
  engDone s 0x300 (do
    let k ← engSlot s (engReg s 0x318)
    let d := (engReg s 0x328).toNat
    if d / 256 % 2 = 1 then
      let i := d / 512 % 2048
      let g := fieldOf (mapGet 0 s.dev.keys i) 1056 32 + 1
      let v := BitVec.ofNat 1088 (k % 2 ^ 1024 + 2 ^ 1024 + g % 2 ^ 32 * 2 ^ 1056)
      .ok ({ s with dev := { s.dev with keys := mapSet 0 s.dev.keys i v } }, true)
    else if d % 256 < 12 then
      .ok ({ s with thim := { s.thim with sealing := mapSet 0 s.thim.sealing (d % 256) k } }, true)
    else .error 2)

/-- HMAC-SHA-384 with a key slot (R435). -/
def doHmac (s : State) : State :=
  engDone s 0x400 (do
    let (n, v) ← engMsg s 0x400
    let k ← engSlot s (engReg s 0x418)
    let s ← engOut s (engReg s 0x428) 48 (hmac384 k n v)
    .ok (s, true))

/-- The 15 bytes "SK1610 identity" as a little-endian number. -/
def idLabel : Nat := joinNat 8 [0x53, 0x4B, 0x31, 0x36, 0x31, 0x30, 0x20, 0x69, 0x64, 0x65, 0x6E, 0x74, 0x69, 0x74, 0x79]

/-- Derivation from the UDS into slots 1 and 2, while `UDSLOCK` is 0 (R434, R435). -/
def doUds (s : State) : State :=
  engDone s 0x400 (if s.thim.udslock then .ok (s, false)
    else do
      let (n, v) ← engMsg s 0x400
      let h (n v : Nat) : Nat := hmac384 s.thim.uds n v
      .ok ({ s with thim := { s.thim with slots := mapPut (mapPut s.thim.slots 1 (h 15 idLabel)) 2 (h n v) } }, true))

/-- HKDF-Expand from a key slot into a key slot, with the input as its info (R435). -/
def doHkdf (s : State) : State :=
  engDone s 0x400 (do
    let (n, v) ← engMsg s 0x400
    let k ← engSlot s (engReg s 0x418)
    let dst := fieldOf (engReg s 0x428) 0 8
    .ok ({ s with thim := { s.thim with slots := mapPut s.thim.slots dst (hkdf384 k n v) } }, true))

/-- Random bytes: free values (R435, log entry 1). -/
def doDrbg (s : State) : State :=
  engDone s 0x500 (do
    let n := (engReg s 0x510).toNat % 2 ^ 32
    let v := joinNat 64 ((List.range ((n + 7) / 8)).map fun i => (Config.freeValue 11 (s.free * 2 ^ 32 + i)).toNat)
    let s ← engOut { s with free := s.free + 1 } (engReg s 0x528) n (v % 2 ^ (8 * n))
    .ok ({ s with thim := { s.thim with drbgReq := s.thim.drbgReq + 1 } }, true))

/-- Run an operation where its engine is busy with it. -/
def engRow (s : State) (base code : Nat) (f : State → State) : Ans := if engCode s base = code then .next (f s) else .next s

/-- SHA384. -/
def execSha384 (s : State) : Ans := engRow s 0x000 1 (doSha · true)
/-- SHA256. -/
def execSha256 (s : State) : Ans := engRow s 0x000 2 (doSha · false)
/-- ECDSA_VERIFY. -/
def execEcdsaVerify (s : State) : Ans := engRow s 0x100 1 doEcdsaVerify
/-- ECDSA_SIGN. -/
def execEcdsaSign (s : State) : Ans := engRow s 0x100 2 doEcdsaSign
/-- LMS_VERIFY. -/
def execLmsVerify (s : State) : Ans := engRow s 0x200 1 doLmsVerify
/-- HSS_SIGN. -/
def execHssSign (s : State) : Ans := engRow s 0x200 2 doHssSign
/-- BOOTINC. -/
def execBootinc (s : State) : Ans := engRow s 0x200 3 doBootinc
/-- AES_CMAC. -/
def execAesCmac (s : State) : Ans := engRow s 0x300 1 doCmac
/-- GCM_SEAL. -/
def execGcmSeal (s : State) : Ans := engRow s 0x300 2 doGcmSeal
/-- GCM_OPEN. -/
def execGcmOpen (s : State) : Ans := engRow s 0x300 3 doGcmOpen
/-- KEY_COPY. -/
def execKeyCopy (s : State) : Ans := engRow s 0x300 4 doKeyCopy
/-- HMAC. -/
def execHmac (s : State) : Ans := engRow s 0x400 1 doHmac
/-- UDS_DERIVE. -/
def execUdsDerive (s : State) : Ans := engRow s 0x400 2 doUds
/-- HKDF_EXPAND. -/
def execHkdfExpand (s : State) : Ans := engRow s 0x400 3 doHkdf
/-- DRBG. -/
def execDrbg (s : State) : Ans := engRow s 0x500 1 doDrbg

/-- Does the DRBG have to reseed (R435)? -/
def reseedDue (s : State) : Bool := decide (2 ^ 20 ≤ s.thim.drbgReq)

/-- DRBG_RESEED (R435): the count of requests starts again. -/
def execDrbgReseed (s : State) : Ans :=
  if reseedDue s then
    .next { s with free := s.free + 1, thim := { s.thim with drbgReq := s.thim.drbgReq - 2 ^ 20, drbgSeed := s.thim.drbgSeed + 1 } }
  else .next s

/-- Is a measurement slot locked: ms6 to ms15 always, and a number without a slot (R438)? -/
def msLocked (s : State) (n : Nat) : Bool := (msOf s n).getLsbD 416 || (decide (6 ≤ n) && decide (n ≤ 15)) || decide (31 < n)

/-- The extend of slot `n` with the 48 bytes at `MEXTSRC` (R438): bit 62 of `MEXT` shows that nothing changed. -/
def doExtend (s : State) (n : Nat) : State :=
  let refuse : State := { s with thim := { s.thim with mext := setField 0 62 1 1 } }
  if msLocked s n then refuse
  else match thimRead s s.thim.mextsrc.toNat 48 with
    | .error _ => refuse
    | .ok v => { s with thim := { s.thim with ms := mapSet 0 s.thim.ms n (extended (msOf s n) v), mext := 0 } }

/-- MEXT (R438): the extend that `MEXT` asked for. -/
def execMext (s : State) : Ans :=
  if s.thim.mext.getLsbD 63 then .next (doExtend s (fieldOf s.thim.mext 0 32)) else .next s

/-- Copy `n` bytes of the flash into the SRAM (R441). -/
def bootCopy (s : State) (off dst n : Nat) : State :=
  { s with thim := { s.thim with sram := memWriteNat s.thim.sram dst n (memReadNat s.thim.flash off n) } }

/-- Write the registers of an engine and run it (R441); answers OK. -/
def bootRun (s : State) (base : Nat) (regs : List (Nat × Nat)) (f : State → State) : State × Bool :=
  let s := f (regs.foldl (fun s r => s.setEng (base + r.1) (BitVec.ofNat 64 r.2)) s)
  (s, (engReg s (base + 0x30)).getLsbD 1)

/-- Is the image header in the SRAM legal (R439, R441)? -/
def bootHeader (s : State) : Bool :=
  let f (o n : Nat) : Nat := memReadNat s.thim.sram (0x20000 + o) n
  decide (f 0 4 = 0x4B534854) && decide (f 12 4 = 1) && decide (f 16 8 ≠ 0) && decide (f 16 8 ≤ 786432)
    && decide (f 16 8 % 256 = 0) && decide (f 24 8 < f 16 8) && decide (f 24 8 % 2 = 0)

/-- The first stage stops (R441): STAGE 1, `ERR`, the UDS locked, the Thimble halted. -/
def bootFail (s : State) (err : Nat) : State :=
  { s with thim := { s.thim with stage := 1, err := err, udslock := true, halted := true } }

/-- The first stage of the boot (R441): its checks in the order of the listing. -/
def firstStage (s : State) : State :=
  let s := { s with thim := { s.thim with stage := 1 } }
  let s := bootCopy s 0 0x20000 256
  if !bootHeader s then bootFail s 1
  else
    let len := memReadNat s.thim.sram 0x20010 8
    let s := bootCopy s 256 0x20100 (len + 0x700)
    let (s, ok) := bootRun s 0x000 [(0x08, 0x10020040), (0x10, 144), (0x28, 0x10000140)] (doSha · true)
    if !ok then bootFail s 2
    else if memReadNat s.thim.sram 0x140 48 ≠ s.thim.keyhash.toNat then bootFail s 3
    else if memReadNat s.thim.sram 0x20008 4 < s.thim.minsvn then bootFail s 4
    else
      let (s, ok) := bootRun s 0x000 [(0x08, 0x10020000), (0x10, len + 256), (0x28, 0x10000100)] (doSha · true)
      if !ok then bootFail s 5
      else
        let sig := 0x10020100 + len
        let (s, ok) := bootRun s 0x100 [(0x08, 0x10000100), (0x10, 48), (0x18, 0x10020040), (0x20, sig)] doEcdsaVerify
        if !ok then bootFail s 6
        else
          let (s, ok) := bootRun s 0x200 [(0x08, 0x10000100), (0x10, 48), (0x18, 0x100200A0), (0x20, sig + 0x60)] doLmsVerify
          if !ok then bootFail s 7
          else
            let s := doExtend { s with thim := { s.thim with mextsrc := 0x10000100 } } 0
            let (s, ok) := bootRun s 0x400 [(0x08, 0x10000100), (0x10, 48)] doUds
            if !ok then bootFail s 8
            else { s with thim := { s.thim with udslock := true, stage := 2 } }

end Sys2Proof.Machine
end

