-- ==== Sys2Proof/Machine/Platform.lean ====
section
/-! DEFINITION. Power, heat and resets (17_security_and_platform R447 to R452, 10 R258): package power-on and power loss, panel
reset, fatal errors, thermal samples, the power limit and the droop detectors. -/

namespace Sys2Proof.Machine

/-- PACKAGE_POWER_ON (R39, R249, R441, R451): everything is reset but the fuses, the flash, what has failed for good and the
outside world; channels that failed leave the map; then boot stage 0 and the first stage. -/
def execPackagePowerOn (s : State) : Ans :=
  let r := State.reset
  let mapped := (List.range 16).foldl (fun m j =>
    mapSet (BitVec.allOnes 32) m j (mappedChans s j &&& ~~~ (mapGet 0 s.dev.chanBad j))) s.dev.mapped
  let s' := { r with
    cyc := s.cyc, inputs := s.inputs, upsets := s.upsets, free := s.free + 1
    dev := { r.dev with mapped := mapped }
    links := { r.links with hostMem := s.links.hostMem }
    thim := { r.thim with
      flash := s.thim.flash, keyhash := s.thim.keyhash, minsvn := s.thim.minsvn, bootcnt := s.thim.bootcnt, uds := s.thim.uds }
    plat := { r.plat with
      siteBad := s.plat.siteBad, spare := s.plat.spareDue.foldl (fun m e => mapSet 0 m e.1 e.2) s.plat.spare } }
  .next (firstStage s')

/-- PACKAGE_POWER_LOSS (R258, R451): every volatile state is lost; nothing runs until power-on. -/
def execPackagePowerLoss (s : State) : Ans := .next { s with down := true }

/-- A task leaves its core at once, without a cut and without its launch ending (R452): its context is rolled back. -/
def dropQuiet (s : State) (n : Nat) : State :=
  let c := s.core n
  let s := countRun (dropCoreWork s n) n
  let recs := match s.sched.recs.find? fun e => e.1 = c.task.recno with
    | some (_, r) => mapPut s.sched.recs c.task.recno { r with busy := false, join := 0, readyAt := s.cyc, patience := false }
    | none => s.sched.recs
  let s := { s with sched := { s.sched with recs := recs } }
  checkEnding (ctxLeave (s.setCore n { idleCore c with qm := EQueue.zero, qv := EQueue.zero, qc := EQueue.zero, ql := EQueue.zero })
    c.sys.casid n) c.task.launch

/-- One core of a reset panel (R452): its task is rolled back, requeued or faulted; the core is scrubbed and idle. -/
def resetCore (s : State) (n : Nat) : State :=
  let c := s.core n
  let asid := c.sys.casid
  let s := if c.life = .idle then s
    else if (ctxOf s asid).st ≠ 0 then dropQuiet (rollbackRequest s asid) n
    else dropTask s n
  let c := s.core n
  s.setCore n { scrubTouched (scrubbed c c.sys.tenant) s.cyc with life := .idle, frozenV := false, task := TaskSt.none }

/-- A reset core counts as acknowledged in every sweep (R452). -/
def sweepsForget (s : State) (ns : List Nat) : State :=
  let keep (l : List Nat) : List Nat := l.filter fun n => !ns.contains n
  let ws := s.dev.sweeps.map fun w => { w with toSweep := keep w.toSweep, toAck := keep w.toAck }
  { s with dev := { s.dev with sweeps := ws.filter fun w => !(w.toSweep.isEmpty && w.toAck.isEmpty) } }

/-- A panel reset (R437, R452). -/
def panelReset (s : State) (p : Nat) : State :=
  let ns := (List.range 32).map (32 * p + ·)
  let s := sweepsForget (ns.foldl resetCore s) ns
  { s with thim := { s.thim with sealing := mapSet 0 s.thim.sealing p (mapGet 0 s.thim.slots 0) } }

/-- PANEL_RESET of panel `idx` (R451, R452). -/
def execPanelReset (o : IdxEv) (s : State) : Ans := if o.idx < 8 then .next (panelReset s o.idx) else .next s

/-- The slot that holds the record of a bank's newest uncorrectable error: 0 FIRST, 1 NEXT (R402; log entry 132). -/
def errorSlot (s : State) (bank : Nat) : Nat := if (mapGet Bank.zero s.dev.banks bank).second.getLsbD 0 then 1 else 0

/-- A fatal error of a block of core `n` (R39, R213, R225, R402): sequencer 0, vector file 1, scratchpad 2, matrix array 3; a
scratchpad's is a parity error of a line's metadata. A core that runs a task takes UE_CONTROL. -/
def coreFatal (s : State) (n block : Nat) : State :=
  let bank := 4 * (9 * (n / 8) + siteOf s n) + block
  let s := placeError s bank 3 (if block = 2 then 7 else 3) (siteOf s n) 0
  let c := s.core n
  if c.life = .running ∨ c.life = .draining then
    s.setCore n (raiseFatal c s.time
      ⟨causeUeControl, false, 0, false, BitVec.ofNat 64 block, BitVec.ofNat 64 (errorSlot s bank), c.seq.pc⟩)
  else s

/-- FATAL_ERROR (R39, R402, R451): 0 to 3 a hub, 4 the Thimble, 5 the primary Timetable core, 6 + 4n + b block b of core n. The package
stops but for a core's, or where a standby Timetable core takes over. -/
def execFatalError (o : IdxEv) (s : State) : Ans :=
  if 6 ≤ o.idx ∧ o.idx < 6 + 1024 then .next (coreFatal s ((o.idx - 6) / 4) ((o.idx - 6) % 4))
  else if o.idx < 4 then .next (packageFails (placeError s (1152 + o.idx) 3 6 o.idx 0))
  else if o.idx = 4 then .next (packageFails (placeError s 1190 3 6 0 0))
  else if o.idx = 5 then execTimetableTakeover s
  else .next s

/-- Stretch level of a form (R448). -/
def stretchOf (s : State) (f : Nat) : Nat := mapGet 0 s.plat.stretch f

/-- Raise or lower a form's stretch level by one step, within 0 to 32 (R448, R449). -/
def stretchUp (s : State) (f : Nat) : State :=
  { s with plat := { s.plat with stretch := mapSet 0 s.plat.stretch f (min 32 (stretchOf s f + 1)) } }
def stretchDown (s : State) (f : Nat) : State :=
  { s with plat := { s.plat with stretch := mapSet 0 s.plat.stretch f (stretchOf s f - 1) } }

/-- A fatal error in every error bank of a panel (R450). -/
def panelFatal (s : State) (p : Nat) : State :=
  (List.range 36).foldl (fun s i => (List.range 4).foldl (fun s k =>
    placeError s (4 * (36 * p + i) + k) 3 0 (i % 9) 0) s) s

/-- What a temperature on a form does (R450): its stretch level, and the reset of its panel. -/
def formHeat (s : State) (f temp : Nat) : State :=
  let hot := decide (100 ≤ temp) || (mapGet false s.plat.hot f && decide (98 < temp))
  let s := { s with plat := { s.plat with hot := mapSet false s.plat.hot f hot } }
  let s := if hot then stretchUp s f else s
  if 110 ≤ temp then panelReset (panelFatal s (f / 4)) (f / 4) else s

/-- THERMAL_SAMPLE (R450): place 0 a form, 1 a hub, 2 a stack. The three actions of the table add up. -/
def execThermalSample (o : ThermEv) (s : State) : Ans :=
  let s := if o.place ≠ 0 ∨ 32 ≤ o.idx then s else formHeat s o.idx o.temp
  .next (if 120 ≤ o.temp then { s with plat := { s.plat with thermtrip := true } } else s)

/-- POWER_LIMIT_CHECK (R448): average watts `a` over 1 ms, and in `b` the forms that draw most. -/
def execPowerLimitCheck (o : TwoEv) (s : State) : Ans :=
  let lim := (mapGet 0 s.links.pf0 0x100).toNat
  let forms := List.range 32
  if lim < o.a then
    let s := (forms.filter fun f => o.b.testBit f).foldl stretchUp s
    .next { s with plat := { s.plat with lowerAt := s.time + 100000 } }
  else if 100 * o.a ≤ 95 * lim ∧ s.plat.lowerAt ≤ s.time then
    let s := forms.foldl (fun s f => if mapGet false s.plat.hot f then s else stretchDown s f) s
    .next { s with plat := { s.plat with lowerAt := s.time + 100000 } }
  else .next s

/-- DROOP (R448) on form `idx`. -/
def execDroop (o : IdxEv) (s : State) : Ans := if o.idx < 32 then .next (stretchUp s o.idx) else .next s

end Sys2Proof.Machine
end

