-- ==== Sys2Proof/Machine/Registers.lean ====
section
/-! DEFINITION. Registers that have no row of their own (00_scope R8), in four spaces: the BAR0 of a virtual function (14 R379), PF0
(14 R380), the Thimble's map (17 R434), a Timetable core's map (13 R357): what a read shows, as functions of the state, since a read but
that of the row GUEST_COUNTER_READ_LO changes nothing, and what a write does; and the debugger's data register (16 R431). -/

namespace Sys2Proof.Machine

/-- A flag at bit `i` of a word. -/
def flagAt (i : Nat) (b : Bool) : Nat := if b then 2 ^ i else 0

/-- A debug register of a tenant as read (R431): `DCMD` is write-only but for `DSTOPPED`; `DDATA` is that of a stopped core. -/
def debugRead (s : State) (tenant off : Nat) : Word :=
  let d := dbgOf s tenant
  let stopped := (selCore s tenant).filter fun n => (s.core n).dstop
  match off with
  | 0x3100 => BitVec.ofNat 64 (flagAt 0 d.dhold + d.dlid * 2 ^ 32)
  | 0x3108 => BitVec.ofNat 64 d.dsel
  | 0x3110 => BitVec.ofNat 64 (flagAt 32 stopped.isSome)
  | 0x3118 => BitVec.ofNat 64 d.daddr
  | 0x3120 => (match stopped with
    | some n => if d.daddr % 4 = 1 then csrRead { s with cur := n } (d.daddr / 4) else ddataRead s n d.daddr
    | none => 0)
  | 0x3128 | 0x3130 | 0x3138 | 0x3140 => (mapGet 0 d.bkpc ((off - 0x3128) / 8)).setWidth 64
  | 0x3148 => d.wstask
  | 0x3150 => d.wscount
  | 0x3158 => BitVec.ofNat 64 (flagAt 0 d.wsarm + flagAt 1 d.wsmiss + flagAt 2 d.wserr)
  | _ => 0

/-- Word `k` of the register group of command spool `n` of a function (R325); beyond `SPCNT` it reads zero. -/
def spoolRead (s : State) (vf n k : Nat) : Word :=
  match spoolNo s vf n with
  | none => 0
  | some i =>
    let x := spoolOf s i
    match k with
    | 0 => x.cfg.setWidth 64
    | 1 => BitVec.ofNat 64 (flagAt 0 (spStrict x) + x.head * 2 ^ 32)
    | 2 => BitVec.ofNat 64 (x.tail + x.err * 2 ^ 32 + flagAt 36 x.stop)
    | _ => 0

/-- Word `k` of the register group of completion spool `m` of a function (R336). -/
def cspoolRead (s : State) (vf m k : Nat) : Word :=
  let x := cspoolOf s vf m
  match k with
  | 0 => x.cfg
  | 1 => BitVec.ofNat 64 (x.prod + x.cons * 2 ^ 32)
  | 2 => BitVec.ofNat 64 (flagAt 0 (csFullBit s vf m) + flagAt 1 x.err)
  | _ => 0

/-- A 64-bit read in the BAR0 of function `vf` (R379); kick registers and names that are not in the map read zero. A function without a
tenant has no debug registers and no counter window. -/
def vfRead (s : State) (vf off : Nat) : Word :=
  let t := tdiOf s vf
  if off < 0x400 then spoolRead s vf (off / 0x40) (off % 0x40 / 8)
  else if 0x1000 ≤ off ∧ off < 0x1200 then cspoolRead s vf ((off - 0x1000) / 0x20) (off % 0x20 / 8)
  else if off = 0x3000 then t.win
  else if off = 0x3010 then BitVec.ofNat 64 (flagAt 62 (mapGet false s.dev.ierr vf) + flagAt 63 (xlBusy s vf))
  else if off = 0x3018 then BitVec.ofNat 64 s.time
  else if t.st = 0 then 0
  else if 0x3100 ≤ off ∧ off < 0x3160 then debugRead s t.tenant off
  else if 0x4000 ≤ off ∧ off < 0x4000 + 8 * 384 ∧ off % 8 = 0 then guestView s t.tenant ((off - 0x4000) / 8)
  else 0

/-- A 32-bit read in it: the low half of the counter window has a row of its own, the high half is `VFSH` (R424). -/
def vfRead32 (s : State) (vf off : Nat) : BitVec 32 :=
  if 0x4000 ≤ off ∧ off < 0x4000 + 8 * 384 ∧ off % 8 = 4 then mapGet 0 s.meas.vfsh vf
  else (vfRead s vf (off / 8 * 8)).extractLsb' (8 * (off % 8)) 32

/-- `MLSTAT` of port `n` (R359). -/
def mlstat (p : Port) : Word :=
  BitVec.ofNat 64 (p.st + flagAt 3 p.wide + p.lanes.toNat * 2 ^ 4 + p.close * 2 ^ 12 + p.strcl * 2 ^ 15)

/-- A register of core `c` in PF0 at an offset of its group (R227, R416). -/
def pfCoreRead (s : State) (c off : Nat) : Word :=
  let k := s.core c
  if off = 0 then k.sp.retreq
  else if off = 8 then spretst k
  else if off = 16 then k.cn.claim.setWidth 64
  else if 0x080 ≤ off ∧ off < 0x100 ∧ off % 8 = 0 then (cntOf k ((off - 0x080) / 8)).value
  else if 0x100 ≤ off ∧ off < 0x180 ∧ off % 8 = 0 then (cntOf k ((off - 0x100) / 8)).cfg
  else 0

/-- A word of error bank `b` at an offset of its group (R401). -/
def bankRead (b : Bank) (off : Nat) : Word :=
  match off with
  | 0 => b.stat
  | 16 => b.first.extractLsb' 0 64
  | 24 => b.first.extractLsb' 64 64
  | 32 => b.second.extractLsb' 0 64
  | 40 => b.second.extractLsb' 64 64
  | _ => 0

/-- A 64-bit read of the hypervisor in PF0's BAR0 (R380): what the map does not name reads zero. `unit` is the function whose `VFSH` is
read at 0x3168 (log entry 141). After a boot that failed, the inventory record and `BOOTSTAT` alone can be read (R441). -/
def pfRead (s : State) (unit off : Nat) : Word :=
  if off % 8 ≠ 0 then 0
  else if off < 0x80 then s.plat.inv.extractLsb' (8 * off) 64
  else if off = 0x80 then BitVec.ofNat 64 (s.thim.stage + s.thim.err * 2 ^ 8)
  else if s.thim.err ≠ 0 then 0
  else if off = 0x100 then mapGet 6000 s.links.pf0 off
  else if off = 0x108 then mapGet 1000 s.links.pf0 off
  else if off = 0x208 then mapGet 0 s.links.pf0 off
  else if 0x1000 ≤ off ∧ off < 0x2000 then mapGet 0 s.links.pf0 off
  else if 0x2000 ≤ off ∧ off < 0x3000 then mapGet 0 s.thim.resp (65536 * hvCaller + (off - 0x2000) / 8)
  else if off = 0x3018 then BitVec.ofNat 64 s.time
  else if 0x3100 ≤ off ∧ off < 0x3160 then debugRead s (mapGet 0 s.links.pf0 0x3160).toNat off
  else if off = 0x3160 then mapGet 0 s.links.pf0 off
  else if off = 0x3168 then (mapGet 0 s.meas.vfsh unit).setWidth 64
  else if 0x8000 ≤ off ∧ off < 0x8800 then mapGet 0 s.sched.spalloc ((off - 0x8000) / 8)
  else if 0x9000 ≤ off ∧ off < 0x9100 then flendOf s ((off - 0x9000) / 8)
  else if 0xA000 ≤ off ∧ off < 0xA080 then mlstat (portOf s ((off - 0xA000) / 8))
  else if 0xB000 ≤ off ∧ off < 0xF000 then mapGet 0 s.links.pf0 off
  else if 0x10000 ≤ off ∧ off < 0x18000 then
    let m := migOf s ((off - 0x10000) / 32)
    if off % 32 = 8 then BitVec.ofNat 64 (m.st + flagAt 2 m.ovf + m.count * 2 ^ 32)
    else if off % 32 = 0 then 0
    else mapGet 0 s.links.pf0 off
  else if 0x20000 ≤ off ∧ off < 0x22000 then mapGet 0 s.links.pf0 off
  else if 0x40000 ≤ off ∧ off < 0x60000 then pfCoreRead s ((off - 0x40000) / 0x200) (off % 0x200)
  else if 0x80000 ≤ off ∧ off < 0x80000 + 64 * 1191 then bankRead (mapGet Bank.zero s.dev.banks ((off - 0x80000) / 64)) (off % 64)
  else if 0xA0000 ≤ off ∧ off < 0xA0000 + 8 * 384 then mapGet 0 s.meas.usage ((off - 0xA0000) / 8)
  else 0

/-- A debug register of a tenant at its BAR0 offset (R431); `WSARM` written 0 disarms, written 1 it has a row of its own. -/
def debugWrite (s : State) (tenant off : Nat) (v : Word) : State :=
  let d := dbgOf s tenant
  if off = 0x3100 then s.setDbg tenant { d with dhold := v.getLsbD 0, dlid := fieldOf v 32 32 }
  else if off = 0x3108 then s.setDbg tenant { d with dsel := fieldOf v 0 8 }
  else if off = 0x3118 then s.setDbg tenant { d with daddr := fieldOf v 0 25 }
  else if 0x3128 ≤ off ∧ off ≤ 0x3140 ∧ off % 8 = 0 then
    s.setDbg tenant { d with bkpc := mapSet 0 d.bkpc ((off - 0x3128) / 8) (v.extractLsb' 0 33) }
  else if off = 0x3148 then s.setDbg tenant { d with wstask := v }
  else if off = 0x3150 then s.setDbg tenant { d with wscount := v }
  else if off = 0x3158 ∧ v.getLsbD 0 = false then s.setDbg tenant { d with wsarm := false }
  else s

/-- The fields of `WINCTL`: the base is a multiple of 2^30 (R379). -/
def winMask : Word := 0x83FFFFFFC0000000

/-- A write in the BAR0 of function `vf` (R379, R382); a function that is not locked has no tenant whose debug registers it could
write. -/
def vfWrite (s : State) (vf off : Nat) (v : Word) : State :=
  let t := tdiOf s vf
  if t.st = 3 then s
  else if off = 0x3000 then
    (if t.st = 1 then (if v &&& winMask = t.win then s else tdiError s vf)
     else s.setTdi vf { t with win := v &&& winMask })
  else if t.st = 0 then s
  else debugWrite s t.tenant off v

/-- Write a PF0 register that is a plain word. -/
def pfSet (s : State) (off : Nat) (v : Word) : State :=
  { s with links := { s.links with pf0 := mapSet 0 s.links.pf0 off v } }

/-- A register of core `c` in PF0 at an offset of its group (R416): the physical counters, while they are claimed. -/
def pfCore (s : State) (c off : Nat) (v : Word) : State :=
  let k := s.core c
  if 0x080 ≤ off ∧ off < 0x100 ∧ off % 8 = 0 ∧ stolen k ((off - 0x080) / 8) then
    s.setCore c (setCnt k ((off - 0x080) / 8) { cntOf k ((off - 0x080) / 8) with value := v })
  else if 0x100 ≤ off ∧ off < 0x180 ∧ off % 8 = 0 ∧ stolen k ((off - 0x100) / 8) then
    let x := cntOf k ((off - 0x100) / 8)
    let wrap := if v.getLsbD 10 then 0 else fieldOf x.cfg 10 1
    s.setCore c (setCnt k ((off - 0x100) / 8) { x with cfg := BitVec.ofNat 64 (fieldOf v 0 10 + wrap * 2 ^ 10) })
  else s

/-- The hypervisor submits the request in the request buffer (R380, R445): `BUSY` is set. A service code that is none is answered as
malformed, and one of the tenant's own services as not permitted; the body, of which the spec gives no layout, comes with the service's own
row (log entry 159). -/
def svcSubmit (s : State) : State :=
  let head := mapGet 0 s.links.pf0 0x1000
  let svc := fieldOf head 0 16
  let s := pfSet s 0x208 (setField (mapGet 0 s.links.pf0 0x208) 0 1 1)
  if !thimOpen s then s
  else if svc = 0 ∨ (15 ≤ svc ∧ svc < 0x8000) then respond s hvCaller (fieldOf head 16 16) svc 2 []
  else if svc < 9 ∨ svc = 13 then respond s hvCaller (fieldOf head 16 16) svc 3 []
  else s

/-- A write of the hypervisor in PF0's BAR0 (R380); a write that sets a reserved bit still sets the fields beside it (R5). `VFSH`, which
the map does not name though the hypervisor restores it through PF0 (R424), stands at 0x3168 (log entry 141). -/
def pfWrite (s : State) (unit off : Nat) (v : Word) : State :=
  let policyOpen := !(msOf s 5).getLsbD 416
  if off = 0x100 then (if 1000 ≤ fieldOf v 0 13 ∧ fieldOf v 0 13 ≤ 6000 then pfSet s off (BitVec.ofNat 64 (fieldOf v 0 13)) else s)
  else if off = 0x108 then (if 100 ≤ fieldOf v 0 14 ∧ fieldOf v 0 14 ≤ 10000 then pfSet s off (BitVec.ofNat 64 (fieldOf v 0 14)) else s)
  else if off = 0x200 then (if v.getLsbD 0 then svcSubmit s else s)
  else if off = 0x208 then (if v.getLsbD 1 then pfSet s 0x208 (setField (mapGet 0 s.links.pf0 0x208) 1 1 0) else s)
  else if 0x1000 ≤ off ∧ off < 0x2000 then pfSet s off v
  else if off = 0x3160 then pfSet s off (BitVec.ofNat 64 (fieldOf v 0 10))
  else if off = 0x3168 then { s with meas := { s.meas with vfsh := mapSet 0 s.meas.vfsh unit (v.extractLsb' 0 32) } }
  else if 0x3100 ≤ off ∧ off < 0x3160 then debugWrite s (mapGet 0 s.links.pf0 0x3160).toNat off v
  else if off = 0xB000 then (if policyOpen ∧ fieldOf v 0 7 ≤ 64 then pfSet s off (BitVec.ofNat 64 (fieldOf v 0 7)) else s)
  else if 0xC000 ≤ off ∧ off < 0xF000 then (if policyOpen then pfSet s off v else s)
  else if 0x10000 ≤ off ∧ off < 0x18000 then
    let t := (off - 0x10000) / 32
    if (migOf s t).st ≠ 0 then s
    else if off % 32 = 16 then pfSet s off (v &&& ~~~ 0xFFF#64)
    else if off % 32 = 24 then pfSet s off (v &&& 0xFFFFFFFF#64)
    else s
  else if 0x20000 ≤ off ∧ off < 0x22000 then pfSet s off (v &&& 0xFFFF3F#64)
  else if 0x40000 ≤ off ∧ off < 0x60000 then pfCore s ((off - 0x40000) / 0x200) (off % 0x200) v
  else s

/-- A register of a crypto engine (R435); writes while it is busy are discarded. -/
def engWrite (s : State) (k : Nat) (v : Word) : State :=
  let base := k / 0x100 * 0x100
  let busy := (engReg s (base + 0x30)).getLsbD 0
  match k % 0x100 with
  | 0x00 => engStart (engReads s base (fieldOf v 0 8)) base (fieldOf v 0 8)
  | 0x10 => if busy then s else s.setEng k (BitVec.ofNat 64 (fieldOf v 0 32))
  | 0x08 | 0x18 | 0x20 | 0x28 => if busy then s else s.setEng k v
  | _ => s

/-- The bits of a word of the inventory record that are no reserved ones (R5, R40). -/
def invMask (unit : Nat) : Word :=
  match unit with
  | 1 => 0x003FFFFFFFFFFFFF
  | 10 => 0x1FFFF
  | 11 | 12 | 13 | 14 | 15 => 0
  | _ => BitVec.allOnes 64

/-- The block registers; the spec gives the block no layout, so the numbers are the model's (log entry 9): form modes, owner
weights, the inventory record, port control, mapped channels, page owner entries. Form modes, weights, inventory, channels and owner
entries are fields that the Thimble alone writes (R8, R40, R207, R339, R391), and rotation's two bits of an owner entry no one does. A
weight defines its owner, whose usage record begins at zero (R420). -/
def blockWrite (s : State) (th : Bool) (unit k : Nat) (v : Word) : State :=
  if th = false ∧ (k = 0x0000 ∨ k = 0x1000 ∨ k = 0x2000 ∨ k = 0x4000 ∨ k = 0x5000) then s
  else match k with
  | 0x0000 =>
    if unit < 32 ∧ (List.range 8).all (fun m => decide ((s.core (8 * unit + m)).life = .idle)) then
      { s with split := mapSet false s.split unit (v.getLsbD 0) } else s
  | 0x1000 =>
    if unit < 64 then
      let usage := (List.range 5).foldl (fun m f => mapSet 0 m (5 * unit + f) 0) s.meas.usage
      { s with
        sched := { s.sched with weight := mapPut s.sched.weight unit (fieldOf v 0 8) }
        meas := { s.meas with usage := usage } }
    else s
  | 0x2000 => if unit < 16 then { s with plat := { s.plat with inv := setField s.plat.inv (64 * unit) 64 (v &&& invMask unit).toNat } } else s
  | 0x3000 =>
    if unit < 16 then
      let s := s.setPort unit { portOf s unit with enabled := v.getLsbD 0 }
      if v.getLsbD 1 ∧ (portOf s unit).st = 3 then closePort s unit 4 else s
    else s
  | 0x4000 => if unit < 16 then { s with dev := { s.dev with mapped := mapSet (BitVec.allOnes 32) s.dev.mapped unit (v.extractLsb' 0 32) } } else s
  | 0x5000 => if paMapped s (65536 * unit) then s.setFrame unit ((v &&& ~~~ 0xC000#64) ||| (potOf s (65536 * unit) &&& 0xC000#64)) else s
  | _ => s

/-- A store of the Thimble's firmware in its address map (R434 to R440). -/
def thimbleWrite (s : State) (unit off : Nat) (v : Word) : State :=
  if 0x21000000 ≤ off ∧ off < 0x21000600 then engWrite s (off - 0x21000000) v
  else if off = 0x22000000 then
    (if s.thim.mext.getLsbD 63 then s
     else
       let s := thimSees s s.thim.mextsrc.toNat 48
       { s with thim := { s.thim with mext := BitVec.ofNat 64 (2 ^ 63 + fieldOf v 0 32) } })
  else if off = 0x22000008 then { s with thim := { s.thim with mextsrc := v } }
  else if 0x22001000 ≤ off ∧ off < 0x22001800 then
    let n := (off - 0x22001000) / 64
    if off % 64 = 48 ∧ v.getLsbD 32 then
      { s with thim := { s.thim with ms := mapSet 0 s.thim.ms n (setField (msOf s n) 416 1 1) } } else s
  else if off = 0x23000000 then { s with thim := { s.thim with stage := fieldOf v 0 8, err := fieldOf v 8 8 } }
  else if off = 0x23000008 then (if v.getLsbD 0 then { s with thim := { s.thim with udslock := true } } else s)
  else if 0x28000000 ≤ off ∧ off < 0x30000000 then blockWrite s true unit (off - 0x28000000) v
  else match thimWrite s off 8 v.toNat with
    | .ok s => s
    | .error _ => s

/-- A store in the address map of Timetable core unit mod 2 (R355, R357): its instruction SRAM as the Thimble loads it (log entry
104), its data SRAM, the ring and `JHEAD` for the primary, `JTAIL` for the standby, the block registers of unit / 2 (log entry 9),
device memory. `CHOLD`; `TTROLE` and the pending kicks have rows of their own. -/
def timetableWrite (s : State) (unit off : Nat) (v : Word) : State :=
  let primary := if unit % 2 = 0 then s.sched.tt.role0 else s.sched.tt.role1
  if off < 0x80000 then
    s.onTt fun t => if unit % 2 = 0 then { t with isram0 := mapSet 0 t.isram0 (off / 8) v }
      else { t with isram1 := mapSet 0 t.isram1 (off / 8) v }
  else if 0x01000000 ≤ off ∧ off < 0x01100000 then
    s.onTt fun t => if unit % 2 = 0 then { t with dsram0 := mapSet 0 t.dsram0 ((off - 0x01000000) / 8) v }
      else { t with dsram1 := mapSet 0 t.dsram1 ((off - 0x01000000) / 8) v }
  else if 0x02000000 ≤ off ∧ off < 0x02010000 then
    (if primary then s.onTt fun t => { t with
        ring := mapSet 0 t.ring ((off - 0x02000000) / 16) (setField (ringAt t ((off - 0x02000000) / 16)) (8 * (off % 16)) 64 v.toNat) }
     else s)
  else if off = 0x03000000 then
    (if primary then s.onTt fun t =>
      let t := { t with jhead := v.toNat }
      if t.standby then applyGroups t else t
     else s)
  else if off = 0x03000008 then (if primary then s else s.onTt fun t => { t with jtail := v.toNat })
  else if off = 0x03000040 then s.onTt fun t => { t with chold := v.getLsbD 0 }
  else if 0x08000000 ≤ off ∧ off < 0x10000000 then blockWrite s false (unit / 2) (off - 0x08000000) v
  else if 2 ^ 41 ≤ off then
    match thimWrite s off 8 v.toNat with
    | .ok s => s
    | .error _ => s
  else s

/-- A word of the Thimble's map as its firmware reads it (R434 to R440): what stands in no region reads zero. -/
def thimbleRead (s : State) (off : Nat) : Word :=
  if 0x20000000 ≤ off ∧ off < 0x20001000 then
    (if off < 0x20000030 then s.thim.keyhash.extractLsb' (8 * (off - 0x20000000)) 64
     else if off = 0x20000040 then BitVec.ofNat 64 s.thim.minsvn
     else if off = 0x20000048 then BitVec.ofNat 64 s.thim.bootcnt
     else 0)
  else if 0x21000000 ≤ off ∧ off < 0x21000600 then
    (if (off - 0x21000000) % 0x100 = 0 then 0 else engReg s (off - 0x21000000))
  else if off = 0x22000000 then s.thim.mext
  else if off = 0x22000008 then s.thim.mextsrc
  else if 0x22001000 ≤ off ∧ off < 0x22001800 then
    (msOf s ((off - 0x22001000) / 64)).extractLsb' (8 * (off % 64)) 64
  else if off = 0x23000000 then BitVec.ofNat 64 (s.thim.stage + s.thim.err * 2 ^ 8)
  else if off = 0x23000008 then BitVec.ofNat 64 (flagAt 0 s.thim.udslock)
  else match thimRead s off 8 with
    | .ok v => BitVec.ofNat 64 v
    | .error _ => 0

/-- A word of the map of Timetable core unit mod 2 (R357). -/
def timetableRead (s : State) (unit off : Nat) : Word :=
  let t := s.sched.tt
  let first := decide (unit % 2 = 0)
  if off < 0x80000 then mapGet 0 (if first then t.isram0 else t.isram1) (off / 8)
  else if 0x01000000 ≤ off ∧ off < 0x01100000 then mapGet 0 (if first then t.dsram0 else t.dsram1) ((off - 0x01000000) / 8)
  else if 0x02000000 ≤ off ∧ off < 0x02010000 then (ringAt t ((off - 0x02000000) / 16)).extractLsb' (8 * (off % 16)) 64
  else if off = 0x03000000 then BitVec.ofNat 64 t.jhead
  else if off = 0x03000008 then BitVec.ofNat 64 t.jtail
  else if off = 0x03000040 then BitVec.ofNat 64 (flagAt 0 t.chold)
  else if off = 0x03000048 then BitVec.ofNat 64 (flagAt 0 (if first then t.role0 else t.role1))
  else if 0x03000100 ≤ off ∧ off < 0x03000180 then s.sched.pkb.extractLsb' (8 * (off - 0x03000100)) 64
  else if 2 ^ 41 ≤ off then
    match thimRead s off 8 with
    | .ok v => BitVec.ofNat 64 v
    | .error _ => 0
  else 0

/-- A read of a register (R8), in the spaces of REGISTER_WRITE. -/
def registerRead (s : State) (space unit off : Nat) : Word :=
  match space with
  | 0 => if s.thim.err = 0 then vfRead s unit off else 0
  | 1 => pfRead s unit off
  | 2 => thimbleRead s off
  | 3 => timetableRead s unit off
  | _ => 0

/-- REGISTER_WRITE (R8). After a boot that failed no VF is offered, and PF0 shows what can be read alone (R441). -/
def execRegisterWrite (o : RegEv) (s : State) : Ans :=
  match o.space with
  | 0 => .next (if s.thim.err = 0 then vfWrite s o.unit o.off o.value else s)
  | 1 => .next (if s.thim.err = 0 then pfWrite s o.unit o.off o.value else s)
  | 2 => .next (thimbleWrite s o.unit o.off o.value)
  | 3 => .next (timetableWrite s o.unit o.off o.value)
  | _ => .next s

/-- DDATA_ACCESS (R431): a stopped core's register or scratchpad unit at `DADDR`; otherwise a read answers 0 and a write is
discarded. The answer stands at 4096 plus the tenant. A line whose tag is not the core's tenant is a violation of the core (R225). -/
def execDdataAccess (o : DdataEv) (s : State) : Ans :=
  match selCore s o.tenant with
  | none => .next (if o.write then s else s.answer (4096 + o.tenant) 0 false false)
  | some n =>
    let c := s.core n
    let a := (dbgOf s o.tenant).daddr
    let k := a / 4
    if c.dstop && decide (a % 4 = 2) && decide (8 * k + 8 ≤ spadSize) && !tagOk c (lineOf (8 * k)) then
      .next (violateCore s n 0 (BitVec.ofNat 64 (8 * k)))
    else if !c.dstop then .next (if o.write then s else s.answer (4096 + o.tenant) 0 false false)
    else if o.write then
      match a % 4 with
      | 0 => .next (if k < 64 then s.setCore n (setS c (BitVec.ofNat 6 k) o.value) else s)
      | 1 => .next (s.setCore n (csrSet k o.value c))
      | 2 => .next (if 8 * k + 8 ≤ spadSize then s.setCore n (scWrite (portTouch c 16 (lineOf (8 * k))) s.cyc (8 * k) 8 o.value.toNat) else s)
      | _ => .next s
    else
      let v : Word := match a % 4 with
        | 1 => csrRead { s with cur := n } k
        | _ => ddataRead s n a
      let s := if a % 4 = 2 then s.setCore n (touchRead (portTouch c 16 (lineOf (8 * k))) s.cyc (8 * k) 8) else s
      .next (s.answer (4096 + o.tenant) v.toNat false false)

end Sys2Proof.Machine
end

