-- ==== Sys2Proof/Machine/Requests.lean ====
section
/-! DEFINITION. Untimed requests that wait for the port of a bank (09 R230, R231), and the cycle freed for one that has waited 64
cycles; and the storage errors that the checks of the files and memories find (R134, R226, R253 to R256). -/

namespace Sys2Proof.Machine

/-- The due access of a debugger to the scratchpad of a stopped core (R431): its input, the core, its line, and since when. -/
def ddataDue (s : State) : Option (Instr × Nat × Nat × Nat) :=
  s.inputs.findSome? fun x =>
    match x.2 with
    | .ddataAccess o =>
      if x.1 ≤ s.cyc then
        match selCore s o.tenant with
        | some n =>
          let a := (dbgOf s o.tenant).daddr
          if (s.core n).dstop && decide (a % 4 = 2) && decide (a / 4 < 2 ^ 20) then some (x.2, n, a / 4 / 16, x.1) else none
        | none => none
      else none
    | _ => none

/-- Does an access of a debugger wait for a bank (R230, R431)? -/
def ddataHeld (s : State) (i : Instr) : Bool :=
  match ddataDue s with
  | some (x, n, l, _) => decide (x = i) && !portFree (s.core n) [l]
  | none => false

/-- The requests that have waited in this cycle for the port of a bank (R231), of core `n`: row, bank, since when. -/
def portHeld (s : State) (n : Nat) : List (Nat × Nat × Nat) :=
  let items := s.work.filterMap fun x => match padWaits s x with
    | some (c, row, b) => if c = n then some (row, b, x.1) else none
    | none => none
  let dbg := match ddataDue s with
    | some (_, c, l, t) => if c = n ∧ portBusy (s.core n) (bankOf l) = true then [(14, bankOf l, t)] else []
    | none => []
  items ++ (s.core n).sp.waits ++ dbg

/-- A request of core `n` that has waited 64 cycles and for which no cycle is being freed (R231): row and bank. -/
def forcedDue (s : State) (n : Nat) : Option (Nat × Nat) :=
  ((portHeld s n).find? fun w => decide (w.2.2 + 64 ≤ s.cyc)
    && !(s.core n).stall.any fun x => decide (x.1 = 4) && decide (x.2.2.1 = w.2.1)).map fun w => (w.1, w.2.1)

/-- A request of chart row `row` to bank `b` of core `n` has waited 64 cycles: it is served in the next cycle, in which the counter is
frozen, charged to that row and bank (R231). -/
def forcePort (s : State) (n row b : Nat) : State :=
  s.setCore n { s.core n with stall := (s.core n).stall ++ [(4, row, b, 1)] }

/-- UNTIMED_REQUEST_FORCED (R231) at core `cur`, of row `a` and bank `b`. The machine's own turn does the same operation where
`forcedDue` names a request (log entry 109). -/
def execUntimedRequestForced (o : TwoEv) (s : State) : Ans := .next (forcePort s s.cur o.a o.b)

/-- The first core for which `f` answers. -/
def firstCore {α : Type} (s : State) (f : Nat → Core → Option α) : Option (Nat × α) :=
  s.cores.findSome? fun e => (f e.1 e.2).map fun a => (e.1, a)

/-- A storage error strikes. -/
def strike (s : State) (u : Upset) : State :=
  match u with
  | .vec n r p => s.setCore n (let c := s.core n
    { c with vec := { c.vec with vbad := mapSet 0 c.vec.vbad (r % 1024) (mapGet 0 c.vec.vbad (r % 1024) ||| (1#256 <<< (p % 256))) } })
  | .pred n r j => s.setCore n (let c := s.core n
    { c with vec := { c.vec with pbad := mapSet 0 c.vec.pbad (r % 16) (mapGet 0 c.vec.pbad (r % 16) ||| (1#8 <<< (j % 8))) } })
  | .spad n k two => s.setCore n (let c := s.core n
    if 8 * k + 8 ≤ spadSize then
      (if two then { c with sp := { c.sp with dbe := mapSet false c.sp.dbe k true } }
       else { c with sp := { c.sp with sbe := mapSet false c.sp.sbe k true } })
    else c)
  | .gran g two =>
    if two then { s with dev := { s.dev with dbe := mapSet false s.dev.dbe g true } }
    else { s with dev := { s.dev with sbe := mapSet false s.dev.sbe g true } }
  | .tag b => { s with dev := { s.dev with tagBad := mapSet false s.dev.tagBad b true } }

/-- Take the first storage error that is due off the list. -/
def takeUpset (s : State) : List (Nat × Upset) → Option (Upset × List (Nat × Upset))
  | [] => none
  | x :: t =>
    if x.1 ≤ s.cyc then some (x.2, t)
    else match takeUpset s t with
      | some (u, t') => some (u, x :: t')
      | none => none

end Sys2Proof.Machine
end

