-- ==== Sys2Proof/Machine/ScalarMem.lean ====
section
/-! DEFINITION. Scalar loads and stores (04_scalar_registers R113 to R115). -/

namespace Sys2Proof.Machine

/-- The address of a scalar access: sa + offset, modulo 2^64 (R114). -/
def memAddr (o : MemOp) (s : State) : Word := getS s.me o.sa + sext64 o.off

/-- The size in bytes of a scalar access (R113). -/
def memSize (o : MemOp) : Nat := 2 ^ o.z.toNat

/-- A load (R114): range, then alignment, then the owner tag; the line's code goes to PSUM. -/
def loadWith (ext : Word → Nat → Word) (o : MemOp) (s : State) : Ans :=
  let addr := memAddr o s
  let n := memSize o
  match accessCheck s.me addr 1 n 1 (BitVec.ofNat 64 n) with
  | .trap k i0 i1 => seqTrap s k i0 i1
  | .ok =>
    .next (s.onMe fun c =>
      let c1 := sawUnits (touchRead c s.cyc addr.toNat n) (unitsOf addr.toNat n)
      let x := BitVec.ofNat 64 (scRead c addr.toNat n)
      retire (stepPc (setSLat (psumCode c1 (lineCode c1 (lineOf addr.toNat))) s.cyc o.sd (ext x (8 * n)) 3)) s.cyc 1)

def execLd (o : MemOp) (s : State) : Ans := loadWith sextN o s
def execLdu (o : MemOp) (s : State) : Ans := loadWith zextN o s

/-- ST: the sd field names the register stored; the line's code is unchanged (R113, R114). -/
def execSt (o : MemOp) (s : State) : Ans :=
  let addr := memAddr o s
  let n := memSize o
  match accessCheck s.me addr 1 n 2 (BitVec.ofNat 64 n) with
  | .trap k i0 i1 => seqTrap s k i0 i1
  | .ok => coreNext s fun c => scWrite c s.cyc addr.toNat n (getS c o.sd).toNat

end Sys2Proof.Machine
end

