-- ==== Sys2Proof/Machine/Cycle.lean ====
section
/-! DEFINITION. What happens next (03 R73 to R89, 12 R297 to R303, 04 R106): which event, issue or sequencer word the machine
does now, and the passing of a cycle with the freeze decision of R300 and the counts of R301, R412, R417 and R421. -/

namespace Sys2Proof.Machine

/-- The scalar registers that a sequencer word reads, and under 64 + n the handle registers (R106, R200). -/
def srcRegs (i : Instr) : List Nat :=
  let r (x : BitVec 6) : Nat := x.toNat
  let h (x : BitVec 5) : Nat := 64 + x.toNat
  match i with
  | .add o => [r o.sa, r o.sb]
  | .sub o | .mul o | .mulh o | .mulhu o | .div o | .divu o | .rem o | .remu o | .and o | .or o | .xor o | .andn o
  | .shl o | .shr o | .sar o | .min o | .max o | .minu o | .maxu o | .slt o | .sltu o | .seq o
  | .fadd o | .fsub o | .fmul o | .fmin o | .fmax o | .fdiv o => [r o.sa, r o.sb]
  | .clz o | .ctz o | .popc o | .mov o | .fsqrt o | .fclass o | .jalr o | .waitev o => [r o.sa]
  | .sext o | .zext o => [r o.sa]
  | .bfx o => [r o.sa]
  | .bfi o => [r o.sa, r o.sb]
  | .addSi o | .andSi o | .orSi o | .xorSi o | .minSi o | .maxSi o | .sltSi o | .sltuSi o | .seqSi o => [r o.sa]
  | .shlSi o | .shrSi o | .sarSi o => [r o.sa]
  | .ld o | .ldu o => [r o.sa]
  | .st o => [r o.sa, r o.sd]
  | .lih o => [r o.sd]
  | .ffma o => [r o.sa, r o.sb, r o.sc]
  | .fcmp o => [r o.sa, r o.sb]
  | .fcvt o => [r o.sa]
  | .beq o | .bne o | .blt o | .bge o | .bltu o | .bgeu o => [r o.sa, r o.sb]
  | .jr o => [r o.sa]
  | .loop o => [r o.sa]
  | .csrw o | .csrs o | .csrc o => [r o.sa]
  | .csrr o => if o.sysno.toNat = 6 then [96] else []
  | .live o => [r o.sa]
  | .qsyncUpto o => [r o.sa]
  | .tspawn o | .trem o => [r o.sa]
  | .tjoin o => [r o.sa, r o.sb]
  | .sinit o => [r o.sa, r o.sb]
  | .hld o => [r o.sa]
  | .hst o => [r o.sa, h o.ha]
  | .hnarrow o => [r o.sa, r o.sb, h o.ha]
  | .hnarrowRange o => [r o.sa, r o.sb, h o.ha]
  | .hdrop o => [h o.ha]
  | .hfield o => [h o.ha]
  | .hmov o => [h o.ha]
  | .gcfg o => [r o.sa]
  | .gset o => [r o.sa]
  | .lset o => [r o.sa, r o.sb]
  | .cntr o => [r o.sa]
  | .cntwValue o | .cntwCfg o => [r o.sa]
  | i => (capRegs i).map r ++ (match handleReg i with
    | some n => [h n]
    | none => [])

/-- Have all of these registers their results (R106)? -/
def regsReady (c : Core) (cyc : Nat) (l : List Nat) : Bool := l.all fun n => decide (mapGet 0 c.seq.ready n ≤ cyc)

/-- Does an engine word wait for room in its queue (R29, R83)? -/
def enqWaits (s : State) (c : Core) (i : Instr) (w : IWord) (q : Nat) : Bool :=
  decide (64 ≤ (c.queue q).ents.length) && deltaOk c i w && decide (enqCheck s c i (entryOf c q i w) w = .ok)

/-- The row of a system-register write that has one of its own (R122, R309, R294). -/
def csrRow (i : Instr) (n : Nat) : Instr :=
  if 0x010 ≤ n ∧ n ≤ 0x017 then .loopStackWrite
  else if n = 0x030 ∨ n = 0x031 then .inboxSpoolWrite
  else if n = 0x034 ∨ n = 0x035 ∨ n = 0x037 then .replySpoolWrite
  else i

/-- The row of a decoded word: an engine word is enqueued (R29). -/
def rowOf (i : Instr) (w : IWord) : Instr :=
  match queueOfWord w with
  | some _ => .enqueue
  | none => match i with
    | .csrw o | .csrs o | .csrc o => csrRow i o.sysno.toNat
    | i => i

/-- May the sequencer of a core fetch and decode a word now (R106)? -/
def seqRuns (s : State) (c : Core) : Bool :=
  decide (c.life = .running) && c.trap.isNone && !c.dstop && !c.frozenV && c.seq.wait.isNone && decide (c.seq.nextAt ≤ s.cyc)

/-- What the sequencer of core `n` does now; none while it waits for a result or for queue room. -/
def seqRow (s : State) (n : Nat) : Option Instr :=
  let c := s.core n
  if !seqRuns s c then none
  else if (pcMatch s n).isSome then some .pcMatch
  else if c.sys.codesize ≤ c.seq.pc.toNat then some .illegalWord
  else
    let w := fetchWord s c
    match decode w with
    | .illegal _ => some .illegalWord
    | .ok i =>
      if !regsReady c s.cyc (srcRegs i) then none
      else match queueOfWord w with
        | some q => if enqWaits s { c with seq := { c.seq with wait := none } } i w q then none else some .enqueue
        | none => some (rowOf i w)

/-- First byte of the word at the PC (R74). -/
def wordAddr (c : Core) : Nat := c.sys.codebase + 6 * c.seq.pc.toNat

/-- The lines of the word at the PC, with its first byte and its number of bytes in each. -/
def wordParts (c : Core) : List (Nat × Nat) :=
  let a := wordAddr c
  let n := min 6 (128 - a % 128)
  if n < 6 then [(a, n), (a + n, 6 - n)] else [(a, 6)]

/-- The reads that the fetch of the word makes (R226, R228). -/
def fetchTouch (c : Core) (cyc : Nat) : Core := (wordParts c).foldl (fun c p => touchReadAs 31 c cyc p.1 p.2) c

/-- The line of the scratchpad that a sequencer word accesses, where its checks pass (R114, R176, R201, R202, R315, R317, R323). -/
def dataLines (s : State) (c : Core) (i : Instr) : List Nat :=
  let one (a : Word) (n : Nat) : List Nat := match accessCheck c a n n 0 0 with
    | .ok => [lineOf a.toNat]
    | _ => []
  match i with
  | .ld o | .ldu o | .st o => one (memAddr o s) (memSize o)
  | .hld o | .hst o => one (getS c o.sa + sext64 o.off) 64
  | .gcfg o => one (gcfgAddr o c) 32
  | .live o => one (liveAddr o c) 64
  | .tspawn o => one (getS c o.sa) 64
  | .mrecv o => if mrecvFrees o c && decide (c.sys.inboxProd ≠ c.sys.inboxCons) then [lineOf (inboxHead c)] else []
  | _ => []

/-- A request of the sequencer, in a row of the chart, waits for a bank whose port is taken (R231): it is tried again in the next
cycle. -/
def portWait (c : Core) (cyc row bank : Nat) : Core :=
  { c with
    seq := { c.seq with nextAt := cyc + 1 }
    sp := { c.sp with waits := if c.sp.waits.any fun w => decide (w.1 = row) && decide (w.2.1 = bank) then c.sp.waits
      else c.sp.waits ++ [(row, bank, cyc)] } }

/-- The latest cycle at which a bank of some lines is ACTIVE again (R228). -/
def awakeAt (c : Core) (ls : List Nat) : Nat :=
  ls.foldl (fun t l => match mapGet (BankSt.active 0) c.sp.banks (bankOf l) with
    | .exiting u => max t u
    | _ => t) 0

/-- The banks of a request of the sequencer: it goes on when they are ACTIVE and free, and waits otherwise (R106, R228, R231). -/
def portAsk (c : Core) (cyc row : Nat) (ls : List Nat) : Option Core :=
  if ls.all fun l => bankAwake c (bankOf l) then
    (ls.find? fun l => portBusy c (bankOf l)).map fun l => portWait c cyc row (bankOf l)
  else
    let touched (l : Nat) : Bool := bankAwake c (bankOf l) || c.stall.any fun x => decide (x.2.1 = 31) && decide (x.2.2.1 = bankOf l)
    let c := (ls.filter fun l => !touched l).foldl (fun c l => touchBankAs 31 c cyc l) c
    some { c with seq := { c.seq with nextAt := awakeAt c ls } }

/-- Its banks have served the sequencer's requests for these lines in this cycle (R231). -/
def portTaken (c : Core) (ls : List Nat) : Core :=
  { c with sp := { c.sp with served := c.sp.served ++ ls.map bankOf, waits := c.sp.waits.filter fun w => decide (1 < w.1) } }

/-- Has the word at the PC been fetched already: its own access waits for a bank (R106, R230)? -/
def fetched (c : Core) : Bool := c.sp.waits.any fun w => decide (w.1 = 0)

/-- Do the lines of the word belong to the core's tenant (R225)? -/
def fetchOwned (c : Core) : Bool := (wordParts c).all fun p => tagOk c (lineOf p.1)

/-- What the machine does next: a row of the table in a state, or a state reached without one. -/
inductive Turn where
  | run (s : State) (i : Instr)
  | goes (s : State)
  | stops
  deriving DecidableEq, Repr

/-- The sequencer's turn on core `n` with row `i`: its fetch, and then the line that the word accesses, are untimed requests of rows
FETCH and SEQ (R230), which wait for their banks (R106, R228, R231); a word in another tenant's line is an OWNER violation (R225). -/
def seqTurn (s : State) (n : Nat) (i : Instr) : Turn :=
  let s := { s with cur := n }
  let c := s.me
  let outside := match i with
    | .pcMatch => true
    | _ => decide (c.sys.codesize ≤ c.seq.pc.toNat)
  if outside then .run s i
  else if !fetchOwned c then
    .goes (s.onMe fun c => raise c s.time ⟨causeOwner, false, 0, true, BitVec.ofNat 64 (wordAddr c), 0, c.seq.pc⟩)
  else
    let code := if fetched c then [] else (wordParts c).map fun p => lineOf p.1
    match portAsk c s.cyc 1 code with
    | some c => .goes (s.setCore n c)
    | none =>
      let c := if fetched c then c else fetchTouch (portTaken c code) s.cyc
      let data := dataLines s c i
      match portAsk c s.cyc 0 data with
      | some c => .goes (s.setCore n c)
      | none => .run (s.setCore n (portTaken c data)) i

/-- A new time origin is the fc of the cycle in which the sequencer fetches the first word after the event (R86): that in which the banks of
the word serve it. -/
def originTurn (s : State) (_ : Nat) (c : Core) : Option Core :=
  if c.seq.reorig && seqRuns s c then
    let outside := decide (c.sys.codesize ≤ c.seq.pc.toNat) || !fetchOwned c
    match portAsk c s.cyc 1 (if outside then [] else (wordParts c).map fun p => lineOf p.1) with
    | some c => some c
    | none =>
      let c := newOriginsKeep c
      some { c with seq := { c.seq with reorig := false } }
  else none

/-- Can the waiting word of core `n` go on (R302)? -/
def waitDue (s : State) (n : Nat) (c : Core) : Bool :=
  decide (c.life = .running) && c.trap.isNone && !c.dstop && !c.frozenV && decide (c.seq.nextAt ≤ s.cyc) && waitOver s n

/-- Would another entry of this cycle come after the count of an armed work stop (R433)? The sequencer's word, where one executes in the
cycle, counts first (R425; log entry 130). -/
def stopHolds (s : State) (n : Nat) : Bool :=
  stopArmed s n &&
    decide ((dbgOf s (s.core n).sys.tenant).wscount.toNat ≤ (s.core n).task.w.toNat
      + (if (seqRow s n).isSome || waitDue s n (s.core n) then 1 else 0))

/-- Is it an `SPOST`, which acts after the completion posts of its cycle (R406)? -/
def isSpost (i : Instr) : Bool :=
  match i with
  | .spost _ => true
  | _ => false

/-- The next entry of a core that issues, in the order M, V, C, L (R215, R425); `SPOST` words only with `posts` (R406). -/
def issueDue (s : State) (n : Nat) (posts : Bool) : Option QEntry :=
  if issues (s.core n) && !stopHolds s n then
    (List.range 4).findSome? fun q => if q = 2 ∧ outWaits s n = true then none
      else (issueHead (s.core n) q).filter fun e => posts || !isSpost e.i
  else none

/-- Does a barrier of core `n` end its wait in this fc (R85, R406)? -/
def barrierDue (s : State) (n : Nat) : Bool := (s.core n).entered && issues (s.core n) && (waitEnds s n).isSome

/-- A row of the present core. -/
def rowIf (b : Bool) (i : Instr) : Option Instr := if b then some i else none

/-- Does the array word's landing come before the engine landing that is due (R88, R181)? -/
def visFirst (c : Core) : Bool :=
  match visDue c, landDue c with
  | some j, some l => !(decide (l.q = 0) && (match l.act with
      | .tbiasRead .. => false
      | _ => seqEarlier l.seq j.e.seq))
  | some _, none => true
  | none, _ => false

/-- Events of one core before its words issue: the watchdog, work stops, bank states, the timer, counters, landings and repetitions. -/
def coreEvent (s : State) (n : Nat) (c : Core) : Option Instr :=
  rowIf (watchdogDue s n) .watchdog
    <|> rowIf (workReached s n) .workStop
    <|> rowIf (enteredBank s c).isSome .retentionEntered
    <|> rowIf (exitedBank s c).isSome .retentionExitDone
    <|> rowIf (entryBank s c).isSome .retentionEntry
    <|> rowIf (timerDue s n) .timerEvent
    <|> rowIf (decide (c.cn.wraps ≠ 0)) .counterWrap
    <|> rowIf (needsScrub s n) .scrub
    <|> rowIf (reserveDue s n).isSome .messageReserve
    <|> rowIf (timedMsg c).isSome .timedMessageLanding
    <|> rowIf (timedDue s n).isSome .timedLanding
    <|> rowIf (visFirst c) .arrayVis
    <|> rowIf (landDue c).isSome .engineLanding
    <|> rowIf (repDue c).isSome .arrayStart

/-- The rows of work between the blocks that can be done now. -/
def workRow (s : State) : Option Instr :=
  let is (p : Item → Bool) : Bool := (workDue s p).isSome
  if s.work.isEmpty then none
  else
    (match hubDue s with
    | some (_, it) => if needsWalk s it then some .translationWalk else match it with
      | .read .. => some .hubRead
      | .write .. => some .hubWrite
      | _ => some .hubAtomic
    | none => none)
    <|> rowIf (is fun it => match it with
      | .copyFault .. => true
      | _ => false) .copyTranslationFault
    <|> rowIf (is isPost) .completionPost
    <|> rowIf (is fun it => match it with
      | .contrib _ => true
      | _ => false) .contributionWrite
    <|> rowIf (is fun it => match it with
      | .start _ => true
      | _ => false) .taskStart
    <|> rowIf (is fun it => match it with
      | .save _ => true
      | _ => false) .contextSave
    <|> rowIf (is fun it => match it with
      | .resume _ => true
      | _ => false) .contextResume
    <|> rowIf (!s.sched.tt.chold && is fun it => match it with
      | .rereadPacket _ => true
      | _ => false) .packetReread

/-- The rows of work that asks for the banks of a scratchpad as `LIN` and `LOUT` (R230). -/
def padRow (s : State) : Option Instr :=
  let is (p : Item → Bool) : Bool := (workDue s p).isSome
  if s.work.isEmpty then none
  else
    rowIf (is fun it => match it with
      | .ared .. => true
      | _ => false) .aredSourceRead
    <|> rowIf (is isRelItem) .releaseSetPerformed
    <|> rowIf (is fun it => match it with
      | .arrive .. => true
      | _ => false) .messageArrival
    <|> rowIf (is isReply) .replyWrite
    <|> rowIf (is fun it => match it with
      | .deliver .. => true
      | _ => false) .messageLanding

/-- The row of an untimed copy landing, `CIN`, which comes after `LIN` and `LOUT` (R230). -/
def cinRow (s : State) : Option Instr :=
  rowIf (!s.work.isEmpty && (workDue s fun it => match it with
    | .landing .. => true
    | _ => false).isSome) .untimedLanding

/-- The row of the engine of the Thimble that has been started (R435). -/
def engineRow (s : State) : Option Instr :=
  rowIf (decide (engCode s 0x000 = 1)) .sha384 <|> rowIf (decide (engCode s 0x000 = 2)) .sha256
    <|> rowIf (decide (engCode s 0x100 = 1)) .ecdsaVerify <|> rowIf (decide (engCode s 0x100 = 2)) .ecdsaSign
    <|> rowIf (decide (engCode s 0x200 = 1)) .lmsVerify <|> rowIf (decide (engCode s 0x200 = 2)) .hssSign
    <|> rowIf (decide (engCode s 0x200 = 3)) .bootinc
    <|> rowIf (decide (engCode s 0x300 = 1)) .aesCmac <|> rowIf (decide (engCode s 0x300 = 2)) .gcmSeal
    <|> rowIf (decide (engCode s 0x300 = 3)) .gcmOpen <|> rowIf (decide (engCode s 0x300 = 4)) .keyCopy
    <|> rowIf (decide (engCode s 0x400 = 1)) .hmac <|> rowIf (decide (engCode s 0x400 = 2)) .udsDerive
    <|> rowIf (decide (engCode s 0x400 = 3)) .hkdfExpand <|> rowIf (decide (engCode s 0x500 = 1)) .drbg
    <|> rowIf (reseedDue s) .drbgReseed
    <|> rowIf (s.thim.mext.getLsbD 63) .mext

/-- The row of the packet at the head of the spool in service, or the rotation to the next one (R328). -/
def packetRow (s : State) : Option Instr :=
  if s.sched.burst = 0 then rowIf (nextSpool s).isSome .spoolService
  else if (takePacket s 0).isSome then some .launchPacket
  else if (takePacket s 1).isSome then some .releasePacket
  else if (takePacket s 2).isSome then some .cancelPacket
  else if (takePacket s 3).isSome then some .nopPacket
  else some .spoolService

/-- Events that concern no one core. -/
def sharedEvent (s : State) : Option Instr :=
  engineRow s
    <|> rowIf (rollDue s) .rollCallLatch
    <|> rowIf (sampleDue s) .counterSample
    <|> rowIf (sweepDue s).isSome .revocationSweep
    <|> rowIf (ackDue s).isSome .sweepAck
    <|> rowIf (!s.dev.rots.isEmpty) .rotationFrame
    <|> rowIf (hostLate s).isSome .hostCompletionTimeout
    <|> rowIf (deadlineDue s).isSome .cbarDeadline
    <|> rowIf (verdictDue s).isSome .cbarVerdict
    <|> workRow s

/-- Events of the scheduler and of recovery. -/
def schedEvent (s : State) : Option Instr :=
  rowIf (sealDue s).isSome .intervalSeal
    <|> rowIf (tornReady s).isSome .rollback
    <|> packetRow s
    <|> rowIf (patienceOver s).isSome .placementPatienceExpiry
    <|> rowIf (nextDispatch s).isSome .dispatch
    <|> rowIf (nextDone s).isSome .completionRecordWrite
    <|> rowIf (stopReady s).isSome .migrationStopped

/-- Is a slice over whose core has run at least one cycle of it? -/
def sliceDue (s : State) (n : Nat) : Bool := sliceOver s n && decide (mapGet 0 s.sched.dispatchAt n < s.cyc)

/-- Events that end a core's cycle: the end of a wait, traps, completion, pre-emption. -/
def lateEvent (s : State) (n : Nat) (c : Core) : Option Instr :=
  rowIf (match c.trap with
      | some t => isViolation t.cause && !c.trapNow
      | none => false) .violation
    <|> rowIf (releaseReady c) .violationRelease
    <|> rowIf (trapReady c) .trapEntry
    <|> rowIf (decide (c.life = .draining) && !c.frozenV && drained c && c.trap.isNone && !c.dstop) .taskCompletion
    <|> rowIf (sliceDue s n) .sliceEnd
    <|> rowIf (recallDue s (n / 8) || recallEnds s (n / 8) || (recallNext s (n / 8)).isSome) .recallForm

/-- Does the sequencer of the core come before its queues in this cycle: a `SINIT` (R406)? -/
def seqEarly (s : State) (n : Nat) (i : Instr) : Bool :=
  !(s.core n).seq.reorig && (match i with
    | .sinit _ => true
    | _ => false)

/-- Make core `n` the present one, with its entry `e` latched for issue. -/
def latched (s : State) (n : Nat) (e : QEntry) : State :=
  let s := { s with cur := n }
  s.setCore n { s.core n with latch := e }

/-- The banks that a request other than the sequencer's has still to wake (R228): the core with its exits begun; and a collective
result whose wait begins. -/
def wakeTurn (s : State) : Option State :=
  (match padAsleep s with
  | some (n, ls) => some (s.setCore n (ls.foldl (fun c l => touchBank c s.cyc l) (s.core n)))
  | none => none)
  <|> ((firstCore s fun n c => (collHeld s n).bind fun ls =>
    match asleep c ls, ls.find? fun l => portBusy c (bankOf l) with
    | [], some l => if c.sp.waits.any fun w => decide (w.1 = 11) then none
        else some { c with sp := { c.sp with waits := c.sp.waits ++ [(11, bankOf l, s.cyc)] } }
    | [], none => none
    | l, _ => some (l.foldl (fun c l => touchBank c s.cyc l) c)).map fun x => s.setCore x.1 x.2)
  <|> (match ddataDue s with
    | some (_, n, l, _) => if asleep (s.core n) [l] = [] then none else some (s.setCore n (touchBank (s.core n) s.cyc l))
    | none => none)

/-- What happens now, in the order of a cycle: events and landings, issues, untimed requests, the posts and waits of the queues (R406), the
sequencers, then traps and the scheduler; none when the cycle is over. -/
def nextEvent (s : State) : Option Turn :=
  let at_ (x : Nat × Instr) : Turn := .run { s with cur := x.1 } x.2
  ((firstCore s fun _ c => if earlyLost c then some (undoEarly c) else none).map fun x => .goes (s.setCore x.1 x.2))
    <|> ((firstCore s (coreEvent s)).map at_)
    <|> ((sharedEvent s).map fun i => .run s i)
    <|> ((firstCore s fun n _ => match seqRow s n with
      | some i => if seqEarly s n i then some i else none
      | none => none).map fun x => seqTurn s x.1 x.2)
    <|> ((firstCore s fun n _ => issueDue s n false).map fun x => .run (latched s x.1 x.2) x.2.i)
    <|> ((linTurn s).map .goes)
    <|> ((padRow s).map fun i => .run s i)
    <|> ((firstCore s fun n _ => rowIf (collDue s n).isSome .collectiveCompletion).map at_)
    <|> ((cinRow s).map fun i => .run s i)
    <|> ((wakeTurn s).map .goes)
    <|> ((portTurn s).map .goes)
    <|> ((firstCore s fun n _ => issueDue s n true).map fun x => .run (latched s x.1 x.2) x.2.i)
    <|> ((firstCore s fun n _ => rowIf (barrierDue s n) .barrierCompletion).map at_)
    <|> ((firstCore s fun n c => rowIf (waitDue s n c) .sequencerWaitEnd).map at_)
    <|> ((firstCore s (originTurn s)).map fun x => .goes (s.setCore x.1 x.2))
    <|> ((firstCore s fun n _ => seqRow s n).map fun x => seqTurn s x.1 x.2)
    <|> ((firstCore s (lateEvent s)).map at_)
    <|> ((schedEvent s).map fun i => .run s i)
    <|> ((firstCore s fun n _ => forcedDue s n).map fun x => .goes (forcePort s x.1 x.2.1 x.2.2))

/-- One more in a cell of the seating chart, which holds at its maximum (R417). -/
def chartUp (c : Core) (row bank : Nat) : Core :=
  let i := 64 * row + bank
  let v := mapGet 0 c.cn.chart i
  if v = BitVec.allOnes 32 then c else { c with cn := { c.cn with chart := mapSet 0 c.cn.chart i (v + 1) } }

/-- The banks of which the timed accesses of one fc need more than one line (R150, R230): the row of the second, the bank, and the
further cycles that it takes; the bank that needs most decides the freeze. -/
def bankNeed (l : List (Nat × Nat)) : List (Nat × Nat × Nat) :=
  let ls := l.foldl (fun (m : List (Nat × Nat)) x => if m.any (fun y => decide (y.2 = x.2)) then m else m ++ [x]) []
  ((ls.map fun x => bankOf x.2).eraseDups).filterMap fun b =>
    match ls.filter fun y => decide (bankOf y.2 = b) with
    | _ :: y :: t => some (y.1, b, t.length + 1)
    | _ => none

/-- The first element of a repetition that has not arrived gives the bank of its line (R301). -/
def lateBank (e : QEntry) (r : RepState) : Nat :=
  match (copyElems e.h.bits e r.j).find? fun y =>
      (granulesOf y.va y.n).any fun g => !(r.got.any fun w => decide (w.line = g / 128)) with
  | some y => bankOf (lineOf y.place.at_)
  | none => bankOf (lineOf (gBase e.ga))

/-- Must the counter wait for a timed landing of its next fc (R237, R300, R312)? Chart row and bank. -/
def lateAt (s : State) (n : Nat) : Option (Nat × Nat) :=
  let c := s.core n
  let reps := c.cmds.flatMap fun m => if isTimed m.e.i then
      (m.reps.filter fun r => !r.done && decide (r.p ≤ c.fc + 1) && repHolds s n m.e r).map fun r => (8, lateBank m.e r)
    else []
  match reps with
  | x :: _ => some x
  | [] =>
    match c.msgs.find? fun m => !m.reserved && msgOpen c m.tenant && (match m.due with
        | some d => decide (d ≤ c.fc + 1)
        | none => false) with
    | some _ => some (11, bankOf (c.sys.inboxBase / 128 + c.sys.inboxRes % max 1 c.sys.inboxSize))
    | none => none

/-- Does a core hold a task (R302)? -/
def holdsTask (c : Core) : Bool := decide (c.life = .running ∨ c.life = .draining ∨ c.life = .saving)

/-- Has a running queue of the core run dry (R300, R302)? -/
def underrun (c : Core) : Bool :=
  decide (c.life = .running) && c.trap.isNone && !c.dstop && !c.sys.inh && !c.frozenV && c.seq.wait.isNone
    && (List.range 4).any fun q => (c.queue q).running && (c.queue q).ents.isEmpty

/-- The freeze cause of a core of its own, the first that applies (R300, R301): event code (3 alone for VIOLATION), chart row,
bank. -/
def freezeOwn (s : State) (n : Nat) : Option (Nat × Nat × Nat) :=
  let c := s.core n
  if !holdsTask c then none
  else if c.frozenV && c.trap.isSome then some (3, 16, 0)
  else match c.stall.find? fun x => decide (x.1 = 0) with
    | some x => some (7, 15, x.2.2.1)
    | none => match lateAt s n with
      | some x => some (5, x.1, x.2)
      | none => match (c.stall.find? fun x => decide (x.1 = 4)) <|> c.stall.find? fun x => decide (x.1 = 2) with
        | some x => some (6, x.2.1, x.2.2.1)
        | none =>
          if outWaits s n then some (6, 9, match (issueHead c 2).map outLines with
            | some (l :: _) => bankOf l
            | _ => 0)
          else if underrun c then some (4, 16, 0) else none

/-- The freeze of core `n`: its own cause, or PROPAGATED from another member of its locked form (R300). -/
def freezeOf (s : State) (n : Nat) : Option (Nat × Nat × Nat) :=
  match freezeOwn s n with
  | some x => some x
  | none =>
    if s.isSplit n then none
    else if (List.range 8).any fun i => (freezeOwn s (n / 8 * 8 + i)).isSome then some (8, 16, 0) else none

/-- The issue counter of a core: one for a locked form (R30). -/
def formFc (s : State) (n : Nat) : Nat :=
  if s.isSplit n then (s.core n).fc
  else (List.range 8).foldl (fun m i => max m (s.core (n / 8 * 8 + i)).fc) 0

/-- Retention exits pass in wall cycles; a bank conflict, and the room for untimed requests before it, pass in the cycles charged to
them. -/
def stallDown (l : List (Nat × Nat × Nat × Nat)) (bank : Bool) : List (Nat × Nat × Nat × Nat) :=
  let k := if l.any fun x => decide (x.1 = 4) then 4 else 2
  l.filterMap fun x =>
    if x.1 = 0 ∨ (bank ∧ x.1 = k) then (if x.2.2.2 ≤ 1 then none else some (x.1, x.2.1, x.2.2.1, x.2.2.2 - 1)) else some x

/-- The banks that serve the rest of a conflict's lines in a frozen cycle; none in one that makes room for an untimed request (R150,
R231). -/
def conflictBanks (l : List (Nat × Nat × Nat × Nat)) : List Nat :=
  if l.any fun x => decide (x.1 = 4) then [] else (l.filter fun x => decide (x.1 = 2) && decide (4 ≤ x.2.1)).map (·.2.2.1)

/-- The ports that go on serving untimed lines in the next cycle: a bank serves one line in a cycle, and none of these in a cycle with a timed
access of its own (R230, R231). -/
def restServed (c : Core) : List Nat :=
  c.sp.served.eraseDups.flatMap fun b =>
    let k := c.sp.served.count b
    List.replicate (if c.sp.lines.any fun x => decide (bankOf x.2 = b) then k else k - 1) b

/-- The end of a cycle for a core: the counts of what waited in it (R106, R412, R417), the counters (R411), and the values of
its cycle are forgotten. -/
def closeCycle (cyc : Nat) (c : Core) : Core :=
  let waited := c.entered && (List.range 4).any fun q => (c.queue q).bwait && (match (c.queue q).ents with
    | e :: _ => (match e.i with
      | .swait _ => true
      | _ => false)
    | [] => false)
  let c := if waited then countEv c 0x13 1 else c
  let bank := match c.stall.find? fun x => decide (x.2.1 = 31) with
    | some x => x.2.2.1
    | none => bankOf (lineOf (wordAddr c))
  let idle := decide (c.life = .running) && c.trap.isNone && !c.dstop && !c.frozenV
    && (decide (c.seq.nextAt ≤ cyc) || decide (bankWait c ≠ 0))
  let c := if idle then chartUp c 0 bank else c
  let c := countAll c
  let need := (bankNeed c.sp.lines).map fun x => (2, x.1, x.2.1, x.2.2)
  { c with
    seq := { c.seq with psumNew := 0 }
    mx := { c.mx with mxNew := 0 }
    sys := { c.sys with sempostNew := false }
    cn := { c.cn with kposts := [], kprev := c.cn.k }
    sp := { c.sp with lines := [], served := restServed c }
    stall := c.stall ++ need
    errs := [], trapNow := false, heldq := 0, early := none }

/-- The start of a cycle for a core: the counter enters the next fc or is frozen (R300, R301), and the task's counts go on
(R221, R324). -/
def openCycle (fc : Nat) (fr : Option (Nat × Nat × Nat)) (c : Core) : Core :=
  let c := countEv (if c.seq.wait.isSome then slackDry c else c) 0x01 1
  let c := match fr with
    | none => countEv { c with fc := fc + 1, entered := true, sp := { c.sp with acc := [] } } 0x02 1
    | some (ev, row, bank) =>
      let room (b : Nat) : Bool := decide (ev = 6) && c.stall.any fun x => decide (x.1 = 4) && decide (x.2.2.1 = b)
      let busy := (if ev = 6 then conflictBanks c.stall else []) ++ c.sp.served.filter fun b => !room b
      let c := countEv { c with
        fc := fc, entered := false, stall := stallDown c.stall (decide (ev = 6)), sp := { c.sp with served := busy } } 0x03 1
      let c := if ev = 3 then c else countEv c ev 1
      if row < 16 then chartUp c row bank else c
  let c := if fr.isNone then { c with stall := stallDown c.stall (!holdsTask c) } else c
  if !holdsTask c then c
  else
    let n := if fr.isNone then 1 else 0
    { c with
      task := { c.task with wall := c.task.wall + 1, fcs := c.task.fcs + n, frozen := c.task.frozen + (1 - n) }
      sys := { c.sys with wdcount := if c.dstop then c.sys.wdcount else c.sys.wdcount + BitVec.ofNat 64 n } }

/-- The errors of a core's cycle go to the error banks of its site (R401). -/
def flushErrs (s : State) (n : Nat) (c : Core) : State :=
  c.errs.foldl (fun s x => placeError s (4 * (9 * (n / 8) + siteOf s n) + x.1) x.2.1 x.2.2.1 (siteOf s n) x.2.2.2) s

/-- The owner that a core's cycle is charged to: its own task's, or that of the group that holds its form (R23, R421). -/
def cycleOwner (s : State) (n : Nat) : Option Nat :=
  let c := s.core n
  if c.life ≠ .idle then some c.sys.owner
  else if s.isSplit n then none
  else (List.range 8).findSome? fun i =>
    let m := s.core (n / 8 * 8 + i)
    if m.life = .idle then none
    else if m.task.grp then some m.sys.owner else none

/-- The cores of the forms that hold one in use. -/
def formCores (s : State) : List Nat :=
  ((s.cores.map fun e => e.1 / 8).eraseDups).flatMap fun f => (List.range 8).map (8 * f + ·)

/-- UFORM (R421). -/
def chargeCycle (s : State) : State :=
  (formCores s).foldl (fun s n => match cycleOwner s n with
    | some o => addUsage s (5 * o) 1
    | none => s) s

/-- Work that does not ask for its banks yet, because of its order or because they are not ACTIVE, asks anew in the next cycle: only its waits
for a port count (R231). -/
def askAgain (s : State) : List (Nat × Item) :=
  s.work.map fun x =>
    if decide (x.1 ≤ s.cyc) && (match padLines s x.2 with
        | some (c, _, ls) => !itemOk s x.2 || ls.any fun l => !bankAwake (s.core c) (bankOf l)
        | none => false) then (s.cyc + 1, x.2) else x

/-- The untimed requests that have waited in a cycle count in their rows of the chart (R231, R417); what waits no more is forgotten. -/
def chartWaits (s : State) (n : Nat) (c : Core) : Core :=
  let c := (portHeld s n).foldl (fun c w => chartUp c w.1 w.2.1) c
  let keep (w : Nat × Nat × Nat) : Bool :=
    if w.1 = 11 then (collHeld s n).isSome else decide (c.seq.nextAt = s.cyc + 1) && c.trap.isNone
  { c with sp := { c.sp with waits := c.sp.waits.filter keep } }

/-- A cycle ends and the next begins, on every core. The timestamp advances by a free number of ns (R4, R419). -/
def tick (s : State) : State :=
  let s := { s with cores := s.cores.map fun (e : Nat × Core) => (e.1, chartWaits s e.1 e.2), work := askAgain s }
  let s := s.cores.foldl (fun s e => flushErrs s e.1 e.2) s
  let s := chargeCycle s
  let s := { s with cores := s.cores.map fun (e : Nat × Core) => (e.1, closeCycle s.cyc e.2) }
  let s := { s with cores := s.cores.map fun (e : Nat × Core) => (e.1, openCycle (formFc s e.1) (freezeOf s e.1) e.2) }
  let (n, s) := s.draw 7 3
  settleThimble { s with cyc := s.cyc + 1, time := s.time + 1 + n }

/-- Does the world outside make this happen? -/
def isOutside (i : Instr) : Bool :=
  match i with
  | .packagePowerOn | .packagePowerLoss | .hostPortReset | .standbyTimetableFailure | .timetableTakeover | .choldRelease
  | .coreFailure _ | .spkick _ | .spoolRegWrite _ | .spstopClear _ | .spallocWrite _ | .csconsWrite _
  | .completionSpoolRegWrite _ | .migctlStart _ | .migctlReport _ | .migctlStop _ | .migctlAbort _ | .migctlResume _
  | .ttroleWrite _ | .pkbset _ | .pkbclr _ | .patrolScrub _ | .channelFailure _ | .xlinvWrite _ | .errorSlotClear _
  | .flitReceive _ | .portDetect _ | .laneTraining _ | .laneFailure _ | .portAuthentication _ | .keyUpdate _
  | .portReset _ | .spdmRequest _ | .hostBar2Read _ | .hostBar2Write _ | .lockInterfaceRequest _
  | .startInterfaceRequest _ | .stopInterfaceRequest _ | .tdiError _ | .ideKeyRefresh _ | .hostCompletion _ | .assign _
  | .share _ | .hostwin _ | .releaseService _ | .durable _ | .context _ | .revoke _ | .mint _ | .rotate _
  | .reportService _ | .extend _ | .loan _ | .link _ | .clear _ | .spretreqWrite _ | .cntclaimWrite _
  | .guestCounterReadLo _ | .dcmdResume _ | .dcmdKill _ | .dcmdRollcall _ | .ddataAccess _ | .wsarmWrite _
  | .panelReset _ | .fatalError _ | .thermalSample _ | .powerLimitCheck _ | .droop _ | .registerWrite _ => true
  | _ => false

/-- Is it PACKAGE_POWER_ON? -/
def isPowerOn (i : Instr) : Bool :=
  match i with
  | .packagePowerOn => true
  | _ => false

/-- Is it an access of a debugger, whose row is the last of R230? -/
def isDdata (i : Instr) : Bool :=
  match i with
  | .ddataAccess _ => true
  | _ => false

/-- Does it clear what another input of the same cycle may set, which then wins (R357, R402)? -/
def isClear (i : Instr) : Bool :=
  match i with
  | .pkbclr _ | .errorSlotClear _ => true
  | _ => false

/-- Take the first input that is due and satisfies `p` off the list. -/
def takeInput (s : State) (p : Instr → Bool) : List (Nat × Instr) → Option (Instr × List (Nat × Instr))
  | [] => none
  | x :: t =>
    if decide (x.1 ≤ s.cyc) && p x.2 then some (x.2, t)
    else match takeInput s p t with
      | some (i, t') => some (i, x :: t')
      | none => none

/-- The machine's next turn: what strikes it and what the outside world does first, then the events of the cycle, then the next
cycle. Without power only PACKAGE_POWER_ON does anything (R451). -/
def turn (s : State) : Turn :=
  if s.down then
    match s.inputs.dropWhile fun x => !isPowerOn x.2 with
    | x :: t => .run { s with inputs := t } x.2
    | [] => .stops
  else match takeUpset s s.upsets with
  | some (u, t) => .goes (strike { s with upsets := t } u)
  | none => match takeInput s isClear s.inputs <|> takeInput s (fun i => isOutside i && !svcWaits s i && !isDdata i) s.inputs with
    | some (i, t) => .run { s with inputs := t } i
    | none => match nextEvent s with
      | some t => t
      | none => match takeInput s (fun i => isDdata i && !ddataHeld s i) s.inputs with
        | some (i, t) => .run { s with inputs := t } i
        | none => .goes (tick s)

end Sys2Proof.Machine
end

