-- ==== Sys2Proof/Machine/Branch.lean ====
section
/-! DEFINITION. Branches, jumps and calls (04_scalar_registers R120, R121). -/

namespace Sys2Proof.Machine

/-- A conditional branch (R120): taken costs 2 cycles to the target (R106). -/
def branchIf (t : Word → Word → Bool) (o : BranchOp) (s : State) : Ans :=
  if t (getS s.me o.sa) (getS s.me o.sb) then
    jumpNext s (s.me.seq.pc + o.off.signExtend 32) 2 (fun c => c)
  else coreNext s (fun c => c)

def execBeq (o : BranchOp) (s : State) : Ans := branchIf (fun a b => decide (a = b)) o s
def execBne (o : BranchOp) (s : State) : Ans := branchIf (fun a b => decide (a ≠ b)) o s
def execBlt (o : BranchOp) (s : State) : Ans := branchIf (fun a b => a.slt b) o s
def execBge (o : BranchOp) (s : State) : Ans := branchIf (fun a b => !a.slt b) o s
def execBltu (o : BranchOp) (s : State) : Ans := branchIf (fun a b => a.ult b) o s
def execBgeu (o : BranchOp) (s : State) : Ans := branchIf (fun a b => !a.ult b) o s

def execJmp (o : JmpOp) (s : State) : Ans := jumpNext s (s.me.seq.pc + o.off) 2 (fun c => c)

/-- JAL: the link is the next word's index (R121). -/
def execJal (o : JalOp) (s : State) : Ans :=
  jumpNext s (s.me.seq.pc + o.off) 2 fun c => setSLat c s.cyc o.sd ((c.seq.pc + 1).setWidth 64) 1

def execJr (o : JrOp) (s : State) : Ans := jumpNext s ((getS s.me o.sa).setWidth 32) 2 (fun c => c)

/-- JALR: the target is read before the link is written (R121). -/
def execJalr (o : RR) (s : State) : Ans :=
  jumpNext s ((getS s.me o.sa).setWidth 32) 2 fun c => setSLat c s.cyc o.sd ((c.seq.pc + 1).setWidth 64) 1

end Sys2Proof.Machine
end

