-- ==== Sys2Proof/Machine/Dispatch.lean ====
section
/-! DEFINITION. The dispatch: one arm for each constructor of `Instr`, each one direct call of its meaning. -/

namespace Sys2Proof.Machine

def exec (i : Instr) (s : State) : Host.Outcome State Fault Refusal :=
  match i with
  | .add o => Sys2Proof.Machine.execAdd o s
  | .sub o => Sys2Proof.Machine.execSub o s
  | .mul o => Sys2Proof.Machine.execMul o s
  | .mulh o => Sys2Proof.Machine.execMulh o s
  | .mulhu o => Sys2Proof.Machine.execMulhu o s
  | .div o => Sys2Proof.Machine.execDiv o s
  | .divu o => Sys2Proof.Machine.execDivu o s
  | .rem o => Sys2Proof.Machine.execRem o s
  | .remu o => Sys2Proof.Machine.execRemu o s
  | .and o => Sys2Proof.Machine.execAnd o s
  | .or o => Sys2Proof.Machine.execOr o s
  | .xor o => Sys2Proof.Machine.execXor o s
  | .andn o => Sys2Proof.Machine.execAndn o s
  | .shl o => Sys2Proof.Machine.execShl o s
  | .shr o => Sys2Proof.Machine.execShr o s
  | .sar o => Sys2Proof.Machine.execSar o s
  | .min o => Sys2Proof.Machine.execMin o s
  | .max o => Sys2Proof.Machine.execMax o s
  | .minu o => Sys2Proof.Machine.execMinu o s
  | .maxu o => Sys2Proof.Machine.execMaxu o s
  | .slt o => Sys2Proof.Machine.execSlt o s
  | .sltu o => Sys2Proof.Machine.execSltu o s
  | .seq o => Sys2Proof.Machine.execSeq o s
  | .clz o => Sys2Proof.Machine.execClz o s
  | .ctz o => Sys2Proof.Machine.execCtz o s
  | .popc o => Sys2Proof.Machine.execPopc o s
  | .sext o => Sys2Proof.Machine.execSext o s
  | .zext o => Sys2Proof.Machine.execZext o s
  | .bfx o => Sys2Proof.Machine.execBfx o s
  | .bfi o => Sys2Proof.Machine.execBfi o s
  | .mov o => Sys2Proof.Machine.execMov o s
  | .addSi o => Sys2Proof.Machine.execAddSi o s
  | .andSi o => Sys2Proof.Machine.execAndSi o s
  | .orSi o => Sys2Proof.Machine.execOrSi o s
  | .xorSi o => Sys2Proof.Machine.execXorSi o s
  | .shlSi o => Sys2Proof.Machine.execShlSi o s
  | .shrSi o => Sys2Proof.Machine.execShrSi o s
  | .sarSi o => Sys2Proof.Machine.execSarSi o s
  | .minSi o => Sys2Proof.Machine.execMinSi o s
  | .maxSi o => Sys2Proof.Machine.execMaxSi o s
  | .sltSi o => Sys2Proof.Machine.execSltSi o s
  | .sltuSi o => Sys2Proof.Machine.execSltuSi o s
  | .seqSi o => Sys2Proof.Machine.execSeqSi o s
  | .ld o => Sys2Proof.Machine.execLd o s
  | .ldu o => Sys2Proof.Machine.execLdu o s
  | .st o => Sys2Proof.Machine.execSt o s
  | .li o => Sys2Proof.Machine.execLi o s
  | .lih o => Sys2Proof.Machine.execLih o s
  | .fadd o => Sys2Proof.Machine.execFadd o s
  | .fsub o => Sys2Proof.Machine.execFsub o s
  | .fmul o => Sys2Proof.Machine.execFmul o s
  | .ffma o => Sys2Proof.Machine.execFfma o s
  | .fdiv o => Sys2Proof.Machine.execFdiv o s
  | .fsqrt o => Sys2Proof.Machine.execFsqrt o s
  | .fmin o => Sys2Proof.Machine.execFmin o s
  | .fmax o => Sys2Proof.Machine.execFmax o s
  | .fcmp o => Sys2Proof.Machine.execFcmp o s
  | .fcvt o => Sys2Proof.Machine.execFcvt o s
  | .fclass o => Sys2Proof.Machine.execFclass o s
  | .beq o => Sys2Proof.Machine.execBeq o s
  | .bne o => Sys2Proof.Machine.execBne o s
  | .blt o => Sys2Proof.Machine.execBlt o s
  | .bge o => Sys2Proof.Machine.execBge o s
  | .bltu o => Sys2Proof.Machine.execBltu o s
  | .bgeu o => Sys2Proof.Machine.execBgeu o s
  | .jmp o => Sys2Proof.Machine.execJmp o s
  | .jal o => Sys2Proof.Machine.execJal o s
  | .jr o => Sys2Proof.Machine.execJr o s
  | .jalr o => Sys2Proof.Machine.execJalr o s
  | .loop o => Sys2Proof.Machine.execLoop o s
  | .loopb o => Sys2Proof.Machine.execLoopb o s
  | .pchk o => Sys2Proof.Machine.execPchk o s
  | .csrr o => Sys2Proof.Machine.execCsrr o s
  | .csrw o => Sys2Proof.Machine.execCsrw o s
  | .csrs o => Sys2Proof.Machine.execCsrs o s
  | .csrc o => Sys2Proof.Machine.execCsrc o s
  | .trap o => Sys2Proof.Machine.execTrap o s
  | .live o => Sys2Proof.Machine.execLive o s
  | .fence o => Sys2Proof.Machine.execFence o s
  | .qsync o => Sys2Proof.Machine.execQsync o s
  | .qsyncUpto o => Sys2Proof.Machine.execQsyncUpto o s
  | .qsyncRead o => Sys2Proof.Machine.execQsyncRead o s
  | .qflush o => Sys2Proof.Machine.execQflush o s
  | .waitev o => Sys2Proof.Machine.execWaitev o s
  | .rdtime o => Sys2Proof.Machine.execRdtime o s
  | .rdcyc o => Sys2Proof.Machine.execRdcyc o s
  | .mrecv o => Sys2Proof.Machine.execMrecv o s
  | .mpeek o => Sys2Proof.Machine.execMpeek o s
  | .tspawn o => Sys2Proof.Machine.execTspawn o s
  | .tjoin o => Sys2Proof.Machine.execTjoin o s
  | .trem o => Sys2Proof.Machine.execTrem o s
  | .sinit o => Sys2Proof.Machine.execSinit o s
  | .sget o => Sys2Proof.Machine.execSget o s
  | .hld o => Sys2Proof.Machine.execHld o s
  | .hst o => Sys2Proof.Machine.execHst o s
  | .hnarrow o => Sys2Proof.Machine.execHnarrow o s
  | .hnarrowRange o => Sys2Proof.Machine.execHnarrowRange o s
  | .hdrop o => Sys2Proof.Machine.execHdrop o s
  | .hfield o => Sys2Proof.Machine.execHfield o s
  | .hmov o => Sys2Proof.Machine.execHmov o s
  | .hclr o => Sys2Proof.Machine.execHclr o s
  | .gcfg o => Sys2Proof.Machine.execGcfg o s
  | .gset o => Sys2Proof.Machine.execGset o s
  | .grd o => Sys2Proof.Machine.execGrd o s
  | .lset o => Sys2Proof.Machine.execLset o s
  | .vaddF32 o => Sys2Proof.Machine.execVaddF32 o s
  | .vaddBf16 o => Sys2Proof.Machine.execVaddBf16 o s
  | .vaddF16 o => Sys2Proof.Machine.execVaddF16 o s
  | .vsubF32 o => Sys2Proof.Machine.execVsubF32 o s
  | .vsubBf16 o => Sys2Proof.Machine.execVsubBf16 o s
  | .vsubF16 o => Sys2Proof.Machine.execVsubF16 o s
  | .vmulF32 o => Sys2Proof.Machine.execVmulF32 o s
  | .vmulBf16 o => Sys2Proof.Machine.execVmulBf16 o s
  | .vmulF16 o => Sys2Proof.Machine.execVmulF16 o s
  | .vfmaF32 o => Sys2Proof.Machine.execVfmaF32 o s
  | .vfmaBf16 o => Sys2Proof.Machine.execVfmaBf16 o s
  | .vfmaF16 o => Sys2Proof.Machine.execVfmaF16 o s
  | .vfmsF32 o => Sys2Proof.Machine.execVfmsF32 o s
  | .vfmsBf16 o => Sys2Proof.Machine.execVfmsBf16 o s
  | .vfmsF16 o => Sys2Proof.Machine.execVfmsF16 o s
  | .vfnmaF32 o => Sys2Proof.Machine.execVfnmaF32 o s
  | .vfnmaBf16 o => Sys2Proof.Machine.execVfnmaBf16 o s
  | .vfnmaF16 o => Sys2Proof.Machine.execVfnmaF16 o s
  | .vmaxF32 o => Sys2Proof.Machine.execVmaxF32 o s
  | .vmaxBf16 o => Sys2Proof.Machine.execVmaxBf16 o s
  | .vmaxF16 o => Sys2Proof.Machine.execVmaxF16 o s
  | .vminF32 o => Sys2Proof.Machine.execVminF32 o s
  | .vminBf16 o => Sys2Proof.Machine.execVminBf16 o s
  | .vminF16 o => Sys2Proof.Machine.execVminF16 o s
  | .vabsF32 o => Sys2Proof.Machine.execVabsF32 o s
  | .vabsBf16 o => Sys2Proof.Machine.execVabsBf16 o s
  | .vabsF16 o => Sys2Proof.Machine.execVabsF16 o s
  | .vnegF32 o => Sys2Proof.Machine.execVnegF32 o s
  | .vnegBf16 o => Sys2Proof.Machine.execVnegBf16 o s
  | .vnegF16 o => Sys2Proof.Machine.execVnegF16 o s
  | .vrcpF32 o => Sys2Proof.Machine.execVrcpF32 o s
  | .vrcpBf16 o => Sys2Proof.Machine.execVrcpBf16 o s
  | .vrcpF16 o => Sys2Proof.Machine.execVrcpF16 o s
  | .vrsqF32 o => Sys2Proof.Machine.execVrsqF32 o s
  | .vrsqBf16 o => Sys2Proof.Machine.execVrsqBf16 o s
  | .vrsqF16 o => Sys2Proof.Machine.execVrsqF16 o s
  | .vsqrtF32 o => Sys2Proof.Machine.execVsqrtF32 o s
  | .vsqrtBf16 o => Sys2Proof.Machine.execVsqrtBf16 o s
  | .vsqrtF16 o => Sys2Proof.Machine.execVsqrtF16 o s
  | .vexp2F32 o => Sys2Proof.Machine.execVexp2F32 o s
  | .vexp2Bf16 o => Sys2Proof.Machine.execVexp2Bf16 o s
  | .vexp2F16 o => Sys2Proof.Machine.execVexp2F16 o s
  | .vlog2F32 o => Sys2Proof.Machine.execVlog2F32 o s
  | .vlog2Bf16 o => Sys2Proof.Machine.execVlog2Bf16 o s
  | .vlog2F16 o => Sys2Proof.Machine.execVlog2F16 o s
  | .vtanhF32 o => Sys2Proof.Machine.execVtanhF32 o s
  | .vtanhBf16 o => Sys2Proof.Machine.execVtanhBf16 o s
  | .vtanhF16 o => Sys2Proof.Machine.execVtanhF16 o s
  | .vscaleF32 o => Sys2Proof.Machine.execVscaleF32 o s
  | .vscaleBf16 o => Sys2Proof.Machine.execVscaleBf16 o s
  | .vscaleF16 o => Sys2Proof.Machine.execVscaleF16 o s
  | .viadd o => Sys2Proof.Machine.execViadd o s
  | .visub o => Sys2Proof.Machine.execVisub o s
  | .vimul o => Sys2Proof.Machine.execVimul o s
  | .vimin o => Sys2Proof.Machine.execVimin o s
  | .vimax o => Sys2Proof.Machine.execVimax o s
  | .vand o => Sys2Proof.Machine.execVand o s
  | .vor o => Sys2Proof.Machine.execVor o s
  | .vxor o => Sys2Proof.Machine.execVxor o s
  | .vshl o => Sys2Proof.Machine.execVshl o s
  | .vshr o => Sys2Proof.Machine.execVshr o s
  | .vsar o => Sys2Proof.Machine.execVsar o s
  | .vcmpF32 o => Sys2Proof.Machine.execVcmpF32 o s
  | .vcmpBf16 o => Sys2Proof.Machine.execVcmpBf16 o s
  | .vcmpF16 o => Sys2Proof.Machine.execVcmpF16 o s
  | .vicmp o => Sys2Proof.Machine.execVicmp o s
  | .vsel o => Sys2Proof.Machine.execVsel o s
  | .vplog o => Sys2Proof.Machine.execVplog o s
  | .viota o => Sys2Proof.Machine.execViota o s
  | .vmov o => Sys2Proof.Machine.execVmov o s
  | .vbcast o => Sys2Proof.Machine.execVbcast o s
  | .vextr o => Sys2Proof.Machine.execVextr o s
  | .vins o => Sys2Proof.Machine.execVins o s
  | .vperm o => Sys2Proof.Machine.execVperm o s
  | .vshuf o => Sys2Proof.Machine.execVshuf o s
  | .vrotl o => Sys2Proof.Machine.execVrotl o s
  | .vld o => Sys2Proof.Machine.execVld o s
  | .vst o => Sys2Proof.Machine.execVst o s
  | .vlds o => Sys2Proof.Machine.execVlds o s
  | .vsts o => Sys2Proof.Machine.execVsts o s
  | .vgather o => Sys2Proof.Machine.execVgather o s
  | .vscatter o => Sys2Proof.Machine.execVscatter o s
  | .vatom o => Sys2Proof.Machine.execVatom o s
  | .vcvt o => Sys2Proof.Machine.execVcvt o s
  | .vquantIdx o => Sys2Proof.Machine.execVquantIdx o s
  | .vquantScl o => Sys2Proof.Machine.execVquantScl o s
  | .vdeq o => Sys2Proof.Machine.execVdeq o s
  | .vxsencLoc o => Sys2Proof.Machine.execVxsencLoc o s
  | .vxsencX32 o => Sys2Proof.Machine.execVxsencX32 o s
  | .vxsencX64l o => Sys2Proof.Machine.execVxsencX64l o s
  | .vxsencX64h o => Sys2Proof.Machine.execVxsencX64h o s
  | .vxsdecX32 o => Sys2Proof.Machine.execVxsdecX32 o s
  | .vxsdecX64l o => Sys2Proof.Machine.execVxsdecX64l o s
  | .vxsdecX64h o => Sys2Proof.Machine.execVxsdecX64h o s
  | .vrsum o => Sys2Proof.Machine.execVrsum o s
  | .vrmax o => Sys2Proof.Machine.execVrmax o s
  | .vrmin o => Sys2Proof.Machine.execVrmin o s
  | .vpmark o => Sys2Proof.Machine.execVpmark o s
  | .vpclr o => Sys2Proof.Machine.execVpclr o s
  | .vpget o => Sys2Proof.Machine.execVpget o s
  | .vclamp o => Sys2Proof.Machine.execVclamp o s
  | .tcfg o => Sys2Proof.Machine.execTcfg o s
  | .tzero o => Sys2Proof.Machine.execTzero o s
  | .tld o => Sys2Proof.Machine.execTld o s
  | .tdrain o => Sys2Proof.Machine.execTdrain o s
  | .mma o => Sys2Proof.Machine.execMma o s
  | .mmas o => Sys2Proof.Machine.execMmas o s
  | .mmaq o => Sys2Proof.Machine.execMmaq o s
  | .tpoisGet o => Sys2Proof.Machine.execTpoisGet o s
  | .tpoisMark o => Sys2Proof.Machine.execTpoisMark o s
  | .tpoisClr o => Sys2Proof.Machine.execTpoisClr o s
  | .tbias o => Sys2Proof.Machine.execTbias o s
  | .cpin o => Sys2Proof.Machine.execCpin o s
  | .cpout o => Sys2Proof.Machine.execCpout o s
  | .cpset o => Sys2Proof.Machine.execCpset o s
  | .cpmap o => Sys2Proof.Machine.execCpmap o s
  | .msend o => Sys2Proof.Machine.execMsend o s
  | .amo o => Sys2Proof.Machine.execAmo o s
  | .acas o => Sys2Proof.Machine.execAcas o s
  | .ared o => Sys2Proof.Machine.execAred o s
  | .csend o => Sys2Proof.Machine.execCsend o s
  | .crecv o => Sys2Proof.Machine.execCrecv o s
  | .cagree o => Sys2Proof.Machine.execCagree o s
  | .credx o => Sys2Proof.Machine.execCredx o s
  | .cbar o => Sys2Proof.Machine.execCbar o s
  | .swait o => Sys2Proof.Machine.execSwait o s
  | .spost o => Sys2Proof.Machine.execSpost o s
  | .spostSub o => Sys2Proof.Machine.execSpostSub o s
  | .bar o => Sys2Proof.Machine.execBar o s
  | .waitc o => Sys2Proof.Machine.execWaitc o s
  | .qmark o => Sys2Proof.Machine.execQmark o s
  | .rrel o => Sys2Proof.Machine.execRrel o s
  | .rpget o => Sys2Proof.Machine.execRpget o s
  | .rstat o => Sys2Proof.Machine.execRstat o s
  | .bkpt o => Sys2Proof.Machine.execBkpt o s
  | .rollcall o => Sys2Proof.Machine.execRollcall o s
  | .cntr o => Sys2Proof.Machine.execCntr o s
  | .cntwValue o => Sys2Proof.Machine.execCntwValue o s
  | .cntwCfg o => Sys2Proof.Machine.execCntwCfg o s
  | .loopbBreak => Sys2Proof.Machine.execLoopbBreak s
  | .loopStackWrite => Sys2Proof.Machine.execLoopStackWrite s
  | .inboxSpoolWrite => Sys2Proof.Machine.execInboxSpoolWrite s
  | .replySpoolWrite => Sys2Proof.Machine.execReplySpoolWrite s
  | .eret => Sys2Proof.Machine.execEret s
  | .nop => Sys2Proof.Machine.execNop s
  | .texit => Sys2Proof.Machine.execTexit s
  | .enqueue => Sys2Proof.Machine.execEnqueue s
  | .arrayStart => Sys2Proof.Machine.execArrayStart s
  | .arrayVis => Sys2Proof.Machine.execArrayVis s
  | .engineLanding => Sys2Proof.Machine.execEngineLanding s
  | .untimedLanding => Sys2Proof.Machine.execUntimedLanding s
  | .timedLanding => Sys2Proof.Machine.execTimedLanding s
  | .copyTranslationFault => Sys2Proof.Machine.execCopyTranslationFault s
  | .completionPost => Sys2Proof.Machine.execCompletionPost s
  | .messageArrival => Sys2Proof.Machine.execMessageArrival s
  | .messageReserve => Sys2Proof.Machine.execMessageReserve s
  | .messageLanding => Sys2Proof.Machine.execMessageLanding s
  | .timedMessageLanding => Sys2Proof.Machine.execTimedMessageLanding s
  | .aredSourceRead => Sys2Proof.Machine.execAredSourceRead s
  | .releaseSetPerformed => Sys2Proof.Machine.execReleaseSetPerformed s
  | .hubAtomic => Sys2Proof.Machine.execHubAtomic s
  | .replyWrite => Sys2Proof.Machine.execReplyWrite s
  | .contributionWrite => Sys2Proof.Machine.execContributionWrite s
  | .cbarDeadline => Sys2Proof.Machine.execCbarDeadline s
  | .cbarVerdict => Sys2Proof.Machine.execCbarVerdict s
  | .collectiveCompletion => Sys2Proof.Machine.execCollectiveCompletion s
  | .barrierCompletion => Sys2Proof.Machine.execBarrierCompletion s
  | .cntwChartClear => Sys2Proof.Machine.execCntwChartClear s
  | .sequencerWaitEnd => Sys2Proof.Machine.execSequencerWaitEnd s
  | .trapEntry => Sys2Proof.Machine.execTrapEntry s
  | .violation => Sys2Proof.Machine.execViolation s
  | .violationRelease => Sys2Proof.Machine.execViolationRelease s
  | .watchdog => Sys2Proof.Machine.execWatchdog s
  | .dispatch => Sys2Proof.Machine.execDispatch s
  | .placementPatienceExpiry => Sys2Proof.Machine.execPlacementPatienceExpiry s
  | .taskStart => Sys2Proof.Machine.execTaskStart s
  | .taskCompletion => Sys2Proof.Machine.execTaskCompletion s
  | .scrub => Sys2Proof.Machine.execScrub s
  | .sliceEnd => Sys2Proof.Machine.execSliceEnd s
  | .recallForm => Sys2Proof.Machine.execRecallForm s
  | .contextSave => Sys2Proof.Machine.execContextSave s
  | .contextResume => Sys2Proof.Machine.execContextResume s
  | .spoolService => Sys2Proof.Machine.execSpoolService s
  | .launchPacket => Sys2Proof.Machine.execLaunchPacket s
  | .releasePacket => Sys2Proof.Machine.execReleasePacket s
  | .cancelPacket => Sys2Proof.Machine.execCancelPacket s
  | .nopPacket => Sys2Proof.Machine.execNopPacket s
  | .packetReread => Sys2Proof.Machine.execPacketReread s
  | .completionRecordWrite => Sys2Proof.Machine.execCompletionRecordWrite s
  | .migrationStopped => Sys2Proof.Machine.execMigrationStopped s
  | .timetableTakeover => Sys2Proof.Machine.execTimetableTakeover s
  | .choldRelease => Sys2Proof.Machine.execCholdRelease s
  | .hubRead => Sys2Proof.Machine.execHubRead s
  | .hubWrite => Sys2Proof.Machine.execHubWrite s
  | .intervalSeal => Sys2Proof.Machine.execIntervalSeal s
  | .rollback => Sys2Proof.Machine.execRollback s
  | .translationWalk => Sys2Proof.Machine.execTranslationWalk s
  | .revocationSweep => Sys2Proof.Machine.execRevocationSweep s
  | .sweepAck => Sys2Proof.Machine.execSweepAck s
  | .rotationFrame => Sys2Proof.Machine.execRotationFrame s
  | .hostCompletionTimeout => Sys2Proof.Machine.execHostCompletionTimeout s
  | .retentionEntry => Sys2Proof.Machine.execRetentionEntry s
  | .retentionEntered => Sys2Proof.Machine.execRetentionEntered s
  | .retentionExitDone => Sys2Proof.Machine.execRetentionExitDone s
  | .timerEvent => Sys2Proof.Machine.execTimerEvent s
  | .counterWrap => Sys2Proof.Machine.execCounterWrap s
  | .counterSample => Sys2Proof.Machine.execCounterSample s
  | .rollCallLatch => Sys2Proof.Machine.execRollCallLatch s
  | .workStop => Sys2Proof.Machine.execWorkStop s
  | .pcMatch => Sys2Proof.Machine.execPcMatch s
  | .sha384 => Sys2Proof.Machine.execSha384 s
  | .sha256 => Sys2Proof.Machine.execSha256 s
  | .ecdsaVerify => Sys2Proof.Machine.execEcdsaVerify s
  | .ecdsaSign => Sys2Proof.Machine.execEcdsaSign s
  | .lmsVerify => Sys2Proof.Machine.execLmsVerify s
  | .hssSign => Sys2Proof.Machine.execHssSign s
  | .bootinc => Sys2Proof.Machine.execBootinc s
  | .aesCmac => Sys2Proof.Machine.execAesCmac s
  | .gcmSeal => Sys2Proof.Machine.execGcmSeal s
  | .gcmOpen => Sys2Proof.Machine.execGcmOpen s
  | .keyCopy => Sys2Proof.Machine.execKeyCopy s
  | .hmac => Sys2Proof.Machine.execHmac s
  | .udsDerive => Sys2Proof.Machine.execUdsDerive s
  | .hkdfExpand => Sys2Proof.Machine.execHkdfExpand s
  | .drbg => Sys2Proof.Machine.execDrbg s
  | .drbgReseed => Sys2Proof.Machine.execDrbgReseed s
  | .mext => Sys2Proof.Machine.execMext s
  | .packagePowerOn => Sys2Proof.Machine.execPackagePowerOn s
  | .hostPortReset => Sys2Proof.Machine.execHostPortReset s
  | .illegalWord => Sys2Proof.Machine.execIllegalWord s
  | .standbyTimetableFailure => Sys2Proof.Machine.execStandbyTimetableFailure s
  | .packagePowerLoss => Sys2Proof.Machine.execPackagePowerLoss s
  | .coreFailure o => Sys2Proof.Machine.execCoreFailure o s
  | .spkick o => Sys2Proof.Machine.execSpkick o s
  | .spoolRegWrite o => Sys2Proof.Machine.execSpoolRegWrite o s
  | .spstopClear o => Sys2Proof.Machine.execSpstopClear o s
  | .spallocWrite o => Sys2Proof.Machine.execSpallocWrite o s
  | .csconsWrite o => Sys2Proof.Machine.execCsconsWrite o s
  | .completionSpoolRegWrite o => Sys2Proof.Machine.execCompletionSpoolRegWrite o s
  | .migctlStart o => Sys2Proof.Machine.execMigctlStart o s
  | .migctlReport o => Sys2Proof.Machine.execMigctlReport o s
  | .migctlStop o => Sys2Proof.Machine.execMigctlStop o s
  | .migctlAbort o => Sys2Proof.Machine.execMigctlAbort o s
  | .migctlResume o => Sys2Proof.Machine.execMigctlResume o s
  | .ttroleWrite o => Sys2Proof.Machine.execTtroleWrite o s
  | .pkbset o => Sys2Proof.Machine.execPkbset o s
  | .pkbclr o => Sys2Proof.Machine.execPkbclr o s
  | .patrolScrub o => Sys2Proof.Machine.execPatrolScrub o s
  | .channelFailure o => Sys2Proof.Machine.execChannelFailure o s
  | .xlinvWrite o => Sys2Proof.Machine.execXlinvWrite o s
  | .errorSlotClear o => Sys2Proof.Machine.execErrorSlotClear o s
  | .flitReceive o => Sys2Proof.Machine.execFlitReceive o s
  | .portDetect o => Sys2Proof.Machine.execPortDetect o s
  | .laneTraining o => Sys2Proof.Machine.execLaneTraining o s
  | .laneFailure o => Sys2Proof.Machine.execLaneFailure o s
  | .portAuthentication o => Sys2Proof.Machine.execPortAuthentication o s
  | .keyUpdate o => Sys2Proof.Machine.execKeyUpdate o s
  | .portReset o => Sys2Proof.Machine.execPortReset o s
  | .spdmRequest o => Sys2Proof.Machine.execSpdmRequest o s
  | .hostBar2Read o => Sys2Proof.Machine.execHostBar2Read o s
  | .hostBar2Write o => Sys2Proof.Machine.execHostBar2Write o s
  | .lockInterfaceRequest o => Sys2Proof.Machine.execLockInterfaceRequest o s
  | .startInterfaceRequest o => Sys2Proof.Machine.execStartInterfaceRequest o s
  | .stopInterfaceRequest o => Sys2Proof.Machine.execStopInterfaceRequest o s
  | .tdiError o => Sys2Proof.Machine.execTdiError o s
  | .ideKeyRefresh o => Sys2Proof.Machine.execIdeKeyRefresh o s
  | .hostCompletion o => Sys2Proof.Machine.execHostCompletion o s
  | .assign o => Sys2Proof.Machine.execAssign o s
  | .share o => Sys2Proof.Machine.execShare o s
  | .hostwin o => Sys2Proof.Machine.execHostwin o s
  | .releaseService o => Sys2Proof.Machine.execReleaseService o s
  | .durable o => Sys2Proof.Machine.execDurable o s
  | .context o => Sys2Proof.Machine.execContext o s
  | .revoke o => Sys2Proof.Machine.execRevoke o s
  | .mint o => Sys2Proof.Machine.execMint o s
  | .rotate o => Sys2Proof.Machine.execRotate o s
  | .reportService o => Sys2Proof.Machine.execReportService o s
  | .extend o => Sys2Proof.Machine.execExtend o s
  | .loan o => Sys2Proof.Machine.execLoan o s
  | .link o => Sys2Proof.Machine.execLink o s
  | .clear o => Sys2Proof.Machine.execClear o s
  | .spretreqWrite o => Sys2Proof.Machine.execSpretreqWrite o s
  | .untimedRequestForced o => Sys2Proof.Machine.execUntimedRequestForced o s
  | .cntclaimWrite o => Sys2Proof.Machine.execCntclaimWrite o s
  | .guestCounterReadLo o => Sys2Proof.Machine.execGuestCounterReadLo o s
  | .dcmdResume o => Sys2Proof.Machine.execDcmdResume o s
  | .dcmdKill o => Sys2Proof.Machine.execDcmdKill o s
  | .dcmdRollcall o => Sys2Proof.Machine.execDcmdRollcall o s
  | .ddataAccess o => Sys2Proof.Machine.execDdataAccess o s
  | .wsarmWrite o => Sys2Proof.Machine.execWsarmWrite o s
  | .panelReset o => Sys2Proof.Machine.execPanelReset o s
  | .fatalError o => Sys2Proof.Machine.execFatalError o s
  | .thermalSample o => Sys2Proof.Machine.execThermalSample o s
  | .powerLimitCheck o => Sys2Proof.Machine.execPowerLimitCheck o s
  | .droop o => Sys2Proof.Machine.execDroop o s
  | .registerWrite o => Sys2Proof.Machine.execRegisterWrite o s

end Sys2Proof.Machine
end

