-- ==== Sys2Proof/Machine/Step.lean ====
section
/-! DEFINITION. One step of the machine, and the placing of one word where the next step fetches. -/

namespace Sys2Proof.Machine

/-- One step (13 of the guide's tables, 95_what_each_step_holds): the next row of the opcode table, or the next cycle. -/
def step (s : State) : Host.Outcome State Fault Refusal :=
  match turn s with
  | .run t i => exec i t
  | .goes t => .next t
  | .stops => .fault .packageDown

/-- The state with the word `w` at the PC of core 0, whose sequencer stands ready to fetch it: the core holds a task, no
trap, no wait and no PC match, and no input comes first (log entry 3). -/
def State.withFetchWord (s : State) (_nbits w : Nat) : State :=
  let c := s.core 0
  let a := c.sys.codebase + 6 * c.seq.pc.toNat
  { s with
    down := false, inputs := [], upsets := []
    cores := mapPut s.cores 0 { c with
      life := .running, trap := none, dstop := false, frozenV := false, exempt := true
      seq := { c.seq with wait := none, nextAt := s.cyc, ready := [] }
      sys := { c.sys with codesize := max c.sys.codesize (c.seq.pc.toNat + 1) }
      sp := { c.sp with bytes := memWriteNat c.sp.bytes a 6 (w % 2 ^ 48), stale := [], lines := [], served := [] } } }

end Sys2Proof.Machine
end

