-- ==== Sys2Proof/Safety.lean ====
section
/-! DEFINITION. The terms that the statements use: what a word leaves alone in its core and in the rest of the machine,
what it means that an instruction completes, and the canonical form of the memories. -/

namespace Sys2Proof.Machine

/-- Instruction `i` completes at `s`: `exec` answers a next state, of which `P` holds. -/
def Runs (i : Instr) (s : State) (P : State → Prop) : Prop := ∃ t, exec i s = .next t ∧ P t

/-- Everything of the machine but the present core is as it was: the other cores, device memory with its tables, contexts,
scheduler, links, debug, Thimble, platform, the work between the blocks, the inputs, the cycle and the time. -/
structure KeepsRest (s t : State) : Prop where
  cores : ∀ n, n ≠ s.cur → t.core n = s.core n
  cur : t.cur = s.cur
  cyc : t.cyc = s.cyc
  time : t.time = s.time
  split : t.split = s.split
  inputs : t.inputs = s.inputs
  upsets : t.upsets = s.upsets
  work : t.work = s.work
  dev : t.dev = s.dev
  ctxs : t.ctxs = s.ctxs
  sched : t.sched = s.sched
  links : t.links = s.links
  meas : t.meas = s.meas
  thim : t.thim = s.thim
  plat : t.plat = s.plat
  down : t.down = s.down

/-- The units of a core beside its sequencer, queues and scratchpad are as they were: vector and predicate registers, tiles and
streams, handles, special registers, semaphores, performance counters and the chart, landings, commands, messages in
flight, and the pending trap. -/
structure KeepsEngines (a b : Core) : Prop where
  life : b.life = a.life
  vec : b.vec = a.vec
  mx : b.mx = a.mx
  h : b.h = a.h
  sys : b.sys = a.sys
  k : b.cn.k = a.cn.k
  cnt : b.cn.cnt = a.cn.cnt
  chart : b.cn.chart = a.cn.chart
  land : b.land = a.land
  cmds : b.cmds = a.cmds
  msgs : b.msgs = a.msgs
  trap : b.trap = a.trap

/-- The four queues are as they were. -/
structure KeepsQueues (a b : Core) : Prop where
  qm : b.qm = a.qm
  qv : b.qv = a.qv
  qc : b.qc = a.qc
  ql : b.ql = a.ql

/-- A queue after a sequencer wait: slack where it holds nothing (R299, R302), else as it was. -/
def dried (q : EQueue) : EQueue := { q with running := q.running && !q.ents.isEmpty }

/-- The four queues after a sequencer wait. -/
structure DriesQueues (a b : Core) : Prop where
  qm : b.qm = dried a.qm
  qv : b.qv = dried a.qv
  qc : b.qc = dried a.qc
  ql : b.ql = dried a.ql

/-- All of a core beside its sequencer's registers and counts is as it was, scratchpad and queues with it. -/
structure KeepsUnits (a b : Core) : Prop extends KeepsEngines a b, KeepsQueues a b where
  sp : b.sp = a.sp

/-- Every byte of the scratchpad reads as before, and every line keeps its code. -/
structure KeepsPad (a b : Core) : Prop where
  bytes : ∀ x, memRead b.sp.bytes x = memRead a.sp.bytes x
  codes : ∀ l, lineCode b l = lineCode a l

/-- The loop stack and PSUM are as they were. -/
structure KeepsLoops (a b : Core) : Prop where
  lstk : b.seq.lstk = a.seq.lstk
  psum : b.seq.psum = a.seq.psum

/-- No scalar register but `sd` changes. -/
def OnlyReg (a b : Core) (sd : BitVec 6) : Prop := ∀ r, r ≠ sd → getS b r = getS a r

/-- No scalar register changes. -/
def NoReg (a b : Core) : Prop := ∀ r, getS b r = getS a r

/-- One word counts as executed, and the sequencer stands at word `t`. -/
structure WentTo (a b : Core) (t : BitVec 32) : Prop where
  pc : b.seq.pc = t
  w : b.task.w = a.task.w + 1

/-- The word writes `v` to `sd` (nothing where `sd` is s0), goes on at the next word, and changes nothing else. -/
def GivesScalar (i : Instr) (s : State) (sd : BitVec 6) (v : Word) : Prop :=
  Runs i s fun t => getS t.me sd = (if sd = 0 then 0 else v) ∧ OnlyReg s.me t.me sd ∧
    WentTo s.me t.me (s.me.seq.pc + 1) ∧ KeepsLoops s.me t.me ∧ KeepsUnits s.me t.me ∧ KeepsRest s t

/-- The word raises `cause` in its core with the given information: its core's pending trap is set, the cut stands at the word,
no register, memory byte, count or PC changes (R83, R107). -/
def RaisesAt (i : Instr) (s : State) (cause : Nat) (info0 info1 : Word) : Prop :=
  s.me.trap = none → Runs i s fun t =>
    t.me.trap = some ⟨cause, false, 0, true, info0, info1, s.me.seq.pc⟩ ∧ t.me.seq = s.me.seq ∧ t.me.task = s.me.task ∧
    t.me.vec = s.me.vec ∧ t.me.mx = s.me.mx ∧ t.me.h = s.me.h ∧ t.me.sys = s.me.sys ∧ t.me.sp = s.me.sp ∧ t.me.cn = s.me.cn ∧
    t.me.qm = s.me.qm ∧ t.me.qv = s.me.qv ∧ t.me.qc = s.me.qc ∧ t.me.ql = s.me.ql ∧ t.me.land = s.me.land ∧
    t.me.cmds = s.me.cmds ∧ KeepsRest s t

/-- A word of R302 whose wait is over writes `v` to `sd`: its queues that hold nothing have become slack, and nothing else
changes (R299, R302). -/
def GivesAfterWait (i : Instr) (s : State) (sd : BitVec 6) (v : Word) : Prop :=
  Runs i s fun t => getS t.me sd = (if sd = 0 then 0 else v) ∧ OnlyReg s.me t.me sd ∧
    WentTo s.me t.me (s.me.seq.pc + 1) ∧ KeepsLoops s.me t.me ∧ KeepsEngines s.me t.me ∧ DriesQueues s.me t.me ∧
    KeepsPad s.me t.me ∧ KeepsRest s t

/-- No engine has written a byte of the scratchpad that the sequencer has not yet had to observe, no `VATOM` slot of this fc writes one
(R159), and no unit holds an error. -/
structure PadClean (c : Core) : Prop where
  erace : c.sp.erace = []
  slots : ∀ a, slotByte c a = none
  dbe : c.sp.dbe = []
  sbe : c.sp.sbe = []

/-- The word writes handle register `hd` (R198) and goes on: no other handle, no scalar register, no special register, no
byte and nothing outside the core changes. -/
def GivesHandle (i : Instr) (s : State) (hd : BitVec 5) (h : Handle) : Prop :=
  Runs i s fun t => hreg t.me hd = h ∧ (∀ n, n ≠ hd → hreg t.me n = hreg s.me n) ∧ NoReg s.me t.me ∧
    WentTo s.me t.me (s.me.seq.pc + 1) ∧ KeepsLoops s.me t.me ∧ KeepsQueues s.me t.me ∧ KeepsPad s.me t.me ∧
    t.me.vec = s.me.vec ∧ t.me.mx = s.me.mx ∧ t.me.sys = s.me.sys ∧ t.me.cn.k = s.me.cn.k ∧ t.me.trap = s.me.trap ∧ KeepsRest s t

/-- The word sets stream register `n` (R172) to `g` and goes on; PSUM may take a poison code, and nothing else changes. -/
def GivesStream (i : Instr) (s : State) (n : BitVec 5) (g : BitVec 256) : Prop :=
  Runs i s fun t => getG t.me n = g ∧ (∀ m, m ≠ n → getG t.me m = getG s.me m) ∧ NoReg s.me t.me ∧
    WentTo s.me t.me (s.me.seq.pc + 1) ∧ t.me.seq.lstk = s.me.seq.lstk ∧ KeepsQueues s.me t.me ∧ KeepsPad s.me t.me ∧
    t.me.vec = s.me.vec ∧ t.me.mx.tiles = s.me.mx.tiles ∧ t.me.h = s.me.h ∧ t.me.sys = s.me.sys ∧ t.me.cn.k = s.me.cn.k ∧
    t.me.trap = s.me.trap ∧ KeepsRest s t

/-- The scratchpad address of a system word lies inside, is aligned to `n`, and belongs to the tenant. -/
def PadReach (c : Core) (a n : Nat) : Prop :=
  a < 2 ^ 23 ∧ a % n = 0 ∧ mapGet c.sp.tagDef c.sp.tag (a / 128) = c.sys.tenant

/-- The value that n little-endian bytes at address a of a core's scratchpad hold. -/
def padValue (c : Core) (a n : Nat) : Word := BitVec.ofNat 64 (memReadNat c.sp.bytes a n)

/-- The value that a scalar load sees of n bytes: a `VATOM` slot's bytes of this fc as they stood before (R159). -/
def seenValue (c : Core) (a : Nat) : Nat → Word
  | 0 => 0
  | n + 1 => (((slotByte c a).getD (memRead c.sp.bytes a)).setWidth 64) + (seenValue c (a + 1) n <<< 8)

/-- The value of lane j of a vector register's bits, lanes `w` bytes wide (R129). -/
def laneOf (w : Nat) (x : BitVec 8192) (j : Nat) : Nat := x.toNat / 2 ^ (8 * w * j) % 2 ^ (8 * w)

/-- Queue `q` issues its head: the latched entry stands there, and no vector or predicate register holds a parity error. -/
structure Issuing (c : Core) (q : Nat) : Prop where
  head : (c.queue q).ents.head? = some c.latch
  vbad : c.vec.vbad = []
  pbad : c.vec.pbad = []

/-- One entry of queue `q` has issued (R85, R297): it has left the queue, whose last issue is the present fc; the registers,
the scratchpad, the other queues and the sequencer are as they were. -/
structure IssuedOne (a b : Core) (q : Nat) : Prop where
  ents : (b.queue q).ents = (a.queue q).ents.tail
  last : (b.queue q).last = some a.fc
  next : (b.queue q).next = (a.queue q).next
  others : ∀ k, k < 4 → k ≠ q → b.queue k = a.queue k
  w : b.task.w = a.task.w + 1
  fc : b.fc = a.fc
  seq : b.seq = a.seq
  vec : b.vec = a.vec
  h : b.h = a.h
  sp : b.sp = a.sp
  cnt : b.cn.cnt = a.cn.cnt
  chart : b.cn.chart = a.cn.chart
  msgs : b.msgs = a.msgs
  life : b.life = a.life
  trap : b.trap = a.trap

/-- One entry has issued, and beside its landing or command the core's system registers, semaphores, tiles and streams are as
they were. -/
structure IssuedQuiet (a b : Core) (q : Nat) : Prop extends IssuedOne a b q where
  k : b.cn.k = a.cn.k
  sys : b.sys = a.sys
  tiles : b.mx.tiles = a.mx.tiles
  g : b.mx.g = a.mx.g
  mxevt : b.mx.mxevt = a.mx.mxevt

/-- The word issues from queue `q` and leaves one landing, `lat` fc after its issue, of which `P` holds (R88, R137). -/
def LandsSome (i : Instr) (s : State) (q lat : Nat) (P : Act → Prop) : Prop :=
  Issuing s.me q → Runs i s fun t => ∃ act, P act ∧ t.me.land = s.me.land ++ [⟨s.me.fc + lat, q, s.me.latch.seq, act, underP0 s.me.latch.i⟩] ∧
    t.me.cmds = s.me.cmds ∧ IssuedQuiet s.me t.me q ∧ KeepsRest s t

/-- The word issues from queue `q` and leaves the landing `act`, `lat` fc after its issue. -/
def LandsAt (i : Instr) (s : State) (q lat : Nat) (act : Act) : Prop := LandsSome i s q lat fun a => a = act

/-- The largest poison code over the active lanes of segment `j`, and P's own (R133, R149); `w` bytes a lane, `k` the codes
that come with each lane. -/
def segCode (w : Nat) (p : PReg) (k : Nat → BitVec 2) (j : Nat) : BitVec 2 :=
  maxCodes (codeAt p.codes j :: (List.range (128 / w)).map fun i =>
    if p.bits.getLsbD (w * (128 / w * j + i)) then k (128 / w * j + i) else 0)

/-- A lane-wise vector word (R133, R138): it lands `lat` fc after its issue; every active lane j takes `r j` (its low bits), the mask covers
the active lanes, and a segment's code is the largest of P's and of those, `k`, that come with its active lanes. -/
def LandsLanes (i : Instr) (s : State) (w lat : Nat) (vd : BitVec 10) (pg : BitVec 4) (r : Nat → Nat) (k : Nat → BitVec 2) : Prop :=
  LandsSome i s 1 lat fun act => ∃ data mask codes, act = .vec vd data mask 255 codes true ∧
    (∀ j, j < 1024 / w → (preg s.me pg).bits.getLsbD (w * j) = true → laneOf w data j = r j % 2 ^ (8 * w)) ∧
    (∀ b, b < 1024 → mask.getLsbD b = (preg s.me pg).bits.getLsbD (w * (b / w))) ∧
    ∀ j, j < 8 → codeAt codes j = segCode w (preg s.me pg) k j

/-- A compare (R132, R143): every active lane j sets all its predicate bits to `r j`. -/
def LandsBits (i : Instr) (s : State) (w : Nat) (pd pg : BitVec 4) (r : Nat → Bool) (k : Nat → BitVec 2) : Prop :=
  LandsSome i s 1 2 fun act => ∃ data mask codes, act = .pred pd data mask 255 codes ∧
    (∀ b, b < 1024 → mask.getLsbD b = true → data.getLsbD b = r (b / w)) ∧
    (∀ b, b < 1024 → mask.getLsbD b = (preg s.me pg).bits.getLsbD (w * (b / w))) ∧
    ∀ j, j < 8 → codeAt codes j = segCode w (preg s.me pg) k j

/-- The word raises `cause` at its issue and stays at the head of its queue (R215). -/
def EngineTraps (i : Instr) (s : State) (q cause : Nat) (info0 info1 : Word) : Prop :=
  Issuing s.me q → s.me.trap = none → Runs i s fun t =>
    t.me.trap = some ⟨cause, false, q, false, info0, info1, s.me.seq.pc⟩ ∧ t.me.heldq = s.me.heldq ||| (1#4 <<< q) ∧
    (∀ k, k < 4 → t.me.queue k = s.me.queue k) ∧ t.me.land = s.me.land ∧ t.me.cmds = s.me.cmds ∧ t.me.vec = s.me.vec ∧
    t.me.mx = s.me.mx ∧ t.me.h = s.me.h ∧ t.me.sys = s.me.sys ∧ t.me.sp = s.me.sp ∧ t.me.cn = s.me.cn ∧ t.me.seq = s.me.seq ∧
    t.me.task = s.me.task ∧ KeepsRest s t

/-- As `EngineTraps`, of a word that has made its reads (R244): banks may have been touched, no byte or code changes. -/
def EngineTrapsRead (i : Instr) (s : State) (q cause : Nat) (info0 info1 : Word) : Prop :=
  Issuing s.me q → s.me.trap = none → PadClean s.me → Runs i s fun t =>
    t.me.trap = some ⟨cause, false, q, false, info0, info1, s.me.seq.pc⟩ ∧ t.me.heldq = s.me.heldq ||| (1#4 <<< q) ∧
    (∀ k, k < 4 → t.me.queue k = s.me.queue k) ∧ t.me.land = s.me.land ∧ t.me.cmds = s.me.cmds ∧ t.me.vec = s.me.vec ∧
    t.me.mx = s.me.mx ∧ t.me.h = s.me.h ∧ t.me.sys = s.me.sys ∧ KeepsPad s.me t.me ∧ t.me.cn.k = s.me.cn.k ∧ t.me.seq = s.me.seq ∧
    t.me.task = s.me.task ∧ KeepsRest s t

/-- No core but those of the list changes. -/
def OthersKept (s t : State) (ns : List Nat) : Prop := ∀ m, m ∉ ns → t.core m = s.core m

/-- What the cores share is as it was: device memory and its tables, contexts, scheduler, links, counters and debug, Thimble,
platform. -/
structure KeepsShared (s t : State) : Prop where
  cyc : t.cyc = s.cyc
  time : t.time = s.time
  inputs : t.inputs = s.inputs
  upsets : t.upsets = s.upsets
  dev : t.dev = s.dev
  ctxs : t.ctxs = s.ctxs
  sched : t.sched = s.sched
  links : t.links = s.links
  meas : t.meas = s.meas
  thim : t.thim = s.thim
  plat : t.plat = s.plat
  down : t.down = s.down

/-- Work of queue `q` of the present core is put on its way, each piece due within `bound` cycles (R465), now where `bound` is 0: behind all
work that was on its way, but for that of later words, which it stands before (R277, R284). -/
def Sends (s t : State) (q bound : Nat) (items : List Item) : Prop :=
  ∃ before ts after : List (Nat × Item), s.work = before ++ after ∧ t.work = before ++ ts ++ after ∧ ts.map (·.2) = items ∧
    (∀ x ∈ ts, if bound = 0 then x.1 = s.cyc else s.cyc < x.1 ∧ x.1 ≤ s.cyc + bound) ∧
    (∀ x ∈ before, itemAfter t s.cur s.me.fc q x.2 = false) ∧ ∀ x ∈ after.head?, itemAfter t s.cur s.me.fc q x.2 = true

/-- The word issues from queue `q` as command `m`, and sends `items` on their way within `bound` cycles; its requests may take `total`
cycles, and the command's answer 1,000 beyond them. -/
def SendsCmd (i : Instr) (s : State) (q total bound : Nat) (items : List Item) (m : Cmd) : Prop :=
  Issuing s.me q → s.me.latch.mark = false → s.me.latch.i = i → Runs i s fun t =>
    t.me.cmds = s.me.cmds ++ [{ m with till := s.cyc + total + 1000, left := s.cyc }] ∧ t.me.land = s.me.land ∧ IssuedQuiet s.me t.me q ∧
    OthersKept s t [s.cur] ∧ KeepsShared s t ∧ Sends s t q bound items

/-- One entry has left the head of queue `q`, which is at the present fc; the other queues are as they were. -/
structure LeftQueue (a b : Core) (q : Nat) : Prop where
  ents : (b.queue q).ents = (a.queue q).ents.tail
  last : (b.queue q).last = some a.fc
  others : ∀ k, k < 4 → k ≠ q → b.queue k = a.queue k
  w : b.task.w = a.task.w + 1

/-- A cause is taken at the present core and not yet entered: nothing else of the machine changes, and a violation freezes the
core (R36, R215). -/
structure TrapSet (s t : State) (p : PendTrap) : Prop where
  trap : t.me.trap = some p
  frozen : t.me.frozenV = (s.me.frozenV || isViolation p.cause)
  seq : t.me.seq = s.me.seq
  task : t.me.task = s.me.task
  vec : t.me.vec = s.me.vec
  mx : t.me.mx = s.me.mx
  h : t.me.h = s.me.h
  sys : t.me.sys = s.me.sys
  sp : t.me.sp = s.me.sp
  cn : t.me.cn = s.me.cn
  queues : KeepsQueues s.me t.me
  land : t.me.land = s.me.land
  cmds : t.me.cmds = s.me.cmds
  rest : KeepsRest s t

/-- No record stands for a task whose image a slot holds: nothing has to be given up (R347). -/
def NothingSaved (s : State) : Prop := ∀ e ∈ s.sched.recs, e.2.saved = none

/-- The entries of a queue whose barrier in wait, if there is one, has been abandoned (R215, R303). -/
def waitless (x : EQueue) : List QEntry :=
  match x.bwait, x.ents with
  | true, e :: t => { e with slot := 0 } :: t
  | _, l => l

/-- Launch `lk` ends (R332): wherever it still stands it is ENDING, killed or faulted, and a first fault's cause is recorded, unless
another cause of a task of the launch has come before and still waits for that task's commands (R333). -/
def LaunchEnds (s t : State) (lk : Nat) (killed : Bool) (cause : Nat) : Prop :=
  ∀ l l', launchOf s lk = some l → launchOf t lk = some l' → l'.st = .ending ∧
    (killed = true → l'.killed = true) ∧ (killed = false → l'.faulted = true) ∧
    ((∀ n p, runsLaunch (s.core n) lk = true → (s.core n).trap = some p → p.cause = cause) → l.fcause = 0 → l'.fcause = cause)

/-- Beside the scheduler's own tables nothing changes: cores, device memory, contexts, links, counters, Thimble, platform. -/
structure SchedOnly (s t : State) : Prop where
  cores : t.cores = s.cores
  dev : t.dev = s.dev
  ctxs : t.ctxs = s.ctxs
  links : t.links = s.links
  meas : t.meas = s.meas
  thim : t.thim = s.thim
  plat : t.plat = s.plat
  down : t.down = s.down

/-- Beside the Thimble's state nothing changes. -/
structure ThimOnly (s t : State) : Prop where
  cores : t.cores = s.cores
  work : t.work = s.work
  dev : t.dev = s.dev
  ctxs : t.ctxs = s.ctxs
  sched : t.sched = s.sched
  links : t.links = s.links
  meas : t.meas = s.meas
  plat : t.plat = s.plat
  down : t.down = s.down

/-- The crypto engine at `base` runs operation `code` and ends with error `err` (R435): it writes nothing. -/
def EngineFails (i : Instr) (s : State) (base code err : Nat) : Prop :=
  engCode s base = code → Runs i s fun t => ThimOnly s t ∧ engReg t base = 0 ∧ engReg t (base + 0x30) = BitVec.ofNat 64 (16 * err) ∧
    t.thim.slots = s.thim.slots ∧ t.thim.sram = s.thim.sram ∧ t.thim.ms = s.thim.ms

/-- The crypto engine at `base` runs operation `code`, ends OK, and leaves `n` bytes of `v` at `dst` (R434, R435): in a key slot, in
the SRAM, or in device memory that is mapped, whose channels have not failed, and whose frames are neither durable nor the host's; it
ends with error 2 and writes nothing where `dst` is none of them. -/
def EngineWrites (i : Instr) (s : State) (base code : Nat) (dst : Word) (n v : Nat) : Prop :=
  engCode s base = code →
    (dst.getLsbD 63 = true → Runs i s fun t => ThimOnly s t ∧ engReg t base = 0 ∧ engReg t (base + 0x30) = 2 ∧
      mapGet 0 t.thim.slots (fieldOf dst 0 8) = v ∧ t.thim.sram = s.thim.sram ∧ t.thim.ms = s.thim.ms) ∧
    (0x10000000 ≤ dst.toNat → dst.toNat + n ≤ 0x10100000 → Runs i s fun t => ThimOnly s t ∧ engReg t base = 0 ∧
      engReg t (base + 0x30) = 2 ∧ t.thim.slots = s.thim.slots ∧ t.thim.ms = s.thim.ms ∧
      ∀ a, memRead t.thim.sram a = if dst.toNat - 0x10000000 ≤ a ∧ a < dst.toNat - 0x10000000 + n then
        BitVec.ofNat 8 (v / 256 ^ (a - (dst.toNat - 0x10000000))) else memRead s.thim.sram a) ∧
    (2 ^ 41 ≤ dst.toNat → dst.toNat + n ≤ 2 ^ 42 →
      (∀ k, k < n → paMapped s (dst.toNat - 2 ^ 41 + k) = true ∧ chanFailed s (dst.toNat - 2 ^ 41 + k) = false ∧
        durableCtx s (dst.toNat - 2 ^ 41 + k) = none ∧ isHostFrame s (dst.toNat - 2 ^ 41 + k) = false) → Runs i s fun t =>
        engReg t base = 0 ∧ engReg t (base + 0x30) = 2 ∧ t.thim.slots = s.thim.slots ∧ t.thim.sram = s.thim.sram ∧ t.cores = s.cores ∧
        ∀ a, memRead t.dev.mem a = if dst.toNat - 2 ^ 41 ≤ a ∧ a < dst.toNat - 2 ^ 41 + n then
          BitVec.ofNat 8 (v / 256 ^ (a - (dst.toNat - 2 ^ 41))) else memRead s.dev.mem a) ∧
    (dst.getLsbD 63 = false → ¬(0x10000000 ≤ dst.toNat ∧ dst.toNat + n ≤ 0x10100000) →
      ¬(2 ^ 41 ≤ dst.toNat ∧ dst.toNat + n ≤ 2 ^ 42) → EngineFails i s base code 2)

/-- A service request is served: the services are open, the caller may name the owner, and the request is one that a tenant
(`who` 0), the hypervisor (1), or both (2) may make (R421, R441, R445). -/
structure MayServe (s : State) (caller owner who : Nat) : Prop where
  isOpen : thimOpen s = true
  owner : ownerAllowed s caller owner = true
  tenant : who = 0 → caller < 1024
  hv : who = 1 → caller = 1024

/-- The response register of a caller shows the request `svc` of identifier `req` done with status `stat`; OK is charged to the owner (R421, R445). -/
structure Answered (s t : State) (caller owner req svc stat : Nat) : Prop where
  header : mapGet 0 t.thim.resp (65536 * caller) = BitVec.ofNat 64 (svc + 0x8000 + req % 2 ^ 16 * 2 ^ 16 + stat * 2 ^ 48)
  charge : stat = 0 → mapGet 0 t.meas.usage (5 * owner + 4) = mapGet 0 s.meas.usage (5 * owner + 4) + 1
  mem : stat ≠ 0 → t.dev = s.dev ∧ t.cores = s.cores

/-- The machine has a next state by step. -/
def Steps (s t : State) : Prop := step s = .next t

/-- Device memory and every scratchpad are in their canonical form: addresses strictly rising, no byte listed that equals what
an unlisted address reads as. -/
def DevCanonical (s : State) : Prop := memWf s.dev.mem = true
def PadsCanonical (s : State) : Prop := ∀ n, memWf (s.core n).sp.bytes = true

/-- A state that has not failed and holds power. -/
def Powered (s : State) : Prop := s.down = false

/-- The power holds, nothing strikes the storage and no input that comes before the events of a cycle is due. -/
structure Undisturbed (s : State) : Prop where
  powered : s.down = false
  upset : takeUpset s s.upsets = none
  input : takeInput s (fun i => isOutside i && !svcWaits s i && !isDdata i) s.inputs = none

/-- A core whose `SINIT` of this cycle has to be undone (R215, R406), and what becomes of it. -/
def undoRow (_ : Nat) (c : Core) : Option Core := if earlyLost c then some (undoEarly c) else none

/-- Undisturbed, with nothing due that comes before the words of a cycle: the machine's turn goes to its words. -/
structure WordsNext (s : State) : Prop extends Undisturbed s where
  undo : firstCore s undoRow = none
  core : firstCore s (coreEvent s) = none
  shared : sharedEvent s = none

/-- A word that its core's sequencer does before the queues of the cycle issue (R406, R425, R433). -/
def earlyRow (s : State) (n : Nat) (_ : Core) : Option Instr :=
  match seqRow s n with
  | some i => if seqEarly s n i then some i else none
  | none => none

/-- The machine's turn goes to row `i` of the sequencer of core `n`: it comes early, or no queue issues, no barrier completes,
no untimed request is served or begins its wait, no wait ends and no time origin is set in this cycle any more. -/
structure SeqNext (s : State) (n : Nat) (i : Instr) : Prop extends WordsNext s where
  first : firstCore s (earlyRow s) = some (n, i) ∨
    (firstCore s (earlyRow s) = none ∧ (∀ posts, firstCore s (fun n _ => issueDue s n posts) = none) ∧
      firstCore s (fun n _ => rowIf (barrierDue s n) .barrierCompletion) = none ∧ linTurn s = none ∧ padRow s = none ∧
      firstCore s (fun n _ => rowIf (collDue s n).isSome .collectiveCompletion) = none ∧ cinRow s = none ∧ wakeTurn s = none ∧
      portTurn s = none ∧ firstCore s (fun n c => rowIf (waitDue s n c) .sequencerWaitEnd) = none ∧
      firstCore s (originTurn s) = none ∧
      firstCore s (fun n _ => seqRow s n) = some (n, i))

/-- A core whose sequencer waits for a bank of the scratchpad is as it was, but for its banks and the moment of its next try. -/
structure WaitsBank (a b : Core) : Prop where
  pc : b.seq.pc = a.seq.pc
  regs : getS b = getS a
  task : b.task = a.task
  bytes : b.sp.bytes = a.sp.bytes
  queues : KeepsQueues a b
  trap : b.trap = a.trap

/-- A core whose word has been fetched is as it was: fetch touches the banks of the word and nothing else. -/
structure Fetched (a b : Core) : Prop extends KeepsEngines a b, KeepsQueues a b, KeepsPad a b where
  seq : b.seq = a.seq
  task : b.task = a.task

end Sys2Proof.Machine
end

