-- ==== Sys2Proof/Certificates/Slice0/Obligations.lean ====
section
/-! DEFINITION. The statements for the provers: what the words and the events of the machine do, what they leave alone, where
they stop, how words are encoded, and what every step keeps. -/

open Sys2Proof Sys2Proof.Machine

/-- R109 and R110, register words: the value that each word of unit 0x0 writes to sd, for every operand; nothing else changes,
and s0 takes no write (R103). -/
def Obligations.IntegerRegisterWords : Prop :=
  ∀ (s : State) (o : RRR),
    let a := getS s.me o.sa
    let b := getS s.me o.sb
    GivesScalar (.sub o) s o.sd (a - b) ∧
    GivesScalar (.mul o) s o.sd (a * b) ∧
    GivesScalar (.mulh o) s o.sd ((a.signExtend 128 * b.signExtend 128).extractLsb' 64 64) ∧
    GivesScalar (.mulhu o) s o.sd ((a.setWidth 128 * b.setWidth 128).extractLsb' 64 64) ∧
    GivesScalar (.div o) s o.sd (if b = 0 then BitVec.allOnes 64 else a.sdiv b) ∧
    GivesScalar (.divu o) s o.sd (if b = 0 then BitVec.allOnes 64 else a / b) ∧
    GivesScalar (.rem o) s o.sd (if b = 0 then a else a.srem b) ∧
    GivesScalar (.remu o) s o.sd (if b = 0 then a else a % b) ∧
    GivesScalar (.and o) s o.sd (a &&& b) ∧
    GivesScalar (.or o) s o.sd (a ||| b) ∧
    GivesScalar (.xor o) s o.sd (a ^^^ b) ∧
    GivesScalar (.andn o) s o.sd (a &&& ~~~ b) ∧
    GivesScalar (.shl o) s o.sd (a <<< (b.toNat % 64)) ∧
    GivesScalar (.shr o) s o.sd (a >>> (b.toNat % 64)) ∧
    GivesScalar (.sar o) s o.sd (a.sshiftRight (b.toNat % 64)) ∧
    GivesScalar (.min o) s o.sd (if a.toInt ≤ b.toInt then a else b) ∧
    GivesScalar (.max o) s o.sd (if a.toInt ≤ b.toInt then b else a) ∧
    GivesScalar (.minu o) s o.sd (if a.toNat ≤ b.toNat then a else b) ∧
    GivesScalar (.maxu o) s o.sd (if a.toNat ≤ b.toNat then b else a) ∧
    GivesScalar (.slt o) s o.sd (if a.toInt < b.toInt then 1 else 0) ∧
    GivesScalar (.sltu o) s o.sd (if a.toNat < b.toNat then 1 else 0) ∧
    GivesScalar (.seq o) s o.sd (if a = b then 1 else 0)

/-- R109, the other register forms of unit 0x0: the scaled ADD, the counts, the extensions, the field words within 64 bits, MOV; a
field that would reach beyond bit 63 raises ILLEGAL with subcause OPERAND, and the word writes nothing. -/
def Obligations.IntegerFieldWords : Prop :=
  (∀ (s : State) (o : AddOp), GivesScalar (.add o) s o.sd (getS s.me o.sa + (getS s.me o.sb <<< o.lsl.toNat))) ∧
  (∀ (s : State) (o : RR),
    let a := getS s.me o.sa
    GivesScalar (.clz o) s o.sd (if a = 0 then 64 else BitVec.ofNat 64 (63 - Nat.log2 a.toNat)) ∧
    (∃ n : Nat, n ≤ 64 ∧ (∀ i, i < n → a.getLsbD i = false) ∧ (n < 64 → a.getLsbD n = true) ∧
      GivesScalar (.ctz o) s o.sd (BitVec.ofNat 64 n)) ∧
    GivesScalar (.popc o) s o.sd (BitVec.ofNat 64 ((List.range 64).filter fun i => a.getLsbD i).length) ∧
    GivesScalar (.mov o) s o.sd a) ∧
  (∀ (s : State) (o : ExtOp),
    let a := getS s.me o.sa
    GivesScalar (.sext o) s o.sd ((a <<< (63 - o.wm1.toNat)).sshiftRight (63 - o.wm1.toNat)) ∧
    GivesScalar (.zext o) s o.sd ((a <<< (63 - o.wm1.toNat)) >>> (63 - o.wm1.toNat))) ∧
  (∀ (s : State) (o : BfxOp), o.pos.toNat + (o.wm1.toNat + 1) ≤ 64 →
    GivesScalar (.bfx o) s o.sd (((getS s.me o.sa >>> o.pos.toNat) <<< (63 - o.wm1.toNat)) >>> (63 - o.wm1.toNat))) ∧
  (∀ (s : State) (o : BfiOp), o.pos.toNat + (o.wm1.toNat + 1) ≤ 64 →
    ∃ v : Word, (∀ i, i < 64 → v.getLsbD i =
        if o.pos.toNat ≤ i ∧ i ≤ o.pos.toNat + o.wm1.toNat then (getS s.me o.sb).getLsbD (i - o.pos.toNat)
        else (getS s.me o.sa).getLsbD i) ∧
      GivesScalar (.bfi o) s o.sd v) ∧
  (∀ (s : State) (o : BfxOp) (w : IWord), 64 < o.pos.toNat + (o.wm1.toNat + 1) → encode (.bfx o) = some w →
    RaisesAt (.bfx o) s 0x01 5 (w.setWidth 64)) ∧
  (∀ (s : State) (o : BfiOp) (w : IWord), 64 < o.pos.toNat + (o.wm1.toNat + 1) → encode (.bfi o) = some w →
    RaisesAt (.bfi o) s 0x01 5 (w.setWidth 64))

/-- R111 and R112: the immediate words take the SR word's effect with the sign-extended immediate, the shifts with their
unsigned count; LI sign-extends, LIH writes the upper half alone. -/
def Obligations.ImmediateWords : Prop :=
  (∀ (s : State) (o : RRI),
    let a := getS s.me o.sa
    let b : Word := o.imm.signExtend 64
    GivesScalar (.addSi o) s o.sd (a + b) ∧
    GivesScalar (.andSi o) s o.sd (a &&& b) ∧
    GivesScalar (.orSi o) s o.sd (a ||| b) ∧
    GivesScalar (.xorSi o) s o.sd (a ^^^ b) ∧
    GivesScalar (.minSi o) s o.sd (if a.toInt ≤ b.toInt then a else b) ∧
    GivesScalar (.maxSi o) s o.sd (if a.toInt ≤ b.toInt then b else a) ∧
    GivesScalar (.sltSi o) s o.sd (if a.toInt < b.toInt then 1 else 0) ∧
    GivesScalar (.sltuSi o) s o.sd (if a.toNat < b.toNat then 1 else 0) ∧
    GivesScalar (.seqSi o) s o.sd (if a = b then 1 else 0)) ∧
  (∀ (s : State) (o : ShiftImm),
    let a := getS s.me o.sa
    GivesScalar (.shlSi o) s o.sd (a <<< o.cnt.toNat) ∧
    GivesScalar (.shrSi o) s o.sd (a >>> o.cnt.toNat) ∧
    GivesScalar (.sarSi o) s o.sd (a.sshiftRight o.cnt.toNat)) ∧
  (∀ (s : State) (o : LiOp),
    GivesScalar (.li o) s o.sd (o.imm.signExtend 64) ∧
    GivesScalar (.lih o) s o.sd (o.imm ++ (getS s.me o.sd).extractLsb' 0 32))

/-- R116 to R119: each scalar FP32 word takes the exact values of bits [31:0] of its sources, rounds the exact result once to FP32
and writes it zero-extended; FMIN and FMAX answer the other operand for a NaN and put -0 below +0; FCMP writes the condition its
code names and FCLASS the one class bit of its operand, by the operand's bits; FCVT between convertible formats rounds as its
mode says and extends the result; with HANDLE, RAW8, XSUM or QN4 it raises ILLEGAL OPERAND. For every operand the word completes,
its register frame with it. -/
def Obligations.ScalarFloatWords : Prop :=
  (∀ (s : State) (o : RRR),
    let a := fdecode f32 ((getS s.me o.sa).toNat % 2 ^ 32)
    let b := fdecode f32 ((getS s.me o.sb).toNat % 2 ^ 32)
    let r (v : FVal) : Word := BitVec.ofNat 64 (fresult f32 v)
    GivesScalar (.fadd o) s o.sd (r (fvAdd a b)) ∧
    GivesScalar (.fsub o) s o.sd (r (fvAdd a (fvNeg b))) ∧
    GivesScalar (.fmul o) s o.sd (r (fvMul a b)) ∧
    let neg (v : FVal) : Bool := match v with
      | .fin n _ _ => n
      | .inf n => n
      | .nan => false
    let below (u v : FVal) : Prop := fvCmp u v < 0 ∨ (fvCmp u v = 0 ∧ neg u = true)
    GivesScalar (.fdiv o) s o.sd (r (fvDiv a b)) ∧
    (fvIsNan a = true → GivesScalar (.fmin o) s o.sd (r b) ∧ GivesScalar (.fmax o) s o.sd (r b)) ∧
    (fvIsNan a = false → fvIsNan b = true → GivesScalar (.fmin o) s o.sd (r a) ∧ GivesScalar (.fmax o) s o.sd (r a)) ∧
    (fvIsNan a = false → fvIsNan b = false →
      (below a b → GivesScalar (.fmin o) s o.sd (r a) ∧ GivesScalar (.fmax o) s o.sd (r b)) ∧
      (¬below a b → GivesScalar (.fmin o) s o.sd (r b) ∧ GivesScalar (.fmax o) s o.sd (r a)))) ∧
  (∀ (s : State) (o : RRRR),
    let v (n : BitVec 6) : FVal := fdecode f32 ((getS s.me n).toNat % 2 ^ 32)
    GivesScalar (.ffma o) s o.sd (BitVec.ofNat 64 (fresult f32 (fvFma (v o.sa) (v o.sb) (v o.sc))))) ∧
  (∀ (s : State) (o : RR),
    let x := (getS s.me o.sa).toNat % 2 ^ 32
    GivesScalar (.fsqrt o) s o.sd (BitVec.ofNat 64 (fresult f32 (fvSqrt (fdecode f32 x)))) ∧
    let class_ (k : Nat) : Prop := GivesScalar (.fclass o) s o.sd (BitVec.ofNat 64 (2 ^ k))
    (x = 0xFF800000 → class_ 0) ∧ (0x80800000 ≤ x → x < 0xFF800000 → class_ 1) ∧ (0x80000000 < x → x < 0x80800000 → class_ 2) ∧
    (x = 0x80000000 → class_ 3) ∧ (x = 0 → class_ 4) ∧ (0 < x → x < 0x00800000 → class_ 5) ∧
    (0x00800000 ≤ x → x < 0x7F800000 → class_ 6) ∧ (x = 0x7F800000 → class_ 7) ∧
    ((0x7F800000 < x ∧ x < 0x80000000) ∨ 0xFF800000 < x → class_ 8)) ∧
  (∀ (s : State) (o : FcmpOp),
    let a := fdecode f32 ((getS s.me o.sa).toNat % 2 ^ 32)
    let b := fdecode f32 ((getS s.me o.sb).toNat % 2 ^ 32)
    let un : Prop := a = .nan ∨ b = .nan
    let holds (p : Prop) : Prop := (p → GivesScalar (.fcmp o) s o.sd 1) ∧ (¬p → GivesScalar (.fcmp o) s o.sd 0)
    (o.cond = 0 → holds (¬un ∧ fvCmp a b = 0)) ∧ (o.cond = 1 → holds (un ∨ fvCmp a b ≠ 0)) ∧
    (o.cond = 2 → holds (¬un ∧ fvCmp a b < 0)) ∧ (o.cond = 3 → holds (¬un ∧ fvCmp a b ≤ 0)) ∧
    (o.cond = 4 → holds (¬un ∧ 0 < fvCmp a b)) ∧ (o.cond = 5 → holds (¬un ∧ 0 ≤ fvCmp a b)) ∧
    (o.cond = 6 → holds un) ∧ (o.cond = 7 → holds (¬un))) ∧
  (∀ (s : State) (o : FcvtOp) (src dst : Fmt) (mode : RMode), fmtOfCode o.src.toNat = some src → fmtOfCode o.dst.toNat = some dst →
    rmodeOfCode o.mode.toNat = some mode → o.src.toNat ≤ 9 → o.dst.toNat ≤ 9 →
    GivesScalar (.fcvt o) s o.sd (fcvtExt dst (convElem src dst mode (decide (o.sat = 1))
      (srDraw s.me.sys.rndseed (s.me.task.words % 2 ^ 32) 0) ((getS s.me o.sa).toNat % 2 ^ fmtBits src)).1)) ∧
  (∀ (s : State) (o : FcvtOp) (w : IWord), reservedOk (.fcvt o) = true → ¬(o.src.toNat ≤ 9 ∧ o.dst.toNat ≤ 9) →
    encode (.fcvt o) = some w → RaisesAt (.fcvt o) s 0x01 5 (w.setWidth 64))

/-- R113, R114, R127, R159 and R225: an aligned load of the tenant's line in an ACTIVE bank (R228: the sequencer waits for it),
whose unit no engine has written unobserved and no error marks, writes the extended bytes to sd, those of a `VATOM` slot of this fc
as they stood before, puts the line's poison code into PSUM and changes nothing else; such a store writes the low bytes of the named
register, but for a slot's bytes, and nothing else; an address at or above 2^23 raises SCRATCH_RANGE, a misaligned one ALIGN, a line
of another tenant is an OWNER violation, in this order, and the word writes nothing. -/
def Obligations.ScalarAccesses : Prop :=
  (∀ (s : State) (o : MemOp),
    let a := (getS s.me o.sa + o.off.signExtend 64).toNat
    let n := 2 ^ o.z.toNat
    a < 2 ^ 23 → a % n = 0 → mapGet s.me.sp.tagDef s.me.sp.tag (a / 128) = s.me.sys.tenant →
    mapHas s.me.sp.erace (a / 8) = false → mapGet false s.me.sp.dbe (a / 8) = false → mapGet false s.me.sp.sbe (a / 8) = false →
    bankAwake s.me (bankOf (a / 128)) = true →
    let x := seenValue s.me a n
    let after (v : Word) (t : State) : Prop :=
      getS t.me o.sd = (if o.sd = 0 then 0 else v) ∧ OnlyReg s.me t.me o.sd ∧ WentTo s.me t.me (s.me.seq.pc + 1) ∧
      t.me.seq.lstk = s.me.seq.lstk ∧
      t.me.seq.psum = s.me.seq.psum ||| (if lineCode s.me (a / 128) = 0 then 0 else 1#64 <<< (lineCode s.me (a / 128)).toNat) ∧
      KeepsEngines s.me t.me ∧ KeepsQueues s.me t.me ∧ KeepsPad s.me t.me ∧ KeepsRest s t
    Runs (.ld o) s (after ((x <<< (64 - 8 * n)).sshiftRight (64 - 8 * n))) ∧ Runs (.ldu o) s (after x)) ∧
  (∀ (s : State) (o : MemOp),
    let a := (getS s.me o.sa + o.off.signExtend 64).toNat
    let n := 2 ^ o.z.toNat
    a < 2 ^ 23 → a % n = 0 → mapGet s.me.sp.tagDef s.me.sp.tag (a / 128) = s.me.sys.tenant →
    mapGet false s.me.sp.dbe (a / 8) = false → mapGet false s.me.sp.sbe (a / 8) = false → bankAwake s.me (bankOf (a / 128)) = true →
    Runs (.st o) s fun t =>
      (∀ x, memRead t.me.sp.bytes x = if a ≤ x ∧ x < a + n ∧ slotByte s.me x = none then BitVec.ofNat 8 ((getS s.me o.sd).toNat / 256 ^ (x - a))
        else memRead s.me.sp.bytes x) ∧
      (∀ l, lineCode t.me l = lineCode s.me l) ∧ NoReg s.me t.me ∧ WentTo s.me t.me (s.me.seq.pc + 1) ∧
      KeepsLoops s.me t.me ∧ KeepsEngines s.me t.me ∧ KeepsQueues s.me t.me ∧ KeepsRest s t) ∧
  (∀ (s : State) (o : MemOp),
    let a := getS s.me o.sa + o.off.signExtend 64
    let n := 2 ^ o.z.toNat
    (2 ^ 23 ≤ a.toNat → RaisesAt (.ld o) s 0x04 a 1 ∧ RaisesAt (.ldu o) s 0x04 a 1 ∧ RaisesAt (.st o) s 0x04 a 2) ∧
    (a.toNat < 2 ^ 23 → a.toNat % n ≠ 0 → RaisesAt (.ld o) s 0x03 a (BitVec.ofNat 64 n) ∧
      RaisesAt (.ldu o) s 0x03 a (BitVec.ofNat 64 n) ∧ RaisesAt (.st o) s 0x03 a (BitVec.ofNat 64 n)) ∧
    (a.toNat < 2 ^ 23 → a.toNat % n = 0 → mapGet s.me.sp.tagDef s.me.sp.tag (a.toNat / 128) ≠ s.me.sys.tenant →
      RaisesAt (.ld o) s 0x0B 0 0 ∧ RaisesAt (.ldu o) s 0x0B 0 0 ∧ RaisesAt (.st o) s 0x0B 0 0))

/-- R120 and R121: branches and jumps go where the rules say; a link register takes the next word's index and nothing else of
the core or the machine changes. -/
def Obligations.BranchesAndJumps : Prop :=
  (∀ (s : State) (o : BranchOp),
    let a := getS s.me o.sa
    let b := getS s.me o.sb
    let goes (i : Instr) (taken : Prop) : Prop :=
      (taken → Runs i s fun t => WentTo s.me t.me (s.me.seq.pc + o.off.signExtend 32) ∧ NoReg s.me t.me ∧
        KeepsLoops s.me t.me ∧ KeepsUnits s.me t.me ∧ KeepsRest s t) ∧
      (¬taken → Runs i s fun t => WentTo s.me t.me (s.me.seq.pc + 1) ∧ NoReg s.me t.me ∧
        KeepsLoops s.me t.me ∧ KeepsUnits s.me t.me ∧ KeepsRest s t)
    goes (.beq o) (a = b) ∧ goes (.bne o) (a ≠ b) ∧ goes (.blt o) (a.toInt < b.toInt) ∧ goes (.bge o) (b.toInt ≤ a.toInt) ∧
    goes (.bltu o) (a.toNat < b.toNat) ∧ goes (.bgeu o) (b.toNat ≤ a.toNat)) ∧
  (∀ (s : State) (i : Instr) (sd : BitVec 6) (target : BitVec 32),
    (i = .jmp ⟨target - s.me.seq.pc⟩ ∧ sd = 0) ∨ i = .jal ⟨sd, target - s.me.seq.pc⟩ ∨
      (∃ sa, i = .jr ⟨sa⟩ ∧ sd = 0 ∧ target = (getS s.me sa).setWidth 32) ∨
      (∃ sa, i = .jalr ⟨sd, sa⟩ ∧ target = (getS s.me sa).setWidth 32) →
    Runs i s fun t => getS t.me sd = (if sd = 0 then 0 else (s.me.seq.pc + 1).setWidth 64) ∧ OnlyReg s.me t.me sd ∧
      WentTo s.me t.me target ∧ KeepsLoops s.me t.me ∧ KeepsUnits s.me t.me ∧ KeepsRest s t)

/-- R122 to R124 and R126: LOOP pushes an entry and enters its body, or skips it for a zero count, and is ILLEGAL OPERAND where
four loops are open; LOOPB rotates the bases of its entry and goes round while the count lasts; else, and under BREAK, it takes
the chart's snapshot, pops the entry and goes on; with no loop open it is ILLEGAL OPERAND. The words of LOOPB are those with the
fields R124 gives; others of its OP are RESERVED. -/
def Obligations.HardwareLoops : Prop :=
  (∀ (s : State) (o : LoopOp), lpValid (lstk s.me 3) = 0 →
    ((getS s.me o.sa).setWidth 32 = (0 : BitVec 32) →
      Runs (.loop o) s fun t => WentTo s.me t.me (s.me.seq.pc + o.len.setWidth 32 + 1) ∧ NoReg s.me t.me ∧
        KeepsLoops s.me t.me ∧ t.me.cn = { s.me.cn with events := t.me.cn.events } ∧ KeepsUnits s.me t.me ∧ KeepsRest s t) ∧
    ((getS s.me o.sa).setWidth 32 ≠ (0 : BitVec 32) →
      Runs (.loop o) s fun t => WentTo s.me t.me (s.me.seq.pc + 1) ∧ NoReg s.me t.me ∧
        lstk t.me 1 = lstk s.me 0 ∧ lstk t.me 2 = lstk s.me 1 ∧ lstk t.me 3 = lstk s.me 2 ∧
        lpCnt (lstk t.me 0) = (getS s.me o.sa).setWidth 32 ∧ lpValid (lstk t.me 0) = 1 ∧ lpPc (lstk t.me 0) = s.me.seq.pc ∧
        lpNorot (lstk t.me 0) = o.norot ∧
        (o.norot = 0 → lpNr (lstk t.me 0) = o.nr ∧ lpVrb (lstk t.me 0) = 0 ∧ lpPrb (lstk t.me 0) = 0) ∧
        (o.norot = 1 → lpNr (lstk t.me 0) = (if lpValid (lstk s.me 0) = 1 then lpNr (lstk s.me 0) else 0) ∧
          lpVrb (lstk t.me 0) = (if lpValid (lstk s.me 0) = 1 then lpVrb (lstk s.me 0) else 0) ∧
          lpPrb (lstk t.me 0) = (if lpValid (lstk s.me 0) = 1 then lpPrb (lstk s.me 0) else 0)) ∧
        t.me.cn = { s.me.cn with events := t.me.cn.events } ∧ t.me.seq.psum = s.me.seq.psum ∧ KeepsUnits s.me t.me ∧ KeepsRest s t)) ∧
  (∀ (s : State) (o : LoopOp) (w : IWord), lpValid (lstk s.me 3) = 1 → encode (.loop o) = some w →
    RaisesAt (.loop o) s 0x01 5 (w.setWidth 64)) ∧
  (∀ (s : State) (o : LoopbOp),
    let e := lstk s.me 0
    lpValid e = 1 → 1 < (lpCnt e).toNat →
      Runs (.loopb o) s fun t => WentTo s.me t.me (s.me.seq.pc + o.off.signExtend 32) ∧ NoReg s.me t.me ∧
        lpCnt (lstk t.me 0) = lpCnt e - 1 ∧ lpPc (lstk t.me 0) = lpPc e ∧ lpValid (lstk t.me 0) = 1 ∧
        lpNr (lstk t.me 0) = lpNr e ∧ lpNorot (lstk t.me 0) = lpNorot e ∧
        (lpNorot e = 1 → lpVrb (lstk t.me 0) = lpVrb e ∧ lpPrb (lstk t.me 0) = lpPrb e) ∧
        (lpNorot e = 0 → (lpPrb (lstk t.me 0)).toNat = ((lpPrb e).toNat + 7) % 8 ∧
          (lpNr e = 0 → lpVrb (lstk t.me 0) = lpVrb e) ∧
          (lpNr e ≠ 0 → (lpVrb (lstk t.me 0)).toNat =
            ((lpVrb e).toNat + 8 * (lpNr e).toNat - 1) % (8 * (lpNr e).toNat))) ∧
        (∀ j, j ≠ 0 → lstk t.me j = lstk s.me j) ∧ t.me.cn = { s.me.cn with events := t.me.cn.events } ∧ t.me.seq.psum = s.me.seq.psum ∧
        KeepsUnits s.me t.me ∧ KeepsRest s t) ∧
  (∀ (s : State) (i : Instr),
    let e := lstk s.me 0
    lpValid e = 1 → i = .loopbBreak ∨ ((lpCnt e).toNat ≤ 1 ∧ ∃ o, i = .loopb o) →
      Runs i s fun t => WentTo s.me t.me (s.me.seq.pc + 1) ∧ NoReg s.me t.me ∧
        lstk t.me 0 = lstk s.me 1 ∧ lstk t.me 1 = lstk s.me 2 ∧ lstk t.me 2 = lstk s.me 3 ∧ lstk t.me 3 = 0 ∧
        (∀ k, snapWord t.me (s.me.cn.snapN % 2) k = if k = 1024 then BitVec.ofNat 64 (s.me.cn.snapN + 1)
          else if k = 1025 then (lpPc e).setWidth 64 else if k = 1026 then BitVec.ofNat 64 s.time
          else (mapGet 0 s.me.cn.chart k).setWidth 64) ∧
        (∀ k, snapWord t.me (1 - s.me.cn.snapN % 2) k = snapWord s.me (1 - s.me.cn.snapN % 2) k) ∧
        t.me.cn.snapN = s.me.cn.snapN + 1 ∧ t.me.cn.chart = s.me.cn.chart ∧ t.me.cn.cnt = s.me.cn.cnt ∧ t.me.cn.k = s.me.cn.k ∧
        t.me.seq.psum = s.me.seq.psum ∧ KeepsUnits s.me t.me ∧ KeepsRest s t) ∧
  (∀ (s : State) (i : Instr) (w : IWord), lpValid (lstk s.me 0) = 0 → i = .loopbBreak ∨ (∃ o, i = .loopb o) →
    encode i = some w → RaisesAt i s 0x01 5 (w.setWidth 64)) ∧
  (∀ w : IWord, fld w 44 4 = 2 → fld w 38 6 = 0x0D →
    (fld w 32 6 = 0 → fld w 27 5 = 0 → fld w 26 1 = 0 → decode w = .ok (.loopb ⟨fld w 0 26⟩)) ∧
    (fld w 32 6 = 0 → fld w 27 5 = 0 → fld w 26 1 = 1 → fld w 0 26 = 0 → decode w = .ok .loopbBreak) ∧
    (fld w 32 6 ≠ 0 ∨ fld w 27 5 ≠ 0 ∨ (fld w 26 1 = 1 ∧ fld w 0 26 ≠ 0) → decode w = .illegal 3))

/-- R206 to R213 and R221: CSRR reads each register from its one home; RDTIME and RDCYC read the clock and the task's counts;
nothing else changes. -/
def Obligations.SystemReads : Prop :=
  (∀ (s : State) (sd : BitVec 6),
    let c := s.me
    let y := c.sys
    let reads (n : BitVec 12) (v : Word) : Prop := GivesScalar (.csrr ⟨sd, n⟩) s sd v
    reads 0x002 (y.launchid.setWidth 64) ∧ reads 0x005 y.rndseed ∧ reads 0x008 c.seq.psum ∧ reads 0x009 c.mx.mxevt ∧
    reads 0x00A y.wdlimit ∧ reads 0x00B y.wdcount ∧ reads 0x020 (y.trapvec.setWidth 64) ∧ reads 0x021 y.trapen ∧
    reads 0x022 (0#53 ++ (if y.inh then 1#1 else 0#1) ++ y.cause) ∧ reads 0x023 y.info0 ∧ reads 0x024 y.info1 ∧
    reads 0x025 (y.cutpc.setWidth 64) ∧ reads 0x026 (y.cutM.setWidth 64) ∧ reads 0x027 (y.cutV.setWidth 64) ∧
    reads 0x028 (y.cutC.setWidth 64) ∧ reads 0x029 (y.cutL.setWidth 64) ∧ reads 0x02A y.scr0 ∧ reads 0x02B y.scr1 ∧
    reads 0x030 (BitVec.ofNat 64 y.inboxBase) ∧ reads 0x031 (BitVec.ofNat 64 y.inboxSize) ∧
    reads 0x032 (BitVec.ofNat 64 y.inboxProd) ∧ reads 0x033 (BitVec.ofNat 64 y.inboxCons) ∧
    reads 0x034 (BitVec.ofNat 64 y.replyBase) ∧ reads 0x035 (BitVec.ofNat 64 y.replySize) ∧
    reads 0x036 (BitVec.ofNat 64 y.replyProd) ∧ reads 0x037 (BitVec.ofNat 64 y.replyCons) ∧ reads 0x041 y.timecmp ∧
    reads 0x010 ((lstk c 0).extractLsb' 0 64) ∧ reads 0x011 ((lstk c 0).extractLsb' 64 64) ∧
    reads 0x017 ((lstk c 3).extractLsb' 64 64) ∧ reads 0x050 (mapGet 0 y.lslot 0) ∧ reads 0x05F (mapGet 0 y.lslot 15)) ∧
  (∀ (s : State) (o : CsrrOp), GivesScalar (.csrr o) s o.sd (csrRead s o.sysno.toNat)) ∧
  (∀ (s : State) (o : DestOp), GivesScalar (.rdtime o) s o.sd (BitVec.ofNat 64 s.time)) ∧
  (∀ (s : State) (sd : BitVec 6),
    GivesScalar (.rdcyc ⟨sd, 0⟩) s sd (BitVec.ofNat 64 s.me.task.wall) ∧
    GivesScalar (.rdcyc ⟨sd, 1⟩) s sd (BitVec.ofNat 64 s.me.task.fcs) ∧
    GivesScalar (.rdcyc ⟨sd, 2⟩) s sd (BitVec.ofNat 64 s.me.task.frozen))

/-- R206 and R213: CSRW writes, CSRS sets and CSRC clears the register's writable bits; TRAPEN keeps only the causes that can be
enabled; a register that no task may write raises PRIV with its number. -/
def Obligations.SystemWrites : Prop :=
  (∀ (s : State) (sa : BitVec 6) (k : Nat), k < 3 →
    let x := getS s.me sa
    let op (n : BitVec 12) : Instr := if k = 0 then .csrw ⟨sa, n⟩ else if k = 1 then .csrs ⟨sa, n⟩ else .csrc ⟨sa, n⟩
    let mix (old m : Word) : Word := (if k = 0 then x else if k = 1 then old ||| x else old &&& ~~~ x) &&& m
    let all : Word := BitVec.allOnes 64
    let y := s.me.sys
    let wrote (n : BitVec 12) (z : SysSt) : Prop := Runs (op n) s fun t =>
      t.me.sys = z ∧ NoReg s.me t.me ∧ WentTo s.me t.me (s.me.seq.pc + 1) ∧ KeepsLoops s.me t.me ∧ KeepsQueues s.me t.me ∧
      t.me.vec = s.me.vec ∧ t.me.mx = s.me.mx ∧ t.me.h = s.me.h ∧ t.me.sp = s.me.sp ∧ t.me.cn.k = s.me.cn.k ∧ KeepsRest s t
    wrote 0x005 { y with rndseed := mix y.rndseed all } ∧
    wrote 0x020 { y with trapvec := (mix (y.trapvec.setWidth 64) all).setWidth 32 } ∧
    wrote 0x021 { y with trapen := mix y.trapen 0x771F301E } ∧
    wrote 0x025 { y with cutpc := (mix (y.cutpc.setWidth 64) all).setWidth 32 } ∧
    wrote 0x02A { y with scr0 := mix y.scr0 all } ∧
    wrote 0x02B { y with scr1 := mix y.scr1 all } ∧
    wrote 0x041 { y with timecmp := mix y.timecmp all, timer := false }) ∧
  (∀ (s : State) (sa : BitVec 6), Runs (.csrw ⟨sa, 0x008⟩) s fun t =>
    t.me.seq.psum = (s.me.seq.psum &&& ~~~ getS s.me sa) ||| s.me.seq.psumNew ∧ NoReg s.me t.me ∧ KeepsUnits s.me t.me ∧
    KeepsRest s t) ∧
  (∀ (s : State) (sa : BitVec 6) (n : BitVec 12) (w : IWord),
    (n.toNat ≤ 4 ∨ n = 0x006 ∨ n = 0x007 ∨ n = 0x00A ∨ n = 0x00B ∨ n = 0x022 ∨ n = 0x023 ∨ n = 0x024 ∨
      (0x026 ≤ n.toNat ∧ n.toNat ≤ 0x029) ∨ n = 0x032 ∨ n = 0x033 ∨ n = 0x036 ∨ 0x050 ≤ n.toNat) →
    (encode (.csrw ⟨sa, n⟩) = some w → RaisesAt (.csrw ⟨sa, n⟩) s 0x02 (n.setWidth 64) (w.setWidth 64)) ∧
    (encode (.csrs ⟨sa, n⟩) = some w → RaisesAt (.csrs ⟨sa, n⟩) s 0x02 (n.setWidth 64) (w.setWidth 64)) ∧
    (encode (.csrc ⟨sa, n⟩) = some w → RaisesAt (.csrc ⟨sa, n⟩) s 0x02 (n.setWidth 64) (w.setWidth 64)))

/-- R122, R294 and R309: the writes with rows of their own take the kind, source and number from the word at the PC. A loop-stack
write is taken only where the four entries stay legal; the inbox moves only while it is empty and fits; the reply
registers move only while no returning atomic is outstanding; either move restarts the producer and consumer counts. -/
def Obligations.OwnRowWrites : Prop :=
  ∀ (s : State) (k : CsrKind) (sa : BitVec 6) (n : Nat), csrAtPc s = (k, sa, n) →
    let x := getS s.me sa
    (n = 0x010 ∨ n = 0x012 ∨ n = 0x014 ∨ n = 0x016 → k = .write →
      let j := (n - 0x010) / 2
      let e := (lstk s.me j).extractLsb' 64 64 ++ (x &&& 0x801FFFFFFFFFFFFF)
      let g (i : Nat) := if i = j then e else lstk s.me i
      Runs .loopStackWrite s fun t =>
        (∀ i, lstk t.me i = if lstkLegal (g 0) (g 1) (g 2) (g 3) then g i else lstk s.me i) ∧ NoReg s.me t.me ∧
        t.me.seq.psum = s.me.seq.psum ∧ WentTo s.me t.me (s.me.seq.pc + 1) ∧ KeepsUnits s.me t.me ∧ KeepsRest s t) ∧
    (n = 0x031 → k = .write → s.me.sys.inboxProd = s.me.sys.inboxCons → s.me.sys.inboxRes = s.me.sys.inboxProd →
      s.me.sys.inboxBase % 128 = 0 → s.me.sys.inboxBase + 128 * (x.toNat % 2 ^ 17) ≤ 2 ^ 23 →
      Runs .inboxSpoolWrite s fun t =>
        t.me.sys = { s.me.sys with inboxSize := x.toNat % 2 ^ 17, inboxProd := 0, inboxCons := 0, inboxRes := 0 } ∧
        NoReg s.me t.me ∧ WentTo s.me t.me (s.me.seq.pc + 1) ∧ KeepsLoops s.me t.me ∧ t.me.sp = s.me.sp ∧ KeepsRest s t) ∧
    (n = 0x030 ∨ n = 0x031 → s.me.sys.inboxProd ≠ s.me.sys.inboxCons →
      Runs .inboxSpoolWrite s fun t => t.me.sys = s.me.sys ∧ NoReg s.me t.me ∧ WentTo s.me t.me (s.me.seq.pc + 1) ∧
        KeepsRest s t) ∧
    (n = 0x035 → k = .write → s.me.cmds = [] →
      Runs .replySpoolWrite s fun t =>
        t.me.sys = { s.me.sys with replySize := x.toNat % 2 ^ 17, replyProd := 0, replyCons := 0 } ∧
        NoReg s.me t.me ∧ WentTo s.me t.me (s.me.seq.pc + 1) ∧ KeepsLoops s.me t.me ∧ t.me.sp = s.me.sp ∧ KeepsRest s t) ∧
    (n = 0x034 ∨ n = 0x035 → (∃ m ∈ s.me.cmds, (∃ o, m.e.i = .acas o) ∨ ∃ o, m.e.i = .amo o ∧ o.ret = 1) →
      Runs .replySpoolWrite s fun t => t.me.sys = s.me.sys ∧ NoReg s.me t.me ∧ WentTo s.me t.me (s.me.seq.pc + 1) ∧ KeepsRest s t)

/-- R218 to R220: TRAP raises SW_TRAP with its code and the cut after itself, and counts; ERET leaves the handler for the
recorded PC and gives every queue a new origin; outside a handler it is ILLEGAL OPERAND. -/
def Obligations.TrapAndReturn : Prop :=
  (∀ (s : State) (o : TrapOp), s.me.trap = none →
    Runs (.trap o) s fun t =>
      t.me.trap = some ⟨0x1E, false, 0, true, o.code.setWidth 64, 0, s.me.seq.pc + 1⟩ ∧
      WentTo s.me t.me (s.me.seq.pc + 1) ∧ NoReg s.me t.me ∧ KeepsLoops s.me t.me ∧ KeepsQueues s.me t.me ∧ t.me.sys = s.me.sys ∧
      t.me.sp = s.me.sp ∧ KeepsRest s t) ∧
  (∀ (s : State) (o : BkptOp), s.me.trap = none →
    Runs (.bkpt o) s fun t =>
      t.me.trap = some ⟨0x1D, false, 0, true, o.code.setWidth 64, s.me.task.w + 1, s.me.seq.pc + 1⟩ ∧
      WentTo s.me t.me (s.me.seq.pc + 1) ∧ NoReg s.me t.me ∧ KeepsLoops s.me t.me ∧ KeepsQueues s.me t.me ∧ t.me.sys = s.me.sys ∧
      t.me.sp = s.me.sp ∧ KeepsRest s t) ∧
  (∀ s : State, s.me.sys.inh = true →
    Runs .eret s fun t =>
      WentTo s.me t.me s.me.sys.cutpc ∧ t.me.sys = { s.me.sys with inh := false } ∧ t.me.seq.reorig = true ∧
      (∀ q, (t.me.queue q).ents = (s.me.queue q).ents ∧ (t.me.queue q).next = (s.me.queue q).next ∧ (t.me.queue q).last = none) ∧
      NoReg s.me t.me ∧ KeepsLoops s.me t.me ∧ t.me.sp = s.me.sp ∧ t.me.vec = s.me.vec ∧ KeepsRest s t) ∧
  (∀ (s : State) (w : IWord), s.me.sys.inh = false → encode .eret = some w → RaisesAt .eret s 0x01 5 (w.setWidth 64))

/-- R295, R302 and R307: the waiting words complete once what they wait for is done, write what the rules say and leave the rest;
QSYNC read never waits; a word whose condition does not hold yet stays at the PC with its wait recorded, and executes nothing;
the end of a wait is the waiting word's own completion. -/
def Obligations.SyncWords : Prop :=
  (∀ (s : State) (o : QsyncOp),
    (queueDone (slackDry s.me) o.q.toNat = true →
      GivesAfterWait (.qsync o) s o.sd (BitVec.ofNat 64 (s.me.queue o.q.toNat).next)) ∧
    GivesAfterWait (.qsyncRead o) s o.sd (BitVec.ofNat 64 (s.me.queue o.q.toNat).next)) ∧
  (∀ (s : State) (o : QsyncUptoOp), queueDoneBefore (slackDry s.me) o.q.toNat ((getS s.me o.sa).toNat % 2 ^ 32) = true →
    GivesAfterWait (.qsyncUpto o) s o.sd (BitVec.ofNat 64 (s.me.queue o.q.toNat).next)) ∧
  (∀ (s : State) (o : FenceOp), o.scope ≠ 5 →
    (o.scope = 0 ∨ (allDone (slackDry s.me) = true ∧ setPerformed s s.cur o.scope.toNat = true)) →
    Runs (.fence o) s fun t => WentTo s.me t.me (s.me.seq.pc + 1) ∧ NoReg s.me t.me ∧ KeepsLoops s.me t.me ∧
      KeepsEngines s.me t.me ∧ t.me.sp.stale = [] ∧ t.me.sp.srace = [] ∧
      (o.scope ≠ 0 → ∀ e ∈ t.me.sp.erace, ∀ x ∈ e.2, 4 ≤ x.1) ∧ KeepsPad s.me t.me ∧
      (o.scope = 0 → KeepsQueues s.me t.me) ∧ (o.scope ≠ 0 → DriesQueues s.me t.me) ∧ KeepsRest s t) ∧
  (∀ (s : State) (o : FenceOp) (w : IWord), o.scope = 5 → encode (.fence o) = some w → RaisesAt (.fence o) s 0x01 5 (w.setWidth 64)) ∧
  (∀ (s : State) (o : PchkOp), allDone (slackDry s.me) = true →
    let m : Word := (o.mask.setWidth 64) <<< 1
    (s.me.seq.psum &&& m = 0 →
      Runs (.pchk o) s fun t => WentTo s.me t.me (s.me.seq.pc + 1) ∧ NoReg s.me t.me ∧ KeepsLoops s.me t.me ∧
        KeepsEngines s.me t.me ∧ DriesQueues s.me t.me ∧ t.me.sp = s.me.sp ∧ KeepsRest s t) ∧
    (s.me.seq.psum &&& m ≠ 0 →
      Runs (.pchk o) s fun t => WentTo s.me t.me (s.me.seq.pc + o.off.signExtend 32) ∧ NoReg s.me t.me ∧
        t.me.seq.psum = (if o.clr = 1 then (s.me.seq.psum &&& ~~~ m) ||| s.me.seq.psumNew else s.me.seq.psum) ∧
        t.me.seq.lstk = s.me.seq.lstk ∧ KeepsEngines s.me t.me ∧ DriesQueues s.me t.me ∧ t.me.sp = s.me.sp ∧ KeepsRest s t)) ∧
  (∀ (s : State) (o : RR), getS s.me o.sa &&& 0xF = 0 ∨ eventsWord s.me s.time &&& (getS s.me o.sa &&& 0xF) ≠ 0 →
    GivesAfterWait (.waitev o) s o.sd (eventsWord s.me s.time)) ∧
  (∀ (s : State), s.me.seq.wait = none →
    let waits (i : Instr) : Prop := Runs i s fun t => (∃ k, t.me.seq.wait = some (i, k)) ∧ t.me.seq.pc = s.me.seq.pc ∧
      t.me.task = s.me.task ∧ NoReg s.me t.me ∧ KeepsLoops s.me t.me ∧ KeepsEngines s.me t.me ∧ DriesQueues s.me t.me ∧
      t.me.sp = s.me.sp ∧ KeepsRest s t
    (∀ o : QsyncOp, queueDone (slackDry s.me) o.q.toNat = false → waits (.qsync o)) ∧
    (∀ o : PchkOp, allDone (slackDry s.me) = false → waits (.pchk o)) ∧
    (∀ o : FenceOp, o.scope ≠ 5 → o.scope ≠ 0 → allDone (slackDry s.me) = false ∨ setPerformed s s.cur o.scope.toNat = false →
      waits (.fence o)) ∧
    (∀ o : RR, getS s.me o.sa &&& 0xF ≠ 0 → eventsWord s.me s.time &&& (getS s.me o.sa &&& 0xF) = 0 → waits (.waitev o))) ∧
  (∀ (s : State) (o : QsyncOp) (k : Nat), s.me.seq.wait = some (.qsync o, k) → queueDone (slackDry s.me) o.q.toNat = true →
    Runs .sequencerWaitEnd s fun t => t.me.seq.wait = none ∧
      getS t.me o.sd = (if o.sd = 0 then 0 else BitVec.ofNat 64 (s.me.queue o.q.toNat).next) ∧ OnlyReg s.me t.me o.sd ∧
      WentTo s.me t.me (s.me.seq.pc + 1) ∧ KeepsEngines s.me t.me ∧ DriesQueues s.me t.me ∧ KeepsPad s.me t.me ∧ KeepsRest s t)

/-- R308, R321, R322 and R405 to R407: QFLUSH discards the unissued entries of its queues and leaves the handler, the
other queues keeping theirs, of which a WAITC counts no entry enqueued after it; TEXIT drains
the core; TREM records the remainder; SINIT sets a semaphore and refuses impossible values; SGET reads the semaphore as it
stood after the previous cycle; NOP does nothing. -/
def Obligations.QueueAndTaskControl : Prop :=
  (∀ s : State, Runs .nop s fun t => WentTo s.me t.me (s.me.seq.pc + 1) ∧ NoReg s.me t.me ∧ KeepsLoops s.me t.me ∧
    KeepsUnits s.me t.me ∧ KeepsRest s t) ∧
  (∀ (s : State) (o : QflushOp), Runs (.qflush o) s fun t =>
    (∀ q : Nat, q < 4 → (s.me.queue q).bwait = false → o.mask.getLsbD q = true → (t.me.queue q).ents = [] ∧
      (t.me.queue q).next = (match (s.me.queue q).ents with | [] => (s.me.queue q).next | e :: _ => e.seq)) ∧
    (∀ q : Nat, q < 4 → o.mask.getLsbD q = false → (t.me.queue q).next = (s.me.queue q).next ∧
      (t.me.queue q).ents = (s.me.queue q).ents.map fun e => match waitcSrc e.i with
        | some r => if seqEarlier (t.me.queue r).next e.sysv.toNat then { e with sysv := BitVec.ofNat 64 (t.me.queue r).next } else e
        | none => e) ∧
    t.me.sys = { s.me.sys with inh := false } ∧ NoReg s.me t.me ∧ WentTo s.me t.me (s.me.seq.pc + 1) ∧ KeepsLoops s.me t.me ∧
    t.me.cmds = s.me.cmds ∧ t.me.land = s.me.land ∧ t.me.sp = s.me.sp ∧ KeepsRest s t) ∧
  (∀ s : State, s.me.sys.inh = false → Runs .texit s fun t => t.me.life = .draining ∧
    (∀ q, (t.me.queue q).ents = (s.me.queue q).ents ∧ (t.me.queue q).running = false) ∧ t.me.sys = s.me.sys ∧
    WentTo s.me t.me (s.me.seq.pc + 1) ∧ NoReg s.me t.me ∧ KeepsLoops s.me t.me ∧ t.me.sp = s.me.sp ∧ KeepsRest s t) ∧
  (∀ (s : State) (o : SrcOp), Runs (.trem o) s fun t =>
    t.me.task.rem = min (getS s.me o.sa).toNat (2 ^ 32 - 1) ∧ t.me.task.remAt = s.me.task.fcs ∧ NoReg s.me t.me ∧
    WentTo s.me t.me (s.me.seq.pc + 1) ∧ KeepsLoops s.me t.me ∧ KeepsUnits s.me t.me ∧ KeepsRest s t) ∧
  (∀ (s : State) (o : SinitOp),
    let a := (getS s.me o.sa).toNat
    let b := (getS s.me o.sb).toNat
    (a ≤ b → b < 2 ^ 16 → mapGet 0 s.me.cn.kposts o.k.toNat = 0 → Runs (.sinit o) s fun t =>
      getSem t.me o.k.toNat = ⟨a, b, false⟩ ∧ (∀ j, j ≠ o.k.toNat → getSem t.me j = getSem s.me j) ∧ NoReg s.me t.me ∧
      WentTo s.me t.me (s.me.seq.pc + 1) ∧ KeepsLoops s.me t.me ∧ KeepsQueues s.me t.me ∧ t.me.sys = s.me.sys ∧ t.me.sp = s.me.sp ∧
      KeepsRest s t) ∧
    (∀ w, b < a ∨ 2 ^ 16 ≤ a ∨ 2 ^ 16 ≤ b → encode (.sinit o) = some w → RaisesAt (.sinit o) s 0x01 5 (w.setWidth 64))) ∧
  (∀ (s : State) (o : SgetOp),
    let k := mapGet Sem.zero s.me.cn.kprev o.k.toNat
    k.count < 2 ^ 16 → k.ceil < 2 ^ 16 →
    GivesScalar (.sget o) s o.sd (BitVec.ofNat 64 (k.count + k.ceil * 2 ^ 16 + (if k.ovf then 2 ^ 32 else 0))))

/-- R201: HLD of an aligned record in the tenant's line. A record in a line that is not CLEAN gives EMPTY and records the code; of a CLEAN
one, zeros give EMPTY, and a record whose seal, ASID and generation hold gives a VALID handle with the 64 bytes read; a seal that
does not hold is a SEAL violation, an ASID of another tenant an OWNER violation, and another generation raises HANDLE_REVOKED with
the family; an address out of range, a misaligned one and another tenant's line raise their causes; hd then keeps its handle. -/
def Obligations.HandleLoad : Prop :=
  ∀ (s : State) (o : HldOp),
    let a := (getS s.me o.sa + o.off.signExtend 64).toNat
    let x : BitVec 512 := BitVec.ofNat 512 (memReadNat s.me.sp.bytes a 64)
    let stops (cause : Nat) (i0 i1 : Word) : Prop := s.me.trap = none → Runs (.hld o) s fun t =>
      t.me.trap = some ⟨cause, false, 0, true, i0, i1, s.me.seq.pc⟩ ∧ t.me.frozenV = (s.me.frozenV || isViolation cause) ∧
      t.me.h = s.me.h ∧ t.me.seq.pc = s.me.seq.pc ∧ t.me.task = s.me.task ∧ NoReg s.me t.me ∧ KeepsQueues s.me t.me ∧
      KeepsPad s.me t.me ∧ KeepsRest s t
    let sealed : Prop := x = sealRec (panelKey s s.cur) x ∧ fieldOf x 404 44 = 0
    let owned : Prop := fieldOf (asidOf s (hAsid x)) 1 10 = s.me.sys.tenant
    (PadReach s.me a 64 → PadClean s.me → lineCode s.me (a / 128) ≠ 0 → Runs (.hld o) s fun t =>
      hreg t.me o.hd = Handle.none ∧ (∀ n, n ≠ o.hd → hreg t.me n = hreg s.me n) ∧ NoReg s.me t.me ∧
      WentTo s.me t.me (s.me.seq.pc + 1) ∧ t.me.seq.lstk = s.me.seq.lstk ∧
      t.me.seq.psum = s.me.seq.psum ||| (1#64 <<< (lineCode s.me (a / 128)).toNat) ∧ KeepsQueues s.me t.me ∧ KeepsPad s.me t.me ∧
      t.me.vec = s.me.vec ∧ t.me.mx = s.me.mx ∧ t.me.sys = s.me.sys ∧ t.me.cn.k = s.me.cn.k ∧ t.me.trap = s.me.trap ∧ KeepsRest s t) ∧
    (PadReach s.me a 64 → PadClean s.me → lineCode s.me (a / 128) = 0 →
      (x = 0 → GivesHandle (.hld o) s o.hd Handle.none) ∧
      (x ≠ 0 → sealed → owned → hGen x = genOf s s.me.sys.tenant (hFamily x) → GivesHandle (.hld o) s o.hd ⟨x, .valid⟩) ∧
      (x ≠ 0 → ¬sealed → stops 0x08 0 0) ∧
      (x ≠ 0 → sealed → ¬owned → stops 0x0B 0 0) ∧
      (x ≠ 0 → sealed → owned → hGen x ≠ genOf s s.me.sys.tenant (hFamily x) → stops 0x0C (BitVec.ofNat 64 (hFamily x)) 1)) ∧
    (2 ^ 23 ≤ a → RaisesAt (.hld o) s 0x04 (BitVec.ofNat 64 a) 1) ∧
    (a < 2 ^ 23 → 2 ^ 23 < a + 64 → RaisesAt (.hld o) s 0x04 (BitVec.ofNat 64 (2 ^ 23)) 1) ∧
    (a + 64 ≤ 2 ^ 23 → a % 64 ≠ 0 → RaisesAt (.hld o) s 0x03 (BitVec.ofNat 64 a) 1) ∧
    (a + 64 ≤ 2 ^ 23 → a % 64 = 0 → mapGet s.me.sp.tagDef s.me.sp.tag (a / 128) ≠ s.me.sys.tenant → RaisesAt (.hld o) s 0x0B 0 0)

/-- R202: HST writes the sealed record of a handle with STORABLE, 64 zero bytes for an EMPTY one, and nothing else; without
the right, or for a REVOKED handle, it writes nothing and raises its cause. -/
def Obligations.HandleStore : Prop :=
  ∀ (s : State) (o : HstOp),
    let a := (getS s.me o.sa + o.off.signExtend 64).toNat
    PadReach s.me a 64 → PadClean s.me →
    ((hreg s.me o.ha).st ≠ .revoked → ((hreg s.me o.ha).st = .valid → hasRight (hreg s.me o.ha).bits 6 = true) →
      Runs (.hst o) s fun t =>
        (∀ y, memRead t.me.sp.bytes y = if a ≤ y ∧ y < a + 64 then
            (if (hreg s.me o.ha).st = .valid then BitVec.ofNat 8 ((hreg s.me o.ha).bits.toNat / 256 ^ (y - a)) else 0)
          else memRead s.me.sp.bytes y) ∧
        (∀ l, lineCode t.me l = lineCode s.me l) ∧ NoReg s.me t.me ∧ WentTo s.me t.me (s.me.seq.pc + 1) ∧ KeepsLoops s.me t.me ∧
        KeepsEngines s.me t.me ∧ KeepsQueues s.me t.me ∧ KeepsRest s t) ∧
    ((hreg s.me o.ha).st = .revoked → RaisesAt (.hst o) s 0x0C (o.ha.setWidth 64) 0) ∧
    ((hreg s.me o.ha).st = .valid → hasRight (hreg s.me o.ha).bits 6 = false → RaisesAt (.hst o) s 0x09 0 0)

/-- R203 to R205: the words that derive, drop, move and clear handles, and HFIELD, which reads one field. -/
def Obligations.HandleWords : Prop :=
  (∀ (s : State) (o : HnarrowOp),
    let h := hreg s.me o.ha
    let start := (getS s.me o.sa).toNat
    let ext := (getS s.me o.sb).toNat
    let d := o.dim.toNat
    h.st = .valid →
    (hasRight h.bits 5 = false → RaisesAt (.hnarrow o) s 0x09 0 0) ∧
    (hasRight h.bits 5 = true → d ≤ hRankm1 h.bits → ext ≠ 0 →
      (hExt h.bits d < start + ext → RaisesAt (.hnarrow o) s 0x0A 0 0) ∧
      (start + ext ≤ hExt h.bits d → narrowBad h.bits d start = false →
        GivesHandle (.hnarrow o) s o.hd ⟨sealRec (panelKey s s.cur) (narrowed h.bits d start ext), .valid⟩))) ∧
  (∀ (s : State) (o : HrangeOp),
    let h := hreg s.me o.ha
    let a := (getS s.me o.sa).toNat
    let b := (getS s.me o.sb).toNat
    h.st = .valid → hasRight h.bits 5 = true → o.ppol ≠ 3 → a < 2 ^ 32 → b < 2 ^ 32 → fvIsNan (fdecode f32 a) = false →
    fvIsNan (fdecode f32 b) = false → 0 < fvCmp (fdecode f32 a) (fdecode f32 (hBlo h.bits)) →
    fvCmp (fdecode f32 b) (fdecode f32 (hBhi h.bits)) < 0 → fvCmp (fdecode f32 a) (fdecode f32 b) ≤ 0 →
    hBpol h.bits ≤ o.bpol.toNat → ppolRank (hPpol h.bits) ≤ ppolRank o.ppol.toNat →
    GivesHandle (.hnarrowRange o) s o.hd ⟨sealRec (panelKey s s.cur)
      (setField (setField (setField (setField h.bits 280 32 a) 312 32 b) 344 2 o.bpol.toNat) 346 2 o.ppol.toNat), .valid⟩) ∧
  (∀ (s : State) (o : HdropOp),
    let h := hreg s.me o.ha
    (h.st = .valid → GivesHandle (.hdrop o) s o.hd ⟨sealRec (panelKey s s.cur)
      (setField h.bits 358 12 (hRights h.bits &&& (0xFFF ^^^ o.mask.toNat))), .valid⟩) ∧
    (h.st ≠ .valid → GivesHandle (.hdrop o) s o.hd h)) ∧
  (∀ (s : State) (o : HmovOp), GivesHandle (.hmov o) s o.hd (hreg s.me o.ha)) ∧
  (∀ (s : State) (o : HclrOp), GivesHandle (.hclr o) s o.hd Handle.none) ∧
  (∀ (s : State) (o : HfieldOp), o.field.toNat ≤ 20 → (hreg s.me o.ha).st ≠ .valid → GivesScalar (.hfield o) s o.sd 0) ∧
  (∀ (s : State) (ha : BitVec 5) (sd : BitVec 6),
    let h := hreg s.me ha
    GivesScalar (.hfield ⟨ha, sd, 21⟩) s sd (match h.st with | .empty => 0 | .valid => 1 | .revoked => 2) ∧
    (h.st = .valid → GivesScalar (.hfield ⟨ha, sd, 0⟩) s sd (BitVec.ofNat 64 (hBase h.bits)) ∧
      GivesScalar (.hfield ⟨ha, sd, 1⟩) s sd (BitVec.ofNat 64 (hExt h.bits 0)) ∧
      GivesScalar (.hfield ⟨ha, sd, 4⟩) s sd (BitVec.ofNat 64 (hExt h.bits 3)) ∧
      GivesScalar (.hfield ⟨ha, sd, 5⟩) s sd (BitVec.ofNat 64 (hPitch h.bits 1)) ∧
      GivesScalar (.hfield ⟨ha, sd, 16⟩) s sd (BitVec.ofNat 64 (hFmt h.bits)) ∧
      GivesScalar (.hfield ⟨ha, sd, 20⟩) s sd (BitVec.ofNat 64 (hAsid h.bits))))

/-- R174, R176 and R235: GCFG loads a stream record that passes the checks; GSET replaces one field; either raises STREAM_CFG with
the failing field and the stream, writing nothing; GRD reads a field; LSET sets a landing slot. -/
def Obligations.StreamWords : Prop :=
  (∀ (s : State) (o : GcfgOp),
    let a := (getS s.me o.sa + o.off.signExtend 64).toNat
    let g : BitVec 256 := BitVec.ofNat 256 (memReadNat s.me.sp.bytes a 32)
    PadReach s.me a 32 → PadClean s.me →
    (gCheck g = none → GivesStream (.gcfg o) s o.g g) ∧ (∀ f, gCheck g = some f → RaisesAt (.gcfg o) s 0x19 (BitVec.ofNat 64 f)
      (o.g.setWidth 64))) ∧
  (∀ (s : State) (o : GsetOp), o.field.toNat ≤ 16 →
    let v := getS s.me o.sa
    let lo := (gFieldPos o.field.toNat).1
    let len := (gFieldPos o.field.toNat).2.1
    let signed := (gFieldPos o.field.toNat).2.2
    let fits := (signed = true → -(2 ^ (len - 1) : Int) ≤ v.toInt ∧ v.toInt < 2 ^ (len - 1)) ∧ (signed = false → v.toNat < 2 ^ len)
    (¬fits → RaisesAt (.gset o) s 0x19 (o.field.setWidth 64) (o.g.setWidth 64)) ∧
    (fits → ∃ g : BitVec 256,
      (∀ i, i < 256 → g.getLsbD i = if lo ≤ i ∧ i < lo + len then v.getLsbD (i - lo) else (getG s.me o.g).getLsbD i) ∧
      (gCheck g = none → GivesStream (.gset o) s o.g g) ∧
      (∀ f, gCheck g = some f → RaisesAt (.gset o) s 0x19 (BitVec.ofNat 64 f) (o.g.setWidth 64)))) ∧
  (∀ (s : State) (o : GrdOp), o.field.toNat ≤ 16 →
    let lo := (gFieldPos o.field.toNat).1
    let len := (gFieldPos o.field.toNat).2.1
    ∃ v : Word, (∀ i, i < 64 → v.getLsbD i = if i < len then (getG s.me o.g).getLsbD (lo + i)
        else (gFieldPos o.field.toNat).2.2 && (getG s.me o.g).getLsbD (lo + len - 1)) ∧ GivesScalar (.grd o) s o.sd v) ∧
  (∀ (s : State) (o : LsetOp),
    let a := getS s.me o.sa
    let b := getS s.me o.sb
    (a.toNat < 2 ^ 20 → b.toNat < 2 ^ 16 → Runs (.lset o) s fun t =>
      mapGet 0 t.me.sys.lslot o.l.toNat = o.q.setWidth 64 + (o.policy.setWidth 64 <<< 2) + (a <<< 4) + (b <<< 24) + (1#64 <<< 63) ∧
      (∀ n, n ≠ o.l.toNat → mapGet 0 t.me.sys.lslot n = mapGet 0 s.me.sys.lslot n) ∧ NoReg s.me t.me ∧
      WentTo s.me t.me (s.me.seq.pc + 1) ∧ KeepsLoops s.me t.me ∧ KeepsQueues s.me t.me ∧ t.me.sp = s.me.sp ∧ t.me.h = s.me.h ∧
      t.me.mx = s.me.mx ∧ t.me.vec = s.me.vec ∧ KeepsRest s t) ∧
    (∀ w, 2 ^ 20 ≤ a.toNat ∨ 2 ^ 16 ≤ b.toNat → encode (.lset o) = some w → RaisesAt (.lset o) s 0x01 5 (w.setWidth 64)))

/-- R411, R413 and R414: CNTR reads what its kind names, kind 1 leaving the high half in the shadow; CNTW writes a counter that the
hypervisor does not hold, clears WRAP by a one, or clears the chart. -/
def Obligations.CounterWords : Prop :=
  (∀ (s : State) (o : CntrOp),
    let c := s.me
    let n := o.n.toNat
    let i := (getS c o.sa).toNat
    (o.kind = 0 → GivesScalar (.cntr o) s o.sd (guestValue c n)) ∧
    (o.kind = 1 → GivesScalar (.cntr o) s o.sd (((guestValue c n).extractLsb' 0 32).setWidth 64) ∧
      Runs (.cntr o) s fun t => t.me.cn.cntsh = (guestValue c n).extractLsb' 32 32) ∧
    (o.kind = 2 → GivesScalar (.cntr o) s o.sd (c.cn.cntsh.setWidth 64)) ∧
    (o.kind = 3 → GivesScalar (.cntr o) s o.sd (guestCfg c n)) ∧
    (o.kind = 4 → i < 1024 → GivesScalar (.cntr o) s o.sd ((mapGet 0 c.cn.chart i).setWidth 64)) ∧
    (o.kind = 5 → i < 1027 → GivesScalar (.cntr o) s o.sd (mapGet 0 (if o.half = 0 then c.cn.snap0 else c.cn.snap1) i)) ∧
    (o.kind = 6 → GivesScalar (.cntr o) s o.sd c.task.w) ∧
    (o.kind = 7 → GivesScalar (.cntr o) s o.sd (c.cn.roll.extractLsb' (64 * n) 64)) ∧
    (∀ w, (o.kind = 4 ∧ 1024 ≤ i) ∨ (o.kind = 5 ∧ 1027 ≤ i) → encode (.cntr o) = some w →
      RaisesAt (.cntr o) s 0x01 5 (w.setWidth 64))) ∧
  (∀ (s : State) (o : CntwOp),
    let n := o.n.toNat
    let v := getS s.me o.sa
    let wrote (i : Instr) (x : Counter) : Prop := Runs i s fun t => cntOf t.me n = x ∧
      (∀ m, m ≠ n → cntOf t.me m = cntOf s.me m) ∧ NoReg s.me t.me ∧ WentTo s.me t.me (s.me.seq.pc + 1) ∧ KeepsLoops s.me t.me ∧
      KeepsQueues s.me t.me ∧ t.me.sp = s.me.sp ∧ t.me.sys = s.me.sys ∧ t.me.cn.k = s.me.cn.k ∧ t.me.cn.chart = s.me.cn.chart ∧
      KeepsRest s t
    (s.me.cn.claim.getLsbD n = false → wrote (.cntwValue o) { cntOf s.me n with value := v }) ∧
    (s.me.cn.claim.getLsbD n = true → wrote (.cntwValue o) (cntOf s.me n)) ∧
    (s.me.cn.claim.getLsbD n = false → v.toNat % 256 < 0x1C →
      wrote (.cntwCfg o) { cntOf s.me n with cfg := (v &&& 0x3FF) ||| (if v.getLsbD 10 then 0 else (cntOf s.me n).cfg &&& 0x400) }) ∧
    (∀ w, 0x1C ≤ v.toNat % 256 → encode (.cntwCfg o) = some w → RaisesAt (.cntwCfg o) s 0x01 5 (w.setWidth 64))) ∧
  (∀ s : State, Runs .cntwChartClear s fun t => t.me.cn.chart = [] ∧ t.me.cn.cnt = s.me.cn.cnt ∧ t.me.cn.k = s.me.cn.k ∧
    NoReg s.me t.me ∧ WentTo s.me t.me (s.me.seq.pc + 1) ∧ KeepsLoops s.me t.me ∧ KeepsQueues s.me t.me ∧ t.me.sp = s.me.sp ∧
    t.me.sys = s.me.sys ∧ KeepsRest s t)

/-- R309, R315 and R316: MRECV answers the address of the oldest message, FREE gives its lines back first, once
where a cut takes the word out of its wait (R303; which of the two the rules leave open, log entry 59), POLL answers all
ones where none is there; FREE without a message is ILLEGAL OPERAND; MPEEK reads the ring's counts. -/
def Obligations.InboxWords : Prop :=
  (∀ (s : State) (o : MrecvOp),
    let y := s.me.sys
    let head (cons : Nat) : Nat := y.inboxBase + 128 * (cons % max 1 y.inboxSize)
    let at_ := head y.inboxCons + 1
    let next := (y.inboxCons + (padValue s.me at_ 1).toNat % 32 + 2) % 2 ^ 32
    (o.free = 0 → o.poll = 0 → y.inboxProd ≠ y.inboxCons → GivesAfterWait (.mrecv o) s o.sd (BitVec.ofNat 64 (head y.inboxCons))) ∧
    (o.free = 0 → o.poll = 1 → y.inboxProd = y.inboxCons → GivesScalar (.mrecv o) s o.sd (BitVec.allOnes 64)) ∧
    (o.free = 0 → o.poll = 0 → y.inboxProd = y.inboxCons → s.me.seq.wait = none → Runs (.mrecv o) s fun t =>
      t.me.seq.wait = some (.mrecv o, 0) ∧ t.me.seq.pc = s.me.seq.pc ∧ t.me.task = s.me.task ∧ NoReg s.me t.me ∧ KeepsRest s t) ∧
    (o.free = 1 → o.poll = 0 → s.me.seq.wait = none → freedAt s.me ≠ some s.me.seq.pc → y.inboxProd ≠ y.inboxCons → y.inboxProd = next →
      Runs (.mrecv o) s fun t => t.me.seq.wait = some (.mrecv o, 0) ∧ t.me.sys = { y with inboxCons := next } ∧
        freedAt t.me = some s.me.seq.pc ∧ t.me.seq.pc = s.me.seq.pc ∧ t.me.task = s.me.task ∧ NoReg s.me t.me ∧ KeepsRest s t) ∧
    (o.free = 1 → o.poll = 0 → s.me.seq.wait = none → freedAt s.me = some s.me.seq.pc → y.inboxProd ≠ y.inboxCons →
      GivesAfterWait (.mrecv o) s o.sd (BitVec.ofNat 64 (head y.inboxCons))) ∧
    (o.free = 1 → o.poll = 1 → s.me.seq.wait = none → freedAt s.me ≠ some s.me.seq.pc → y.inboxProd ≠ y.inboxCons →
      mapGet false s.me.sp.dbe (at_ / 8) = false → bankAwake s.me (bankOf (at_ / 128)) = true → Runs (.mrecv o) s fun t =>
      t.me.sys = { y with inboxCons := next } ∧
      getS t.me o.sd = (if o.sd = 0 then 0 else if y.inboxProd = next then BitVec.allOnes 64 else BitVec.ofNat 64 (head next)) ∧
      OnlyReg s.me t.me o.sd ∧ WentTo s.me t.me (s.me.seq.pc + 1) ∧ KeepsLoops s.me t.me ∧ KeepsQueues s.me t.me ∧
      KeepsPad s.me t.me ∧ t.me.msgs = s.me.msgs ∧ KeepsRest s t) ∧
    (∀ w, o.free = 1 → s.me.seq.wait = none → freedAt s.me ≠ some s.me.seq.pc → y.inboxProd = y.inboxCons → o.poll = 1 → encode (.mrecv o) = some w →
      RaisesAt (.mrecv o) s 0x01 5 (w.setWidth 64))) ∧
  (∀ (s : State) (o : DestOp), s.me.sys.inboxCons ≤ s.me.sys.inboxProd → s.me.sys.inboxProd < 2 ^ 32 →
    GivesScalar (.mpeek o) s o.sd (BitVec.ofNat 64 (s.me.sys.inboxProd - s.me.sys.inboxCons + inboxFree s.me % 2 ^ 32 * 2 ^ 32)))

/-- R211, R317 to R319 and R323: LIVE puts a descriptor in force; TSPAWN, acknowledged, adds its record; TJOIN, acknowledged,
takes its count off the join counter of the spawned record. -/
def Obligations.TaskWords : Prop :=
  (∀ (s : State) (o : LiveOp),
    let a := (getS s.me o.sa + o.imm.signExtend 64).toNat
    let x : BitVec 512 := BitVec.ofNat 512 (memReadNat s.me.sp.bytes a 64)
    PadReach s.me a 64 → PadClean s.me → lineCode s.me (a / 128) = 0 → fieldOf x 312 8 = 0 → fieldOf x 384 128 = 0 →
    Runs (.live o) s fun t => t.me.sys = { s.me.sys with livedesc := a, lvalid := true, live := x } ∧ t.me.vec.dup = [] ∧
      t.me.vec.v = s.me.vec.v ∧ t.me.vec.p = s.me.vec.p ∧ NoReg s.me t.me ∧ WentTo s.me t.me (s.me.seq.pc + 1) ∧
      KeepsLoops s.me t.me ∧ KeepsQueues s.me t.me ∧ KeepsPad s.me t.me ∧ t.me.h = s.me.h ∧ t.me.mx = s.me.mx ∧ KeepsRest s t) ∧
  (∀ (s : State) (o : SrcOp) (x : BitVec 512) (ack : Nat), s.me.seq.wait = some (.tspawn o, x.toNat * 2 ^ 64 + ack) → 0 < ack →
    ack < 2 ^ 64 → ack ≤ s.cyc → templateOk s x = true →
    Runs (.tspawn o) s fun t => t.sched = { s.sched with
        recs := mapPut s.sched.recs s.sched.nextRec (spawnRec s x), nextRec := s.sched.nextRec + 1 } ∧
      t.me.seq.wait = none ∧ NoReg s.me t.me ∧ WentTo s.me t.me (s.me.seq.pc + 1) ∧ KeepsLoops s.me t.me ∧
      KeepsEngines s.me t.me ∧ t.me.sp = s.me.sp ∧ t.dev = s.dev ∧ t.ctxs = s.ctxs ∧ ∀ n, n ≠ s.cur → t.core n = s.core n) ∧
  (∀ (s : State) (o : TjoinOp) (ack k : Nat) (r : TRec),
    let d := (getS s.me o.sb).toNat
    s.me.seq.wait = some (.tjoin o, ack) → 0 < ack → ack ≤ s.cyc → 0 < d → d ≤ r.join → d < 2 ^ 32 →
    (s.sched.recs.find? fun e => decide (e.2.lk = s.me.task.launch) && e.2.spawned && decide (e.2.index = (getS s.me o.sa).toNat)
      && decide (e.2.join ≠ 0)) = some (k, r) →
    Runs (.tjoin o) s fun t => (∃ r', t.sched.recs = mapPut s.sched.recs k r' ∧ r'.join = r.join - d ∧ r'.entry = r.entry ∧
        r'.index = r.index ∧ (d < r.join → r'.readyAt = r.readyAt) ∧ (d = r.join → r'.readyAt = s.cyc)) ∧
      t.me.seq.wait = none ∧ NoReg s.me t.me ∧ WentTo s.me t.me (s.me.seq.pc + 1) ∧ KeepsLoops s.me t.me ∧
      KeepsEngines s.me t.me ∧ t.me.sp = s.me.sp ∧ t.dev = s.dev ∧ t.ctxs = s.ctxs ∧ ∀ n, n ≠ s.cur → t.core n = s.core n)

/-- R270 to R272 and R429: RREL without recovery is a wait that gives 0; with an open interval it counts the release and gives the
interval's number, and with poison in PSUM it raises POISON_RECOVERY; RPGET and RSTAT read the context; ROLLCALL answers the
time of its core's latched record. -/
def Obligations.RecoveryWords : Prop :=
  (∀ (s : State) (o : DestOp),
    let x := ctxOf s s.me.sys.casid
    (x.st = 0 → allDone (slackDry s.me) = true → setPerformed s s.cur 4 = true → GivesAfterWait (.rrel o) s o.sd 0) ∧
    (x.st = 1 → allDone (slackDry s.me) = true → setPerformed s s.cur 5 = true → s.me.seq.psum &&& 0x1E = 0 → x.rel.contains s.cur = false →
      Runs (.rrel o) s fun t => getS t.me o.sd = (if o.sd = 0 then 0 else BitVec.ofNat 64 x.iv) ∧ OnlyReg s.me t.me o.sd ∧
        WentTo s.me t.me (s.me.seq.pc + 1) ∧ KeepsLoops s.me t.me ∧ (ctxOf t s.me.sys.casid).rel = x.rel ++ [s.cur] ∧
        (ctxOf t s.me.sys.casid).nrel = x.nrel + 1 ∧ (ctxOf t s.me.sys.casid).log = x.log ∧ t.dev = s.dev ∧
        ∀ n, n ≠ s.cur → t.core n = s.core n) ∧
    (x.st ≠ 0 → s.me.seq.wait = none → s.me.seq.psum &&& 0x1E ≠ 0 → s.me.trap = none → Runs (.rrel o) s fun t =>
      t.me.trap = some ⟨0x13, false, 0, true, s.me.seq.psum, 0, s.me.seq.pc⟩ ∧ t.me.seq.pc = s.me.seq.pc ∧ NoReg s.me t.me ∧
      t.ctxs = s.ctxs) ∧
    GivesScalar (.rstat o) s o.sd (BitVec.ofNat 64 (if x.st = 0 then 0 else (if x.rel.contains s.cur then 1 else 0)
      + (if (x.held.any fun h => decide (h.core = s.cur)) || heldAtom s s.cur s.me.sys.casid then 2 else 0) + (if x.st = 6 then 4 else 0) + x.iv % 2 ^ 32 * 2 ^ 32))) ∧
  (∀ (s : State) (sd : BitVec 6),
    let x := ctxOf s s.me.sys.casid
    (x.st = 0 → ∀ n, GivesScalar (.rpget ⟨sd, n⟩) s sd 0) ∧
    (x.st ≠ 0 → GivesScalar (.rpget ⟨sd, 0⟩) s sd (BitVec.ofNat 64 x.point) ∧
      GivesScalar (.rpget ⟨sd, 1⟩) s sd (BitVec.ofNat 64 (x.st + (if x.diverged then 8 else 0) + (if x.full then 16 else 0)
        + x.nrel % 2 ^ 16 * 2 ^ 16 + x.members.length % 2 ^ 16 * 2 ^ 32)) ∧
      GivesScalar (.rpget ⟨sd, 2⟩) s sd (BitVec.ofNat 64 (x.log.length % 2 ^ 32 + logRoom s s.me.sys.casid * 2 ^ 32)) ∧
      GivesScalar (.rpget ⟨sd, 3⟩) s sd (BitVec.ofNat 64 (x.jrn.length % 2 ^ 32 + jrnRoom s s.me.sys.casid * 2 ^ 32)))) ∧
  (∀ (s : State) (o : DestOp) (k : Nat), s.me.seq.wait = some (.rollcall o, k) → s.meas.rc = none →
    GivesAfterWait (.rollcall o) s o.sd (s.me.cn.roll.extractLsb' 64 64))

/-- R137 to R140: the lane-wise floating-point words. Every active lane takes the exact function of its source lanes rounded
once to the lane type; VADD to VNEG land 3 or 4 fc after issue, the fused words 5, the transcendental words 12, VSCALE 3. -/
def Obligations.VectorFloatWords : Prop :=
  ∀ (s : State) (t : VTy),
    let w := vtyBytes t
    let k := vtySpec t
    let pick (a b c : VR3 → Instr) : VR3 → Instr := match t with
      | .f32 => a
      | .bf16 => b
      | .f16 => c
    let pick1 (a b c : VR2 → Instr) : VR2 → Instr := match t with
      | .f32 => a
      | .bf16 => b
      | .f16 => c
    let lane (n : BitVec 10) (j : Nat) : FVal := fdecode k (laneOf w (vreg s.me n).bits j)
    let code (n : BitVec 10) (j : Nat) : BitVec 2 := codeAt (vreg s.me n).codes (w * j / 128)
    (∀ (o : VR3) (x : (VR3 → Instr) × Nat × (FVal → FVal → FVal)),
      x ∈ [(pick .vaddF32 .vaddBf16 .vaddF16, 3, fvAdd), (pick .vsubF32 .vsubBf16 .vsubF16, 3, fun a b => fvAdd a (fvNeg b)),
        (pick .vmulF32 .vmulBf16 .vmulF16, 4, fvMul), (pick .vmaxF32 .vmaxBf16 .vmaxF16, 3, fvMinMax true),
        (pick .vminF32 .vminBf16 .vminF16, 3, fvMinMax false)] →
      LandsLanes (x.1 o) s w x.2.1 o.vd o.pg (fun j => fresult k (x.2.2 (lane o.va j) (lane o.vb j)))
        fun j => maxCode (code o.va j) (code o.vb j)) ∧
    (∀ (o : VR3) (x : (VR3 → Instr) × (FVal → FVal → FVal → FVal)),
      x ∈ [(pick .vfmaF32 .vfmaBf16 .vfmaF16, fvFma), (pick .vfmsF32 .vfmsBf16 .vfmsF16, fun a b d => fvAdd (fvMul a b) (fvNeg d)),
        (pick .vfnmaF32 .vfnmaBf16 .vfnmaF16, fun a b d => fvAdd (fvNeg (fvMul a b)) d)] →
      LandsLanes (x.1 o) s w 5 o.vd o.pg (fun j => fresult k (x.2 (lane o.va j) (lane o.vb j) (lane o.vd j)))
        fun j => maxCodes [code o.va j, code o.vb j, code o.vd j]) ∧
    (∀ (o : VR2) (x : (VR2 → Instr) × Nat × (FVal → FVal)),
      x ∈ [(pick1 .vabsF32 .vabsBf16 .vabsF16, 3, fvAbs), (pick1 .vnegF32 .vnegBf16 .vnegF16, 3, fvNeg),
        (pick1 .vrcpF32 .vrcpBf16 .vrcpF16, 12, fvRcp), (pick1 .vrsqF32 .vrsqBf16 .vrsqF16, 12, fvRsq),
        (pick1 .vsqrtF32 .vsqrtBf16 .vsqrtF16, 12, fvSqrt), (pick1 .vexp2F32 .vexp2Bf16 .vexp2F16, 12, fvExp2),
        (pick1 .vlog2F32 .vlog2Bf16 .vlog2F16, 12, fvLog2), (pick1 .vtanhF32 .vtanhBf16 .vtanhF16, 12, fvTanh)] →
      LandsLanes (x.1 o) s w x.2.1 o.vd o.pg (fun j => fresult k (x.2.2 (lane o.va j))) (code o.va)) ∧
    (∀ o : VR3, LandsLanes (pick .vscaleF32 .vscaleBf16 .vscaleF16 o) s w 3 o.vd o.pg
      (fun j => fresult k (fvScale (clampInt (-1024) 1024 (sintOf (8 * w) (laneOf w (vreg s.me o.vb).bits j))) (lane o.va j)))
      fun j => maxCode (code o.va j) (code o.vb j))

/-- R141 and R142: the integer and logic words on 32-bit lanes, and VIOTA, which writes the lane numbers; they land 2 fc after
issue. VXOR of a register with itself into itself under p0 clears its codes (R141; that the word's sources then bring none is the model's
reading, log entry 158). -/
def Obligations.VectorIntegerWords : Prop :=
  ∀ s : State,
    let lane (n : BitVec 10) (j : Nat) : BitVec 32 := BitVec.ofNat 32 (laneOf 4 (vreg s.me n).bits j)
    let code (n : BitVec 10) (j : Nat) : BitVec 2 := codeAt (vreg s.me n).codes (j / 32)
    (∀ (o : VR3) (x : (VR3 → Instr) × (BitVec 32 → BitVec 32 → BitVec 32)),
      x ∈ ([(.viadd, fun a b => a + b), (.visub, fun a b => a - b), (.vimul, fun a b => a * b),
        (.vimin, fun a b => if a.slt b then a else b), (.vimax, fun a b => if a.slt b then b else a),
        (.vand, fun a b => a &&& b), (.vor, fun a b => a ||| b),
        (.vshl, fun a b => a <<< (b.toNat % 32)), (.vshr, fun a b => a >>> (b.toNat % 32)),
        (.vsar, fun a b => a.sshiftRight (b.toNat % 32))] : List ((VR3 → Instr) × (BitVec 32 → BitVec 32 → BitVec 32))) →
      LandsLanes (x.1 o) s 4 2 o.vd o.pg (fun j => (x.2 (lane o.va j) (lane o.vb j)).toNat)
        fun j => maxCode (code o.va j) (code o.vb j)) ∧
    (∀ o : VR3, LandsLanes (.vxor o) s 4 2 o.vd o.pg (fun j => (lane o.va j ^^^ lane o.vb j).toNat)
      fun j => if o.pg = 0 ∧ o.vd = o.va ∧ o.va = o.vb then 0 else maxCode (code o.va j) (code o.vb j)) ∧
    (∀ o : VR1, LandsLanes (.viota o) s 4 2 o.vd o.pg (fun j => j) fun _ => 0)

/-- R143 to R145: the compares set all predicate bits of every active lane, VSEL merges two registers byte by byte, and VPLOG
computes a bitwise function of two predicates. -/
def Obligations.CompareAndSelect : Prop :=
  ∀ s : State,
    (∀ (t : VTy) (o : VCmpOp),
      let i : Instr := match t with
        | .f32 => .vcmpF32 o
        | .bf16 => .vcmpBf16 o
        | .f16 => .vcmpF16 o
      let lane (n : BitVec 10) (j : Nat) : FVal := fdecode (vtySpec t) (laneOf (vtyBytes t) (vreg s.me n).bits j)
      LandsBits i s (vtyBytes t) o.pd o.pg (fun j => fvCond o.cond.toNat (lane o.va j) (lane o.vb j))
        fun j => maxCode (codeAt (vreg s.me o.va).codes (vtyBytes t * j / 128)) (codeAt (vreg s.me o.vb).codes (vtyBytes t * j / 128))) ∧
    (∀ o : VCmpOp,
      let lane (n : BitVec 10) (j : Nat) : BitVec 32 := BitVec.ofNat 32 (laneOf 4 (vreg s.me n).bits j)
      let r (c : Nat) (a b : BitVec 32) : Bool := match c with
        | 0 => a == b
        | 1 => a != b
        | 2 => a.slt b
        | 3 => a.sle b
        | 4 => b.slt a
        | 5 => b.sle a
        | 8 => a.ult b
        | 9 => a.ule b
        | 10 => b.ult a
        | _ => b.ule a
      LandsBits (.vicmp o) s 4 o.pd o.pg (fun j => r o.cond.toNat (lane o.va j) (lane o.vb j))
        fun j => maxCode (codeAt (vreg s.me o.va).codes (j / 32)) (codeAt (vreg s.me o.vb).codes (j / 32))) ∧
    (∀ o : VR3, LandsSome (.vsel o) s 1 2 fun act => ∃ data codes, act = .vec o.vd data (BitVec.allOnes 1024) 255 codes false ∧
      (∀ b, b < 1024 → laneOf 1 data b =
        laneOf 1 (if (preg s.me o.pg).bits.getLsbD b then (vreg s.me o.va).bits else (vreg s.me o.vb).bits) b) ∧
      ∀ j, j < 8 → codeAt codes j = maxCodes [codeAt (preg s.me o.pg).codes j,
        if segMask (preg s.me o.pg).bits j = 0 then 0 else codeAt (vreg s.me o.va).codes j,
        if segMask (preg s.me o.pg).bits j = BitVec.allOnes 128 then 0 else codeAt (vreg s.me o.vb).codes j]) ∧
    (∀ o : VplogOp, o.func.toNat < 12 → LandsSome (.vplog o) s 1 2 fun act => ∃ data codes,
      act = .pred o.pd data (BitVec.allOnes 1024) 255 codes ∧
      (∀ b, b < 1024 →
        let x := (preg s.me o.pa).bits.getLsbD b
        let y := (preg s.me o.pb).bits.getLsbD b
        data.getLsbD b = [x && y, x || y, x != y, x && !y, x || !y, !(x && y), !(x || y), x == y, x, !x, true, false].getD o.func.toNat false) ∧
      ∀ j, j < 8 → codeAt codes j = maxCode (if o.func.toNat ≤ 9 then codeAt (preg s.me o.pa).codes j else 0)
        (if o.func.toNat ≤ 7 then codeAt (preg s.me o.pb).codes j else 0))

/-- R153 to R155: VMOV, VBCAST, VINS, VEXTR, VPERM, VSHUF and VROTL. -/
def Obligations.VectorMotionWords : Prop :=
  ∀ s : State,
    let bits (n : BitVec 10) : BitVec 8192 := (vreg s.me n).bits
    let code (n : BitVec 10) (seg : Nat) : BitVec 2 := codeAt (vreg s.me n).codes seg
    let word (k : Nat) : Nat := (cap s.me.latch k).toNat
    (∀ o : VR2, LandsLanes (.vmov o) s 1 2 o.vd o.pg (laneOf 1 (bits o.va)) fun j => code o.va (j / 128)) ∧
    (∀ o : VbcastOp, o.w ≠ 3 → LandsLanes (.vbcast o) s (widthOf o.w) 4 o.vd o.pg (fun _ => word 0 % 2 ^ (8 * widthOf o.w)) fun _ => 0) ∧
    (∀ o : VbcastOp, o.w ≠ 3 →
      let w := widthOf o.w
      let n := word 1 % (1024 / w)
      LandsSome (.vins o) s 1 4 fun act => ∃ data mask codes, act = .vec o.vd data mask (1#8 <<< (w * n / 128)) codes true ∧
        laneOf w data n = word 0 % 2 ^ (8 * w) ∧
        ∀ b, b < 1024 → mask.getLsbD b = (decide (b / w = n) && (preg s.me o.pg).bits.getLsbD (w * n))) ∧
    (∀ o : VextrOp, o.w ≠ 3 →
      let w := widthOf o.w
      let x := laneOf w (bits o.va) (word 0 % (1024 / w))
      LandsAt (.vextr o) s 1 4 (.scal o.sd (if o.sx = 1 then BitVec.ofInt 64 (sintOf (8 * w) x) else BitVec.ofNat 64 x))) ∧
    (∀ o : VR3, LandsLanes (.vperm o) s 4 4 o.vd o.pg (fun j => laneOf 4 (bits o.va) (laneOf 4 (bits o.vb) j % 256))
      fun j => maxCode (code o.vb (j / 32)) (code o.va (laneOf 4 (bits o.vb) j % 256 / 32))) ∧
    (∀ o : VR3, LandsLanes (.vshuf o) s 4 4 o.vd o.pg
      (fun j => let n := laneOf 4 (bits o.vd) j % 512
        if n < 256 then laneOf 4 (bits o.va) n else laneOf 4 (bits o.vb) (n - 256))
      fun j => let n := laneOf 4 (bits o.vd) j % 512
        maxCode (code o.vd (j / 32)) (if n < 256 then code o.va (n / 32) else code o.vb ((n - 256) / 32))) ∧
    (∀ o : VrotlOp, o.w ≠ 3 →
      let w := widthOf o.w
      let l := 1024 / w
      LandsLanes (.vrotl o) s w 4 o.vd o.pg (fun j => laneOf w (bits o.va) ((j + word 0) % l))
        fun j => code o.va (w * ((j + word 0) % l) / 128))

/-- R152, R156 to R159: loads, stores, gathers, scatters and atomics read their registers at issue and reach the scratchpad 3 fc
later; a lane whose address is misaligned or out of range raises its cause before anything is read or written. -/
def Obligations.VectorMemoryWords : Prop :=
  ∀ s : State,
    let P (pg : BitVec 4) : PReg := preg s.me pg
    let word (k : Nat) : Nat := (cap s.me.latch k).toNat
    let line (j k : Nat) : Nat := (word 0 + 1024 * k + 128 * j) % 2 ^ 64
    let lineS (j : Nat) : Nat := (word 0 + j * word 1) % 2 ^ 64
    let stores (i : Instr) (vd : BitVec 10) (pg : BitVec 4) (ad : Nat → Nat) : Prop := LandsSome i s 1 3 fun act =>
      ∃ ws, act = .lines 6 ws ∧ ws.length = 8 ∧ ∀ j w, ws[j]? = some w → w.line = ad j / 128 ∧
        w.data = (vreg s.me vd).bits.extractLsb' (1024 * j) 1024 ∧ w.mask = segMask (P pg).bits j ∧
        w.code = maxCode (codeAt (P pg).codes j) (if segMask (P pg).bits j = 0 then 0 else codeAt (vreg s.me vd).codes j)
    let addr (va : BitVec 10) (j : Nat) : Nat :=
      (cap s.me.latch 0 + BitVec.ofInt 64 (sintOf 32 (laneOf 4 (vreg s.me va).bits j))).toNat
    let good (va : BitVec 10) (pg : BitVec 4) (j : Nat) : Prop :=
      (P pg).bits.getLsbD (4 * j) = true → addr va j + 4 ≤ 2 ^ 23 ∧ addr va j % 4 = 0
    let traps (i : Instr) (kind : Nat) (va : BitVec 10) (pg : BitVec 4) : Prop :=
      ∀ j, j < 256 → (∀ m, m < j → good va pg m) → ¬good va pg j →
        EngineTraps i s 1 (if 2 ^ 23 < addr va j + 4 then 0x04 else 0x03)
          (BitVec.ofNat 64 (if 2 ^ 23 < addr va j + 4 ∧ addr va j < 2 ^ 23 then 2 ^ 23 else addr va j))
          (BitVec.ofNat 64 (j + kind * 2 ^ 32))
    (∀ o : VldOp, LandsAt (.vld o) s 1 3 (.loadLines o.vd ((List.range 8).map fun j => line j o.k.toNat) (P o.pg).bits (P o.pg).codes)) ∧
    (∀ o : VldsOp, LandsAt (.vlds o) s 1 3 (.loadLines o.vd ((List.range 8).map lineS) (P o.pg).bits (P o.pg).codes)) ∧
    (∀ o : VldOp, stores (.vst o) o.vd o.pg fun j => line j o.k.toNat) ∧
    (∀ o : VldsOp, stores (.vsts o) o.vd o.pg lineS) ∧
    (∀ o : VgatherOp, (∀ j, j < 256 → good o.va o.pg j) → LandsSome (.vgather o) s 1 3 fun act => ∃ mask pc ac,
      act = .gather o.vd ((List.range 256).map (addr o.va)) mask pc ac ∧
      ∀ b, b < 1024 → mask.getLsbD b = (P o.pg).bits.getLsbD (4 * (b / 4))) ∧
    (∀ o : VgatherOp, traps (.vgather o) 1 o.va o.pg) ∧
    (∀ o : VgatherOp, (∀ j, j < 256 → good o.va o.pg j) → LandsSome (.vscatter o) s 1 3 fun act => ∃ ws, act = .lines 6 ws ∧
      (ws.map fun w => (w.line, w.data, w.mask)) = ((List.range 256).filter fun j => (P o.pg).bits.getLsbD (4 * j)).map fun j =>
        (addr o.va j / 128, BitVec.ofNat 1024 (laneOf 4 (vreg s.me o.vd).bits j) <<< (8 * (addr o.va j % 128)),
          15#128 <<< (addr o.va j % 128))) ∧
    (∀ o : VgatherOp, traps (.vscatter o) 2 o.va o.pg) ∧
    (∀ o : VatomOp, (∀ j, j < 256 → good o.va o.pg j) → LandsSome (.vatom o) s 1 3 fun act => ∃ mask pc ac xc,
      act = .atom o.vd o.op ((List.range 256).map (addr o.va)) (vreg s.me o.vd).bits mask pc ac xc ∧
      ∀ b, b < 1024 → mask.getLsbD b = (P o.pg).bits.getLsbD (4 * (b / 4))) ∧
    (∀ o : VatomOp, traps (.vatom o) 3 o.va o.pg)

/-- R160 to R164: VCVT converts lane by lane, with its draw for stochastic rounding from the seed, the entry's number and the
destination lane, writes the bytes of its active lanes and no other, and gives each segment of its range the codes of P and of the
active lanes' sources, raised under MARK; VQUANT writes indices or scales with the codes of all of va, VDEQ their values; VXSENC.LOC
writes local headers and leaves vd's codes, and the other words of XSUM read their headers 3 fc after issue. -/
def Obligations.ConversionWords : Prop :=
  ∀ s : State,
    let d := cap s.me.latch 0
    let bits (n : BitVec 10) : BitVec 8192 := (vreg s.me n).bits
    (∀ (o : VcvtOp) (df sf : Fmt) (md : RMode), fmtOfCode (d.toNat % 64) = some df → fmtOfCode (d.toNat / 2 ^ 6 % 64) = some sf →
      rmodeOfCode (d.toNat / 2 ^ 12 % 8) = some md →
      let db := fmtBits df
      let sb := fmtBits sf
      let n := min (8192 / db) (8192 / sb)
      let first := if 8192 / db < 8192 / sb then 0 else o.q.toNat * (8192 / sb)
      let from_ := if 8192 / db < 8192 / sb then o.q.toNat * (8192 / db) else 0
      LandsSome (.vcvt o) s 1 4 fun act => ∃ data mask segs codes, act = .vec o.vd data mask segs codes true ∧
        ∀ i, i < n → (first + i) * db < 8192 → (from_ + i) * sb < 8192 →
          (preg s.me o.pg).bits.getLsbD ((first + i) * db / 8) = true →
          data.toNat / 2 ^ ((first + i) * db) % 2 ^ db =
            (convElem sf df md (d.getLsbD 15) (srDraw s.me.latch.sysv s.me.latch.seq (first + i))
              ((bits o.va).toNat / 2 ^ ((from_ + i) * sb) % 2 ^ sb)).1 % 2 ^ db ∧
          mask.getLsbD ((first + i) * db / 8) = true) ∧
    (∀ (o : VcvtOp) (df sf : Fmt) (md : RMode), fmtOfCode (d.toNat % 64) = some df → fmtOfCode (d.toNat / 2 ^ 6 % 64) = some sf →
      rmodeOfCode (d.toNat / 2 ^ 12 % 8) = some md → d.toNat % 64 ≤ 9 → d.toNat / 2 ^ 6 % 64 ≤ 9 →
      let db := fmtBits df
      let sb := fmtBits sf
      let n := min (8192 / db) (8192 / sb)
      let first := if 8192 / db < 8192 / sb then 0 else o.q.toNat * (8192 / sb)
      let from_ := if 8192 / db < 8192 / sb then o.q.toNat * (8192 / db) else 0
      let active (i : Nat) : Bool := (preg s.me o.pg).bits.getLsbD ((first + i) * db / 8)
      let x (i : Nat) : Nat := (bits o.va).toNat / 2 ^ ((from_ + i) * sb) % 2 ^ sb
      let r (i : Nat) := convElem sf df md (d.getLsbD 15) (srDraw s.me.latch.sysv s.me.latch.seq (first + i)) (x i)
      o.q.toNat < max (8192 / db) (8192 / sb) / n →
      LandsSome (.vcvt o) s 1 4 fun act => ∃ data mask segs codes, act = .vec o.vd data mask segs codes true ∧
        (∀ b, b < 1024 → (mask.getLsbD b = true ↔ ∃ i, i < n ∧ active i = true ∧ (first + i) * db / 8 ≤ b ∧
          b < (first + i) * db / 8 + (db + 7) / 8)) ∧
        (∀ k, k < 8 → (segs.getLsbD k = true ↔ ∃ i, i < n ∧ (first + i) * db / 1024 = k)) ∧
        ∀ k, k < 8 → codeAt codes k = maxCode (codeAt (preg s.me o.pg).codes k) (maxCodes ((List.range n).map fun i =>
          if active i = true ∧ (first + i) * db / 1024 = k then
            maxCode (codeAt (vreg s.me o.va).codes ((from_ + i) * sb / 1024))
              (if o.mark = 1 ∧ cvtMarks sf df (x i) (r i).1 (r i).2 = true then 2 else 0)
          else 0))) ∧
    (∀ (o : VquantOp) (x : (VquantOp → Instr) × Nat), x ∈ [(.vquantIdx, d.toNat / 2 ^ 32 % 8), (.vquantScl, d.toNat / 2 ^ 32 % 64 / 32)] →
      LandsSome (x.1 o) s 1 8 fun act => ∃ data mask codes, act = .vec o.vd data mask (1#8 <<< x.2) codes true ∧
        codeAt codes x.2 = maxCode (maxCodes ((List.range 8).map (codeAt (vreg s.me o.va).codes)))
          (if ((List.range 256).any fun i => decide (laneOf 4 (bits o.va) i / 2 ^ 23 % 256 = 255)) = true then 2 else 0)) ∧
    (∀ o : VquantOp, LandsSome (.vquantIdx o) s 1 8 fun act => ∃ data mask codes,
      let j := d.toNat / 2 ^ 32 % 8
      act = .vec o.vd data mask (1#8 <<< j) codes true ∧ (∀ b, b < 1024 → mask.getLsbD b = decide (b / 128 = j)) ∧
      ∀ i, i < 256 →
        let x := fdecode f32 (laneOf 4 (bits o.va) i)
        let b := ((quantBlocks (bits o.va) (fdecode f32 (d.toNat % 2 ^ 32))).getD (i / 64) ([], 0)).2
        data.toNat / 2 ^ (1024 * j + 4 * i) % 16 =
          (match x with
            | .fin _ _ _ => if b = 0 then 7 else quantIndex x (fdecode f32 (d.toNat % 2 ^ 32)) b
            | _ => 7)) ∧
    (∀ o : VquantOp, LandsSome (.vquantScl o) s 1 8 fun act => ∃ data mask codes,
      let p := d.toNat / 2 ^ 32 % 64
      act = .vec o.vd data mask (1#8 <<< (p / 32)) codes true ∧ (∀ b, b < 1024 → mask.getLsbD b = decide (b / 4 = p)) ∧
      ∀ i, i < 256 → i % 64 = 0 → data.toNat / 2 ^ (32 * p + 8 * (i / 64)) % 256 =
        quantScale (maxFinite (((List.range 64).map fun m => laneOf 4 (bits o.va) (i + m)))).1 (fdecode f32 (d.toNat % 2 ^ 32)) % 256) ∧
    (∀ o : VdeqOp, LandsLanes (.vdeq o) s 4 4 o.vd o.pg
      (fun j => dequant ((bits o.va).toNat / 2 ^ (1024 * o.q.toNat + 4 * j) % 16) (d.toNat / 2 ^ (32 + 8 * (j / 64)) % 256)
        (fdecode f32 (d.toNat % 2 ^ 32))) fun _ => codeAt (vreg s.me o.va).codes o.q.toNat) ∧
    (∀ o : VxlocOp, LandsSome (.vxsencLoc o) s 1 4 fun act => ∃ data mask, act = .vec o.vd data mask 0 0 true ∧
      (∀ b, b < 1024 → mask.getLsbD b = decide (b / 32 = o.q.toNat)) ∧
      ∀ j, j < 8 → data.toNat / 2 ^ (256 * o.q.toNat + 32 * j) % 2 ^ 32 =
        (localExp ((List.range 32).map fun m => laneOf 4 (bits o.va) (32 * j + m)) % 65536).toNat +
          (codeAt (vreg s.me o.va).codes j).toNat * 65536) ∧
    (∀ (o : VquantOp) (x : (VquantOp → Instr) × Nat), x ∈ [(.vxsencX32, 4), (.vxsencX64l, 5), (.vxsencX64h, 6), (.vxsdecX32, 8),
      (.vxsdecX64l, 9), (.vxsdecX64h, 10)] →
      LandsAt (x.1 o) s 1 3 (.xsum o.vd x.2 d.toNat (bits o.va) (vreg s.me o.va).codes))

/-- R165 to R168: a reduction gives every lane of a segment the result over the segment's active lanes, where none is active +0, an
infinity, 0 or an end of INT32; VPMARK and VPCLR set
the codes of the selected segments, VPGET reads a register's codes, and VCLAMP holds lanes to its bounds by its policy. -/
def Obligations.ReductionWords : Prop :=
  ∀ s : State,
    let bits (n : BitVec 10) : BitVec 8192 := (vreg s.me n).bits
    (∀ (o : VredOp) (x : (VredOp → Instr) × (List FVal → FVal) × (List Int → Int)),
      x ∈ [(.vrsum, sumFv, fun l => l.foldl (· + ·) 0), (.vrmax, pickFv true, pickInt true), (.vrmin, pickFv false, pickInt false)] →
      let w := if o.ty = 0 ∨ o.ty = 3 then 4 else 2
      let n := 128 / w
      LandsSome (x.1 o) s 1 8 fun act => ∃ data codes, act = .vec o.vd data (BitVec.allOnes 1024) 255 codes false ∧
        (∀ j, j < 1024 / w →
          let xs := ((List.range n).filter fun m => (preg s.me o.pg).bits.getLsbD (w * (n * (j / n) + m))).map fun m =>
            laneOf w (bits o.va) (n * (j / n) + m)
          laneOf w data j =
            (if o.ty = 0 then fresult (floatSpec .fp32) (x.2.1 (xs.map (fdecode (floatSpec .fp32))))
            else if o.ty = 1 then fresult (floatSpec .bf16) (x.2.1 (xs.map (fdecode (floatSpec .bf16))))
            else if o.ty = 2 then fresult (floatSpec .fp16) (x.2.1 (xs.map (fdecode (floatSpec .fp16))))
            else (x.2.2 (xs.map (sintOf 32)) % 2 ^ 32).toNat) % 2 ^ (8 * w)) ∧
        ∀ j, j < 8 → codeAt codes j = segCode w (preg s.me o.pg) (fun _ => codeAt (vreg s.me o.va).codes j) j) ∧
    (∀ (o : VredOp) (x : (VredOp → Instr) × Nat × Nat × Nat × Nat),
      x ∈ ([(.vrsum, 0, 0, 0, 0), (.vrmax, 0xFF800000, 0xFF80, 0xFC00, 0x80000000), (.vrmin, 0x7F800000, 0x7F80, 0x7C00, 0x7FFFFFFF)] :
        List ((VredOp → Instr) × Nat × Nat × Nat × Nat)) →
      let w := if o.ty = 0 ∨ o.ty = 3 then 4 else 2
      LandsSome (x.1 o) s 1 8 fun act => ∃ data codes, act = .vec o.vd data (BitVec.allOnes 1024) 255 codes false ∧
        ∀ j, j < 1024 / w → (∀ m, m < 128 / w → (preg s.me o.pg).bits.getLsbD (w * (128 / w * (j / (128 / w)) + m)) = false) →
          laneOf w data j = if o.ty = 0 then x.2.1 else if o.ty = 1 then x.2.2.1 else if o.ty = 2 then x.2.2.2.1 else x.2.2.2.2) ∧
    (∀ o : VpmarkOp, LandsSome (.vpmark o) s 1 2 fun act => ∃ segs codes, act = .vec o.vd 0 0 segs codes true ∧
      ∀ j, j < 8 → segs.getLsbD j = decide (segMask (preg s.me o.pg).bits j ≠ 0) ∧ codeAt codes j = o.code) ∧
    (∀ o : VR1, LandsSome (.vpclr o) s 1 2 fun act => ∃ segs, act = .vec o.vd 0 0 segs 0 false ∧
      ∀ j, j < 8 → segs.getLsbD j = decide (segMask (preg s.me o.pg).bits j ≠ 0)) ∧
    (∀ o : VpgetOp, LandsAt (.vpget o) s 1 2 (.scal o.sd
      ((if o.isP = 1 then (preg s.me (o.va.setWidth 4)).codes else (vreg s.me o.va).codes).setWidth 64))) ∧
    (∀ o : VclampOp,
      let t := clampTy o.ty
      let w := vtyBytes t
      let d := (cap s.me.latch 0).toNat
      let lo := fdecode f32 (d % 2 ^ 32)
      let hi := fdecode f32 (d / 2 ^ 32)
      let x (j : Nat) : Nat := laneOf w (bits o.va) j
      let v (j : Nat) : FVal := fdecode (vtySpec t) (x j)
      let below (j : Nat) : Prop := v j = .nan ∨ fvCmp (v j) lo < 0
      let above (j : Nat) : Prop := v j ≠ .nan ∧ 0 < fvCmp (v j) hi
      ∃ k : Nat → BitVec 2, LandsLanes (.vclamp o) s w 3 o.vd o.pg
        (fun j => if o.pol = 1 then x j else if v j = .nan ∨ fvCmp (v j) lo < 0 then fencode (vtySpec t) .rup false 0 lo
          else if 0 < fvCmp (v j) hi then fencode (vtySpec t) .rdn false 0 hi else x j) k ∧
        ∀ j, ((below j ∨ above j) → o.pol ≠ 0 → k j = maxCode (codeAt (vreg s.me o.va).codes (w * j / 128)) 2) ∧
          (¬(below j ∨ above j) ∨ o.pol = 0 → k j = codeAt (vreg s.me o.va).codes (w * j / 128)))

/-- R186 to R192: the tile words at issue. A mismatch of shape or type raises TILE_SHAPE with the tile, the reason and the
entry's number, and the word stays; where shape and type both fail the shape is recorded, which is the model's choice (log entry 136). -/
def Obligations.TileWords : Prop :=
  ∀ s : State,
    let g := s.me.latch.ga
    let n : Word := BitVec.ofNat 64 s.me.latch.seq
    let shape (i : Instr) (t : BitVec 3) (reason : Nat) : Prop := EngineTraps i s 0 0x18 (BitVec.ofNat 64 (t.toNat + reason * 16)) n
    let fits (t : Tile) (ta : BitVec 1) : Prop :=
      if ta = 1 then gRows g = t.dcols ∧ gCols g = t.drows else gRows g = t.drows ∧ gCols g = t.dcols
    let typed (t : Tile) : Prop := if t.dint then fmtIsInt (gFmt g) = true else fmtIsFloat (gFmt g) = true
    (∀ o : TcfgOp,
      let t := getTile s.me o.tile
      let same : Prop := t.drows = o.rows.toNat + 1 ∧ t.dcols = o.cols.toNat + 1 ∧ t.dint = decide (o.ty = 1)
      (same → Issuing s.me 0 → Runs (.tcfg o) s fun t => IssuedQuiet s.me t.me 0 ∧ t.me.land = s.me.land ∧ t.me.cmds = s.me.cmds ∧
        KeepsRest s t) ∧
      (¬same → tilePending s.me o.tile = true → shape (.tcfg o) o.tile 4) ∧
      (¬same → tilePending s.me o.tile = false → Issuing s.me 0 → Runs (.tcfg o) s fun t => IssuedOne s.me t.me 0 ∧
        getTile t.me o.tile = { getTile s.me o.tile with drows := o.rows.toNat + 1, dcols := o.cols.toNat + 1, dint := decide (o.ty = 1) } ∧
        (∀ k, k ≠ o.tile → getTile t.me k = getTile s.me k) ∧ t.me.mx.g = s.me.mx.g ∧ t.me.sys = s.me.sys ∧ t.me.cn.k = s.me.cn.k ∧
        t.me.land = s.me.land ++ [⟨s.me.fc + 2, 0, s.me.latch.seq, .tcfg o.tile (o.rows.toNat + 1) (o.cols.toNat + 1) (decide (o.ty = 1)), underP0 s.me.latch.i⟩] ∧
        t.me.cmds = s.me.cmds ∧ KeepsRest s t)) ∧
    (∀ o : TileOp, LandsAt (.tzero o) s 0 2 (.tzero o.tile) ∧ LandsAt (.tpoisClr o) s 0 2 (.tclr o.tile)) ∧
    (∀ o : TldOp,
      let t := getTile s.me o.tile
      (¬fits t o.ta → shape (.tld o) o.tile 6 ∧ shape (.tdrain o) o.tile 6) ∧
      (fits t o.ta → ¬typed t → shape (.tld o) o.tile 3) ∧
      (fits t o.ta → typed t → LandsAt (.tld o) s 0 3 (.tldRead o.tile g (decide (o.ta = 1)) (s.me.fc + gRows g + 8)))) ∧
    (∀ o : TldOp,
      let t := getTile s.me o.tile
      let elem (r k : Nat) : BitVec 32 := if o.ta = 1 then tileElem t k r else tileElem t r k
      let out (r k : Nat) : Prop := outOfBounds g (elemVal (if t.int then .int32 else .fp32) (elem r k).toNat) = true
      fits t o.ta →
      (∀ r k, gBound g = 3 → r < gRows g → k < gCols g → out r k →
        (∀ r' k', k' < gCols g → (r' < r ∨ (r' = r ∧ k' < k)) → ¬out r' k') →
        EngineTraps (.tdrain o) s 0 0x14 (BitVec.ofNat 64 (r * 256 + k)) n) ∧
      ((gBound g = 3 → ∀ r k, r < gRows g → k < gCols g → ¬out r k) → Issuing s.me 0 → Runs (.tdrain o) s fun u =>
        IssuedQuiet s.me u.me 0 ∧ u.me.cmds = s.me.cmds ∧ KeepsRest s u ∧ ∃ ws : Nat → List (LineWrite × BitVec 1024),
          u.me.land = s.me.land ++ (List.range (gRows g)).map fun r => ⟨s.me.fc + (3 + r), 0, s.me.latch.seq, .drain (ws r), underP0 s.me.latch.i⟩)) ∧
    (∀ o : TpoisOp,
      LandsSome (.tpoisGet o) s 0 3 (fun act => ∃ data mask : BitVec 1024, ∃ bytes : BitVec 128,
        act = .drain [(⟨gBase g / 128, data, bytes, 0, 3⟩, mask)] ∧
        (∀ b, b < 128 → bytes.getLsbD b = decide (gBase g % 128 ≤ b ∧ b < gBase g % 128 + 32)) ∧
        ∀ r, r < 128 → 8 * (gBase g % 128) + 2 * r + 2 ≤ 1024 →
          data.extractLsb' (8 * (gBase g % 128) + 2 * r) 2 = tileCode (getTile s.me o.tile) r) ∧
      LandsAt (.tpoisMark o) s 0 3 (.tmarkRead o.tile (gBase g))) ∧
    (∀ o : TbiasOp,
      let t := getTile s.me o.tile
      let row : Prop := gRows g = 1 ∧ gCols g = t.dcols
      let kind : Prop := gFormat g = if t.dint then 5 else 0
      (¬row → shape (.tbias o) o.tile 6) ∧ (row → ¬kind → shape (.tbias o) o.tile 3) ∧
      (row → kind → LandsAt (.tbias o) s 0 3 (.tbiasRead o.tile g (decide (o.acc = 1)))))

/-- R70, R71 and R177 to R183: an array word at issue takes its place in the array behind the words there; a repetition of MMA that is
due accumulates, for every row of A and column of B, the group's products into the element; the word's last repetition having
passed, its result lands in the tile, and is the base of an accumulating word that chains to it (R181). Of several failing checks
the first in the order of the reasons is recorded, which is the model's choice (log entry 136). -/
def Obligations.ArrayWords : Prop :=
  (∀ (s : State) (o : MmaOp) (x : (MmaOp → Instr) × Nat × Nat × Nat),
    x ∈ ([(.mma, 32, 32, 0), (.mmas, 64, 32, 1), (.mmaq, 64, 64, 2)] : List ((MmaOp → Instr) × Nat × Nat × Nat)) →
    let e := s.me.latch
    let i := x.1 o
    let t := getTile s.me o.tile
    let m := if o.ta = 1 then gCols e.ga else gRows e.ga
    let ka := if o.ta = 1 then gRows e.ga else gCols e.ga
    let kb := if o.tb = 1 then gCols e.gb else gRows e.gb
    let n := if o.tb = 1 then gRows e.gb else gCols e.gb
    let okA : Prop := ka = x.2.1 ∧ m = if o.edge = 1 then t.dcols else t.drows
    let okB : Prop := kb = x.2.2.1 ∧ n = if o.edge = 1 then t.drows else t.dcols
    let okT : Prop := t.dint = true → fmtIsInt (gFmt e.ga) = true ∧ fmtIsInt (gFmt e.gb) = true
    let okL : Prop := x.2.2.2 = 2 → gLayout e.gb = if o.tb = 1 then 0 else 1
    let shape (reason : Nat) : Prop := EngineTraps i s 0 0x18 (BitVec.ofNat 64 (o.tile.toNat + reason * 16)) (BitVec.ofNat 64 e.seq)
    let per := if x.2.2.2 = 2 then 32 * gSlices e.ga else 32 * gSlices e.ga * gSlices e.gb / (if o.pack = 1 then 2 else 1)
    let start := max s.me.fc s.me.mx.arrayEnd
    let lw := mapGet 0 s.me.mx.lastw o.tile.toNat
    let gone : Bool := decide (o.acc = 1) && decide (lw ≠ 0) && !(s.me.mx.jobs.any fun j => decide (j.e.seq + 1 = lw) && decide (j.tile = o.tile))
    (¬okA → shape 1) ∧ (okA → ¬okB → shape 2) ∧ (okA → okB → ¬okT → shape 3) ∧ (okA → okB → okT → ¬okL → shape 5) ∧
    (okA → okB → okT → okL → Issuing s.me 0 → Runs i s fun u => IssuedQuiet s.me u.me 0 ∧ u.me.land = s.me.land ∧
      u.me.cmds = s.me.cmds ∧ u.me.mx.arrayEnd = start + (o.rep.toNat + 1) * per ∧ KeepsRest s u ∧
      u.me.mx.jobs = s.me.mx.jobs ++ [⟨e, o.tile, start, per, o.rep.toNat + 1, 0, gone, if gone then t.elems else [],
        if gone then t.codes else [], [], if lw = 0 then none else some (lw - 1)⟩])) ∧
  (∀ (s : State) (job : ArrayJob) (o : MmaOp),
    let c := s.me
    let ga := job.e.ga
    let gb := job.e.gb
    let base := if job.begun then job.acc else (arrayBase c o job).1
    repDue c = some job → mkindOf job.e.i = some (.mma, o) → o.ta = 0 → o.tb = 0 → o.edge = 0 → PadClean c → gCols gb ≤ 128 →
    tagsOk c (operandLines ga job.j ++ operandLines gb job.j) = true →
    Runs .arrayStart s fun t => ∃ x : ArrayJob,
      t.me.mx.jobs = (c.mx.jobs.map fun y => if y.e.seq = job.e.seq then x else y) ∧ x.j = job.j + 1 ∧ x.begun = true ∧
      x.e = job.e ∧ x.start = job.start ∧ x.n = job.n ∧ x.t = job.t ∧
      (∀ r k, r < gRows ga → k < gCols gb →
        let as := (List.range 32).map fun i => (readOperand c ga job.j r i).1
        let bs := (List.range 32).map fun i => (readB c gb 0 job.j i k).1
        mapGet 0 x.acc (128 * r + k) = BitVec.ofNat 32 (if (getTile c job.tile).dint then accInt (mapGet 0 base (128 * r + k)).toNat as bs
          else accAdd (mapGet 0 base (128 * r + k)).toNat (groupSum as bs))) ∧
      t.me.mx.tiles = c.mx.tiles ∧ t.me.vec = c.vec ∧ t.me.seq = c.seq ∧ t.me.land = c.land ∧ t.me.sp.bytes = c.sp.bytes ∧
      t.me.sp.code = c.sp.code ∧ KeepsRest s t) ∧
  (∀ (s : State) (job : ArrayJob), visDue s.me = some job → Runs .arrayVis s fun t =>
    getTile t.me job.tile = { getTile s.me job.tile with elems := job.acc, codes := job.codes } ∧
    (∀ n, n ≠ job.tile → getTile t.me n = getTile s.me n) ∧
    (∀ x ∈ s.me.mx.jobs, x.e.seq ≠ job.e.seq → ∀ k o, mkindOf x.e.i = some (k, o) →
      (if x.chain = some job.e.seq ∧ x.tile = job.tile ∧ x.begun = false ∧ o.acc = 1 then { x with begun := true, acc := job.acc, codes := job.codes }
        else x) ∈ t.me.mx.jobs) ∧ t.me.mx.jobs.length = (s.me.mx.jobs.filter fun x => x.e.seq ≠ job.e.seq).length ∧
    (job.events = [] → t.me.mx.mxevt = s.me.mx.mxevt ∧ KeepsRest s t) ∧
    (∀ first rest, job.events = first :: rest → s.me.mx.mxevt = 0 → t.me.mx.mxevt &&& ~~~ 7#64 = first &&& ~~~ 7#64 ∧
      t.me.seq.psum.getLsbD 4 = true) ∧
    t.me.vec = s.me.vec ∧ t.me.land = s.me.land ∧ t.me.sp = s.me.sp ∧ t.me.sys = s.me.sys)

/-- R88, R105, R131 to R133, R137, R149, R150, R156 to R158, R163, R164, R186, R187 and R191: the landing that is due takes effect and
is gone; a read that is due sees the scratchpad and leaves the landing of its result, 5 fc later for VLD, VLDS and VGATHER, 1 fc
later for the words of XSUM. A result in
the vector or predicate file replaces its active bytes or bits and the codes of its segments (a write to p0 is discarded);
VEXTR and VPGET write their scalar register; a store writes its bytes; TCFG, TZERO and TPOIS.CLR change their tile. -/
def Obligations.EngineLandings : Prop :=
  ∀ (s : State) (l : Landing), landDue s.me = some l →
    let gone (t : State) : Prop := t.me.land = s.me.land.erase l ∧ KeepsQueues s.me t.me ∧ t.me.cmds = s.me.cmds ∧
      t.me.sys = s.me.sys ∧ t.me.h = s.me.h ∧ KeepsRest s t
    (∀ n data mask range src keep, l.act = .vec n data mask range src keep → s.me.sys.lvalid = false → Runs .engineLanding s fun t =>
      gone t ∧ t.me.sp = s.me.sp ∧ t.me.mx = s.me.mx ∧ NoReg s.me t.me ∧
      (∀ b, b < 1024 → laneOf 1 (vreg t.me n).bits b = laneOf 1 (if mask.getLsbD b then data else (vreg s.me n).bits) b) ∧
      (∀ j, j < 8 → codeAt (vreg t.me n).codes j =
        if range.getLsbD j then
          (if keep = true ∧ segMask mask j ≠ BitVec.allOnes 128 then maxCode (codeAt src j) (codeAt (vreg s.me n).codes j) else codeAt src j)
        else codeAt (vreg s.me n).codes j) ∧ ∀ k, k ≠ n → vreg t.me k = vreg s.me k) ∧
    (∀ n data mask range src, l.act = .pred n data mask range src → Runs .engineLanding s fun t =>
      gone t ∧ t.me.sp = s.me.sp ∧ t.me.mx = s.me.mx ∧ t.me.vec.v = s.me.vec.v ∧ NoReg s.me t.me ∧
      (∀ b, b < 1024 → (preg t.me n).bits.getLsbD b =
        if n = 0 then true else if mask.getLsbD b then data.getLsbD b else (preg s.me n).bits.getLsbD b) ∧
      ∀ k, k ≠ n → preg t.me k = preg s.me k) ∧
    (∀ sd v, l.act = .scal sd v → Runs .engineLanding s fun t => gone t ∧ t.me.sp = s.me.sp ∧ t.me.mx = s.me.mx ∧
      t.me.vec = s.me.vec ∧ getS t.me sd = (if sd = 0 then 0 else v) ∧ OnlyReg s.me t.me sd) ∧
    (∀ row w, l.act = .lines row [w] → s.me.sp.acc = [] → PadClean s.me → tagsOk s.me [w.line] = true → Runs .engineLanding s fun t =>
      gone t ∧ t.me.vec = s.me.vec ∧ t.me.mx = s.me.mx ∧ NoReg s.me t.me ∧
      ∀ a, memRead t.me.sp.bytes a = if a / 128 = w.line ∧ w.mask.getLsbD (a % 128) = true then
        w.data.extractLsb' (8 * (a % 128)) 8 else memRead s.me.sp.bytes a) ∧
    (∀ n addrs mask pc, l.act = .loadLines n addrs mask pc → addrs.length = 8 → s.me.sp.acc = [] → s.me.sp.srace = [] → PadClean s.me →
      (∀ j a, addrs[j]? = some a → segMask mask j ≠ 0 → tagOk s.me (a / 128) = true) → Runs .engineLanding s fun t =>
      ∃ data codes, t.me.land = s.me.land.erase l ++ [⟨l.fc + 5, l.q, l.seq, .vec n data mask 255 codes true, l.p0⟩] ∧
        (∀ j a, addrs[j]? = some a →
          (segMask mask j ≠ 0 → data.extractLsb' (1024 * j) 1024 = BitVec.ofNat 1024 (memReadNat s.me.sp.bytes (128 * (a / 128)) 128)) ∧
          codeAt codes j = maxCode (codeAt pc j) (if segMask mask j = 0 then 0 else lineCode s.me (a / 128))) ∧
        KeepsPad s.me t.me ∧ t.me.vec = s.me.vec ∧ t.me.mx = s.me.mx ∧ NoReg s.me t.me ∧ KeepsQueues s.me t.me ∧ KeepsRest s t) ∧
    (∀ n addrs mask pc ac, l.act = .gather n addrs mask pc ac → s.me.sp.acc = [] → s.me.sp.srace = [] → PadClean s.me →
      (∀ j a, addrs[j]? = some a → mask.getLsbD (4 * j) = true → tagOk s.me (a / 128) = true) → Runs .engineLanding s fun t =>
      ∃ data codes, t.me.land = s.me.land.erase l ++ [⟨l.fc + 5, l.q, l.seq, .vec n data mask 255 codes true, l.p0⟩] ∧
        (∀ j a, j < 256 → addrs[j]? = some a → mask.getLsbD (4 * j) = true → laneOf 4 data j = memReadNat s.me.sp.bytes a 4) ∧
        KeepsPad s.me t.me ∧ t.me.vec = s.me.vec ∧ t.me.mx = s.me.mx ∧ NoReg s.me t.me ∧ KeepsQueues s.me t.me ∧ KeepsRest s t) ∧
    (∀ n mode addr x xc, l.act = .xsum n mode addr x xc → s.me.sp.acc = [] → s.me.sp.srace = [] → PadClean s.me →
      tagOk s.me (addr / 128) = true → Runs .engineLanding s fun t =>
      let h := memReadNat s.me.sp.bytes addr 32
      let e (j : Nat) : Int := sintOf 16 (h / 2 ^ (32 * j))
      let c (j : Nat) : BitVec 2 := maxCode (BitVec.ofNat 2 (h / 2 ^ (32 * j + 16))) (lineCode s.me (addr / 128))
      ∃ data mask segs codes, t.me.land = s.me.land.erase l ++ [⟨l.fc + 1, l.q, l.seq, .vec n data mask segs codes true, l.p0⟩] ∧
        (mode = 4 → mask = BitVec.allOnes 1024 ∧ ∀ i, i < 256 →
          laneOf 4 data i = intEncode .int32 (xsumEncode (e (i / 32)) (laneOf 4 x i)).1 % 2 ^ 32) ∧
        (mode = 5 ∨ mode = 6 → mask = BitVec.allOnes 1024 ∧ ∀ i, i < 128 → let m := 4 * (mode - 5) * 32 + i
          laneOf 8 data i = ((xsumEncode (e (m / 32)) (laneOf 4 x m)).1 % (2 ^ 64 : Nat)).toNat) ∧
        (mode = 8 → mask = BitVec.allOnes 1024 ∧ ∀ i, i < 256 →
          laneOf 4 data i = xsumDecode (e (i / 32)) (sintOf 32 (laneOf 4 x i)) % 2 ^ 32) ∧
        (mode = 8 → ∀ j, j < 8 → codeAt codes j = maxCode (codeAt xc j) (c j)) ∧
        KeepsPad s.me t.me ∧ t.me.vec = s.me.vec ∧ t.me.mx = s.me.mx ∧ NoReg s.me t.me ∧ KeepsQueues s.me t.me ∧ KeepsRest s t) ∧
    (∀ k rows cols int, l.act = .tcfg k rows cols int → Runs .engineLanding s fun t => gone t ∧ t.me.vec = s.me.vec ∧ t.me.sp = s.me.sp ∧
      getTile t.me k = { getTile s.me k with rows := rows, cols := cols, int := int, elems := [], codes := [] } ∧
      ∀ m, m ≠ k → getTile t.me m = getTile s.me m) ∧
    (∀ k, l.act = .tzero k → Runs .engineLanding s fun t => gone t ∧ t.me.vec = s.me.vec ∧ t.me.sp = s.me.sp ∧
      getTile t.me k = { getTile s.me k with elems := [], codes := [] } ∧ ∀ m, m ≠ k → getTile t.me m = getTile s.me m) ∧
    (∀ k, l.act = .tclr k → Runs .engineLanding s fun t => gone t ∧ t.me.vec = s.me.vec ∧ t.me.sp = s.me.sp ∧
      getTile t.me k = { getTile s.me k with codes := [] } ∧ ∀ m, m ≠ k → getTile t.me m = getTile s.me m)

/-- R239 to R247: the copy words at issue. CPIN and CPMAP send the reads of their granules and of the rows' map granules; CPSET
and CPOUT apply the bound policy and send their writes; an element out of bounds under TRAP, a line that PPOL refuses, a line
of another tenant and a revoked handle raise their cause, and the word stays. -/
def Obligations.CopyWords : Prop :=
  ∀ (s : State) (o : CopyOp),
    let e := s.me.latch
    let x := e.h.bits
    let n : Word := BitVec.ofNat 64 e.seq
    let reps := List.range (o.rep.toNat + 1)
    let cmd (rs : List RepState) : Cmd := ⟨2, e, s.me.fc, true, true, false, rs, [], [], 0, 0, none, false, false, 0, 0, 0⟩
    let bound (l : List Item) : Nat := copyBound s s.cur (hAsid x) s.me.sys.tenant (l.flatMap itemGva)
    let due (rs : List RepState) (l : List Item) : Cmd := { cmd rs with till := s.cyc + bound l + 1000, left := s.cyc }
    let slot := e.slot.toNat
    let early := (s.me.queue (slot % 4)).origin + slot / 2 ^ 4 % 2 ^ 20
    let reads := reps.flatMap fun j => (repGranules (copyElems x e j) ++ (if hPmap x = 0 then [] else
      ((repRows (copyElems x e j)).map (mapGranule x)).eraseDups)).map fun g => Item.read s.cur 2 e.seq j g
    let maps := reps.flatMap fun j => (((mapRows x e j).map fun u => mapGranule x u.toNat).eraseDups).map fun g =>
      Item.read s.cur 2 e.seq j g
    SendsCmd (.cpin o) s 2 (bound reads) (bound reads) reads (cmd (reps.map fun j =>
      ⟨j, if o.mode = 1 then max (s.me.fc + 1) (early + j * (slot / 2 ^ 24 % 2 ^ 16)) else 0, [], false, false⟩)) ∧
    SendsCmd (.cpmap o) s 2 (bound maps) (bound maps) maps (cmd (reps.map fun j => ⟨j, 0, [], false, false⟩)) ∧
    (let p := setPattern s.me e x
     let es (v : Nat) (k : BitVec 2) : List OutElem := reps.flatMap fun j => (copyElems x e j).map fun y => ⟨j, y, v, k⟩
     let put (v : Nat) (k : BitVec 2) : List Item := writeItems s.cur 2 e.seq x (es v k) reps
     let done := cmd (reps.map fun j => ⟨j, 0, [], true, false⟩)
     (e.mark = false → hBpol x = 3 → outOfView x p = true → EngineTraps (.cpset o) s 2 0x14 0 n) ∧
     let sets (l : List Item) : Prop := SendsCmd (.cpset o) s 2 (bound l) (bound l) l done
     (outOfView x p = false → sets (put (if hBpol x = 2 then clampView x p else p) 0)) ∧
     (outOfView x p = true → hBpol x = 0 → sets (put p 0)) ∧ (outOfView x p = true → hBpol x = 2 → sets (put (clampView x p) 0)) ∧
     (outOfView x p = true → hBpol x = 1 → e.mark = false → e.i = .cpset o → Issuing s.me 2 → Runs (.cpset o) s fun t =>
       t.me.cmds = s.me.cmds ++ [due (reps.map fun j => ⟨j, 0, [], true, false⟩) (put p 2)] ∧ LeftQueue s.me t.me 2 ∧
       t.me.seq.psum.getLsbD 2 = true ∧
       Sends s t 2 (bound (put p 2)) (put p 2) ∧ KeepsShared s t)) ∧
    (let all := reps.flatMap fun j => (copyElems x e j).map fun y => (j, y)
     let lines := placeLines (all.map (·.2.place))
     let bitsOf (y : CopyElem) : Nat := bytesSeen s.me y.place.at_ y.place.n / 2 ^ (if hElemBits x = 4 then y.place.bit else 0) %
       (if hElemBits x = 4 then 16 else 2 ^ (8 * y.place.n))
     let codeOf (y : CopyElem) : BitVec 2 := maxCodes ((placeLines [y.place]).map (codeSeen s.me))
     let refused := poisonRefused s.me x (all.map (·.2))
     let out := all.find? fun p => outOfView x (bitsOf p.2)
     let es : List OutElem := all.map fun p => ⟨p.1, p.2, if hBpol x = 2 then clampView x (bitsOf p.2) else bitsOf p.2,
       maxCode (codeOf p.2) (if hBpol x = 1 ∧ outOfView x (bitsOf p.2) = true then 2 else 0)⟩
     e.mark = false →
     (tagsOk s.me lines = false → EngineTraps (.cpout o) s 2 0x0B 0 0) ∧
     (tagsOk s.me lines = true → ∀ row, refused = some row → EngineTrapsRead (.cpout o) s 2 0x12 (BitVec.ofNat 64 row) n) ∧
     (tagsOk s.me lines = true → refused = none → ∀ p, out = some p → hBpol x = 3 →
       EngineTrapsRead (.cpout o) s 2 0x14 (BitVec.ofNat 64 (p.2.br * 256 + p.2.bc)) n) ∧
     (tagsOk s.me lines = true → refused = none → (hBpol x = 3 → out = none) → PadClean s.me → e.i = .cpout o → Issuing s.me 2 →
       Runs (.cpout o) s fun t => t.me.cmds = s.me.cmds ++
           [due (reps.map fun j => ⟨j, 0, [], true, false⟩) (writeItems s.cur 2 e.seq x es reps)] ∧
         LeftQueue s.me t.me 2 ∧ KeepsPad s.me t.me ∧ (hBpol x = 1 → out ≠ none → t.me.seq.psum.getLsbD 2 = true) ∧
         Sends s t 2 (bound (writeItems s.cur 2 e.seq x es reps)) (writeItems s.cur 2 e.seq x es reps) ∧ KeepsShared s t)) ∧
    (∀ i, i ∈ [Instr.cpin o, .cpout o, .cpset o, .cpmap o] → e.mark = true →
      EngineTraps i s 2 0x0C (BitVec.ofNat 64 (hFamily x)) n)

/-- R274, R278, R280, R286 to R290, R310, R367: the words of the L queue at issue. Each becomes a command and sends its request on its
way, or, where its order names a release (CSEND and CBAR always), waits until its release set is performed; ARED, CAGREE and CREDX read
their lines at once (R290), and CRECV waits for its part. An
atomic that gives no result back counts as performed, and posts k, as it leaves its queue at CORE scope, and as it enters the panel's
port at FORM and PANEL scope. -/
def Obligations.LinkWords : Prop :=
  ∀ s : State,
    let e := s.me.latch
    let cmd (order : BitVec 2) (parked : Bool) : Cmd :=
      ⟨3, e, s.me.fc, !(decide (order = 2) || decide (order = 3)), false, parked, [⟨0, 0, [], false, false⟩], [], [], 0, 0, none, false,
        false, 0, 0, 0⟩
    let total : Nat := wordBound s s.cur e
    let held : List Item := [.release s.cur 3 e.seq]
    let rel (order : BitVec 2) : Prop := order = 2 ∨ order = 3
    let leaves (i : Instr) (order : BitVec 2) (bound : Nat) (items : List Item) (k : BitVec 4) (post : BitVec 1) : Prop :=
      Issuing s.me 3 → e.mark = false → e.i = i → (∀ m ∈ s.me.cmds, m.q = 3 → m.e.seq ≠ e.seq) → Runs i s fun t =>
        t.me.cmds = s.me.cmds ++ [{ cmd order false with early := true, till := s.cyc + total + 1000, left := s.cyc }] ∧
        LeftQueue s.me t.me 3 ∧ t.me.land = s.me.land ∧ t.me.sp = s.me.sp ∧ t.me.seq = s.me.seq ∧ t.me.vec = s.me.vec ∧
        (∀ n, n ≠ k.toNat ∨ post = 0 → getSem t.me n = getSem s.me n) ∧
        (post = 1 → getSem t.me k.toNat = (let x := getSem s.me k.toNat
          if x.count = x.ceil then { x with ovf := true } else { x with count := x.count + 1 })) ∧
        OthersKept s t [s.cur] ∧ KeepsShared s t ∧ Sends s t 3 bound items
    (∀ o : AmoOp, (rel o.order → SendsCmd (.amo o) s 3 total 0 held (cmd o.order false)) ∧
      (¬rel o.order → o.ret = 1 ∨ 3 ≤ o.scope.toNat → SendsCmd (.amo o) s 3 total total [.atomic s.cur e.seq] (cmd o.order false)) ∧
      (¬rel o.order → o.ret = 0 → o.scope = 1 ∨ o.scope = 2 →
        SendsCmd (.amo o) s 3 total total [.enters s.cur e.seq, .atomic s.cur e.seq] (cmd o.order false)) ∧
      (¬rel o.order → o.ret = 0 → o.scope = 0 → leaves (.amo o) o.order total [.atomic s.cur e.seq] o.k o.post)) ∧
    (∀ o : AcasOp, (rel o.order → SendsCmd (.acas o) s 3 total 0 held (cmd o.order false)) ∧
      (¬rel o.order → SendsCmd (.acas o) s 3 total total [.atomic s.cur e.seq] (cmd o.order false))) ∧
    (∀ o : AredOp, (rel o.order ∨ o.scope ≠ 0 → SendsCmd (.ared o) s 3 total 0 [.ared s.cur e.seq] (cmd o.order false)) ∧
      (¬rel o.order → o.scope = 0 → leaves (.ared o) o.order 0 [.ared s.cur e.seq] o.k o.post)) ∧
    (∀ o : CsendOp, SendsCmd (.csend o) s 3 0 0 held (cmd o.order false) ∧ SendsCmd (.crecv o) s 3 0 0 [] (cmd o.order true)) ∧
    (∀ o : CagreeOp, SendsCmd (.cagree o) s 3 0 0 [.lin s.cur e.seq] (cmd o.order false) ∧
      SendsCmd (.credx o) s 3 0 0 [.lin s.cur e.seq] (cmd o.order false)) ∧
    (∀ o : CbarOp, SendsCmd (.cbar o) s 3 0 0 held (cmd o.order false)) ∧
    (∀ o : MsendOp, Issuing s.me 3 → e.mark = false → e.i = .msend o →
      let dst := ((partitionOf s s.me.sys.tenant)[fieldOf (cap e 1) 0 8]?).getD 0
      let same : Prop := dst / 8 = s.cur / 8 ∧ s.isSplit s.cur = false
      Runs (.msend o) s fun t => (∃ till, t.me.cmds = s.me.cmds ++ [{ cmd o.order false with till := till, left := s.cyc }] ∧
          (same → till = s.cyc + 1012) ∧ (¬same → till = s.cyc + 2000)) ∧ LeftQueue s.me t.me 3 ∧ t.me.sp = s.me.sp ∧
        t.me.seq = s.me.seq ∧ OthersKept s t [s.cur, dst] ∧ KeepsShared s t ∧
        (∃ m : MsgIn, (t.core dst).msgs = (s.core dst).msgs ++ [m] ∧ m.srcCore = s.cur ∧ m.srcSeq = e.seq ∧
          m.tenant = s.me.sys.tenant ∧ m.arrived = false ∧ (same → m.due = some (s.me.fc + 16)) ∧ (¬same → m.due = none)) ∧
        (same → Sends s t 3 12 (if o.order = 2 then held else [.arrive dst s.cur e.seq])) ∧
        (¬same → Sends s t 3 1000 (if o.order = 2 then held else [.arrive dst s.cur e.seq]))) ∧
    (∀ (i : Instr) (q : AmoOp × AcasOp × AredOp × CsendOp), i ∈ [Instr.amo q.1, .acas q.2.1, .ared q.2.2.1, .csend q.2.2.2, .crecv q.2.2.2] → e.mark = true →
      EngineTraps i s 3 0x0C (BitVec.ofNat 64 (hFamily e.h.bits)) (BitVec.ofNat 64 e.seq))

/-- R85, R304 to R306, R405 to R410: a barrier word issues once and waits at the head of its queue; SPOST and its SUB form change
their semaphore at issue or raise their cause; QMARK with REST leaves its queue slack; a wait that ends takes its count and
gives its queue the present fc as its origin. -/
def Obligations.QueueControlWords : Prop :=
  (∀ (s : State) (i : Instr) (q : BitVec 2), (∃ o : SemQOp, i = .swait o ∧ o.q = q) ∨ (∃ o : BarOp, i = .bar o ∧ o.q = q) ∨
      (∃ o : WaitcOp, i = .waitc o ∧ o.q = q) →
    let x := s.me.queue q.toNat
    x.ents.head? = some s.me.latch → x.bwait = false → Runs i s fun t =>
      (t.me.queue q.toNat).ents = { s.me.latch with slot := 1 } :: x.ents.tail ∧ (t.me.queue q.toNat).bwait = true ∧
      (t.me.queue q.toNat).last = some s.me.fc ∧ (∀ k, k < 4 → k ≠ q.toNat → t.me.queue k = s.me.queue k) ∧
      t.me.task.w = s.me.task.w + (if s.me.latch.slot = 0 then 1 else 0) ∧ t.me.land = s.me.land ∧ t.me.cmds = s.me.cmds ∧
      t.me.cn.k = s.me.cn.k ∧ t.me.seq = s.me.seq ∧ t.me.sp = s.me.sp ∧ t.me.vec = s.me.vec ∧ KeepsRest s t) ∧
  (∀ (s : State) (o : SemQOp),
    let k := getSem s.me o.k.toNat
    let gets (i : Instr) (count : Nat) (event : Bool) : Prop := Issuing s.me o.q.toNat → Runs i s fun t =>
      IssuedOne s.me t.me o.q.toNat ∧ getSem t.me o.k.toNat = { k with count := count } ∧
      (∀ n, n ≠ o.k.toNat → getSem t.me n = getSem s.me n) ∧ t.me.sys.sempost = (s.me.sys.sempost || event) ∧
      t.me.land = s.me.land ∧ t.me.cmds = s.me.cmds ∧ t.me.mx = s.me.mx ∧ KeepsRest s t
    (k.count + o.n.toNat ≤ k.ceil → gets (.spost o) (k.count + o.n.toNat) (decide (o.n ≠ 0))) ∧
    (k.ceil < k.count + o.n.toNat → EngineTraps (.spost o) s o.q.toNat 0x10 (o.k.setWidth 64) (BitVec.ofNat 64 s.me.latch.seq)) ∧
    (o.n.toNat ≤ k.count → gets (.spostSub o) (k.count - o.n.toNat) false) ∧
    (k.count < o.n.toNat → EngineTraps (.spostSub o) s o.q.toNat 0x11 (o.k.setWidth 64) (BitVec.ofNat 64 s.me.latch.seq))) ∧
  (∀ (s : State) (o : QmarkOp), Issuing s.me o.q.toNat → Runs (.qmark o) s fun t => IssuedQuiet s.me t.me o.q.toNat ∧
    t.me.land = s.me.land ∧ t.me.cmds = s.me.cmds ∧
    (t.me.queue o.q.toNat).running = ((s.me.queue o.q.toNat).running && decide (o.rest = 0)) ∧ KeepsRest s t) ∧
  (∀ (s : State) (q : Nat) (e : QEntry) (rest : List QEntry), waitEnds s s.cur = some q → (s.me.queue q).ents = e :: rest →
    let ended (t : State) : Prop := (t.me.queue q).ents = rest ∧ (t.me.queue q).origin = s.me.fc ∧ (t.me.queue q).last = none ∧
      (t.me.queue q).running = true ∧ (t.me.queue q).bwait = false ∧ t.me.land = s.me.land ∧ t.me.cmds = s.me.cmds ∧
      t.me.sp = s.me.sp ∧ t.me.vec = s.me.vec ∧ t.me.seq = s.me.seq ∧ t.me.task = s.me.task
    (∀ o, e.i = .swait o →
      let k := getSem s.me o.k.toNat
      let traps (cause : Nat) : Prop := s.me.trap = none → Runs .barrierCompletion s fun t =>
        t.me.trap = some ⟨cause, false, q, false, o.k.setWidth 64, BitVec.ofNat 64 e.seq, s.me.seq.pc⟩ ∧
        (t.me.queue q).bwait = false ∧ (t.me.queue q).ents = { e with slot := 0 } :: rest ∧ t.me.task.w = s.me.task.w - 1 ∧
        t.me.cn.k = s.me.cn.k ∧ KeepsRest s t
      (k.ceil < o.n.toNat → traps 0x11) ∧ (o.n.toNat ≤ k.ceil → k.ovf = true → traps 0x10) ∧
      (o.n.toNat ≤ k.ceil → k.ovf = false → Runs .barrierCompletion s fun t => ended t ∧ o.n.toNat ≤ k.count ∧
        getSem t.me o.k.toNat = { k with count := k.count - o.n.toNat } ∧
        (∀ n, n ≠ o.k.toNat → getSem t.me n = getSem s.me n) ∧ KeepsRest s t)) ∧
    (∀ o, e.i = .waitc o → Runs .barrierCompletion s fun t => ended t ∧ t.me.cn = s.me.cn ∧ KeepsRest s t ∧
      (∀ k, k < 4 → k ≠ q → t.me.queue k = s.me.queue k)) ∧
    (∀ o, e.i = .bar o → o.form = 0 → Runs .barrierCompletion s fun t => t.me.cn = s.me.cn ∧ KeepsRest s t ∧
      (∀ k, k < 4 → o.mask.getLsbD k = true → (t.me.queue k).ents = (s.me.queue k).ents.tail ∧ (t.me.queue k).origin = s.me.fc ∧
        (t.me.queue k).bwait = false) ∧
      ∀ k, k < 4 → o.mask.getLsbD k = false → t.me.queue k = s.me.queue k))

/-- R233 to R238, R240, R242 to R247, R278, R410: what comes back to a copy. A repetition that has arrived is written, TIMED in its
fc, but for the bytes that a later repetition of the word has written already, and k is posted; under MARK an incomplete one is
written as zeros with code LATE; a translation fault is reported as an asynchronous cause; a post raises its semaphore. -/
def Obligations.CopyEvents : Prop :=
  (∀ (s : State) (i n q seq rep : Nat) (m : Cmd) (r : RepState),
    workDue s (fun it => match it with
      | .landing .. => true
      | _ => false) = some (i, .landing n q seq rep) →
    cmdOf s n q seq = some m → m.reps.find? (fun r => decide (r.j = rep)) = some r →
    Runs .untimedLanding s fun t => t.work.length < s.work.length ∧
      (∃ ws, (t.core n).sp = (writeLines (s.core n) s.time s.cyc ⟨2, q, seq⟩ 16 ws).sp ∧
        ws.map (fun w => (w.line, w.data, w.code, w.keep)) = (repLines (s.core n) m.e r).map (fun w => (w.line, w.data, w.code, w.keep)) ∧
        ∀ p ∈ ws.zip (repLines (s.core n) m.e r), ∀ b, b < 128 → (p.1.mask.getLsbD b = true ↔ p.2.mask.getLsbD b = true ∧
          ∀ x ∈ m.reps, rep < x.j → x.done = true → ∀ y ∈ repLines (s.core n) m.e x, y.line = p.2.line → y.mask.getLsbD b = false)) ∧
      (t.core n).seq.s = (s.core n).seq.s ∧ OthersKept s t [n] ∧ t.dev = s.dev ∧ t.ctxs = s.ctxs ∧
      (∀ k, copySem m.e.i = some k → (getSem (s.core n) k).count < (getSem (s.core n) k).ceil →
        (getSem (t.core n) k).count = (getSem (s.core n) k).count + 1) ∧
      (copySem m.e.i = none → (t.core n).cn.k = (s.core n).cn.k)) ∧
  (∀ (s : State) (m : Cmd) (r : RepState), timedDue s s.cur = some (m, r) → (ctxOf s s.me.sys.casid).st = 0 →
    (r.complete = true → Runs .timedLanding s fun t =>
      t.me.sp = (writeLines s.me s.time s.cyc ⟨2, 2, m.e.seq⟩ 8 (repLines s.me m.e r)).sp ∧ t.me.sys.lslot = s.me.sys.lslot ∧
      t.me.seq.s = s.me.seq.s ∧ OthersKept s t [s.cur] ∧ t.dev = s.dev) ∧
    (r.complete = false → Runs .timedLanding s fun t =>
      t.me.sp = (writeLines s.me s.time s.cyc ⟨2, 2, m.e.seq⟩ 8 ((repLines s.me m.e r).map fun w => { w with data := 0, code := 1, keep := 0 })).sp ∧
      t.me.seq.psum.getLsbD 1 = true ∧ t.me.seq.s = s.me.seq.s ∧ OthersKept s t [s.cur] ∧ t.dev = s.dev)) ∧
  (∀ (s : State) (i c q n rep va : Nat) (m : Cmd),
    workDue s (fun it => match it with
      | .copyFault .. => true
      | _ => false) = some (i, .copyFault c q n rep va) →
    cmdOf s c q n = some m → (s.core c).trap = none → Runs .copyTranslationFault s fun t =>
      (t.core c).trap = some ⟨0x0D, true, q, false, BitVec.ofNat 64 va, BitVec.ofNat 64 n, (s.core c).seq.pc⟩ ∧
      (t.core c).sp = (s.core c).sp ∧ (t.core c).seq = (s.core c).seq ∧ t.dev = s.dev ∧ OthersKept s t [c] ∧
      (∃ low, low ≤ rep ∧ ∀ x ∈ t.work, ∃ y ∈ s.work, x = (y.1, keepsOld c q n low y.2)) ∧
      ∀ x ∈ t.work, ∀ j g d w k codes, x.2 = .write c q n j g d w k codes → g / 65536 ≠ va / 65536) ∧
  (∀ (s : State) (i c q n rep k : Nat) (m : Cmd), workDue s isPost = some (i, .post c q n rep k) → cmdOf s c q n = some m →
    Runs .completionPost s fun t =>
      ((getSem (s.core c) k).count ≠ (getSem (s.core c) k).ceil →
        getSem (t.core c) k = { getSem (s.core c) k with count := (getSem (s.core c) k).count + 1 }) ∧
      ((getSem (s.core c) k).count = (getSem (s.core c) k).ceil → getSem (t.core c) k = { getSem (s.core c) k with ovf := true }) ∧
      (∀ j, j ≠ k → getSem (t.core c) j = getSem (s.core c) j) ∧ (t.core c).sys.sempost = true ∧ (t.core c).sp = (s.core c).sp ∧
      t.work.length < s.work.length ∧ OthersKept s t [c] ∧ t.dev = s.dev)

/-- R309 to R316: a message that arrives carries the lines its sender read; it reserves ring lines in its turn when they are
free; its landing writes header and lines, those of earlier messages of its sender with a timed one's; a message that can never land
raises INBOX. -/
def Obligations.MessageEvents : Prop :=
  (∀ (s : State) (i dst src seq : Nat) (m : MsgIn) (cm : Cmd),
    workDue s (fun it => match it with
      | .arrive .. => true
      | _ => false) = some (i, .arrive dst src seq) →
    msgOf (s.core dst) src seq = some m → cmdOf s src 3 seq = some cm →
    tagsOk (s.core src) (msendLines cm.e) = true → msgSize m ≤ (s.core dst).sys.inboxSize → Runs .messageArrival s fun t =>
      ∃ x : MsgIn, x ∈ (t.core dst).msgs ∧ x.arrived = true ∧ x.srcCore = m.srcCore ∧ x.srcSeq = m.srcSeq ∧
        x.lines.map (·.data) = (msendLines cm.e).map (fun l => BitVec.ofNat 1024 (bytesSeen (s.core src) (128 * l) 128)) ∧
        x.lines.map (·.code) = (msendLines cm.e).map (codeSeen (s.core src)) ∧ OthersKept s t [src, dst] ∧ t.dev = s.dev) ∧
  (∀ (s : State) (m : MsgIn), reserveDue s s.cur = some m → msgCtx s m = none → Runs .messageReserve s fun t =>
    t.me.sys.inboxRes = (s.me.sys.inboxRes + msgSize m) % 2 ^ 32 ∧ t.me.sys.inboxProd = s.me.sys.inboxProd ∧
    t.me.sys.inboxCons = s.me.sys.inboxCons ∧ t.me.sp = s.me.sp ∧ OthersKept s t [s.cur] ∧ t.dev = s.dev ∧
    (∀ x ∈ t.me.msgs, x.srcCore = m.srcCore → x.srcSeq = m.srcSeq → x.reserved = true ∧ x.pos = s.me.sys.inboxRes)) ∧
  (∀ (s : State) (i dst src seq : Nat) (m : MsgIn),
    workDue s (fun it => match it with
      | .deliver .. => true
      | _ => false) = some (i, .deliver dst src seq) →
    msgOf (s.core dst) src seq = some m → m.written = false → (∀ x ∈ (s.core dst).msgs, msgCtx s x = none) → Runs .messageLanding s fun t =>
      (t.core dst).sp = (writeLines (s.core dst) s.time s.cyc ⟨if m.due.isSome then 1 else 0, 4, 0⟩ 16 (msgWrites (s.core dst) m)).sp ∧
      t.dev = s.dev) ∧
  (∀ (s : State) (m : MsgIn), timedMsg s.me = some m → (∀ x ∈ s.me.msgs, msgCtx s x = none) →
    let before := (s.me.msgs.takeWhile fun x => decide (x ≠ m)).filter fun x => decide (x.srcCore = m.srcCore) && x.reserved && !x.written
    Runs .timedMessageLanding s fun t => t.dev = s.dev ∧
      (∀ x ∈ before, ∀ y ∈ t.me.msgs, y.srcCore = x.srcCore → y.srcSeq = x.srcSeq → y.written = true) ∧
      (before = [] → t.me.sp = (writeLines s.me s.time s.cyc ⟨1, 4, 0⟩ 11 (msgWrites s.me m)).sp)) ∧
  (∀ (s : State) (i dst src seq : Nat) (m : MsgIn) (cm : Cmd),
    workDue s (fun it => match it with
      | .arrive .. => true
      | _ => false) = some (i, .arrive dst src seq) →
    msgOf (s.core dst) src seq = some m → cmdOf s src 3 seq = some cm → m.srcCore = src →
    tagsOk (s.core src) (msendLines cm.e) = true → (s.core dst).sys.inboxSize < msgSize m →
    let n := if (s.core dst).life = .idle then src else dst
    (s.core n).trap = none → Runs .messageArrival s fun t => (t.core n).trap =
      some ⟨0x1A, true, 3, false, BitVec.ofNat 64 m.src, 0, (s.core n).seq.pc⟩ ∧ OthersKept s t [src, dst] ∧ t.dev = s.dev)

/-- R245, R252 to R256, R280, R287 to R293, R386 to R389: the requests at the hubs and what they answer. A read delivers the
granule; a write stores its bytes and makes its granule clean; an atomic replaces its element and answers the old value, but
leaves a poisoned granule; a walk that the page owner table admits caches its leaf among its core's 256 (which one then goes is the
model's choice, log entry 154); a held word leaves its core; a reply is written to the spool. -/
def Obligations.HubEvents : Prop :=
  (∀ (s : State) (i c q n rep gva a : Nat) (m : Cmd), hubDue s = some (i, .read c q n rep gva) → cmdOf s c q n = some m →
    translate s c (cmdAsid m) gva (s.core c).sys.tenant false = .pa a → isHostFrame s a = false → durableCtx s a = none →
    chanFailed s a = false → mapGet false s.dev.tagBad (a / 512) = false → mapGet false s.dev.dbe (a / 128) = false →
    mapGet false s.dev.sbe (a / 128) = false →
    (isTimed m.e.i = true → (roomHeld s c).foldl (fun k x => k + repRoom x.1 x.2.j) 0 + repRoom m.e rep ≤ 114688 ∨
      ∀ r ∈ m.reps, r.j = rep → r.got ≠ [] ∨ r.done = true) → Runs .hubRead s fun t =>
      t.dev = s.dev ∧ (t.core c).sp = (s.core c).sp ∧ OthersKept s t [c] ∧
      (∀ m', cmdOf t c q n = some m' → ∀ r ∈ m'.reps, r.j = rep → ∃ w ∈ r.got, w.line = gva / 128 ∧
        w.data = granData s a ∧ w.code = if mapGet false s.dev.syn (a / 128) then 3 else 0)) ∧
  (∀ (s : State) (i c q n rep gva a : Nat) (data : BitVec 1024) (mask : BitVec 128) (code : BitVec 2) (m : Cmd),
    hubDue s = some (i, .write c q n rep gva data mask code []) → cmdOf s c q n = some m →
    translate s c (cmdAsid m) gva (s.core c).sys.tenant true = .pa a → isHostFrame s a = false → durableCtx s a = none →
    chanFailed s a = false → mapGet false s.dev.tagBad (a / 512) = false → mask ≠ 0 → Runs .hubWrite s fun t =>
      (∀ y, memRead t.dev.mem y = if y / 128 = a / 128 ∧ mask.getLsbD (y % 128) = true then data.extractLsb' (8 * (y % 128)) 8
        else memRead s.dev.mem y) ∧
      mapGet false t.dev.syn (a / 128) = false ∧ (∀ g, g ≠ a / 128 → mapGet false t.dev.syn g = mapGet false s.dev.syn g) ∧
      t.dev.pot = s.dev.pot ∧ t.dev.asid = s.dev.asid ∧ OthersKept s t [c]) ∧
  (∀ (s : State) (i c n a : Nat) (m : Cmd), hubDue s = some (i, .atomic c n) → cmdOf s c 3 n = some m → isAred m.e.i = false →
    translate s c (cmdAsid m) (atomVa m.e) (s.core c).sys.tenant true = .pa a → isHostFrame s a = false → durableCtx s a = none →
    chanFailed s a = false → mapGet false s.dev.tagBad (a / 512) = false → mapGet false s.dev.dbe (a / 128) = false →
    mapGet false s.dev.sbe (a / 128) = false → a % 128 + atomBytes m.e.i ≤ 128 →
    let w := atomBytes m.e.i
    let old := memReadNat s.dev.mem a w
    let new := atomOpN (atomOp m.e.i) w old (cap m.e 1).toNat (cap m.e 2).toNat
    (mapGet false s.dev.syn (a / 128) = true → Runs .hubAtomic s fun t => t.dev.mem = s.dev.mem ∧ t.dev.syn = s.dev.syn ∧
      (atomRet m.e.i = true → ∃ x ∈ t.work, x.2 = .reply c n (lxWord m.e.i).k 3 0 (if w = 8 then 1 else 0))) ∧
    (mapGet false s.dev.syn (a / 128) = false → Runs .hubAtomic s fun t =>
      (∀ y, memRead t.dev.mem y = if a ≤ y ∧ y < a + w then BitVec.ofNat 8 (new / 256 ^ (y - a)) else memRead s.dev.mem y) ∧
      (atomRet m.e.i = true → ∃ x ∈ t.work, x.2 = .reply c n (lxWord m.e.i).k 0 old (if w = 8 then 1 else 0)) ∧
      t.dev.pot = s.dev.pot ∧ t.dev.syn = s.dev.syn)) ∧
  (∀ (s : State) (i c n : Nat) (m : Cmd),
    workDue s (fun it => match it with
      | .ared .. => true
      | _ => false) = some (i, .ared c n) →
    cmdOf s c 3 n = some m →
    let x := m.e.h.bits
    let line := (cap m.e 1).toNat / 128
    let k := codeSeen (s.core c) line
    tagsOk (s.core c) [line] = true →
    (((hPpol x = 1 ∧ k ≠ 0) ∨ (hPpol x = 2 ∧ k = 3)) → (s.core c).trap = none → Runs .aredSourceRead s fun t =>
      (t.core c).trap = some ⟨0x12, true, 3, false, BitVec.ofNat 64 (atomCoord (cap m.e 0) (hBdim x)), BitVec.ofNat 64 n,
        (s.core c).seq.pc⟩ ∧ t.dev = s.dev ∧ OthersKept s t [c]) ∧
    (¬((hPpol x = 1 ∧ k ≠ 0) ∨ (hPpol x = 2 ∧ k = 3)) → Runs .aredSourceRead s fun t => t.dev = s.dev ∧ OthersKept s t [c] ∧
      (∀ m', cmdOf t c 3 n = some m' → m'.code = k ∧
        m'.data = [⟨line, BitVec.ofNat 1024 (bytesSeen (s.core c) (128 * line) 128), BitVec.allOnes 128, k, 0⟩]) ∧
      ∃ y ∈ t.work, y.2 = if isRelease (lxWord m.e.i).order then .release c 3 n else .atomic c n)) ∧
  (∀ (s : State) (i n q seq : Nat) (m : Cmd) (o : AmoOp), workDue s isRelItem = some (i, .release n q seq) → cmdOf s n q seq = some m →
    m.e.i = .amo o → Runs .releaseSetPerformed s fun t => (∃ y ∈ t.work, y.2 = .atomic n seq) ∧
      (∀ m', cmdOf t n q seq = some m' → m'.released = true) ∧ t.dev = s.dev ∧ OthersKept s t [n]) ∧
  (∀ (s : State) (i c n k code old w64 : Nat) (m : Cmd), workDue s isReply = some (i, .reply c n k code old w64) →
    cmdOf s c 3 n = some m →
    let y := (s.core c).sys
    let a := y.replyBase + 16 * (y.replyProd % (8 * y.replySize))
    tagOk (s.core c) (lineOf a) = true → (∀ x, slotByte (s.core c) x = none) → Runs .replyWrite s fun t =>
      (∀ b, memRead (t.core c).sp.bytes b = if a ≤ b ∧ b < a + 16 then
          BitVec.ofNat 8 ((n % 2 ^ 32 + code * 2 ^ 32 + w64 * 2 ^ 34 + old % 2 ^ 64 * 2 ^ 64) / 256 ^ (b - a))
        else memRead (s.core c).sp.bytes b) ∧
      (t.core c).sys.replyProd = (y.replyProd + 1) % 2 ^ 32 ∧ (t.core c).sys.replyCons = y.replyCons ∧ OthersKept s t [c] ∧
      t.dev = s.dev) ∧
  (∀ (s : State) (i c asid va : Nat) (it : Item) (l : Tlb) (pa : Nat), hubDue s = some (i, it) → itemVa s it = some (c, asid, va) →
    tlbHit s c asid va = false → asidOk s asid (s.core c).sys.tenant = true →
    walkFrom s (s.core c).sys.tenant va (match it with
      | .read .. => false
      | _ => true) [0, 1, 2, 3] (fieldOf (asidOf s asid) 16 29 * 4096) = (.pa pa, some l) →
    frameOk s (s.core c).sys.tenant pa (match it with
      | .read .. => false
      | _ => true) = true →
    let mine (x : Tlb) : Bool := decide (x.unit = c)
    Runs .translationWalk s fun t => t.dev.mem = s.dev.mem ∧ t.work = s.work ∧ t.dev.tlb =
      (if (s.dev.tlb.filter mine).length < 256 then s.dev.tlb else s.dev.tlb.eraseP mine) ++ [{ l with unit := c, asid := asid }])

/-- R364, R368 to R374, R377: collectives. A contribution to a local rank is put into its slot, the first of its part alone, and is discarded
where the slot holds a later tag or the verdict excludes its rank; one to a remote rank leaves over its port, or drops its word with LATE
where no stream is there. A deadline that has passed makes the ranks that have not arrived the verdict; the verdict takes the excluded
ranks out of the slots and completes the CBAR that waits, with LATE where ranks are missing. A CAGREE or CREDX whose parts are all
there writes their maximum or sum to its lines, a CRECV sends what its part holds to its view, and each of them answers a lost instance
with zeros of code LATE; a CSEND completes when its lines are written. A word that has had its effect posts k. -/
def Obligations.CollectiveEvents : Prop :=
  let posted (t : State) (n : Nat) (m : Cmd) : Prop := (lxWord m.e.i).post = true → m.ended = none →
    ∃ y ∈ t.work, y.2 = .post n 3 m.e.seq 0 (lxWord m.e.i).k
  let isLate (t : State) (n : Nat) : Prop := (t.core n).seq.psum.getLsbD 1 = true
  (∀ (s : State) (i : Nat) (m : CMove),
    workDue s (fun it => match it with
      | .contrib _ => true
      | _ => false) = some (i, .contrib m) →
    let e := groupEntry s m.group
    let x := slotOf s m.group m.dst m.tag
    let lost : Prop := x.full = true ∧ m.tag < x.tag
    let out : Prop := ∃ l, verdictAt s m.group m.tag = some l ∧ m.src ∈ l
    let y : CSlot := if x.full = true ∧ x.tag = m.tag then x else { CSlot.zero with tag := m.tag, full := true }
    let k := mapGet ⟨0, 0, [], false⟩ y.src m.src
    let base := if m.part = 0 then 0 else if m.part = 1 then 512 else 576
    let parts := k.parts ||| (1#3 <<< m.part)
    let bytes := if m.part = 0 then m.bytes else k.bytes
    let status := BitVec.ofNat 1024 (m.tag % 2 ^ 32 + parts.toNat * 2 ^ 32 + bytes % 2 ^ 17 * 2 ^ 35)
    let s1 := match m.core with
      | some (c, _) => charge (s.dropWork i) c 2 (128 * m.lines.length)
      | none => s.dropWork i
    let puts := putSpoolLines s1 m.group m.dst m.src m.tag ((m.lines.zipIdx.map fun l => (base + l.2, l.1.1)) ++ [(640, status)])
    let own : Prop := m.src = m.dst ∧ m.part ≠ 0
    let mine (c seq : Nat) (w : Cmd) : Prop := m.core = some (c, seq) ∧ c < 256 ∧ cmdOf s c 3 seq = some w ∧ w.ended = none
    let ends (t : State) : Prop := ∀ c seq w, mine c seq w → OthersKept s t [c] ∧ (m.part = 0 →
      (cdDl (cap w.e 0) = true → verdictAt s m.group m.tag = none → cmdOf t c 3 seq = some { w with old := 1 }) ∧
      (cdDl (cap w.e 0) = false ∨ verdictAt s m.group m.tag ≠ none → posted t c w))
    let goes (P : State → Prop) : Prop := Runs .contributionWrite s fun t => P t ∧ (m.core = none → OthersKept s t [])
    (routeOf s e m.dst = none → ¬lost → ¬out →
      (own → goes fun t => t.dev = s.dev ∧ ends t ∧ slotOf t m.group m.dst m.tag =
        if m.part = 1 then (if y.ownA = [] then { y with ownA := m.lines } else y)
        else if y.ownR = [] then { y with ownR := m.lines } else y) ∧
      (¬own → k.parts.getLsbD m.part = true → goes fun t => t.dev = s.dev ∧ t.links = s.links ∧ ends t) ∧
      (¬own → k.parts.getLsbD m.part = false → puts.2 = none → goes fun t => t.dev = puts.1.dev ∧ ends t ∧
        ∃ codes, slotOf t m.group m.dst m.tag = { y with src := mapPut y.src m.src ⟨parts, bytes, codes, k.used⟩ } ∧
          ∀ j l, m.lines[j]? = some l → mapGet 0 codes (base + j) = l.2) ∧
      (¬own → k.parts.getLsbD m.part = false → ∀ va c seq w, puts.2 = some (false, va) → mine c seq w → (s.core c).trap = none →
        goes fun t => t.dev = puts.1.dev ∧ (t.core c).trap =
          some ⟨0x0D, true, 3, false, BitVec.ofNat 64 va, BitVec.ofNat 64 seq, (s.core c).seq.pc⟩)) ∧
    (routeOf s e m.dst = none → lost ∨ out → goes fun t => t.dev = s.dev ∧ t.links = s.links ∧ ends t ∧
      ∀ c seq w, mine c seq w → lost → m.part = 0 → (ctxOf s (s.core c).sys.casid).st = 6 →
        isLate t c ∧ (ctxOf t (s.core c).sys.casid).diverged = true) ∧
    (∀ p, routeOf s e m.dst = some p →
      (m.away = true → goes fun t => t.dev = s.dev ∧ t.links = s.links ∧ ends t) ∧
      (m.away = false → streamOf s p (grpTenant e) ≠ none → goes fun t => t.dev = s.dev ∧ OthersKept s t [] ∧
        (m.part = 0 → m.core ≠ none →
          ∃ z ∈ t.work, z.2 = .contrib { m with lines := [], away := true } ∧ s.cyc < z.1 ∧ z.1 ≤ s.cyc + devBound)) ∧
      (m.away = false → streamOf s p (grpTenant e) = none → ∀ c seq w, mine c seq w → goes fun t => t.dev = s.dev ∧ isLate t c ∧
        posted t c w ∧ OthersKept s t [c]))) ∧
  (∀ (s : State) (b : Barrier), deadlineDue s = some b → Runs .cbarDeadline s fun t =>
    barOf t b.group b.tag = some { b with
      verdict := some ((List.range (grpN (groupEntry s b.group))).filter fun r => !b.arrived.contains r) } ∧
    OthersKept s t [] ∧ t.dev = s.dev ∧ t.work = s.work ∧ t.links.slots = s.links.slots) ∧
  (∀ (s : State) (b : Barrier), verdictDue s = some b →
    let missing := b.verdict.getD []
    let told (t : State) : Prop := t.dev = s.dev ∧
      barOf t b.group b.tag = some { b with seen := grpN (groupEntry s b.group) :: localRanks s b.group } ∧
      ∀ r ∈ localRanks s b.group, let x := slotOf s b.group r b.tag
        slotOf t b.group r b.tag = if x.full = true ∧ x.tag = b.tag then { x with
          src := x.src.filter fun q => !missing.contains q.1
          ownA := if missing.contains r then [] else x.ownA, ownR := if missing.contains r then [] else x.ownR } else x
    (openCbars s b.group b.tag = [] → Runs .cbarVerdict s fun t => told t ∧ OthersKept s t [] ∧ t.work = s.work) ∧
    (∀ n m, openCbars s b.group b.tag = [(n, m)] → cmdOf s n 3 m.e.seq = some m → m.ended = none → m.replayed = false →
      (ctxOf s (s.core n).sys.casid).st = 0 → Runs .cbarVerdict s fun t => told t ∧ posted t n m ∧ OthersKept s t [n] ∧
        (t.core n).sp = (s.core n).sp ∧ (missing ≠ [] → isLate t n) ∧ (missing = [] → (t.core n).seq = (s.core n).seq))) ∧
  (∀ (s : State) (m : Cmd) (o : CagreeOp) (missing : List Nat) (ps : List (List (BitVec 1024 × BitVec 2))),
    collDue s s.cur = some m → cmdOf s s.cur 3 m.e.seq = some m → m.ended = none →
    let d := cap m.e 0
    let len := (collLines m.e).length
    let qs := (List.range (grpN (groupEntry s (cdGroup d)))).filter fun q => !missing.contains q
    let parts (p : Nat) := partsOf s s.cur m (slotOf s (cdGroup d) (cdRank d) (cdTag d)) p len qs
    let lines : List (List (BitVec 1024 × BitVec 2)) := (List.range len).map fun l => ps.map fun y => y[l]?.getD (0, 3)
    let ends (c : Core) (ws : List (BitVec 1024 × BitVec 2)) (t : State) : Prop :=
      t.me.sp = (writeLines c s.time s.cyc ⟨0, 3, m.e.seq⟩ 16
        (((collLines m.e).zip ws).map fun y => (⟨y.1, y.2.1, BitVec.allOnes 128, y.2.2, 2⟩ : LineWrite))).sp ∧ OthersKept s t [s.cur] ∧
      (∀ k, (lxWord m.e.i).post = true → k = (lxWord m.e.i).k → getSem t.me k = let x := getSem s.me k
        if x.count = x.ceil then { x with ovf := true } else { x with count := x.count + 1 }) ∧
      ∀ k, (lxWord m.e.i).post = false ∨ k ≠ (lxWord m.e.i).k → getSem t.me k = getSem s.me k
    (m.e.i = .cagree o → collEnd s m = .full missing → (parts 1).2 = .ok ps → Runs .collectiveCompletion s fun t =>
      ends ((parts 1).1.core s.cur) (lines.map fun ys => (agreeLine ys (!missing.isEmpty), 0)) t ∧ t.dev = (parts 1).1.dev) ∧
    (m.e.i = .credx o → collEnd s m = .full missing → (parts 2).2 = .ok ps → Runs .collectiveCompletion s fun t =>
      ends ((parts 2).1.core s.cur) (lines.zipIdx.map fun ys => redxLine (parts 2).1 (cdW64 d) ys.2 ys.1 (!missing.isEmpty)) t ∧
        t.dev = (parts 2).1.dev) ∧
    (m.e.i = .cagree o ∨ m.e.i = .credx o → collEnd s m = .lost → Runs .collectiveCompletion s fun t =>
      ends s.me (List.replicate len (0, 1)) t ∧ t.dev = s.dev ∧
        ((ctxOf s s.me.sys.casid).st = 6 → (ctxOf t s.me.sys.casid).diverged = true))) ∧
  (∀ (s : State) (m : Cmd) (o : CsendOp), collDue s s.cur = some m → cmdOf s s.cur 3 m.e.seq = some m → m.ended = none → m.e.i = .crecv o →
    let x := m.e.h.bits
    let d := cap m.e 0
    let sl := slotOf s (cdGroup d) (cdRank d) (cdTag d)
    let k := mapGet ⟨0, 0, [], false⟩ sl.src (cdPeer d)
    let len := min k.bytes (viewBytes x)
    let got := getSpoolLines s (cdGroup d) (cdRank d) (cdPeer d) (cdTag d) (List.range ((len + 127) / 128))
    let sends (work : List (Nat × Item)) (t : State) (items : List Item) : Prop :=
      (items = [] → posted t s.cur m) ∧ (items ≠ [] → ∃ ts : List (Nat × Item), t.work = work ++ ts ∧ ts.map (·.2) = items ∧
        ∀ z ∈ ts, s.cyc < z.1 ∧ z.1 ≤ s.cyc + devBound + 3417 * (items.flatMap itemGva).length)
    let uneq : Bool := decide (k.bytes ≠ viewBytes x)
    (∀ missing ys, collEnd s m = .full missing → got.2 = .ok ys →
      let lines : List (BitVec 1024 × BitVec 2) := ys.zipIdx.map fun y => (y.1.1, maxCode y.1.2.1 (mapGet 0 k.codes y.2))
      let es := recvElems x len (fun p => match lines[p / 128]? with
          | some y => (y.1.extractLsb' (8 * (p % 128)) 8).toNat
          | none => 0) fun p => match lines[p / 128]? with
          | some y => y.2
          | none => 0
      let refuses (e : OutElem) : Bool := (decide (hPpol x = 1) && decide (e.code ≠ 0)) || (decide (hPpol x = 2) && decide (e.code = 3))
      (∀ e, es.find? refuses = some e → s.me.trap = none → Runs .collectiveCompletion s fun t => t.dev = got.1.dev ∧
        t.me.trap = some ⟨0x12, true, 3, false, BitVec.ofNat 64 e.y.row, BitVec.ofNat 64 m.e.seq, s.me.seq.pc⟩) ∧
      (es.find? refuses = none → Runs .collectiveCompletion s fun t => t.dev = got.1.dev ∧
        sends got.1.work t (writeItems s.cur 3 m.e.seq x (if uneq then es.map fun e => { e with code := maxCode e.code 2 } else es) [0]) ∧
        (uneq = true → t.me.seq.psum.getLsbD 2 = true) ∧
        (slotOf t (cdGroup d) (cdRank d) (cdTag d)).src = mapPut sl.src (cdPeer d) { k with used := true })) ∧
    (collEnd s m = .excluded → Runs .collectiveCompletion s fun t => t.dev = s.dev ∧ isLate t s.cur ∧
      sends s.work t (lateRows s.cur m.e.seq x)) ∧
    (collEnd s m = .lost → Runs .collectiveCompletion s fun t => t.dev = s.dev ∧ isLate t s.cur ∧
      sends s.work t (writeItems s.cur 3 m.e.seq x (recvElems x (viewBytes x) (fun _ => 0) fun _ => 1) [0]) ∧
      ((ctxOf s s.me.sys.casid).st = 6 → (ctxOf t s.me.sys.casid).diverged = true))) ∧
  (∀ (s : State) (m : Cmd), collDue s s.cur = some m → cmdOf s s.cur 3 m.e.seq = some m → m.ended = none →
    (∀ o, m.e.i = .csend o → Runs .collectiveCompletion s fun t => posted t s.cur m ∧ t.dev = s.dev ∧ t.me.sp = s.me.sp ∧
      OthersKept s t [s.cur]) ∧
    (∀ o, m.e.i = .cbar o → Runs .collectiveCompletion s fun t => isLate t s.cur ∧ posted t s.cur m ∧ t.dev = s.dev ∧
      t.me.sp = s.me.sp ∧ OthersKept s t [s.cur]))

/-- R29, R82, R83, R90, R297 to R299: an engine word at the PC becomes the last entry of its queue, with its number, its delta and
the operand values of this moment; while the queue is full nothing happens; a word that fails a check traps precisely, charged
to its queue; a violation (R36) keeps its handle or address for the violation record. -/
def Obligations.EngineWordEnqueue : Prop :=
  ∀ (s : State) (i : Instr) (w : IWord) (q : Nat), fetchWord s s.me = w → decode w = .ok i → queueOfWord w = some q →
    let e := entryOf s.me q i w
    (deltaOk s.me i w = true → enqCheck s s.me i e w = .ok → (s.me.queue q).ents.length < 64 → Runs .enqueue s fun t =>
      (t.me.queue q).ents = (s.me.queue q).ents ++ [e] ∧ (t.me.queue q).next = ((s.me.queue q).next + 1) % 2 ^ 32 ∧
      (t.me.queue q).running = true ∧ (∀ k, k < 4 → k ≠ q → t.me.queue k = s.me.queue k) ∧ t.me.seq.pc = s.me.seq.pc + 1 ∧
      NoReg s.me t.me ∧ KeepsLoops s.me t.me ∧ KeepsEngines s.me t.me ∧ t.me.sp = s.me.sp ∧ t.me.task = s.me.task ∧ KeepsRest s t) ∧
    (e.seq = (s.me.queue q).next ∧ e.d = (fld w 34 4).toNat ∧ e.mark = false ∧
      ((fld w 44 4).toNat < 5 ∨ 7 < (fld w 44 4).toNat → e.i = i ∧ e.caps = (capRegs i).map (getS s.me))) ∧
    (deltaOk s.me i w = true → enqCheck s s.me i e w = .ok → 64 ≤ (s.me.queue q).ents.length → exec .enqueue s = .next s) ∧
    (deltaOk s.me i w = false → s.me.trap = none → Runs .enqueue s fun t =>
      TrapSet s t ⟨0x01, false, q, false, 4, w.setWidth 64, s.me.seq.pc⟩) ∧
    (∀ (k : Nat) (a b : Word), deltaOk s.me i w = true → enqCheck s s.me i e w = .trap k a b → s.me.trap = none →
      (isViolation k = false → Runs .enqueue s fun t => TrapSet s t ⟨k, false, q, false, a, b, s.me.seq.pc⟩) ∧
      (isViolation k = true → Runs .enqueue s fun t => TrapSet s t ⟨k, false, q, false, 0, 0, s.me.seq.pc⟩ ∧ t.me.violAt = a))

/-- R36 to R38, R74, R82 to R84, R212, R213, R215, R324, R332, R432, R433: words that are none, the watchdog, breakpoints and work stops
raise their causes; a trap whose bit of TRAPEN is set saves the cut and the cause and goes to the handler at TRAPVEC; else it
ends the launch; a debug stop stands at the cut, and tears the interval that its core is a member of (R260; log entry 140); a violation
kills the launch and leaves the core idle; the timer is noted. -/
def Obligations.TrapEvents : Prop :=
  (∀ (s : State), s.me.sys.codesize ≤ s.me.seq.pc.toNat → RaisesAt .illegalWord s 0x04 (s.me.seq.pc.setWidth 64) 0) ∧
  (∀ (s : State) (w : IWord) (sub : BitVec 4), s.me.seq.pc.toNat < s.me.sys.codesize → fetchWord s s.me = w → decode w = .illegal sub →
    (queueOfWord w = none → RaisesAt .illegalWord s 0x01 (sub.setWidth 64) (w.setWidth 64)) ∧
    (∀ q, queueOfWord w = some q → s.me.trap = none →
      let h := (getH s.me (fld w 29 5)).st
      let traps (k : Nat) (a b : Word) : Prop := Runs .illegalWord s fun t => TrapSet s t ⟨k, false, q, false, a, b, s.me.seq.pc⟩
      let atom : Prop := fld w 44 4 = 10 ∧ fld w 38 6 ∈ [1, 2, 3] ∧ sub = 3
      (¬atom ∨ h = .valid → traps 0x01 (sub.setWidth 64) (w.setWidth 64)) ∧
      (atom → h = .empty → traps 0x01 5 (w.setWidth 64)) ∧
      (atom → h = .revoked → traps 0x0C (BitVec.ofNat 64 (fld w 29 5).toNat) 0))) ∧
  (∀ (s : State) (p : PendTrap), s.me.trap = some p → isViolation p.cause = false → issuedDone s.me = true → s.me.late = [] →
    (s.me.sys.trapen.getLsbD p.cause = true → s.me.sys.inh = false → s.me.life ≠ .draining → s.me.life ≠ .saving → p.cause ≠ 0x1B →
      p.cause ≠ 0x3F → p.cause ≠ 0x1D → Runs .trapEntry s fun t =>
        t.me.trap = none ∧ t.me.seq.pc = s.me.sys.trapvec ∧ t.me.sys.inh = true ∧
        t.me.sys.cause = (if p.seqw then 1#1 else 0#1) ++ BitVec.ofNat 2 p.q ++ (if p.async then 1#1 else 0#1) ++ BitVec.ofNat 6 p.cause ∧
        t.me.sys.info0 = p.info0 ∧ t.me.sys.info1 = p.info1 ∧ t.me.sys.cutpc = p.cut ∧
        t.me.sys.cutM = BitVec.ofNat 32 (cutOf s.me.qm) ∧ t.me.sys.cutV = BitVec.ofNat 32 (cutOf s.me.qv) ∧
        t.me.sys.cutC = BitVec.ofNat 32 (cutOf s.me.qc) ∧ t.me.sys.cutL = BitVec.ofNat 32 (cutOf s.me.ql) ∧
        t.me.sys.trapen = s.me.sys.trapen ∧ t.me.sys.trapvec = s.me.sys.trapvec ∧ t.me.sys.scr0 = s.me.sys.scr0 ∧
        (∀ q, q < 4 → (t.me.queue q).ents = waitless (s.me.queue q)) ∧ NoReg s.me t.me ∧ KeepsLoops s.me t.me ∧ t.me.vec = s.me.vec ∧
        t.me.mx = s.me.mx ∧ t.me.h = s.me.h ∧ t.me.sp = s.me.sp ∧ t.me.cn.k = s.me.cn.k ∧ t.me.cn.chart = s.me.cn.chart ∧
        ((∀ q, q < 4 → (s.me.queue q).bwait = false) → t.me.cn = s.me.cn ∧ t.me.task = s.me.task) ∧ KeepsRest s t) ∧
    ((s.me.sys.trapen.getLsbD p.cause = false ∨ s.me.sys.inh = true ∨ s.me.life = .draining ∨ s.me.life = .saving ∨ p.cause = 0x1B ∨
        p.cause = 0x3F) →
      p.cause ≠ 0x1D → s.me.life ≠ .idle → Runs .trapEntry s fun t =>
        LaunchEnds s t s.me.task.launch false p.cause ∧ (NothingSaved s → t.dev = s.dev) ∧ t.me.sp = s.me.sp ∧
        ∃ r, t.meas.rc = some r ∧ s.cur ∈ r.set) ∧
    (p.cause = 0x1D → fieldOf p.info0 32 2 = 2 → Runs .trapEntry s fun t =>
      (dbgOf t s.me.sys.tenant).wsarm = false ∧ NoReg s.me t.me ∧ t.me.sp = s.me.sp ∧ (NothingSaved s → t.dev = s.dev) ∧
      (s.cur ∉ (ctxOf s s.me.sys.casid).members → t.me.dstop = true ∧ t.me.trap = none ∧ t.me.seq.pc = p.cut ∧
        t.me.sys.inh = s.me.sys.inh ∧ t.me.sys.info0 = p.info0 ∧ t.me.sys.info1 = p.info1 ∧ OthersKept s t [s.cur] ∧ t.dev = s.dev) ∧
      (s.cur ∈ (ctxOf s s.me.sys.casid).members → (ctxOf s s.me.sys.casid).st ∈ [1, 2, 6] → NothingSaved s →
        (ctxOf t s.me.sys.casid).st = 4 ∧ (ctxOf t s.me.sys.casid).held = []))) ∧
  (∀ (s : State) (p : PendTrap), s.me.trap = some p → isViolation p.cause = true → s.me.life ≠ .idle → Runs .violation s fun t =>
    LaunchEnds s t s.me.task.launch true p.cause ∧ ⟨p.cause, s.cur, s.me.sys.tenant, s.me.violAt, s.time⟩ ∈ t.thim.viols ∧
    (∀ q, q < 4 → (t.me.queue q).ents = []) ∧ t.me.trap = none ∧ NoReg s.me t.me ∧ t.me.sp = s.me.sp ∧ (NothingSaved s → t.dev = s.dev)) ∧
  (∀ (s : State), releaseReady s.me = true → Runs .violationRelease s fun t =>
    t.me.life = .idle ∧ t.me.frozenV = false ∧ t.me.seq.psum = 0 ∧ t.me.seq.lstk = [] ∧ t.me.mx.mxevt = 0 ∧ NoReg s.me t.me ∧
    t.me.sp = s.me.sp ∧ (NothingSaved s → (∃ m, m ≠ s.cur ∧ runsLaunch (s.core m) s.me.task.launch = true) →
      OthersKept s t [s.cur] ∧ t.dev = s.dev)) ∧
  (∀ (s : State) (l : Launch), launchOf s s.me.task.launch = some l → l.st ≠ .ending → s.me.life = .running → s.me.trap = none →
    s.me.sys.wdlimit ≠ 0 → s.me.sys.wdlimit.toNat ≤ s.me.sys.wdcount.toNat → s.me.frozenV = false → s.me.dstop = false →
    s.me.task.requeue = false → Runs .watchdog s fun t =>
      TrapSet s t ⟨0x1B, false, 0, false, s.me.sys.wdlimit, s.me.seq.pc.setWidth 64, s.me.seq.pc⟩) ∧
  (∀ (s : State) (n : Nat), pcMatch s s.cur = some n → Runs .pcMatch s fun t =>
    TrapSet s t ⟨0x1D, false, 0, true, BitVec.ofNat 64 (2 ^ 32 + n), s.me.task.w, s.me.seq.pc⟩) ∧
  (∀ (s : State), workReached s s.cur = true → Runs .workStop s fun t =>
    TrapSet s t ⟨0x1D, false, 0, true, 0x200000000, s.me.task.w, s.me.seq.pc⟩) ∧
  (∀ (s : State), s.me.sys.timer = false → s.me.sys.timecmp ≠ 0 → s.me.sys.timecmp.toNat ≤ s.time → Runs .timerEvent s fun t =>
    t.me.sys = { s.me.sys with timer := true } ∧ NoReg s.me t.me ∧ t.me.seq = s.me.seq ∧ t.me.sp = s.me.sp ∧
    KeepsQueues s.me t.me ∧ KeepsRest s t)

/-- R24 to R28, R34, R248, R321, R337 to R340: a dispatch gives a core the record's task, charges the owner's pass and begins the
loads; the start sets s1 to s5, s62, the PC and the handle registers; a load that does not translate ends the launch; the end of a
task leaves the core idle and reports its counts; a scrub leaves nothing of the last tenant, nor the translations that its core
held; its row of the chart is the model's (log entry 133). A spare site that is due takes its place as a task comes to the form
(R39). -/
def Obligations.TaskEvents : Prop :=
  (∀ (s : State) (o k u : Nat) (r : TRec) (l : Launch), nextDispatch s = some (o, k, u) →
    s.sched.recs.find? (fun e => decide (e.1 = k)) = some (k, r) → launchOf s r.lk = some l → lForm l = false → Runs .dispatch s fun t =>
      (t.core u).life = .loading ∧ (t.core u).task.launch = r.lk ∧ (t.core u).task.recno = k ∧
      (t.core u).task.index = BitVec.ofNat 64 r.index ∧ (t.core u).task.x = r.x ∧ (t.core u).task.y = r.y ∧ (t.core u).task.z = r.z ∧
      (t.core u).task.stage = r.stg ∧ (t.core u).sys.casid = lAsid l ∧ (t.core u).sys.owner = lOwner l ∧ (t.core u).sys.wdcount = 0 ∧
      (t.core u).sp = (s.core u).sp ∧ OthersKept s t [u] ∧ t.dev = s.dev ∧
      mapGet 0 t.sched.pass o = mapGet 0 (settlePasses s (eligible s)).sched.pass o + 2 ^ 20 / mapGet 0 s.sched.weight o ∧
      mapGet 0 t.plat.spareDue (u / 8) = 0 ∧
      (mapGet 0 s.plat.spareDue (u / 8) ≠ 0 → mapGet 0 t.plat.spare (u / 8) = mapGet 0 s.plat.spareDue (u / 8)) ∧
      ∃ x, t.work = s.work ++ [x] ∧ x.2 = if r.saved.isSome then .resume u else .start u) ∧
  (∀ (s : State) (k : Nat) (r : TRec), patienceOver s = some k → s.sched.recs.find? (fun e => decide (e.1 = k)) = some (k, r) →
    Runs .placementPatienceExpiry s fun t => SchedOnly s t ∧ t.sched.recs = mapPut s.sched.recs k { r with patience := true } ∧
      t.sched.launches = s.sched.launches) ∧
  (∀ (s : State) (n k : Nat) (r : TRec) (l : Launch) (w : List (Nat × Item)),
    takeFrom (fun x => decide (x.1 ≤ s.cyc) && (match x.2 with
      | .start n => !needsScrub s n
      | _ => false)) s.work = some (.start n, w) →
    (s.core n).life = .loading → (s.core n).task.recno = k → (s.core n).task.fresh = false →
    s.sched.recs.find? (fun e => decide (e.1 = k)) = some (k, r) → launchOf s (s.core n).task.launch = some l → (s.core n).task.grp = false →
    (r.fsize = 0 → fieldOf l.pkt 352 48 = 0 → Runs .taskStart s fun t =>
      (t.core n).life = .running ∧ (t.core n).seq.pc = BitVec.ofNat 32 r.entry ∧ getS (t.core n) 1 = BitVec.ofNat 64 r.x ∧
      getS (t.core n) 2 = BitVec.ofNat 64 r.y ∧ getS (t.core n) 3 = BitVec.ofNat 64 r.z ∧ getS (t.core n) 4 = BitVec.ofNat 64 r.stg ∧
      getS (t.core n) 5 = BitVec.ofNat 64 r.index ∧ getS (t.core n) 62 = BitVec.ofNat 64 r.frame ∧
      (∀ m : BitVec 6, m ∉ [1#6, 2#6, 3#6, 4#6, 5#6, 62#6] → getS (t.core n) m = getS (s.core n) m) ∧
      (∀ m, hreg (t.core n) m = Handle.none) ∧ (t.core n).sys.trapen = 0 ∧ (t.core n).sys.inh = false ∧ (t.core n).sys.lvalid = false ∧
      (∀ q, q < 4 → ((t.core n).queue q).ents = [] ∧ ((t.core n).queue q).next = 0) ∧ (t.core n).trap = none ∧
      (t.core n).sp = (s.core n).sp ∧ (t.core n).vec = (s.core n).vec ∧ OthersKept s t [n] ∧ t.dev = s.dev ∧ t.work = w) ∧
    (bankWaits (s.core n) (startLines s n) = true → Runs .taskStart s fun t => (t.core n).life = .loading ∧ NoReg (s.core n) (t.core n) ∧
      (t.core n).sp.bytes = (s.core n).sp.bytes ∧ t.work = w ++ [(s.cyc + 2048, .start n)] ∧ OthersKept s t [n] ∧ t.dev = s.dev) ∧
    (r.fsize ≠ 0 → bankWaits (s.core n) (startLines s n) = false → translate s 256 (lAsid l) r.frame l.tenant false = .fault →
      NothingSaved s → Runs .taskStart s fun t =>
      LaunchEnds s t (s.core n).task.launch false 0x0D ∧ t.dev = (walkReads s (lAsid l) l.tenant r.frame).dev ∧ t.work = w)) ∧
  (∀ (s : State), s.me.life = .draining → s.me.frozenV = false → drained s.me = true → s.me.task.requeue = false →
    Runs .taskCompletion s fun t =>
      t.me.life = .idle ∧ t.me.seq.psum = 0 ∧ t.me.seq.lstk = [] ∧ t.me.mx.mxevt = 0 ∧ NoReg s.me t.me ∧ t.me.sp = s.me.sp ∧
      t.me.vec = s.me.vec ∧ (NothingSaved s → t.dev = s.dev ∧
      ∀ l l', launchOf s s.me.task.launch = some l → launchOf t s.me.task.launch = some l' →
        l'.work = l.work + s.me.task.w.toNat ∧ l'.fcs = l.fcs + s.me.task.fcs ∧ (s.me.seq.psum ≠ 0 → l'.tainted = true))) ∧
  (∀ (s : State) (l : Launch), launchOf s s.me.task.launch = some l → s.me.life = .loading → l.tenant ≠ s.me.sys.tenant →
    Runs .scrub s fun t => t.me.cmds = s.me.cmds.filter (·.ended.isSome) ∧
      (∀ a, memRead t.me.sp.bytes a = 0) ∧ (∀ n, lineCode t.me n = 0) ∧
      (∀ n, mapGet t.me.sp.tagDef t.me.sp.tag n = l.tenant) ∧ (∀ r, getS t.me r = 0) ∧ t.me.vec = ⟨[], [], [], [], []⟩ ∧
      (∀ m, hreg t.me m = Handle.none) ∧ t.me.mx.tiles = [] ∧ t.me.mx.g = [] ∧ t.me.cn.k = [] ∧
      (∀ n, mapGet 0 t.me.cn.chart n = if 832 ≤ n ∧ n < 896 then 1024 else 0) ∧
      t.me.sys.tenant = l.tenant ∧ t.me.sys.trapvec = 0 ∧ t.me.sys.scr0 = 0 ∧ t.me.sp.retreq = s.me.sp.retreq ∧ t.me.life = .loading ∧
      OthersKept s t [s.cur] ∧ t.dev = { s.dev with tlb := s.dev.tlb.filter fun x => decide (x.unit ≠ s.cur) })

/-- R39, R341, R343 to R351, R398: a slice that ends pre-empts the task when another owner's record waits: by checkpoint, or by kill
where that costs less; a recall waits until the form is idle; a checkpoint takes a slot, waits for the banks that it reads, and leaves
the core idle with the task's state saved, and resumption restores it from the slot; a core that fails is replaced by the spare site
when a task next comes to the form (TaskEvents), or its form is disabled. -/
def Obligations.PreemptionEvents : Prop :=
  (∀ (s : State), sliceOver s s.cur = true →
    let d := rivalOf { s with sched := { s.sched with dispatchAt := mapPut s.sched.dispatchAt s.cur s.cyc } } s.cur
    (d.2 = none → Runs .sliceEnd s fun t => SchedOnly s t ∧ t.work = s.work ∧
      t.sched.dispatchAt = mapPut s.sched.dispatchAt s.cur s.cyc) ∧
    (∀ (o a tok : Nat) (l : Launch), d.2 = some (o, a, tok) → o ≠ s.me.sys.owner ∨ a ≠ s.me.sys.casid →
      launchOf s s.me.task.launch = some l → s.me.task.grp = false →
      (lDrain l = false → lKill l = true → s.me.sys.wdcount.toNat < (saveBytes s.me + 255) / 256 → Runs .sliceEnd s fun t =>
        t.me.life = .draining ∧ t.me.task.requeue = true ∧ (∀ q, q < 4 → (t.me.queue q).ents = []) ∧ t.me.cmds = s.me.cmds ∧
        t.me.sp = s.me.sp ∧ OthersKept s t [s.cur] ∧ t.dev = (slotsRead d.1 l).dev ∧ t.work = s.work) ∧
      (∀ k ks, lDrain l = false → lKill l = false → lCkpt l = true → freeSlots (slotsRead d.1 l) l = k :: ks → Runs .sliceEnd s fun t =>
        t.me.life = .saving ∧ (∀ q, q < 4 → (t.me.queue q).ents = waitless (s.me.queue q)) ∧ NoReg s.me t.me ∧ t.me.sp = s.me.sp ∧
        OthersKept s t [s.cur] ∧ t.dev = (slotBit (slotsRead d.1 l) l k true).dev ∧
        (∀ e ∈ t.sched.recs, e.1 = s.me.task.recno → e.2.saved = some k) ∧ ∃ x, t.work = s.work ++ [x] ∧ x.2 = .save s.cur))) ∧
  (∀ (s : State), (recallEnds s (s.cur / 8) = true → Runs .recallForm s fun t => SchedOnly s t ∧ flendOf t (s.cur / 8) = 0) ∧
    (recallEnds s (s.cur / 8) = false → recallDue s (s.cur / 8) = true → Runs .recallForm s fun t =>
      (flendOf t (s.cur / 8)).getLsbD 13 = true ∧ t.dev = s.dev ∧
      ∀ n, n / 8 ≠ s.cur / 8 → t.core n = s.core n)) ∧
  (∀ (s : State) (i n : Nat) (l : Launch),
    workDue s (fun it => match it with
      | .save _ => true
      | _ => false) = some (i, .save n) →
    (s.core n).life = .saving → launchOf s (s.core n).task.launch = some l → ∀ r : TRec,
    s.sched.recs.find? (fun e => decide (e.1 = (s.core n).task.recno)) = some ((s.core n).task.recno, r) →
    ((s.core n).trap.isSome = true → Runs .contextSave s fun t => t.work = (s.dropWork i).work ++ [(s.cyc + 1, .save n)] ∧
      t.cores = s.cores ∧ t.dev = s.dev ∧ t.sched = s.sched) ∧
    ((s.core n).trap = none → bankWaits (s.core n) (saveLines (s.core n)) = true → Runs .contextSave s fun t =>
      (t.core n).life = .saving ∧ NoReg (s.core n) (t.core n) ∧
      (t.core n).sp.bytes = (s.core n).sp.bytes ∧ (s.cyc + 2048, .save n) ∈ t.work ∧ OthersKept s t [n] ∧ t.dev = s.dev) ∧
    (∀ x, bankWaits (s.core n) (saveLines (s.core n)) = false → x ∈ saveLines (s.core n) → tagOk (s.core n) x = false →
      (s.core n).trap = none → Runs .contextSave s fun t =>
        (t.core n).trap = some ⟨0x0B, true, 0, false, 0, 0, (s.core n).seq.pc⟩ ∧ (t.core n).frozenV = true ∧
        (t.core n).sp = (s.core n).sp ∧ OthersKept s t [n] ∧ t.dev = s.dev) ∧
    (∀ k, r.saved = some k → bankWaits (s.core n) (saveLines (s.core n)) = false → (∀ x ∈ saveLines (s.core n), tagOk (s.core n) x = true) →
      (s.core n).trap = none → (s.core n).sp.sbe = [] → (s.core n).sp.dbe = [] →
      let u := (s.dropWork i).setCore n (bankUse (countAll (s.core n)) s.cyc (saveLines (s.core n)))
      (putSlot u n l (slotBase l k) (saveImage (cutCore (u.core n)))).2 = none → Runs .contextSave s fun t =>
      (t.core n).life = .idle ∧ (∀ q, q < 4 → ((t.core n).queue q).ents = []) ∧ OthersKept s t [n] ∧
      ∃ sv, t.sched.saved.find? (fun e => decide (e.1 = (s.core n).task.recno)) = some ((s.core n).task.recno, sv) ∧
        sv.seq.pc = (s.core n).seq.pc ∧ (∀ r, getS sv r = getS (s.core n) r) ∧ sv.seq.lstk = (s.core n).seq.lstk ∧
        sv.seq.psum = (s.core n).seq.psum ∧ sv.vec = (s.core n).vec ∧ sv.mx = (s.core n).mx ∧ sv.h = (s.core n).h ∧
        KeepsPad (s.core n) sv ∧ sv.cn.k = (s.core n).cn.k ∧ sv.sys.trapvec = (s.core n).sys.trapvec)) ∧
  (∀ (s : State) (i n : Nat) (l : Launch) (sv : Core) (r : TRec) (slot : Nat),
    workDue s (fun it => match it with
      | .resume _ => true
      | _ => false) = some (i, .resume n) →
    (s.core n).life = .loading → launchOf s (s.core n).task.launch = some l → (s.core n).task.grp = false →
    s.sched.saved.find? (fun e => decide (e.1 = (s.core n).task.recno)) = some ((s.core n).task.recno, sv) →
    s.sched.recs.find? (fun e => decide (e.1 = (s.core n).task.recno)) = some ((s.core n).task.recno, r) → r.saved = some slot →
    let u := (s.dropWork i).setCore n (bankUse (s.core n) s.cyc (saveLines sv))
    (bankWaits (s.core n) (saveLines sv) = true → Runs .contextResume s fun t => (t.core n).life = .loading ∧
      NoReg (s.core n) (t.core n) ∧ (s.cyc + 2048, .resume n) ∈ t.work ∧ OthersKept s t [n] ∧ t.dev = s.dev) ∧
    (∀ v rd corr, bankWaits (s.core n) (saveLines sv) = false → readSlot u n l (slotBase l slot) sv = (v, .ok (rd, corr)) → rd.cmds = [] →
      Runs .contextResume s fun t =>
      (t.core n).life = (if rd.task.exited then .draining else .running) ∧ (t.core n).seq.pc = rd.seq.pc ∧ (t.core n).seq.lstk = rd.seq.lstk ∧
      (t.core n).seq.psum = rd.seq.psum ∧ (t.core n).sys.trapvec = rd.sys.trapvec ∧ (t.core n).sys.trapen = rd.sys.trapen ∧
      (t.core n).sys.tenant = (s.core n).sys.tenant ∧ (t.core n).mx.mxevt = rd.mx.mxevt ∧
      (t.core n).task = { rd.task with told := false, recno := (s.core n).task.recno } ∧
      (t.core n).cn.chart = (s.core n).cn.chart ∧ t.dev = (slotBit v l slot false).dev ∧ OthersKept s t [n] ∧
      (∀ x : BitVec 6, liveR rd 0 x.toNat = true → getS (t.core n) x = getS rd x) ∧
      (∀ x, x < 1024 → liveV rd x = true → mapGet VReg.zero (t.core n).vec.v x = mapGet VReg.zero rd.vec.v x) ∧
      (∀ a, liveB rd (a / 131072) = true → memRead (t.core n).sp.bytes a = memRead rd.sp.bytes a ∧
        lineCode (t.core n) (a / 128) = lineCode rd (a / 128)))) ∧
  (∀ (s : State) (o : IdxEv), o.idx < 256 →
    let used := mapGet 0 s.plat.spare (o.idx / 8) + mapGet 0 s.plat.spareDue (o.idx / 8)
    (Runs (.coreFailure o) s fun t => (t.core o.idx).life = .idle ∧ mapGet false t.plat.siteBad (9 * (o.idx / 8) + siteOf s o.idx) = true) ∧
    (used = 0 → mapGet false s.plat.siteBad (9 * (o.idx / 8) + 8) = false → Runs (.coreFailure o) s fun t =>
      mapGet 0 t.plat.spareDue (o.idx / 8) = o.idx % 8 + 1 ∧ formEn t (o.idx / 8) = formEn s (o.idx / 8) ∧ (t.core o.idx).failed = false) ∧
    (used ≠ 0 → Runs (.coreFailure o) s fun t => formEn t (o.idx / 8) = false ∧ (t.core o.idx).failed = true))

/-- R325 to R328, R335, R336, R382: the spool registers. A kick sets the tail and the pending bit, or stops the spool with SPERR 1
or 3; configuration is taken only while the spool is disabled; a completion record is written at CSPROD and counted, or CSERR
is set. -/
def Obligations.SpoolEvents : Prop :=
  (∀ (s : State) (o : KickEv) (i : Nat), spoolNo s o.vf o.n = some i → (tdiOf s o.vf).st = 2 → (spoolOf s i).cfg.getLsbD 63 = true →
    (spoolOf s i).stop = false →
    let x := spoolOf s i
    let beyond := 2 ^ fieldOf x.cfg 58 5 < (o.value.toNat + 2 ^ 32 - x.head) % 2 ^ 32
    (¬(x.cfg.getLsbD 64 = true ∧ o.relaxed = true) → ¬beyond → Runs (.spkick o) s fun t => SchedOnly s t ∧ t.work = s.work ∧
      spoolOf t i = { x with tail := o.value.toNat } ∧ (∀ j, j ≠ i → spoolOf t j = spoolOf s j) ∧
      ∀ j, j < 1024 → t.sched.pkb.getLsbD j = (s.sched.pkb.getLsbD j || decide (j = i))) ∧
    (x.cfg.getLsbD 64 = true → o.relaxed = true → Runs (.spkick o) s fun t => SchedOnly s t ∧
      spoolOf t i = { x with err := 1, stop := true } ∧ t.sched.pkb = s.sched.pkb) ∧
    (¬(x.cfg.getLsbD 64 = true ∧ o.relaxed = true) → beyond → Runs (.spkick o) s fun t => SchedOnly s t ∧
      spoolOf t i = { x with err := 3, stop := true } ∧ t.sched.pkb = s.sched.pkb)) ∧
  (∀ (s : State) (o : VfRegEv) (i : Nat), spoolNo s o.vf o.n = some i → (tdiOf s o.vf).st ≠ 3 →
    let x := spoolOf s i
    (o.off = 0 → x.cfg.getLsbD 63 = false → 4 ≤ fieldOf o.value 58 5 → fieldOf o.value 58 5 ≤ 16 → Runs (.spoolRegWrite o) s fun t =>
      SchedOnly s t ∧ (∀ j, j < 64 → (spoolOf t i).cfg.getLsbD j = (decide (12 ≤ j) && o.value.getLsbD j)) ∧
      (spoolOf t i).cfg.getLsbD 64 = x.cfg.getLsbD 64 ∧
      (o.value.getLsbD 63 = true → (spoolOf t i).head = 0 ∧ (spoolOf t i).tail = 0) ∧
      (o.value.getLsbD 63 = false → (spoolOf t i).head = x.head ∧ (spoolOf t i).tail = x.tail)) ∧
    (o.off = 0 → x.cfg.getLsbD 63 = true → Runs (.spoolRegWrite o) s fun t => SchedOnly s t ∧
      (spoolOf t i).cfg.getLsbD 63 = o.value.getLsbD 63 ∧ fieldOf (spoolOf t i).cfg 0 63 = fieldOf x.cfg 0 63) ∧
    (o.off = 8 → x.cfg.getLsbD 63 = false → Runs (.spoolRegWrite o) s fun t => SchedOnly s t ∧
      (spoolOf t i).cfg.getLsbD 64 = o.value.getLsbD 0 ∧ fieldOf (spoolOf t i).cfg 0 64 = fieldOf x.cfg 0 64)) ∧
  (∀ (s : State) (o : TwoEv) (i : Nat), spoolNo s o.a o.b = some i → (tdiOf s o.a).st ≠ 3 → Runs (.spstopClear o) s fun t =>
    SchedOnly s t ∧ spoolOf t i = { spoolOf s i with err := 0, stop := false } ∧
    ∀ j, j < 1024 → t.sched.pkb.getLsbD j =
      (s.sched.pkb.getLsbD j || (decide (j = i) && decide ((spoolOf s i).head ≠ (spoolOf s i).tail)))) ∧
  (∀ (s : State) (o : IdxValEv),
    let first := fieldOf o.value 0 10
    let cnt := fieldOf o.value 15 5
    (tdiOf s o.idx).st = 0 → (∀ n i, n < 16 → spoolNo s o.idx n = some i → (spoolOf s i).cfg.getLsbD 63 = false) →
    first + cnt ≤ 1024 → cnt ≤ 16 →
    (∀ e ∈ s.sched.spalloc, e.1 ≠ o.idx → cnt = 0 ∨ fieldOf e.2 15 5 = 0 ∨
      ¬(first < fieldOf e.2 0 10 + fieldOf e.2 15 5 ∧ fieldOf e.2 0 10 < first + cnt)) →
    Runs (.spallocWrite o) s fun t => SchedOnly s t ∧ (∀ n, spoolNo t o.idx n = if n < cnt then some (first + n) else none) ∧
      ∀ v n, v ≠ o.idx → spoolNo t v n = spoolNo s v n) ∧
  (∀ (s : State) (o : VfRegEv), (tdiOf s o.vf).st ≠ 3 →
    let x := cspoolOf s o.vf o.n
    let en := o.value.getLsbD 63
    ((x.prod + 2 ^ 32 - fieldOf o.value 32 32) % 2 ^ 32 ≤ 2 ^ fieldOf x.cfg 58 5 → Runs (.csconsWrite o) s fun t => SchedOnly s t ∧
      cspoolOf t o.vf o.n = { x with cons := fieldOf o.value 32 32 }) ∧
    (2 ^ fieldOf x.cfg 58 5 < (x.prod + 2 ^ 32 - fieldOf o.value 32 32) % 2 ^ 32 → exec (.csconsWrite o) s = .next s) ∧
    (o.off = 0 → x.cfg.getLsbD 63 = false → 4 ≤ fieldOf o.value 58 5 → fieldOf o.value 58 5 ≤ 16 →
      Runs (.completionSpoolRegWrite o) s fun t => SchedOnly s t ∧ cspoolOf t o.vf o.n =
        { cfg := o.value &&& 0xFFFFFFFFFFFFF000, prod := if en then 0 else x.prod, cons := if en then 0 else x.cons, err := x.err }) ∧
    (o.off = 16 → o.value.getLsbD 1 = true → Runs (.completionSpoolRegWrite o) s fun t => SchedOnly s t ∧
      cspoolOf t o.vf o.n = { x with err := false })) ∧
  (∀ (s : State) (i : Nat) (d : Done), nextDone s = some i → s.sched.dones[i]? = some d → (cspoolOf s d.vf d.csp).cfg.getLsbD 63 = true →
    let x := cspoolOf s d.vf d.csp
    let u : State := { s with sched := { s.sched with dones := s.sched.dones.eraseIdx i, launches := mapDel s.sched.launches d.lk } }
    let va := fieldOf x.cfg 0 48 + 32 * (x.prod % 2 ^ fieldOf x.cfg 58 5)
    let tn := (tdiOf s d.vf).tenant
    let w := devWrite u (fieldOf x.cfg 48 10) tn 2 va d.rec0.toNat 32
    Runs .completionRecordWrite s fun t => t.dev = w.1.dev ∧ t.ctxs = w.1.ctxs ∧ t.links = w.1.links ∧ t.cores = s.cores ∧
      cspoolOf t d.vf d.csp = (if w.2 = .done then { x with prod := (x.prod + 1) % 2 ^ 32 } else { x with err := true }) ∧
      t.sched.dones = s.sched.dones.eraseIdx i ∧ mapHas t.sched.launches d.lk = false)

/-- R328 to R333: the packets. Service rotates to the next pending spool; a packet that cannot be taken stops its spool; a launch
packet makes a launch or is refused with its reason; release, cancel and NOP act as their kinds say. -/
def Obligations.PacketEvents : Prop :=
  (∀ (s : State) (i : Nat), s.sched.burst = 0 → nextSpool s = some i → Runs .spoolService s fun t => SchedOnly s t ∧ t.work = s.work ∧
    t.sched.served = i ∧ t.sched.burst = 8 ∧ (∀ j, j < 1024 → t.sched.pkb.getLsbD j = (s.sched.pkb.getLsbD j && decide (j ≠ i))) ∧
    t.sched.spools = s.sched.spools ∧ t.sched.launches = s.sched.launches) ∧
  (∀ (s : State), s.sched.burst ≠ 0 →
    let i := s.sched.served
    (peekPacket s i = .unreadable → Runs .spoolService s fun t => SchedOnly (readPacket s i) t ∧ t.sched.burst = 0 ∧
      spoolOf t i = { spoolOf s i with err := 4, stop := true } ∧ t.sched.launches = s.sched.launches) ∧
    (peekPacket s i = .badKind → Runs .spoolService s fun t => SchedOnly (readPacket s i) t ∧ t.sched.burst = 0 ∧
      spoolOf t i = { spoolOf s i with err := 2, stop := true } ∧ t.sched.launches = s.sched.launches) ∧
    (peekPacket s i = .mismatch → Runs .spoolService s fun t => SchedOnly (readPacket s i) t ∧ t.sched.burst = 0 ∧
      t.work = s.work ++ [(s.cyc + 1700, .rereadPacket i)] ∧ spoolOf t i = { spoolOf s i with reread := some (spoolOf s i).head })) ∧
  (∀ (s : State) (i : Nat) (w : List (Nat × Item)),
    takeFrom (fun x => decide (x.1 ≤ s.cyc) && (match x.2 with
      | .rereadPacket _ => true
      | _ => false)) s.work = some (.rereadPacket i, w) →
    (peekPacket s i = .mismatch → Runs .packetReread s fun t => SchedOnly (readPacket s i) t ∧ t.work = w ∧
      spoolOf t i = { spoolOf s i with reread := none, err := 2, stop := true }) ∧
    (peekPacket s i ≠ .mismatch → Runs .packetReread s fun t => SchedOnly (readPacket s i) t ∧ t.work = w ∧
      spoolOf t i = { spoolOf s i with reread := none } ∧ (i < 1024 → t.sched.pkb.getLsbD i = true))) ∧
  (∀ (s u : State) (vf : Nat) (p : BitVec 1024), takePacket s 0 = some (u, vf, p) →
    let tn := (tdiOf s vf).tenant
    let tell (ref : Nat) : Prop := Runs .launchPacket s fun t => SchedOnly (readPacket s s.sched.served) t ∧ t.sched.launches = s.sched.launches ∧
      t.sched.recs = s.sched.recs ∧ ((cspoolOf s vf (fieldOf p 116 4)).cfg.getLsbD 63 = true →
        ∃ d, t.sched.dones = s.sched.dones ++ [d] ∧ d.vf = vf ∧ d.csp = fieldOf p 116 4 ∧ fieldOf d.rec0 0 32 = fieldOf p 32 32 ∧
          fieldOf d.rec0 32 3 = 5 ∧ fieldOf d.rec0 35 4 = ref)
    let may := (mapGet 0 s.dev.tenant tn).getLsbD (fieldOf p 16 6)
    let fits := pktReserved p = true ∧ pktLimits p = true ∧ (ctxOf s (fieldOf p 22 10)).st = 0
    (may = false → tell 1) ∧
    (may = true → (pktReserved p = false ∨ pktLimits p = false) → tell 2) ∧
    (may = true → fits → idTaken s tn (fieldOf p 32 32) = true → tell 3) ∧
    (may = true → fits → idTaken s tn (fieldOf p 32 32) = false → asidOk s (fieldOf p 22 10) tn = false → tell 4) ∧
    (may = true → fits → idTaken s tn (fieldOf p 32 32) = false → asidOk s (fieldOf p 22 10) tn = true →
      Runs .launchPacket s fun t => SchedOnly (readPacket s s.sched.served) t ∧ t.sched.nextLk = s.sched.nextLk + 1 ∧ t.sched.dones = s.sched.dones ∧
        spoolOf t s.sched.served = { spoolOf s s.sched.served with head := ((spoolOf s s.sched.served).head + 1) % 2 ^ 32 } ∧
        ∃ l, launchOf t s.sched.nextLk = some l ∧ l.pkt = p ∧ l.vf = vf ∧ l.tenant = tn ∧ l.lid = fieldOf p 32 32 ∧ l.t0 = s.time ∧
          l.done = [] ∧ l.ended = false ∧ l.preds = (predIds p).filterMap (liveLaunch s tn) ∧
          (predIds p = [] → l.st = .running) ∧
          ((∀ x ∈ predIds p, (liveLaunch s tn x).isSome = true) → predIds p ≠ [] → l.st = .pending))) ∧
  (∀ (s u : State) (vf lk : Nat) (p : BitVec 1024) (l : Launch), takePacket s 1 = some (u, vf, p) →
    liveLaunch s (tdiOf s vf).tenant (fieldOf p 32 32) = some lk → launchOf s lk = some l → l.st = .held → Runs .releasePacket s fun t =>
      SchedOnly (readPacket s s.sched.served) t ∧ ∃ l', launchOf t lk = some l' ∧ l'.st = (if l.preds = [] then LSt.running else LSt.pending) ∧ l'.pkt = l.pkt) ∧
  (∀ (s u : State) (vf lk : Nat) (p : BitVec 1024) (l : Launch), takePacket s 2 = some (u, vf, p) →
    liveLaunch s (tdiOf s vf).tenant (fieldOf p 32 32) = some lk → launchOf s lk = some l →
    ((l.st = .pending ∨ l.st = .held) → Runs .cancelPacket s fun t =>
      ((∀ e ∈ s.sched.recs, e.2.lk = lk → e.2.saved = none) → (∀ n, ∀ m ∈ (s.core n).cmds, m.ended.map (·.lk) ≠ some lk) →
        SchedOnly (readPacket s s.sched.served) t) ∧
      ∀ l', launchOf t lk = some l' → l'.ended = true ∧ l'.cancelled = true) ∧
    (l.st = .running → Runs .cancelPacket s fun t => LaunchEnds s t lk true 0 ∧
      (NothingSaved s → (∃ n, runsLaunch (s.core n) lk = true) → t.dev = (readPacket s s.sched.served).dev) ∧
      ∀ n, runsLaunch (s.core n) lk = false → (∀ m ∈ (s.core n).cmds, m.ended.map (·.lk) ≠ some lk) → t.core n = s.core n)) ∧
  (∀ (s u : State) (vf : Nat) (p : BitVec 1024), takePacket s 3 = some (u, vf, p) → Runs .nopPacket s fun t =>
    SchedOnly (readPacket s s.sched.served) t ∧
    (spoolOf t s.sched.served).head = ((spoolOf s s.sched.served).head + 1) % 2 ^ 32 ∧ t.sched.launches = s.sched.launches ∧
    t.sched.dones = s.sched.dones ∧ t.work = s.work)

/-- R40, R251, R256, R260, R266 to R268, R390, R397, R400 to R402: a seal opens the next interval and leaves the recovery record;
a rollback restores what the undo log holds; sweeps revoke stale handles and are acknowledged; a rotation moves a frame to the
other key; the patrol scrub corrects a granule or gives it the syndrome; a channel that fails leaves the map's use; invalidation
takes translations away; clearing FIRST moves NEXT into it. -/
def Obligations.RecoveryAndTableEvents : Prop :=
  (∀ (s : State) (asid : Nat), sealDue s = some asid → NothingSaved s →
    ((tornPair s asid).isSome = true ∨ recordLost s asid (ctxOf s asid).iv = true) → Runs .intervalSeal s fun t =>
      (ctxOf t asid).st = 4 ∧ (ctxOf t asid).held = [] ∧ (ctxOf t asid).iv = (ctxOf s asid).iv ∧ (ctxOf t asid).log = (ctxOf s asid).log ∧
      (ctxOf t asid).point = (ctxOf s asid).point ∧ t.dev = s.dev) ∧
  (∀ (s : State) (asid : Nat), sealDue s = some asid → tornPair s asid = none → recordLost s asid (ctxOf s asid).iv = false →
    (ctxOf s asid).held = [] → ((ctxOf s asid).pend = true → NothingSaved s) →
    let c := ctxOf s asid
    let pa := fieldOf (asidOf s asid) 64 41 + 128 * (c.iv % 2)
    Runs .intervalSeal s fun t => (ctxOf t asid).iv = c.iv + 1 ∧ (ctxOf t asid).point = c.iv ∧
      (ctxOf t asid).st = (if c.pend then 4 else 1) ∧ (ctxOf t asid).log = [] ∧ (ctxOf t asid).jrn = [] ∧ (ctxOf t asid).full = false ∧
      (ctxOf t asid).work = c.workNext ∧ (∀ a, a ≠ asid → ctxOf t a = ctxOf s a) ∧ (c.pend = false → t.cores = s.cores) ∧
      (pa % 128 = 0 → chanFailed s pa = false → granData t pa = recoveryRecord s asid c ∧
        (recoveryRecord s asid c).extractLsb' 0 64 = BitVec.ofNat 64 c.iv)) ∧
  (∀ (s : State) (asid : Nat), tornReady s = some asid → NothingSaved s → Runs .rollback s fun t =>
    (ctxOf t asid).st = (if (ctxOf s asid).jrn = [] then 1 else 6) ∧ (ctxOf t asid).replay = (ctxOf s asid).jrn ∧
    (ctxOf t asid).log = [] ∧ (ctxOf t asid).held = [] ∧ (ctxOf t asid).point = (tornPoint s asid).2 ∧
    (ctxOf t asid).iv = (tornPoint s asid).2 + 1 ∧
    (∀ a, a ≠ asid → ctxOf t a = ctxOf s a) ∧
    ((ctxOf s asid).log = [] → t.dev.mem = s.dev.mem) ∧
    ∀ u, (ctxOf s asid).log = [u] → u.seq = (tornPoint s asid).2 + 1 → memWf u.old = true → (∀ e ∈ u.old, u.pa ≤ e.1 ∧ e.1 < u.pa + 4096) →
      ∀ y, memRead t.dev.mem y = if u.pa ≤ y ∧ y < u.pa + 4096 then memRead u.old y else memRead s.dev.mem y) ∧
  (∀ (s : State) (w : Sweep) (n : Nat), sweepDue s = some (w, n) → Runs .revocationSweep s fun t =>
    (256 ≤ n → t.cores = s.cores) ∧
    (n < 256 → ∀ m, hreg (t.core n) m = if (s.core n).sys.tenant = w.tenant ∧ (hreg (s.core n) m).st = .valid ∧
      hFamily (hreg (s.core n) m).bits = w.family ∧ hGen (hreg (s.core n) m).bits < w.gen then ⟨0, .revoked⟩
      else hreg (s.core n) m) ∧
    (n < 256 → (s.core n).sys.tenant = w.tenant → (t.core n).seq = { (s.core n).seq with gens := [] }) ∧
    (t.core n).sp = (s.core n).sp ∧ (t.core n).cmds = (s.core n).cmds ∧ OthersKept s t [n] ∧
    t.dev.mem = s.dev.mem ∧ ∃ x ∈ t.dev.sweeps, x.toSweep = w.toSweep.drop 1 ∧ n ∈ x.toAck) ∧
  (∀ (s : State) (w : Sweep) (n : Nat), ackDue s = some (w, n) → (∀ m ∈ w.toAck, m = n) → Runs .sweepAck s fun t =>
    w ∉ t.dev.sweeps ∧ (∀ x ∈ s.dev.sweeps, x ≠ w → x ∈ t.dev.sweeps) ∧ t.cores = s.cores ∧ t.dev.mem = s.dev.mem) ∧
  (∀ (s : State) (r : Rotation) (rest : List Rotation), s.dev.rots = r :: rest →
    (∀ f, rotFrame s r = some f → Runs .rotationFrame s fun t => t.dev.mem = s.dev.mem ∧ t.dev.rots = s.dev.rots ∧
      fieldOf (mapGet 0 t.dev.pot f) 14 1 = (1 - r.slotA) % 2 ∧ (∀ g, g ≠ f → mapGet 0 t.dev.pot g = mapGet 0 s.dev.pot g) ∧
      t.cores = s.cores) ∧
    (rotFrame s r = none → Runs .rotationFrame s fun t => t.dev.mem = s.dev.mem ∧ t.dev.rots = rest ∧
      fieldOf (mapGet 0 t.dev.tenant r.tenant) 73 1 = (1 - r.slotA) % 2 ∧ (mapGet 0 t.dev.tenant r.tenant).getLsbD 74 = false ∧
      fieldOf (mapGet 0 t.dev.keys (2 * r.tenant + r.slotA)) 0 1056 = 0 ∧ t.cores = s.cores)) ∧
  (∀ (s : State) (o : IdxEv), paMapped s (128 * o.idx) = true → chanFailed s (128 * o.idx) = false →
    mapGet false s.dev.tagBad (128 * o.idx / 512) = false → Runs (.patrolScrub o) s fun t =>
      mapGet false t.dev.dbe o.idx = (mapGet false s.dev.syn o.idx && mapGet false s.dev.dbe o.idx) ∧
      mapGet false t.dev.syn o.idx = (mapGet false s.dev.syn o.idx || mapGet false s.dev.dbe o.idx) ∧
      (mapGet false s.dev.syn o.idx = false → mapGet false s.dev.dbe o.idx = false → mapGet false t.dev.sbe o.idx = false) ∧
      t.dev.mem = s.dev.mem ∧ t.cores = s.cores ∧ t.sched = s.sched ∧
      ∀ k, mapGet 0 t.meas.usage k = mapGet 0 s.meas.usage k + if k = 320 + 2 * stackOf (128 * o.idx) then 128 else 0) ∧
  (∀ (s : State) (o : TwoEv), o.a < 16 → o.b < 32 → Runs (.channelFailure o) s fun t =>
    mapGet 0 t.dev.chanBad o.a = mapGet 0 s.dev.chanBad o.a ||| (1#32 <<< o.b) ∧ t.plat.inv.getLsbD (128 + 32 * o.a + o.b) = false ∧
    t.dev.mem = s.dev.mem ∧ t.dev.mapped = s.dev.mapped ∧ t.cores = s.cores) ∧
  (∀ (s : State) (o : IdxValEv),
    let asid := fieldOf o.value 48 10
    (xlBusy s o.idx = true → exec (.xlinvWrite o) s = .next s) ∧
    (xlBusy s o.idx = false → (tdiOf s o.idx).st = 2 → asidOk s asid (tdiOf s o.idx).tenant = true → Runs (.xlinvWrite o) s fun t => mapGet false t.dev.ierr o.idx = false ∧
      t.dev.tlb = s.dev.tlb.filter (fun x => !(decide (x.asid = asid) && (o.value.getLsbD 58 ||
        (decide (x.va ≤ fieldOf o.value 16 32 * 65536) && decide (fieldOf o.value 16 32 * 65536 < x.va + x.size))))) ∧
      t.dev.mem = s.dev.mem ∧ t.cores = s.cores) ∧
    (xlBusy s o.idx = false → (tdiOf s o.idx).st = 0 ∨ ((tdiOf s o.idx).st = 2 ∧ asidOk s asid (tdiOf s o.idx).tenant = false) → Runs (.xlinvWrite o) s fun t => mapGet false t.dev.ierr o.idx = true ∧
      t.dev.tlb = s.dev.tlb ∧ t.dev.mem = s.dev.mem ∧ t.cores = s.cores)) ∧
  (∀ (s : State) (o : IdxValEv), Runs (.errorSlotClear o) s fun t =>
    let b := mapGet Bank.zero s.dev.banks o.idx
    (mapGet Bank.zero t.dev.banks o.idx).first =
      (if o.value.getLsbD 62 then (if o.value.getLsbD 63 then 0 else b.second) else b.first) ∧
    (mapGet Bank.zero t.dev.banks o.idx).second = (if o.value.getLsbD 62 then 0 else if o.value.getLsbD 63 then 0 else b.second) ∧
    (fieldOf o.value 0 41 = 0 → (mapGet Bank.zero t.dev.banks o.idx).stat = b.stat) ∧
    (∀ n, n ≠ o.idx → mapGet Bank.zero t.dev.banks n = mapGet Bank.zero s.dev.banks n) ∧ t.dev.mem = s.dev.mem ∧ t.cores = s.cores)

/-- R227 to R229, R231, R411, R416, R424, R427, R428, R431 to R433: counters, roll calls, retention and the debugger's commands. -/
def Obligations.CounterAndDebugEvents : Prop :=
  (∀ (s : State) (n : Nat), ((List.range 16).find? fun n => s.me.cn.wraps.getLsbD n) = some n → Runs .counterWrap s fun t =>
    cntOf t.me n = { cntOf s.me n with cfg := (cntOf s.me n).cfg ||| 0x400 } ∧ t.me.cn.wraps.getLsbD n = false ∧
    (∀ m, m ≠ n → cntOf t.me m = cntOf s.me m) ∧ NoReg s.me t.me ∧ t.me.sp = s.me.sp ∧ OthersKept s t [s.cur] ∧ t.dev = s.dev ∧
    ((cntOf s.me n).cfg.getLsbD 9 = false → t.meas = s.meas) ∧
    ((cntOf s.me n).cfg.getLsbD 9 = true → ∃ r, t.meas.rc = some r ∧ ∀ m ∈ partitionOf s s.me.sys.tenant, m ∈ r.set)) ∧
  (∀ (s : State), sampleDue s = true → Runs .counterSample s fun t =>
    t.meas.samples.head? = some (s.time / 1000 * 1000, s.meas.usage) ∧ t.meas.usage = s.meas.usage ∧ t.cores = s.cores ∧ t.dev = s.dev) ∧
  (∀ (s : State) (r : RollCall), s.meas.rc = some r → r.t ≤ s.time → Runs .rollCallLatch s fun t =>
    t.meas.rc = none ∧ (∀ n, n ∈ r.set → (t.core n).cn.roll = rollRecord s n r) ∧
    (∀ n, n ∉ r.set → t.core n = s.core n) ∧ (∀ n, getS (t.core n) = getS (s.core n)) ∧ (∀ n, (t.core n).sp = (s.core n).sp) ∧
    t.dev = s.dev ∧ ∀ n, (rollRecord s n r).extractLsb' 0 32 = BitVec.ofNat 32 r.seq ∧
      (rollRecord s n r).extractLsb' 64 64 = BitVec.ofNat 64 r.t ∧ (rollRecord s n r).extractLsb' 128 32 = (s.core n).seq.pc) ∧
  (∀ (s : State) (o : IdxValEv) (n : Nat), n < 16 → Runs (.cntclaimWrite o) s fun t =>
    (t.core o.idx).cn.claim = o.value.setWidth 16 ∧
    cntOf (t.core o.idx) n = (let x := cntOf (s.core o.idx) n
      if o.value.getLsbD n = true ∧ (s.core o.idx).cn.claim.getLsbD n = false then { x with gvalue := x.value, gcfg := x.cfg }
      else if o.value.getLsbD n = false ∧ (s.core o.idx).cn.claim.getLsbD n = true then ⟨x.gvalue, x.gcfg, 0, 0⟩ else x) ∧
    (t.core o.idx).seq = (s.core o.idx).seq ∧ (t.core o.idx).sp = (s.core o.idx).sp ∧ OthersKept s t [o.idx] ∧ t.dev = s.dev) ∧
  (∀ (s : State) (o : TwoEv), Runs (.guestCounterReadLo o) s fun t =>
    let g := guestView s (tdiOf s o.a).tenant o.b
    mapGet (0, false, false) t.links.answers o.a = ((g.extractLsb' 0 32).toNat, false, false) ∧
    mapGet 0 t.meas.vfsh o.a = g.extractLsb' 32 32 ∧ t.cores = s.cores ∧ t.dev = s.dev) ∧
  (∀ (s : State) (o : IdxEv) (n : Nat), selCore s o.idx = some n → (s.core n).dstop = true →
    (Runs (.dcmdResume o) s fun t => (t.core n).dstop = false ∧ (t.core n).seq.pc = (s.core n).sys.cutpc ∧
      (t.core n).sys.inh = (s.core n).sys.inh ∧ NoReg (s.core n) (t.core n) ∧ (t.core n).sp = (s.core n).sp ∧
      (∀ q, q < 4 → ((t.core n).queue q).ents = ((s.core n).queue q).ents) ∧ OthersKept s t [n] ∧ t.dev = s.dev) ∧
    ((s.core n).life ≠ .idle → Runs (.dcmdKill o) s fun t => LaunchEnds s t (s.core n).task.launch false 0x1D ∧
      (NothingSaved s → t.dev = s.dev))) ∧
  (∀ (s : State) (o : IdxEv), Runs (.dcmdRollcall o) s fun t =>
    (∃ r, t.meas.rc = some r ∧ (∀ m ∈ partitionOf s o.idx, m ∈ r.set) ∧
      (1024 ≤ o.idx → (∀ m, m < 256 → m ∈ r.set) ∧ ∀ h, h < 4 → h ∈ r.hubs)) ∧ t.cores = s.cores ∧ t.dev = s.dev) ∧
  (∀ (s : State) (o : DdataEv) (n a : Nat), selCore s o.tenant = some n → (dbgOf s o.tenant).daddr = a → (s.core n).dstop = true →
    (64 ≤ a / 4 → a % 4 = 0 → (o.write = true → exec (.ddataAccess o) s = .next s) ∧
      (o.write = false → Runs (.ddataAccess o) s fun t => t.cores = s.cores ∧
        mapGet (0, false, false) t.links.answers (4096 + o.tenant) = (0, false, false))) ∧
    (o.write = true → a % 4 = 0 → a / 4 < 64 → Runs (.ddataAccess o) s fun t =>
      (∀ r, getS (t.core n) r = if r = BitVec.ofNat 6 (a / 4) ∧ r ≠ 0 then o.value else getS (s.core n) r) ∧
      (t.core n).sp = (s.core n).sp ∧ OthersKept s t [n] ∧ t.dev = s.dev) ∧
    (a % 4 = 2 → 8 * (a / 4) + 8 ≤ 2 ^ 23 → tagOk (s.core n) (8 * (a / 4) / 128) = false → (s.core n).trap = none → Runs (.ddataAccess o) s fun t =>
      (t.core n).trap = some ⟨0x0B, true, 0, false, 0, 0, (s.core n).seq.pc⟩ ∧ (t.core n).frozenV = true ∧ (t.core n).sp = (s.core n).sp ∧
      OthersKept s t [n] ∧ t.dev = s.dev) ∧
    (o.write = true → a % 4 = 2 → 8 * (a / 4) + 8 ≤ 2 ^ 23 → tagOk (s.core n) (8 * (a / 4) / 128) = true → (∀ y, slotByte (s.core n) y = none) → Runs (.ddataAccess o) s fun t =>
      (∀ y, memRead (t.core n).sp.bytes y = if 8 * (a / 4) ≤ y ∧ y < 8 * (a / 4) + 8 then
        BitVec.ofNat 8 (o.value.toNat / 256 ^ (y - 8 * (a / 4))) else memRead (s.core n).sp.bytes y) ∧
      NoReg (s.core n) (t.core n) ∧ OthersKept s t [n] ∧ t.dev = s.dev) ∧
    (o.write = false → a % 4 = 0 → a / 4 < 64 → Runs (.ddataAccess o) s fun t => t.cores = s.cores ∧ t.dev = s.dev ∧
      mapGet (0, false, false) t.links.answers (4096 + o.tenant) = ((getS (s.core n) (BitVec.ofNat 6 (a / 4))).toNat, false, false)) ∧
    (o.write = false → a % 4 = 2 → (8 * (a / 4) + 8 ≤ 2 ^ 23 → tagOk (s.core n) (8 * (a / 4) / 128) = true) →
      Runs (.ddataAccess o) s fun t => t.dev = s.dev ∧
      (∀ y, memRead (t.core n).sp.bytes y = memRead (s.core n).sp.bytes y) ∧ NoReg (s.core n) (t.core n) ∧ OthersKept s t [n] ∧
      mapGet (0, false, false) t.links.answers (4096 + o.tenant) =
        ((padValue (s.core n) (8 * (a / 4)) 8).toNat, false, false))) ∧
  (∀ (s : State) (o : IdxEv), (liveLaunch s o.idx (dbgOf s o.idx).dlid = none → Runs (.wsarmWrite o) s fun t =>
      dbgOf t o.idx = { dbgOf s o.idx with wserr := true } ∧ t.cores = s.cores ∧ t.dev = s.dev) ∧
    (∀ (lk : Nat) (l : Launch), liveLaunch s o.idx (dbgOf s o.idx).dlid = some lk → launchOf s lk = some l →
      (∀ e ∈ s.cores, runsLaunch e.2 lk = false) → (∀ e ∈ s.sched.saved, e.2.task.launch ≠ lk) → mapGet false l.done (dbgOf s o.idx).wstask.toNat = false → Runs (.wsarmWrite o) s fun t =>
        dbgOf t o.idx = { dbgOf s o.idx with wsarm := true, wserr := false, wsmiss := false } ∧ t.cores = s.cores ∧ t.dev = s.dev)) ∧
  (∀ (s : State) (o : IdxValEv), Runs (.spretreqWrite o) s fun t => (t.core o.idx).sp.retreq = o.value ∧
    (∀ b, b < 64 → o.value.getLsbD b = false → (s.core o.idx).sp.retreq.getLsbD b = true →
      mapGet (BankSt.active 0) (s.core o.idx).sp.banks b = .retained →
      mapGet (BankSt.active 0) (t.core o.idx).sp.banks b = .exiting (s.cyc + 2048)) ∧
    (t.core o.idx).sp.bytes = (s.core o.idx).sp.bytes ∧
    ((s.core o.idx).sp.dbe = [] → (t.core o.idx).sp.code = (s.core o.idx).sp.code ∧ (t.core o.idx).seq = (s.core o.idx).seq) ∧
    getS (t.core o.idx) = getS (s.core o.idx) ∧ OthersKept s t [o.idx] ∧ t.dev = s.dev) ∧
  (∀ (s : State) (b : Nat), (entryBank s s.me = some b → Runs .retentionEntry s fun t =>
      t.me.sp = { s.me.sp with banks := mapPut s.me.sp.banks b (.entering (s.cyc + 2048)) } ∧ t.me.seq = s.me.seq ∧ KeepsRest s t) ∧
    (enteredBank s s.me = some b → Runs .retentionEntered s fun t =>
      t.me.sp = { s.me.sp with banks := mapPut s.me.sp.banks b .retained } ∧ t.me.seq = s.me.seq ∧ KeepsRest s t) ∧
    (exitedBank s s.me = some b → Runs .retentionExitDone s fun t =>
      mapGet (BankSt.active 0) t.me.sp.banks b = .active s.cyc ∧ t.me.sp.bytes = s.me.sp.bytes ∧ getS t.me = getS s.me ∧
      (∀ u, bankOf (u / 16) = b → mapGet false t.me.sp.sbe u = false ∧ mapGet false t.me.sp.dbe u = false) ∧
      (s.me.sp.dbe = [] → t.me.sp.code = s.me.sp.code ∧ t.me.seq = s.me.seq) ∧
      (∀ j, bankOf (j / 8) = b →
        let errs (u : Nat) : Nat := if mapGet false s.me.sp.dbe u then 2 else if mapGet false s.me.sp.sbe u then 1 else 0
        3 ≤ errs (2 * j) + errs (2 * j + 1) → lineCode t.me (j / 8) = 3 ∧ t.me.seq.psum.getLsbD 3 = true) ∧ KeepsRest s t)) ∧
  (∀ (s : State) (o : TwoEv), Runs (.untimedRequestForced o) s fun t =>
    t.me.stall = s.me.stall ++ [(4, o.a, o.b, 1)] ∧ t.me.seq = s.me.seq ∧ t.me.sp = s.me.sp ∧ KeepsRest s t)

/-- R434 to R438: the crypto engines and the measurement extend. An engine that is busy with an operation ends it OK, its output in
a key slot or in the SRAM; a verification answers in OK alone; a locked slot is not extended. -/
def Obligations.ThimbleEngineEvents : Prop :=
  (∀ (s : State) (v : Nat),
    let n := (engReg s 0x010).toNat % 2 ^ 32
    thimRead s (engReg s 0x008).toNat n = .ok v →
    EngineWrites .sha384 s 0x000 1 (engReg s 0x028) 48 (digestNat (sha384 n v)) ∧
    EngineWrites .sha256 s 0x000 2 (engReg s 0x028) 32
      ((List.range 32).foldr (fun i t => ((sha256 n v).extractLsb' (8 * (31 - i)) 8).toNat + 256 * t) 0)) ∧
  (∀ (s : State) (e : Nat), (thimRead s (engReg s 0x008).toNat ((engReg s 0x010).toNat % 2 ^ 32) = .error e →
      EngineFails .sha384 s 0x000 1 e ∧ EngineFails .sha256 s 0x000 2 e) ∧
    (thimRead s (engReg s 0x108).toNat 48 = .error e → EngineFails .ecdsaVerify s 0x100 1 e ∧ EngineFails .ecdsaSign s 0x100 2 e) ∧
    (thimRead s (engReg s 0x208).toNat ((engReg s 0x210).toNat % 2 ^ 32) = .error e →
      EngineFails .lmsVerify s 0x200 1 e ∧ EngineFails .hssSign s 0x200 2 e) ∧
    (thimRead s (engReg s 0x308).toNat ((engReg s 0x310).toNat % 2 ^ 32) = .error e →
      EngineFails .aesCmac s 0x300 1 e ∧ EngineFails .gcmSeal s 0x300 2 e ∧ EngineFails .gcmOpen s 0x300 3 e) ∧
    (thimRead s (engReg s 0x408).toNat ((engReg s 0x410).toNat % 2 ^ 32) = .error e →
      EngineFails .hmac s 0x400 1 e ∧ (s.thim.udslock = false → EngineFails .udsDerive s 0x400 2 e) ∧ EngineFails .hkdfExpand s 0x400 3 e)) ∧
  (∀ (s : State) (v e : Nat),
    (thimRead s (engReg s 0x108).toNat 48 = .ok v → (engKey s (engReg s 0x118) 96 = .error e → EngineFails .ecdsaVerify s 0x100 1 e) ∧
      (engSlot s (engReg s 0x118) = .error e → EngineFails .ecdsaSign s 0x100 2 e)) ∧
    (thimRead s (engReg s 0x208).toNat ((engReg s 0x210).toNat % 2 ^ 32) = .ok v →
      (engKey s (engReg s 0x218) 4 = .error e → EngineFails .lmsVerify s 0x200 1 e) ∧
      (engSlot s (engReg s 0x218) = .error e → EngineFails .hssSign s 0x200 2 e)) ∧
    (thimRead s (engReg s 0x308).toNat ((engReg s 0x310).toNat % 2 ^ 32) = .ok v → engSlot s (engReg s 0x318) = .error e →
      EngineFails .aesCmac s 0x300 1 e ∧ EngineFails .gcmSeal s 0x300 2 e ∧ EngineFails .gcmOpen s 0x300 3 e) ∧
    (engSlot s (engReg s 0x318) = .error e → EngineFails .keyCopy s 0x300 4 e) ∧
    (thimRead s (engReg s 0x408).toNat ((engReg s 0x410).toNat % 2 ^ 32) = .ok v → engSlot s (engReg s 0x418) = .error e →
      EngineFails .hmac s 0x400 1 e ∧ EngineFails .hkdfExpand s 0x400 3 e)) ∧
  (∀ (s : State) (d k g : Nat), engCode s 0x100 = 1 → thimRead s (engReg s 0x108).toNat 48 = .ok d → engKey s (engReg s 0x118) 96 = .ok k →
    thimRead s (engReg s 0x120).toNat 96 = .ok g → Runs .ecdsaVerify s fun t => ThimOnly s t ∧ engReg t 0x100 = 0 ∧
      engReg t 0x130 = (if Config.verifies 1 k d g then 2 else 0) ∧ t.thim.slots = s.thim.slots ∧ t.thim.sram = s.thim.sram) ∧
  (∀ (s : State) (d k : Nat), thimRead s (engReg s 0x108).toNat 48 = .ok d → engSlot s (engReg s 0x118) = .ok k →
    EngineWrites .ecdsaSign s 0x100 2 (engReg s 0x128) 96 (signature s 1 (fieldOf (engReg s 0x118) 0 8) 96 48 d)) ∧
  (∀ (s : State) (v head k g : Nat),
    let n := (engReg s 0x210).toNat % 2 ^ 32
    let hss := head % 2 ^ 32 = 0x02000000
    engCode s 0x200 = 1 → thimRead s (engReg s 0x208).toNat n = .ok v → engKey s (engReg s 0x218) 4 = .ok head →
    engKey s (engReg s 0x218) (if hss then 52 else 48) = .ok k →
    thimRead s (engReg s 0x220).toNat (if hss then 3292 else 1620) = .ok g →
    Runs .lmsVerify s fun t => ThimOnly s t ∧ engReg t 0x200 = 0 ∧
      engReg t 0x230 = (if Config.verifies 2 k (v * 2 ^ 32 + n) g then 2 else 0) ∧ t.thim.slots = s.thim.slots ∧ t.thim.sram = s.thim.sram) ∧
  (∀ (s : State) (v k : Nat),
    let n := (engReg s 0x210).toNat % 2 ^ 32
    let slot := fieldOf (engReg s 0x218) 0 8
    thimRead s (engReg s 0x208).toNat n = .ok v → engSlot s (engReg s 0x218) = .ok k →
    EngineWrites .hssSign s 0x200 2 (engReg s 0x228) (if slot = 4 then 1620 else 3292)
      (signature s 2 slot (if slot = 4 then 1620 else 3292) n v)) ∧
  (∀ (s : State), engCode s 0x200 = 3 →
    (s.thim.bootcnt < 32768 → Runs .bootinc s fun t => ThimOnly s t ∧ t.thim.bootcnt = s.thim.bootcnt + 1 ∧ engReg t 0x230 = 2) ∧
    (32768 ≤ s.thim.bootcnt → Runs .bootinc s fun t => ThimOnly s t ∧ t.thim.bootcnt = s.thim.bootcnt ∧ engReg t 0x230 = 0)) ∧
  (∀ (s : State) (v k : Nat),
    let n := (engReg s 0x310).toNat % 2 ^ 32
    thimRead s (engReg s 0x308).toNat n = .ok v → engSlot s (engReg s 0x318) = .ok k →
    EngineWrites .aesCmac s 0x300 1 (engReg s 0x328) 16 (cmac k n v) ∧
    EngineWrites .gcmSeal s 0x300 2 (engReg s 0x328) (n + 16)
      (Config.keyed 4 k ((v * 2 ^ 32 + n) * 2 ^ 64 + s.free) % 2 ^ (8 * (n + 16))) ∧
    (Config.verifies 3 k (v * 2 ^ 32 + n) 0 = true →
      EngineWrites .gcmOpen s 0x300 3 (engReg s 0x328) (n - 16) (Config.keyed 5 k (v * 2 ^ 32 + n) % 2 ^ (8 * (n - 16)))) ∧
    (Config.verifies 3 k (v * 2 ^ 32 + n) 0 = false → engCode s 0x300 = 3 → Runs .gcmOpen s fun t => ThimOnly s t ∧
      engReg t 0x330 = 0 ∧ t.thim.slots = s.thim.slots ∧ t.thim.sram = s.thim.sram)) ∧
  (∀ (s : State) (k : Nat), engCode s 0x300 = 4 → engSlot s (engReg s 0x318) = .ok k →
    let d := (engReg s 0x328).toNat
    (d / 256 % 2 = 1 → Runs .keyCopy s fun t => engReg t 0x330 = 2 ∧
      (mapGet 0 t.dev.keys (d / 512 % 2048)).extractLsb' 0 1024 = BitVec.ofNat 1024 k ∧
      (mapGet 0 t.dev.keys (d / 512 % 2048)).getLsbD 1024 = true ∧
      fieldOf (mapGet 0 t.dev.keys (d / 512 % 2048)) 1056 32 = (fieldOf (mapGet 0 s.dev.keys (d / 512 % 2048)) 1056 32 + 1) % 2 ^ 32 ∧
      t.dev.mem = s.dev.mem ∧ t.cores = s.cores) ∧
    (d / 256 % 2 = 0 → d % 256 < 12 → Runs .keyCopy s fun t => ThimOnly s t ∧ engReg t 0x330 = 2 ∧
      mapGet 0 t.thim.sealing (d % 256) = k) ∧
    (d / 256 % 2 = 0 → 12 ≤ d % 256 → EngineFails .keyCopy s 0x300 4 2)) ∧
  (∀ (s : State) (v : Nat),
    let n := (engReg s 0x410).toNat % 2 ^ 32
    thimRead s (engReg s 0x408).toNat n = .ok v →
    (∀ k, engSlot s (engReg s 0x418) = .ok k →
      EngineWrites .hmac s 0x400 1 (engReg s 0x428) 48 (hmac384 k n v) ∧
      (engCode s 0x400 = 3 → Runs .hkdfExpand s fun t => ThimOnly s t ∧ engReg t 0x430 = 2 ∧
        mapGet 0 t.thim.slots (fieldOf (engReg s 0x428) 0 8) = hkdf384 k n v)) ∧
    (engCode s 0x400 = 2 → s.thim.udslock = false → Runs .udsDerive s fun t => ThimOnly s t ∧ engReg t 0x430 = 2 ∧
      mapGet 0 t.thim.slots 1 = hmac384 s.thim.uds 15 idLabel ∧ mapGet 0 t.thim.slots 2 = hmac384 s.thim.uds n v) ∧
    (engCode s 0x400 = 2 → s.thim.udslock = true → Runs .udsDerive s fun t => ThimOnly s t ∧ engReg t 0x430 = 0 ∧
      t.thim.slots = s.thim.slots)) ∧
  (∀ (s : State), (∃ v, v < 2 ^ (8 * ((engReg s 0x510).toNat % 2 ^ 32)) ∧
      EngineWrites .drbg s 0x500 1 (engReg s 0x528) ((engReg s 0x510).toNat % 2 ^ 32) v) ∧
    (2 ^ 20 ≤ s.thim.drbgReq → Runs .drbgReseed s fun t => ThimOnly s t ∧ t.thim.drbgReq = s.thim.drbgReq - 2 ^ 20 ∧
      t.thim.drbgSeed = s.thim.drbgSeed + 1)) ∧
  (∀ (s : State), s.thim.mext.getLsbD 63 = true →
    let n := fieldOf s.thim.mext 0 32
    let old := mapGet 0 s.thim.ms n
    (∀ v, (n < 6 ∨ (16 ≤ n ∧ n < 32)) → old.getLsbD 416 = false → thimRead s s.thim.mextsrc.toNat 48 = .ok v → Runs .mext s fun t =>
      ThimOnly s t ∧ t.thim.mext = 0 ∧
      fieldOf (mapGet 0 t.thim.ms n) 0 384 = digestNat (sha384 96 (fieldOf old 0 384 + v * 2 ^ 384)) ∧
      fieldOf (mapGet 0 t.thim.ms n) 384 32 = (fieldOf old 384 32 + 1) % 2 ^ 32 ∧
      ∀ m, m ≠ n → mapGet 0 t.thim.ms m = mapGet 0 s.thim.ms m) ∧
    ((old.getLsbD 416 = true ∨ (6 ≤ n ∧ n ≤ 15) ∨ 31 < n) → Runs .mext s fun t => ThimOnly s t ∧ t.thim.mext.getLsbD 62 = true ∧
      t.thim.mext.getLsbD 63 = false ∧ t.thim.ms = s.thim.ms))

/-- R358 to R362, R438, R443, R444: the Molpol ports. Detection, training and authentication take a port to OPEN; a lane that fails
retrains it; a failed authentication or key update closes it; a flit with a bad tag or on an unbound stream closes the stream, a
bad CRC is counted and retried. -/
def Obligations.PortEvents : Prop :=
  (∀ (s : State) (o : IdxEv), ((portOf s o.idx).st = 0 → (portOf s o.idx).enabled = true → Runs (.portDetect o) s fun t =>
      portOf t o.idx = { portOf s o.idx with st := 1 } ∧ (∀ n, n ≠ o.idx → portOf t n = portOf s n) ∧ t.cores = s.cores ∧ t.dev = s.dev) ∧
    ((portOf s o.idx).st = 4 → Runs (.portReset o) s fun t => portOf t o.idx = { portOf s o.idx with st := 0, authed := false } ∧
      (∀ n, n ≠ o.idx → portOf t n = portOf s n) ∧ t.cores = s.cores ∧ t.dev = s.dev)) ∧
  (∀ (s : State) (o : IdxValEv), (portOf s o.idx).st = 1 →
    let v := fieldOf o.value 0 8
    (v = 255 → Runs (.laneTraining o) s fun t => (portOf t o.idx).st = (if (portOf s o.idx).authed then 3 else 2) ∧
      (portOf t o.idx).wide = true ∧ (∀ n, n ≠ o.idx → portOf t n = portOf s n) ∧ t.links.streams = s.links.streams ∧ t.cores = s.cores ∧
      t.dev = s.dev) ∧
    (v ≠ 255 → (v % 16 = 15 ∨ v / 16 = 15) → Runs (.laneTraining o) s fun t =>
      (portOf t o.idx).st = (if (portOf s o.idx).authed then 3 else 2) ∧ (portOf t o.idx).wide = false ∧
      (portOf t o.idx).half = decide (v % 16 ≠ 15) ∧ t.links.streams = s.links.streams ∧ t.cores = s.cores ∧ t.dev = s.dev) ∧
    (v % 16 ≠ 15 → v / 16 ≠ 15 → Runs (.laneTraining o) s fun t => (portOf t o.idx).st = 0 ∧
      (∀ e ∈ t.links.streams, e.1 / 1024 ≠ o.idx) ∧ t.dev = s.dev)) ∧
  (∀ (s : State) (o : TwoEv), o.b < 8 → Runs (.laneFailure o) s fun t => (portOf t o.a).lanes = (portOf s o.a).lanes ||| (1#8 <<< o.b) ∧
    ((portOf s o.a).st = 3 → (portOf s o.a).wide = true → (portOf t o.a).st = 1) ∧
    ((portOf s o.a).st ≠ 3 → (portOf t o.a).st = (portOf s o.a).st) ∧ t.cores = s.cores ∧ t.dev = s.dev) ∧
  (∀ (s : State) (o : AuthEv), (portOf s o.idx).st = 2 →
      (o.ok = true → policyHas s o.meas = true → Runs (.portAuthentication o) s fun t => (portOf t o.idx).st = 3 ∧ (portOf t o.idx).authed = true ∧
        (mapGet 0 t.thim.ms 5).getLsbD 416 = true ∧ (∀ n, n ≠ o.idx → portOf t n = portOf s n) ∧ t.links.streams = s.links.streams ∧
        t.cores = s.cores ∧ t.dev = s.dev) ∧
      (o.ok = false ∨ policyHas s o.meas = false → Runs (.portAuthentication o) s fun t => (portOf t o.idx).st = 4 ∧
        (portOf t o.idx).close = 1 ∧ (∀ e ∈ t.links.streams, e.1 / 1024 ≠ o.idx) ∧ t.dev = s.dev)) ∧
  (∀ (s : State) (o : FlagEv), ((portOf s o.idx).st = 3 →
      (o.ok = true → Runs (.keyUpdate o) s fun t => (∀ e ∈ t.links.streams, e.1 / 1024 = o.idx → e.2.fin = 0 ∧ e.2.fout = 0 ∧
          e.2.key0 = linkKey (portOf t o.idx).secret e.1 0 ∧ e.2.key1 = linkKey (portOf t o.idx).secret e.1 1) ∧
        (∀ e ∈ s.links.streams, e.1 / 1024 ≠ o.idx → e ∈ t.links.streams) ∧ (portOf t o.idx).st = 3 ∧ t.links.streams.length = s.links.streams.length ∧ t.cores = s.cores ∧ t.dev = s.dev) ∧
      (o.ok = false → Runs (.keyUpdate o) s fun t => (portOf t o.idx).st = 4 ∧ (portOf t o.idx).close = 2 ∧
        (∀ e ∈ t.links.streams, e.1 / 1024 ≠ o.idx) ∧ t.dev = s.dev))) ∧
  (∀ (s : State) (o : FlitEv), (portOf s o.port).st = 3 →
    let k := 1024 * o.port + o.stream
    (o.crcOk = false → Runs (.flitReceive o) s fun t => (portOf t o.port).retry = min ((portOf s o.port).retry + 1) (max ((portOf s o.port).retry) (2 ^ 32 - 1)) ∧
      (portOf t o.port).st = 3 ∧ t.links.streams = s.links.streams ∧ t.cores = s.cores ∧ t.dev.mem = s.dev.mem) ∧
    (o.crcOk = true → 4 < o.kind → Runs (.flitReceive o) s fun t => (portOf t o.port).st = 4 ∧ (portOf t o.port).close = 3 ∧ t.dev = s.dev) ∧
    (o.crcOk = true → o.kind = 1 → (∀ e ∈ s.links.streams, e.1 ≠ k) → Runs (.flitReceive o) s fun t =>
      (portOf t o.port).strcl = min ((portOf s o.port).strcl + 1) (max ((portOf s o.port).strcl) (2 ^ 16 - 1)) ∧
      mapGet false t.links.shut k = true ∧ t.links.streams = s.links.streams ∧ t.cores = s.cores ∧ t.dev = s.dev) ∧
    (∀ b, o.crcOk = true → o.kind = 1 → s.links.streams.find? (fun e => decide (e.1 = k)) = some (k, b) →
      (o.tagOk = false → Runs (.flitReceive o) s fun t => mapHas t.links.streams k = false ∧ mapGet false t.links.shut k = true ∧
        t.dev = s.dev) ∧
      (o.tagOk = true → o.load = .none → 2 ^ 40 ≤ o.fseq + 1 → Runs (.flitReceive o) s fun t =>
        (∀ e ∈ t.links.streams, e.1 / 1024 = o.port → e.2.fin = 0 ∧ e.2.fout = 0 ∧ e.2.key0 = linkKey (portOf t o.port).secret e.1 0 ∧
          e.2.key1 = linkKey (portOf t o.port).secret e.1 1) ∧ t.cores = s.cores ∧ t.dev = s.dev) ∧
      (o.tagOk = true → o.load = .none → o.fseq + 1 < 2 ^ 40 →
        (∀ e ∈ s.links.streams, e.1 / 1024 = o.port → e.2.fin < 2 ^ 40 ∧ e.2.fout < 2 ^ 40) → Runs (.flitReceive o) s fun t =>
        t.links.streams.find? (fun e => decide (e.1 = k)) = some (k, { b with fin := o.fseq + 1 }) ∧
        mapGet 0 t.meas.usage (353 + 2 * o.port) = mapGet 0 s.meas.usage (353 + 2 * o.port) + 240 ∧ t.cores = s.cores ∧ t.dev = s.dev) ∧
      (∀ g tag rank deadline, o.tagOk = true → o.load = .arrival g tag rank deadline → peerMay s o.port b.tenant g rank = true →
        (groupEntry s g).getLsbD 30 = true → barOf s g tag = none → (∀ x ∈ s.links.bars, x.group = g → x.tag ≤ tag) → Runs (.flitReceive o) s fun t =>
          (∃ x ∈ t.links.bars, x.group = g ∧ x.tag = tag ∧ rank ∈ x.arrived) ∧ t.cores = s.cores ∧ t.dev = s.dev) ∧
      (o.tagOk = true → ∀ g tag dst src part bytes lines, o.load = .contrib g tag dst src part bytes lines →
        peerMay s o.port b.tenant g src = false → Runs (.flitReceive o) s fun t =>
          mapHas t.links.streams k = false ∧ ⟨causeOwner, 512 + o.port, b.tenant, BitVec.ofNat 64 g, s.time⟩ ∈ t.thim.viols ∧ t.dev = s.dev))) ∧
  (∀ (s : State) (o : SpdmEv), thimOpen s = true → (o.port < 16 → (portOf s o.port).st = 2 ∨ (portOf s o.port).st = 3) →
    ((o.version = 13 ∧ o.listed = true) → Runs (.spdmRequest o) s fun t => ThimOnly s t ∧
      mapGet 1 t.thim.resp (65536 * (1025 + o.port)) = 0) ∧
    ((o.version ≠ 13 ∨ o.listed = false) → Runs (.spdmRequest o) s fun t =>
      mapGet 0 t.thim.resp (65536 * (1025 + o.port)) = 1 ∧ (o.port < 16 → (portOf t o.port).st = 4) ∧
      (16 ≤ o.port → ThimOnly s t) ∧ t.dev = s.dev))

/-- R36, R379, R381 to R384, R451: the host port. BAR2 reads and writes reach the tenant's memory in RUN alone; the TDISP requests move
a function between its states; a completion from the host, or its absence, ends the read that waits for it. -/
def Obligations.HostEvents : Prop :=
  (∀ (s : State) (o : HostEv),
    (bar2Open s o = false → (Runs (.hostBar2Read o) s fun t =>
        mapGet (0, false, false) t.links.answers o.vf = (0, true, false) ∧ t.cores = s.cores ∧ t.dev = s.dev) ∧
      Runs (.hostBar2Write o) s fun t => mapGet (0, false, false) t.links.answers o.vf = (0, true, false) ∧ t.cores = s.cores ∧ t.dev = s.dev) ∧
    (bar2Open s o = true → winOpen s o = false → (Runs (.hostBar2Read o) s fun t =>
        mapGet (0, false, false) t.links.answers o.vf = (0, true, false) ∧ t.cores = s.cores ∧ t.dev = s.dev) ∧
      (o.op = 0 → exec (.hostBar2Write o) s = .next s) ∧
      (o.op ≠ 0 → Runs (.hostBar2Write o) s fun t => mapGet (0, false, false) t.links.answers o.vf = (0, true, false) ∧ t.cores = s.cores ∧
        t.dev = s.dev)) ∧
    (bar2Open s o = true → winOpen s o = true →
      let w := tdiOf s o.vf
      let formed : Prop := (o.n = 4 ∨ o.n = 8) ∧ o.off % o.n = 0 ∧ 1 ≤ o.op ∧ o.op ≤ 3
      (∀ u l, hostWalk s o false = (u, .ok l) →
        (∀ a ∈ l, isHostFrame u a = false ∧ chanFailed u a = false ∧ mapGet false u.dev.tagBad (a / 512) = false ∧
          mapGet false u.dev.syn (a / 128) = false ∧ mapGet false u.dev.dbe (a / 128) = false) → Runs (.hostBar2Read o) s fun t =>
          (∃ v, mapGet (0, false, false) t.links.answers o.vf = (v, false, false) ∧
            ∀ j a, l[j]? = some a → BitVec.ofNat 8 (v / 256 ^ j) = memRead s.dev.mem a) ∧ t.dev.mem = s.dev.mem ∧ t.cores = s.cores) ∧
      (∀ u l, hostWalk s o true = (u, .ok l) → o.op = 0 → l.Nodup →
        (∀ a ∈ l, isHostFrame u a = false ∧ chanFailed u a = false ∧ durableCtx u a = none) → Runs (.hostBar2Write o) s fun t =>
          (∀ j a, l[j]? = some a → memRead t.dev.mem a = BitVec.ofNat 8 (o.value / 256 ^ j)) ∧
          (∀ a, a ∉ l → memRead t.dev.mem a = memRead s.dev.mem a) ∧ t.links.answers = s.links.answers ∧ t.cores = s.cores) ∧
      (∀ u a, hostWalk s o true = (u, .ok ((List.range o.n).map (a + ·))) → formed → a % 128 + o.n ≤ 128 →
        isHostFrame u a = false → chanFailed u a = false → durableCtx u a = none → mapGet false u.dev.tagBad (a / 512) = false →
        mapGet false u.dev.syn (a / 128) = false → mapGet false u.dev.dbe (a / 128) = false →
        let old := memReadNat s.dev.mem a o.n
        let new := if o.op = 1 then old + o.value else if o.op = 3 ∧ old ≠ o.cmp % 2 ^ (8 * o.n) then old else o.value
        Runs (.hostBar2Write o) s fun t => mapGet (0, false, false) t.links.answers o.vf = (old, false, false) ∧ t.cores = s.cores ∧
          ∀ x, memRead t.dev.mem x = if a ≤ x ∧ x < a + o.n then BitVec.ofNat 8 (new / 256 ^ (x - a)) else memRead s.dev.mem x) ∧
      (o.op ≠ 0 → ¬formed → Runs (.hostBar2Write o) s fun t =>
        mapGet (0, false, false) t.links.answers o.vf = (0, true, false) ∧ t.cores = s.cores ∧ t.dev = s.dev) ∧
      (∀ u va, hostWalk s o false = (u, .error (.owner, va)) → Runs (.hostBar2Read o) s fun t => (tdiOf t o.vf).st = 3 ∧
          ⟨causeOwner, 256 + o.vf, w.tenant, BitVec.ofNat 64 va, s.time⟩ ∈ t.thim.viols ∧
          mapGet (0, false, false) t.links.answers o.vf = (0, true, false) ∧ t.dev = u.dev ∧ t.cores = s.cores) ∧
      (∀ u va, hostWalk s o true = (u, .error (.owner, va)) → o.op = 0 ∨ formed → Runs (.hostBar2Write o) s fun t =>
          (tdiOf t o.vf).st = 3 ∧ ⟨causeOwner, 256 + o.vf, w.tenant, BitVec.ofNat 64 va, s.time⟩ ∈ t.thim.viols ∧ t.dev = u.dev ∧
          t.cores = s.cores ∧ (o.op ≠ 0 → mapGet (0, false, false) t.links.answers o.vf = (0, true, false))) ∧
      (∀ u va, hostWalk s o true = (u, .error (.fault, va)) → o.op = 0 → Runs (.hostBar2Write o) s fun t =>
          t.dev = u.dev ∧ t.cores = s.cores ∧ t.links = s.links))) ∧
  (∀ (s : State) (o : LockEv), thimOpen s = true → (tdiOf s o.vf).st = 0 → 1 ≤ o.vf → o.vf ≤ 255 → o.tenant < 1024 →
    (mapGet 0 s.dev.tenant o.tenant).getLsbD 64 = false → coresFree s o.cores = true → Runs (.lockInterfaceRequest o) s fun t =>
      tdiOf t o.vf = { tdiOf s o.vf with st := 1, tenant := o.tenant } ∧ (mapGet 0 t.dev.tenant o.tenant).getLsbD 64 = true ∧
      (∀ n, n < 256 → (mapGet 0 t.dev.tenant o.tenant).getLsbD (256 + n) = o.cores.getLsbD n) ∧
      (∀ n, n < 64 → (mapGet 0 t.dev.tenant o.tenant).getLsbD n = o.owners.getLsbD n) ∧
      fieldOf (mapGet 0 t.dev.tenant o.tenant) 65 8 = o.vf ∧ (∀ v, v ≠ o.vf → tdiOf t v = tdiOf s v) ∧
      (mapGet 0 t.dev.keys (2 * o.tenant)).getLsbD 1024 = true ∧
      fieldOf (mapGet 0 t.dev.keys (2 * o.tenant)) 1056 32 = (fieldOf (mapGet 0 s.dev.keys (2 * o.tenant)) 1056 32 + 1) % 2 ^ 32 ∧
      t.dev.mem = s.dev.mem ∧ t.cores = s.cores) ∧
  (∀ (s : State) (o : LockEv), thimOpen s = true → ((tdiOf s o.vf).st ≠ 0 ∨ o.vf = 0 ∨ 255 < o.vf ∨ 1024 ≤ o.tenant ∨
    (mapGet 0 s.dev.tenant o.tenant).getLsbD 64 = true ∨ coresFree s o.cores = false) → Runs (.lockInterfaceRequest o) s fun t =>
      mapGet 0 t.thim.resp (2 ^ 40 + o.vf) = 1 ∧ t.links = s.links ∧ t.dev = s.dev ∧ t.cores = s.cores) ∧
  (∀ (s : State) (o : IdxEv), (thimOpen s = true → (tdiOf s o.idx).st = 1 → Runs (.startInterfaceRequest o) s fun t =>
      (∃ x y, tdiOf t o.idx = { tdiOf s o.idx with st := 2, ide := true, keyRx := x, keyTx := y }) ∧ (∀ v, v ≠ o.idx → tdiOf t v = tdiOf s v) ∧ t.dev = s.dev ∧
      t.cores = s.cores) ∧
    (thimOpen s = true →
      let w := tdiOf s o.idx
      let e := mapGet 0 s.dev.tenant w.tenant
      (Runs (.stopInterfaceRequest o) s fun t => (tdiOf t o.idx).st = 0 ∧ (tdiOf t o.idx).ide = false ∧
        (tdiOf t o.idx).keyRx = 0 ∧ (tdiOf t o.idx).keyTx = 0 ∧
        (∀ v, v ≠ o.idx → tdiOf t v = tdiOf s v) ∧ t.dev.pot = s.dev.pot ∧
        (NothingSaved s → t.dev.mem = s.dev.mem) ∧
        (e.getLsbD 64 = true → fieldOf e 65 8 = o.idx →
          (∃ p ∈ t.thim.pend, p.svc = 15 ∧ p.tenant = w.tenant) ∧
          (∀ f, f < 256 → genOf s w.tenant f < 0xFFFF → genOf t w.tenant f = genOf s w.tenant f + 1) ∧
          ∀ k l l', launchOf s k = some l → l.tenant = w.tenant → l.ended = false → launchOf t k = some l' → l'.st = .ending ∧ l'.killed = true))) ∧
    ((tdiOf s o.idx).st = 1 ∨ (tdiOf s o.idx).st = 2 → Runs (.tdiError o) s fun t => tdiOf t o.idx = { tdiOf s o.idx with st := 3 } ∧
      (∀ v, v ≠ o.idx → tdiOf t v = tdiOf s v) ∧ t.dev = s.dev ∧ t.cores = s.cores) ∧
    ((tdiOf s o.idx).st = 2 → Runs (.ideKeyRefresh o) s fun t =>
      (∃ x y, tdiOf t o.idx = { tdiOf s o.idx with keyRx := x, keyTx := y }) ∧ (∀ v, v ≠ o.idx → tdiOf t v = tdiOf s v) ∧
      t.links.hostReq = s.links.hostReq ∧ t.links.hostMem = s.links.hostMem ∧ t.work = s.work ∧ t.dev = s.dev ∧ t.cores = s.cores) ∧
    ((tdiOf s o.idx).st ≠ 2 → exec (.ideKeyRefresh o) s = .next s)) ∧
  (∀ (s : State) (o : HostDataEv) (c q n rep gva d : Nat),
    s.links.hostReq.find? (fun r => decide (r.1 = o.idx)) = some (o.idx, d, .read c q n rep gva) →
    hostOpen s (s.core c).sys.tenant = false → exec (.hostCompletion o) s = .next s) ∧
  (∀ (s : State) (o : HostDataEv) (c q n rep gva d : Nat) (m : Cmd),
    s.links.hostReq.find? (fun r => decide (r.1 = o.idx)) = some (o.idx, d, .read c q n rep gva) → cmdOf s c q n = some m →
    hostOpen s (s.core c).sys.tenant = true →
    (isTimed m.e.i = true → (roomHeld s c).foldl (fun k x => k + repRoom x.1 x.2.j) 0 + repRoom m.e rep ≤ 114688 ∨
      ∀ r ∈ m.reps, r.j = rep → r.got ≠ [] ∨ r.done = true) →
    Runs (.hostCompletion o) s fun t => (∀ r ∈ t.links.hostReq, r.1 ≠ o.idx) ∧ (t.core c).sp = (s.core c).sp ∧ OthersKept s t [c] ∧
      t.dev = s.dev ∧ ∀ m', cmdOf t c q n = some m' → ∀ r ∈ m'.reps, r.j = rep → ∃ w ∈ r.got, w.line = gva / 128 ∧ w.data = o.data ∧
        w.code = if o.err then 3 else 0) ∧
  (∀ (s : State) (k d c q n rep gva : Nat) (m : Cmd), hostLate s = some (k, d, .read c q n rep gva) → cmdOf s c q n = some m →
    (isTimed m.e.i = true → (roomHeld s c).foldl (fun k x => k + repRoom x.1 x.2.j) 0 + repRoom m.e rep ≤ 114688 ∨
      ∀ r ∈ m.reps, r.j = rep → r.got ≠ [] ∨ r.done = true) →
    Runs .hostCompletionTimeout s fun t => (∀ r ∈ t.links.hostReq, r.1 ≠ k) ∧ (t.core c).sp = (s.core c).sp ∧ OthersKept s t [c] ∧
      t.dev = s.dev ∧ ∀ m', cmdOf t c q n = some m' → ∀ r ∈ m'.reps, r.j = rep → ∃ w ∈ r.got, w.line = gva / 128 ∧ w.data = 0 ∧ w.code = 3) ∧
  (∀ (s : State), Runs .hostPortReset s fun t => (∀ v, (tdiOf t v).st = 0 ∧ ((tdiOf s v).st ≠ 0 → (tdiOf t v).ide = false)) ∧
    (NothingSaved s → t.dev.mem = s.dev.mem) ∧ t.dev.pot = s.dev.pot)

/-- R342, R360, R363, R391 to R403, R421, R422, R438, R445, R446: the services of the Thimble. Each request that may be made has its
effect, answers OK and is charged to its owner; one that fails its check answers its status and changes nothing. -/
def Obligations.ServiceEvents : Prop :=
  (∀ (s : State) (o : SvcFrames), MayServe s o.caller o.owner 0 →
    (o.frames.all (fun e => isFrame s e.1 && decide (potState (potOf s e.1) = 0)) = true → Runs (.assign o) s fun t =>
      Answered s t o.caller o.owner o.req 1 0 ∧ t.cores = s.cores ∧ (∀ e ∈ o.frames, potState (potOf t e.1) = 1 ∧
        fieldOf (potOf t e.1) 0 10 = o.caller ∧ ∀ y, y / 65536 = e.1 / 65536 → memRead t.dev.mem y = 0) ∧
      ∀ y, (∀ e ∈ o.frames, y / 65536 ≠ e.1 / 65536) → memRead t.dev.mem y = memRead s.dev.mem y) ∧
    (o.frames.all (fun e => isFrame s e.1 && decide (potState (potOf s e.1) = 0)) = false → Runs (.assign o) s fun t =>
      Answered s t o.caller o.owner o.req 1 1) ∧
    (o.frames.all (fun e => ownedIn s o.caller [1] e.1 && !(potOf s e.1).getLsbD 13) = true → Runs (.share o) s fun t =>
      Answered s t o.caller o.owner o.req 2 0 ∧ t.cores = s.cores ∧ t.dev.mem = s.dev.mem ∧
      ∀ e ∈ o.frames, potState (potOf t e.1) = 2 ∧ fieldOf (potOf t e.1) 0 10 = o.caller) ∧
    (s.links.tdi.any (fun e => e.2.ide && decide (e.2.tenant = o.caller)) = true → (o.frames.map (·.1)).Nodup →
      (∀ e ∈ o.frames, isFrame s e.1 = true ∧ potState (potOf s e.1) = 0 ∧ e.2 % 65536 = 0) → Runs (.hostwin o) s fun t =>
        Answered s t o.caller o.owner o.req 3 0 ∧ t.cores = s.cores ∧ t.dev.mem = s.dev.mem ∧
        ∀ e ∈ o.frames, potState (potOf t e.1) = 5 ∧ fieldOf (potOf t e.1) 0 10 = o.caller ∧
          fieldOf (potOf t e.1) 16 48 = e.2 / 65536 % 2 ^ 48) ∧
    ((∀ e ∈ o.frames, ownedIn s o.caller [1, 2, 5] e.1 = true) → (∀ f ∈ o.families, f < 256) → Runs (.releaseService o) s fun t =>
      (∃ p, t.thim.pend = s.thim.pend ++ [p] ∧ p.svc = 4 ∧ p.caller = o.caller ∧ p.frames = o.frames.map (fun e => e.1 / 65536)) ∧
      (∀ f ∈ o.families, genOf s o.caller f < 0xFFFF → genOf s o.caller f < genOf t o.caller f) ∧ t.dev.pot = s.dev.pot ∧
      t.dev.mem = s.dev.mem ∧ t.cores = s.cores)) ∧
  (∀ (s : State) (o : SvcEv), MayServe s o.caller o.owner 0 →
    let asid := o.b / 2 % 1024
    (ownedIn s o.caller [1] o.a = true → asidOk s asid o.caller = true → (asidOf s asid).getLsbD 11 = true →
      (o.b % 2 = 1 → (potOf s o.a).getLsbD 13 = false → Runs (.durable o) s fun t => Answered s t o.caller o.owner o.req 5 0 ∧
        (potOf t o.a).getLsbD 13 = true ∧ durableCtx t o.a = some asid ∧ t.dev.mem = s.dev.mem ∧ t.cores = s.cores) ∧
      (o.b % 2 = 0 → durableCtx s o.a = some asid → Runs (.durable o) s fun t => Answered s t o.caller o.owner o.req 5 0 ∧
        t.dev.pot = s.dev.pot ∧ o.a / 65536 ∈ t.dev.durOff ∧ t.dev.mem = s.dev.mem ∧ t.cores = s.cores)) ∧
    (let e : BitVec 256 := o.x.extractLsb' 0 256
     let logs := framesIn (fieldOf e 128 41) (4224 * fieldOf e 169 23) ++ framesIn (fieldOf e 192 41) (32 * fieldOf e 233 23)
     o.a < 1024 → fieldOf e 12 4 = 0 → fieldOf e 45 19 = 0 → e.getLsbD 0 = true → fieldOf e 1 10 = o.caller →
     ((asidOf s o.a).getLsbD 0 = true → fieldOf (asidOf s o.a) 1 10 = o.caller) →
     (∀ pa ∈ o.addrs, ownedIn s o.caller [1] pa = true ∧ (potOf s pa).getLsbD 13 = false) → (ctxOf s o.a).st = 0 →
     (e.getLsbD 11 = false → Runs (.context o) s fun t => Answered s t o.caller o.owner o.req 6 0 ∧ asidOf t o.a = e ∧
       (∀ x ∈ t.dev.tlb, x.asid ≠ o.a) ∧ (∀ pa ∈ o.addrs, potState (potOf t pa) = 4) ∧ t.ctxs = s.ctxs ∧ t.dev.mem = s.dev.mem ∧
       t.cores = s.cores) ∧
     (e.getLsbD 11 = true → 3 ≤ fieldOf e 105 23 → fieldOf e 64 41 % 4096 = 0 →
       (∀ f ∈ logs, 65536 * f ∈ o.addrs ∨ (potState (frameEnt s f) = 4 ∧ fieldOf (frameEnt s f) 0 10 = o.caller)) →
       Runs (.context o) s fun t => Answered s t o.caller o.owner o.req 6 0 ∧ asidOf t o.a = e ∧ (ctxOf t o.a).st = 1 ∧ (ctxOf t o.a).iv = 1 ∧
         (ctxOf t o.a).log = [] ∧ (∀ b, b ≠ o.a → ctxOf t b = ctxOf s b) ∧ t.dev.mem = s.dev.mem ∧ t.cores = s.cores)) ∧
    (o.a < 256 → genOf s o.caller o.a < 0xFFFF → Runs (.revoke o) s fun t => genOf t o.caller o.a = genOf s o.caller o.a + 1 ∧
      (∃ w ∈ t.dev.sweeps, w.tenant = o.caller ∧ w.family = o.a ∧ w.gen = genOf s o.caller o.a + 1 ∧
        w.toSweep = partitionOf s o.caller ++ [256, 257, 258, 259] ∧ w.toAck = []) ∧
      (∃ p, t.thim.pend = s.thim.pend ++ [p] ∧ p.svc = 7 ∧ p.caller = o.caller) ∧ t.dev.mem = s.dev.mem ∧ t.cores = s.cores) ∧
    ((256 ≤ o.a ∨ 0xFFFF ≤ genOf s o.caller o.a) → Runs (.revoke o) s fun t => Answered s t o.caller o.owner o.req 7 1) ∧
    (hGen o.x = 0 → fieldOf o.x 448 64 = 0 →
      let may := viewLegal o.x && asidOk s (hAsid o.x) o.caller && decide (genOf s o.caller (hFamily o.x) < 0xFFFF) && viewMay s o.caller o.x
      (may = true → Runs (.mint o) s fun t => Answered s t o.caller o.owner o.req 8 0 ∧
        (∀ i, i < 8 → mapGet 0 t.thim.resp (65536 * o.caller + 2 + i) = (minted s o.caller o.x).extractLsb' (64 * i) 64) ∧
        hGen (minted s o.caller o.x) = genOf s o.caller (hFamily o.x) ∧ t.dev = s.dev ∧ t.cores = s.cores) ∧
      (may = false → Runs (.mint o) s fun t => Answered s t o.caller o.owner o.req 8 1)) ∧
    (let s1 : State := { s with links := { s.links with groups := mapSet 0 s.links.groups o.b (o.x.extractLsb' 0 256) } }
     (o.a = 0 → (portOf s (o.b / 1024)).st = 3 → (∀ e ∈ s.links.streams, e.1 ≠ o.b) → mapGet false s.links.shut o.b = false →
       Runs (.link o) s fun t => Answered s t o.caller o.owner o.req 13 0 ∧
         t.links.streams.find? (fun e => decide (e.1 = o.b)) = some (o.b, ⟨o.caller, 0, 0,
           linkKey (portOf s (o.b / 1024)).secret o.b 0, linkKey (portOf s (o.b / 1024)).secret o.b 1⟩) ∧ t.dev = s.dev ∧ t.cores = s.cores) ∧
     (o.a = 1 → o.b < 1024 → fieldOf (o.x.extractLsb' 0 256) 45 19 = 0 → fieldOf (o.x.extractLsb' 0 256) 160 95 = 0 →
       o.x.getLsbD 255 = true → (groupEntry s o.b).getLsbD 255 = false → grpTenant (o.x.extractLsb' 0 256) = o.caller →
       asidOk s (grpAsid (o.x.extractLsb' 0 256)) o.caller = true → (localRanks s1 o.b).all (spoolLegal s1 o.b) = true →
       Runs (.link o) s fun t => Answered s t o.caller o.owner o.req 13 0 ∧ groupEntry t o.b = o.x.extractLsb' 0 256 ∧ t.dev = s.dev ∧
         t.cores = s.cores) ∧
     (∀ b, o.a = 2 → s.links.streams.find? (fun e => decide (e.1 = o.b)) = some (o.b, b) → b.tenant = o.caller →
       Runs (.link o) s fun t => Answered s t o.caller o.owner o.req 13 0 ∧ mapHas t.links.streams o.b = false ∧ t.dev = s.dev ∧
         t.cores = s.cores))) ∧
  (∀ (s : State) (o : SvcEv), MayServe s o.caller o.owner 2 →
    let tn := if o.caller = 1024 then o.a else o.caller
    let e := mapGet 0 s.dev.tenant tn
    let k := 2 * tn + 1 - fieldOf e 73 1
    (e.getLsbD 64 = true → e.getLsbD 74 = false → Runs (.rotate o) s fun t => (mapGet 0 t.dev.tenant tn).getLsbD 74 = true ∧
      t.dev.rots = s.dev.rots ++ [⟨tn, fieldOf e 73 1⟩] ∧ (mapGet 0 t.dev.keys k).getLsbD 1024 = true ∧
      fieldOf (mapGet 0 t.dev.keys k) 1056 32 = (fieldOf (mapGet 0 s.dev.keys k) 1056 32 + 1) % 2 ^ 32 ∧
      (∃ p, t.thim.pend = s.thim.pend ++ [p] ∧ p.svc = 9) ∧ t.dev.mem = s.dev.mem ∧ t.cores = s.cores) ∧
    ((o.caller = 1024 ∨ BitVec.ofNat 64 o.a &&& ~~~ ((mapGet 0 s.dev.tenant o.caller).extractLsb' 0 64) = 0) →
      Runs (.reportService o) s fun t => (∃ r, t.meas.rc = some r ∧ (∀ h, h < 4 → h ∈ r.hubs) ∧
        ∃ p, t.thim.pend = s.thim.pend ++ [p] ∧ p.svc = 10 ∧ p.at_ = r.t ∧ p.x = o.x) ∧ t.dev = s.dev ∧ t.cores = s.cores)) ∧
  (∀ (s : State) (o : SvcEv), MayServe s o.caller o.owner 1 →
    (16 ≤ o.a → o.a ≤ 31 → (mapGet 0 s.thim.ms o.a).getLsbD 416 = false → Runs (.extend o) s fun t => Answered s t o.caller o.owner o.req 11 0 ∧
      fieldOf (mapGet 0 t.thim.ms o.a) 0 384 =
        digestNat (sha384 96 (fieldOf (mapGet 0 s.thim.ms o.a) 0 384 + fieldOf o.x 0 384 * 2 ^ 384)) ∧
      (mapGet 0 t.thim.ms o.a).getLsbD 416 = decide (o.b % 2 = 1) ∧ (∀ m, m ≠ o.a → mapGet 0 t.thim.ms m = mapGet 0 s.thim.ms m) ∧
      t.dev = s.dev ∧ t.cores = s.cores) ∧
    (o.a < 32 → formEn s o.a = true →
      (o.b / 4096 % 2 = 1 → (flendOf s o.a).getLsbD 12 = false → Runs (.loan o) s fun t => Answered s t o.caller o.owner o.req 12 0 ∧
        flendOf t o.a = BitVec.ofNat 64 (o.b % 4096 + 4096) ∧ t.dev = s.dev ∧ t.cores = s.cores) ∧
      (o.b / 4096 % 2 = 0 → (flendOf s o.a).getLsbD 12 = true → Runs (.loan o) s fun t => Answered s t o.caller o.owner o.req 12 0 ∧
        (flendOf t o.a).getLsbD 13 = true ∧ t.dev = s.dev ∧ ∀ n, n / 8 ≠ o.a → t.core n = s.core n)) ∧
    (o.a < 1191 → o.b % 8 < 4 → Runs (.clear o) s fun t => Answered s t o.caller o.owner o.req 14 0 ∧
      (let b := mapGet Bank.zero s.dev.banks o.a
       let n := if o.b / 2 % 2 = 1 then 0 else b.second
       mapGet Bank.zero t.dev.banks o.a = if o.b % 2 = 1 then ⟨b.stat, n, 0⟩ else ⟨b.stat, b.first, n⟩) ∧
      t.dev.mem = s.dev.mem ∧ t.cores = s.cores))

/-- R39, R40, R353 to R357: migration moves between its states on its commands and reports the frames written; a standby Timetable
core that takes over holds the clients until it is released; the role and the pending bits are written as the registers say. -/
def Obligations.MigrationAndTimetableEvents : Prop :=
  (∀ (s : State) (o : IdxEv),
    let m := migOf s o.idx
    let room := (mapGet 0 s.links.pf0 (0x10000 + 32 * o.idx + 24)).toNat % 2 ^ 32
    (m.st = 0 → room ≠ 0 → Runs (.migctlStart o) s fun t => SchedOnly s t ∧ migOf t o.idx = ⟨1, false, 0, []⟩) ∧
    (m.st ≠ 0 ∨ room = 0 → exec (.migctlStart o) s = .next s) ∧
    (m.st = 1 → (Runs (.migctlReport o) s fun t => (migOf t o.idx).st = 1 ∧ t.cores = s.cores ∧ t.dev = s.dev ∧
        (let cap := (mapGet 0 s.links.pf0 (0x10000 + 32 * o.idx + 24)).toNat % 2 ^ 32
         (migOf t o.idx).count = min cap m.frames.length ∧ (migOf t o.idx).frames = m.frames.drop cap ∧
         (migOf t o.idx).ovf = decide (cap < m.frames.length))) ∧
      Runs (.migctlStop o) s fun t => SchedOnly s t ∧ migOf t o.idx = { m with st := 2 }) ∧
    ((m.st = 1 ∨ m.st = 2) → Runs (.migctlAbort o) s fun t => SchedOnly s t ∧ migOf t o.idx = Mig.normal) ∧
    (m.st = 3 → Runs (.migctlResume o) s fun t => SchedOnly s t ∧ migOf t o.idx = Mig.normal)) ∧
  (∀ (s : State) (n : Nat), stopReady s = some n → Runs .migrationStopped s fun t => (migOf t n).st = 3 ∧ t.cores = s.cores ∧
    t.dev = s.dev ∧ ∀ m, m ≠ n → migOf t m = migOf s m) ∧
  (∀ (s : State), (s.sched.tt.standby = true → Runs .timetableTakeover s fun t => t.sched.tt.chold = true ∧ t.sched.tt.standby = false ∧
      t.plat.inv.getLsbD 656 = false ∧ t.cores = s.cores ∧ t.dev = (placeError s 1188 3 6 0 0).dev ∧ t.sched.launches = s.sched.launches ∧
      t.down = s.down ∧ ∃ d, t.work = s.work ++ [(d, .takeover)] ∧ s.cyc < d ∧ d ≤ s.cyc + 170000) ∧
    (s.sched.tt.standby = false → Runs .timetableTakeover s fun t => t.down = true ∧ t.plat.fatalN = true) ∧
    (Runs .choldRelease s fun t => SchedOnly s t ∧ t.sched = { s.sched with tt := { s.sched.tt with chold := false } }) ∧
    (Runs .standbyTimetableFailure s fun t => t.sched.tt.standby = false ∧ t.plat.inv.getLsbD 656 = false ∧ t.cores = s.cores ∧
      t.dev = s.dev ∧ t.sched.launches = s.sched.launches)) ∧
  (∀ (s : State) (o : IdxValEv),
    (o.value.getLsbD 0 = true → (s.sched.tt.chold = true ∨ (if o.idx = 0 then s.sched.tt.role1 else s.sched.tt.role0) = false) →
      Runs (.ttroleWrite o) s fun t => SchedOnly s t ∧ t.sched.tt.role0 = decide (o.idx = 0) ∧ t.sched.tt.role1 = decide (o.idx ≠ 0)) ∧
    (o.value.getLsbD 0 = true → s.sched.tt.chold = false → (if o.idx = 0 then s.sched.tt.role1 else s.sched.tt.role0) = true →
      exec (.ttroleWrite o) s = .next s) ∧
    (o.value.getLsbD 0 = false → Runs (.ttroleWrite o) s fun t => SchedOnly s t ∧
      t.sched.tt.role0 = (s.sched.tt.role0 && decide (o.idx ≠ 0)) ∧ t.sched.tt.role1 = (s.sched.tt.role1 && decide (o.idx = 0))) ∧
    (Runs (.pkbset o) s fun t => SchedOnly s t ∧ ∀ j, j < 64 →
      t.sched.pkb.getLsbD (64 * (o.idx % 16) + j) = (s.sched.pkb.getLsbD (64 * (o.idx % 16) + j) || o.value.getLsbD j)) ∧
    (Runs (.pkbclr o) s fun t => SchedOnly s t ∧ ∀ j, j < 64 →
      t.sched.pkb.getLsbD (64 * (o.idx % 16) + j) = (s.sched.pkb.getLsbD (64 * (o.idx % 16) + j) && !o.value.getLsbD j)))

/-- R8, R39, R258, R379, R380, R431, R434 to R441, R447 to R452: power, heat, resets and register writes. Power-on resets everything but
the fuses, the flash and what has failed for good, and runs the first stage of the boot; a power loss stops the machine; a panel
reset leaves nothing in its cores; a fatal error stops the package; heat, power and droop stretch the clocks. -/
def Obligations.PlatformEvents : Prop :=
  (∀ (s : State), (Runs .packagePowerOn s fun t => t.down = false ∧ t.cores = [] ∧ t.ctxs = [] ∧ t.work = [] ∧ t.dev.mem = [] ∧
      t.dev.pot = [] ∧ t.sched = SchedSt.reset ∧ t.links.tdi = [] ∧ t.links.ports = [] ∧ t.links.hostMem = s.links.hostMem ∧
      t.thim.flash = s.thim.flash ∧ t.thim.keyhash = s.thim.keyhash ∧ t.thim.minsvn = s.thim.minsvn ∧ t.thim.bootcnt = s.thim.bootcnt ∧
      t.thim.uds = s.thim.uds ∧ t.thim.udslock = true ∧ t.plat.siteBad = s.plat.siteBad ∧
      ((t.thim.stage = 2 ∧ t.thim.err = 0 ∧ t.thim.halted = false) ∨
        (t.thim.stage = 1 ∧ 1 ≤ t.thim.err ∧ t.thim.err ≤ 8 ∧ t.thim.halted = true)) ∧
      (memReadNat s.thim.flash 0 4 ≠ 0x4B534854 → t.thim.err = 1)) ∧
    (Runs .packagePowerLoss s fun t => t = { s with down := true })) ∧
  (∀ (s : State) (o : IdxEv), (o.idx < 8 → Runs (.panelReset o) s fun t =>
      (∀ n, n / 32 = o.idx → (∀ a, memRead (t.core n).sp.bytes a = 0) ∧ (∀ r, getS (t.core n) r = 0) ∧
        (t.core n).vec = ⟨[], [], [], [], []⟩ ∧ (∀ m, hreg (t.core n) m = Handle.none)) ∧
      ((∀ a, (ctxOf s a).st = 0) → ∀ n, n / 32 = o.idx → (t.core n).life = .idle) ∧
      mapGet 0 t.thim.sealing o.idx = mapGet 0 t.thim.slots 0 ∧ (NothingSaved s → t.dev.mem = s.dev.mem)) ∧
    (o.idx < 5 → Runs (.fatalError o) s fun t => t.down = true ∧ t.plat.fatalN = true) ∧
    (o.idx = 5 → s.sched.tt.standby = true → Runs (.fatalError o) s fun t => t.down = s.down ∧ t.sched.tt.chold = true ∧
      t.sched.tt.standby = false ∧ t.cores = s.cores ∧ t.dev.mem = s.dev.mem) ∧
    (∀ n b, n < 256 → b < 4 → o.idx = 6 + 4 * n + b → Runs (.fatalError o) s fun t => t.down = s.down ∧ t.dev.mem = s.dev.mem ∧
      OthersKept s t [n] ∧ (t.core n).sp = (s.core n).sp ∧ (t.core n).seq = (s.core n).seq ∧
      ((s.core n).life ≠ .running → (s.core n).life ≠ .draining → t.core n = s.core n) ∧
      ((s.core n).life = .running ∨ (s.core n).life = .draining → (s.core n).trap = none →
        ∃ p, (t.core n).trap = some p ∧ p.cause = causeUeControl ∧ p.info0 = BitVec.ofNat 64 b)) ∧
    (o.idx < 32 → Runs (.droop o) s fun t => stretchOf t o.idx = min 32 (stretchOf s o.idx + 1) ∧ t.cores = s.cores ∧ t.dev = s.dev ∧
      ∀ f, f ≠ o.idx → stretchOf t f = stretchOf s f)) ∧
  (∀ (s : State) (o : ThermEv), (120 ≤ o.temp → Runs (.thermalSample o) s fun t => t.plat.thermtrip = true ∧
      (o.place ≠ 0 → t.plat = { s.plat with thermtrip := true } ∧ t.cores = s.cores ∧ t.dev = s.dev)) ∧
    (o.place ≠ 0 → o.temp < 120 → exec (.thermalSample o) s = .next s) ∧
    (o.place = 0 → o.idx < 32 →
      (110 ≤ o.temp → Runs (.thermalSample o) s fun t => (∀ n, n / 32 = o.idx / 4 →
        (∀ a, memRead (t.core n).sp.bytes a = 0) ∧ (∀ r, getS (t.core n) r = 0) ∧ (t.core n).vec = ⟨[], [], [], [], []⟩ ∧
        ∀ m, hreg (t.core n) m = Handle.none)) ∧
      (100 ≤ o.temp → o.temp < 110 → Runs (.thermalSample o) s fun t => stretchOf t o.idx = min 32 (stretchOf s o.idx + 1) ∧
        mapGet false t.plat.hot o.idx = true ∧ t.cores = s.cores ∧ t.dev = s.dev) ∧
      (o.temp ≤ 98 → Runs (.thermalSample o) s fun t => stretchOf t o.idx = stretchOf s o.idx ∧ mapGet false t.plat.hot o.idx = false ∧
        t.cores = s.cores ∧ t.dev = s.dev))) ∧
  (∀ (s : State) (o : TwoEv),
    let lim := (mapGet 0 s.links.pf0 0x100).toNat
    (lim < o.a → Runs (.powerLimitCheck o) s fun t => (∀ f, f < 32 → stretchOf t f =
      if o.b.testBit f then min 32 (stretchOf s f + 1) else stretchOf s f) ∧ t.plat.lowerAt = s.time + 100000 ∧ t.cores = s.cores ∧
      t.dev = s.dev) ∧
    (100 * o.a ≤ 95 * lim → s.plat.lowerAt ≤ s.time → Runs (.powerLimitCheck o) s fun t => (∀ f, f < 32 → stretchOf t f =
      if mapGet false s.plat.hot f then stretchOf s f else stretchOf s f - 1) ∧ t.cores = s.cores ∧ t.dev = s.dev)) ∧
  (∀ (s : State) (o : RegEv),
    (o.space < 2 → s.thim.err ≠ 0 → exec (.registerWrite o) s = .next s) ∧
    (o.space = 0 → o.off = 0x3000 → s.thim.err = 0 →
      ((tdiOf s o.unit).st = 0 ∨ (tdiOf s o.unit).st = 2 → Runs (.registerWrite o) s fun t =>
        tdiOf t o.unit = { tdiOf s o.unit with win := o.value &&& 0x83FFFFFFC0000000 } ∧ t.cores = s.cores ∧ t.dev = s.dev) ∧
      ((tdiOf s o.unit).st = 1 → o.value &&& 0x83FFFFFFC0000000 ≠ (tdiOf s o.unit).win → Runs (.registerWrite o) s fun t =>
        tdiOf t o.unit = { tdiOf s o.unit with st := 3 } ∧ t.cores = s.cores ∧ t.dev = s.dev) ∧
      ((tdiOf s o.unit).st = 3 → exec (.registerWrite o) s = .next s)) ∧
    (o.space = 1 → o.off = 0x100 → s.thim.err = 0 →
      (1000 ≤ fieldOf o.value 0 13 → fieldOf o.value 0 13 ≤ 6000 → Runs (.registerWrite o) s fun t =>
        mapGet 0 t.links.pf0 0x100 = BitVec.ofNat 64 (fieldOf o.value 0 13) ∧
        (∀ k, k ≠ 0x100 → mapGet 0 t.links.pf0 k = mapGet 0 s.links.pf0 k) ∧ t.cores = s.cores ∧ t.dev = s.dev) ∧
      ((fieldOf o.value 0 13 < 1000 ∨ 6000 < fieldOf o.value 0 13) → exec (.registerWrite o) s = .next s)) ∧
    (o.space = 2 → o.off = 0x23000008 → o.value.getLsbD 0 = true → Runs (.registerWrite o) s fun t => ThimOnly s t ∧ t.thim.udslock = true) ∧
    (o.space = 2 → o.off = 0x21000000 → engReg s 0x030 = 0 →
      ((o.value.extractLsb' 0 8 = 1 ∨ o.value.extractLsb' 0 8 = 2) → Runs (.registerWrite o) s fun t =>
        engCode t 0x000 = (o.value.extractLsb' 0 8).toNat ∧ t.dev.mem = s.dev.mem ∧ t.cores = s.cores ∧
        ((engReg s 0x008).toNat < 2 ^ 41 → ThimOnly s t)) ∧
      (2 < (o.value.extractLsb' 0 8).toNat → Runs (.registerWrite o) s fun t => ThimOnly s t ∧ engReg t 0x030 = 0x10)) ∧
    (o.space = 3 → o.off = 0x03000000 → (if o.unit % 2 = 0 then s.sched.tt.role0 else s.sched.tt.role1) = true →
      Runs (.registerWrite o) s fun t => SchedOnly s t ∧ t.sched.tt.jhead = o.value.toNat ∧ t.sched.tt.ring = s.sched.tt.ring ∧
        (s.sched.tt.standby = false → t.sched.tt = { s.sched.tt with jhead := o.value.toNat }) ∧
        (s.sched.tt.standby = true → s.sched.tt.jtail ≤ t.sched.tt.jtail ∧
          (t.sched.tt.jtail ≠ s.sched.tt.jtail → (ringAt s.sched.tt (t.sched.tt.jtail - 1)).getLsbD 61 = true))))


/-- R73 to R94: decode of an encoding is the instruction, with every operand at every value that the encoding admits. -/
def Obligations.DecodeEncode : Prop :=
  ∀ (i : Instr) (w : IWord), wellFormed i = true → encode i = some w → decode w = .ok i

/-- R73 to R94, R206: a word that decodes holds no reserved code and is the encoding of its instruction, so that no two words mean the
same; the writes of special registers with rows of their own act on the word, and have no operands to encode. -/
def Obligations.DecodedWordsEncode : Prop :=
  ∀ (w : IWord) (i : Instr), decode w = .ok i → reservedOk i = true ∧
    (encode i = some w ∨ i = .loopStackWrite ∨ i = .inboxSpoolWrite ∨ i = .replySpoolWrite)

/-- R82 to R94: words of the spec's encoding tables and the instructions they stand for; words that are none. -/
def Obligations.SampleWords : Prop :=
  decode 0x000304200000#48 = .ok (.add ⟨3, 1, 2, 0⟩) ∧ decode 0x080413FFFFF8#48 = .ok (.addSi ⟨4, 4, 0x3FFFFF8⟩) ∧
  decode 0x0704140002C8#48 = .ok (.bfx ⟨4, 5, 11, 8⟩) ∧ decode 0x0BC618000004#48 = .ok (.sarSi ⟨6, 6, 4⟩) ∧
  decode 0x12CA2CC0000D#48 = .ok (.ffma ⟨10, 11, 12, 13⟩) ∧ decode 0x204403FFFFFB#48 = .ok (.bne ⟨4, 0, 0x3FFFFFB⟩) ∧
  decode 0x310000000007#48 = .ok (.trap ⟨7⟩) ∧ decode 0x314000000000#48 = .ok .eret ∧ decode 0x320000000003#48 = .ok (.qflush ⟨3⟩) ∧
  decode 0x354024B00000#48 = .ok (.tjoin ⟨9, 11⟩) ∧ decode 0x400605000040#48 = .ok (.hld ⟨3, 20, 64⟩) ∧
  decode 0x500D2C0280B2#48 = .ok (.vaddF32 ⟨3, 300, 10, 11, 2⟩) ∧ decode 0x524814010053#48 = .ok (.vfmaF32 ⟨2, 20, 4, 5, 3⟩) ∧
  decode 0x810488600300#48 = .ok (.mma ⟨1, 1, 2, 3, 1, 1, 0, 0, 0, 0⟩) ∧
  decode 0x9004651C803C#48 = .ok (.cpin ⟨1, 3, 5, 7, 2, 15, 0⟩) ∧ decode 0xB00510001000#48 = .ok (.swait ⟨1, 1, 1, 1⟩) ∧
  decode 0xC20000000005#48 = .ok (.bkpt ⟨5⟩) ∧ decode 0x0#48 = .illegal 0 ∧ decode 0xD00000000000#48 = .illegal 1 ∧
  decode 0xFFFFFFFFFFFF#48 = .illegal 1

/-- R4, R29, R73 to R75, R82, R106, R225, R228, R299, R432: when the sequencer's turn comes, the step is exec of the word at the PC that
decodes, or ENQUEUE for a word of an engine, in the state after the fetch; a matching breakpoint, a word that is none and a PC
outside the code come as their own rows; a word in another tenant's line or in a bank that is not ACTIVE does not run. -/
def Obligations.StepRunsDecoded : Prop :=
  (∀ (s : State) (n : Nat) (r : Instr), SeqNext s n r → pcMatch s n = none → (s.core n).seq.pc.toNat < (s.core n).sys.codesize →
    let c := s.core n
    let w := fetchWord s c
    let u : State := { s with cur := n }
    let code := if fetched c then [] else (wordParts c).map fun p => lineOf p.1
    let c1 := if fetched c then c else fetchTouch (portTaken c code) s.cyc
    let data := dataLines u c1 r
    (∀ i, decode w = .ok i → queueOfWord w = none → r = rowOf i w ∧ ((∀ o, i ≠ .csrw o ∧ i ≠ .csrs o ∧ i ≠ .csrc o) → r = i)) ∧
    (∀ i q, decode w = .ok i → queueOfWord w = some q → r = .enqueue) ∧
    (∀ sub, decode w = .illegal sub → r = .illegalWord) ∧
    (fetchOwned c = true → portAsk c s.cyc 1 code = none → portAsk c1 s.cyc 0 data = none →
      step s = exec r (u.setCore n (portTaken c1 data))) ∧
    (∀ d, fetchOwned c = true → portAsk c s.cyc 1 code = some d → WaitsBank c d ∧ step s = .next (u.setCore n d)) ∧
    (∀ d, fetchOwned c = true → portAsk c s.cyc 1 code = none → portAsk c1 s.cyc 0 data = some d →
      WaitsBank c1 d ∧ step s = .next (u.setCore n d)) ∧
    (fetchOwned c = false → c.trap = none → ∃ t, step s = .next t ∧ (t.core n).trap = some ⟨0x0B, false, 0, true, 0, 0, c.seq.pc⟩ ∧
      (t.core n).frozenV = true ∧ (t.core n).violAt = BitVec.ofNat 64 (wordAddr c) ∧ (t.core n).seq = c.seq ∧ t.dev = s.dev ∧
      OthersKept s t [n])) ∧
  (∀ (s : State) (n : Nat) (r : Instr), SeqNext s n r → ((pcMatch s n).isSome = true → step s = exec .pcMatch { s with cur := n }) ∧
    (pcMatch s n = none → (s.core n).sys.codesize ≤ (s.core n).seq.pc.toNat → step s = exec .illegalWord { s with cur := n })) ∧
  (∀ (c : Core) (cyc : Nat), c.sp.sbe = [] → c.sp.dbe = [] → Fetched c (fetchTouch c cyc)) ∧
  (∀ (s : State) (n : Nat) (e : QEntry), WordsNext s → firstCore s (earlyRow s) = none →
    firstCore s (fun n _ => issueDue s n false) = some (n, e) → step s = exec e.i (latched s n e)) ∧
  (∀ (s : State) (n : Nat) (e : QEntry), WordsNext s → firstCore s (earlyRow s) = none →
    firstCore s (fun n _ => issueDue s n false) = none → linTurn s = none → padRow s = none →
    firstCore s (fun n _ => rowIf (collDue s n).isSome .collectiveCompletion) = none → cinRow s = none → wakeTurn s = none →
    portTurn s = none → firstCore s (fun n _ => issueDue s n true) = some (n, e) → step s = exec e.i (latched s n e)) ∧
  (∀ (s : State) (i : Instr) (r : List (Nat × Instr)), s.down = false → takeUpset s s.upsets = none →
    takeInput s isClear s.inputs = some (i, r) → step s = exec i { s with inputs := r }) ∧
  (∀ (s : State) (i : Instr) (r : List (Nat × Instr)), s.down = false → takeUpset s s.upsets = none → takeInput s isClear s.inputs = none →
    takeInput s (fun i => isOutside i && !svcWaits s i && !isDdata i) s.inputs = some (i, r) → step s = exec i { s with inputs := r }) ∧
  (∀ (s : State) (n : Nat) (i : Instr), Undisturbed s → firstCore s undoRow = none → firstCore s (coreEvent s) = some (n, i) →
    step s = exec i { s with cur := n }) ∧
  (∀ (s : State) (i : Instr), Undisturbed s → firstCore s undoRow = none → firstCore s (coreEvent s) = none → sharedEvent s = some i →
    step s = exec i s) ∧
  (∀ (s : State) (i : Instr) (r : List (Nat × Instr)), Undisturbed s → nextEvent s = none →
    takeInput s (fun i => isDdata i && !ddataHeld s i) s.inputs = some (i, r) → step s = exec i { s with inputs := r }) ∧
  (∀ s : State, Undisturbed s → nextEvent s = none → takeInput s (fun i => isDdata i && !ddataHeld s i) s.inputs = none →
    ∃ t, step s = .next t ∧ t.cyc = s.cyc + 1 ∧ s.time < t.time ∧ (s.thim.pend = [] → t.dev.mem = s.dev.mem))

/-- R9, R27, R132, R170, R172, R198, R207, R224, R227, R341, R380, R448: the machine right after reset: the memories in their one form,
every core idle with nothing queued or pending; the PC, the scalar, vector, predicate, stream and handle registers, the tiles, TRAPEN,
the line codes, PLIM and SLICEUS at their values. The PC, the scalar registers, the bytes of the vector registers, p1 to p15 and the
bytes of both memories are the model's choice (log entries 2 and 7), and so is that the cores are idle. -/
def Obligations.ResetValues : Prop :=
  let s := State.reset
  s.down = false ∧ s.cyc = 0 ∧ DevCanonical s ∧ PadsCanonical s ∧ s.inputs = [] ∧ s.work = [] ∧ s.ctxs = [] ∧
  (∀ n, (s.core n).life = .idle ∧ (s.core n).seq.pc = 0 ∧ (s.core n).trap = none ∧ (s.core n).sys.trapen = 0 ∧
    (∀ r, getS (s.core n) r = 0) ∧ (∀ p, (preg (s.core n) p).bits = (if p = 0 then BitVec.allOnes 1024 else 0)) ∧
    (∀ v, vreg (s.core n) v = VReg.zero) ∧ (∀ h, hreg (s.core n) h = Handle.none) ∧ (∀ g, getG (s.core n) g = 0) ∧
    (∀ q, q < 4 → ((s.core n).queue q).ents = []) ∧ (∀ a, memRead (s.core n).sp.bytes a = 0) ∧ (∀ l, lineCode (s.core n) l = 0)) ∧
  (∀ n a, (getTile (s.core n) a) = Tile.zero) ∧ mapGet 0 s.links.pf0 0x100 = 6000 ∧ mapGet 0 s.links.pf0 0x108 = 1000 ∧
  (∀ a, memRead s.dev.mem a = 0)

/-- R39, R451: a step always answers a next state while the package holds power; without power only PACKAGE_POWER_ON does anything. -/
def Obligations.OnlyPowerLossStops : Prop :=
  (∀ s : State, s.down = false → ∃ t, step s = .next t) ∧
  (∀ s : State, s.down = true → (∀ x ∈ s.inputs, isPowerOn x.2 = false) → step s = .fault .packageDown) ∧
  (∀ s : State, s.down = true → (∃ x ∈ s.inputs, isPowerOn x.2 = true) → ∃ t, step s = .next t) ∧
  (∀ (i : Instr) (s : State), ∃ t, exec i s = .next t)

/-- R9: whatever the machine does, the list that stands for device memory keeps its one form: addresses strictly rising, no listed
byte equal to what an unlisted address reads as. -/
def Obligations.StepKeepsCanonical : Prop := ∀ s t : State, DevCanonical s → Steps s t → DevCanonical t

/-- R84: the all-zero word is no instruction, every other word with UNIT 0 and OP 0 is ADD (refused as RESERVED where a reserved bit
is set), and a zero word that the sequencer fetches raises ILLEGAL ZERO. -/
def Obligations.ZeroWordIsNoInstruction : Prop :=
  decode 0 = .illegal 0 ∧
  (∀ w : IWord, w ≠ 0 → fld w 44 4 = 0 → fld w 38 6 = 0 →
    (fld w 3 17 = 0 → decode w = .ok (.add ⟨fld w 32 6, fld w 26 6, fld w 20 6, fld w 0 3⟩)) ∧
    (fld w 3 17 ≠ 0 → decode w = .illegal 3)) ∧
  (∀ s : State, s.me.seq.pc.toNat < s.me.sys.codesize → fetchWord s s.me = 0 → RaisesAt .illegalWord s 0x01 0 0)
end

