-- ==== Sys2Proof/Laws/Lanes.lean ====
section
/-! SUPPORT. Lemmas about lanes, masks and segment codes: what a register built from a list holds lane by lane. -/

namespace Sys2Proof.Machine

theorem splitNat_length (w n x : Nat) : (splitNat w n x).length = n := by
  induction n generalizing x with
  | zero => rfl
  | succ n ih => simp [splitNat, ih]

theorem splitNat_getD (w n x j d : Nat) (h : j < n) : (splitNat w n x).getD j d = x / 2 ^ (w * j) % 2 ^ w := by
  induction n generalizing x j with
  | zero => omega
  | succ n ih =>
    cases j with
    | zero => simp [splitNat]
    | succ j =>
      have := ih (x / 2 ^ w) j (by omega)
      simp only [splitNat, List.getD_cons_succ, this, Nat.div_div_eq_div_mul, ← pow_add]
      congr 3; ring

theorem joinNat_lt (w : Nat) (l : List Nat) : joinNat w l < 2 ^ (w * l.length) := by
  induction l with
  | nil => simp [joinNat]
  | cons x t ih =>
    have hx : x % 2 ^ w < 2 ^ w := Nat.mod_lt _ (by positivity)
    have : 2 ^ w * joinNat w t + 2 ^ w ≤ 2 ^ w * 2 ^ (w * t.length) := by nlinarith [Nat.two_pow_pos w]
    have e : w * (x :: t).length = w + w * t.length := by simp; ring
    rw [e, pow_add]
    simp only [joinNat]; omega

theorem joinNat_field (w : Nat) (l : List Nat) (j : Nat) : joinNat w l / 2 ^ (w * j) % 2 ^ w = l.getD j 0 % 2 ^ w := by
  induction l generalizing j with
  | nil => simp [joinNat]
  | cons x t ih =>
    have hx : x % 2 ^ w < 2 ^ w := Nat.mod_lt _ (by positivity)
    cases j with
    | zero => simp [joinNat]
    | succ j =>
      have e : w * (j + 1) = w + w * j := by ring
      rw [e, pow_add, ← Nat.div_div_eq_div_mul]
      have : joinNat w (x :: t) / 2 ^ w = joinNat w t := by
        simp only [joinNat]
        rw [Nat.add_mul_div_left _ _ (Nat.two_pow_pos w), Nat.div_eq_of_lt hx, Nat.zero_add]
      rw [this, ih]; simp

/-- Field j of a number cut to n bits, where the field lies below n. -/
theorem field_mod (x n a w : Nat) (h : a + w ≤ n) : x % 2 ^ n / 2 ^ a % 2 ^ w = x / 2 ^ a % 2 ^ w := by
  apply Nat.eq_of_testBit_eq
  intro i
  simp only [Nat.testBit_mod_two_pow, Nat.testBit_div_two_pow]
  by_cases hi : i < w
  · simp [hi]; omega
  · simp [hi]

theorem laneOf_ofLanes (w : Nat) (l : List Nat) (j : Nat) (h : 8 * w * (j + 1) ≤ 8192) :
    laneOf w (ofLanes w l) j = l.getD j 0 % 2 ^ (8 * w) := by
  have e : 8 * w * j + 8 * w = 8 * w * (j + 1) := by ring
  rw [laneOf, ofLanes, BitVec.toNat_ofNat, field_mod _ _ _ _ (by omega), joinNat_field]

theorem lanesOf_length (w : Nat) (x : BitVec 8192) : (lanesOf w x).length = 1024 / w := splitNat_length _ _ _

theorem lanesOf_getD (w : Nat) (x : BitVec 8192) (j d : Nat) (h : j < 1024 / w) : (lanesOf w x).getD j d = laneOf w x j :=
  splitNat_getD _ _ _ _ _ h

theorem laneBits_length (w : Nat) (p : BitVec 1024) : (laneBits w p).length = 1024 / w := by
  simp [laneBits, splitNat_length]

theorem laneBits_getD (w : Nat) (p : BitVec 1024) (j : Nat) (hw : 0 < w) (h : j < 1024 / w) :
    (laneBits w p).getD j false = p.getLsbD (w * j) := by
  have hl : j < (splitNat w (1024 / w) p.toNat).length := by rw [splitNat_length]; exact h
  have e := splitNat_getD w (1024 / w) p.toNat j 0 h
  rw [List.getD_eq_getElem _ _ hl] at e
  rw [laneBits, List.getD_eq_getElem _ _ (by simpa using hl), List.getElem_map, e, BitVec.getLsbD, Nat.testBit_eq_decide_div_mod_eq]
  congr 1
  have d : (2 : Nat) ∣ 2 ^ w := dvd_pow_self 2 (by omega)
  rw [Nat.mod_mod_of_dvd _ d]

theorem laneMask_getLsbD (w : Nat) (l : List Bool) (b : Nat) (hw : 0 < w) (hb : b < 1024) :
    (laneMask w l).getLsbD b = l.getD (b / w) false := by
  have f := joinNat_field w (l.map fun b => if b then 2 ^ w - 1 else 0) (b / w)
  have hbm : b % w < w := Nat.mod_lt _ hw
  have t : (joinNat w (l.map fun b => if b then 2 ^ w - 1 else 0)).testBit b =
      (joinNat w (l.map fun b => if b then 2 ^ w - 1 else 0) / 2 ^ (w * (b / w)) % 2 ^ w).testBit (b % w) := by
    rw [Nat.testBit_mod_two_pow, Nat.testBit_div_two_pow]
    simp [hbm, Nat.mod_add_div]
  rw [laneMask, BitVec.getLsbD_ofNat, t, f]
  simp only [hb, decide_true, Bool.true_and, Nat.testBit_mod_two_pow, hbm]
  by_cases h : b / w < l.length
  · rw [List.getD_eq_getElem _ _ (by simpa using h), List.getD_eq_getElem _ _ h, List.getElem_map]
    cases l[b / w] <;> simp [Nat.testBit_two_pow_sub_one, hbm]
  · rw [List.getD_eq_default _ _ (by simpa using h), List.getD_eq_default _ _ (by simpa using h)]; simp

theorem mapLanes_getD (f : Nat → Nat → Nat → Nat) (ps : List Bool) (as bs ds : List Nat) (j : Nat)
    (ha : j < as.length) (hb : j < bs.length) (hd : j < ds.length) (hp : ps.getD j false = true) :
    (mapLanes f ps as bs ds).getD j 0 = f (as.getD j 0) (bs.getD j 0) (ds.getD j 0) := by
  induction ps generalizing as bs ds j with
  | nil => simp at hp
  | cons p ps ih =>
    match as, bs, ds with
    | a :: as, b :: bs, d :: ds =>
      cases j with
      | zero => simp at hp; simp [mapLanes, hp]
      | succ j =>
        simp only [List.getD_cons_succ] at hp ⊢
        simpa [mapLanes] using ih as bs ds j (by simpa using ha) (by simpa using hb) (by simpa using hd) hp

theorem codeAt_codesBy (f : Nat → BitVec 2) (j : Nat) (h : j < 8) : codeAt (codesBy f) j = f j := by
  apply BitVec.eq_of_toNat_eq
  have e := joinNat_field 2 ((List.range 8).map fun j => (f j).toNat) j
  have g : ((List.range 8).map fun j => (f j).toNat).getD j 0 = (f j).toNat := by simp [h]
  have hl : (f j).toNat < 2 ^ 2 := (f j).isLt
  rw [codeAt, codesBy, BitVec.extractLsb'_toNat, BitVec.toNat_ofNat, Nat.shiftRight_eq_div_pow, field_mod _ _ _ _ (by omega), e, g,
    Nat.mod_eq_of_lt hl]

theorem maxCode_comm (a b : BitVec 2) : maxCode a b = maxCode b a := by revert a b; decide
theorem maxCode_assoc (a b c : BitVec 2) : maxCode (maxCode a b) c = maxCode a (maxCode b c) := by revert a b c; decide
@[simp] theorem maxCode_zero (a : BitVec 2) : maxCode a 0#2 = a := by revert a; decide
@[simp] theorem zero_maxCode (a : BitVec 2) : maxCode 0#2 a = a := by revert a; decide
@[simp] theorem maxCode_self (a : BitVec 2) : maxCode a a = a := by revert a; decide

theorem maxCodes_foldl (a : BitVec 2) (l : List (BitVec 2)) : l.foldl maxCode a = maxCode a (maxCodes l) := by
  induction l generalizing a with
  | nil => exact (maxCode_zero a).symm
  | cons x t ih =>
    have e : maxCodes (x :: t) = t.foldl maxCode x := by
      show t.foldl maxCode (maxCode 0#2 x) = _
      rw [zero_maxCode]
    rw [e, List.foldl_cons, ih, ih x, maxCode_assoc]

theorem maxCodes_cons (a : BitVec 2) (l : List (BitVec 2)) : maxCodes (a :: l) = maxCode a (maxCodes l) := by
  show l.foldl maxCode (maxCode 0#2 a) = _
  rw [zero_maxCode, maxCodes_foldl]

/-- Codes of which each is 0 or k: the largest is k where some is. -/
theorem maxCodes_const (l : List Nat) (p : Nat → Bool) (k : BitVec 2) :
    maxCodes (l.map fun i => if p i then k else 0) = if l.any p then k else 0 := by
  induction l with
  | nil => rfl
  | cons x t ih =>
    rw [List.map_cons, maxCodes_cons, ih]
    cases hx : p x <;> cases ht : t.any p <;> simp [hx, ht]

/-- A segment's mask is not empty where a lane of it is active. -/
theorem segMask_ne_zero (m : BitVec 1024) (j : Nat) : segMask m j ≠ 0 ↔ ∃ b, b < 128 ∧ m.getLsbD (128 * j + b) = true := by
  constructor
  · intro h
    by_contra hc
    apply h
    apply BitVec.eq_of_getLsbD_eq
    intro i hi
    simp only [segMask, BitVec.getLsbD_extractLsb']
    have h0 : m.getLsbD (128 * j + i) = false := by
      cases hh : m.getLsbD (128 * j + i)
      · rfl
      · exact absurd ⟨i, hi, hh⟩ hc
    simp [h0]
  · rintro ⟨b, hb, h⟩ e
    have : (segMask m j).getLsbD b = true := by simp [segMask, hb, h]
    rw [e] at this; simp at this

/-- The codes of a word whose sources give one code to every lane of a segment (R133). -/
theorem srcCodes_seg (w : Nat) (hw : w = 1 ∨ w = 2 ∨ w = 4) (p : PReg) (m : BitVec 1024)
    (hm : ∀ b, b < 1024 → m.getLsbD b = p.bits.getLsbD (w * (b / w))) (srcs : List (BitVec 16)) (k : Nat → BitVec 2)
    (hk : ∀ j, j < 8 → ∀ i, i < 128 / w → k (128 / w * j + i) = maxCodes (srcs.map fun s => codeAt s j)) (j : Nat) (hj : j < 8) :
    codeAt (srcCodes p m srcs) j = segCode w p k j := by
  rw [srcCodes, codeAt_codesBy _ _ hj, segCode, maxCodes_cons]
  congr 1
  have e : ((List.range (128 / w)).map fun i => if p.bits.getLsbD (w * (128 / w * j + i)) then k (128 / w * j + i) else 0) =
      (List.range (128 / w)).map fun i => if p.bits.getLsbD (w * (128 / w * j + i)) then maxCodes (srcs.map fun s => codeAt s j) else 0 :=
    List.map_congr_left fun i hi => by rw [hk j hj i (List.mem_range.mp hi)]
  rw [e, maxCodes_const _ (fun i => p.bits.getLsbD (w * (128 / w * j + i)))]
  congr 1
  simp only [activeSegs, decide_eq_true_eq, List.any_eq_true, List.mem_range, eq_iff_iff]
  rw [segMask_ne_zero]
  constructor
  · rintro ⟨b, hb, h⟩
    rw [hm _ (by omega)] at h
    refine ⟨b / w, ?_, ?_⟩
    · rcases hw with rfl | rfl | rfl <;> omega
    · rw [show w * (128 / w * j + b / w) = w * ((128 * j + b) / w) by rcases hw with rfl | rfl | rfl <;> omega]; exact h
  · rintro ⟨i, hi, h⟩
    refine ⟨w * i, by rcases hw with rfl | rfl | rfl <;> omega, ?_⟩
    rw [hm _ (by rcases hw with rfl | rfl | rfl <;> omega)]
    rw [show w * ((128 * j + w * i) / w) = w * (128 / w * j + i) by rcases hw with rfl | rfl | rfl <;> omega]; exact h

/-- A word without parity errors reads its predicate as it stands. -/
theorem readP_clean (c : Core) (n : BitVec 4) (h : c.vec.pbad = []) : readP c n = (c, preg c n) := by
  simp [readP, h, mapGet]

/-- A word without parity errors reads a vector register as it stands. -/
theorem readV_clean (c : Core) (n : BitVec 10) (f : BitVec 256) (h : c.vec.vbad = []) : readV c n f = (c, vreg c n) := by
  simp [readV, h, mapGet]

end Sys2Proof.Machine
end

