-- ==== Sys2Proof/Laws/Map.lean ====
section
/-! SUPPORT. The laws of the sparse maps and of byte memory: a read after a write, and the canonical form that every write
keeps. -/

namespace Sys2Proof.Machine

@[simp] theorem mapGet_nil {α : Type} (d : α) (k : Nat) : mapGet d [] k = d := rfl

theorem mapGet_cons {α : Type} (d : α) (j : Nat) (v : α) (t : Map α) (k : Nat) :
    mapGet d ((j, v) :: t) k = if k = j then v else mapGet d t k := rfl

/-- What is read after a put: the value at its key, the old value elsewhere. -/
@[simp] theorem mapGet_mapPut {α : Type} (d : α) (m : Map α) (k : Nat) (v : α) (n : Nat) :
    mapGet d (mapPut m k v) n = if n = k then v else mapGet d m n := by
  induction m with
  | nil => simp [mapPut, mapGet]
  | cons e t ih =>
    obtain ⟨j, w⟩ := e
    simp only [mapPut]
    split
    · rfl
    · split
      · next h => subst h; simp only [mapGet_cons]; split <;> rfl
      · next h1 h2 =>
        simp only [mapGet_cons, ih]
        by_cases hn : n = j
        · have : n ≠ k := by omega
          simp [hn, Ne.symm h2]
        · simp [hn]

/-- The entries of a rising map lie at or above its bound. -/
theorem mapGet_below {α : Type} (d : α) (m : Map α) (b k : Nat) (h : mapRising b m = true) (hk : k < b) :
    mapGet d m k = d := by
  induction m generalizing b with
  | nil => rfl
  | cons e t ih =>
    obtain ⟨j, w⟩ := e
    simp only [mapRising, Bool.and_eq_true, decide_eq_true_eq] at h
    have hj : k ≠ j := by omega
    simp only [mapGet_cons, hj, if_false]
    exact ih (j + 1) h.2 (by omega)

theorem mapRising_mono {α : Type} (m : Map α) (a b : Nat) (hab : a ≤ b) (h : mapRising b m = true) :
    mapRising a m = true := by
  cases m with
  | nil => rfl
  | cons e t =>
    obtain ⟨j, w⟩ := e
    simp only [mapRising, Bool.and_eq_true, decide_eq_true_eq] at h ⊢
    exact ⟨by omega, h.2⟩

/-- What is read after a removal: the default at its key, the old value elsewhere. -/
@[simp] theorem mapGet_mapDel {α : Type} (d : α) (m : Map α) (k n : Nat) :
    mapGet d (mapDel m k) n = if n = k then d else mapGet d m n := by
  induction m with
  | nil => simp [mapDel]
  | cons e t ih =>
    obtain ⟨j, w⟩ := e
    simp only [mapDel]
    split
    · next hk => subst hk; rw [ih, mapGet_cons]; split <;> rfl
    · next hk =>
      simp only [mapGet_cons, ih]
      by_cases hn : n = j
      · simp [hn, Ne.symm hk]
      · simp [hn]

theorem mapRising_mapDel {α : Type} (m : Map α) (b k : Nat) (h : mapRising b m = true) :
    mapRising b (mapDel m k) = true := by
  induction m generalizing b with
  | nil => rfl
  | cons e t ih =>
    obtain ⟨j, w⟩ := e
    simp only [mapRising, Bool.and_eq_true, decide_eq_true_eq] at h
    simp only [mapDel]
    split
    · exact mapRising_mono _ b (j + 1) (by omega) (ih (j + 1) h.2)
    · simp only [mapRising, Bool.and_eq_true, decide_eq_true_eq]
      exact ⟨h.1, ih (j + 1) h.2⟩

theorem mapRising_mapPut {α : Type} (m : Map α) (b k : Nat) (v : α) (hb : b ≤ k) (h : mapRising b m = true) :
    mapRising b (mapPut m k v) = true := by
  induction m generalizing b with
  | nil => simpa [mapPut, mapRising] using hb
  | cons e t ih =>
    obtain ⟨j, w⟩ := e
    simp only [mapRising, Bool.and_eq_true, decide_eq_true_eq] at h
    simp only [mapPut]
    split
    · next hk => simp only [mapRising, Bool.and_eq_true, decide_eq_true_eq]; exact ⟨hb, by omega, h.2⟩
    · split
      · next hk => subst hk; simp only [mapRising, Bool.and_eq_true, decide_eq_true_eq]; exact ⟨hb, h.2⟩
      · next h1 h2 =>
        simp only [mapRising, Bool.and_eq_true, decide_eq_true_eq]
        exact ⟨h.1, ih (j + 1) (by omega) h.2⟩

theorem mapTight_mapDel {α : Type} [DecidableEq α] (d : α) (m : Map α) (k : Nat) (h : mapTight d m = true) :
    mapTight d (mapDel m k) = true := by
  induction m with
  | nil => rfl
  | cons e t ih =>
    obtain ⟨j, w⟩ := e
    simp only [mapTight, Bool.and_eq_true] at h
    simp only [mapDel]
    split
    · exact ih h.2
    · simp only [mapTight, Bool.and_eq_true]; exact ⟨h.1, ih h.2⟩

theorem mapTight_mapPut {α : Type} [DecidableEq α] (d : α) (m : Map α) (k : Nat) (v : α) (hv : v ≠ d)
    (h : mapTight d m = true) : mapTight d (mapPut m k v) = true := by
  induction m with
  | nil => simpa [mapPut, mapTight] using hv
  | cons e t ih =>
    obtain ⟨j, w⟩ := e
    have h' := h
    simp only [mapTight, Bool.and_eq_true] at h'
    simp only [mapPut]
    split
    · simp only [mapTight, Bool.and_eq_true, decide_eq_true_eq]; exact ⟨hv, by simpa using h'.1, h'.2⟩
    · split
      · simp only [mapTight, Bool.and_eq_true, decide_eq_true_eq]; exact ⟨hv, h'.2⟩
      · simp only [mapTight, Bool.and_eq_true]; exact ⟨h'.1, ih h'.2⟩

/-- A write in canonical form keeps the canonical form. -/
theorem mapWf_mapSet {α : Type} [DecidableEq α] (d : α) (m : Map α) (k : Nat) (v : α) (h : mapWf d m = true) :
    mapWf d (mapSet d m k v) = true := by
  simp only [mapWf, Bool.and_eq_true] at h ⊢
  simp only [mapSet]
  split
  · exact ⟨mapRising_mapDel m 0 k h.1, mapTight_mapDel d m k h.2⟩
  · next hv => exact ⟨mapRising_mapPut m 0 k v (by omega) h.1, mapTight_mapPut d m k v hv h.2⟩

/-- What is read after a write in canonical form. -/
@[simp] theorem mapGet_mapSet {α : Type} [DecidableEq α] (d : α) (m : Map α) (k : Nat) (v : α) (n : Nat) :
    mapGet d (mapSet d m k v) n = if n = k then v else mapGet d m n := by
  simp only [mapSet]
  split
  · next hv => subst hv; exact mapGet_mapDel v m k n
  · simp

/-- A write of one byte keeps the canonical form. -/
theorem memWf_memWrite (m : Map (BitVec 8)) (a : Nat) (b : BitVec 8) (h : memWf m = true) :
    memWf (memWrite m a b) = true := mapWf_mapSet memDefault m a b h

/-- One byte after a write of one byte. -/
@[simp] theorem memRead_memWrite (m : Map (BitVec 8)) (a : Nat) (b : BitVec 8) (n : Nat) :
    memRead (memWrite m a b) n = if n = a then b else memRead m n := mapGet_mapSet memDefault m a b n

/-- A write of several bytes keeps the canonical form. -/
theorem memWf_memWriteNat (m : Map (BitVec 8)) (a n v : Nat) (h : memWf m = true) :
    memWf (memWriteNat m a n v) = true := by
  induction n generalizing m a v with
  | zero => exact h
  | succ n ih => exact ih _ _ _ (memWf_memWrite m a _ h)

/-- One byte after a little-endian write of n bytes: byte i of the value at a + i, the old byte elsewhere. -/
theorem memRead_memWriteNat (m : Map (BitVec 8)) (a n v k : Nat) :
    memRead (memWriteNat m a n v) k
      = if a ≤ k ∧ k < a + n then BitVec.ofNat 8 (v / 256 ^ (k - a)) else memRead m k := by
  induction n generalizing m a v with
  | zero => simp only [memWriteNat]; rw [if_neg (by omega)]
  | succ n ih =>
    simp only [memWriteNat]
    rw [ih, memRead_memWrite]
    by_cases hk : k = a
    · subst hk
      rw [if_neg (by omega), if_pos rfl, if_pos (by omega)]
      simp
    · by_cases h1 : a + 1 ≤ k ∧ k < a + 1 + n
      · rw [if_pos h1, if_pos (by omega), Nat.div_div_eq_div_mul]
        have : k - a = (k - (a + 1)) + 1 := by omega
        rw [this, Nat.pow_succ, Nat.mul_comm]
      · rw [if_neg h1, if_neg hk, if_neg (by omega)]

/-- A little-endian read of n bytes is below 256^n. -/
theorem memReadNat_lt (m : Map (BitVec 8)) (a n : Nat) : memReadNat m a n < 256 ^ n := by
  induction n generalizing a with
  | zero => simp [memReadNat]
  | succ n ih =>
    have h0 := (memRead m a).isLt
    have hr := ih (a + 1)
    simp only [memReadNat, Nat.pow_succ]
    omega

/-- A little-endian write of n bytes read back: the value modulo 256^n. -/
theorem memReadNat_memWriteNat (m : Map (BitVec 8)) (a n v : Nat) : memReadNat (memWriteNat m a n v) a n = v % 256 ^ n := by
  have key : ∀ n m a v, ∀ f : Map (BitVec 8), (∀ i, i < n → memRead f (a + i) = memRead (memWriteNat m a n v) (a + i)) →
      memReadNat f a n = v % 256 ^ n := by
    intro n
    induction n with
    | zero => intro m a v f _; simp [memReadNat, Nat.mod_one]
    | succ n ih =>
      intro m a v f h
      have h0 := h 0 (by omega)
      rw [Nat.add_zero, memRead_memWriteNat, if_pos (by omega)] at h0
      have hr : memReadNat f (a + 1) n = v / 256 % 256 ^ n := by
        refine ih m (a + 1) (v / 256) f fun i hi => ?_
        have := h (i + 1) (by omega)
        rw [memRead_memWriteNat, if_pos (by omega)] at this
        rw [memRead_memWriteNat, if_pos (by omega), Nat.add_assoc, Nat.add_comm 1 i, this, Nat.div_div_eq_div_mul]
        have e1 : a + (i + 1) - a = i + 1 := by omega
        have e2 : a + (i + 1) - (a + 1) = i := by omega
        rw [e1, e2, Nat.pow_succ, Nat.mul_comm]
      simp only [memReadNat]
      have hs : v % 256 ^ (n + 1) = v % 256 + 256 * (v / 256 % 256 ^ n) := by rw [Nat.pow_succ, Nat.mul_comm, Nat.mod_mul]
      rw [hr, h0, Nat.sub_self, Nat.pow_zero, Nat.div_one, BitVec.toNat_ofNat, hs]
  exact key n m a v _ fun _ _ => rfl

end Sys2Proof.Machine
end

