-- ==== Sys2Proof/Laws/State.lean ====
section
/-! SUPPORT. One lemma for each field under each named update of the machine and of a core: what the update leaves alone, and
what is read where it writes. -/

namespace Sys2Proof.Machine

/-! `State.setCore`. -/

@[simp] theorem State.setCore_cores (s : State) (n : Nat) (c : Core) : (s.setCore n c).cores = mapPut s.cores n c := rfl
@[simp] theorem State.setCore_cur (s : State) (n : Nat) (c : Core) : (s.setCore n c).cur = s.cur := rfl
@[simp] theorem State.setCore_cyc (s : State) (n : Nat) (c : Core) : (s.setCore n c).cyc = s.cyc := rfl
@[simp] theorem State.setCore_time (s : State) (n : Nat) (c : Core) : (s.setCore n c).time = s.time := rfl
@[simp] theorem State.setCore_split (s : State) (n : Nat) (c : Core) : (s.setCore n c).split = s.split := rfl
@[simp] theorem State.setCore_inputs (s : State) (n : Nat) (c : Core) : (s.setCore n c).inputs = s.inputs := rfl
@[simp] theorem State.setCore_upsets (s : State) (n : Nat) (c : Core) : (s.setCore n c).upsets = s.upsets := rfl
@[simp] theorem State.setCore_work (s : State) (n : Nat) (c : Core) : (s.setCore n c).work = s.work := rfl
@[simp] theorem State.setCore_free (s : State) (n : Nat) (c : Core) : (s.setCore n c).free = s.free := rfl
@[simp] theorem State.setCore_dev (s : State) (n : Nat) (c : Core) : (s.setCore n c).dev = s.dev := rfl
@[simp] theorem State.setCore_ctxs (s : State) (n : Nat) (c : Core) : (s.setCore n c).ctxs = s.ctxs := rfl
@[simp] theorem State.setCore_sched (s : State) (n : Nat) (c : Core) : (s.setCore n c).sched = s.sched := rfl
@[simp] theorem State.setCore_links (s : State) (n : Nat) (c : Core) : (s.setCore n c).links = s.links := rfl
@[simp] theorem State.setCore_meas (s : State) (n : Nat) (c : Core) : (s.setCore n c).meas = s.meas := rfl
@[simp] theorem State.setCore_thim (s : State) (n : Nat) (c : Core) : (s.setCore n c).thim = s.thim := rfl
@[simp] theorem State.setCore_plat (s : State) (n : Nat) (c : Core) : (s.setCore n c).plat = s.plat := rfl
@[simp] theorem State.setCore_down (s : State) (n : Nat) (c : Core) : (s.setCore n c).down = s.down := rfl

/-! `State.onMe`. -/

@[simp] theorem State.onMe_cores (s : State) (f : Core → Core) : (s.onMe f).cores = mapPut s.cores s.cur (f s.me) := rfl
@[simp] theorem State.onMe_cur (s : State) (f : Core → Core) : (s.onMe f).cur = s.cur := rfl
@[simp] theorem State.onMe_cyc (s : State) (f : Core → Core) : (s.onMe f).cyc = s.cyc := rfl
@[simp] theorem State.onMe_time (s : State) (f : Core → Core) : (s.onMe f).time = s.time := rfl
@[simp] theorem State.onMe_split (s : State) (f : Core → Core) : (s.onMe f).split = s.split := rfl
@[simp] theorem State.onMe_inputs (s : State) (f : Core → Core) : (s.onMe f).inputs = s.inputs := rfl
@[simp] theorem State.onMe_upsets (s : State) (f : Core → Core) : (s.onMe f).upsets = s.upsets := rfl
@[simp] theorem State.onMe_work (s : State) (f : Core → Core) : (s.onMe f).work = s.work := rfl
@[simp] theorem State.onMe_free (s : State) (f : Core → Core) : (s.onMe f).free = s.free := rfl
@[simp] theorem State.onMe_dev (s : State) (f : Core → Core) : (s.onMe f).dev = s.dev := rfl
@[simp] theorem State.onMe_ctxs (s : State) (f : Core → Core) : (s.onMe f).ctxs = s.ctxs := rfl
@[simp] theorem State.onMe_sched (s : State) (f : Core → Core) : (s.onMe f).sched = s.sched := rfl
@[simp] theorem State.onMe_links (s : State) (f : Core → Core) : (s.onMe f).links = s.links := rfl
@[simp] theorem State.onMe_meas (s : State) (f : Core → Core) : (s.onMe f).meas = s.meas := rfl
@[simp] theorem State.onMe_thim (s : State) (f : Core → Core) : (s.onMe f).thim = s.thim := rfl
@[simp] theorem State.onMe_plat (s : State) (f : Core → Core) : (s.onMe f).plat = s.plat := rfl
@[simp] theorem State.onMe_down (s : State) (f : Core → Core) : (s.onMe f).down = s.down := rfl

/-! `State.setCtx`. -/

@[simp] theorem State.setCtx_cores (s : State) (a : Nat) (c : Ctx) : (s.setCtx a c).cores = s.cores := rfl
@[simp] theorem State.setCtx_cur (s : State) (a : Nat) (c : Ctx) : (s.setCtx a c).cur = s.cur := rfl
@[simp] theorem State.setCtx_cyc (s : State) (a : Nat) (c : Ctx) : (s.setCtx a c).cyc = s.cyc := rfl
@[simp] theorem State.setCtx_time (s : State) (a : Nat) (c : Ctx) : (s.setCtx a c).time = s.time := rfl
@[simp] theorem State.setCtx_split (s : State) (a : Nat) (c : Ctx) : (s.setCtx a c).split = s.split := rfl
@[simp] theorem State.setCtx_inputs (s : State) (a : Nat) (c : Ctx) : (s.setCtx a c).inputs = s.inputs := rfl
@[simp] theorem State.setCtx_upsets (s : State) (a : Nat) (c : Ctx) : (s.setCtx a c).upsets = s.upsets := rfl
@[simp] theorem State.setCtx_work (s : State) (a : Nat) (c : Ctx) : (s.setCtx a c).work = s.work := rfl
@[simp] theorem State.setCtx_free (s : State) (a : Nat) (c : Ctx) : (s.setCtx a c).free = s.free := rfl
@[simp] theorem State.setCtx_dev (s : State) (a : Nat) (c : Ctx) : (s.setCtx a c).dev = s.dev := rfl
@[simp] theorem State.setCtx_ctxs (s : State) (a : Nat) (c : Ctx) : (s.setCtx a c).ctxs = mapSet Ctx.off s.ctxs a c := rfl
@[simp] theorem State.setCtx_sched (s : State) (a : Nat) (c : Ctx) : (s.setCtx a c).sched = s.sched := rfl
@[simp] theorem State.setCtx_links (s : State) (a : Nat) (c : Ctx) : (s.setCtx a c).links = s.links := rfl
@[simp] theorem State.setCtx_meas (s : State) (a : Nat) (c : Ctx) : (s.setCtx a c).meas = s.meas := rfl
@[simp] theorem State.setCtx_thim (s : State) (a : Nat) (c : Ctx) : (s.setCtx a c).thim = s.thim := rfl
@[simp] theorem State.setCtx_plat (s : State) (a : Nat) (c : Ctx) : (s.setCtx a c).plat = s.plat := rfl
@[simp] theorem State.setCtx_down (s : State) (a : Nat) (c : Ctx) : (s.setCtx a c).down = s.down := rfl

/-! `State.setLaunch`. -/

@[simp] theorem State.setLaunch_cores (s : State) (k : Nat) (l : Launch) : (s.setLaunch k l).cores = s.cores := rfl
@[simp] theorem State.setLaunch_cur (s : State) (k : Nat) (l : Launch) : (s.setLaunch k l).cur = s.cur := rfl
@[simp] theorem State.setLaunch_cyc (s : State) (k : Nat) (l : Launch) : (s.setLaunch k l).cyc = s.cyc := rfl
@[simp] theorem State.setLaunch_time (s : State) (k : Nat) (l : Launch) : (s.setLaunch k l).time = s.time := rfl
@[simp] theorem State.setLaunch_split (s : State) (k : Nat) (l : Launch) : (s.setLaunch k l).split = s.split := rfl
@[simp] theorem State.setLaunch_inputs (s : State) (k : Nat) (l : Launch) : (s.setLaunch k l).inputs = s.inputs := rfl
@[simp] theorem State.setLaunch_upsets (s : State) (k : Nat) (l : Launch) : (s.setLaunch k l).upsets = s.upsets := rfl
@[simp] theorem State.setLaunch_work (s : State) (k : Nat) (l : Launch) : (s.setLaunch k l).work = s.work := rfl
@[simp] theorem State.setLaunch_free (s : State) (k : Nat) (l : Launch) : (s.setLaunch k l).free = s.free := rfl
@[simp] theorem State.setLaunch_dev (s : State) (k : Nat) (l : Launch) : (s.setLaunch k l).dev = s.dev := rfl
@[simp] theorem State.setLaunch_ctxs (s : State) (k : Nat) (l : Launch) : (s.setLaunch k l).ctxs = s.ctxs := rfl
@[simp] theorem State.setLaunch_links (s : State) (k : Nat) (l : Launch) : (s.setLaunch k l).links = s.links := rfl
@[simp] theorem State.setLaunch_meas (s : State) (k : Nat) (l : Launch) : (s.setLaunch k l).meas = s.meas := rfl
@[simp] theorem State.setLaunch_thim (s : State) (k : Nat) (l : Launch) : (s.setLaunch k l).thim = s.thim := rfl
@[simp] theorem State.setLaunch_plat (s : State) (k : Nat) (l : Launch) : (s.setLaunch k l).plat = s.plat := rfl
@[simp] theorem State.setLaunch_down (s : State) (k : Nat) (l : Launch) : (s.setLaunch k l).down = s.down := rfl

/-! `State.setSpool`. -/

@[simp] theorem State.setSpool_cores (s : State) (i : Nat) (x : Spool) : (s.setSpool i x).cores = s.cores := rfl
@[simp] theorem State.setSpool_cur (s : State) (i : Nat) (x : Spool) : (s.setSpool i x).cur = s.cur := rfl
@[simp] theorem State.setSpool_cyc (s : State) (i : Nat) (x : Spool) : (s.setSpool i x).cyc = s.cyc := rfl
@[simp] theorem State.setSpool_time (s : State) (i : Nat) (x : Spool) : (s.setSpool i x).time = s.time := rfl
@[simp] theorem State.setSpool_split (s : State) (i : Nat) (x : Spool) : (s.setSpool i x).split = s.split := rfl
@[simp] theorem State.setSpool_inputs (s : State) (i : Nat) (x : Spool) : (s.setSpool i x).inputs = s.inputs := rfl
@[simp] theorem State.setSpool_upsets (s : State) (i : Nat) (x : Spool) : (s.setSpool i x).upsets = s.upsets := rfl
@[simp] theorem State.setSpool_work (s : State) (i : Nat) (x : Spool) : (s.setSpool i x).work = s.work := rfl
@[simp] theorem State.setSpool_free (s : State) (i : Nat) (x : Spool) : (s.setSpool i x).free = s.free := rfl
@[simp] theorem State.setSpool_dev (s : State) (i : Nat) (x : Spool) : (s.setSpool i x).dev = s.dev := rfl
@[simp] theorem State.setSpool_ctxs (s : State) (i : Nat) (x : Spool) : (s.setSpool i x).ctxs = s.ctxs := rfl
@[simp] theorem State.setSpool_links (s : State) (i : Nat) (x : Spool) : (s.setSpool i x).links = s.links := rfl
@[simp] theorem State.setSpool_meas (s : State) (i : Nat) (x : Spool) : (s.setSpool i x).meas = s.meas := rfl
@[simp] theorem State.setSpool_thim (s : State) (i : Nat) (x : Spool) : (s.setSpool i x).thim = s.thim := rfl
@[simp] theorem State.setSpool_plat (s : State) (i : Nat) (x : Spool) : (s.setSpool i x).plat = s.plat := rfl
@[simp] theorem State.setSpool_down (s : State) (i : Nat) (x : Spool) : (s.setSpool i x).down = s.down := rfl

/-! `State.setCspool`. -/

@[simp] theorem State.setCspool_cores (s : State) (vf m : Nat) (x : CSpool) : (s.setCspool vf m x).cores = s.cores := rfl
@[simp] theorem State.setCspool_cur (s : State) (vf m : Nat) (x : CSpool) : (s.setCspool vf m x).cur = s.cur := rfl
@[simp] theorem State.setCspool_cyc (s : State) (vf m : Nat) (x : CSpool) : (s.setCspool vf m x).cyc = s.cyc := rfl
@[simp] theorem State.setCspool_time (s : State) (vf m : Nat) (x : CSpool) : (s.setCspool vf m x).time = s.time := rfl
@[simp] theorem State.setCspool_split (s : State) (vf m : Nat) (x : CSpool) : (s.setCspool vf m x).split = s.split := rfl
@[simp] theorem State.setCspool_inputs (s : State) (vf m : Nat) (x : CSpool) : (s.setCspool vf m x).inputs = s.inputs := rfl
@[simp] theorem State.setCspool_upsets (s : State) (vf m : Nat) (x : CSpool) : (s.setCspool vf m x).upsets = s.upsets := rfl
@[simp] theorem State.setCspool_work (s : State) (vf m : Nat) (x : CSpool) : (s.setCspool vf m x).work = s.work := rfl
@[simp] theorem State.setCspool_free (s : State) (vf m : Nat) (x : CSpool) : (s.setCspool vf m x).free = s.free := rfl
@[simp] theorem State.setCspool_dev (s : State) (vf m : Nat) (x : CSpool) : (s.setCspool vf m x).dev = s.dev := rfl
@[simp] theorem State.setCspool_ctxs (s : State) (vf m : Nat) (x : CSpool) : (s.setCspool vf m x).ctxs = s.ctxs := rfl
@[simp] theorem State.setCspool_links (s : State) (vf m : Nat) (x : CSpool) : (s.setCspool vf m x).links = s.links := rfl
@[simp] theorem State.setCspool_meas (s : State) (vf m : Nat) (x : CSpool) : (s.setCspool vf m x).meas = s.meas := rfl
@[simp] theorem State.setCspool_thim (s : State) (vf m : Nat) (x : CSpool) : (s.setCspool vf m x).thim = s.thim := rfl
@[simp] theorem State.setCspool_plat (s : State) (vf m : Nat) (x : CSpool) : (s.setCspool vf m x).plat = s.plat := rfl
@[simp] theorem State.setCspool_down (s : State) (vf m : Nat) (x : CSpool) : (s.setCspool vf m x).down = s.down := rfl

/-! `State.setTdi`. -/

@[simp] theorem State.setTdi_cores (s : State) (vf : Nat) (x : Tdi) : (s.setTdi vf x).cores = s.cores := rfl
@[simp] theorem State.setTdi_cur (s : State) (vf : Nat) (x : Tdi) : (s.setTdi vf x).cur = s.cur := rfl
@[simp] theorem State.setTdi_cyc (s : State) (vf : Nat) (x : Tdi) : (s.setTdi vf x).cyc = s.cyc := rfl
@[simp] theorem State.setTdi_time (s : State) (vf : Nat) (x : Tdi) : (s.setTdi vf x).time = s.time := rfl
@[simp] theorem State.setTdi_split (s : State) (vf : Nat) (x : Tdi) : (s.setTdi vf x).split = s.split := rfl
@[simp] theorem State.setTdi_inputs (s : State) (vf : Nat) (x : Tdi) : (s.setTdi vf x).inputs = s.inputs := rfl
@[simp] theorem State.setTdi_upsets (s : State) (vf : Nat) (x : Tdi) : (s.setTdi vf x).upsets = s.upsets := rfl
@[simp] theorem State.setTdi_work (s : State) (vf : Nat) (x : Tdi) : (s.setTdi vf x).work = s.work := rfl
@[simp] theorem State.setTdi_free (s : State) (vf : Nat) (x : Tdi) : (s.setTdi vf x).free = s.free := rfl
@[simp] theorem State.setTdi_dev (s : State) (vf : Nat) (x : Tdi) : (s.setTdi vf x).dev = s.dev := rfl
@[simp] theorem State.setTdi_ctxs (s : State) (vf : Nat) (x : Tdi) : (s.setTdi vf x).ctxs = s.ctxs := rfl
@[simp] theorem State.setTdi_sched (s : State) (vf : Nat) (x : Tdi) : (s.setTdi vf x).sched = s.sched := rfl
@[simp] theorem State.setTdi_meas (s : State) (vf : Nat) (x : Tdi) : (s.setTdi vf x).meas = s.meas := rfl
@[simp] theorem State.setTdi_thim (s : State) (vf : Nat) (x : Tdi) : (s.setTdi vf x).thim = s.thim := rfl
@[simp] theorem State.setTdi_plat (s : State) (vf : Nat) (x : Tdi) : (s.setTdi vf x).plat = s.plat := rfl
@[simp] theorem State.setTdi_down (s : State) (vf : Nat) (x : Tdi) : (s.setTdi vf x).down = s.down := rfl

/-! `State.setDbg`. -/

@[simp] theorem State.setDbg_cores (s : State) (t : Nat) (d : Dbg) : (s.setDbg t d).cores = s.cores := rfl
@[simp] theorem State.setDbg_cur (s : State) (t : Nat) (d : Dbg) : (s.setDbg t d).cur = s.cur := rfl
@[simp] theorem State.setDbg_cyc (s : State) (t : Nat) (d : Dbg) : (s.setDbg t d).cyc = s.cyc := rfl
@[simp] theorem State.setDbg_time (s : State) (t : Nat) (d : Dbg) : (s.setDbg t d).time = s.time := rfl
@[simp] theorem State.setDbg_split (s : State) (t : Nat) (d : Dbg) : (s.setDbg t d).split = s.split := rfl
@[simp] theorem State.setDbg_inputs (s : State) (t : Nat) (d : Dbg) : (s.setDbg t d).inputs = s.inputs := rfl
@[simp] theorem State.setDbg_upsets (s : State) (t : Nat) (d : Dbg) : (s.setDbg t d).upsets = s.upsets := rfl
@[simp] theorem State.setDbg_work (s : State) (t : Nat) (d : Dbg) : (s.setDbg t d).work = s.work := rfl
@[simp] theorem State.setDbg_free (s : State) (t : Nat) (d : Dbg) : (s.setDbg t d).free = s.free := rfl
@[simp] theorem State.setDbg_dev (s : State) (t : Nat) (d : Dbg) : (s.setDbg t d).dev = s.dev := rfl
@[simp] theorem State.setDbg_ctxs (s : State) (t : Nat) (d : Dbg) : (s.setDbg t d).ctxs = s.ctxs := rfl
@[simp] theorem State.setDbg_sched (s : State) (t : Nat) (d : Dbg) : (s.setDbg t d).sched = s.sched := rfl
@[simp] theorem State.setDbg_links (s : State) (t : Nat) (d : Dbg) : (s.setDbg t d).links = s.links := rfl
@[simp] theorem State.setDbg_thim (s : State) (t : Nat) (d : Dbg) : (s.setDbg t d).thim = s.thim := rfl
@[simp] theorem State.setDbg_plat (s : State) (t : Nat) (d : Dbg) : (s.setDbg t d).plat = s.plat := rfl
@[simp] theorem State.setDbg_down (s : State) (t : Nat) (d : Dbg) : (s.setDbg t d).down = s.down := rfl

/-! `State.setFrame`. -/

@[simp] theorem State.setFrame_cores (s : State) (f : Nat) (e : Word) : (s.setFrame f e).cores = s.cores := rfl
@[simp] theorem State.setFrame_cur (s : State) (f : Nat) (e : Word) : (s.setFrame f e).cur = s.cur := rfl
@[simp] theorem State.setFrame_cyc (s : State) (f : Nat) (e : Word) : (s.setFrame f e).cyc = s.cyc := rfl
@[simp] theorem State.setFrame_time (s : State) (f : Nat) (e : Word) : (s.setFrame f e).time = s.time := rfl
@[simp] theorem State.setFrame_split (s : State) (f : Nat) (e : Word) : (s.setFrame f e).split = s.split := rfl
@[simp] theorem State.setFrame_inputs (s : State) (f : Nat) (e : Word) : (s.setFrame f e).inputs = s.inputs := rfl
@[simp] theorem State.setFrame_upsets (s : State) (f : Nat) (e : Word) : (s.setFrame f e).upsets = s.upsets := rfl
@[simp] theorem State.setFrame_work (s : State) (f : Nat) (e : Word) : (s.setFrame f e).work = s.work := rfl
@[simp] theorem State.setFrame_free (s : State) (f : Nat) (e : Word) : (s.setFrame f e).free = s.free := rfl
@[simp] theorem State.setFrame_ctxs (s : State) (f : Nat) (e : Word) : (s.setFrame f e).ctxs = s.ctxs := rfl
@[simp] theorem State.setFrame_sched (s : State) (f : Nat) (e : Word) : (s.setFrame f e).sched = s.sched := rfl
@[simp] theorem State.setFrame_links (s : State) (f : Nat) (e : Word) : (s.setFrame f e).links = s.links := rfl
@[simp] theorem State.setFrame_meas (s : State) (f : Nat) (e : Word) : (s.setFrame f e).meas = s.meas := rfl
@[simp] theorem State.setFrame_thim (s : State) (f : Nat) (e : Word) : (s.setFrame f e).thim = s.thim := rfl
@[simp] theorem State.setFrame_plat (s : State) (f : Nat) (e : Word) : (s.setFrame f e).plat = s.plat := rfl
@[simp] theorem State.setFrame_down (s : State) (f : Nat) (e : Word) : (s.setFrame f e).down = s.down := rfl

/-! `State.setEng`. -/

@[simp] theorem State.setEng_cores (s : State) (k : Nat) (v : Word) : (s.setEng k v).cores = s.cores := rfl
@[simp] theorem State.setEng_cur (s : State) (k : Nat) (v : Word) : (s.setEng k v).cur = s.cur := rfl
@[simp] theorem State.setEng_cyc (s : State) (k : Nat) (v : Word) : (s.setEng k v).cyc = s.cyc := rfl
@[simp] theorem State.setEng_time (s : State) (k : Nat) (v : Word) : (s.setEng k v).time = s.time := rfl
@[simp] theorem State.setEng_split (s : State) (k : Nat) (v : Word) : (s.setEng k v).split = s.split := rfl
@[simp] theorem State.setEng_inputs (s : State) (k : Nat) (v : Word) : (s.setEng k v).inputs = s.inputs := rfl
@[simp] theorem State.setEng_upsets (s : State) (k : Nat) (v : Word) : (s.setEng k v).upsets = s.upsets := rfl
@[simp] theorem State.setEng_work (s : State) (k : Nat) (v : Word) : (s.setEng k v).work = s.work := rfl
@[simp] theorem State.setEng_free (s : State) (k : Nat) (v : Word) : (s.setEng k v).free = s.free := rfl
@[simp] theorem State.setEng_dev (s : State) (k : Nat) (v : Word) : (s.setEng k v).dev = s.dev := rfl
@[simp] theorem State.setEng_ctxs (s : State) (k : Nat) (v : Word) : (s.setEng k v).ctxs = s.ctxs := rfl
@[simp] theorem State.setEng_sched (s : State) (k : Nat) (v : Word) : (s.setEng k v).sched = s.sched := rfl
@[simp] theorem State.setEng_links (s : State) (k : Nat) (v : Word) : (s.setEng k v).links = s.links := rfl
@[simp] theorem State.setEng_meas (s : State) (k : Nat) (v : Word) : (s.setEng k v).meas = s.meas := rfl
@[simp] theorem State.setEng_plat (s : State) (k : Nat) (v : Word) : (s.setEng k v).plat = s.plat := rfl
@[simp] theorem State.setEng_down (s : State) (k : Nat) (v : Word) : (s.setEng k v).down = s.down := rfl

/-! `State.setMig`. -/

@[simp] theorem State.setMig_cores (s : State) (t : Nat) (m : Mig) : (s.setMig t m).cores = s.cores := rfl
@[simp] theorem State.setMig_cur (s : State) (t : Nat) (m : Mig) : (s.setMig t m).cur = s.cur := rfl
@[simp] theorem State.setMig_cyc (s : State) (t : Nat) (m : Mig) : (s.setMig t m).cyc = s.cyc := rfl
@[simp] theorem State.setMig_time (s : State) (t : Nat) (m : Mig) : (s.setMig t m).time = s.time := rfl
@[simp] theorem State.setMig_split (s : State) (t : Nat) (m : Mig) : (s.setMig t m).split = s.split := rfl
@[simp] theorem State.setMig_inputs (s : State) (t : Nat) (m : Mig) : (s.setMig t m).inputs = s.inputs := rfl
@[simp] theorem State.setMig_upsets (s : State) (t : Nat) (m : Mig) : (s.setMig t m).upsets = s.upsets := rfl
@[simp] theorem State.setMig_work (s : State) (t : Nat) (m : Mig) : (s.setMig t m).work = s.work := rfl
@[simp] theorem State.setMig_free (s : State) (t : Nat) (m : Mig) : (s.setMig t m).free = s.free := rfl
@[simp] theorem State.setMig_dev (s : State) (t : Nat) (m : Mig) : (s.setMig t m).dev = s.dev := rfl
@[simp] theorem State.setMig_ctxs (s : State) (t : Nat) (m : Mig) : (s.setMig t m).ctxs = s.ctxs := rfl
@[simp] theorem State.setMig_links (s : State) (t : Nat) (m : Mig) : (s.setMig t m).links = s.links := rfl
@[simp] theorem State.setMig_meas (s : State) (t : Nat) (m : Mig) : (s.setMig t m).meas = s.meas := rfl
@[simp] theorem State.setMig_thim (s : State) (t : Nat) (m : Mig) : (s.setMig t m).thim = s.thim := rfl
@[simp] theorem State.setMig_plat (s : State) (t : Nat) (m : Mig) : (s.setMig t m).plat = s.plat := rfl
@[simp] theorem State.setMig_down (s : State) (t : Nat) (m : Mig) : (s.setMig t m).down = s.down := rfl

/-! `State.setSlot`. -/

@[simp] theorem State.setSlot_cores (s : State) (g rank tag : Nat) (x : CSlot) : (s.setSlot g rank tag x).cores = s.cores := rfl
@[simp] theorem State.setSlot_cur (s : State) (g rank tag : Nat) (x : CSlot) : (s.setSlot g rank tag x).cur = s.cur := rfl
@[simp] theorem State.setSlot_cyc (s : State) (g rank tag : Nat) (x : CSlot) : (s.setSlot g rank tag x).cyc = s.cyc := rfl
@[simp] theorem State.setSlot_time (s : State) (g rank tag : Nat) (x : CSlot) : (s.setSlot g rank tag x).time = s.time := rfl
@[simp] theorem State.setSlot_split (s : State) (g rank tag : Nat) (x : CSlot) : (s.setSlot g rank tag x).split = s.split := rfl
@[simp] theorem State.setSlot_inputs (s : State) (g rank tag : Nat) (x : CSlot) : (s.setSlot g rank tag x).inputs = s.inputs := rfl
@[simp] theorem State.setSlot_upsets (s : State) (g rank tag : Nat) (x : CSlot) : (s.setSlot g rank tag x).upsets = s.upsets := rfl
@[simp] theorem State.setSlot_work (s : State) (g rank tag : Nat) (x : CSlot) : (s.setSlot g rank tag x).work = s.work := rfl
@[simp] theorem State.setSlot_free (s : State) (g rank tag : Nat) (x : CSlot) : (s.setSlot g rank tag x).free = s.free := rfl
@[simp] theorem State.setSlot_dev (s : State) (g rank tag : Nat) (x : CSlot) : (s.setSlot g rank tag x).dev = s.dev := rfl
@[simp] theorem State.setSlot_ctxs (s : State) (g rank tag : Nat) (x : CSlot) : (s.setSlot g rank tag x).ctxs = s.ctxs := rfl
@[simp] theorem State.setSlot_sched (s : State) (g rank tag : Nat) (x : CSlot) : (s.setSlot g rank tag x).sched = s.sched := rfl
@[simp] theorem State.setSlot_meas (s : State) (g rank tag : Nat) (x : CSlot) : (s.setSlot g rank tag x).meas = s.meas := rfl
@[simp] theorem State.setSlot_thim (s : State) (g rank tag : Nat) (x : CSlot) : (s.setSlot g rank tag x).thim = s.thim := rfl
@[simp] theorem State.setSlot_plat (s : State) (g rank tag : Nat) (x : CSlot) : (s.setSlot g rank tag x).plat = s.plat := rfl
@[simp] theorem State.setSlot_down (s : State) (g rank tag : Nat) (x : CSlot) : (s.setSlot g rank tag x).down = s.down := rfl

/-! `State.onTt`. -/

@[simp] theorem State.onTt_cores (s : State) (f : Ttab → Ttab) : (s.onTt f).cores = s.cores := rfl
@[simp] theorem State.onTt_cur (s : State) (f : Ttab → Ttab) : (s.onTt f).cur = s.cur := rfl
@[simp] theorem State.onTt_cyc (s : State) (f : Ttab → Ttab) : (s.onTt f).cyc = s.cyc := rfl
@[simp] theorem State.onTt_time (s : State) (f : Ttab → Ttab) : (s.onTt f).time = s.time := rfl
@[simp] theorem State.onTt_split (s : State) (f : Ttab → Ttab) : (s.onTt f).split = s.split := rfl
@[simp] theorem State.onTt_inputs (s : State) (f : Ttab → Ttab) : (s.onTt f).inputs = s.inputs := rfl
@[simp] theorem State.onTt_upsets (s : State) (f : Ttab → Ttab) : (s.onTt f).upsets = s.upsets := rfl
@[simp] theorem State.onTt_work (s : State) (f : Ttab → Ttab) : (s.onTt f).work = s.work := rfl
@[simp] theorem State.onTt_free (s : State) (f : Ttab → Ttab) : (s.onTt f).free = s.free := rfl
@[simp] theorem State.onTt_dev (s : State) (f : Ttab → Ttab) : (s.onTt f).dev = s.dev := rfl
@[simp] theorem State.onTt_ctxs (s : State) (f : Ttab → Ttab) : (s.onTt f).ctxs = s.ctxs := rfl
@[simp] theorem State.onTt_links (s : State) (f : Ttab → Ttab) : (s.onTt f).links = s.links := rfl
@[simp] theorem State.onTt_meas (s : State) (f : Ttab → Ttab) : (s.onTt f).meas = s.meas := rfl
@[simp] theorem State.onTt_thim (s : State) (f : Ttab → Ttab) : (s.onTt f).thim = s.thim := rfl
@[simp] theorem State.onTt_plat (s : State) (f : Ttab → Ttab) : (s.onTt f).plat = s.plat := rfl
@[simp] theorem State.onTt_down (s : State) (f : Ttab → Ttab) : (s.onTt f).down = s.down := rfl

/-! `State.dropWork`. -/

@[simp] theorem State.dropWork_cores (s : State) (i : Nat) : (s.dropWork i).cores = s.cores := rfl
@[simp] theorem State.dropWork_cur (s : State) (i : Nat) : (s.dropWork i).cur = s.cur := rfl
@[simp] theorem State.dropWork_cyc (s : State) (i : Nat) : (s.dropWork i).cyc = s.cyc := rfl
@[simp] theorem State.dropWork_time (s : State) (i : Nat) : (s.dropWork i).time = s.time := rfl
@[simp] theorem State.dropWork_split (s : State) (i : Nat) : (s.dropWork i).split = s.split := rfl
@[simp] theorem State.dropWork_inputs (s : State) (i : Nat) : (s.dropWork i).inputs = s.inputs := rfl
@[simp] theorem State.dropWork_upsets (s : State) (i : Nat) : (s.dropWork i).upsets = s.upsets := rfl
@[simp] theorem State.dropWork_work (s : State) (i : Nat) : (s.dropWork i).work = s.work.eraseIdx i := rfl
@[simp] theorem State.dropWork_free (s : State) (i : Nat) : (s.dropWork i).free = s.free := rfl
@[simp] theorem State.dropWork_dev (s : State) (i : Nat) : (s.dropWork i).dev = s.dev := rfl
@[simp] theorem State.dropWork_ctxs (s : State) (i : Nat) : (s.dropWork i).ctxs = s.ctxs := rfl
@[simp] theorem State.dropWork_sched (s : State) (i : Nat) : (s.dropWork i).sched = s.sched := rfl
@[simp] theorem State.dropWork_links (s : State) (i : Nat) : (s.dropWork i).links = s.links := rfl
@[simp] theorem State.dropWork_meas (s : State) (i : Nat) : (s.dropWork i).meas = s.meas := rfl
@[simp] theorem State.dropWork_thim (s : State) (i : Nat) : (s.dropWork i).thim = s.thim := rfl
@[simp] theorem State.dropWork_plat (s : State) (i : Nat) : (s.dropWork i).plat = s.plat := rfl
@[simp] theorem State.dropWork_down (s : State) (i : Nat) : (s.dropWork i).down = s.down := rfl

/-! `State.answer`. -/

@[simp] theorem State.answer_cores (s : State) (vf : Nat) (v : Nat) (ur ep : Bool) : (s.answer vf v ur ep).cores = s.cores := rfl
@[simp] theorem State.answer_cur (s : State) (vf : Nat) (v : Nat) (ur ep : Bool) : (s.answer vf v ur ep).cur = s.cur := rfl
@[simp] theorem State.answer_cyc (s : State) (vf : Nat) (v : Nat) (ur ep : Bool) : (s.answer vf v ur ep).cyc = s.cyc := rfl
@[simp] theorem State.answer_time (s : State) (vf : Nat) (v : Nat) (ur ep : Bool) : (s.answer vf v ur ep).time = s.time := rfl
@[simp] theorem State.answer_split (s : State) (vf : Nat) (v : Nat) (ur ep : Bool) : (s.answer vf v ur ep).split = s.split := rfl
@[simp] theorem State.answer_inputs (s : State) (vf : Nat) (v : Nat) (ur ep : Bool) : (s.answer vf v ur ep).inputs = s.inputs := rfl
@[simp] theorem State.answer_upsets (s : State) (vf : Nat) (v : Nat) (ur ep : Bool) : (s.answer vf v ur ep).upsets = s.upsets := rfl
@[simp] theorem State.answer_work (s : State) (vf : Nat) (v : Nat) (ur ep : Bool) : (s.answer vf v ur ep).work = s.work := rfl
@[simp] theorem State.answer_free (s : State) (vf : Nat) (v : Nat) (ur ep : Bool) : (s.answer vf v ur ep).free = s.free := rfl
@[simp] theorem State.answer_dev (s : State) (vf : Nat) (v : Nat) (ur ep : Bool) : (s.answer vf v ur ep).dev = s.dev := rfl
@[simp] theorem State.answer_ctxs (s : State) (vf : Nat) (v : Nat) (ur ep : Bool) : (s.answer vf v ur ep).ctxs = s.ctxs := rfl
@[simp] theorem State.answer_sched (s : State) (vf : Nat) (v : Nat) (ur ep : Bool) : (s.answer vf v ur ep).sched = s.sched := rfl
@[simp] theorem State.answer_meas (s : State) (vf : Nat) (v : Nat) (ur ep : Bool) : (s.answer vf v ur ep).meas = s.meas := rfl
@[simp] theorem State.answer_thim (s : State) (vf : Nat) (v : Nat) (ur ep : Bool) : (s.answer vf v ur ep).thim = s.thim := rfl
@[simp] theorem State.answer_plat (s : State) (vf : Nat) (v : Nat) (ur ep : Bool) : (s.answer vf v ur ep).plat = s.plat := rfl
@[simp] theorem State.answer_down (s : State) (vf : Nat) (v : Nat) (ur ep : Bool) : (s.answer vf v ur ep).down = s.down := rfl

/-! Reading a core. -/

@[simp] theorem State.core_setCore (s : State) (n m : Nat) (c : Core) :
    (s.setCore n c).core m = if m = n then c else s.core m := by simp [State.core]

@[simp] theorem State.me_setCore_cur (s : State) (c : Core) : (s.setCore s.cur c).me = c := by simp [State.me]

@[simp] theorem State.me_onMe (s : State) (f : Core → Core) : (s.onMe f).me = f s.me := by simp [State.onMe]

theorem State.core_onMe_ne (s : State) (f : Core → Core) (n : Nat) (h : n ≠ s.cur) : (s.onMe f).core n = s.core n := by
  simp [State.onMe, h]

/-! Updates of a core. -/

@[simp] theorem setS_life (c : Core) (n : BitVec 6) (v : Word) : (setS c n v).life = c.life := by unfold setS; split <;> rfl
@[simp] theorem setS_frozenV (c : Core) (n : BitVec 6) (v : Word) : (setS c n v).frozenV = c.frozenV := by unfold setS; split <;> rfl
@[simp] theorem setS_dstop (c : Core) (n : BitVec 6) (v : Word) : (setS c n v).dstop = c.dstop := by unfold setS; split <;> rfl
@[simp] theorem setS_failed (c : Core) (n : BitVec 6) (v : Word) : (setS c n v).failed = c.failed := by unfold setS; split <;> rfl
@[simp] theorem setS_exempt (c : Core) (n : BitVec 6) (v : Word) : (setS c n v).exempt = c.exempt := by unfold setS; split <;> rfl
@[simp] theorem setS_fc (c : Core) (n : BitVec 6) (v : Word) : (setS c n v).fc = c.fc := by unfold setS; split <;> rfl
@[simp] theorem setS_entered (c : Core) (n : BitVec 6) (v : Word) : (setS c n v).entered = c.entered := by unfold setS; split <;> rfl
@[simp] theorem setS_stall (c : Core) (n : BitVec 6) (v : Word) : (setS c n v).stall = c.stall := by unfold setS; split <;> rfl
@[simp] theorem setS_errs (c : Core) (n : BitVec 6) (v : Word) : (setS c n v).errs = c.errs := by unfold setS; split <;> rfl
@[simp] theorem setS_nfree (c : Core) (n : BitVec 6) (v : Word) : (setS c n v).nfree = c.nfree := by unfold setS; split <;> rfl
@[simp] theorem setS_vec (c : Core) (n : BitVec 6) (v : Word) : (setS c n v).vec = c.vec := by unfold setS; split <;> rfl
@[simp] theorem setS_mx (c : Core) (n : BitVec 6) (v : Word) : (setS c n v).mx = c.mx := by unfold setS; split <;> rfl
@[simp] theorem setS_h (c : Core) (n : BitVec 6) (v : Word) : (setS c n v).h = c.h := by unfold setS; split <;> rfl
@[simp] theorem setS_sys (c : Core) (n : BitVec 6) (v : Word) : (setS c n v).sys = c.sys := by unfold setS; split <;> rfl
@[simp] theorem setS_sp (c : Core) (n : BitVec 6) (v : Word) : (setS c n v).sp = c.sp := by unfold setS; split <;> rfl
@[simp] theorem setS_cn (c : Core) (n : BitVec 6) (v : Word) : (setS c n v).cn = c.cn := by unfold setS; split <;> rfl
@[simp] theorem setS_task (c : Core) (n : BitVec 6) (v : Word) : (setS c n v).task = c.task := by unfold setS; split <;> rfl
@[simp] theorem setS_qm (c : Core) (n : BitVec 6) (v : Word) : (setS c n v).qm = c.qm := by unfold setS; split <;> rfl
@[simp] theorem setS_qv (c : Core) (n : BitVec 6) (v : Word) : (setS c n v).qv = c.qv := by unfold setS; split <;> rfl
@[simp] theorem setS_qc (c : Core) (n : BitVec 6) (v : Word) : (setS c n v).qc = c.qc := by unfold setS; split <;> rfl
@[simp] theorem setS_ql (c : Core) (n : BitVec 6) (v : Word) : (setS c n v).ql = c.ql := by unfold setS; split <;> rfl
@[simp] theorem setS_latch (c : Core) (n : BitVec 6) (v : Word) : (setS c n v).latch = c.latch := by unfold setS; split <;> rfl
@[simp] theorem setS_lastD0 (c : Core) (n : BitVec 6) (v : Word) : (setS c n v).lastD0 = c.lastD0 := by unfold setS; split <;> rfl
@[simp] theorem setS_land (c : Core) (n : BitVec 6) (v : Word) : (setS c n v).land = c.land := by unfold setS; split <;> rfl
@[simp] theorem setS_cmds (c : Core) (n : BitVec 6) (v : Word) : (setS c n v).cmds = c.cmds := by unfold setS; split <;> rfl
@[simp] theorem setS_msgs (c : Core) (n : BitVec 6) (v : Word) : (setS c n v).msgs = c.msgs := by unfold setS; split <;> rfl
@[simp] theorem setS_trap (c : Core) (n : BitVec 6) (v : Word) : (setS c n v).trap = c.trap := by unfold setS; split <;> rfl
@[simp] theorem setS_trapNow (c : Core) (n : BitVec 6) (v : Word) : (setS c n v).trapNow = c.trapNow := by unfold setS; split <;> rfl
@[simp] theorem setS_trapSeq (c : Core) (n : BitVec 6) (v : Word) : (setS c n v).trapSeq = c.trapSeq := by unfold setS; split <;> rfl
@[simp] theorem setS_trapT (c : Core) (n : BitVec 6) (v : Word) : (setS c n v).trapT = c.trapT := by unfold setS; split <;> rfl
@[simp] theorem setS_violAt (c : Core) (n : BitVec 6) (v : Word) : (setS c n v).violAt = c.violAt := by unfold setS; split <;> rfl
@[simp] theorem setS_heldq (c : Core) (n : BitVec 6) (v : Word) : (setS c n v).heldq = c.heldq := by unfold setS; split <;> rfl
@[simp] theorem setS_late (c : Core) (n : BitVec 6) (v : Word) : (setS c n v).late = c.late := by unfold setS; split <;> rfl
@[simp] theorem setS_early (c : Core) (n : BitVec 6) (v : Word) : (setS c n v).early = c.early := by unfold setS; split <;> rfl

@[simp] theorem setSLat_life (c : Core) (cyc : Nat) (n : BitVec 6) (v : Word) (lat : Nat) : (setSLat c cyc n v lat).life = c.life := by unfold setSLat setS; split <;> rfl
@[simp] theorem setSLat_frozenV (c : Core) (cyc : Nat) (n : BitVec 6) (v : Word) (lat : Nat) : (setSLat c cyc n v lat).frozenV = c.frozenV := by unfold setSLat setS; split <;> rfl
@[simp] theorem setSLat_dstop (c : Core) (cyc : Nat) (n : BitVec 6) (v : Word) (lat : Nat) : (setSLat c cyc n v lat).dstop = c.dstop := by unfold setSLat setS; split <;> rfl
@[simp] theorem setSLat_failed (c : Core) (cyc : Nat) (n : BitVec 6) (v : Word) (lat : Nat) : (setSLat c cyc n v lat).failed = c.failed := by unfold setSLat setS; split <;> rfl
@[simp] theorem setSLat_exempt (c : Core) (cyc : Nat) (n : BitVec 6) (v : Word) (lat : Nat) : (setSLat c cyc n v lat).exempt = c.exempt := by unfold setSLat setS; split <;> rfl
@[simp] theorem setSLat_fc (c : Core) (cyc : Nat) (n : BitVec 6) (v : Word) (lat : Nat) : (setSLat c cyc n v lat).fc = c.fc := by unfold setSLat setS; split <;> rfl
@[simp] theorem setSLat_entered (c : Core) (cyc : Nat) (n : BitVec 6) (v : Word) (lat : Nat) : (setSLat c cyc n v lat).entered = c.entered := by unfold setSLat setS; split <;> rfl
@[simp] theorem setSLat_stall (c : Core) (cyc : Nat) (n : BitVec 6) (v : Word) (lat : Nat) : (setSLat c cyc n v lat).stall = c.stall := by unfold setSLat setS; split <;> rfl
@[simp] theorem setSLat_errs (c : Core) (cyc : Nat) (n : BitVec 6) (v : Word) (lat : Nat) : (setSLat c cyc n v lat).errs = c.errs := by unfold setSLat setS; split <;> rfl
@[simp] theorem setSLat_nfree (c : Core) (cyc : Nat) (n : BitVec 6) (v : Word) (lat : Nat) : (setSLat c cyc n v lat).nfree = c.nfree := by unfold setSLat setS; split <;> rfl
@[simp] theorem setSLat_vec (c : Core) (cyc : Nat) (n : BitVec 6) (v : Word) (lat : Nat) : (setSLat c cyc n v lat).vec = c.vec := by unfold setSLat setS; split <;> rfl
@[simp] theorem setSLat_mx (c : Core) (cyc : Nat) (n : BitVec 6) (v : Word) (lat : Nat) : (setSLat c cyc n v lat).mx = c.mx := by unfold setSLat setS; split <;> rfl
@[simp] theorem setSLat_h (c : Core) (cyc : Nat) (n : BitVec 6) (v : Word) (lat : Nat) : (setSLat c cyc n v lat).h = c.h := by unfold setSLat setS; split <;> rfl
@[simp] theorem setSLat_sys (c : Core) (cyc : Nat) (n : BitVec 6) (v : Word) (lat : Nat) : (setSLat c cyc n v lat).sys = c.sys := by unfold setSLat setS; split <;> rfl
@[simp] theorem setSLat_sp (c : Core) (cyc : Nat) (n : BitVec 6) (v : Word) (lat : Nat) : (setSLat c cyc n v lat).sp = c.sp := by unfold setSLat setS; split <;> rfl
@[simp] theorem setSLat_cn (c : Core) (cyc : Nat) (n : BitVec 6) (v : Word) (lat : Nat) : (setSLat c cyc n v lat).cn = c.cn := by unfold setSLat setS; split <;> rfl
@[simp] theorem setSLat_task (c : Core) (cyc : Nat) (n : BitVec 6) (v : Word) (lat : Nat) : (setSLat c cyc n v lat).task = c.task := by unfold setSLat setS; split <;> rfl
@[simp] theorem setSLat_qm (c : Core) (cyc : Nat) (n : BitVec 6) (v : Word) (lat : Nat) : (setSLat c cyc n v lat).qm = c.qm := by unfold setSLat setS; split <;> rfl
@[simp] theorem setSLat_qv (c : Core) (cyc : Nat) (n : BitVec 6) (v : Word) (lat : Nat) : (setSLat c cyc n v lat).qv = c.qv := by unfold setSLat setS; split <;> rfl
@[simp] theorem setSLat_qc (c : Core) (cyc : Nat) (n : BitVec 6) (v : Word) (lat : Nat) : (setSLat c cyc n v lat).qc = c.qc := by unfold setSLat setS; split <;> rfl
@[simp] theorem setSLat_ql (c : Core) (cyc : Nat) (n : BitVec 6) (v : Word) (lat : Nat) : (setSLat c cyc n v lat).ql = c.ql := by unfold setSLat setS; split <;> rfl
@[simp] theorem setSLat_latch (c : Core) (cyc : Nat) (n : BitVec 6) (v : Word) (lat : Nat) : (setSLat c cyc n v lat).latch = c.latch := by unfold setSLat setS; split <;> rfl
@[simp] theorem setSLat_lastD0 (c : Core) (cyc : Nat) (n : BitVec 6) (v : Word) (lat : Nat) : (setSLat c cyc n v lat).lastD0 = c.lastD0 := by unfold setSLat setS; split <;> rfl
@[simp] theorem setSLat_land (c : Core) (cyc : Nat) (n : BitVec 6) (v : Word) (lat : Nat) : (setSLat c cyc n v lat).land = c.land := by unfold setSLat setS; split <;> rfl
@[simp] theorem setSLat_cmds (c : Core) (cyc : Nat) (n : BitVec 6) (v : Word) (lat : Nat) : (setSLat c cyc n v lat).cmds = c.cmds := by unfold setSLat setS; split <;> rfl
@[simp] theorem setSLat_msgs (c : Core) (cyc : Nat) (n : BitVec 6) (v : Word) (lat : Nat) : (setSLat c cyc n v lat).msgs = c.msgs := by unfold setSLat setS; split <;> rfl
@[simp] theorem setSLat_trap (c : Core) (cyc : Nat) (n : BitVec 6) (v : Word) (lat : Nat) : (setSLat c cyc n v lat).trap = c.trap := by unfold setSLat setS; split <;> rfl
@[simp] theorem setSLat_trapNow (c : Core) (cyc : Nat) (n : BitVec 6) (v : Word) (lat : Nat) : (setSLat c cyc n v lat).trapNow = c.trapNow := by unfold setSLat setS; split <;> rfl
@[simp] theorem setSLat_trapSeq (c : Core) (cyc : Nat) (n : BitVec 6) (v : Word) (lat : Nat) : (setSLat c cyc n v lat).trapSeq = c.trapSeq := by unfold setSLat setS; split <;> rfl
@[simp] theorem setSLat_trapT (c : Core) (cyc : Nat) (n : BitVec 6) (v : Word) (lat : Nat) : (setSLat c cyc n v lat).trapT = c.trapT := by unfold setSLat setS; split <;> rfl
@[simp] theorem setSLat_violAt (c : Core) (cyc : Nat) (n : BitVec 6) (v : Word) (lat : Nat) : (setSLat c cyc n v lat).violAt = c.violAt := by unfold setSLat setS; split <;> rfl
@[simp] theorem setSLat_heldq (c : Core) (cyc : Nat) (n : BitVec 6) (v : Word) (lat : Nat) : (setSLat c cyc n v lat).heldq = c.heldq := by unfold setSLat setS; split <;> rfl
@[simp] theorem setSLat_late (c : Core) (cyc : Nat) (n : BitVec 6) (v : Word) (lat : Nat) : (setSLat c cyc n v lat).late = c.late := by unfold setSLat setS; split <;> rfl
@[simp] theorem setSLat_early (c : Core) (cyc : Nat) (n : BitVec 6) (v : Word) (lat : Nat) : (setSLat c cyc n v lat).early = c.early := by unfold setSLat setS; split <;> rfl

@[simp] theorem stepPc_life (c : Core) : (stepPc c).life = c.life := rfl
@[simp] theorem stepPc_frozenV (c : Core) : (stepPc c).frozenV = c.frozenV := rfl
@[simp] theorem stepPc_dstop (c : Core) : (stepPc c).dstop = c.dstop := rfl
@[simp] theorem stepPc_failed (c : Core) : (stepPc c).failed = c.failed := rfl
@[simp] theorem stepPc_exempt (c : Core) : (stepPc c).exempt = c.exempt := rfl
@[simp] theorem stepPc_fc (c : Core) : (stepPc c).fc = c.fc := rfl
@[simp] theorem stepPc_entered (c : Core) : (stepPc c).entered = c.entered := rfl
@[simp] theorem stepPc_stall (c : Core) : (stepPc c).stall = c.stall := rfl
@[simp] theorem stepPc_errs (c : Core) : (stepPc c).errs = c.errs := rfl
@[simp] theorem stepPc_nfree (c : Core) : (stepPc c).nfree = c.nfree := rfl
@[simp] theorem stepPc_vec (c : Core) : (stepPc c).vec = c.vec := rfl
@[simp] theorem stepPc_mx (c : Core) : (stepPc c).mx = c.mx := rfl
@[simp] theorem stepPc_h (c : Core) : (stepPc c).h = c.h := rfl
@[simp] theorem stepPc_sys (c : Core) : (stepPc c).sys = c.sys := rfl
@[simp] theorem stepPc_sp (c : Core) : (stepPc c).sp = c.sp := rfl
@[simp] theorem stepPc_cn (c : Core) : (stepPc c).cn = c.cn := rfl
@[simp] theorem stepPc_task (c : Core) : (stepPc c).task = c.task := rfl
@[simp] theorem stepPc_qm (c : Core) : (stepPc c).qm = c.qm := rfl
@[simp] theorem stepPc_qv (c : Core) : (stepPc c).qv = c.qv := rfl
@[simp] theorem stepPc_qc (c : Core) : (stepPc c).qc = c.qc := rfl
@[simp] theorem stepPc_ql (c : Core) : (stepPc c).ql = c.ql := rfl
@[simp] theorem stepPc_latch (c : Core) : (stepPc c).latch = c.latch := rfl
@[simp] theorem stepPc_lastD0 (c : Core) : (stepPc c).lastD0 = c.lastD0 := rfl
@[simp] theorem stepPc_land (c : Core) : (stepPc c).land = c.land := rfl
@[simp] theorem stepPc_cmds (c : Core) : (stepPc c).cmds = c.cmds := rfl
@[simp] theorem stepPc_msgs (c : Core) : (stepPc c).msgs = c.msgs := rfl
@[simp] theorem stepPc_trap (c : Core) : (stepPc c).trap = c.trap := rfl
@[simp] theorem stepPc_trapNow (c : Core) : (stepPc c).trapNow = c.trapNow := rfl
@[simp] theorem stepPc_trapSeq (c : Core) : (stepPc c).trapSeq = c.trapSeq := rfl
@[simp] theorem stepPc_trapT (c : Core) : (stepPc c).trapT = c.trapT := rfl
@[simp] theorem stepPc_violAt (c : Core) : (stepPc c).violAt = c.violAt := rfl
@[simp] theorem stepPc_heldq (c : Core) : (stepPc c).heldq = c.heldq := rfl
@[simp] theorem stepPc_late (c : Core) : (stepPc c).late = c.late := rfl
@[simp] theorem stepPc_early (c : Core) : (stepPc c).early = c.early := rfl

@[simp] theorem setPc_life (c : Core) (t : BitVec 32) : (setPc c t).life = c.life := rfl
@[simp] theorem setPc_frozenV (c : Core) (t : BitVec 32) : (setPc c t).frozenV = c.frozenV := rfl
@[simp] theorem setPc_dstop (c : Core) (t : BitVec 32) : (setPc c t).dstop = c.dstop := rfl
@[simp] theorem setPc_failed (c : Core) (t : BitVec 32) : (setPc c t).failed = c.failed := rfl
@[simp] theorem setPc_exempt (c : Core) (t : BitVec 32) : (setPc c t).exempt = c.exempt := rfl
@[simp] theorem setPc_fc (c : Core) (t : BitVec 32) : (setPc c t).fc = c.fc := rfl
@[simp] theorem setPc_entered (c : Core) (t : BitVec 32) : (setPc c t).entered = c.entered := rfl
@[simp] theorem setPc_stall (c : Core) (t : BitVec 32) : (setPc c t).stall = c.stall := rfl
@[simp] theorem setPc_errs (c : Core) (t : BitVec 32) : (setPc c t).errs = c.errs := rfl
@[simp] theorem setPc_nfree (c : Core) (t : BitVec 32) : (setPc c t).nfree = c.nfree := rfl
@[simp] theorem setPc_vec (c : Core) (t : BitVec 32) : (setPc c t).vec = c.vec := rfl
@[simp] theorem setPc_mx (c : Core) (t : BitVec 32) : (setPc c t).mx = c.mx := rfl
@[simp] theorem setPc_h (c : Core) (t : BitVec 32) : (setPc c t).h = c.h := rfl
@[simp] theorem setPc_sys (c : Core) (t : BitVec 32) : (setPc c t).sys = c.sys := rfl
@[simp] theorem setPc_sp (c : Core) (t : BitVec 32) : (setPc c t).sp = c.sp := rfl
@[simp] theorem setPc_cn (c : Core) (t : BitVec 32) : (setPc c t).cn = c.cn := rfl
@[simp] theorem setPc_task (c : Core) (t : BitVec 32) : (setPc c t).task = c.task := rfl
@[simp] theorem setPc_qm (c : Core) (t : BitVec 32) : (setPc c t).qm = c.qm := rfl
@[simp] theorem setPc_qv (c : Core) (t : BitVec 32) : (setPc c t).qv = c.qv := rfl
@[simp] theorem setPc_qc (c : Core) (t : BitVec 32) : (setPc c t).qc = c.qc := rfl
@[simp] theorem setPc_ql (c : Core) (t : BitVec 32) : (setPc c t).ql = c.ql := rfl
@[simp] theorem setPc_latch (c : Core) (t : BitVec 32) : (setPc c t).latch = c.latch := rfl
@[simp] theorem setPc_lastD0 (c : Core) (t : BitVec 32) : (setPc c t).lastD0 = c.lastD0 := rfl
@[simp] theorem setPc_land (c : Core) (t : BitVec 32) : (setPc c t).land = c.land := rfl
@[simp] theorem setPc_cmds (c : Core) (t : BitVec 32) : (setPc c t).cmds = c.cmds := rfl
@[simp] theorem setPc_msgs (c : Core) (t : BitVec 32) : (setPc c t).msgs = c.msgs := rfl
@[simp] theorem setPc_trap (c : Core) (t : BitVec 32) : (setPc c t).trap = c.trap := rfl
@[simp] theorem setPc_trapNow (c : Core) (t : BitVec 32) : (setPc c t).trapNow = c.trapNow := rfl
@[simp] theorem setPc_trapSeq (c : Core) (t : BitVec 32) : (setPc c t).trapSeq = c.trapSeq := rfl
@[simp] theorem setPc_trapT (c : Core) (t : BitVec 32) : (setPc c t).trapT = c.trapT := rfl
@[simp] theorem setPc_violAt (c : Core) (t : BitVec 32) : (setPc c t).violAt = c.violAt := rfl
@[simp] theorem setPc_heldq (c : Core) (t : BitVec 32) : (setPc c t).heldq = c.heldq := rfl
@[simp] theorem setPc_late (c : Core) (t : BitVec 32) : (setPc c t).late = c.late := rfl
@[simp] theorem setPc_early (c : Core) (t : BitVec 32) : (setPc c t).early = c.early := rfl

@[simp] theorem countEv_life (c : Core) (ev n : Nat) : (countEv c ev n).life = c.life := rfl
@[simp] theorem countEv_frozenV (c : Core) (ev n : Nat) : (countEv c ev n).frozenV = c.frozenV := rfl
@[simp] theorem countEv_dstop (c : Core) (ev n : Nat) : (countEv c ev n).dstop = c.dstop := rfl
@[simp] theorem countEv_failed (c : Core) (ev n : Nat) : (countEv c ev n).failed = c.failed := rfl
@[simp] theorem countEv_exempt (c : Core) (ev n : Nat) : (countEv c ev n).exempt = c.exempt := rfl
@[simp] theorem countEv_fc (c : Core) (ev n : Nat) : (countEv c ev n).fc = c.fc := rfl
@[simp] theorem countEv_entered (c : Core) (ev n : Nat) : (countEv c ev n).entered = c.entered := rfl
@[simp] theorem countEv_stall (c : Core) (ev n : Nat) : (countEv c ev n).stall = c.stall := rfl
@[simp] theorem countEv_errs (c : Core) (ev n : Nat) : (countEv c ev n).errs = c.errs := rfl
@[simp] theorem countEv_nfree (c : Core) (ev n : Nat) : (countEv c ev n).nfree = c.nfree := rfl
@[simp] theorem countEv_seq (c : Core) (ev n : Nat) : (countEv c ev n).seq = c.seq := rfl
@[simp] theorem countEv_vec (c : Core) (ev n : Nat) : (countEv c ev n).vec = c.vec := rfl
@[simp] theorem countEv_mx (c : Core) (ev n : Nat) : (countEv c ev n).mx = c.mx := rfl
@[simp] theorem countEv_h (c : Core) (ev n : Nat) : (countEv c ev n).h = c.h := rfl
@[simp] theorem countEv_sys (c : Core) (ev n : Nat) : (countEv c ev n).sys = c.sys := rfl
@[simp] theorem countEv_sp (c : Core) (ev n : Nat) : (countEv c ev n).sp = c.sp := rfl
@[simp] theorem countEv_task (c : Core) (ev n : Nat) : (countEv c ev n).task = c.task := rfl
@[simp] theorem countEv_qm (c : Core) (ev n : Nat) : (countEv c ev n).qm = c.qm := rfl
@[simp] theorem countEv_qv (c : Core) (ev n : Nat) : (countEv c ev n).qv = c.qv := rfl
@[simp] theorem countEv_qc (c : Core) (ev n : Nat) : (countEv c ev n).qc = c.qc := rfl
@[simp] theorem countEv_ql (c : Core) (ev n : Nat) : (countEv c ev n).ql = c.ql := rfl
@[simp] theorem countEv_latch (c : Core) (ev n : Nat) : (countEv c ev n).latch = c.latch := rfl
@[simp] theorem countEv_lastD0 (c : Core) (ev n : Nat) : (countEv c ev n).lastD0 = c.lastD0 := rfl
@[simp] theorem countEv_land (c : Core) (ev n : Nat) : (countEv c ev n).land = c.land := rfl
@[simp] theorem countEv_cmds (c : Core) (ev n : Nat) : (countEv c ev n).cmds = c.cmds := rfl
@[simp] theorem countEv_msgs (c : Core) (ev n : Nat) : (countEv c ev n).msgs = c.msgs := rfl
@[simp] theorem countEv_trap (c : Core) (ev n : Nat) : (countEv c ev n).trap = c.trap := rfl
@[simp] theorem countEv_trapNow (c : Core) (ev n : Nat) : (countEv c ev n).trapNow = c.trapNow := rfl
@[simp] theorem countEv_trapSeq (c : Core) (ev n : Nat) : (countEv c ev n).trapSeq = c.trapSeq := rfl
@[simp] theorem countEv_trapT (c : Core) (ev n : Nat) : (countEv c ev n).trapT = c.trapT := rfl
@[simp] theorem countEv_violAt (c : Core) (ev n : Nat) : (countEv c ev n).violAt = c.violAt := rfl
@[simp] theorem countEv_heldq (c : Core) (ev n : Nat) : (countEv c ev n).heldq = c.heldq := rfl
@[simp] theorem countEv_late (c : Core) (ev n : Nat) : (countEv c ev n).late = c.late := rfl
@[simp] theorem countEv_early (c : Core) (ev n : Nat) : (countEv c ev n).early = c.early := rfl

@[simp] theorem retire_life (c : Core) (cyc gap : Nat) : (retire c cyc gap).life = c.life := rfl
@[simp] theorem retire_frozenV (c : Core) (cyc gap : Nat) : (retire c cyc gap).frozenV = c.frozenV := rfl
@[simp] theorem retire_dstop (c : Core) (cyc gap : Nat) : (retire c cyc gap).dstop = c.dstop := rfl
@[simp] theorem retire_failed (c : Core) (cyc gap : Nat) : (retire c cyc gap).failed = c.failed := rfl
@[simp] theorem retire_fc (c : Core) (cyc gap : Nat) : (retire c cyc gap).fc = c.fc := rfl
@[simp] theorem retire_entered (c : Core) (cyc gap : Nat) : (retire c cyc gap).entered = c.entered := rfl
@[simp] theorem retire_stall (c : Core) (cyc gap : Nat) : (retire c cyc gap).stall = c.stall := rfl
@[simp] theorem retire_errs (c : Core) (cyc gap : Nat) : (retire c cyc gap).errs = c.errs := rfl
@[simp] theorem retire_vec (c : Core) (cyc gap : Nat) : (retire c cyc gap).vec = c.vec := rfl
@[simp] theorem retire_mx (c : Core) (cyc gap : Nat) : (retire c cyc gap).mx = c.mx := rfl
@[simp] theorem retire_h (c : Core) (cyc gap : Nat) : (retire c cyc gap).h = c.h := rfl
@[simp] theorem retire_sys (c : Core) (cyc gap : Nat) : (retire c cyc gap).sys = c.sys := rfl
@[simp] theorem retire_sp (c : Core) (cyc gap : Nat) : (retire c cyc gap).sp = c.sp := rfl
@[simp] theorem retire_qm (c : Core) (cyc gap : Nat) : (retire c cyc gap).qm = c.qm := rfl
@[simp] theorem retire_qv (c : Core) (cyc gap : Nat) : (retire c cyc gap).qv = c.qv := rfl
@[simp] theorem retire_qc (c : Core) (cyc gap : Nat) : (retire c cyc gap).qc = c.qc := rfl
@[simp] theorem retire_ql (c : Core) (cyc gap : Nat) : (retire c cyc gap).ql = c.ql := rfl
@[simp] theorem retire_latch (c : Core) (cyc gap : Nat) : (retire c cyc gap).latch = c.latch := rfl
@[simp] theorem retire_lastD0 (c : Core) (cyc gap : Nat) : (retire c cyc gap).lastD0 = c.lastD0 := rfl
@[simp] theorem retire_land (c : Core) (cyc gap : Nat) : (retire c cyc gap).land = c.land := rfl
@[simp] theorem retire_cmds (c : Core) (cyc gap : Nat) : (retire c cyc gap).cmds = c.cmds := rfl
@[simp] theorem retire_msgs (c : Core) (cyc gap : Nat) : (retire c cyc gap).msgs = c.msgs := rfl
@[simp] theorem retire_trap (c : Core) (cyc gap : Nat) : (retire c cyc gap).trap = c.trap := rfl
@[simp] theorem retire_trapNow (c : Core) (cyc gap : Nat) : (retire c cyc gap).trapNow = c.trapNow := rfl
@[simp] theorem retire_trapSeq (c : Core) (cyc gap : Nat) : (retire c cyc gap).trapSeq = c.trapSeq := rfl
@[simp] theorem retire_trapT (c : Core) (cyc gap : Nat) : (retire c cyc gap).trapT = c.trapT := rfl
@[simp] theorem retire_violAt (c : Core) (cyc gap : Nat) : (retire c cyc gap).violAt = c.violAt := rfl
@[simp] theorem retire_heldq (c : Core) (cyc gap : Nat) : (retire c cyc gap).heldq = c.heldq := rfl
@[simp] theorem retire_late (c : Core) (cyc gap : Nat) : (retire c cyc gap).late = c.late := rfl
@[simp] theorem retire_early (c : Core) (cyc gap : Nat) : (retire c cyc gap).early = c.early := rfl

@[simp] theorem setSem_life (c : Core) (n : Nat) (x : Sem) : (setSem c n x).life = c.life := rfl
@[simp] theorem setSem_frozenV (c : Core) (n : Nat) (x : Sem) : (setSem c n x).frozenV = c.frozenV := rfl
@[simp] theorem setSem_dstop (c : Core) (n : Nat) (x : Sem) : (setSem c n x).dstop = c.dstop := rfl
@[simp] theorem setSem_failed (c : Core) (n : Nat) (x : Sem) : (setSem c n x).failed = c.failed := rfl
@[simp] theorem setSem_exempt (c : Core) (n : Nat) (x : Sem) : (setSem c n x).exempt = c.exempt := rfl
@[simp] theorem setSem_fc (c : Core) (n : Nat) (x : Sem) : (setSem c n x).fc = c.fc := rfl
@[simp] theorem setSem_entered (c : Core) (n : Nat) (x : Sem) : (setSem c n x).entered = c.entered := rfl
@[simp] theorem setSem_stall (c : Core) (n : Nat) (x : Sem) : (setSem c n x).stall = c.stall := rfl
@[simp] theorem setSem_errs (c : Core) (n : Nat) (x : Sem) : (setSem c n x).errs = c.errs := rfl
@[simp] theorem setSem_nfree (c : Core) (n : Nat) (x : Sem) : (setSem c n x).nfree = c.nfree := rfl
@[simp] theorem setSem_seq (c : Core) (n : Nat) (x : Sem) : (setSem c n x).seq = c.seq := rfl
@[simp] theorem setSem_vec (c : Core) (n : Nat) (x : Sem) : (setSem c n x).vec = c.vec := rfl
@[simp] theorem setSem_mx (c : Core) (n : Nat) (x : Sem) : (setSem c n x).mx = c.mx := rfl
@[simp] theorem setSem_h (c : Core) (n : Nat) (x : Sem) : (setSem c n x).h = c.h := rfl
@[simp] theorem setSem_sys (c : Core) (n : Nat) (x : Sem) : (setSem c n x).sys = c.sys := rfl
@[simp] theorem setSem_sp (c : Core) (n : Nat) (x : Sem) : (setSem c n x).sp = c.sp := rfl
@[simp] theorem setSem_task (c : Core) (n : Nat) (x : Sem) : (setSem c n x).task = c.task := rfl
@[simp] theorem setSem_qm (c : Core) (n : Nat) (x : Sem) : (setSem c n x).qm = c.qm := rfl
@[simp] theorem setSem_qv (c : Core) (n : Nat) (x : Sem) : (setSem c n x).qv = c.qv := rfl
@[simp] theorem setSem_qc (c : Core) (n : Nat) (x : Sem) : (setSem c n x).qc = c.qc := rfl
@[simp] theorem setSem_ql (c : Core) (n : Nat) (x : Sem) : (setSem c n x).ql = c.ql := rfl
@[simp] theorem setSem_latch (c : Core) (n : Nat) (x : Sem) : (setSem c n x).latch = c.latch := rfl
@[simp] theorem setSem_lastD0 (c : Core) (n : Nat) (x : Sem) : (setSem c n x).lastD0 = c.lastD0 := rfl
@[simp] theorem setSem_land (c : Core) (n : Nat) (x : Sem) : (setSem c n x).land = c.land := rfl
@[simp] theorem setSem_cmds (c : Core) (n : Nat) (x : Sem) : (setSem c n x).cmds = c.cmds := rfl
@[simp] theorem setSem_msgs (c : Core) (n : Nat) (x : Sem) : (setSem c n x).msgs = c.msgs := rfl
@[simp] theorem setSem_trap (c : Core) (n : Nat) (x : Sem) : (setSem c n x).trap = c.trap := rfl
@[simp] theorem setSem_trapNow (c : Core) (n : Nat) (x : Sem) : (setSem c n x).trapNow = c.trapNow := rfl
@[simp] theorem setSem_trapSeq (c : Core) (n : Nat) (x : Sem) : (setSem c n x).trapSeq = c.trapSeq := rfl
@[simp] theorem setSem_trapT (c : Core) (n : Nat) (x : Sem) : (setSem c n x).trapT = c.trapT := rfl
@[simp] theorem setSem_violAt (c : Core) (n : Nat) (x : Sem) : (setSem c n x).violAt = c.violAt := rfl
@[simp] theorem setSem_heldq (c : Core) (n : Nat) (x : Sem) : (setSem c n x).heldq = c.heldq := rfl
@[simp] theorem setSem_late (c : Core) (n : Nat) (x : Sem) : (setSem c n x).late = c.late := rfl
@[simp] theorem setSem_early (c : Core) (n : Nat) (x : Sem) : (setSem c n x).early = c.early := rfl

@[simp] theorem setCnt_life (c : Core) (n : Nat) (x : Counter) : (setCnt c n x).life = c.life := rfl
@[simp] theorem setCnt_frozenV (c : Core) (n : Nat) (x : Counter) : (setCnt c n x).frozenV = c.frozenV := rfl
@[simp] theorem setCnt_dstop (c : Core) (n : Nat) (x : Counter) : (setCnt c n x).dstop = c.dstop := rfl
@[simp] theorem setCnt_failed (c : Core) (n : Nat) (x : Counter) : (setCnt c n x).failed = c.failed := rfl
@[simp] theorem setCnt_exempt (c : Core) (n : Nat) (x : Counter) : (setCnt c n x).exempt = c.exempt := rfl
@[simp] theorem setCnt_fc (c : Core) (n : Nat) (x : Counter) : (setCnt c n x).fc = c.fc := rfl
@[simp] theorem setCnt_entered (c : Core) (n : Nat) (x : Counter) : (setCnt c n x).entered = c.entered := rfl
@[simp] theorem setCnt_stall (c : Core) (n : Nat) (x : Counter) : (setCnt c n x).stall = c.stall := rfl
@[simp] theorem setCnt_errs (c : Core) (n : Nat) (x : Counter) : (setCnt c n x).errs = c.errs := rfl
@[simp] theorem setCnt_nfree (c : Core) (n : Nat) (x : Counter) : (setCnt c n x).nfree = c.nfree := rfl
@[simp] theorem setCnt_seq (c : Core) (n : Nat) (x : Counter) : (setCnt c n x).seq = c.seq := rfl
@[simp] theorem setCnt_vec (c : Core) (n : Nat) (x : Counter) : (setCnt c n x).vec = c.vec := rfl
@[simp] theorem setCnt_mx (c : Core) (n : Nat) (x : Counter) : (setCnt c n x).mx = c.mx := rfl
@[simp] theorem setCnt_h (c : Core) (n : Nat) (x : Counter) : (setCnt c n x).h = c.h := rfl
@[simp] theorem setCnt_sys (c : Core) (n : Nat) (x : Counter) : (setCnt c n x).sys = c.sys := rfl
@[simp] theorem setCnt_sp (c : Core) (n : Nat) (x : Counter) : (setCnt c n x).sp = c.sp := rfl
@[simp] theorem setCnt_task (c : Core) (n : Nat) (x : Counter) : (setCnt c n x).task = c.task := rfl
@[simp] theorem setCnt_qm (c : Core) (n : Nat) (x : Counter) : (setCnt c n x).qm = c.qm := rfl
@[simp] theorem setCnt_qv (c : Core) (n : Nat) (x : Counter) : (setCnt c n x).qv = c.qv := rfl
@[simp] theorem setCnt_qc (c : Core) (n : Nat) (x : Counter) : (setCnt c n x).qc = c.qc := rfl
@[simp] theorem setCnt_ql (c : Core) (n : Nat) (x : Counter) : (setCnt c n x).ql = c.ql := rfl
@[simp] theorem setCnt_latch (c : Core) (n : Nat) (x : Counter) : (setCnt c n x).latch = c.latch := rfl
@[simp] theorem setCnt_lastD0 (c : Core) (n : Nat) (x : Counter) : (setCnt c n x).lastD0 = c.lastD0 := rfl
@[simp] theorem setCnt_land (c : Core) (n : Nat) (x : Counter) : (setCnt c n x).land = c.land := rfl
@[simp] theorem setCnt_cmds (c : Core) (n : Nat) (x : Counter) : (setCnt c n x).cmds = c.cmds := rfl
@[simp] theorem setCnt_msgs (c : Core) (n : Nat) (x : Counter) : (setCnt c n x).msgs = c.msgs := rfl
@[simp] theorem setCnt_trap (c : Core) (n : Nat) (x : Counter) : (setCnt c n x).trap = c.trap := rfl
@[simp] theorem setCnt_trapNow (c : Core) (n : Nat) (x : Counter) : (setCnt c n x).trapNow = c.trapNow := rfl
@[simp] theorem setCnt_trapSeq (c : Core) (n : Nat) (x : Counter) : (setCnt c n x).trapSeq = c.trapSeq := rfl
@[simp] theorem setCnt_trapT (c : Core) (n : Nat) (x : Counter) : (setCnt c n x).trapT = c.trapT := rfl
@[simp] theorem setCnt_violAt (c : Core) (n : Nat) (x : Counter) : (setCnt c n x).violAt = c.violAt := rfl
@[simp] theorem setCnt_heldq (c : Core) (n : Nat) (x : Counter) : (setCnt c n x).heldq = c.heldq := rfl
@[simp] theorem setCnt_late (c : Core) (n : Nat) (x : Counter) : (setCnt c n x).late = c.late := rfl
@[simp] theorem setCnt_early (c : Core) (n : Nat) (x : Counter) : (setCnt c n x).early = c.early := rfl

@[simp] theorem setG_life (c : Core) (n : BitVec 5) (g : BitVec 256) : (setG c n g).life = c.life := rfl
@[simp] theorem setG_frozenV (c : Core) (n : BitVec 5) (g : BitVec 256) : (setG c n g).frozenV = c.frozenV := rfl
@[simp] theorem setG_dstop (c : Core) (n : BitVec 5) (g : BitVec 256) : (setG c n g).dstop = c.dstop := rfl
@[simp] theorem setG_failed (c : Core) (n : BitVec 5) (g : BitVec 256) : (setG c n g).failed = c.failed := rfl
@[simp] theorem setG_exempt (c : Core) (n : BitVec 5) (g : BitVec 256) : (setG c n g).exempt = c.exempt := rfl
@[simp] theorem setG_fc (c : Core) (n : BitVec 5) (g : BitVec 256) : (setG c n g).fc = c.fc := rfl
@[simp] theorem setG_entered (c : Core) (n : BitVec 5) (g : BitVec 256) : (setG c n g).entered = c.entered := rfl
@[simp] theorem setG_stall (c : Core) (n : BitVec 5) (g : BitVec 256) : (setG c n g).stall = c.stall := rfl
@[simp] theorem setG_errs (c : Core) (n : BitVec 5) (g : BitVec 256) : (setG c n g).errs = c.errs := rfl
@[simp] theorem setG_nfree (c : Core) (n : BitVec 5) (g : BitVec 256) : (setG c n g).nfree = c.nfree := rfl
@[simp] theorem setG_seq (c : Core) (n : BitVec 5) (g : BitVec 256) : (setG c n g).seq = c.seq := rfl
@[simp] theorem setG_vec (c : Core) (n : BitVec 5) (g : BitVec 256) : (setG c n g).vec = c.vec := rfl
@[simp] theorem setG_h (c : Core) (n : BitVec 5) (g : BitVec 256) : (setG c n g).h = c.h := rfl
@[simp] theorem setG_sys (c : Core) (n : BitVec 5) (g : BitVec 256) : (setG c n g).sys = c.sys := rfl
@[simp] theorem setG_sp (c : Core) (n : BitVec 5) (g : BitVec 256) : (setG c n g).sp = c.sp := rfl
@[simp] theorem setG_cn (c : Core) (n : BitVec 5) (g : BitVec 256) : (setG c n g).cn = c.cn := rfl
@[simp] theorem setG_task (c : Core) (n : BitVec 5) (g : BitVec 256) : (setG c n g).task = c.task := rfl
@[simp] theorem setG_qm (c : Core) (n : BitVec 5) (g : BitVec 256) : (setG c n g).qm = c.qm := rfl
@[simp] theorem setG_qv (c : Core) (n : BitVec 5) (g : BitVec 256) : (setG c n g).qv = c.qv := rfl
@[simp] theorem setG_qc (c : Core) (n : BitVec 5) (g : BitVec 256) : (setG c n g).qc = c.qc := rfl
@[simp] theorem setG_ql (c : Core) (n : BitVec 5) (g : BitVec 256) : (setG c n g).ql = c.ql := rfl
@[simp] theorem setG_latch (c : Core) (n : BitVec 5) (g : BitVec 256) : (setG c n g).latch = c.latch := rfl
@[simp] theorem setG_lastD0 (c : Core) (n : BitVec 5) (g : BitVec 256) : (setG c n g).lastD0 = c.lastD0 := rfl
@[simp] theorem setG_land (c : Core) (n : BitVec 5) (g : BitVec 256) : (setG c n g).land = c.land := rfl
@[simp] theorem setG_cmds (c : Core) (n : BitVec 5) (g : BitVec 256) : (setG c n g).cmds = c.cmds := rfl
@[simp] theorem setG_msgs (c : Core) (n : BitVec 5) (g : BitVec 256) : (setG c n g).msgs = c.msgs := rfl
@[simp] theorem setG_trap (c : Core) (n : BitVec 5) (g : BitVec 256) : (setG c n g).trap = c.trap := rfl
@[simp] theorem setG_trapNow (c : Core) (n : BitVec 5) (g : BitVec 256) : (setG c n g).trapNow = c.trapNow := rfl
@[simp] theorem setG_trapSeq (c : Core) (n : BitVec 5) (g : BitVec 256) : (setG c n g).trapSeq = c.trapSeq := rfl
@[simp] theorem setG_trapT (c : Core) (n : BitVec 5) (g : BitVec 256) : (setG c n g).trapT = c.trapT := rfl
@[simp] theorem setG_violAt (c : Core) (n : BitVec 5) (g : BitVec 256) : (setG c n g).violAt = c.violAt := rfl
@[simp] theorem setG_heldq (c : Core) (n : BitVec 5) (g : BitVec 256) : (setG c n g).heldq = c.heldq := rfl
@[simp] theorem setG_late (c : Core) (n : BitVec 5) (g : BitVec 256) : (setG c n g).late = c.late := rfl
@[simp] theorem setG_early (c : Core) (n : BitVec 5) (g : BitVec 256) : (setG c n g).early = c.early := rfl

@[simp] theorem setTile_life (c : Core) (n : BitVec 3) (t : Tile) : (setTile c n t).life = c.life := rfl
@[simp] theorem setTile_frozenV (c : Core) (n : BitVec 3) (t : Tile) : (setTile c n t).frozenV = c.frozenV := rfl
@[simp] theorem setTile_dstop (c : Core) (n : BitVec 3) (t : Tile) : (setTile c n t).dstop = c.dstop := rfl
@[simp] theorem setTile_failed (c : Core) (n : BitVec 3) (t : Tile) : (setTile c n t).failed = c.failed := rfl
@[simp] theorem setTile_exempt (c : Core) (n : BitVec 3) (t : Tile) : (setTile c n t).exempt = c.exempt := rfl
@[simp] theorem setTile_fc (c : Core) (n : BitVec 3) (t : Tile) : (setTile c n t).fc = c.fc := rfl
@[simp] theorem setTile_entered (c : Core) (n : BitVec 3) (t : Tile) : (setTile c n t).entered = c.entered := rfl
@[simp] theorem setTile_stall (c : Core) (n : BitVec 3) (t : Tile) : (setTile c n t).stall = c.stall := rfl
@[simp] theorem setTile_errs (c : Core) (n : BitVec 3) (t : Tile) : (setTile c n t).errs = c.errs := rfl
@[simp] theorem setTile_nfree (c : Core) (n : BitVec 3) (t : Tile) : (setTile c n t).nfree = c.nfree := rfl
@[simp] theorem setTile_seq (c : Core) (n : BitVec 3) (t : Tile) : (setTile c n t).seq = c.seq := rfl
@[simp] theorem setTile_vec (c : Core) (n : BitVec 3) (t : Tile) : (setTile c n t).vec = c.vec := rfl
@[simp] theorem setTile_h (c : Core) (n : BitVec 3) (t : Tile) : (setTile c n t).h = c.h := rfl
@[simp] theorem setTile_sys (c : Core) (n : BitVec 3) (t : Tile) : (setTile c n t).sys = c.sys := rfl
@[simp] theorem setTile_sp (c : Core) (n : BitVec 3) (t : Tile) : (setTile c n t).sp = c.sp := rfl
@[simp] theorem setTile_cn (c : Core) (n : BitVec 3) (t : Tile) : (setTile c n t).cn = c.cn := rfl
@[simp] theorem setTile_task (c : Core) (n : BitVec 3) (t : Tile) : (setTile c n t).task = c.task := rfl
@[simp] theorem setTile_qm (c : Core) (n : BitVec 3) (t : Tile) : (setTile c n t).qm = c.qm := rfl
@[simp] theorem setTile_qv (c : Core) (n : BitVec 3) (t : Tile) : (setTile c n t).qv = c.qv := rfl
@[simp] theorem setTile_qc (c : Core) (n : BitVec 3) (t : Tile) : (setTile c n t).qc = c.qc := rfl
@[simp] theorem setTile_ql (c : Core) (n : BitVec 3) (t : Tile) : (setTile c n t).ql = c.ql := rfl
@[simp] theorem setTile_latch (c : Core) (n : BitVec 3) (t : Tile) : (setTile c n t).latch = c.latch := rfl
@[simp] theorem setTile_lastD0 (c : Core) (n : BitVec 3) (t : Tile) : (setTile c n t).lastD0 = c.lastD0 := rfl
@[simp] theorem setTile_land (c : Core) (n : BitVec 3) (t : Tile) : (setTile c n t).land = c.land := rfl
@[simp] theorem setTile_cmds (c : Core) (n : BitVec 3) (t : Tile) : (setTile c n t).cmds = c.cmds := rfl
@[simp] theorem setTile_msgs (c : Core) (n : BitVec 3) (t : Tile) : (setTile c n t).msgs = c.msgs := rfl
@[simp] theorem setTile_trap (c : Core) (n : BitVec 3) (t : Tile) : (setTile c n t).trap = c.trap := rfl
@[simp] theorem setTile_trapNow (c : Core) (n : BitVec 3) (t : Tile) : (setTile c n t).trapNow = c.trapNow := rfl
@[simp] theorem setTile_trapSeq (c : Core) (n : BitVec 3) (t : Tile) : (setTile c n t).trapSeq = c.trapSeq := rfl
@[simp] theorem setTile_trapT (c : Core) (n : BitVec 3) (t : Tile) : (setTile c n t).trapT = c.trapT := rfl
@[simp] theorem setTile_violAt (c : Core) (n : BitVec 3) (t : Tile) : (setTile c n t).violAt = c.violAt := rfl
@[simp] theorem setTile_heldq (c : Core) (n : BitVec 3) (t : Tile) : (setTile c n t).heldq = c.heldq := rfl
@[simp] theorem setTile_late (c : Core) (n : BitVec 3) (t : Tile) : (setTile c n t).late = c.late := rfl
@[simp] theorem setTile_early (c : Core) (n : BitVec 3) (t : Tile) : (setTile c n t).early = c.early := rfl

@[simp] theorem psumSet_life (c : Core) (b : Nat) : (psumSet c b).life = c.life := rfl
@[simp] theorem psumSet_frozenV (c : Core) (b : Nat) : (psumSet c b).frozenV = c.frozenV := rfl
@[simp] theorem psumSet_dstop (c : Core) (b : Nat) : (psumSet c b).dstop = c.dstop := rfl
@[simp] theorem psumSet_failed (c : Core) (b : Nat) : (psumSet c b).failed = c.failed := rfl
@[simp] theorem psumSet_exempt (c : Core) (b : Nat) : (psumSet c b).exempt = c.exempt := rfl
@[simp] theorem psumSet_fc (c : Core) (b : Nat) : (psumSet c b).fc = c.fc := rfl
@[simp] theorem psumSet_entered (c : Core) (b : Nat) : (psumSet c b).entered = c.entered := rfl
@[simp] theorem psumSet_stall (c : Core) (b : Nat) : (psumSet c b).stall = c.stall := rfl
@[simp] theorem psumSet_errs (c : Core) (b : Nat) : (psumSet c b).errs = c.errs := rfl
@[simp] theorem psumSet_nfree (c : Core) (b : Nat) : (psumSet c b).nfree = c.nfree := rfl
@[simp] theorem psumSet_vec (c : Core) (b : Nat) : (psumSet c b).vec = c.vec := rfl
@[simp] theorem psumSet_mx (c : Core) (b : Nat) : (psumSet c b).mx = c.mx := rfl
@[simp] theorem psumSet_h (c : Core) (b : Nat) : (psumSet c b).h = c.h := rfl
@[simp] theorem psumSet_sys (c : Core) (b : Nat) : (psumSet c b).sys = c.sys := rfl
@[simp] theorem psumSet_sp (c : Core) (b : Nat) : (psumSet c b).sp = c.sp := rfl
@[simp] theorem psumSet_cn (c : Core) (b : Nat) : (psumSet c b).cn = c.cn := rfl
@[simp] theorem psumSet_task (c : Core) (b : Nat) : (psumSet c b).task = c.task := rfl
@[simp] theorem psumSet_qm (c : Core) (b : Nat) : (psumSet c b).qm = c.qm := rfl
@[simp] theorem psumSet_qv (c : Core) (b : Nat) : (psumSet c b).qv = c.qv := rfl
@[simp] theorem psumSet_qc (c : Core) (b : Nat) : (psumSet c b).qc = c.qc := rfl
@[simp] theorem psumSet_ql (c : Core) (b : Nat) : (psumSet c b).ql = c.ql := rfl
@[simp] theorem psumSet_latch (c : Core) (b : Nat) : (psumSet c b).latch = c.latch := rfl
@[simp] theorem psumSet_lastD0 (c : Core) (b : Nat) : (psumSet c b).lastD0 = c.lastD0 := rfl
@[simp] theorem psumSet_land (c : Core) (b : Nat) : (psumSet c b).land = c.land := rfl
@[simp] theorem psumSet_cmds (c : Core) (b : Nat) : (psumSet c b).cmds = c.cmds := rfl
@[simp] theorem psumSet_msgs (c : Core) (b : Nat) : (psumSet c b).msgs = c.msgs := rfl
@[simp] theorem psumSet_trap (c : Core) (b : Nat) : (psumSet c b).trap = c.trap := rfl
@[simp] theorem psumSet_trapNow (c : Core) (b : Nat) : (psumSet c b).trapNow = c.trapNow := rfl
@[simp] theorem psumSet_trapSeq (c : Core) (b : Nat) : (psumSet c b).trapSeq = c.trapSeq := rfl
@[simp] theorem psumSet_trapT (c : Core) (b : Nat) : (psumSet c b).trapT = c.trapT := rfl
@[simp] theorem psumSet_violAt (c : Core) (b : Nat) : (psumSet c b).violAt = c.violAt := rfl
@[simp] theorem psumSet_heldq (c : Core) (b : Nat) : (psumSet c b).heldq = c.heldq := rfl
@[simp] theorem psumSet_late (c : Core) (b : Nat) : (psumSet c b).late = c.late := rfl
@[simp] theorem psumSet_early (c : Core) (b : Nat) : (psumSet c b).early = c.early := rfl

@[simp] theorem psumClear_life (c : Core) (m : Word) : (psumClear c m).life = c.life := rfl
@[simp] theorem psumClear_frozenV (c : Core) (m : Word) : (psumClear c m).frozenV = c.frozenV := rfl
@[simp] theorem psumClear_dstop (c : Core) (m : Word) : (psumClear c m).dstop = c.dstop := rfl
@[simp] theorem psumClear_failed (c : Core) (m : Word) : (psumClear c m).failed = c.failed := rfl
@[simp] theorem psumClear_exempt (c : Core) (m : Word) : (psumClear c m).exempt = c.exempt := rfl
@[simp] theorem psumClear_fc (c : Core) (m : Word) : (psumClear c m).fc = c.fc := rfl
@[simp] theorem psumClear_entered (c : Core) (m : Word) : (psumClear c m).entered = c.entered := rfl
@[simp] theorem psumClear_stall (c : Core) (m : Word) : (psumClear c m).stall = c.stall := rfl
@[simp] theorem psumClear_errs (c : Core) (m : Word) : (psumClear c m).errs = c.errs := rfl
@[simp] theorem psumClear_nfree (c : Core) (m : Word) : (psumClear c m).nfree = c.nfree := rfl
@[simp] theorem psumClear_vec (c : Core) (m : Word) : (psumClear c m).vec = c.vec := rfl
@[simp] theorem psumClear_mx (c : Core) (m : Word) : (psumClear c m).mx = c.mx := rfl
@[simp] theorem psumClear_h (c : Core) (m : Word) : (psumClear c m).h = c.h := rfl
@[simp] theorem psumClear_sys (c : Core) (m : Word) : (psumClear c m).sys = c.sys := rfl
@[simp] theorem psumClear_sp (c : Core) (m : Word) : (psumClear c m).sp = c.sp := rfl
@[simp] theorem psumClear_cn (c : Core) (m : Word) : (psumClear c m).cn = c.cn := rfl
@[simp] theorem psumClear_task (c : Core) (m : Word) : (psumClear c m).task = c.task := rfl
@[simp] theorem psumClear_qm (c : Core) (m : Word) : (psumClear c m).qm = c.qm := rfl
@[simp] theorem psumClear_qv (c : Core) (m : Word) : (psumClear c m).qv = c.qv := rfl
@[simp] theorem psumClear_qc (c : Core) (m : Word) : (psumClear c m).qc = c.qc := rfl
@[simp] theorem psumClear_ql (c : Core) (m : Word) : (psumClear c m).ql = c.ql := rfl
@[simp] theorem psumClear_latch (c : Core) (m : Word) : (psumClear c m).latch = c.latch := rfl
@[simp] theorem psumClear_lastD0 (c : Core) (m : Word) : (psumClear c m).lastD0 = c.lastD0 := rfl
@[simp] theorem psumClear_land (c : Core) (m : Word) : (psumClear c m).land = c.land := rfl
@[simp] theorem psumClear_cmds (c : Core) (m : Word) : (psumClear c m).cmds = c.cmds := rfl
@[simp] theorem psumClear_msgs (c : Core) (m : Word) : (psumClear c m).msgs = c.msgs := rfl
@[simp] theorem psumClear_trap (c : Core) (m : Word) : (psumClear c m).trap = c.trap := rfl
@[simp] theorem psumClear_trapNow (c : Core) (m : Word) : (psumClear c m).trapNow = c.trapNow := rfl
@[simp] theorem psumClear_trapSeq (c : Core) (m : Word) : (psumClear c m).trapSeq = c.trapSeq := rfl
@[simp] theorem psumClear_trapT (c : Core) (m : Word) : (psumClear c m).trapT = c.trapT := rfl
@[simp] theorem psumClear_violAt (c : Core) (m : Word) : (psumClear c m).violAt = c.violAt := rfl
@[simp] theorem psumClear_heldq (c : Core) (m : Word) : (psumClear c m).heldq = c.heldq := rfl
@[simp] theorem psumClear_late (c : Core) (m : Word) : (psumClear c m).late = c.late := rfl
@[simp] theorem psumClear_early (c : Core) (m : Word) : (psumClear c m).early = c.early := rfl

@[simp] theorem landAt_life (c : Core) (q : Nat) (e : QEntry) (lat : Nat) (a : Act) : (landAt c q e lat a).life = c.life := rfl
@[simp] theorem landAt_frozenV (c : Core) (q : Nat) (e : QEntry) (lat : Nat) (a : Act) : (landAt c q e lat a).frozenV = c.frozenV := rfl
@[simp] theorem landAt_dstop (c : Core) (q : Nat) (e : QEntry) (lat : Nat) (a : Act) : (landAt c q e lat a).dstop = c.dstop := rfl
@[simp] theorem landAt_failed (c : Core) (q : Nat) (e : QEntry) (lat : Nat) (a : Act) : (landAt c q e lat a).failed = c.failed := rfl
@[simp] theorem landAt_exempt (c : Core) (q : Nat) (e : QEntry) (lat : Nat) (a : Act) : (landAt c q e lat a).exempt = c.exempt := rfl
@[simp] theorem landAt_fc (c : Core) (q : Nat) (e : QEntry) (lat : Nat) (a : Act) : (landAt c q e lat a).fc = c.fc := rfl
@[simp] theorem landAt_entered (c : Core) (q : Nat) (e : QEntry) (lat : Nat) (a : Act) : (landAt c q e lat a).entered = c.entered := rfl
@[simp] theorem landAt_stall (c : Core) (q : Nat) (e : QEntry) (lat : Nat) (a : Act) : (landAt c q e lat a).stall = c.stall := rfl
@[simp] theorem landAt_errs (c : Core) (q : Nat) (e : QEntry) (lat : Nat) (a : Act) : (landAt c q e lat a).errs = c.errs := rfl
@[simp] theorem landAt_nfree (c : Core) (q : Nat) (e : QEntry) (lat : Nat) (a : Act) : (landAt c q e lat a).nfree = c.nfree := rfl
@[simp] theorem landAt_seq (c : Core) (q : Nat) (e : QEntry) (lat : Nat) (a : Act) : (landAt c q e lat a).seq = c.seq := rfl
@[simp] theorem landAt_vec (c : Core) (q : Nat) (e : QEntry) (lat : Nat) (a : Act) : (landAt c q e lat a).vec = c.vec := rfl
@[simp] theorem landAt_mx (c : Core) (q : Nat) (e : QEntry) (lat : Nat) (a : Act) : (landAt c q e lat a).mx = c.mx := rfl
@[simp] theorem landAt_h (c : Core) (q : Nat) (e : QEntry) (lat : Nat) (a : Act) : (landAt c q e lat a).h = c.h := rfl
@[simp] theorem landAt_sys (c : Core) (q : Nat) (e : QEntry) (lat : Nat) (a : Act) : (landAt c q e lat a).sys = c.sys := rfl
@[simp] theorem landAt_sp (c : Core) (q : Nat) (e : QEntry) (lat : Nat) (a : Act) : (landAt c q e lat a).sp = c.sp := rfl
@[simp] theorem landAt_cn (c : Core) (q : Nat) (e : QEntry) (lat : Nat) (a : Act) : (landAt c q e lat a).cn = c.cn := rfl
@[simp] theorem landAt_task (c : Core) (q : Nat) (e : QEntry) (lat : Nat) (a : Act) : (landAt c q e lat a).task = c.task := rfl
@[simp] theorem landAt_qm (c : Core) (q : Nat) (e : QEntry) (lat : Nat) (a : Act) : (landAt c q e lat a).qm = c.qm := rfl
@[simp] theorem landAt_qv (c : Core) (q : Nat) (e : QEntry) (lat : Nat) (a : Act) : (landAt c q e lat a).qv = c.qv := rfl
@[simp] theorem landAt_qc (c : Core) (q : Nat) (e : QEntry) (lat : Nat) (a : Act) : (landAt c q e lat a).qc = c.qc := rfl
@[simp] theorem landAt_ql (c : Core) (q : Nat) (e : QEntry) (lat : Nat) (a : Act) : (landAt c q e lat a).ql = c.ql := rfl
@[simp] theorem landAt_latch (c : Core) (q : Nat) (e : QEntry) (lat : Nat) (a : Act) : (landAt c q e lat a).latch = c.latch := rfl
@[simp] theorem landAt_lastD0 (c : Core) (q : Nat) (e : QEntry) (lat : Nat) (a : Act) : (landAt c q e lat a).lastD0 = c.lastD0 := rfl
@[simp] theorem landAt_cmds (c : Core) (q : Nat) (e : QEntry) (lat : Nat) (a : Act) : (landAt c q e lat a).cmds = c.cmds := rfl
@[simp] theorem landAt_msgs (c : Core) (q : Nat) (e : QEntry) (lat : Nat) (a : Act) : (landAt c q e lat a).msgs = c.msgs := rfl
@[simp] theorem landAt_trap (c : Core) (q : Nat) (e : QEntry) (lat : Nat) (a : Act) : (landAt c q e lat a).trap = c.trap := rfl
@[simp] theorem landAt_trapNow (c : Core) (q : Nat) (e : QEntry) (lat : Nat) (a : Act) : (landAt c q e lat a).trapNow = c.trapNow := rfl
@[simp] theorem landAt_trapSeq (c : Core) (q : Nat) (e : QEntry) (lat : Nat) (a : Act) : (landAt c q e lat a).trapSeq = c.trapSeq := rfl
@[simp] theorem landAt_trapT (c : Core) (q : Nat) (e : QEntry) (lat : Nat) (a : Act) : (landAt c q e lat a).trapT = c.trapT := rfl
@[simp] theorem landAt_violAt (c : Core) (q : Nat) (e : QEntry) (lat : Nat) (a : Act) : (landAt c q e lat a).violAt = c.violAt := rfl
@[simp] theorem landAt_heldq (c : Core) (q : Nat) (e : QEntry) (lat : Nat) (a : Act) : (landAt c q e lat a).heldq = c.heldq := rfl
@[simp] theorem landAt_late (c : Core) (q : Nat) (e : QEntry) (lat : Nat) (a : Act) : (landAt c q e lat a).late = c.late := rfl
@[simp] theorem landAt_early (c : Core) (q : Nat) (e : QEntry) (lat : Nat) (a : Act) : (landAt c q e lat a).early = c.early := rfl

@[simp] theorem newOrigins_life (c : Core) : (newOrigins c).life = c.life := rfl
@[simp] theorem newOrigins_frozenV (c : Core) : (newOrigins c).frozenV = c.frozenV := rfl
@[simp] theorem newOrigins_dstop (c : Core) : (newOrigins c).dstop = c.dstop := rfl
@[simp] theorem newOrigins_failed (c : Core) : (newOrigins c).failed = c.failed := rfl
@[simp] theorem newOrigins_exempt (c : Core) : (newOrigins c).exempt = c.exempt := rfl
@[simp] theorem newOrigins_fc (c : Core) : (newOrigins c).fc = c.fc := rfl
@[simp] theorem newOrigins_entered (c : Core) : (newOrigins c).entered = c.entered := rfl
@[simp] theorem newOrigins_stall (c : Core) : (newOrigins c).stall = c.stall := rfl
@[simp] theorem newOrigins_errs (c : Core) : (newOrigins c).errs = c.errs := rfl
@[simp] theorem newOrigins_nfree (c : Core) : (newOrigins c).nfree = c.nfree := rfl
@[simp] theorem newOrigins_vec (c : Core) : (newOrigins c).vec = c.vec := rfl
@[simp] theorem newOrigins_mx (c : Core) : (newOrigins c).mx = c.mx := rfl
@[simp] theorem newOrigins_h (c : Core) : (newOrigins c).h = c.h := rfl
@[simp] theorem newOrigins_sys (c : Core) : (newOrigins c).sys = c.sys := rfl
@[simp] theorem newOrigins_sp (c : Core) : (newOrigins c).sp = c.sp := rfl
@[simp] theorem newOrigins_cn (c : Core) : (newOrigins c).cn = c.cn := rfl
@[simp] theorem newOrigins_task (c : Core) : (newOrigins c).task = c.task := rfl
@[simp] theorem newOrigins_latch (c : Core) : (newOrigins c).latch = c.latch := rfl
@[simp] theorem newOrigins_land (c : Core) : (newOrigins c).land = c.land := rfl
@[simp] theorem newOrigins_cmds (c : Core) : (newOrigins c).cmds = c.cmds := rfl
@[simp] theorem newOrigins_msgs (c : Core) : (newOrigins c).msgs = c.msgs := rfl
@[simp] theorem newOrigins_trap (c : Core) : (newOrigins c).trap = c.trap := rfl
@[simp] theorem newOrigins_trapNow (c : Core) : (newOrigins c).trapNow = c.trapNow := rfl
@[simp] theorem newOrigins_trapSeq (c : Core) : (newOrigins c).trapSeq = c.trapSeq := rfl
@[simp] theorem newOrigins_trapT (c : Core) : (newOrigins c).trapT = c.trapT := rfl
@[simp] theorem newOrigins_violAt (c : Core) : (newOrigins c).violAt = c.violAt := rfl
@[simp] theorem newOrigins_heldq (c : Core) : (newOrigins c).heldq = c.heldq := rfl
@[simp] theorem newOrigins_late (c : Core) : (newOrigins c).late = c.late := rfl
@[simp] theorem newOrigins_early (c : Core) : (newOrigins c).early = c.early := rfl

@[simp] theorem leaveTrap_life (c : Core) : (leaveTrap c).life = c.life := rfl
@[simp] theorem leaveTrap_frozenV (c : Core) : (leaveTrap c).frozenV = c.frozenV := rfl
@[simp] theorem leaveTrap_dstop (c : Core) : (leaveTrap c).dstop = c.dstop := rfl
@[simp] theorem leaveTrap_failed (c : Core) : (leaveTrap c).failed = c.failed := rfl
@[simp] theorem leaveTrap_fc (c : Core) : (leaveTrap c).fc = c.fc := rfl
@[simp] theorem leaveTrap_entered (c : Core) : (leaveTrap c).entered = c.entered := rfl
@[simp] theorem leaveTrap_stall (c : Core) : (leaveTrap c).stall = c.stall := rfl
@[simp] theorem leaveTrap_errs (c : Core) : (leaveTrap c).errs = c.errs := rfl
@[simp] theorem leaveTrap_nfree (c : Core) : (leaveTrap c).nfree = c.nfree := rfl
@[simp] theorem leaveTrap_vec (c : Core) : (leaveTrap c).vec = c.vec := rfl
@[simp] theorem leaveTrap_mx (c : Core) : (leaveTrap c).mx = c.mx := rfl
@[simp] theorem leaveTrap_h (c : Core) : (leaveTrap c).h = c.h := rfl
@[simp] theorem leaveTrap_sp (c : Core) : (leaveTrap c).sp = c.sp := rfl
@[simp] theorem leaveTrap_cn (c : Core) : (leaveTrap c).cn = c.cn := rfl
@[simp] theorem leaveTrap_task (c : Core) : (leaveTrap c).task = c.task := rfl
@[simp] theorem leaveTrap_latch (c : Core) : (leaveTrap c).latch = c.latch := rfl
@[simp] theorem leaveTrap_land (c : Core) : (leaveTrap c).land = c.land := rfl
@[simp] theorem leaveTrap_cmds (c : Core) : (leaveTrap c).cmds = c.cmds := rfl
@[simp] theorem leaveTrap_msgs (c : Core) : (leaveTrap c).msgs = c.msgs := rfl
@[simp] theorem leaveTrap_trap (c : Core) : (leaveTrap c).trap = c.trap := rfl
@[simp] theorem leaveTrap_trapNow (c : Core) : (leaveTrap c).trapNow = c.trapNow := rfl
@[simp] theorem leaveTrap_trapSeq (c : Core) : (leaveTrap c).trapSeq = c.trapSeq := rfl
@[simp] theorem leaveTrap_trapT (c : Core) : (leaveTrap c).trapT = c.trapT := rfl
@[simp] theorem leaveTrap_violAt (c : Core) : (leaveTrap c).violAt = c.violAt := rfl
@[simp] theorem leaveTrap_heldq (c : Core) : (leaveTrap c).heldq = c.heldq := rfl
@[simp] theorem leaveTrap_late (c : Core) : (leaveTrap c).late = c.late := rfl
@[simp] theorem leaveTrap_early (c : Core) : (leaveTrap c).early = c.early := rfl

@[simp] theorem enterTrap_life (c : Core) (t : PendTrap) (m v cq l : Nat) : (enterTrap c t m v cq l).life = c.life := rfl
@[simp] theorem enterTrap_frozenV (c : Core) (t : PendTrap) (m v cq l : Nat) : (enterTrap c t m v cq l).frozenV = c.frozenV := rfl
@[simp] theorem enterTrap_dstop (c : Core) (t : PendTrap) (m v cq l : Nat) : (enterTrap c t m v cq l).dstop = c.dstop := rfl
@[simp] theorem enterTrap_failed (c : Core) (t : PendTrap) (m v cq l : Nat) : (enterTrap c t m v cq l).failed = c.failed := rfl
@[simp] theorem enterTrap_exempt (c : Core) (t : PendTrap) (m v cq l : Nat) : (enterTrap c t m v cq l).exempt = c.exempt := rfl
@[simp] theorem enterTrap_fc (c : Core) (t : PendTrap) (m v cq l : Nat) : (enterTrap c t m v cq l).fc = c.fc := rfl
@[simp] theorem enterTrap_entered (c : Core) (t : PendTrap) (m v cq l : Nat) : (enterTrap c t m v cq l).entered = c.entered := rfl
@[simp] theorem enterTrap_stall (c : Core) (t : PendTrap) (m v cq l : Nat) : (enterTrap c t m v cq l).stall = c.stall := rfl
@[simp] theorem enterTrap_errs (c : Core) (t : PendTrap) (m v cq l : Nat) : (enterTrap c t m v cq l).errs = c.errs := rfl
@[simp] theorem enterTrap_nfree (c : Core) (t : PendTrap) (m v cq l : Nat) : (enterTrap c t m v cq l).nfree = c.nfree := rfl
@[simp] theorem enterTrap_vec (c : Core) (t : PendTrap) (m v cq l : Nat) : (enterTrap c t m v cq l).vec = c.vec := rfl
@[simp] theorem enterTrap_mx (c : Core) (t : PendTrap) (m v cq l : Nat) : (enterTrap c t m v cq l).mx = c.mx := rfl
@[simp] theorem enterTrap_h (c : Core) (t : PendTrap) (m v cq l : Nat) : (enterTrap c t m v cq l).h = c.h := rfl
@[simp] theorem enterTrap_sp (c : Core) (t : PendTrap) (m v cq l : Nat) : (enterTrap c t m v cq l).sp = c.sp := rfl
@[simp] theorem enterTrap_cn (c : Core) (t : PendTrap) (m v cq l : Nat) : (enterTrap c t m v cq l).cn = c.cn := rfl
@[simp] theorem enterTrap_task (c : Core) (t : PendTrap) (m v cq l : Nat) : (enterTrap c t m v cq l).task = c.task := rfl
@[simp] theorem enterTrap_qm (c : Core) (t : PendTrap) (m v cq l : Nat) : (enterTrap c t m v cq l).qm = c.qm := rfl
@[simp] theorem enterTrap_qv (c : Core) (t : PendTrap) (m v cq l : Nat) : (enterTrap c t m v cq l).qv = c.qv := rfl
@[simp] theorem enterTrap_qc (c : Core) (t : PendTrap) (m v cq l : Nat) : (enterTrap c t m v cq l).qc = c.qc := rfl
@[simp] theorem enterTrap_ql (c : Core) (t : PendTrap) (m v cq l : Nat) : (enterTrap c t m v cq l).ql = c.ql := rfl
@[simp] theorem enterTrap_latch (c : Core) (t : PendTrap) (m v cq l : Nat) : (enterTrap c t m v cq l).latch = c.latch := rfl
@[simp] theorem enterTrap_land (c : Core) (t : PendTrap) (m v cq l : Nat) : (enterTrap c t m v cq l).land = c.land := rfl
@[simp] theorem enterTrap_cmds (c : Core) (t : PendTrap) (m v cq l : Nat) : (enterTrap c t m v cq l).cmds = c.cmds := rfl
@[simp] theorem enterTrap_msgs (c : Core) (t : PendTrap) (m v cq l : Nat) : (enterTrap c t m v cq l).msgs = c.msgs := rfl
@[simp] theorem enterTrap_trapNow (c : Core) (t : PendTrap) (m v cq l : Nat) : (enterTrap c t m v cq l).trapNow = c.trapNow := rfl
@[simp] theorem enterTrap_trapSeq (c : Core) (t : PendTrap) (m v cq l : Nat) : (enterTrap c t m v cq l).trapSeq = c.trapSeq := rfl
@[simp] theorem enterTrap_trapT (c : Core) (t : PendTrap) (m v cq l : Nat) : (enterTrap c t m v cq l).trapT = c.trapT := rfl
@[simp] theorem enterTrap_violAt (c : Core) (t : PendTrap) (m v cq l : Nat) : (enterTrap c t m v cq l).violAt = c.violAt := rfl
@[simp] theorem enterTrap_heldq (c : Core) (t : PendTrap) (m v cq l : Nat) : (enterTrap c t m v cq l).heldq = c.heldq := rfl
@[simp] theorem enterTrap_late (c : Core) (t : PendTrap) (m v cq l : Nat) : (enterTrap c t m v cq l).late = c.late := rfl
@[simp] theorem enterTrap_early (c : Core) (t : PendTrap) (m v cq l : Nat) : (enterTrap c t m v cq l).early = c.early := rfl

/-! Scalar registers, the PC and the counts. -/

@[simp] theorem getS_zero (c : Core) : getS c 0 = 0 := rfl

/-- A write is read back, but for s0 (R77, R103). -/
theorem getS_setS (c : Core) (n m : BitVec 6) (v : Word) :
    getS (setS c n v) m = if m = n ∧ n ≠ 0 then v else getS c m := by
  unfold setS
  by_cases hn : n = 0
  · rw [if_pos hn, if_neg (fun h => h.2 hn)]
  · rw [if_neg hn]
    unfold getS
    by_cases h0 : m = 0
    · rw [if_pos h0, if_pos h0, if_neg (fun h => h.2 (h.1 ▸ h0))]
    · rw [if_neg h0, if_neg h0, mapGet_mapSet]
      by_cases hm : m = n
      · rw [if_pos (by rw [hm]), if_pos ⟨hm, hn⟩]
      · rw [if_neg (fun h => hm (BitVec.eq_of_toNat_eq h)), if_neg (fun h => hm h.1)]

theorem getS_congr (c d : Core) (h : d.seq.s = c.seq.s) (n : BitVec 6) : getS d n = getS c n := by simp [getS, h]

@[simp] theorem getS_stepPc (c : Core) (n : BitVec 6) : getS (stepPc c) n = getS c n := rfl
@[simp] theorem getS_setPc (c : Core) (t : BitVec 32) (n : BitVec 6) : getS (setPc c t) n = getS c n := rfl
@[simp] theorem getS_retire (c : Core) (cyc gap : Nat) (n : BitVec 6) : getS (retire c cyc gap) n = getS c n := rfl
@[simp] theorem getS_countEv (c : Core) (ev k : Nat) (n : BitVec 6) : getS (countEv c ev k) n = getS c n := rfl

theorem getS_setSLat (c : Core) (cyc : Nat) (n m : BitVec 6) (v : Word) (lat : Nat) :
    getS (setSLat c cyc n v lat) m = if m = n ∧ n ≠ 0 then v else getS c m := by
  rw [← getS_setS]; unfold setSLat; split <;> rfl

@[simp] theorem setSLat_pc (c : Core) (cyc : Nat) (n : BitVec 6) (v : Word) (lat : Nat) :
    (setSLat c cyc n v lat).seq.pc = c.seq.pc := by unfold setSLat setS; split <;> rfl
@[simp] theorem setSLat_lstk (c : Core) (cyc : Nat) (n : BitVec 6) (v : Word) (lat : Nat) :
    (setSLat c cyc n v lat).seq.lstk = c.seq.lstk := by unfold setSLat setS; split <;> rfl
@[simp] theorem setSLat_psum (c : Core) (cyc : Nat) (n : BitVec 6) (v : Word) (lat : Nat) :
    (setSLat c cyc n v lat).seq.psum = c.seq.psum := by unfold setSLat setS; split <;> rfl
@[simp] theorem stepPc_pc (c : Core) : (stepPc c).seq.pc = c.seq.pc + 1 := rfl
@[simp] theorem stepPc_lstk (c : Core) : (stepPc c).seq.lstk = c.seq.lstk := rfl
@[simp] theorem stepPc_psum (c : Core) : (stepPc c).seq.psum = c.seq.psum := rfl
@[simp] theorem setPc_pc (c : Core) (t : BitVec 32) : (setPc c t).seq.pc = t := rfl
@[simp] theorem setPc_lstk (c : Core) (t : BitVec 32) : (setPc c t).seq.lstk = c.seq.lstk := rfl
@[simp] theorem setPc_psum (c : Core) (t : BitVec 32) : (setPc c t).seq.psum = c.seq.psum := rfl
@[simp] theorem retire_pc (c : Core) (cyc gap : Nat) : (retire c cyc gap).seq.pc = c.seq.pc := rfl
@[simp] theorem retire_lstk (c : Core) (cyc gap : Nat) : (retire c cyc gap).seq.lstk = c.seq.lstk := rfl
@[simp] theorem retire_psum (c : Core) (cyc gap : Nat) : (retire c cyc gap).seq.psum = c.seq.psum := rfl
@[simp] theorem retire_w (c : Core) (cyc gap : Nat) : (retire c cyc gap).task.w = c.task.w + 1 := rfl
@[simp] theorem retire_k (c : Core) (cyc gap : Nat) : (retire c cyc gap).cn.k = c.cn.k := rfl
@[simp] theorem retire_wait (c : Core) (cyc gap : Nat) : (retire c cyc gap).seq.wait = none := rfl

end Sys2Proof.Machine
end

