-- ==== Sys2Proof/Laws/Ops.lean ====
section
/-! SUPPORT. What the shared operations of the meanings can do, each said once: a word that writes one register, a word that
changes its core, a jump, a precise cause; and that frames compose. -/

namespace Sys2Proof.Machine

theorem KeepsEngines.refl (a : Core) : KeepsEngines a a := by constructor <;> rfl
theorem KeepsQueues.refl (a : Core) : KeepsQueues a a := by constructor <;> rfl
theorem KeepsLoops.refl (a : Core) : KeepsLoops a a := by constructor <;> rfl
theorem KeepsPad.refl (a : Core) : KeepsPad a a := ⟨fun _ => rfl, fun _ => rfl⟩
theorem KeepsUnits.refl (a : Core) : KeepsUnits a a := ⟨KeepsEngines.refl a, KeepsQueues.refl a, rfl⟩
theorem KeepsRest.refl (s : State) : KeepsRest s s := by constructor <;> intros <;> rfl

theorem KeepsEngines.trans {a b c : Core} (h : KeepsEngines a b) (g : KeepsEngines b c) : KeepsEngines a c := by
  constructor
  · rw [g.life, h.life]
  · rw [g.vec, h.vec]
  · rw [g.mx, h.mx]
  · rw [g.h, h.h]
  · rw [g.sys, h.sys]
  · rw [g.k, h.k]
  · rw [g.cnt, h.cnt]
  · rw [g.chart, h.chart]
  · rw [g.land, h.land]
  · rw [g.cmds, h.cmds]
  · rw [g.msgs, h.msgs]
  · rw [g.trap, h.trap]

theorem KeepsQueues.trans {a b c : Core} (h : KeepsQueues a b) (g : KeepsQueues b c) : KeepsQueues a c := by
  constructor
  · rw [g.qm, h.qm]
  · rw [g.qv, h.qv]
  · rw [g.qc, h.qc]
  · rw [g.ql, h.ql]

theorem KeepsUnits.trans {a b c : Core} (h : KeepsUnits a b) (g : KeepsUnits b c) : KeepsUnits a c :=
  ⟨h.toKeepsEngines.trans g.toKeepsEngines, h.toKeepsQueues.trans g.toKeepsQueues, by rw [g.sp, h.sp]⟩

/-- A frame over units read off field by field. -/
theorem keepsUnits_retire (c : Core) (cyc gap : Nat) : KeepsUnits c (retire c cyc gap) := by
  refine ⟨?_, ?_, rfl⟩ <;> constructor <;> rfl
theorem keepsUnits_stepPc (c : Core) : KeepsUnits c (stepPc c) := by
  refine ⟨?_, ?_, rfl⟩ <;> constructor <;> rfl
theorem keepsUnits_setPc (c : Core) (t : BitVec 32) : KeepsUnits c (setPc c t) := by
  refine ⟨?_, ?_, rfl⟩ <;> constructor <;> rfl
theorem keepsUnits_setSLat (c : Core) (cyc : Nat) (n : BitVec 6) (v : Word) (lat : Nat) :
    KeepsUnits c (setSLat c cyc n v lat) := by
  unfold setSLat setS
  split
  · exact KeepsUnits.refl c
  · refine ⟨?_, ?_, rfl⟩ <;> constructor <;> rfl

/-- A change of the present core alone leaves the rest of the machine. -/
theorem keepsRest_onMe (s : State) (f : Core → Core) : KeepsRest s (s.onMe f) := by
  constructor
  · exact fun n hn => State.core_onMe_ne s f n hn
  all_goals rfl

theorem keepsRest_setCore_cur (s : State) (c : Core) : KeepsRest s (s.setCore s.cur c) := by
  constructor
  · intro n hn; simp [hn]
  all_goals rfl

/-- A word that writes one register does nothing else (R103, R106). -/
theorem writeNext_spec {i : Instr} {s : State} {sd : BitVec 6} {v : Word} {lat : Nat}
    (h : exec i s = writeNext s sd v lat) : GivesScalar i s sd v := by
  refine ⟨_, h, ?_, ?_, ⟨?_, ?_⟩, ⟨?_, ?_⟩, ?_, keepsRest_onMe _ _⟩
  · rw [State.me_onMe, getS_retire, getS_stepPc, getS_setSLat]
    by_cases hz : sd = 0
    · subst hz; rfl
    · rw [if_pos ⟨rfl, hz⟩, if_neg hz]
  · intro r hr
    rw [State.me_onMe, getS_retire, getS_stepPc, getS_setSLat, if_neg (fun h => hr h.1)]
  · simp
  · simp
  · simp
  · simp
  · rw [State.me_onMe]
    exact ((keepsUnits_setSLat _ _ _ _ _).trans (keepsUnits_stepPc _)).trans (keepsUnits_retire _ _ _)

/-- A word that only goes to another word (R106, R120). -/
theorem goTo_spec {i : Instr} {s : State} {pc : BitVec 32} {gap : Nat}
    (h : exec i s = jumpNext s pc gap (fun c => c)) :
    Runs i s fun t => WentTo s.me t.me pc ∧ NoReg s.me t.me ∧ KeepsLoops s.me t.me ∧ KeepsUnits s.me t.me ∧ KeepsRest s t := by
  refine ⟨_, h, ⟨?_, ?_⟩, ?_, ⟨?_, ?_⟩, ?_, keepsRest_onMe _ _⟩
  · simp
  · simp
  · intro r; rw [State.me_onMe, getS_retire, getS_setPc]
  · simp
  · simp
  · rw [State.me_onMe]; exact (keepsUnits_setPc _ _).trans (keepsUnits_retire _ _ _)

/-- A word that does nothing but go on. -/
theorem goOn_spec {i : Instr} {s : State} (h : exec i s = coreNext s (fun c => c)) :
    Runs i s fun t => WentTo s.me t.me (s.me.seq.pc + 1) ∧ NoReg s.me t.me ∧ KeepsLoops s.me t.me ∧ KeepsUnits s.me t.me ∧
      KeepsRest s t := by
  refine ⟨_, h, ⟨?_, ?_⟩, ?_, ⟨?_, ?_⟩, ?_, keepsRest_onMe _ _⟩
  · simp
  · simp
  · intro r; rw [State.me_onMe, getS_retire, getS_stepPc]
  · simp
  · simp
  · rw [State.me_onMe]; exact (keepsUnits_stepPc _).trans (keepsUnits_retire _ _ _)

/-- A precise cause of a sequencer word changes nothing but the pending trap, whose information a violation leaves out (R36, R83,
R107). -/
theorem seqTrap_spec {i : Instr} {s : State} {k : Nat} {a b : Word} (h : exec i s = seqTrap s k a b) :
    RaisesAt i s k (if isViolation k then 0 else a) (if isViolation k then 0 else b) := by
  intro ht
  refine ⟨_, h, ?_⟩
  cases hk : isViolation k
  · simp only [State.me_onMe, raiseSeq, takeCause, ht, hk, Bool.false_eq_true, if_false, true_and]
    exact keepsRest_onMe _ _
  · simp only [State.me_onMe, raiseSeq, raise, takeCause, ht, hk, if_true, true_and]
    exact keepsRest_onMe _ _

/-- Where a scalar access goes wrong, and when it does not (R114, R225). -/
theorem accessCheck_spec (c : Core) (addr : Word) (al : Nat) (i1 ai : Word) :
    accessCheck c addr 1 al i1 ai =
      if 2 ^ 23 ≤ addr.toNat then .trap causeRange addr i1
      else if addr.toNat % al ≠ 0 then .trap causeAlign addr ai
      else if mapGet c.sp.tagDef c.sp.tag (addr.toNat / 128) ≠ c.sys.tenant then .trap causeOwner addr 0
      else .ok := by
  unfold accessCheck rangeAddr spadSize
  by_cases h1 : 2 ^ 23 ≤ addr.toNat
  · rw [if_pos h1, if_pos h1]; simp
  · rw [if_neg h1, if_neg (by omega), if_neg h1]
    simp only [tagOk, lineOf]
    split
    · rfl
    · by_cases h3 : mapGet c.sp.tagDef c.sp.tag (addr.toNat / 128) = c.sys.tenant <;> simp [h3]

end Sys2Proof.Machine
end

