-- ==== Sys2Proof/Laws/Engine.lean ====
section
/-! SUPPORT. What the issue of an engine entry does: the entry leaves its queue and nothing else changes but what the word's own
effect says; a landing is appended; or the word raises its cause and stays. -/

namespace Sys2Proof.Machine

theorem countIssue_queue (c : Core) (q k : Nat) (b : Bool) : (countIssue c q b).queue k = c.queue k := by
  unfold countIssue; cases b <;> rfl
theorem countIssue_w (c : Core) (q : Nat) (b : Bool) : (countIssue c q b).task.w = c.task.w + 1 := by
  unfold countIssue; cases b <;> rfl

/-- Issue counts, and leaves all else. -/
theorem countIssue_keeps (c : Core) (q : Nat) (b : Bool) : (countIssue c q b).fc = c.fc ∧ (countIssue c q b).seq = c.seq ∧
    (countIssue c q b).vec = c.vec ∧ (countIssue c q b).h = c.h ∧ (countIssue c q b).sp = c.sp ∧
    (countIssue c q b).cn.cnt = c.cn.cnt ∧ (countIssue c q b).cn.chart = c.cn.chart ∧ (countIssue c q b).msgs = c.msgs ∧
    (countIssue c q b).life = c.life ∧ (countIssue c q b).trap = c.trap ∧ (countIssue c q b).cn.k = c.cn.k ∧
    (countIssue c q b).sys = c.sys ∧ (countIssue c q b).mx = c.mx ∧ (countIssue c q b).land = c.land ∧
    (countIssue c q b).cmds = c.cmds ∧ (countIssue c q b).latch = c.latch ∧ (countIssue c q b).nfree = c.nfree := by
  unfold countIssue; cases b <;> simp [countEv]

theorem setQueue_queue (c : Core) (q k : Nat) (x : EQueue) (hq : q < 4) (hk : k < 4) :
    (c.setQueue q x).queue k = if k = q then x else c.queue k := by
  have h1 : q = 0 ∨ q = 1 ∨ q = 2 ∨ q = 3 := by omega
  have h2 : k = 0 ∨ k = 1 ∨ k = 2 ∨ k = 3 := by omega
  rcases h1 with rfl | rfl | rfl | rfl <;> rcases h2 with rfl | rfl | rfl | rfl <;> rfl

theorem setQueue_keeps (c : Core) (q : Nat) (x : EQueue) (hq : q < 4) : (c.setQueue q x).fc = c.fc ∧ (c.setQueue q x).seq = c.seq ∧
    (c.setQueue q x).vec = c.vec ∧ (c.setQueue q x).h = c.h ∧ (c.setQueue q x).sp = c.sp ∧ (c.setQueue q x).cn = c.cn ∧
    (c.setQueue q x).task = c.task ∧ (c.setQueue q x).msgs = c.msgs ∧ (c.setQueue q x).life = c.life ∧
    (c.setQueue q x).trap = c.trap ∧ (c.setQueue q x).sys = c.sys ∧ (c.setQueue q x).mx = c.mx ∧ (c.setQueue q x).land = c.land ∧
    (c.setQueue q x).cmds = c.cmds ∧ (c.setQueue q x).latch = c.latch ∧ (c.setQueue q x).nfree = c.nfree := by
  have h1 : q = 0 ∨ q = 1 ∨ q = 2 ∨ q = 3 := by omega
  rcases h1 with rfl | rfl | rfl | rfl <;>
    exact ⟨rfl, rfl, rfl, rfl, rfl, rfl, rfl, rfl, rfl, rfl, rfl, rfl, rfl, rfl, rfl, rfl⟩

/-- The latched entry at the head of its queue issues. -/
theorem popIssued_issued (c : Core) (q : Nat) (hq : q < 4) (h : Issuing c q) :
    IssuedQuiet c (popIssued c q) q ∧ (popIssued c q).land = c.land ∧ (popIssued c q).cmds = c.cmds ∧
    (popIssued c q).latch = c.latch ∧ (popIssued c q).mx = c.mx ∧ (popIssued c q).nfree = c.nfree := by
  obtain ⟨t, ht⟩ : ∃ t, (c.queue q).ents = c.latch :: t := by
    have := h.head
    cases e : (c.queue q).ents with
    | nil => simp [e] at this
    | cons a t => simp [e] at this; exact ⟨t, by rw [this]⟩
  have hp : popIssued c q = countIssue (c.setQueue q { c.queue q with ents := t, last := some c.fc, bwait := false }) q
      (slipped (c.queue q) c.latch) := by
    simp [popIssued, ht]
  rw [hp]
  obtain ⟨a1, a2, a3, a4, a5, a6, a7, a8, a9, a10, a11, a12, a13, a14, a15, a16, a17⟩ := countIssue_keeps
    (c.setQueue q { c.queue q with ents := t, last := some c.fc, bwait := false }) q (slipped (c.queue q) c.latch)
  obtain ⟨b1, b2, b3, b4, b5, b6, b7, b8, b9, b10, b11, b12, b13, b14, b15, b16⟩ := setQueue_keeps c q
    { c.queue q with ents := t, last := some c.fc, bwait := false } hq
  refine ⟨⟨⟨?_, ?_, ?_, ?_, ?_, ?_, ?_, ?_, ?_, ?_, ?_, ?_, ?_, ?_, ?_⟩, ?_, ?_, ?_, ?_, ?_⟩, ?_, ?_, ?_, ?_, ?_⟩
  · rw [countIssue_queue, setQueue_queue _ _ _ _ hq hq, if_pos rfl, ht]; rfl
  · rw [countIssue_queue, setQueue_queue _ _ _ _ hq hq, if_pos rfl]
  · rw [countIssue_queue, setQueue_queue _ _ _ _ hq hq, if_pos rfl]
  · intro k hk hne; rw [countIssue_queue, setQueue_queue _ _ _ _ hq hk, if_neg hne]
  · rw [countIssue_w, b7]
  · rw [a1, b1]
  · rw [a2, b2]
  · rw [a3, b3]
  · rw [a4, b4]
  · rw [a5, b5]
  · rw [a6, b6]
  · rw [a7, b6]
  · rw [a8, b8]
  · rw [a9, b9]
  · rw [a10, b10]
  · rw [a11, b6]
  · rw [a12, b11]
  · rw [a13, b12]
  · rw [a13, b12]
  · rw [a13, b12]
  · rw [a14, b13]
  · rw [a15, b14]
  · rw [a16, b15]
  · rw [a13, b12]
  · rw [a17, b16]

theorem landAt_issued (a c : Core) (q : Nat) (e : QEntry) (lat : Nat) (act : Act) (h : IssuedQuiet a c q) :
    IssuedQuiet a (landAt c q e lat act) q :=
  ⟨⟨h.ents, h.last, h.next, h.others, h.w, h.fc, h.seq, h.vec, h.h, h.sp, h.cnt, h.chart, h.msgs, h.life, h.trap⟩, h.k, h.sys,
    h.tiles, h.g, h.mxevt⟩

@[simp] theorem me_setCore_cur (s : State) (c : Core) : (s.setCore s.cur c).me = c := by
  simp [State.me]

/-- A word whose effect is one landing. -/
theorem landsSome_of (i : Instr) (s : State) (q lat : Nat) (hq : q < 4) (P : Act → Prop) (f : Core → QEntry → IssueRes) (act : Act)
    (hx : exec i s = engineIssue q s f)
    (hf : Issuing s.me q → ∀ c : Core, c.vec = s.me.vec → c.mx = s.me.mx → f c s.me.latch = .done (landAt c q s.me.latch lat act)) (hP : P act) :
    LandsSome i s q lat P := by
  intro h
  obtain ⟨hi, hl, hc, -, hm, -⟩ := popIssued_issued s.me q hq h
  have he := hf h (popIssued s.me q) hi.vec hm
  refine ⟨s.setCore s.cur (landAt (popIssued s.me q) q s.me.latch lat act), ?_, act, hP, ?_, ?_, ?_, keepsRest_setCore_cur s _⟩
  · rw [hx, engineIssue, he]
  · rw [me_setCore_cur, landAt, hl, hi.fc]
  · rw [me_setCore_cur, landAt]; exact hc
  · rw [me_setCore_cur]; exact landAt_issued _ _ _ _ _ _ hi

/-- What a lane-wise word lands (R133, R138): `laneWord` with the sources that `useA`, `useB` and `useD` name. -/
theorem landsLanes_of_laneWord (i : Instr) (s : State) (w lat : Nat) (hw : w = 1 ∨ w = 2 ∨ w = 4) (useA useB useD : Bool)
    (f : Nat → Nat → Nat → Nat) (vd va vb : BitVec 10) (pg : BitVec 4) (hx : exec i s = laneWord w lat useA useB useD f vd va vb pg s) :
    LandsLanes i s w lat vd pg
      (fun j => f (if useA then laneOf w (vreg s.me va).bits j else 0) (if useB then laneOf w (vreg s.me vb).bits j else 0)
        (if useD then laneOf w (vreg s.me vd).bits j else 0))
      fun j => maxCodes ((if useA then [codeAt (vreg s.me va).codes (w * j / 128)] else []) ++
        (if useB then [codeAt (vreg s.me vb).codes (w * j / 128)] else []) ++
        (if useD then [codeAt (vreg s.me vd).codes (w * j / 128)] else [])) := by
  have hw0 : 0 < w := by omega
  have hlane : ∀ j, j < 1024 / w → 8 * w * (j + 1) ≤ 8192 := by
    intro j hj; rcases hw with rfl | rfl | rfl <;> omega
  have hz : ∀ j, j < 1024 / w → laneOf w VReg.zero.bits j = 0 := by
    intro j _; simp [laneOf, VReg.zero]
  let p := preg s.me pg
  let act := laneBits w p.bits
  let a := if useA then vreg s.me va else VReg.zero
  let b := if useB then vreg s.me vb else VReg.zero
  let d := if useD then vreg s.me vd else VReg.zero
  let srcs := (if useA then [a.codes] else []) ++ (if useB then [b.codes] else []) ++ (if useD then [d.codes] else [])
  have hm : ∀ b, b < 1024 → (laneMask w act).getLsbD b = p.bits.getLsbD (w * (b / w)) := by
    intro b hb
    rw [laneMask_getLsbD w _ b hw0 hb]
    exact laneBits_getD w p.bits (b / w) hw0 (by rcases hw with rfl | rfl | rfl <;> omega)
  refine landsSome_of i s 1 lat (by omega) _ _
    (.vec vd (ofLanes w (mapLanes f act (lanesOf w a.bits) (lanesOf w b.bits) (lanesOf w d.bits))) (laneMask w act) 255
      (srcCodes p (laneMask w act) srcs) true) hx ?_ ⟨_, _, _, rfl, ?_, hm, ?_⟩
  · intro h c hv _
    have hvb : c.vec.vbad = [] := by rw [hv]; exact h.vbad
    have hpb : c.vec.pbad = [] := by rw [hv]; exact h.pbad
    have hr : ∀ n, vreg c n = vreg s.me n := by intro n; simp [vreg, hv]
    have hpr : preg c pg = preg s.me pg := by simp [preg, hv]
    cases useA <;> cases useB <;> cases useD <;> simp [readP_clean _ _ hpb, readV_clean _ _ _ hvb, hr, hpr, a, b, d, srcs, p, act]
  · intro j hj hp
    have hj' := lanesOf_length w
    rw [laneOf_ofLanes w _ j (hlane j hj), mapLanes_getD f act _ _ _ j (by rw [hj']; exact hj) (by rw [hj']; exact hj)
      (by rw [hj']; exact hj) (by rw [laneBits_getD w p.bits j hw0 hj]; exact hp),
      lanesOf_getD _ _ _ _ hj, lanesOf_getD _ _ _ _ hj, lanesOf_getD _ _ _ _ hj]
    cases useA <;> cases useB <;> cases useD <;> simp [a, b, d, hz j hj]
  · intro j hj
    apply srcCodes_seg w hw p _ hm srcs _ ?_ j hj
    intro j hj i hi
    have e : w * (128 / w * j + i) / 128 = j := by rcases hw with rfl | rfl | rfl <;> omega
    simp only [e]
    cases useA <;> cases useB <;> cases useD <;> simp [srcs, a, b, d]

end Sys2Proof.Machine
end

