-- ==== Sys2Proof/Laws/Loops.lean ====
section
/-! SUPPORT. The loop stack and the chart's snapshots (R122 to R126, R418): what reading them gives after each operation. -/

namespace Sys2Proof.Machine

theorem lstk_setLstk (c : Core) (j k : Nat) (e : BitVec 128) :
    lstk (setLstk c j e) k = if k = j then e else lstk c k := by
  simp [lstk, setLstk, eq_comm]

/-! The fields of an entry made of its fields. -/

section
variable (cnt pc : BitVec 32) (nr : BitVec 7) (norot valid : BitVec 1) (vrb : BitVec 10) (prb : BitVec 3)
@[simp] theorem lpCnt_lpMake : lpCnt (lpMake cnt nr norot vrb prb valid pc) = cnt := by
  apply BitVec.eq_of_getLsbD_eq; intro i hi
  simp only [lpMake, lpCnt, BitVec.getLsbD_extractLsb', BitVec.getLsbD_append, hi, decide_true, Bool.true_and]
  rw [if_pos (by omega)]
  congr 1; omega
@[simp] theorem lpNr_lpMake : lpNr (lpMake cnt nr norot vrb prb valid pc) = nr := by
  apply BitVec.eq_of_getLsbD_eq; intro i hi
  simp only [lpMake, lpNr, BitVec.getLsbD_extractLsb', BitVec.getLsbD_append, hi, decide_true, Bool.true_and]
  repeat (first | rw [if_pos (by omega)] | rw [if_neg (by omega)])
  congr 1; omega
@[simp] theorem lpNorot_lpMake : lpNorot (lpMake cnt nr norot vrb prb valid pc) = norot := by
  apply BitVec.eq_of_getLsbD_eq; intro i hi
  simp only [lpMake, lpNorot, BitVec.getLsbD_extractLsb', BitVec.getLsbD_append, hi, decide_true, Bool.true_and]
  repeat (first | rw [if_pos (by omega)] | rw [if_neg (by omega)])
  congr 1; omega
@[simp] theorem lpVrb_lpMake : lpVrb (lpMake cnt nr norot vrb prb valid pc) = vrb := by
  apply BitVec.eq_of_getLsbD_eq; intro i hi
  simp only [lpMake, lpVrb, BitVec.getLsbD_extractLsb', BitVec.getLsbD_append, hi, decide_true, Bool.true_and]
  repeat (first | rw [if_pos (by omega)] | rw [if_neg (by omega)])
  congr 1; omega
@[simp] theorem lpPrb_lpMake : lpPrb (lpMake cnt nr norot vrb prb valid pc) = prb := by
  apply BitVec.eq_of_getLsbD_eq; intro i hi
  simp only [lpMake, lpPrb, BitVec.getLsbD_extractLsb', BitVec.getLsbD_append, hi, decide_true, Bool.true_and]
  repeat (first | rw [if_pos (by omega)] | rw [if_neg (by omega)])
  congr 1; omega
@[simp] theorem lpValid_lpMake : lpValid (lpMake cnt nr norot vrb prb valid pc) = valid := by
  apply BitVec.eq_of_getLsbD_eq; intro i hi
  simp only [lpMake, lpValid, BitVec.getLsbD_extractLsb', BitVec.getLsbD_append, hi, decide_true, Bool.true_and]
  repeat (first | rw [if_pos (by omega)] | rw [if_neg (by omega)])
  congr 1; omega
@[simp] theorem lpPc_lpMake : lpPc (lpMake cnt nr norot vrb prb valid pc) = pc := by
  apply BitVec.eq_of_getLsbD_eq; intro i hi
  simp only [lpMake, lpPc, BitVec.getLsbD_extractLsb', BitVec.getLsbD_append, hi, decide_true, Bool.true_and]
  repeat (first | rw [if_pos (by omega)] | rw [if_neg (by omega)])
  congr 1; omega
end

@[simp] theorem lstk_retire (c : Core) (x y k : Nat) : lstk (retire c x y) k = lstk c k := rfl
@[simp] theorem lstk_stepPc (c : Core) (k : Nat) : lstk (stepPc c) k = lstk c k := rfl
@[simp] theorem lstk_setPc (c : Core) (p : BitVec 32) (k : Nat) : lstk (setPc c p) k = lstk c k := rfl
@[simp] theorem lstk_takeSnapshot (c : Core) (t : Nat) (p : BitVec 32) (k : Nat) : lstk (takeSnapshot c t p) k = lstk c k := by
  simp only [takeSnapshot]; split <;> rfl

@[simp] theorem snapWord_retire (c : Core) (x y h k : Nat) : snapWord (retire c x y) h k = snapWord c h k := rfl
@[simp] theorem snapWord_stepPc (c : Core) (h k : Nat) : snapWord (stepPc c) h k = snapWord c h k := rfl
@[simp] theorem snapWord_setLstk (c : Core) (j h k : Nat) (e : BitVec 128) :
    snapWord (setLstk c j e) h k = snapWord c h k := rfl

/-- Widening each cell widens what is read. -/
theorem mapGet_widen (m : Map (BitVec 32)) (k : Nat) :
    mapGet (0 : BitVec 64) (m.map fun (k, v) => (k, v.setWidth 64)) k = (mapGet (0 : BitVec 32) m k).setWidth 64 := by
  induction m with
  | nil => simp
  | cons a t ih => obtain ⟨j, v⟩ := a; simp only [List.map, mapGet_cons]; split <;> simp_all

/-- The half that the snapshot writes holds the cells and the three header words. -/
theorem snapWord_written (c : Core) (t : Nat) (p : BitVec 32) (k : Nat) :
    snapWord (takeSnapshot c t p) (c.cn.snapN % 2) k =
      if k = 1024 then BitVec.ofNat 64 (c.cn.snapN + 1) else if k = 1025 then p.setWidth 64
      else if k = 1026 then BitVec.ofNat 64 t else (mapGet 0 c.cn.chart k).setWidth 64 := by
  have h2 : c.cn.snapN % 2 = 0 ∨ c.cn.snapN % 2 = 1 := by omega
  rcases h2 with h | h <;>
  · simp only [takeSnapshot, snapWord, h, if_true, if_false, Nat.one_ne_zero, mapGet_mapSet, mapGet_widen]
    by_cases h1 : k = 1026
    · simp [h1]
    · by_cases h3 : k = 1025
      · simp [h3]
      · by_cases h4 : k = 1024
        · simp [h4]
        · simp [h1, h3, h4]

/-- The other half stays. -/
theorem snapWord_other (c : Core) (t : Nat) (p : BitVec 32) (k : Nat) :
    snapWord (takeSnapshot c t p) (1 - c.cn.snapN % 2) k = snapWord c (1 - c.cn.snapN % 2) k := by
  have h2 : c.cn.snapN % 2 = 0 ∨ c.cn.snapN % 2 = 1 := by omega
  rcases h2 with h | h <;> simp [takeSnapshot, snapWord, h]

end Sys2Proof.Machine
end

