-- ==== Sys2Proof/Tests/Slice0.lean ====
section
/-! SUPPORT. The model's own tests: words written out from the spec's tables of encodings, ill-formed terms, single steps of
small states, and for each statement of Certificates/Slice0/Obligations.lean states and operands that meet its hypotheses. -/

namespace Sys2Proof.Tests

open Sys2Proof.Machine

set_option Elab.async false

/-- A machine whose core 0 is `f` of the core at reset. -/
def at0 (f : Core → Core) : State := { State.reset with cores := [(0, f Core.reset)] }

/-- A core with scalar registers s1, s2 and s3. -/
def regs (a b c : Word) (x : Core) : Core := setS (setS (setS x 1 a) 2 b) 3 c

/-- A core whose code window begins at byte 0 and holds the word `w` at word 0. -/
def word0 (w : Nat) (x : Core) : Core :=
  { x with sys := { x.sys with codesize := 1 }, sp := { x.sp with bytes := memWriteNat [] 0 6 w } }

/-! Words of the spec's tables of encoded words (03 R94, 04 R106 to R127, and the home chapters), with the fields given there. -/

theorem test_decode_scalar_words : decode 0x000304200003#48 = .ok (.add ⟨3, 1, 2, 3⟩) ∧
    decode 0x1007F6000018#48 = .ok (.ld ⟨7, 61, 2, 24⟩) ∧ decode 0x10C900000003#48 = .ok (.li ⟨9, 3⟩) ∧
    decode 0x230024001002#48 = .ok (.loop ⟨9, 4, 0, 2⟩) ∧ decode 0x234003FFFFFD#48 = .ok (.loopb ⟨0x3FFFFFD⟩) ∧
    decode 0x238800000014#48 = .ok (.pchk ⟨4, 0, 20⟩) := by decide +kernel

theorem test_decode_system_words : decode 0x304024080000#48 = .ok (.csrw ⟨9, 0x020⟩) ∧
    decode 0x300A00088000#48 = .ok (.csrr ⟨10, 0x022⟩) ∧ decode 0x328000000000#48 = .ok .nop ∧
    decode 0x318000000003#48 = .ok (.fence ⟨3⟩) ∧ decode 0x31C900000001#48 = .ok (.qsync ⟨9, 1⟩) ∧
    decode 0x31C928000006#48 = .ok (.qsyncUpto ⟨9, 10, 2⟩) ∧ decode 0x340C00000001#48 = .ok (.mrecv ⟨12, 0, 1⟩) ∧
    decode 0x344D00000000#48 = .ok (.mpeek ⟨13⟩) ∧ decode 0x350050000000#48 = .ok (.tspawn ⟨20⟩) ∧
    decode 0x358000000000#48 = .ok .texit ∧ decode 0x35C024000000#48 = .ok (.trem ⟨9⟩) ∧
    decode 0x3600000001C0#48 = .ok (.live ⟨0, 0x1C0⟩) ∧ decode 0x370024A00002#48 = .ok (.sinit ⟨9, 10, 2⟩) ∧
    decode 0x374B00000002#48 = .ok (.sget ⟨11, 2⟩) ∧ decode 0x3040240DC000#48 = .ok .replySpoolWrite := by decide +kernel

theorem test_decode_handle_and_stream_words : decode 0x4088324A0001#48 = .ok (.hnarrow ⟨4, 3, 9, 10, 1⟩) ∧
    decode 0x40C840000006#48 = .ok (.hdrop ⟨4, 4, 6⟩) ∧ decode 0x420605000040#48 = .ok (.gcfg ⟨3, 20, 64⟩) ∧
    decode 0x42460240000D#48 = .ok (.gset ⟨3, 9, 13⟩) ∧ decode 0x430A024A0004#48 = .ok (.lset ⟨5, 9, 10, 1, 0⟩) := by decide +kernel

theorem test_decode_vector_words : decode 0x53D4000080B0#48 = .ok (.vfnmaF32 ⟨5, 0, 2, 11, 0⟩) ∧
    decode 0x59C508414000#48 = .ok (.vexp2F32 ⟨1, 264, 261, 0⟩) ∧ decode 0x63048901C080#48 = .ok (.vcmpF32 ⟨1, 2, 9, 7, 8, 0⟩) ∧
    decode 0x64440A024020#48 = .ok (.vplog ⟨1, 0, 10, 9, 2⟩) ∧ decode 0x720403001430#48 = .ok (.vld ⟨1, 3, 20, 3, 0⟩) ∧
    decode 0x740C28050910#48 = .ok (.vcvt ⟨3, 40, 20, 9, 0, 1, 0⟩) ∧ decode 0x7644320CC009#48 = .ok (.vrmax ⟨1, 50, 51, 0, 9⟩) ∧
    decode 0x78043C0F4C00#48 = .ok (.vatom ⟨1, 60, 61, 12, 0, 0⟩) ∧ decode 0x71A011040B00#48 = .ok (.vrotl ⟨8, 17, 16, 11, 0, 0⟩) ∧
    decode 0x70440A000B00#48 = .ok (.vbcast ⟨1, 10, 11, 0, 0⟩) := by decide +kernel

theorem test_decode_tile_and_copy_words : decode 0x800481020000#48 = .ok (.tcfg ⟨1, 1, 1, 1, 0⟩) ∧
    decode 0x80C498000000#48 = .ok (.tdrain ⟨1, 1, 6, 0⟩) ∧ decode 0x81079D600700#48 = .ok (.mma ⟨1, 7, 7, 11, 3, 1, 0, 0, 0, 0⟩) ∧
    decode 0x90444628C000#48 = .ok (.cpout ⟨1, 2, 6, 10, 3, 0, 0⟩) ∧ decode 0x90082431400D#48 = .ok (.cpin ⟨2, 1, 4, 12, 5, 3, 1⟩) ∧
    decode 0x90042E580006#48 = .ok (.cpin ⟨1, 1, 14, 22, 0, 1, 2⟩) := by decide +kernel

theorem test_decode_link_words : decode 0xA0040A2A6623#48 = .ok (.msend ⟨1, 20, 21, 3, 1, 2, 1, 3⟩) ∧
    decode 0xA04465164F20#48 = .ok (.amo ⟨1, 3, 10, 11, 2, 3, 3, 0, 1, 0, 0⟩) ∧
    decode 0xA04485160E09#48 = .ok (.amo ⟨1, 4, 10, 11, 0, 3, 2, 0, 0, 0, 9⟩) ∧
    decode 0xA08465184F00#48 = .ok (.acas ⟨1, 3, 10, 12, 2, 3, 3, 0⟩) ∧ decode 0xA0C4A71E0E00#48 = .ok (.ared ⟨1, 5, 14, 15, 0, 3, 2, 0, 0, 0⟩) ∧
    decode 0xA204C7007240#48 = .ok (.csend ⟨1, 6, 14, 3, 4, 2, 1⟩) ∧ decode 0xA244E7809140#48 = .ok (.crecv ⟨1, 7, 15, 4, 4, 1, 1⟩) ∧
    decode 0xA28404943040#48 = .ok (.cagree ⟨1, 9, 10, 1, 4, 0, 1, 0⟩) ∧ decode 0xA2C404965047#48 = .ok (.credx ⟨1, 9, 11, 2, 4, 0, 1, 7⟩) ∧
    decode 0xA30404981300#48 = .ok (.cbar ⟨1, 9, 12, 0, 4, 3, 0⟩) := by decide +kernel

theorem test_decode_queue_and_recovery_words : decode 0xB04620001000#48 = .ok (.spost ⟨1, 2, 2, 1⟩) ∧
    decode 0xB04530002001#48 = .ok (.spostSub ⟨1, 1, 3, 2⟩) ∧ decode 0xB0850000001A#48 = .ok (.bar ⟨1, 1, 1, 0xA⟩) ∧
    decode 0xB0C600002001#48 = .ok (.waitc ⟨1, 2, 2, 1⟩) ∧ decode 0xB10400000001#48 = .ok (.qmark ⟨1, 0, 1⟩) ∧
    decode 0xC00900000000#48 = .ok (.rrel ⟨9⟩) ∧ decode 0xC04A00000001#48 = .ok (.rpget ⟨10, 1⟩) ∧
    decode 0xC08B00000000#48 = .ok (.rstat ⟨11⟩) ∧ decode 0xC24C00000000#48 = .ok (.rollcall ⟨12⟩) ∧
    decode 0xC28E00000014#48 = .ok (.cntr ⟨14, 0, 0, 1, 4⟩) ∧ decode 0xC28F24000040#48 = .ok (.cntr ⟨15, 9, 0, 4, 0⟩) ∧
    decode 0xC2C024000014#48 = .ok (.cntwCfg ⟨9, 4⟩) := by decide +kernel

/-- Ill-formed terms, one for each check, and words whose reserved field or code decode refuses (R80 to R82). -/
theorem test_reserved_codes_refused :
    ([.add ⟨0, 0, 0, 0⟩, .fcvt ⟨1, 2, 0, 5, 0, 0⟩, .fcvt ⟨1, 2, 0, 0, 14, 0⟩, .loop ⟨1, 0, 0, 0⟩, .loop ⟨1, 4, 0, 97⟩, .loop ⟨1, 4, 1, 1⟩,
      .csrr ⟨1, 0x00C⟩, .csrw ⟨1, 0x010⟩, .csrs ⟨1, 0x060⟩, .csrc ⟨1, 0x037⟩, .fence ⟨6⟩, .rdcyc ⟨1, 3⟩, .hnarrowRange ⟨1, 1, 1, 1, 3, 0⟩,
      .hfield ⟨1, 1, 22⟩, .gset ⟨1, 1, 17⟩, .grd ⟨1, 1, 17⟩, .cntr ⟨1, 1, 0, 0, 0⟩, .cntr ⟨1, 0, 0, 8, 0⟩, .vcmpF32 ⟨1, 12, 0, 0, 0, 0⟩,
      .vicmp ⟨1, 12, 0, 0, 0, 0⟩, .vplog ⟨1, 12, 0, 0, 0⟩, .vplog ⟨1, 8, 0, 1, 1⟩, .vplog ⟨1, 10, 0, 1, 0⟩, .vbcast ⟨1, 0, 0, 3, 0⟩,
      .vins ⟨1, 0, 63, 0, 0⟩, .vextr ⟨1, 0, 0, 0, 0, 3⟩, .vrotl ⟨1, 0, 0, 0, 3, 0⟩, .vlds ⟨1, 0, 63, 0⟩, .vsts ⟨1, 0, 63, 0⟩,
      .vatom ⟨1, 0, 0, 0, 10, 0⟩, .vpget ⟨1, 0, 16, 1⟩, .vclamp ⟨1, 0, 0, 0, 3, 0, 0⟩, .vclamp ⟨1, 0, 0, 0, 0, 3, 0⟩,
      .cpin ⟨1, 0, 0, 63, 0, 0, 0⟩, .cpout ⟨1, 0, 0, 0, 1, 0, 2⟩, .cpmap ⟨1, 0, 0, 0, 0, 0, 3⟩, .cpset ⟨1, 0, 0, 62, 0, 0, 0⟩,
      .msend ⟨1, 0, 0, 0, 6, 0, 0, 0⟩, .msend ⟨1, 0, 0, 1, 0, 0, 0, 0⟩, .amo ⟨1, 0, 0, 0, 0, 0, 0, 0, 0, 0, 10⟩,
      .amo ⟨1, 0, 0, 0, 0, 0, 0, 1, 1, 0, 0⟩, .acas ⟨1, 0, 0, 63, 0, 0, 0, 0⟩, .ared ⟨1, 0, 0, 0, 0, 7, 0, 0, 0, 0⟩,
      .csend ⟨1, 0, 0, 1, 3, 0, 0⟩, .crecv ⟨1, 0, 0, 0, 6, 0, 0⟩, .cagree ⟨1, 0, 0, 1, 3, 0, 0, 0⟩, .credx ⟨1, 0, 0, 0, 7, 0, 0, 0⟩,
      .cbar ⟨1, 0, 0, 1, 3, 0, 0⟩] : List Instr).all (fun i => !reservedOk i) = true := by decide +kernel

theorem test_operands_refused :
    ([.bfx ⟨1, 2, 63, 1⟩, .bfi ⟨1, 2, 3, 32, 32⟩, .fcvt ⟨1, 2, 0, 0, 10, 0⟩, .fence ⟨5⟩, .vcmpF32 ⟨1, 8, 0, 0, 0, 0⟩,
      .vicmp ⟨1, 6, 0, 0, 0, 0⟩, .cpout ⟨1, 0, 0, 0, 0, 0, 1⟩, .cpset ⟨1, 0, 0, 0, 0, 0, 1⟩, .cpmap ⟨1, 0, 0, 0, 0, 0, 1⟩,
      .msend ⟨1, 0, 0, 0, 5, 0, 0, 0⟩, .msend ⟨1, 0, 0, 0, 1, 1, 0, 0⟩, .amo ⟨1, 0, 0, 0, 0, 0, 3, 0, 0, 0, 0⟩,
      .amo ⟨1, 0, 0, 0, 0, 0, 0, 0, 1, 1, 1⟩, .acas ⟨1, 0, 0, 0, 0, 5, 0, 0⟩, .ared ⟨1, 0, 0, 0, 0, 0, 0, 0, 0, 9⟩,
      .csend ⟨1, 0, 0, 0, 2, 0, 0⟩, .crecv ⟨1, 0, 0, 0, 3, 2, 0⟩, .cagree ⟨1, 0, 0, 0, 0, 0, 0, 0⟩, .credx ⟨1, 0, 0, 0, 5, 0, 0, 0⟩,
      .cbar ⟨1, 0, 0, 0, 1, 0, 0⟩, .bar ⟨1, 1, 0, 0xD⟩] : List Instr).all (fun i => reservedOk i && !operandOk i) = true := by decide +kernel

theorem test_words_refused : decode 0x000304200008#48 = .illegal 3 ∧ decode 0x07C000000000#48 = .illegal 2 ∧
    decode 0xE00000000000#48 = .illegal 1 ∧ decode 0x0#48 = .illegal 0 ∧ decode 0x310400000007#48 = .illegal 3 := by decide +kernel

/-! Hypotheses of the statements about scalar, system, handle, stream and counter words: each clause with states and operands
that meet them. -/

/-- Scalar words: fields that end at bit 63 and beyond it, formats, addresses at the end of the scratchpad, misaligned, beyond it
and in another tenant's line. -/
theorem witness_scalar_words :
    (∃ o : BfxOp, o.pos.toNat + (o.wm1.toNat + 1) = 64) ∧ (encode (.bfx ⟨1, 2, 63, 1⟩)).isSome = true ∧ 64 < 1 + (63 + 1) ∧
    (encode (.bfi ⟨1, 2, 3, 32, 32⟩)).isSome = true ∧
    ((fmtOfCode 9).isSome = true ∧ (fmtOfCode 0).isSome = true ∧ (rmodeOfCode 4).isSome = true) ∧
    (reservedOk (.fcvt ⟨1, 2, 0, 0, 10, 9⟩) = true ∧ (encode (.fcvt ⟨1, 2, 0, 0, 10, 9⟩)).isSome = true) ∧
    (let s := at0 (regs 0x7FFFF8 0x800000 0x7FFFF9);
      (getS s.me 1).toNat < 2 ^ 23 ∧ (getS s.me 1).toNat % 8 = 0 ∧
      mapGet s.me.sp.tagDef s.me.sp.tag (0x7FFFF8 / 128) = s.me.sys.tenant ∧ mapHas s.me.sp.erace (0x7FFFF8 / 8) = false ∧
      mapGet false s.me.sp.dbe (0x7FFFF8 / 8) = false ∧ 2 ^ 23 ≤ (getS s.me 2).toNat ∧ (getS s.me 3).toNat < 2 ^ 23 ∧
      (getS s.me 3).toNat % 2 ≠ 0) ∧
    (let s := at0 fun c => { c with sys := { c.sys with tenant := 3 } };
      mapGet s.me.sp.tagDef s.me.sp.tag 0 ≠ s.me.sys.tenant) := by
  refine ⟨⟨⟨1, 2, 62, 1⟩, by decide⟩, ?_⟩
  decide +kernel

/-- Branches and jumps, taken and not; loops with room, count zero and not, on the last round and before it, with a rotating
region and without; a full stack, and none open. -/
theorem witness_branches_and_loops :
    (let s := at0 (regs 1 0xFFFFFFFFFFFFFFFF 1);
      getS s.me 1 = getS s.me 3 ∧ getS s.me 1 ≠ getS s.me 2 ∧ (getS s.me 2).toInt < (getS s.me 1).toInt ∧
      (getS s.me 1).toNat < (getS s.me 2).toNat ∧ lpValid (lstk s.me 3) = 0 ∧ lpValid (lstk s.me 0) = 0 ∧
      (getS s.me 4).setWidth 32 = (0 : BitVec 32) ∧ (getS s.me 1).setWidth 32 ≠ (0 : BitVec 32)) ∧
    (∃ s : State, lpValid (lstk s.me 0) = 1 ∧ 1 < (lpCnt (lstk s.me 0)).toNat ∧ lpNorot (lstk s.me 0) = 0 ∧ lpNr (lstk s.me 0) ≠ 0) ∧
    (∃ s : State, lpValid (lstk s.me 0) = 1 ∧ 1 < (lpCnt (lstk s.me 0)).toNat ∧ lpNorot (lstk s.me 0) = 1 ∧ lpNr (lstk s.me 0) = 0) ∧
    (∃ s : State, lpValid (lstk s.me 0) = 1 ∧ (lpCnt (lstk s.me 0)).toNat ≤ 1) ∧
    (∃ s : State, lpValid (lstk s.me 3) = 1) ∧
    decode 0x234004000000#48 = .ok .loopbBreak ∧ decode 0x234004000001#48 = .illegal 3 ∧ decode 0x234100000001#48 = .illegal 3 ∧
    (encode (.loop ⟨1, 4, 0, 2⟩)).isSome ∧ (encode (.loopb ⟨4⟩)).isSome ∧ (encode .loopbBreak).isSome := by
  refine ⟨by decide +kernel, ⟨at0 fun c => setLstk c 0 (lpMake 2 2 0 0 0 1 0), ?_⟩, ⟨at0 fun c => setLstk c 0 (lpMake 2 0 1 0 0 1 0), ?_⟩,
    ⟨at0 fun c => setLstk c 0 (lpMake 1 2 0 0 0 1 0), ?_⟩, ⟨at0 fun c => setLstk c 3 (lpMake 1 2 0 0 0 1 0), ?_⟩, ?_⟩ <;>
    decide +kernel

/-- System words: a number that no task may write, the words with rows of their own at the PC, a handler and none. -/
theorem witness_system_words :
    ((encode (.csrw ⟨1, 0x002⟩)).isSome = true ∧ (encode (.csrs ⟨1, 0x029⟩)).isSome = true ∧ (encode (.csrc ⟨1, 0x05F⟩)).isSome = true) ∧
    (∃ s : State, csrAtPc s = (.write, 1, 0x010) ∧ s.me.sys.inh = false ∧ s.me.trap = none ∧ s.me.seq.wait = none) ∧
    (∃ s : State, csrAtPc s = (.write, 1, 0x031) ∧ s.me.sys.inboxProd = s.me.sys.inboxCons ∧ s.me.sys.inboxRes = s.me.sys.inboxProd ∧
      s.me.sys.inboxBase % 128 = 0 ∧ s.me.sys.inboxBase + 128 * ((getS s.me 1).toNat % 2 ^ 17) ≤ 2 ^ 23) ∧
    (∃ s : State, csrAtPc s = (.write, 1, 0x030) ∧ s.me.sys.inboxProd ≠ s.me.sys.inboxCons) ∧
    (∃ s : State, csrAtPc s = (.write, 1, 0x035) ∧ s.me.cmds = []) ∧
    (∃ s : State, csrAtPc s = (.write, 1, 0x034) ∧ ∃ m ∈ s.me.cmds, (∃ o, m.e.i = .acas o) ∨ ∃ o, m.e.i = .amo o ∧ o.ret = 1) ∧
    (∃ s : State, s.me.sys.inh = true) ∧ (encode .eret).isSome = true := by
  refine ⟨by decide +kernel, ⟨at0 (word0 0x304004040000), ?_⟩, ⟨at0 fun c => word0 0x3040040C4000 (regs 0x10000 0 0 c), ?_⟩,
    ⟨at0 fun c => let d := word0 0x3040040C0000 c; { d with sys := { d.sys with inboxProd := 1 } }, ?_⟩,
    ⟨at0 (word0 0x3040040D4000), ?_⟩,
    ⟨at0 fun c => let d := word0 0x3040040D0000 c;
      { d with cmds := [⟨3, { QEntry.none with i := .acas ⟨0, 0, 0, 0, 0, 0, 0, 0⟩ }, 0, true, false, false, [], [], [], 0, 0, none, false, false, 0, 0, 0⟩] },
      by decide +kernel, _, List.mem_cons_self, .inl ⟨_, rfl⟩⟩,
    ⟨at0 fun c => { c with sys := { c.sys with inh := true } }, ?_⟩, by decide +kernel⟩ <;> decide +kernel

/-- A core with one array entry in M, for words that must wait. -/
def busyM : State := at0 fun c => { c with qm := { c.qm with ents := [QEntry.none], running := true } }

/-- Waiting words: nothing to wait for, something to wait for, an event there and not, the end of a wait. -/
theorem witness_sync_words :
    (queueDone (slackDry State.reset.me) 0 = true ∧ queueDoneBefore (slackDry State.reset.me) 3 0 = true ∧
      allDone (slackDry State.reset.me) = true ∧ State.reset.me.seq.psum &&& 0x1E = 0) ∧
    ((encode (.fence ⟨5⟩)).isSome = true) ∧
    (let s := at0 fun c => { c with seq := { c.seq with psum := 4 } };
      s.me.seq.psum &&& (((2#4).setWidth 64) <<< 1) ≠ 0 ∧ allDone (slackDry s.me) = true) ∧
    (let s := at0 fun c => regs 1 0 0 { c with sys := { c.sys with inboxProd := 1 } };
      eventsWord s.me s.time &&& (getS s.me 1 &&& 0xF) ≠ 0) ∧
    (let s := at0 (regs 1 0 0);
      getS s.me 1 &&& 0xF ≠ 0 ∧ eventsWord s.me s.time &&& (getS s.me 1 &&& 0xF) = 0 ∧ s.me.seq.wait = none) ∧
    (busyM.me.seq.wait = none ∧ queueDone (slackDry busyM.me) 0 = false ∧ allDone (slackDry busyM.me) = false) ∧
    (let s := at0 fun c => { c with seq := { c.seq with wait := some (.qsync ⟨1, 2⟩, 0) } };
      s.me.seq.wait = some (.qsync ⟨1, 2⟩, 0) ∧ queueDone (slackDry s.me) 2 = true) := by decide +kernel

/-- Queue and task control: queues flushed and kept, semaphore values at their bounds and beyond them. -/
theorem witness_queue_and_task_control :
    ((State.reset.me.queue 3).bwait = false ∧ (8#4).getLsbD 3 = true ∧ (8#4).getLsbD 0 = false) ∧
    (let s := at0 (regs 0xFFFF 0x10000 0);
      (getS s.me 1).toNat ≤ (getS s.me 1).toNat ∧ (getS s.me 1).toNat < 2 ^ 16 ∧ mapGet 0 s.me.cn.kposts 15 = 0 ∧
      2 ^ 16 ≤ (getS s.me 2).toNat ∧ (getS s.me 3).toNat < (getS s.me 1).toNat) ∧
    (encode (.sinit ⟨1, 2, 15⟩)).isSome = true ∧
    (let k := mapGet Sem.zero State.reset.me.cn.kprev 0;
      k.count < 2 ^ 16 ∧ k.ceil < 2 ^ 16) := by decide +kernel

/-- The record of a handle over 32 FP32 elements at address 0, with the rights `r`, bounds −inf and +inf. -/
def rec1 (r : Nat) : BitVec 512 := BitVec.ofNat 512 (32 * 2 ^ 48 + 0xFF800000 * 2 ^ 280 + 0x7F800000 * 2 ^ 312 + r * 2 ^ 358)

/-- A core with handles h0 valid with all rights, h1 revoked, h2 valid with none, and h3 empty. -/
def hands (c : Core) : Core := { c with h := [(0, ⟨rec1 0xFFF, .valid⟩), (1, ⟨0, .revoked⟩), (2, ⟨rec1 0, .valid⟩)] }

/-- HST and the words that derive handles: the last record of the scratchpad; a view that ends at the extent, and one past it. -/
theorem witness_handle_words :
    let s := at0 (fun c => hands (regs 0x7FFFC0 32 33 c));
    ((getS s.me 1 + (0#16).signExtend 64).toNat + 64 = 2 ^ 23 ∧ (getS s.me 1).toNat % 64 = 0 ∧
      mapGet s.me.sp.tagDef s.me.sp.tag (0x7FFFC0 / 128) = s.me.sys.tenant) ∧
    ((hreg s.me 0).st = .valid ∧ hasRight (hreg s.me 0).bits 6 = true ∧ (hreg s.me 1).st = .revoked ∧ (hreg s.me 2).st = .valid ∧
      hasRight (hreg s.me 2).bits 6 = false ∧ (hreg s.me 3).st = .empty ∧ hasRight (hreg s.me 2).bits 5 = false) ∧
    (hasRight (hreg s.me 0).bits 5 = true ∧ 0 ≤ hRankm1 (hreg s.me 0).bits ∧
      (getS s.me 4).toNat + (getS s.me 2).toNat = hExt (hreg s.me 0).bits 0 ∧ (getS s.me 2).toNat ≠ 0 ∧
      narrowBad (hreg s.me 0).bits 0 0 = false ∧ hExt (hreg s.me 0).bits 0 < (getS s.me 4).toNat + (getS s.me 3).toNat) ∧
    (let s := at0 (fun c => hands (regs 0x3F800000 0x40000000 0 c));
      (getS s.me 1).toNat < 2 ^ 32 ∧ (getS s.me 2).toNat < 2 ^ 32 ∧ fvIsNan (fdecode f32 (getS s.me 1).toNat) = false ∧
      fvIsNan (fdecode f32 (getS s.me 2).toNat) = false ∧ 0 < fvCmp (fdecode f32 (getS s.me 1).toNat) (fdecode f32 (hBlo (hreg s.me 0).bits)) ∧
      fvCmp (fdecode f32 (getS s.me 2).toNat) (fdecode f32 (hBhi (hreg s.me 0).bits)) < 0 ∧
      fvCmp (fdecode f32 (getS s.me 1).toNat) (fdecode f32 (getS s.me 2).toNat) ≤ 0 ∧ hBpol (hreg s.me 0).bits ≤ (3#2).toNat ∧
      ppolRank (hPpol (hreg s.me 0).bits) ≤ ppolRank (2#2).toNat) := by decide +kernel

/-- A stream of one FP32 element. -/
def stream1 : BitVec 256 := BitVec.ofNat 256 (2 ^ 24 + 2 ^ 32 + 2 ^ 122)

/-- Streams: a record that passes the checks, one that fails, values that fit a field and do not; landing slots at their bounds. -/
theorem witness_stream_words :
    (let s := at0 (fun c => { c with sp := { c.sp with bytes := memWriteNat [] 0 32 stream1.toNat } });
      mapGet s.me.sp.tagDef s.me.sp.tag 0 = s.me.sys.tenant ∧
      BitVec.ofNat 256 (memReadNat s.me.sp.bytes 0 32) = stream1 ∧ gCheck stream1 = none ∧ gCheck 0 = some 1) ∧
    (PadClean State.reset.me) ∧
    (let s := at0 (regs 0x7FFFFF 0x800000 0xFFFFFFFFFF800000);
      (gFieldPos 4).2.2 = true ∧ -(2 ^ 23 : Int) = (getS s.me 3).toInt ∧ (getS s.me 1).toInt = 2 ^ 23 - 1 ∧ (getS s.me 2).toInt = 2 ^ 23 ∧
      (gFieldPos 0).2.2 = false ∧ (getS s.me 1).toNat < 2 ^ 23 ∧ 2 ^ 23 ≤ (getS s.me 2).toNat) ∧
    (let s := at0 (regs 0xFFFFF 0xFFFF 0x100000);
      (getS s.me 1).toNat < 2 ^ 20 ∧ (getS s.me 2).toNat < 2 ^ 16 ∧ 2 ^ 20 ≤ (getS s.me 3).toNat ∧
      (encode (.lset ⟨1, 3, 2, 1, 0⟩)).isSome = true) := by
  refine ⟨by decide +kernel, ⟨rfl, fun _ => rfl, rfl, rfl⟩, ?_⟩
  decide +kernel

/-- Counters: the last cells of the chart and of a snapshot and those past them, a counter held and not, the last event code. -/
theorem witness_counter_words :
    let s := at0 (fun c => regs 1023 1026 0x1B { c with cn := { c.cn with claim := 2 } });
    (getS s.me 1).toNat < 1024 ∧ (getS s.me 2).toNat < 1027 ∧ 1024 ≤ (getS s.me 2).toNat ∧ 1027 ≤ (getS (at0 (regs 1027 0 0)).me 1).toNat ∧
    (encode (.cntr ⟨1, 2, 0, 4, 0⟩)).isSome = true ∧ s.me.cn.claim.getLsbD 0 = false ∧ s.me.cn.claim.getLsbD 1 = true ∧
    (getS s.me 3).toNat % 256 < 0x1C ∧ 0x1C ≤ (getS (at0 (regs 0x1C 0 0)).me 1).toNat % 256 ∧
    (encode (.cntwCfg ⟨1, 0⟩)).isSome = true := by decide +kernel

/-- The inbox with a message and without; a core in no wait. -/
theorem witness_inbox_words :
    (let s := at0 (fun c => { c with sys := { c.sys with inboxProd := 2, inboxSize := 4 } });
      s.me.sys.inboxProd ≠ s.me.sys.inboxCons ∧ s.me.seq.wait = none ∧ s.me.sys.inboxCons ≤ s.me.sys.inboxProd ∧
      s.me.sys.inboxProd < 2 ^ 32) ∧
    (State.reset.me.sys.inboxProd = State.reset.me.sys.inboxCons ∧ State.reset.me.seq.wait = none ∧
      (encode (.mrecv ⟨1, 1, 1⟩)).isSome = true) := by decide +kernel

/-- A machine whose core 0 stands in the wait `w`, at cycle 5, with the spawned record `r` of its launch. -/
def joining (w : Instr × Nat) (join : Nat) : State :=
  let s := at0 (fun c => regs 7 2 0 { c with seq := { c.seq with wait := some w }, sys := { c.sys with codesize := 1 } })
  { s with
    cyc := 5
    sched := { s.sched with recs := [(1, ⟨0, 7, 0, join, 0, 0, 0, 0, 0, 0, 0, true, 0, false, none, false⟩)], nextRec := 2 } }

/-- Task words: an aligned descriptor, a template that passes its checks, a join that reaches zero and one that does not. -/
theorem witness_task_words :
    (let s := at0 (fun c => { c with sp := { c.sp with bytes := memWriteNat [] 0x1C0 64 0x1234 } });
      PadReach s.me 0x1C0 64 ∧ lineCode s.me (0x1C0 / 128) = 0 ∧
      fieldOf (BitVec.ofNat 512 (memReadNat s.me.sp.bytes 0x1C0 64)) 312 8 = 0 ∧
      fieldOf (BitVec.ofNat 512 (memReadNat s.me.sp.bytes 0x1C0 64)) 384 128 = 0) ∧
    (let x : BitVec 512 := 9#512 <<< 320;
      let s := joining (.tspawn ⟨1⟩, x.toNat * 2 ^ 64 + 5) 2;
      s.me.seq.wait = some (.tspawn ⟨1⟩, x.toNat * 2 ^ 64 + 5) ∧ 5 ≤ s.cyc ∧ templateOk s x = true) ∧
    (let s := joining (.tjoin ⟨1, 2⟩, 5) 2;
      s.me.seq.wait = some (.tjoin ⟨1, 2⟩, 5) ∧ (getS s.me 2).toNat = 2 ∧
      ((s.sched.recs.find? fun e => decide (e.2.lk = s.me.task.launch) && e.2.spawned && decide (e.2.index = (getS s.me 1).toNat)
        && decide (e.2.join ≠ 0)).map fun e => e.2.join) = some 2) ∧
    (let s := joining (.tjoin ⟨1, 2⟩, 5) 3;
      ((s.sched.recs.find? fun e => decide (e.2.lk = s.me.task.launch) && e.2.spawned && decide (e.2.index = (getS s.me 1).toNat)
        && decide (e.2.join ≠ 0)).map fun e => decide ((getS s.me 2).toNat < e.2.join)) = some true) := by
  refine ⟨⟨by unfold PadReach; decide +kernel, ?_⟩, ?_⟩ <;> decide +kernel

/-- A core whose context stands in state `st` of recovery, with PSUM `p`. -/
def inContext (st : Nat) (p : Word) : State :=
  { at0 (fun c => { c with seq := { c.seq with psum := p } }) with ctxs := [(0, { Ctx.off with st := st, members := [0], iv := 1 })] }

/-- Recovery words: no recovery, an open interval, poison in it, a roll call that has latched. -/
theorem witness_recovery_words :
    ((ctxOf State.reset 0).st = 0 ∧ allDone (slackDry State.reset.me) = true) ∧
    (let s := inContext 1 0;
      (ctxOf s s.me.sys.casid).st = 1 ∧ allDone (slackDry s.me) = true ∧ s.me.seq.psum &&& 0x1E = 0 ∧
      (ctxOf s s.me.sys.casid).rel.contains s.cur = false) ∧
    (let s := inContext 2 8;
      (ctxOf s s.me.sys.casid).st ≠ 0 ∧ s.me.seq.wait = none ∧ s.me.seq.psum &&& 0x1E ≠ 0 ∧ s.me.trap = none) ∧
    (let s := at0 (fun c => { c with seq := { c.seq with wait := some (.rollcall ⟨1⟩, 3) } });
      s.me.seq.wait = some (.rollcall ⟨1⟩, 3) ∧ s.meas.rc = none) := by decide +kernel

/-! Hypotheses of the statements about engine words: a word at the head of each queue, and each clause's state. -/

/-- A machine whose core 0, `f` of the core at reset, issues `e` from queue `q`. -/
def issues0 (q : Nat) (e : QEntry) (f : Core → Core) : State :=
  at0 (fun c => let d := f c; ({ d with latch := e }).setQueue q { d.queue q with ents := [e] })

/-- Every queue may issue its head. -/
theorem witness_issuing (q : Nat) (h : q < 4) (i : Instr) : Issuing (issues0 q { QEntry.none with i := i } id).me q ∧
    (issues0 q { QEntry.none with i := i } id).me.trap = none ∧ (issues0 q { QEntry.none with i := i } id).me.latch.mark = false ∧
    (issues0 q { QEntry.none with i := i } id).me.latch.i = i := by
  obtain rfl | rfl | rfl | rfl : q = 0 ∨ q = 1 ∨ q = 2 ∨ q = 3 := by omega
  all_goals exact ⟨⟨rfl, rfl, rfl⟩, rfl, rfl, rfl⟩

/-- The addresses of a gather: all good at the end of the scratchpad, beyond it, and misaligned. -/
theorem witness_vector_memory :
    let ad (s : State) : Nat := (cap s.me.latch 0 + BitVec.ofInt 64 (sintOf 32 (laneOf 4 (vreg s.me 0).bits 0))).toNat;
    let st (a : Word) : State := issues0 1 { QEntry.none with i := .vgather ⟨1, 0, 0, 0, 0⟩, caps := [a] } id;
    (ad (st 0x7FFFFC) + 4 ≤ 2 ^ 23 ∧ ad (st 0x7FFFFC) % 4 = 0 ∧ 2 ^ 23 < ad (st 0x7FFFFD) + 4 ∧ ad (st 2) + 4 ≤ 2 ^ 23 ∧ ad (st 2) % 4 ≠ 0) ∧
    ((preg (st 0).me 0).bits.getLsbD 0 = true ∧ (vreg (st 0).me 0) = VReg.zero ∧ sintOf 32 (laneOf 4 0#8192 255) = 0) ∧
    ((fmtOfCode 0).isSome = true ∧ (fmtOfCode 9).isSome = true ∧ (rmodeOfCode 4).isSome = true) := by decide +kernel

/-- A stream of 128 rows and 128 columns of FP32, of bound 0; with bound 3 (TRAP) between 1 and 2; a row of 128; and 128 × 32,
32 × 128 and 16 × 128 operands. -/
def shaped (rows cols fmt bound : Nat) : BitVec 256 :=
  BitVec.ofNat 256 (rows * 2 ^ 24 + cols * 2 ^ 32 + fmt * 2 ^ 116 + 2 ^ 122 + 0x3F800000 * 2 ^ 167 + 0x40000000 * 2 ^ 199 + bound * 2 ^ 231)

/-- A core with a pending write of tile 1. -/
def tileBusy (c : Core) : Core := { c with land := [⟨9, 0, 0, .tzero 1, false⟩] }

/-- Tile words: the declared shape and another, a write of the tile pending and not, streams that fit and do not, an element out of
bounds, operands that fit the array and not. -/
theorem witness_tile_words :
    (let t := getTile State.reset.me 1;
      t.drows = (127#7).toNat + 1 ∧ t.dcols = (127#7).toNat + 1 ∧ t.dint = decide ((0#1) = 1) ∧ t.drows ≠ (0#7).toNat + 1 ∧
      tilePending State.reset.me 1 = false ∧ tilePending (at0 tileBusy).me 1 = true) ∧
    (gRows (shaped 128 128 0 0) = 128 ∧ gCols (shaped 128 128 0 0) = 128 ∧ fmtIsFloat (gFmt (shaped 128 128 0 0)) = true ∧
      fmtIsFloat (gFmt (shaped 128 128 5 0)) = false ∧ gRows 0 ≠ 128 ∧ gRows (shaped 1 128 0 0) = 1 ∧ gFormat (shaped 1 128 5 0) = 5) ∧
    (gBound (shaped 128 128 0 3) = 3 ∧ outOfBounds (shaped 128 128 0 3) (elemVal .fp32 0) = true ∧
      outOfBounds (shaped 128 128 0 3) (elemVal .fp32 0x3F800000) = false) ∧
    (gCols (shaped 128 32 0 0) = 32 ∧ gRows (shaped 32 128 0 0) = 32 ∧ gRows (shaped 64 128 0 0) = 64 ∧ gLayout (shaped 64 128 0 0) ≠ 1) := by
  decide +kernel

/-- An MMA of one repetition on tile 0 whose array work started at fc 0. -/
def job0 (j : Nat) (ev : List Word) : ArrayJob :=
  ⟨{ QEntry.none with i := .mma ⟨1, 0, 0, 1, 0, 0, 0, 0, 0, 0⟩, ga := shaped 128 32 0 0, gb := shaped 32 128 0 0 }, 0, 0, 32, 1, j, false,
    [], [], ev, none⟩

/-- The array: a repetition due, a result due, with and without events. -/
theorem witness_array_events :
    (let s := at0 (fun c => { c with mx := { c.mx with jobs := [job0 0 []] } });
      repDue s.me = some (job0 0 []) ∧ mkindOf (job0 0 []).e.i = some (.mma, ⟨1, 0, 0, 1, 0, 0, 0, 0, 0, 0⟩) ∧ gCols (job0 0 []).e.gb ≤ 128 ∧
      tagsOk s.me (operandLines (job0 0 []).e.ga 0 ++ operandLines (job0 0 []).e.gb 0) = true) ∧
    (let s := at0 (fun c => { c with fc := 168, mx := { c.mx with jobs := [job0 1 [1]] } });
      visDue s.me = some (job0 1 [1]) ∧ s.me.mx.mxevt = 0) ∧
    (let s := at0 (fun c => { c with fc := 168, mx := { c.mx with jobs := [job0 1 []] } });
      visDue s.me = some (job0 1 []) ∧ (job0 1 []).events = []) := by decide +kernel

/-- A landing of each kind is due. -/
theorem witness_landings (a : Act) : landDue (at0 fun c => { c with land := [⟨0, 1, 0, a, false⟩] }).me = some ⟨0, 1, 0, a, false⟩ ∧
    (at0 fun c => { c with land := [⟨0, 1, 0, a, false⟩] }).me.sys.lvalid = false ∧
    (at0 fun c => { c with land := [⟨0, 1, 0, a, false⟩] }).me.sp.acc = [] ∧
    PadClean (at0 fun c => { c with land := [⟨0, 1, 0, a, false⟩] }).me ∧
    tagsOk (at0 fun c => { c with land := [⟨0, 1, 0, a, false⟩] }).me [65535] = true := ⟨rfl, rfl, rfl, ⟨rfl, fun _ => rfl, rfl, rfl⟩, rfl⟩

/-- A copy of one FP32 element between the start of the scratchpad and the view of `x`. -/
def copyOf (x : BitVec 512) (i : Instr) (v : Word) (mark : Bool) : QEntry :=
  { QEntry.none with i := i, h := ⟨x, .valid⟩, ga := shaped 1 1 0 0, caps := [0, 0, v], mark := mark }

/-- The view of `rec1` with bounds −1 and 1, bound policy `b` and poison policy `p`. -/
def view1 (b p : Nat) : BitVec 512 :=
  BitVec.ofNat 512 (32 * 2 ^ 48 + 0xBF800000 * 2 ^ 280 + 0x3F800000 * 2 ^ 312 + b * 2 ^ 344 + p * 2 ^ 346 + 0xFFF * 2 ^ 358)

/-- Copies: a value inside and outside the bounds under each policy, a poisoned line refused, a line of another tenant, a revoked
handle. -/
theorem witness_copy_words :
    ([0, 1, 2, 3].map fun b => (hBpol (view1 b 0), outOfView (view1 b 0) 0x40000000, outOfView (view1 b 0) 0x3F800000))
      = [(0, true, false), (1, true, false), (2, true, false), (3, true, false)] ∧
    (let c := (at0 (fun c => { c with sp := { c.sp with code := [(0, 2)] } })).me;
      let e := copyOf (view1 0 1) (.cpout ⟨1, 0, 0, 0, 0, 0, 2⟩) 0 false;
      poisonRefused c (view1 0 1) (copyElems (view1 0 1) e 0) = some 0 ∧ tagsOk c (placeLines ((copyElems (view1 0 1) e 0).map (·.place))) = true ∧
      poisonRefused State.reset.me (view1 0 1) (copyElems (view1 0 1) e 0) = none) ∧
    (let c := (at0 (fun c => { c with sp := { c.sp with tagDef := 3 } })).me;
      let e := copyOf (view1 0 0) (.cpout ⟨1, 0, 0, 0, 0, 0, 2⟩) 0 false;
      tagsOk c (placeLines ((copyElems (view1 0 0) e 0).map (·.place))) = false) ∧
    (copyOf (view1 0 0) (.cpin ⟨1, 0, 0, 0, 0, 0, 2⟩) 0 true).mark = true ∧
    setPattern State.reset.me (copyOf (view1 3 0) (.cpset ⟨1, 0, 0, 0, 0, 0, 2⟩) 0x40000000 false) (view1 3 0) = 0x40000000 := by
  decide +kernel

/-- Link words: with a release and without, within a locked form and split, revoked. -/
theorem witness_link_words :
    ((2#2 = 2 ∨ 2#2 = 3) ∧ ¬(0#2 = 2 ∨ 0#2 = 3)) ∧
    (let s := issues0 3 { QEntry.none with i := .msend ⟨1, 1, 2, 0, 1, 0, 0, 0⟩, caps := [0, 0] } id;
      ((partitionOf s s.me.sys.tenant)[fieldOf (cap s.me.latch 1) 0 8]?).getD 0 / 8 = s.cur / 8 ∧ s.isSplit s.cur = false) ∧
    (let s := { issues0 3 { QEntry.none with i := .msend ⟨1, 1, 2, 0, 1, 0, 0, 0⟩, caps := [0, 0] } id with split := [(0, true)] };
      s.isSplit s.cur = true) := by decide +kernel

/-- A core whose queue `q` waits in the barrier `i`, with semaphore 1. -/
def waits0 (q : Nat) (i : Instr) (k : Sem) : State :=
  at0 (fun c => { (c.setQueue q { c.queue q with ents := [{ QEntry.none with i := i }], bwait := true, running := true }) with
    cn := { c.cn with k := [(1, k)] } })

/-- Queue control: a barrier at the head that has not issued, semaphores at and beyond their ceiling and below their count, waits
that end and waits that trap. -/
theorem witness_queue_control_words :
    (let s := issues0 2 { QEntry.none with i := .waitc ⟨1, 2, 0, 0⟩ } id;
      (s.me.queue 2).ents.head? = some s.me.latch ∧ (s.me.queue 2).bwait = false) ∧
    (let s := waits0 1 (.swait ⟨1, 1, 1, 3⟩) ⟨3, 4, false⟩;
      waitEnds s s.cur = some 1 ∧ (s.me.queue 1).ents ≠ [] ∧ (getSem s.me 1).count + 1 ≤ (getSem s.me 1).ceil ∧
      (getSem s.me 1).ceil < (getSem s.me 1).count + 2 ∧ 3 ≤ (getSem s.me 1).count ∧ (getSem s.me 1).count < 4 ∧
      (getSem s.me 1).ovf = false ∧ 3 ≤ (getSem s.me 1).ceil) ∧
    (let s := waits0 1 (.swait ⟨1, 1, 1, 5⟩) ⟨3, 4, false⟩;
      waitEnds s s.cur = some 1 ∧ (getSem s.me 1).ceil < 5 ∧ s.me.trap = none) ∧
    (let s := waits0 1 (.swait ⟨1, 1, 1, 4⟩) ⟨3, 4, true⟩;
      waitEnds s s.cur = some 1 ∧ 4 ≤ (getSem s.me 1).ceil ∧ (getSem s.me 1).ovf = true) ∧
    (waitEnds (waits0 2 (.waitc ⟨1, 2, 0, 0⟩) Sem.zero) 0 = some 2) ∧ (waitEnds (waits0 2 (.bar ⟨1, 2, 0, 4⟩) Sem.zero) 0 = some 2) := by
  decide +kernel

/-! Hypotheses of the statements about events: what comes back to copies, messages, the hubs, collectives. -/

/-- A machine with core 0 `f` of the core at reset, pieces of work due, and device memory in which context 0 of tenant 0 maps its
first GiB to itself, frames 0 (its tables) and 1 being the tenant's. -/
def world (f : Core → Core) (w : List Item) : State :=
  { at0 f with
    work := w.map fun it => (0, it)
    dev := { MemSt.reset with
      mem := [(0, 1), (1, 0x10), (0x1000, 7)], asid := [(0, 1)], pot := [(0, 0x400), (1, 0x400)] } }

/-- A command of queue `q` with entry `e`, one repetition of which is `complete` or not. -/
def cmd1 (q : Nat) (e : QEntry) (complete : Bool) : Cmd := ⟨q, e, 0, true, true, false, [⟨0, 0, [], complete, false⟩], [], [], 0, 0, none, false, false, 0, 0, 0⟩

/-- A core with that command and semaphore 1. -/
def hasCmd (m : Cmd) (k : Sem) (c : Core) : Core := { c with cmds := [m], cn := { c.cn with k := [(1, k)] } }

/-- A view at device address 0x10000. -/
def view2 : BitVec 512 := BitVec.ofNat 512 (0x10000 + 32 * 2 ^ 48 + 0xFFF * 2 ^ 358)

/-- A view of 32 elements, 128 bytes, at device address 0x10000. -/
def view3 : BitVec 512 := BitVec.ofNat 512 (0x10000 + 32 * 2 ^ 48 + 2 ^ 64 + 2 ^ 80 + 2 ^ 96 + 0xFFF * 2 ^ 358)

/-- Copies: a repetition that lands with a semaphore to post and without, timed and complete or not, a fault, a post with room and
at the ceiling. -/
theorem witness_copy_events :
    (let m := cmd1 2 (copyOf view2 (.cpin ⟨1, 0, 0, 0, 1, 0, 0⟩) 0 false) true;
      let s := world (hasCmd m ⟨3, 4, false⟩) [.landing 0 2 0 0];
      workDue s (fun it => match it with
        | .landing .. => true
        | _ => false) = some (0, .landing 0 2 0 0) ∧ cmdOf s 0 2 0 = some m ∧
      m.reps.find? (fun r => decide (r.j = 0)) = some ⟨0, 0, [], true, false⟩ ∧ copySem m.e.i = some 1 ∧
      (getSem (s.core 0) 1).count < (getSem (s.core 0) 1).ceil) ∧
    copySem (.cpin ⟨1, 0, 0, 0, 0, 0, 2⟩) = none ∧
    (∀ b : Bool,
      let m := cmd1 2 (copyOf view2 (.cpin ⟨1, 0, 0, 0, 0, 0, 1⟩) 0 false) b;
      let s := world (hasCmd m Sem.zero) [];
      timedDue s s.cur = some (m, ⟨0, 0, [], b, false⟩) ∧ (ctxOf s s.me.sys.casid).st = 0) ∧
    (let m := cmd1 2 (copyOf view2 (.cpin ⟨1, 0, 0, 0, 1, 0, 0⟩) 0 false) true;
      let s := world (hasCmd m Sem.zero) [.copyFault 0 2 0 0 0x10000];
      workDue s (fun it => match it with
        | .copyFault .. => true
        | _ => false) = some (0, .copyFault 0 2 0 0 0x10000) ∧ cmdOf s 0 2 0 = some m ∧ (s.core 0).trap = none) ∧
    (∀ b : Bool,
      let m := cmd1 2 (copyOf view2 (.cpin ⟨1, 0, 0, 0, 1, 0, 0⟩) 0 false) true;
      let s := world (hasCmd m ⟨if b then 4 else 3, 4, false⟩) [.post 0 2 0 0 1];
      workDue s isPost = some (0, .post 0 2 0 0 1) ∧ cmdOf s 0 2 0 = some m ∧
      ((getSem (s.core 0) 1).count = (getSem (s.core 0) 1).ceil ↔ b = true)) := by decide +kernel

/-- A message of one line from core 0 to itself. -/
def msg1 (due : Option Nat) (arrived reserved : Bool) : MsgIn :=
  ⟨0, 0, 0, 0, due, 0, reserved, arrived, 0, [⟨0, 0, BitVec.allOnes 128, 0, 2⟩], false, false, 0⟩

/-- A core that has sent `m` to itself, with four lines of inbox. -/
def hasMsg (m : MsgIn) (c : Core) : Core :=
  hasCmd (cmd1 3 { QEntry.none with i := .msend ⟨1, 1, 2, 0, 1, 0, 0, 0⟩, caps := [0, 0] } false) Sem.zero
    { c with msgs := [m], sys := { c.sys with inboxSize := 4 } }

/-- Messages: one that arrives, one that reserves its lines, one that lands, timed or not. -/
theorem witness_message_events :
    (let s := world (hasMsg (msg1 none false false)) [.arrive 0 0 0];
      workDue s (fun it => match it with
        | .arrive .. => true
        | _ => false) = some (0, .arrive 0 0 0) ∧ msgOf (s.core 0) 0 0 = some (msg1 none false false) ∧
      (cmdOf s 0 3 0).isSome = true ∧ tagsOk (s.core 0) [0] = true ∧ msgSize (msg1 none false false) ≤ (s.core 0).sys.inboxSize) ∧
    (let s := world (hasMsg (msg1 none true false)) [];
      reserveDue s s.cur = some (msg1 none true false) ∧ msgCtx s (msg1 none true false) = none) ∧
    (let s := world (hasMsg (msg1 none true true)) [.deliver 0 0 0];
      workDue s (fun it => match it with
        | .deliver .. => true
        | _ => false) = some (0, .deliver 0 0 0) ∧ msgOf (s.core 0) 0 0 = some (msg1 none true true) ∧
      msgCtx s (msg1 none true true) = none) ∧
    timedMsg (world (hasMsg (msg1 (some 0) true true)) []).me = some (msg1 (some 0) true true) := by decide +kernel

/-- An atomic addition of queue L on the first element of the view. -/
def amo1 : QEntry := { QEntry.none with i := .amo ⟨1, 0, 1, 2, 0, 3, 0, 0, 1, 0, 0⟩, h := ⟨view2, .valid⟩, caps := [0, 5, 0] }

/-- The hubs: a read, a write and an atomic of a mapped, sound granule, with the syndrome and without; a walk; a release; a reply. -/
theorem witness_hub_events :
    (let m := cmd1 2 (copyOf view2 (.cpin ⟨1, 0, 0, 0, 1, 0, 0⟩) 0 false) false;
      let s := world (hasCmd m Sem.zero) [.read 0 2 0 0 0x10000];
      hubDue s = some (0, .read 0 2 0 0 0x10000) ∧ cmdOf s 0 2 0 = some m ∧
      translate s 0 (cmdAsid m) 0x10000 (s.core 0).sys.tenant false = .pa 0x10000 ∧ isHostFrame s 0x10000 = false ∧
      durableCtx s 0x10000 = none ∧ chanFailed s 0x10000 = false ∧ mapGet false s.dev.tagBad 128 = false ∧
      itemVa s (.read 0 2 0 0 0x10000) = some (0, 0, 0x10000) ∧ tlbHit s 0 0 0x10000 = false ∧
      asidOk s 0 (s.core 0).sys.tenant = true ∧
      walkFrom s 0 0x10000 false [0, 1, 2, 3] (fieldOf (asidOf s 0) 16 29 * 4096) = (.pa 0x10000, some ⟨0, 0, 0, 2 ^ 30, 0, true⟩)) ∧
    (let m := cmd1 2 (copyOf view2 (.cpout ⟨1, 0, 0, 0, 1, 0, 0⟩) 0 false) true;
      let s := world (hasCmd m Sem.zero) [.write 0 2 0 0 0x10000 7 1 0 []];
      hubDue s = some (0, .write 0 2 0 0 0x10000 7 1 0 []) ∧ cmdOf s 0 2 0 = some m ∧
      translate s 0 (cmdAsid m) 0x10000 (s.core 0).sys.tenant true = .pa 0x10000) ∧
    (let m := cmd1 3 amo1 false;
      let s := world (hasCmd m Sem.zero) [.atomic 0 0];
      hubDue s = some (0, .atomic 0 0) ∧ cmdOf s 0 3 0 = some m ∧ isAred m.e.i = false ∧
      translate s 0 (cmdAsid m) (atomVa m.e) (s.core 0).sys.tenant true = .pa 0x10000 ∧ 0x10000 % 128 + atomBytes m.e.i ≤ 128 ∧
      atomRet m.e.i = true ∧ mapGet false s.dev.syn (0x10000 / 128) = false ∧
      (let t := { s with dev := { s.dev with syn := [(512, true)] } };
        hubDue t = some (0, .atomic 0 0) ∧ mapGet false t.dev.syn (0x10000 / 128) = true ∧
        translate t 0 (cmdAsid m) (atomVa m.e) (t.core 0).sys.tenant true = .pa 0x10000)) ∧
    (let m := cmd1 3 amo1 false;
      let s := world (hasCmd m Sem.zero) [.release 0 3 0];
      workDue s isRelItem = some (0, .release 0 3 0) ∧ cmdOf s 0 3 0 = some m) ∧
    (let m := cmd1 3 amo1 false;
      let s := world (fun c => hasCmd m Sem.zero { c with sys := { c.sys with replySize := 1 } }) [.reply 0 0 0 0 5 0];
      workDue s isReply = some (0, .reply 0 0 0 0 5 0) ∧ cmdOf s 0 3 0 = some m ∧ tagOk (s.core 0) 0 = true) := by decide +kernel

/-- An ARED whose source line has code `k`, under poison policy `p`. -/
def aredState (p : Nat) (k : BitVec 2) : State :=
  world (fun c => hasCmd (cmd1 3 { QEntry.none with
    i := .ared ⟨1, 0, 1, 2, 0, 3, 0, 0, 0, 0⟩, h := ⟨view2 ||| BitVec.ofNat 512 (p * 2 ^ 346), .valid⟩, caps := [0, 0, 0] } false) Sem.zero
    { c with sp := { c.sp with code := [(0, k)] } }) [.ared 0 0]

/-- ARED: a source line refused by each policy, and one that is not. -/
theorem witness_ared_events :
    (let s := aredState 1 2;
      workDue s (fun it => match it with
        | .ared .. => true
        | _ => false) = some (0, .ared 0 0) ∧ (cmdOf s 0 3 0).isSome = true ∧ tagsOk (s.core 0) [0] = true ∧
      codeSeen (s.core 0) 0 ≠ 0 ∧ (s.core 0).trap = none) ∧
    codeSeen ((aredState 2 3).core 0) 0 = 3 ∧ codeSeen ((aredState 0 0).core 0) 0 = 0 := by decide +kernel

/-- A machine with group 0 of two ranks, whose route entries are 16 (local), and a barrier `b` of it. -/
def grouped (f : Core → Core) (w : List Item) (b : List Barrier) : State :=
  let s := world f w
  { s with
    time := 9
    dev := { s.dev with mem := s.dev.mem ++ [(0x10000, 0x10), (0x10002, 0x10)] }
    links := { s.links with groups := [(0, BitVec.ofNat 256 (1 + 0x10000 * 2 ^ 64))], bars := b } }

/-- Collectives: a contribution to a local rank, a deadline that has passed, a verdict that nobody waits for, an agreement whose
slot is full. -/
theorem witness_collective_events :
    (let m : CMove := ⟨0, 0, 1, 0, 1, 0, [], none, 0, false⟩;
      let s := grouped id [.contrib m] [];
      workDue s (fun it => match it with
        | .contrib _ => true
        | _ => false) = some (0, .contrib m) ∧ routeOf s (groupEntry s 0) 1 = none ∧ (slotOf s 0 1 0).full = false ∧
      verdictAt s 0 0 = none) ∧
    (deadlineDue (grouped id [] [⟨0, 0, [], some 9, none, []⟩]) = some ⟨0, 0, [], some 9, none, []⟩) ∧
    (let s := grouped id [] [⟨0, 0, [], some 9, some [1], []⟩];
      verdictDue s = some ⟨0, 0, [], some 9, some [1], []⟩ ∧ openCbars s 0 0 = []) ∧
    (∀ b : Bool,
      let i : Instr := if b then .cagree ⟨1, 1, 2, 0, 3, 0, 0, 0⟩ else .credx ⟨1, 1, 2, 0, 3, 0, 0, 0⟩;
      let m := cmd1 3 { QEntry.none with i := i, caps := [0, 0] } false;
      let all : Map Contrib := [(0, ⟨7, 128, [], false⟩), (1, ⟨7, 128, [], false⟩)];
      let s := { grouped (hasCmd m Sem.zero) [] [] with links := { (grouped id [] []).links with
        slots := [(slotKey 0 0 0, ⟨0, true, all, [(0, 0)], [(0, 0)]⟩)] } };
      collDue s s.cur = some m ∧ collEnd s m = .full []) := by decide +kernel

/-! Hypotheses of the statements about queues, traps, tasks and pre-emption. -/

/-- A core at its word 0, which is `i`. -/
def word1 (i : Instr) (c : Core) : Core := word0 ((encode i).getD 0).toNat c

/-- A word of an engine at the PC: one that enters its queue, one whose queue is full, a zero delta, a refused span. -/
theorem witness_engine_word_enqueue :
    (let i : Instr := .vaddF32 ⟨3, 300, 10, 11, 2⟩;
      let s := at0 (word1 i);
      let w := fetchWord s s.me;
      decode w = .ok i ∧ queueOfWord w = some 1 ∧ deltaOk s.me i w = true ∧ enqCheck s s.me i (entryOf s.me 1 i w) w = .ok ∧
      (s.me.queue 1).ents.length < 64 ∧ ((fld w 44 4).toNat < 5 ∨ 7 < (fld w 44 4).toNat → False) ∧
      (let t := at0 (fun c => word1 i { c with qv := { c.qv with ents := List.replicate 64 QEntry.none } });
        fetchWord t t.me = w ∧ deltaOk t.me i w = true ∧ enqCheck t t.me i (entryOf t.me 1 i w) w = .ok ∧ 64 ≤ (t.me.queue 1).ents.length)) ∧
    (let i : Instr := .vaddF32 ⟨0, 300, 10, 11, 2⟩;
      let s := at0 (word1 i);
      let w := fetchWord s s.me;
      decode w = .ok i ∧ queueOfWord w = some 1 ∧ deltaOk s.me i w = false ∧ s.me.trap = none) ∧
    (let i : Instr := .mma ⟨1, 1, 2, 3, 1, 1, 0, 0, 0, 0⟩;
      let s := at0 (word1 i);
      let w := fetchWord s s.me;
      decode w = .ok i ∧ queueOfWord w = some 0 ∧ 7 < (fld w 44 4).toNat) ∧
    (let i : Instr := .vld ⟨1, 3, 1, 0, 0⟩;
      let s := at0 (fun c => regs 0x800000 0 0 (word1 i c));
      let w := fetchWord s s.me;
      decode w = .ok i ∧ queueOfWord w = some 1 ∧ deltaOk s.me i w = true ∧ s.me.trap = none ∧
      (match enqCheck s s.me i (entryOf s.me 1 i w) w with
      | .trap k _ _ => decide (k = 4)
      | _ => false) = true) := by decide +kernel

/-- A launch of tenant 0 in the given state. -/
def launch1 (st : LSt) (pkt : Nat) : Launch :=
  ⟨0, 1, 7, BitVec.ofNat 1024 (pkt + 7 * 2 ^ 32 + 2 ^ 64 + 2 ^ 80 + 2 ^ 96), st, [], false, false, false, false, false, 0, 0, 0, 0, 0, 0, 0,
    0, 0, 0, 0, 0, [], false⟩

/-- A machine in which core 0, `f` of the core at reset, is in stage `life` of record 1 of launch 1. -/
def tasked (life : Life) (l : Launch) (f : Core → Core) : State :=
  let s := world (fun c => let d := f c; { d with life := life, sys := { d.sys with launchid := 7 }, task := { d.task with launch := 1, recno := 1 } }) []
  { s with sched := { s.sched with
    launches := [(1, l)], nextLk := 2, nextRec := 2, recs := [(1, ⟨1, 0, 4, 0, 0, 0, 0, 0, 0, 0, 0, false, 0, false, none, true⟩)] } }

/-- Words that are none, at the PC, outside the code window, and of an engine. -/
theorem witness_illegal_words :
    (State.reset.me.sys.codesize ≤ State.reset.me.seq.pc.toNat ∧ State.reset.me.trap = none) ∧
    (let s := at0 (word0 0xD00000000000);
      s.me.seq.pc.toNat < s.me.sys.codesize ∧ decode (fetchWord s s.me) = .illegal 1 ∧ queueOfWord (fetchWord s s.me) = none) ∧
    (let s := at0 (word0 0x5FC000000000);
      s.me.seq.pc.toNat < s.me.sys.codesize ∧ decode (fetchWord s s.me) = .illegal 2 ∧ queueOfWord (fetchWord s s.me) = some 1 ∧
      s.me.trap = none) ∧
    (let s := at0 (word0 0);
      s.me.seq.pc.toNat < s.me.sys.codesize ∧ fetchWord s s.me = 0) ∧
    (fld 0x800000000003#48 44 4 ≠ 0 ∧ fld 3#48 3 17 = 0 ∧ fld 3#48 44 4 = 0 ∧ fld 3#48 38 6 = 0 ∧ fld 8#48 3 17 ≠ 0 ∧
      fld 8#48 38 6 = 0) := by decide +kernel

/-- Traps: handled, unhandled in each way, a debug stop, a violation and its release, the watchdog, a breakpoint, a work stop, the
timer. -/
theorem witness_trap_events :
    (∀ en inh dr : Bool,
      let p : PendTrap := ⟨3, false, 1, true, 5, 6, 9⟩;
      let s := tasked (if dr then .draining else .running) (launch1 .running 0) (fun c => { c with trap := some p, sys := { c.sys with
        trapen := if en then 8 else 0, inh := inh } });
      s.me.trap = some p ∧ isViolation p.cause = false ∧ issuedDone s.me = true ∧ s.me.late = [] ∧
      s.me.sys.trapen.getLsbD p.cause = en ∧ s.me.sys.inh = inh ∧ (s.me.life = .draining ↔ dr = true) ∧ p.cause ≠ 0x1B ∧ p.cause ≠ 0x3F ∧
      p.cause ≠ 0x1D ∧ (launchOf s s.me.task.launch).isSome = true) ∧
    (∀ b : Bool,
      let p : PendTrap := ⟨if b then 0x1B else 0x3F, false, 1, true, 5, 6, 9⟩;
      let s := tasked .running (launch1 .running 0) (fun c => { c with trap := some p });
      s.me.trap = some p ∧ isViolation p.cause = false ∧ issuedDone s.me = true ∧ s.me.late = [] ∧ p.cause ≠ 0x1D) ∧
    (let p : PendTrap := ⟨0x1D, false, 0, true, 0x200000000, 6, 9⟩;
      let s := tasked .running (launch1 .running 0) (fun c => { c with trap := some p });
      s.me.trap = some p ∧ isViolation p.cause = false ∧ issuedDone s.me = true ∧ s.me.late = [] ∧ fieldOf p.info0 32 2 = 2) ∧
    (let p : PendTrap := ⟨0x0B, false, 0, true, 0, 0, 9⟩;
      let s := tasked .running (launch1 .running 0) (fun c => { c with trap := some p, frozenV := true });
      s.me.trap = some p ∧ isViolation p.cause = true) ∧
    (let s := tasked .running (launch1 .ending 0) (fun c => { c with frozenV := true });
      releaseReady s.me = true) ∧
    (let s := tasked .running (launch1 .running 0) (fun c => { c with sys := { c.sys with wdlimit := 4, wdcount := 5 } });
      launchOf s s.me.task.launch = some (launch1 .running 0) ∧ (launch1 .running 0).st ≠ .ending ∧ s.me.trap = none ∧
      s.me.sys.wdlimit.toNat ≤ s.me.sys.wdcount.toNat ∧ s.me.frozenV = false ∧ s.me.dstop = false ∧ s.me.task.requeue = false) ∧
    (let s := tasked .running (launch1 .running 0) id;
      let d : Dbg := { Dbg.zero with dlid := 7, bkpc := [(2, 0x100000000)], wsarm := true };
      let t := { s with meas := { s.meas with dbg := [(0, d)] } };
      pcMatch t t.cur = some 2 ∧ workReached t t.cur = true ∧ t.me.trap = none) ∧
    (let s := { at0 (fun c => { c with sys := { c.sys with timecmp := 9 } }) with time := 9 };
      s.me.sys.timer = false ∧ s.me.sys.timecmp ≠ 0 ∧ s.me.sys.timecmp.toNat ≤ s.time) := by decide +kernel

/-- A machine in which core 0 may take record 1, `r`, of launch 1, `l`. -/
def waiting (r : TRec) (l : Launch) : State :=
  let s := tasked .idle l id
  { s with
    plat := { s.plat with inv := 1 }
    dev := { s.dev with tenant := [(0, 1 <<< 256)] }
    sched := { s.sched with weight := [(0, 1)], recs := [(1, r)] } }

/-- A record of launch 1 that waits for a core. -/
def rec2 (fsize : Nat) (busy : Bool) : TRec := ⟨1, 0, 4, 0, 0x10000, fsize, 0x10000, 1, 2, 3, 0, false, 0, !busy, none, busy⟩

/-- A record is the next to be dispatched, to core 0. -/
theorem witness_dispatch : nextDispatch (waiting (rec2 0 false) (launch1 .running 0)) = some (0, 1, 0) ∧
    (waiting (rec2 0 false) (launch1 .running 0)).sched.recs.find? (fun e => decide (e.1 = 1)) = some (1, rec2 0 false) ∧
    launchOf (waiting (rec2 0 false) (launch1 .running 0)) (rec2 0 false).lk = some (launch1 .running 0) ∧
    lForm (launch1 .running 0) = false := by
  refine ⟨?_, by decide +kernel⟩
  have h : eligible (waiting (rec2 0 false) (launch1 .running 0)) = [0] := by decide +kernel
  unfold nextDispatch
  rw [h]
  have first (key : Nat → Nat) : minBy key [0] = some 0 := rfl
  simp only [first]
  have only (key : Nat → Nat) : minBy key [1] = some 1 := rfl
  have units : unitsOfRec (waiting (rec2 0 false) (launch1 .running 0)) 1 = [0] := by decide +kernel
  have ready : recReady (waiting (rec2 0 false) (launch1 .running 0)) 1 = true := by decide +kernel
  have launch : launchOf (waiting (rec2 0 false) (launch1 .running 0)) 1 = some (launch1 .running 0) := by decide +kernel
  have recs : (waiting (rec2 0 false) (launch1 .running 0)).sched.recs = [(1, rec2 0 false)] := rfl
  have owner : lOwner (launch1 .running 0) = 0 := by decide +kernel
  have of1 : (rec2 0 false).lk = 1 := rfl
  simp [recs, of1, launch, ready, units, owner, only, Nat.mod_one]

/-- Tasks: patience that is over, a start with and without loads, one that does not translate, an end, a scrub. -/
theorem witness_task_events :
    (let s := waiting { rec2 0 false with patience := false } (launch1 .running 0);
      patienceOver s = some 1 ∧ s.sched.recs.find? (fun e => decide (e.1 = 1)) = some (1, { rec2 0 false with patience := false })) ∧
    (∀ b : Bool,
      let r := { rec2 (if b then 128 else 0) true with frame := if b then 2 ^ 32 else 0x10000 };
      let s := { tasked .loading (launch1 .running 0) id with work := [(0, .start 0)] };
      let s := { s with sched := { s.sched with recs := [(1, r)] } };
      takeFrom (fun x => decide (x.1 ≤ s.cyc) && (match x.2 with
        | .start n => !needsScrub s n
        | _ => false)) s.work = some (.start 0, []) ∧
      (s.core 0).life = .loading ∧ (s.core 0).task.recno = 1 ∧ (s.core 0).task.fresh = false ∧
      s.sched.recs.find? (fun e => decide (e.1 = 1)) = some (1, r) ∧ launchOf s (s.core 0).task.launch = some (launch1 .running 0) ∧
      lForm (launch1 .running 0) = false ∧ (r.fsize = 0 ↔ b = false) ∧ fieldOf (launch1 .running 0).pkt 352 48 = 0 ∧
      (b = true → translate s 256 (lAsid (launch1 .running 0)) r.frame (launch1 .running 0).tenant false = .fault)) ∧
    (let s := tasked .draining (launch1 .running 0) (fun c => { c with seq := { c.seq with psum := 2 } });
      s.me.life = .draining ∧ s.me.frozenV = false ∧ drained s.me = true ∧ s.me.task.requeue = false ∧ s.me.seq.psum ≠ 0 ∧
      launchOf s s.me.task.launch = some (launch1 .running 0)) ∧
    (let s := tasked .loading { launch1 .running 0 with tenant := 5 } id;
      launchOf s s.me.task.launch = some { launch1 .running 0 with tenant := 5 } ∧ s.me.life = .loading ∧
      (5 : Nat) ≠ s.me.sys.tenant) := by decide +kernel

/-- A machine whose core 0 runs a task of launch 1, `l`, at cycle `cyc`, while launch 2 of owner 1 waits with a record when `rival`. -/
def sliced (rival : Bool) (cyc : Nat) (l : Launch) (f : Core → Core) : State :=
  let s := tasked .running l f
  { s with
    cyc := cyc
    plat := { s.plat with inv := 1 }
    dev := { s.dev with tenant := [(0, 1 <<< 256)] }
    sched := { s.sched with
      weight := [(0, 1), (1, 1)]
      launches := [(1, l), (2, launch1 .running (2 ^ 16))]
      recs := s.sched.recs ++ (if rival then [(2, { rec2 0 false with lk := 2 })] else []) } }

/-- Pre-emption: a slice that ends with nobody waiting, by kill, by checkpoint. -/
theorem witness_slice_end :
    (let s := sliced false 900000 (launch1 .running 0) id;
      sliceOver s s.cur = true ∧
      (rivalOf { s with sched := { s.sched with dispatchAt := mapPut s.sched.dispatchAt s.cur s.cyc } } s.cur).2 = none) ∧
    (let s := sliced true 900000 (launch1 .running (2 ^ 9)) id;
      sliceOver s s.cur = true ∧
      (rivalOf { s with sched := { s.sched with dispatchAt := mapPut s.sched.dispatchAt s.cur s.cyc } } s.cur).2 = some (1, 0, 0) ∧ 1 ≠ s.me.sys.owner ∧
      launchOf s s.me.task.launch = some (launch1 .running (2 ^ 9)) ∧ lForm (launch1 .running (2 ^ 9)) = false ∧
      lDrain (launch1 .running (2 ^ 9)) = false ∧ lKill (launch1 .running (2 ^ 9)) = true ∧
      s.me.sys.wdcount.toNat < (saveBytes s.me + 255) / 256) ∧
    (let l := launch1 .running (2 ^ 10 + 0x10000 * 2 ^ 768 + 2 ^ 816);
      let s := sliced true 900000 l id;
      sliceOver s s.cur = true ∧
      (rivalOf { s with sched := { s.sched with dispatchAt := mapPut s.sched.dispatchAt s.cur s.cyc } } s.cur).2 = some (1, 0, 0) ∧ 1 ≠ s.me.sys.owner ∧ launchOf s s.me.task.launch = some l ∧
      lForm l = false ∧ lDrain l = false ∧ lKill l = false ∧ lCkpt l = true ∧ freeSlots s l = [0] ∧ s.me.task.grp = false) := by decide +kernel

/-- A recall that ends and one that is due, a save with and without a slot, a resumption, cores that fail with and without a spare. -/
theorem witness_preemption_events :
    (let s := { State.reset with sched := { State.reset.sched with flend := [(0, 0x2000)] } };
      recallEnds s (s.cur / 8) = true) ∧
    (let s := waiting (rec2 0 false) (launch1 .running 0);
      let s := { s with sched := { s.sched with flend := [(0, 0x1040)] } };
      recallEnds s (s.cur / 8) = false ∧ recallDue s (s.cur / 8) = true) ∧
    (∀ b : Bool,
      let l := launch1 .running (if b then 0x10000 * 2 ^ 768 + 2 ^ 816 else 0);
      let s := { tasked .saving l id with work := [(0, .save 0)] };
      workDue s (fun it => match it with
        | .save _ => true
        | _ => false) = some (0, .save 0) ∧ (s.core 0).life = .saving ∧ launchOf s (s.core 0).task.launch = some l) ∧
    (let s := { tasked .loading (launch1 .running 0) id with work := [(0, .resume 0)] };
      let sv := regs 7 8 9 Core.reset;
      let s := { s with sched := { s.sched with saved := [(1, sv)] } };
      workDue s (fun it => match it with
        | .resume _ => true
        | _ => false) = some (0, .resume 0) ∧ (s.core 0).life = .loading ∧
      launchOf s (s.core 0).task.launch = some (launch1 .running 0) ∧ lForm (launch1 .running 0) = false ∧
      s.sched.saved.find? (fun e => decide (e.1 = (s.core 0).task.recno)) = some ((s.core 0).task.recno, sv) ∧ sv.cmds = [] ∧
      sv.sys.lvalid = false) ∧
    (mapGet 0 State.reset.plat.spare 0 = 0 ∧ mapGet false State.reset.plat.siteBad 8 = false ∧
      (let s := { State.reset with plat := { State.reset.plat with spare := [(0, 3)] } };
        mapGet 0 s.plat.spare 0 ≠ 0)) := by decide +kernel

/-! Hypotheses of the statements about spools and packets. -/

/-- A machine in which VF 1, in state `st`, has spools 3 and 4; spool 3, served, is `x`, and the bytes `pkt` stand at its base. -/
def spooled (st : Nat) (x : Spool) (pkt : Map (BitVec 8)) : State :=
  let s := world id []
  { s with
    dev := { s.dev with
      mem := s.dev.mem ++ pkt, asid := [(0, 1), (1, 0)], tenant := [(0, 1)] }
    links := { s.links with tdi := [(1, ⟨st, 0, 0, true, 0, 0⟩)] }
    sched := { s.sched with spalloc := [(1, 0x10003)], spools := [(3, x)], pkb := 8, served := 3, burst := 8 } }

/-- An enabled spool of 16 packets at 0x10000, and one whose `ro` bit is set. -/
def spool1 (ro : Bool) (tail : Nat) : Spool :=
  ⟨BitVec.ofNat 65 (0x10000 + 4 * 2 ^ 58 + 2 ^ 63 + (if ro then 2 ^ 64 else 0)), 0, tail, 0, false, none⟩

/-- A disabled spool. -/
def spool0 : Spool := ⟨BitVec.ofNat 65 (0x10000 + 4 * 2 ^ 58), 0, 1, 2, true, none⟩

/-- Spools: kicks taken and refused, registers written while enabled and not, the allocation of spools. -/
theorem witness_spool_registers :
    (spoolNo (spooled 2 (spool1 false 0) []) 1 0 = some 3 ∧ spoolNo (spooled 2 (spool1 false 0) []) 1 2 = none ∧
      (tdiOf (spooled 2 (spool1 false 0) []) 1).st = 2) ∧
    (∀ ro : Bool, (spool1 ro 0).cfg.getLsbD 63 = true ∧ (spool1 ro 0).cfg.getLsbD 64 = ro ∧ (spool1 ro 0).stop = false) ∧
    (¬ 2 ^ fieldOf (spool1 false 0).cfg 58 5 < ((16#32).toNat + 2 ^ 32 - (spool1 false 0).head) % 2 ^ 32 ∧
      2 ^ fieldOf (spool1 false 0).cfg 58 5 < ((17#32).toNat + 2 ^ 32 - (spool1 false 0).head) % 2 ^ 32) ∧
    (spool0.cfg.getLsbD 63 = false ∧ spool0.head ≠ spool0.tail ∧ fieldOf (BitVec.ofNat 64 (4 * 2 ^ 58)) 58 5 = 4 ∧
      (BitVec.ofNat 64 (4 * 2 ^ 58 + 2 ^ 63)).getLsbD 63 = true) ∧
    (let s := spooled 0 spool0 [];
      (tdiOf s 1).st = 0 ∧ (tdiOf s 1).st ≠ 3 ∧ fieldOf (0x50000#64) 15 5 ≤ 16 ∧ fieldOf (0x50000#64) 0 10 + fieldOf (0x50000#64) 15 5 ≤ 1024 ∧
      (∀ n < 16, ∀ i, spoolNo s 1 n = some i → (spoolOf s i).cfg.getLsbD 63 = false) ∧
      (∀ e ∈ s.sched.spalloc, e.1 ≠ 1 → False)) := by
  refine ⟨by decide +kernel, by decide +kernel, by decide +kernel, by decide +kernel, by decide +kernel, by decide +kernel, by decide +kernel,
    by decide +kernel, ?_, by decide +kernel⟩
  have key : ∀ n, n < 16 → ((spoolNo (spooled 0 spool0 []) 1 n).all fun i => !(spoolOf (spooled 0 spool0 []) i).cfg.getLsbD 63) = true := by
    decide +kernel
  intro n hn i hi
  simpa [hi] using key n hn

/-- A machine whose completion spool 0 of VF 1 is `x`, with the record of launch 1 to be written. -/
def completing (x : CSpool) : State :=
  let s := spooled 2 spool0 []
  { s with sched := { s.sched with
    cspools := [(16, x)], launches := [(1, launch1 .ending 0)], dones := [⟨1, 0, 5, 1⟩] } }

/-- Completion spools: a CSCONS that fits and one that does not, registers, a record that is written and one that faults. -/
theorem witness_completion_spools :
    (let x : CSpool := ⟨BitVec.ofNat 64 (4 * 2 ^ 58), 3, 0, true⟩;
      let s := completing x;
      cspoolOf s 1 0 = x ∧ x.cfg.getLsbD 63 = false ∧ (tdiOf s 1).st ≠ 3 ∧
      (x.prod + 2 ^ 32 - fieldOf (0x200000000#64) 32 32) % 2 ^ 32 ≤ 2 ^ fieldOf x.cfg 58 5 ∧
      2 ^ fieldOf x.cfg 58 5 < (x.prod + 2 ^ 32 - fieldOf (0x400000000#64) 32 32) % 2 ^ 32 ∧ (2#64).getLsbD 1 = true) ∧
    (∀ b : Bool,
      let x : CSpool := ⟨BitVec.ofNat 64 ((if b then 0x10000 else 2 ^ 32) + 4 * 2 ^ 58 + 2 ^ 63), 3, 0, false⟩;
      let s := completing x;
      let u : State := { s with sched := { s.sched with dones := s.sched.dones.eraseIdx 0, launches := mapDel s.sched.launches 1 } };
      nextDone s = some 0 ∧ s.sched.dones[0]? = some ⟨1, 0, 5, 1⟩ ∧ (cspoolOf s 1 0).cfg.getLsbD 63 = true ∧
      (decide ((devWrite u (fieldOf x.cfg 48 10) (tdiOf s 1).tenant 2 (fieldOf x.cfg 0 48 + 32 * (x.prod % 2 ^ fieldOf x.cfg 58 5)) 5 32).2 =
        .done)) = b) := by
  decide +kernel

/-- A packet for owner 0, identifier 7, with bytes `b0`, `b2`, `b16`, `b80` and `b124` at those places. -/
def packet1 (b0 b2 b16 b80 b124 : Nat) : Nat :=
  b0 + b2 * 2 ^ 16 + 7 * 2 ^ 32 + 2 ^ 64 + 2 ^ 80 + 2 ^ 96 + b16 * 2 ^ 128 + 2 ^ 224 + b80 * 2 ^ 640 + b124 * 2 ^ 992

/-- Its bytes in memory. -/
def bytes1 (b0 b2 b16 b80 b124 : BitVec 8) : Map (BitVec 8) :=
  [(0x10000, b0), (0x10002, b2), (0x10004, 7), (0x10008, 1), (0x1000A, 1), (0x1000C, 1), (0x10010, b16), (0x1001C, 1), (0x10050, b80),
    (0x1007C, b124)]

/-- The machine at whose spool 3 the packet stands, with launches `ls`. -/
def offered (b0 b2 b16 b80 b124 : BitVec 8) (ls : Map Launch) (w : List (Nat × Item)) : State :=
  let s := spooled 2 (spool1 false 1) (bytes1 b0 b2 b16 b80 b124)
  { s with work := w, sched := { s.sched with launches := ls } }

/-- The walk ends at an entry that maps the first GiB to itself. -/
theorem walk_gib (s : State) (tn va t a : Nat) (rest : List Nat) (ha : t + 8 * (va / 1073741824 % 512) = a) (h1 : paMapped s a = true)
    (h2 : potState (potOf s a) = 1) (h5 : fieldOf (potOf s a) 0 10 = tn) (h3 : granBad s a = false)
    (h4 : memReadNat s.dev.mem a 8 = 7) :
    walkFrom s tn va false (1 :: rest) t = (.pa (va % 2 ^ 30), some ⟨0, 0, va / 2 ^ 30 * 2 ^ 30, 2 ^ 30, 0, true⟩) := by
  unfold walkFrom
  simp [ha, h1, h2, h5, h3, h4]

/-- The walk goes through an entry that names the table at 0x1000. -/
theorem walk_next (s : State) (tn va t a : Nat) (rest : List Nat) (ha : t + 8 * (va / 549755813888 % 512) = a) (h1 : paMapped s a = true)
    (h2 : potState (potOf s a) = 1) (h5 : fieldOf (potOf s a) 0 10 = tn) (h3 : granBad s a = false)
    (h4 : memReadNat s.dev.mem a 8 = 0x1001) (r : XRes × Option Tlb) (hr : walkFrom s tn va false rest 0x1000 = r) :
    walkFrom s tn va false (0 :: rest) t = r := by
  unfold walkFrom
  simp [ha, h1, h2, h5, h3, h4, hr]

/-- Its packet's bytes translate to themselves. -/
theorem offered_translate (b0 b2 b16 b80 b124 : BitVec 8) (ls : Map Launch) (w : List (Nat × Item)) (j : Nat) (h : j < 128) :
    translate (offered b0 b2 b16 b80 b124 ls w) 256 0 (0x10000 + j) 0 false = .pa (0x10000 + j) := by
  generalize hs : offered b0 b2 b16 b80 b124 ls w = s
  have d1 : s.dev.asid = [(0, 1), (1, 0)] := by subst hs; rfl
  have d2 : s.dev.tlb = [] := by subst hs; rfl
  have d3 : s.dev.mapped = [] := by subst hs; rfl
  have d4 : s.dev.chanBad = [] := by subst hs; rfl
  have d5 : s.dev.syn = [] := by subst hs; rfl
  have d6 : s.dev.dbe = [] := by subst hs; rfl
  have d7 : s.dev.tagBad = [] := by subst hs; rfl
  have d8 : s.dev.pot = [(0, 0x400), (1, 0x400)] := by subst hs; rfl
  have d9 : s.dev.mem = [(0, 1), (1, 0x10), (0x1000, 7)] ++ bytes1 b0 b2 b16 b80 b124 := by subst hs; rfl
  have h1 : asidOk s 0 0 = true := by unfold asidOk asidOf; rw [d1]; decide
  have h3 : fieldOf (asidOf s 0) 16 29 = 0 := by unfold asidOf; rw [d1]; decide
  have h12 : ∀ a, a < 0x20000 → paMapped s a = true := by
    intro a ha
    have e : stackOf a = 0 := by unfold stackOf; omega
    have e3 : framesOf (2 * onesBelow (BitVec.allOnes 32).toNat 32) = 20160 * 64 := by decide +kernel
    have e4 : mappedChans s (stackOf a) = BitVec.allOnes 32 := by rw [e, mappedChans, d3]; rfl
    have e5 : 65536 * framesOf (2 * onesBelow (mappedChans s (stackOf a)).toNat 32) = 65536 * (20160 * 64) := by rw [e4, e3]
    simp only [paMapped, e5]; simp; omega
  have h8 : ∀ a, granBad s a = false := by
    intro a
    simp [granBad, d5, d6, d7, d4, chanFailed]
  have h6 : potOf s 0 = 0x400#64 := by simp [potOf, h12 0 (by omega), d8, mapGet]
  have h7 : potOf s 0x1000 = 0x400 := by simp [potOf, h12 0x1000 (by omega), d8, mapGet]
  have h13 : potOf s (0x10000 + j) = 0x400 := by
    have e : (0x10000 + j) / 65536 = 1 := by omega
    simp [potOf, h12 (0x10000 + j) (by omega), e, d8, mapGet]
  have h10 : memReadNat s.dev.mem 0 8 = 0x1001 := by rw [d9]; simp [memReadNat, memRead, mapGet, bytes1, memDefault]
  have h11 : memReadNat s.dev.mem 0x1000 8 = 7 := by rw [d9]; simp [memReadNat, memRead, mapGet, bytes1, memDefault]
  have i0 : (0x10000 + j) / 2 ^ 39 % 512 = 0 := by omega
  have i1 : (0x10000 + j) / 2 ^ 30 % 512 = 0 := by omega
  have i2 : (0x10000 + j) % 2 ^ 30 = 0x10000 + j := by omega
  have p1 : potState 0x400#64 = 1 := by decide
  have p2 : fieldOf (0x400#64) 0 10 = 0 := by decide
  have m0 := h12 0 (by omega)
  have m1 := h12 0x1000 (by omega)
  have m2 := h12 (0x10000 + j) (by omega)
  have w1 := walk_gib s 0 (0x10000 + j) 0x1000 0x1000 [2, 3] (by omega) m1 (by rw [h7]; exact p1) (by rw [h7]; exact p2)
    (h8 _) h11
  rw [i2] at w1
  have w0 := walk_next s 0 (0x10000 + j) 0 0 [1, 2, 3] (by omega) m0 (by rw [h6]; exact p1) (by rw [h6]; exact p2) (h8 _) h10 _ w1
  unfold Machine.translate
  simp [h1, h3, tlbOf, d2, w0, frameOk, m2, h13, p1, p2]

/-- The reads of sound granules change device memory in no way. -/
theorem quiet_reads (l : List Nat) (s : State) (h1 : s.dev.chanBad = []) (h2 : s.dev.tagBad = []) (h3 : s.dev.syn = [])
    (h4 : s.dev.dbe = []) (h5 : s.dev.sbe = []) :
    (l.foldl (fun s a => (hubReadGran s a).1) s).dev = s.dev ∧ (l.foldl (fun s a => (hubReadGran s a).1) s).links = s.links := by
  induction l generalizing s with
  | nil => exact ⟨rfl, rfl⟩
  | cons a l ih =>
    have e : hubReadGran s a = (addUsage s (320 + 2 * stackOf a) 128, granData s a, 0, false) := by
      have d : (addUsage s (320 + 2 * stackOf a) 128).dev = s.dev := rfl
      simp [hubReadGran, chanFailed, d, h1, h2, h3, h4, h5, granData]
    have k := ih (addUsage s (320 + 2 * stackOf a) 128) h1 h2 h3 h4 h5
    rw [List.foldl_cons, e]
    exact k


/-- The part of one sound granule of the device's own that the device reads. -/
theorem fetchPart_sound (u : State) (pa n : Nat) (hp : pa % 128 = 0) (hh : isHostFrame u pa = false) (h1 : u.dev.chanBad = [])
    (h2 : u.dev.tagBad = []) (h3 : u.dev.syn = []) (h4 : u.dev.dbe = []) (h5 : u.dev.sbe = []) :
    fetchPart u pa n = (addUsage u (320 + 2 * stackOf pa) 128, memReadNat u.dev.mem pa 128 % 2 ^ (8 * n), false, false) := by
  have e : hubReadGran u pa = (addUsage u (320 + 2 * stackOf pa) 128, granData u pa, 0, false) := by
    have d : (addUsage u (320 + 2 * stackOf pa) 128).dev = u.dev := rfl
    simp [hubReadGran, chanFailed, d, h1, h2, h3, h4, h5, granData]
  have e1 : pa / 128 * 128 = pa := by omega
  have d : (granData u pa).toNat = memReadNat u.dev.mem pa 128 := by
    have lt := memReadNat_lt u.dev.mem pa 128
    rw [show (256 : Nat) = 2 ^ 8 from rfl, ← Nat.pow_mul] at lt
    rw [granData, e1, BitVec.toNat_ofNat]
    exact Nat.mod_eq_of_lt lt
  unfold fetchPart
  rw [hh, e]
  simp only [d, hp, Nat.mul_zero, Nat.pow_zero, Nat.div_one, Bool.false_eq_true, if_false]
  rfl

/-- What a granule whose address translates to `pa` reads as, where nothing is wrong with device memory. -/
theorem devRead_gran (s : State) (asid tenant va pa : Nat) (h : translate s 256 asid va tenant false = .pa pa) (hv : va % 128 = 0)
    (hp : pa % 128 = 0) (hh : isHostFrame s pa = false) (h1 : s.dev.chanBad = []) (h2 : s.dev.tagBad = []) (h3 : s.dev.syn = [])
    (h4 : s.dev.dbe = []) (h5 : s.dev.sbe = []) : devRead s asid va tenant 128 = some (memReadNat s.dev.mem pa 128 % 2 ^ (8 * 128)) := by
  have w : (walkReads s asid tenant va).dev = s.dev := by
    unfold walkReads
    split
    · rfl
    · exact (quiet_reads _ s h1 h2 h3 h4 h5).1
  generalize hu : walkReads s asid tenant va = u at w
  have hh' : isHostFrame u pa = false := by
    unfold isHostFrame potOf paMapped mappedChans at hh ⊢; rw [w]; exact hh
  have f := fetchPart_sound u pa 128 hp hh' (by rw [w, h1]) (by rw [w, h2]) (by rw [w, h3]) (by rw [w, h4]) (by rw [w, h5])
  rw [w] at f
  have z (n v : Nat) (x : State) : devFetch x asid tenant (n + 1) v 0 = (x, .bytes 0 false false) := by rw [devFetch, if_pos rfl]
  have k : min 128 (128 - va % 128) = 128 := by omega
  have g (n : Nat) : devFetch s asid tenant (n + 2) va 128 = (addUsage u (320 + 2 * stackOf pa) 128,
      .bytes (memReadNat s.dev.mem pa 128 % 2 ^ (8 * 128)) false false) := by
    have wt : walkTo s asid va tenant false = (u, .pa pa) := by rw [walkTo, hu, h]
    rw [devFetch, if_neg (by omega)]
    simp only [wt, k, f, Nat.sub_self, z, Nat.mul_zero, Nat.add_zero, Bool.or_false]
  have g63 := g 63
  unfold devRead devGet
  rw [g63]

/-- The packet at its spool's head, as the scheduler sees it. -/
theorem offered_peek (b0 b2 b16 b80 b124 : BitVec 8) (ls : Map Launch) (w : List (Nat × Item)) (v : BitVec 1024)
    (h : BitVec.ofNat 1024 (memReadNat ([(0, 1), (1, 0x10), (0x1000, 7)] ++ bytes1 b0 b2 b16 b80 b124) 0x10000 128) = v) :
    peekPacket (offered b0 b2 b16 b80 b124 ls w) 3 = (if fieldOf v 992 32 ≠ 0 then .mismatch
      else if 4 ≤ fieldOf v 0 4 then .badKind else .packet (fieldOf v 0 4) v) := by
  have tr := offered_translate b0 b2 b16 b80 b124 ls w 0 (by omega)
  have dr := devRead_gran _ 0 0 0x10000 0x10000 tr (by omega) (by omega) (by
    have d : (offered b0 b2 b16 b80 b124 ls w).dev.pot = [(0, 0x400), (1, 0x400)] := rfl
    have k : potOf (offered b0 b2 b16 b80 b124 ls w) 0x10000 = 0x400 ∨ potOf (offered b0 b2 b16 b80 b124 ls w) 0x10000 = 0x1C00 := by
      unfold potOf
      rw [d]
      split
      · exact Or.inl rfl
      · exact Or.inr rfl
    unfold isHostFrame
    rcases k with k | k <;> rw [k] <;> decide) rfl rfl rfl rfl rfl
  have sp : spoolOf (offered b0 b2 b16 b80 b124 ls w) 3 = spool1 false 1 := rfl
  have vf : vfOfSpool (offered b0 b2 b16 b80 b124 ls w) 3 = some (1, 0) := rfl
  have e1 : spEn (spool1 false 1) = true := by decide
  have e2 : fieldOf (spool1 false 1).cfg 48 10 = 0 := by decide
  have e3 : fieldOf (spool1 false 1).cfg 0 48 + 128 * (0 % 2 ^ spSize (spool1 false 1)) = 0x10000 := by decide
  have e4 : (tdiOf (offered b0 b2 b16 b80 b124 ls w) 1).tenant = 0 := rfl
  have e5 : (spool1 false 1).stop = false := rfl
  have e7 : (spool1 false 1).head = 0 := rfl
  have e8 : (spool1 false 1).tail = 1 := rfl
  have e6 : (offered b0 b2 b16 b80 b124 ls w).dev.mem = [(0, 1), (1, 0x10), (0x1000, 7)] ++ bytes1 b0 b2 b16 b80 b124 := rfl
  rw [e6] at dr
  have m (x : Nat) : BitVec.ofNat 1024 (x % 2 ^ (8 * 128)) = BitVec.ofNat 1024 x := by
    apply BitVec.eq_of_toNat_eq
    rw [BitVec.toNat_ofNat, BitVec.toNat_ofNat]
    exact Nat.mod_mod _ _
  unfold peekPacket
  simp only [vf, sp, e1, e2, e4, e5, e7, e8, e3, dr, m, h]
  simp

/-- The packet that the scheduler sees at the head of the spool in service is taken. -/
theorem take_packet (s : State) (k : Nat) {f n i : Nat} (vf : vfOfSpool s i = some (f, n)) (p : BitVec 1024) (b : s.sched.burst ≠ 0)
    (o : spoolOpen s i = true) (e : peekPacket s i = .packet k p) (hi : s.sched.served = i := by rfl) :
    ∃ u, takePacket s k = some (u, f, p) := by
  subst hi
  unfold takePacket
  rw [o, e, vf, if_neg (by simp [b])]
  simp only [if_true]
  exact ⟨_, rfl⟩

/-- A packet of kind `k` is taken from its spool. -/
theorem offered_take (b0 b2 b16 b80 : BitVec 8) (ls : Map Launch) (v : BitVec 1024) (k : Nat)
    (h : BitVec.ofNat 1024 (memReadNat ([(0, 1), (1, 0x10), (0x1000, 7)] ++ bytes1 b0 b2 b16 b80 0) 0x10000 128) = v)
    (h0 : fieldOf v 992 32 = 0) (h1 : fieldOf v 0 4 = k) (h2 : k < 4) :
    ∃ u, takePacket (offered b0 b2 b16 b80 0 ls []) k = some (u, 1, v) := by
  have e : peekPacket (offered b0 b2 b16 b80 0 ls []) 3 = .packet k v := by
    rw [offered_peek b0 b2 b16 b80 0 ls [] v h, h0, h1]; simp [h2]
  have vf : vfOfSpool (offered b0 b2 b16 b80 0 ls []) 3 = some (1, 0) := rfl
  have o : spoolOpen (offered b0 b2 b16 b80 0 ls []) 3 = true := rfl
  exact take_packet _ k vf v (Nat.succ_ne_zero 7) o e

/-- Packets: service of the next spool, packets that cannot be taken, and the packet that is read again. -/
theorem witness_packet_service :
    (nextSpool { spooled 2 (spool1 false 1) [] with sched := { (spooled 2 (spool1 false 1) []).sched with burst := 0 } } = some 3 ∧
      (spooled 2 (spool1 false 1) []).sched.burst ≠ 0) ∧
    (let s := spooled 2 { spool1 false 1 with cfg := (spool1 false 1).cfg ||| BitVec.ofNat 65 (2 ^ 32) } [];
      peekPacket s s.sched.served = .unreadable) ∧
    peekPacket (offered 4 0 0 0 0 [] []) 3 = .badKind ∧ peekPacket (offered 0 0 0 0 1 [] []) 3 = .mismatch ∧
    peekPacket (offered 0 0 0 0 1 [] [(0, .rereadPacket 3)]) 3 = .mismatch ∧
    peekPacket (offered 3 0 0 0 0 [] [(0, .rereadPacket 3)]) 3 ≠ .mismatch ∧
    (takeFrom (fun x => decide (x.1 ≤ 0) && (match x.2 with
        | .rereadPacket _ => true
        | _ => false)) [(0, .rereadPacket 3)] = some (.rereadPacket 3, [])) := by
  refine ⟨by decide +kernel, by decide +kernel, ?_, ?_, ?_, ?_, by decide⟩
  · rw [offered_peek 4 0 0 0 0 [] [] _ rfl]; decide +kernel
  · rw [offered_peek 0 0 0 0 1 [] [] _ rfl]; decide +kernel
  · rw [offered_peek 0 0 0 0 1 [] _ _ rfl]; decide +kernel
  · rw [offered_peek 3 0 0 0 0 [] _ _ rfl]; decide +kernel

/-- Packets of each kind are taken. -/
theorem witness_packets_taken (ls : Map Launch) :
    (∃ u, takePacket (offered 0 0 0 0 0 ls []) 0 = some (u, 1, BitVec.ofNat 1024 (packet1 0 0 0 0 0))) ∧
    (∃ u, takePacket (offered 0 0x40 0 0 0 ls []) 0 = some (u, 1, BitVec.ofNat 1024 (packet1 0 0x40 0 0 0))) ∧
    (∃ u, takePacket (offered 0 1 0 0 0 ls []) 0 = some (u, 1, BitVec.ofNat 1024 (packet1 0 1 0 0 0))) ∧
    (∃ u, takePacket (offered 0x10 0 0 0 0 ls []) 0 = some (u, 1, BitVec.ofNat 1024 (packet1 0x10 0 0 0 0))) ∧
    (∃ u, takePacket (offered 0 0 1 0 0 ls []) 0 = some (u, 1, BitVec.ofNat 1024 (packet1 0 0 1 0 0))) ∧
    (∃ u, takePacket (offered 0 0 0 9 0 ls []) 0 = some (u, 1, BitVec.ofNat 1024 (packet1 0 0 0 9 0))) ∧
    (∃ u, takePacket (offered 1 0 0 0 0 ls []) 1 = some (u, 1, BitVec.ofNat 1024 (packet1 1 0 0 0 0))) ∧
    (∃ u, takePacket (offered 2 0 0 0 0 ls []) 2 = some (u, 1, BitVec.ofNat 1024 (packet1 2 0 0 0 0))) ∧
    (∃ u, takePacket (offered 3 0 0 0 0 ls []) 3 = some (u, 1, BitVec.ofNat 1024 (packet1 3 0 0 0 0))) := by
  refine ⟨?_, ?_, ?_, ?_, ?_, ?_, ?_, ?_, ?_⟩ <;>
    exact offered_take _ _ _ _ ls _ _ (by decide +kernel) (by decide +kernel) (by decide +kernel) (by decide)

/-- Launch packets that make a launch, with and without predecessors, and that are refused for each reason; the launches that release
and cancel act on. -/
theorem witness_packets :
    (let p := BitVec.ofNat 1024 (packet1 0 0 0 0 0);
      let s := offered 0 0 0 0 0 [] [];
      (mapGet 0 s.dev.tenant 0).getLsbD (fieldOf p 16 6) = true ∧ pktReserved p = true ∧ pktLimits p = true ∧
      (ctxOf s (fieldOf p 22 10)).st = 0 ∧ idTaken s 0 (fieldOf p 32 32) = false ∧ asidOk s (fieldOf p 22 10) 0 = true ∧ predIds p = []) ∧
    (idTaken (offered 0 0 0 0 0 [(1, launch1 .running 0)] []) 0 7 = true) ∧
    (let p := BitVec.ofNat 1024 (packet1 0 0x40 0 0 0);
      pktReserved p = true ∧ pktLimits p = true ∧ asidOk (offered 0 0x40 0 0 0 [] []) (fieldOf p 22 10) 0 = false) ∧
    ((mapGet 0 (offered 0 1 0 0 0 [] []).dev.tenant 0).getLsbD (fieldOf (BitVec.ofNat 1024 (packet1 0 1 0 0 0)) 16 6) = false) ∧
    (pktReserved (BitVec.ofNat 1024 (packet1 0x10 0 0 0 0)) = false ∧ pktLimits (BitVec.ofNat 1024 (packet1 0 0 1 0 0)) = false) ∧
    (let s := offered 0 0 0 9 0 [(1, { launch1 .running 0 with lid := 9 })] [];
      predIds (BitVec.ofNat 1024 (packet1 0 0 0 9 0)) = [9] ∧ (liveLaunch s 0 9).isSome = true ∧ idTaken s 0 7 = false) ∧
    ([LSt.pending, LSt.held, LSt.running].all fun st =>
      let s := offered 2 0 0 0 0 [(1, launch1 st 0)] [];
      decide (liveLaunch s (tdiOf s 1).tenant 7 = some 1) && decide (launchOf s 1 = some (launch1 st 0))) = true := by decide +kernel

/-! Hypotheses of the statements about recovery, tables, counters, debug and the crypto engines. -/

/-- A machine whose context 0 stands in the given state of recovery. -/
def sealing (st : Nat) (log : List Undo) : State :=
  { world id [] with ctxs := [(0, { Ctx.off with st := st, iv := 1, log := log })] }

/-- Recovery and tables: a seal, a rollback with an empty undo log and with one entry, a sweep and its acknowledgement, a frame
to rotate and none, a granule to scrub, a channel, invalidations that may and may not be made. -/
theorem witness_recovery_and_tables :
    (let s := sealing 3 [];
      sealDue s = some 0 ∧ (ctxOf s 0).held = [] ∧
      (let pa := fieldOf (asidOf s 0) 64 41 + 128 * ((ctxOf s 0).iv % 2);
        pa % 128 = 0 ∧ chanFailed s pa = false)) ∧
    (tornReady (sealing 4 []) = some 0 ∧ (ctxOf (sealing 4 []) 0).log = []) ∧
    (let u : Undo := ⟨1, 0x10000, 0, [(0x10000, 5)], []⟩;
      let s := sealing 4 [u];
      u.seq = (tornPoint s 0).2 + 1 ∧
      tornReady s = some 0 ∧ (ctxOf s 0).log = [u] ∧ memWf u.old = true ∧ (∀ e ∈ u.old, u.pa ≤ e.1 ∧ e.1 < u.pa + 4096)) ∧
    (let s := { State.reset with dev := { MemSt.reset with sweeps := [⟨0, 3, 1, [4], []⟩] } };
      sweepDue s = some (⟨0, 3, 1, [4], []⟩, 4)) ∧
    (let s := { State.reset with dev := { MemSt.reset with sweeps := [⟨0, 3, 1, [], [4]⟩] } };
      ackDue s = some (⟨0, 3, 1, [], [4]⟩, 4) ∧ (∀ m ∈ ([4] : List Nat), m = 4)) ∧
    (let s := { world id [] with dev := { (world id []).dev with rots := [⟨0, 0⟩] } };
      s.dev.rots = ⟨0, 0⟩ :: [] ∧ rotFrame s ⟨0, 0⟩ = some 0 ∧ rotFrame s ⟨0, 1⟩ = none) ∧
    (paMapped State.reset (128 * 3) = true ∧ chanFailed State.reset (128 * 3) = false ∧
      mapGet false State.reset.dev.tagBad (128 * 3 / 512) = false) ∧
    (let s := world id [];
      (tdiOf s 1).st = 0 ∧ asidOk s 0 (tdiOf s 1).tenant = true ∧ fieldOf (0#64) 48 10 = 0 ∧
      asidOk s 1 (tdiOf s 1).tenant = false ∧ fieldOf (0x1000000000000#64) 48 10 = 1) ∧
    ((0x4000000000000000#64).getLsbD 62 = true ∧ (0xC000000000000000#64).getLsbD 63 = true ∧ fieldOf (0xC000000000000000#64) 0 41 = 0) := by
  decide +kernel

/-- A machine whose core 0 is of tenant 0's partition, with debug registers `d`. -/
def debugged (d : Dbg) (f : Core → Core) : State :=
  let s := tasked .running (launch1 .running 0) f
  { s with dev := { s.dev with tenant := [(0, 1 <<< 256)] }, meas := { s.meas with dbg := [(0, d)] } }

/-- Counters and debug: a wrap that calls a roll and one that does not, a sample, a roll call, a core stopped for the debugger, arming
with a live launch and without, banks in each stage of retention. -/
theorem witness_counters_and_debug :
    (∀ b : Bool,
      let s := at0 (fun c => { c with cn := { c.cn with wraps := 4, cnt := [(2, { cntOf c 2 with cfg := if b then 0x200 else 0 })] } });
      ((List.range 16).find? fun n => s.me.cn.wraps.getLsbD n) = some 2 ∧ (cntOf s.me 2).cfg.getLsbD 9 = b) ∧
    (sampleDue { State.reset with time := 1000 } = true) ∧
    (let r : RollCall := ⟨1, 5, 2, [0], [0]⟩;
      let s := { State.reset with time := 5, meas := { State.reset.meas with rc := some r } };
      s.meas.rc = some r ∧ r.t ≤ s.time) ∧
    (let s := debugged { Dbg.zero with daddr := 4 } (fun c => { c with dstop := true });
      selCore s 0 = some 0 ∧ (s.core 0).dstop = true ∧ (dbgOf s 0).daddr = 4 ∧ 4 % 4 = 0 ∧ 0x402 % 4 = 2 ∧ 8 * (0x402 / 4) + 8 ≤ 2 ^ 23 ∧
        4 / 4 < 64 ∧ 256 % 4 = 0 ∧ 64 ≤ 256 / 4) ∧
    (liveLaunch State.reset 0 (dbgOf State.reset 0).dlid = none) ∧
    (let s := debugged { Dbg.zero with dlid := 7, wstask := 3 } id;
      let s := { s with cores := [] };
      liveLaunch s 0 (dbgOf s 0).dlid = some 1 ∧ launchOf s 1 = some (launch1 .running 0) ∧ (∀ e ∈ s.cores, runsLaunch e.2 1 = false) ∧
      (∀ e ∈ s.sched.saved, e.2.task.launch ≠ 1) ∧ mapGet false (launch1 .running 0).done (dbgOf s 0).wstask.toNat = false) ∧
    (let s := { at0 (fun c => { c with sp := { c.sp with retreq := 2 } }) with cyc := 4096 };
      entryBank s s.me = some 1) ∧
    (let s := { at0 (fun c => { c with sp := { c.sp with banks := [(1, .entering 9), (2, .exiting 9)] } }) with cyc := 9 };
      enteredBank s s.me = some 1 ∧ exitedBank s s.me = some 2) ∧
    (let c := { Core.reset with sp := { Core.reset.sp with retreq := 2, banks := [(1, .retained)] } };
      (0#64).getLsbD 1 = false ∧ c.sp.retreq.getLsbD 1 = true ∧ mapGet (BankSt.active 0) c.sp.banks 1 = .retained) := by
  decide +kernel

/-- A machine whose crypto engine at `base` runs operation `code` on 40 bytes at the start of the SRAM, with key slot 5 and an output
to slot 6 or to SRAM. -/
def engine (base code : Nat) (slotOut : Bool) (keyInSlot : Bool) : State :=
  let dst : Word := if slotOut then 0x8000000000000006 else 0x10000100
  let key : Word := if keyInSlot then 0x8000000000000005 else 0x10000000
  { State.reset with thim := { State.reset.thim with
    slots := [(5, 9)]
    eng := [(base, BitVec.ofNat 64 code), (base + 0x08, 0x10000000), (base + 0x10, 40), (base + 0x18, key), (base + 0x20, 0x10000000),
      (base + 0x28, dst), (base + 0x30, 1)] } }

/-- Crypto engines: every operation with its output in a slot and in the SRAM, its message readable and its key there; the boot
counter, the measurement extend. Whether a signature verifies is a free value (log entry 5), so neither answer is shown here. -/
theorem witness_thimble_engines :
    ([(0x000, 1), (0x000, 2), (0x100, 1), (0x100, 2), (0x200, 1), (0x200, 2), (0x200, 3), (0x300, 1), (0x300, 2), (0x300, 3), (0x300, 4),
        (0x400, 1), (0x400, 2), (0x400, 3), (0x500, 1)].all fun x => [false, true].all fun b =>
      let s := engine x.1 x.2 b true;
      decide (engCode s x.1 = x.2) && decide ((engReg s (x.1 + 0x28)).getLsbD 63 = b) && decide ((engReg s (x.1 + 0x10)).toNat % 2 ^ 32 = 40) &&
        (b || decide (0x10000000 ≤ (engReg s (x.1 + 0x28)).toNat ∧ (engReg s (x.1 + 0x28)).toNat + 3292 ≤ 0x10100000))) = true ∧
    (let s := engine 0x100 1 true true;
      (thimRead s (engReg s 0x108).toNat 48).toOption = some 0 ∧ (engKey s (engReg s 0x118) 96).toOption = some 9 ∧
      (thimRead s (engReg s 0x120).toNat 96).toOption = some 0 ∧ (engSlot s (engReg s 0x118)).toOption = some 9) ∧
    (let s := engine 0x200 1 true false;
      (thimRead s (engReg s 0x208).toNat 40).toOption = some 0 ∧ (engKey s (engReg s 0x218) 4).toOption = some 0 ∧
      0 % 2 ^ 32 ≠ 0x02000000 ∧ (engKey s (engReg s 0x218) 48).toOption = some 0) ∧
    (let s := engine 0x300 4 true true;
      (engReg s 0x328).toNat / 256 % 2 = 0 ∧ (engReg s 0x328).toNat % 256 < 12) ∧
    (State.reset.thim.bootcnt < 32768 ∧
      (let s := { engine 0x200 3 true true with thim := { (engine 0x200 3 true true).thim with bootcnt := 32768 } };
        engCode s 0x200 = 3 ∧ 32768 ≤ s.thim.bootcnt)) ∧
    (State.reset.thim.udslock = false ∧ (engine 0x400 2 true true).thim.udslock = false) ∧
    (let s := { State.reset with thim := { State.reset.thim with drbgReq := 2 ^ 20, mext := 0x8000000000000010, mextsrc := 0x10000000 } };
      2 ^ 20 ≤ s.thim.drbgReq ∧ s.thim.mext.getLsbD 63 = true ∧ fieldOf s.thim.mext 0 32 = 16 ∧
      (mapGet 0 s.thim.ms 16).getLsbD 416 = false ∧ (thimRead s s.thim.mextsrc.toNat 48).toOption = some 0) ∧
    (let s := { State.reset with thim := { State.reset.thim with mext := 0x8000000000000006 } };
      s.thim.mext.getLsbD 63 = true ∧ 6 ≤ fieldOf s.thim.mext 0 32 ∧ fieldOf s.thim.mext 0 32 ≤ 15) := by
  decide +kernel

/-! Hypotheses of the statements about ports, the host, the services, migration and the platform. -/

/-- A machine whose port 2 is `p`, with stream 2051 of tenant 0 bound at it, in whose group 0 rank 1 is behind port 2. -/
def ported (p : Port) (authMs : Bool) : State :=
  let s := world id []
  { s with
    dev := { s.dev with mem := s.dev.mem ++ [(0x10000, 0x10), (0x10002, 2)] }
    thim := { s.thim with stage := 4, ms := if authMs then [(5, 0)] else [] }
    links := { s.links with
      ports := [(2, p)], streams := [(2051, ⟨0, 0, 0, 0, 0⟩)]
      groups := [(0, BitVec.ofNat 256 (1 + 0x10000 * 2 ^ 64 + 2 ^ 30 + 2 ^ 255))] } }

/-- Ports: each state and each event of it; a flit whose peer may name the rank and one whose peer may not. -/
theorem witness_port_events :
    (let s := ported { Port.zero with enabled := true } false;
      (portOf s 2).st = 0 ∧ (portOf s 2).enabled = true) ∧
    ([1, 2, 3, 4].all fun st => decide ((portOf (ported { Port.zero with st := st } false) 2).st = st)) = true ∧
    (fieldOf (0xFF#64) 0 8 = 255 ∧ fieldOf (0x0F#64) 0 8 % 16 = 15 ∧ fieldOf (0xF0#64) 0 8 / 16 = 15 ∧
      fieldOf (0x77#64) 0 8 % 16 ≠ 15 ∧ fieldOf (0x77#64) 0 8 / 16 ≠ 15) ∧
    (let s := ported { Port.zero with st := 3, wide := true } false;
      (portOf s 2).st = 3 ∧ (portOf s 2).wide = true ∧ thimOpen s = true ∧ 1024 * 2 + 3 = 2051 ∧
      s.links.streams.find? (fun e => decide (e.1 = 2051)) = some (2051, ⟨0, 0, 0, 0, 0⟩) ∧ (∀ e ∈ s.links.streams, e.1 ≠ 2052) ∧
      peerMay s 2 0 0 1 = true ∧ peerMay s 2 0 0 0 = false ∧ (groupEntry s 0).getLsbD 30 = true ∧ barOf s 0 4 = none ∧ s.links.bars = []) := by
  decide +kernel

/-- A machine whose VF 1 is `t`, with the services open, tenant 0's entry `e`. -/
def hosted (t : Tdi) (e : BitVec 512) : State :=
  let s := world id []
  { s with
    dev := { s.dev with tenant := [(0, e)] }
    thim := { s.thim with stage := 4 }
    links := { s.links with tdi := [(1, t)] } }

/-- Host: a BAR2 access that is open and one that is not, TDISP requests in each state, a stop of the function that is bound, a host
completion and its absence. -/
theorem witness_host_events :
    (let s := hosted ⟨2, 0x8000000000010000, 0, true, 0, 0⟩ 0;
      bar2Open s ⟨1, 0, 2, 0, 0, 0, true⟩ = true ∧ bar2Open s ⟨1, 0, 2, 0, 0, 0, false⟩ = false ∧
      ([false, true].all fun w => match hostRange s (fieldOf (tdiOf s 1).win 48 10) 0 (fieldOf (tdiOf s 1).win 0 48 + 0) w 2 with
        | .ok l => decide (l = [0x10000, 0x10001]) && decide l.Nodup && l.all fun a => !isHostFrame s a && !chanFailed s a &&
            decide (durableCtx s a = none) && !mapGet false s.dev.tagBad (a / 512) && !mapGet false s.dev.syn (a / 128)
        | .error _ => false) = true ∧
      (match hostRange s (fieldOf (tdiOf s 1).win 48 10) 0 (fieldOf (tdiOf s 1).win 0 48 + 0x10000) true 2 with
        | .ok _ => false
        | .error e => decide (e.1 = .owner)) = true) ∧
    (let s := hosted Tdi.zero 0;
      thimOpen s = true ∧ (tdiOf s 1).st = 0 ∧ (mapGet 0 s.dev.tenant 3).getLsbD 64 = false ∧ coresFree s 0xFF = true) ∧
    (let s := hosted ⟨1, 0, 0, false, 0, 0⟩ 0;
      thimOpen s = true ∧ (tdiOf s 1).st = 1) ∧
    (let s := hosted ⟨2, 0, 0, true, 0, 0⟩ (BitVec.ofNat 512 (2 ^ 64 + 2 ^ 65));
      thimOpen s = true ∧ (tdiOf s 1).st = 2 ∧ (mapGet 0 s.dev.tenant 0).getLsbD 64 = true ∧ fieldOf (mapGet 0 s.dev.tenant 0) 65 8 = 1 ∧
      genOf s 0 7 < 0xFFFF) ∧
    (let m := cmd1 2 (copyOf view2 (.cpin ⟨1, 0, 0, 0, 1, 0, 0⟩) 0 false) false;
      let s := world (hasCmd m Sem.zero) [];
      let s := { s with links := { s.links with hostReq := [(4, 0, .read 0 2 0 0 0x10000)] } };
      s.links.hostReq.find? (fun r => decide (r.1 = 4)) = some (4, 0, .read 0 2 0 0 0x10000) ∧ cmdOf s 0 2 0 = some m ∧
      hostLate s = some (4, 0, .read 0 2 0 0 0x10000)) := by decide +kernel

/-- A machine that serves tenant 0, bound with owner 0, whose context 1 is durable and whose frame 1 may be. -/
def serving (f : State → State) : State :=
  f { hosted ⟨2, 0, 0, true, 0, 0⟩ (BitVec.ofNat 512 (1 + 2 ^ 64 + 2 ^ 65)) with plat := { State.reset.plat with inv := 1 } }

/-- Services: a caller that may, and every request with what it needs; an illegal view; a frame that is not free. -/
theorem witness_services :
    (let s := serving id;
      MayServe s 0 0 0 ∧ MayServe s 0 0 2 ∧ MayServe s 1024 0 1 ∧ MayServe s 1024 0 2) ∧
    (let s := serving id;
      let fr : List (Nat × Nat) := [(0x20000, 0x40000)];
      fr.all (fun e => isFrame s e.1 && decide (potState (potOf s e.1) = 0)) = true ∧
      [((0 : Nat), (0 : Nat))].all (fun e => isFrame s e.1 && decide (potState (potOf s e.1) = 0)) = false ∧
      [((0x10000 : Nat), (0 : Nat))].all (fun e => ownedIn s 0 [1] e.1 && !(potOf s e.1).getLsbD 13) = true ∧
      s.links.tdi.any (fun e => e.2.ide && decide (e.2.tenant = 0)) = true ∧ (fr.map (·.1)).Nodup ∧
      (∀ e ∈ fr, isFrame s e.1 = true ∧ potState (potOf s e.1) = 0 ∧ e.2 % 65536 = 0) ∧
      (∀ e ∈ [((0x10000 : Nat), (0 : Nat))], ownedIn s 0 [1, 2, 5] e.1 = true) ∧ genOf s 0 3 < 0xFFFF) ∧
    (let s := serving fun s => { s with dev := { s.dev with asid := [(0, 1), (1, 0x801)] } };
      ownedIn s 0 [1] 0x10000 = true ∧ asidOk s 1 0 = true ∧ (asidOf s 1).getLsbD 11 = true ∧ (potOf s 0x10000).getLsbD 13 = false) ∧
    (let s := serving fun s => { s with dev := { s.dev with
        asid := [(0, 1), (1, 0x801)], pot := [(0, 0x400), (1, 0x2400)], dur := [(1, 0x10000)] } };
      ownedIn s 0 [1] 0x10000 = true ∧ asidOk s 1 0 = true ∧ durableCtx s 0x10000 = some 1) ∧
    (let s := serving fun s => { s with thim := { s.thim with ms := [] }, dev := { s.dev with gens := [(3, 0xFFFF)] } };
      0xFFFF ≤ genOf s 0 3 ∧ (mapGet 0 s.thim.ms 16).getLsbD 416 = false ∧ formEn s 0 = true ∧ (flendOf s 0).getLsbD 12 = false ∧
      (4096 : Nat) / 4096 % 2 = 1) ∧
    (let s := serving fun s => { s with sched := { s.sched with flend := [(0, 0x1000)] } };
      formEn s 0 = true ∧ (flendOf s 0).getLsbD 12 = true) ∧
    (let s := serving id;
      let e := mapGet 0 s.dev.tenant 0;
      e.getLsbD 64 = true ∧ e.getLsbD 74 = false ∧
      BitVec.ofNat 64 1 &&& ~~~ ((mapGet 0 s.dev.tenant 0).extractLsb' 0 64) = 0) := by
  refine ⟨⟨⟨rfl, ?_, ?_, ?_⟩, ⟨rfl, ?_, ?_, ?_⟩, ⟨rfl, ?_, ?_, ?_⟩, ⟨rfl, ?_, ?_, ?_⟩⟩, ?_, ?_, ?_, ?_, ?_, ?_⟩ <;> decide +kernel

/-- A context entry that may be written, durable or not; a view that may be minted and one that may not; a stream, a group and
its end. -/
theorem witness_context_mint_and_link :
    (∀ b : Bool,
      let s := serving id;
      let e : BitVec 256 := if b then BitVec.ofNat 256 (1 + 2 ^ 11 + 3 * 2 ^ 105) else 1;
      e.getLsbD 11 = b ∧ fieldOf e 12 4 = 0 ∧ fieldOf e 45 19 = 0 ∧ e.getLsbD 0 = true ∧ fieldOf e 1 10 = 0 ∧
      ((asidOf s 1).getLsbD 0 = true → fieldOf (asidOf s 1) 1 10 = 0) ∧ (ctxOf s 1).st = 0 ∧
      (b = true → 3 ≤ fieldOf e 105 23 ∧ fieldOf e 64 41 % 4096 = 0) ∧
      (∀ f ∈ framesIn (fieldOf e 128 41) (4224 * fieldOf e 169 23) ++ framesIn (fieldOf e 192 41) (32 * fieldOf e 233 23), f = 0) ∧
      (ownedIn s 0 [1] 0x10000 = true ∧ (potOf s 0x10000).getLsbD 13 = false)) ∧
    (let s := serving id;
      let x : BitVec 512 := BitVec.ofNat 512 (0x10000 + 32 * 2 ^ 48);
      (viewLegal x && asidOk s (hAsid x) 0 && decide (genOf s 0 (hFamily x) < 0xFFFF) && viewMay s 0 x) = false ∧
      hGen x = 0 ∧ fieldOf x 448 64 = 0) ∧
    (let s := serving id;
      let x : BitVec 512 := BitVec.ofNat 512 (0x10000 + 32 * 2 ^ 48 + 2 ^ 64 + 2 ^ 80 + 2 ^ 96 + 0x1F * 2 ^ 358);
      (viewLegal x && asidOk s (hAsid x) 0 && decide (genOf s 0 (hFamily x) < 0xFFFF) && viewMay s 0 x) = true ∧
      hGen x = 0 ∧ fieldOf x 448 64 = 0) ∧
    (let s := serving fun s => { s with links := { s.links with ports := [(2, { Port.zero with st := 3 })] } };
      (portOf s (2051 / 1024)).st = 3 ∧ s.links.streams = [] ∧ mapGet false s.links.shut 2051 = false) ∧
    (let x : BitVec 512 := BitVec.ofNat 512 (2 ^ 255 + 0x10000 * 2 ^ 64);
      let s := serving fun s => { s with dev := { s.dev with mem := s.dev.mem ++ [(0x10000, 1)] } };
      let s1 : State := { s with links := { s.links with groups := mapSet 0 s.links.groups 5 (x.extractLsb' 0 256) } };
      fieldOf (x.extractLsb' 0 256) 45 19 = 0 ∧ fieldOf (x.extractLsb' 0 256) 160 95 = 0 ∧ x.getLsbD 255 = true ∧
      (groupEntry s 5).getLsbD 255 = false ∧ grpTenant (x.extractLsb' 0 256) = 0 ∧ asidOk s (grpAsid (x.extractLsb' 0 256)) 0 = true ∧
      localRanks s1 5 = []) ∧
    (let s := serving fun s => { s with links := { s.links with streams := [(2051, ⟨0, 0, 0, 0, 0⟩)] } };
      s.links.streams.find? (fun e => decide (e.1 = 2051)) = some (2051, ⟨0, 0, 0, 0, 0⟩)) := by decide +kernel

/-- Migration in each state and stopped at last; the Timetable with its standby and without; the role to be written. -/
theorem witness_migration_and_timetable :
    ([0, 1, 2, 3].all fun n => decide ((migOf { State.reset with sched := { State.reset.sched with mig := [(3, ⟨n, false, 0, []⟩)] } } 3).st = n))
      = true ∧
    stopReady { State.reset with sched := { State.reset.sched with mig := [(3, ⟨2, false, 0, []⟩)] } } = some 3 ∧
    ([false, true].all fun b => decide ((
      { State.reset with sched := { State.reset.sched with tt := { Ttab.reset with standby := b } } } : State).sched.tt.standby = b)) = true ∧
    (State.reset.sched.tt.role1 = false ∧ (1#64).getLsbD 0 = true) := by decide +kernel

/-- The platform: a panel reset with nothing in recovery, hot and cool sites, power above and below the limit, and every register
write with its function's state. -/
theorem witness_platform :
    (∀ a, (ctxOf State.reset a).st = 0) ∧
    (memReadNat State.reset.thim.flash 0 4 ≠ 0x4B534854 ∧ State.reset.sched.tt.standby = true) ∧
    ((mapGet 0 State.reset.links.pf0 0x100).toNat < 6001 ∧ 100 * 5000 ≤ 95 * (mapGet 0 State.reset.links.pf0 0x100).toNat ∧
      State.reset.plat.lowerAt ≤ State.reset.time) ∧
    ([0, 1, 2, 3].all fun st => decide ((tdiOf (hosted ⟨st, 0, 0, false, 0, 0⟩ 0) 1).st = st)) = true ∧
    ((0x8000000000000000#64) &&& 0x83FFFFFFC0000000 ≠ (tdiOf (hosted ⟨1, 0, 0, false, 0, 0⟩ 0) 1).win) ∧
    (engReg State.reset 0x030 = 0 ∧ (1#64).extractLsb' 0 8 = 1#8 ∧ 2 < ((7#64).extractLsb' 0 8).toNat ∧ (1#64).getLsbD 0 = true ∧
      (if (0 : Nat) = 0 then State.reset.sched.tt.role0 else State.reset.sched.tt.role1) = true) := by
  refine ⟨fun _ => rfl, ?_⟩
  decide +kernel

/-! Hypotheses of the statements about a step, and single steps. -/

/-- The machine whose next word is `w`. -/
def turn (w : Nat) : State := State.reset.withFetchWord 48 w

/-- The machine with core 0 `f` of that core. -/
def onCore0 (s : State) (f : Core → Core) : State := { s with cores := s.cores.map fun e => (e.1, f e.2) }

/-- The turn of the sequencer of core 0, with a word that decodes, one of an engine, one that is none, one outside the code window. -/
theorem witness_step_runs_decoded :
    (let s := turn 0x000304200000;
      let i : Instr := .add ⟨3, 1, 2, 0⟩;
      let c := s.core 0;
      let u : State := { s with cur := 0 };
      SeqNext s 0 i ∧ pcMatch s 0 = none ∧ c.seq.pc.toNat < c.sys.codesize ∧ fetchOwned c = true ∧
      portAsk c s.cyc 1 ((wordParts c).map fun p => lineOf p.1) = none ∧ portAsk c s.cyc 0 (dataLines u c i) = none ∧
      decode (fetchWord s c) = .ok i ∧ queueOfWord (fetchWord s c) = none) ∧
    (let s := turn 0x500D2C0280B2;
      SeqNext s 0 .enqueue ∧ pcMatch s 0 = none ∧ queueOfWord (fetchWord s (s.core 0)) = some 1) ∧
    (let s := turn 0;
      SeqNext s 0 .illegalWord ∧ pcMatch s 0 = none ∧ decode (fetchWord s (s.core 0)) = .illegal 0) ∧
    (let s := onCore0 (turn 0) fun c => { c with sys := { c.sys with codesize := 0 } };
      SeqNext s 0 .illegalWord ∧ (s.core 0).sys.codesize ≤ (s.core 0).seq.pc.toNat) := by
  refine ⟨⟨⟨⟨⟨rfl, rfl, rfl⟩, ?_, ?_, ?_⟩, Or.inr ?_⟩, ?_⟩, ⟨⟨⟨⟨rfl, rfl, rfl⟩, ?_, ?_, ?_⟩, Or.inr ?_⟩, ?_⟩,
    ⟨⟨⟨⟨rfl, rfl, rfl⟩, ?_, ?_, ?_⟩, Or.inr ?_⟩, ?_⟩, ⟨⟨⟨rfl, rfl, rfl⟩, ?_, ?_, ?_⟩, Or.inr ?_⟩, ?_⟩ <;> decide +kernel

/-- A word in another tenant's line, one whose bank has been retained and one whose bank is taken, and a load of such a bank. -/
theorem witness_fetch_waits :
    let s := turn 0x000304200000
    let line (c : Core) : List Nat := (wordParts c).map fun p => lineOf p.1
    let i : Instr := .add ⟨3, 1, 2, 0⟩
    (let t := onCore0 s fun c => { c with sp := { c.sp with tagDef := 3 } };
      fetchOwned (t.core 0) = false ∧ (t.core 0).trap = none ∧ pcMatch t 0 = none ∧ SeqNext t 0 i) ∧
    (let t := onCore0 s fun c => { c with sp := { c.sp with banks := [(0, .retained)] } };
      fetchOwned (t.core 0) = true ∧ (portAsk (t.core 0) t.cyc 1 (line (t.core 0))).isSome = true ∧ SeqNext t 0 i) ∧
    (let t := onCore0 s fun c => { c with sp := { c.sp with served := [0] } };
      fetchOwned (t.core 0) = true ∧ (portAsk (t.core 0) t.cyc 1 (line (t.core 0))).isSome = true ∧ SeqNext t 0 i) ∧
    (let j : Instr := .ld ⟨7, 1, 2, 0⟩;
      let t := onCore0 (turn ((encode j).getD 0).toNat) fun c =>
        { c with seq := { c.seq with nextAt := 0 }, sp := { c.sp with banks := [(1, .retained)] } };
      let t := onCore0 t (fun c => setS c 1 128);
      fetchOwned (t.core 0) = true ∧ portAsk (t.core 0) t.cyc 1 (line (t.core 0)) = none ∧
      (portAsk (t.core 0) t.cyc 0 (dataLines { t with cur := 0 } (t.core 0) j)).isSome = true ∧ pcMatch t 0 = none ∧ SeqNext t 0 j) := by
  refine ⟨⟨?_, ?_, ?_, ⟨⟨rfl, rfl, rfl⟩, ?_, ?_, ?_⟩, Or.inr ?_⟩, ⟨?_, ?_, ⟨⟨rfl, rfl, rfl⟩, ?_, ?_, ?_⟩, Or.inr ?_⟩,
    ⟨?_, ?_, ⟨⟨rfl, rfl, rfl⟩, ?_, ?_, ?_⟩, Or.inr ?_⟩, ⟨?_, ?_, ?_, ?_, ⟨⟨rfl, rfl, rfl⟩, ?_, ?_, ?_⟩, Or.inr ?_⟩⟩ <;> decide +kernel

/-- A breakpoint at the word, an entry that is due to issue, an event from outside, events of the cores and between them, a debug
access, nothing at all left in the cycle, no power. -/
theorem witness_other_turns :
    (let t := onCore0 (turn 0x000304200000) fun c => { c with exempt := false, sys := { c.sys with launchid := 7 } };
      let t := { t with meas := { t.meas with dbg := [(0, { Dbg.zero with dlid := 7, bkpc := [(2, 0x100000000)] })] } };
      (pcMatch t 0).isSome = true ∧ SeqNext t 0 .pcMatch) ∧
    (let s := tasked .running (launch1 .running 0) (fun c =>
        { c with qv := { c.qv with ents := [{ QEntry.none with i := .vaddF32 ⟨1, 1, 2, 3, 0⟩ }], running := true } });
      WordsNext s ∧ firstCore s (earlyRow s) = none ∧
      firstCore s (fun n _ => issueDue s n false) = some (0, { QEntry.none with i := .vaddF32 ⟨1, 1, 2, 3, 0⟩ })) ∧
    (let s := { State.reset with inputs := [(0, .droop ⟨3⟩)] };
      s.down = false ∧ takeUpset s s.upsets = none ∧
      takeInput s (fun i => isOutside i && !svcWaits s i && !isDdata i) s.inputs = some (.droop ⟨3⟩, [])) ∧
    (let s := at0 (fun c => { c with sys := { c.sys with timecmp := 1 } });
      let s := { s with time := 1 };
      Undisturbed s ∧ firstCore s undoRow = none ∧ firstCore s (coreEvent s) = some (0, .timerEvent)) ∧
    (let s := { State.reset with work := [(0, .rereadPacket 3)] };
      Undisturbed s ∧ firstCore s undoRow = none ∧ firstCore s (coreEvent s) = none ∧ sharedEvent s = some .packetReread) ∧
    (let s := { State.reset with inputs := [(0, .ddataAccess ⟨0, false, 0⟩)] };
      Undisturbed s ∧ (nextEvent s).isNone = true ∧
      takeInput s (fun i => isDdata i && !ddataHeld s i) s.inputs = some (.ddataAccess ⟨0, false, 0⟩, [])) ∧
    (Undisturbed State.reset ∧ (nextEvent State.reset).isNone = true ∧
      takeInput State.reset (fun i => isDdata i && !ddataHeld State.reset i) State.reset.inputs = none ∧ State.reset.thim.pend = []) ∧
    (let s := { State.reset with down := true, inputs := [(0, .packagePowerOn)] };
      s.down = true ∧ (∃ x ∈ s.inputs, isPowerOn x.2 = true)) ∧
    (wellFormed (.add ⟨3, 1, 2, 3⟩) = true ∧ encode (.add ⟨3, 1, 2, 3⟩) = some 0x000304200003#48 ∧
      decode 0x000304200003#48 = .ok (.add ⟨3, 1, 2, 3⟩)) := by
  refine ⟨⟨?_, ⟨⟨rfl, rfl, rfl⟩, ?_, ?_, ?_⟩, Or.inr ?_⟩, ⟨⟨⟨rfl, rfl, rfl⟩, ?_, ?_, ?_⟩, ?_, ?_⟩, ?_, ⟨⟨rfl, rfl, rfl⟩, ?_, ?_⟩,
    ⟨⟨rfl, rfl, rfl⟩, ?_, ?_, ?_⟩, ⟨⟨rfl, rfl, rfl⟩, ?_, ?_⟩, ⟨⟨rfl, rfl, rfl⟩, ?_, rfl, rfl⟩, ?_, ?_⟩ <;> decide +kernel

/-- A step of the reset machine keeps the memory's form. -/
theorem witness_step_keeps : DevCanonical State.reset ∧ (∃ t, step State.reset = .next t) := by
  refine ⟨rfl, ?_⟩
  have h : (match step State.reset with
    | .next _ => true
    | _ => false) = true := by decide +kernel
  revert h
  cases step State.reset with
  | next t => exact fun _ => ⟨t, rfl⟩
  | fault _ => simp
  | refused _ => simp

/-- What a scalar register of core 0 holds after the instruction. -/
def after (i : Instr) (s : State) (r : BitVec 6) : Option Word :=
  match exec i s with
  | .next t => some (getS t.me r)
  | _ => none

/-- R110: division by zero, and of −2^63 by −1. -/
theorem test_division_corners :
    after (.div ⟨4, 1, 2⟩) (at0 (regs 7 0 0)) 4 = some 0xFFFFFFFFFFFFFFFF ∧ after (.divu ⟨4, 1, 2⟩) (at0 (regs 7 0 0)) 4 = some 0xFFFFFFFFFFFFFFFF ∧
    after (.rem ⟨4, 1, 2⟩) (at0 (regs 7 0 0)) 4 = some 7 ∧ after (.remu ⟨4, 1, 2⟩) (at0 (regs 7 0 0)) 4 = some 7 ∧
    after (.div ⟨4, 1, 2⟩) (at0 (regs 0x8000000000000000 0xFFFFFFFFFFFFFFFF 0)) 4 = some 0x8000000000000000 ∧
    after (.rem ⟨4, 1, 2⟩) (at0 (regs 0x8000000000000000 0xFFFFFFFFFFFFFFFF 0)) 4 = some 0 := by decide +kernel

/-- R111: the scaled ADD, from the spec's own example: element s5 of an 8-byte array at s20. -/
theorem test_scaled_add :
    after (.add ⟨3, 1, 2, 3⟩) (at0 (regs 0x1000 5 0)) 3 = some 0x1028 ∧
    after (.add ⟨3, 1, 2, 0⟩) (at0 (regs 0xFFFFFFFFFFFFFFFF 1 0)) 3 = some 0 := by decide +kernel

/-- R111: the immediate is sign-extended, and SLTU then compares it as unsigned. -/
theorem test_immediates :
    after (.addSi ⟨3, 1, 0x3FFFFFF⟩) (at0 (regs 5 0 0)) 3 = some 4 ∧ after (.sltuSi ⟨3, 1, 0x3FFFFFF⟩) (at0 (regs 5 0 0)) 3 = some 1 ∧
    after (.sltSi ⟨3, 1, 0x3FFFFFF⟩) (at0 (regs 5 0 0)) 3 = some 0 ∧
    after (.sarSi ⟨3, 1, 4⟩) (at0 (regs 0x8000000000000000 0 0)) 3 = some 0xF800000000000000 := by decide +kernel

/-- R106: s0 discards what is written and reads as zero. -/
theorem test_zero_register : after (.add ⟨0, 1, 2, 0⟩) (at0 (regs 5 6 0)) 0 = some 0 := by decide +kernel

/-! Hypotheses of clauses, at the values where clauses meet. -/

/-- Which clauses of FCLASS a word of 32 bits falls under, in the order of the statement. -/
def classClauses (x : Nat) : List Bool :=
  [decide (x = 0xFF800000), decide (0x80800000 ≤ x ∧ x < 0xFF800000), decide (0x80000000 < x ∧ x < 0x80800000), decide (x = 0x80000000),
    decide (x = 0), decide (0 < x ∧ x < 0x00800000), decide (0x00800000 ≤ x ∧ x < 0x7F800000), decide (x = 0x7F800000),
    decide ((0x7F800000 < x ∧ x < 0x80000000) ∨ 0xFF800000 < x)]

/-- FMIN and FMAX with a NaN on either side, with −0 and +0, with −1 and 1; FCLASS at both ends of each class, each value under one
clause; FCMP ordered both ways, equal and unordered; every convertible pair of formats under every rounding mode, and a refused one. -/
theorem witness_ScalarFloatWords :
    (let v (x : Word) : FVal := fdecode f32 ((getS (at0 (regs x 0 0)).me 1).toNat % 2 ^ 32);
      fvIsNan (v 0x7FC00000) = true ∧ fvIsNan (v 0x3F800000) = false ∧ fvCmp (v 0x80000000) (v 0) = 0 ∧ (match v 0x80000000 with
        | .fin n _ _ => n
        | _ => false) = true ∧
      fvCmp (v 0xBF800000) (v 0x3F800000) < 0 ∧ 0 < fvCmp (v 0x3F800000) (v 0xBF800000) ∧ v 0x7FC00000 = .nan ∧ v 0x3F800000 ≠ .nan) ∧
    ([(0xFF800000, 0), (0x80800000, 1), (0xFF7FFFFF, 1), (0x80000001, 2), (0x807FFFFF, 2), (0x80000000, 3), (0, 4), (1, 5), (0x007FFFFF, 5),
        (0x00800000, 6), (0x7F7FFFFF, 6), (0x7F800000, 7), (0x7F800001, 8), (0x7FFFFFFF, 8), (0xFF800001, 8), (0xFFFFFFFF, 8)].all fun x =>
      let l := classClauses ((getS (at0 (regs (BitVec.ofNat 64 x.1) 0 0)).me 1).toNat % 2 ^ 32);
      l == (List.range 9).map fun k => k == x.2) = true ∧
    ((List.range 10).all fun src => (List.range 10).all fun dst => (List.range 5).all fun mode =>
      let o : FcvtOp := ⟨1, 2, 0, BitVec.ofNat 3 mode, BitVec.ofNat 6 dst, BitVec.ofNat 6 src⟩;
      (fmtOfCode o.src.toNat).isSome && (fmtOfCode o.dst.toNat).isSome && (rmodeOfCode o.mode.toNat).isSome && decide (o.src.toNat ≤ 9) &&
        decide (o.dst.toNat ≤ 9)) = true ∧
    (let o : FcvtOp := ⟨1, 2, 0, 0, 10, 9⟩;
      reservedOk (.fcvt o) = true ∧ ¬(o.src.toNat ≤ 9 ∧ o.dst.toNat ≤ 9) ∧ (encode (.fcvt o)).isSome = true) := by decide +kernel

/-- Scalar accesses: the last bytes of the scratchpad in a bank that is ACTIVE, whose unit has no mark; a slot's byte and none. -/
theorem witness_ScalarAccesses :
    let s := at0 (regs 0x7FFFFF 0x7FFFF8 0)
    (getS s.me 1).toNat < 2 ^ 23 ∧ (getS s.me 2).toNat < 2 ^ 23 ∧ (getS s.me 2).toNat % 8 = 0 ∧ bankAwake s.me (bankOf (0x7FFFF8 / 128)) = true ∧
    mapGet s.me.sp.tagDef s.me.sp.tag (0x7FFFF8 / 128) = s.me.sys.tenant ∧ mapHas s.me.sp.erace (0x7FFFF8 / 8) = false ∧
    mapGet false s.me.sp.dbe (0x7FFFF8 / 8) = false ∧ mapGet false s.me.sp.sbe (0x7FFFF8 / 8) = false ∧ slotByte s.me 0x7FFFF8 = none := by
  decide +kernel

/-- A sealed record with nothing set but bit 0, whatever its seal. -/
theorem sealed_record : ∃ x : BitVec 512, x = sealRec 0 x ∧ x ≠ 0 ∧ ∀ lo len, lo + len ≤ 448 → fieldOf x lo len = fieldOf (1#448) lo len := by
  obtain ⟨S, hS⟩ : ∃ S, S = sealOf 0 1 := ⟨_, rfl⟩
  have h1 : (S ++ 1#448).extractLsb' 0 448 = 1#448 := BitVec.extractLsb'_append_eq_right
  refine ⟨S ++ 1#448, ?_, ?_, ?_⟩
  · have h2 : (S ++ 1#448).toNat % 2 ^ 448 = 1 := by
      have := congrArg BitVec.toNat h1
      rwa [BitVec.extractLsb'_toNat, Nat.shiftRight_zero] at this
    unfold sealRec
    rw [h1, h2, ← hS]
  · intro h
    have := congrArg (BitVec.extractLsb' 0 448) h
    rw [h1] at this
    exact absurd this (by decide)
  · intro lo len h
    have e {n : Nat} (x : BitVec n) : fieldOf x lo len = (x.extractLsb' lo len).toNat := by
      simp [fieldOf, BitVec.extractLsb'_toNat, Nat.shiftRight_eq_div_pow]
    rw [e, e, BitVec.extractLsb'_append_eq_of_add_le h]

/-- A core at whose byte 0 the record `x` stands. -/
def holding (x : BitVec 512) (c : Core) : Core := { c with sp := { c.sp with bytes := memWriteNat [] 0 64 x.toNat } }

theorem holding_reads (x : BitVec 512) : BitVec.ofNat 512 (memReadNat (at0 (holding x)).me.sp.bytes 0 64) = x := by
  show BitVec.ofNat 512 (memReadNat (memWriteNat [] 0 64 x.toNat) 0 64) = x
  rw [memReadNat_memWriteNat]
  have : x.toNat < 256 ^ 64 := by rw [show 256 = 2 ^ 8 from rfl, ← Nat.pow_mul]; exact x.isLt
  rw [Nat.mod_eq_of_lt this, BitVec.ofNat_toNat, BitVec.setWidth_eq]

/-- HLD: the last record of the scratchpad, empty; sealed records that are the tenant's and of the generation, of another tenant, of another
generation; one whose seal does not hold; a line with a code; addresses out of range, straddling the end, misaligned, another tenant's. -/
theorem witness_HandleLoad :
    (∃ (s : State) (a : Nat), PadReach s.me a 64 ∧ PadClean s.me ∧ lineCode s.me (a / 128) = 0 ∧ a = 2 ^ 23 - 64 ∧
      BitVec.ofNat 512 (memReadNat s.me.sp.bytes a 64) = (0 : BitVec 512)) ∧
    (∃ x : BitVec 512, let s := at0 (holding x);
      BitVec.ofNat 512 (memReadNat s.me.sp.bytes 0 64) = x ∧ PadReach s.me 0 64 ∧ PadClean s.me ∧ lineCode s.me 0 = 0 ∧ x ≠ 0 ∧
      x = sealRec (panelKey s s.cur) x ∧ fieldOf x 404 44 = 0 ∧
      fieldOf (asidOf s (hAsid x)) 1 10 = s.me.sys.tenant ∧ hGen x = genOf s s.me.sys.tenant (hFamily x) ∧
      (let t := { s with dev := { s.dev with asid := [(0, 10)] } };
        x = sealRec (panelKey t t.cur) x ∧ fieldOf (asidOf t (hAsid x)) 1 10 ≠ t.me.sys.tenant) ∧
      (let t := { s with dev := { s.dev with gens := [(0, 5)] } };
        fieldOf (asidOf t (hAsid x)) 1 10 = t.me.sys.tenant ∧ hGen x ≠ genOf t t.me.sys.tenant (hFamily x))) ∧
    (let x : BitVec 512 := 1 <<< 404; x ≠ 0 ∧ ¬(x = sealRec (panelKey (at0 (holding x)) 0) x ∧ fieldOf x 404 44 = 0)) ∧
    (let s := at0 fun c => { c with sp := { c.sp with code := [(0, 2)] } };
      PadReach s.me 0 64 ∧ PadClean s.me ∧ lineCode s.me (0 / 128) ≠ 0) ∧
    (let s := at0 (regs 0x800000 0x7FFFC1 0x7FFFA0);
      2 ^ 23 ≤ (getS s.me 1).toNat ∧ (getS s.me 2).toNat < 2 ^ 23 ∧ 2 ^ 23 < (getS s.me 2).toNat + 64 ∧ (getS s.me 3).toNat + 64 ≤ 2 ^ 23 ∧
      (getS s.me 3).toNat % 64 ≠ 0) ∧
    (let s := at0 fun c => { c with sys := { c.sys with tenant := 3 } };
      (getS s.me 1).toNat + 64 ≤ 2 ^ 23 ∧ (getS s.me 1).toNat % 64 = 0 ∧ mapGet s.me.sp.tagDef s.me.sp.tag 0 ≠ s.me.sys.tenant) := by
  refine ⟨⟨State.reset, _, by unfold PadReach; decide +kernel, ⟨rfl, fun _ => rfl, rfl, rfl⟩, by decide +kernel, rfl, by decide +kernel⟩, ?_, ?_,
    ⟨by unfold PadReach; decide +kernel, ⟨rfl, fun _ => rfl, rfl, rfl⟩, by decide +kernel⟩, by decide +kernel, by decide +kernel⟩
  · obtain ⟨x, hs, h0, hf⟩ := sealed_record
    have a : hAsid x = 0 := hf 394 10 (by decide)
    have f : hFamily x = 0 := hf 386 8 (by decide)
    have g : hGen x = 0 := hf 370 16 (by decide)
    refine ⟨x, holding_reads x, ⟨by decide, by decide, rfl⟩, ⟨rfl, fun _ => rfl, rfl, rfl⟩, rfl, h0, hs, hf 404 44 (by decide), ?_, ?_,
      ⟨hs, ?_⟩, ?_, ?_⟩
    · rw [a]
      show fieldOf (0 : BitVec 256) 1 10 = 0
      decide
    · rw [g, f]; rfl
    · rw [a]
      show fieldOf (10 : BitVec 256) 1 10 ≠ 0
      decide
    · rw [a]
      show fieldOf (0 : BitVec 256) 1 10 = 0
      decide
    · have gen (u : State) (h : u.dev.gens = [(0, 5)]) : genOf u 0 0 = 5 := by unfold genOf; rw [h]; rfl
      rw [g, f]
      exact fun e => absurd (e.trans (gen _ rfl)) (by decide)
  · refine ⟨by decide, fun h => absurd h.2 (by decide)⟩

/-- FENCE with a set that is performed and one that is not. -/
theorem witness_fence_scopes :
    ((List.range 5).all fun k => setPerformed State.reset State.reset.cur k) = true ∧
    (let s := world (hasCmd { cmd1 3 amo1 false with early := true } Sem.zero) [];
      setPerformed s s.cur 4 = false ∧ allDone (slackDry busyM.me) = false) ∧
    ((encode (.fence ⟨5⟩)).isSome = true) := by decide +kernel

/-- MRECV: no message, one message to free, two, the word that has freed already. -/
theorem witness_mrecv_forms :
    let st (prod : Nat) (freed : Option (BitVec 32)) : State := at0 fun c =>
      { c with sys := { c.sys with inboxProd := prod, inboxSize := 4 }, seq := { c.seq with freed := freed } }
    let next (s : State) : Nat := (s.me.sys.inboxCons + (padValue s.me (s.me.sys.inboxBase + 128 * (s.me.sys.inboxCons % max 1 s.me.sys.inboxSize) + 1) 1).toNat
      % 32 + 2) % 2 ^ 32
    ((st 2 none).me.seq.wait = none ∧ (st 2 none).me.seq.freed ≠ some (st 2 none).me.seq.pc ∧ (st 2 none).me.sys.inboxProd ≠ (st 2 none).me.sys.inboxCons ∧
      (st 2 none).me.sys.inboxProd = next (st 2 none)) ∧
    ((st 4 none).me.sys.inboxProd ≠ next (st 4 none)) ∧
    ((st 2 (some 0)).me.seq.freed = some (st 2 (some 0)).me.seq.pc) ∧
    ((st 0 none).me.sys.inboxProd = (st 0 none).me.sys.inboxCons ∧ (encode (.mrecv ⟨1, 1, 1⟩)).isSome = true) := by decide +kernel

/-- RREL with what it waits for performed, at both scopes; a context whose release counted and one whose did not. -/
theorem witness_release_scopes :
    (setPerformed State.reset State.reset.cur 4 = true ∧ (ctxOf State.reset State.reset.me.sys.casid).st = 0) ∧
    (let s := inContext 1 0;
      setPerformed s s.cur 5 = true ∧ (ctxOf s s.me.sys.casid).st = 1 ∧ allDone (slackDry s.me) = true) := by decide +kernel

/-- Conversions: every pair of the formats with every rounding mode, a part of the register that the operand names, an active lane and
none; reductions of a segment with no active lane. -/
theorem witness_conversions_and_reductions :
    ((List.range 10).all fun a => (List.range 10).all fun b => (List.range 5).all fun r =>
      let s := issues0 1 { QEntry.none with i := .vcvt ⟨1, 0, 2, 3, 0, 0, 0⟩, caps := [BitVec.ofNat 64 (a + b * 2 ^ 6 + r * 2 ^ 12 + 2 ^ 15)] } id
      let d := cap s.me.latch 0
      (match fmtOfCode (d.toNat % 64), fmtOfCode (d.toNat / 2 ^ 6 % 64) with
      | some df, some sf => decide (0 < max (8192 / fmtBits df) (8192 / fmtBits sf) / min (8192 / fmtBits df) (8192 / fmtBits sf))
      | _, _ => false) && (rmodeOfCode (d.toNat / 2 ^ 12 % 8)).isSome && decide (d.toNat % 64 ≤ 9) && decide (d.toNat / 2 ^ 6 % 64 ≤ 9)) = true ∧
    (3 < max (8192 / fmtBits .fp32) (8192 / fmtBits .e4m3) / min (8192 / fmtBits .fp32) (8192 / fmtBits .e4m3)) ∧
    ((preg State.reset.me 0).bits.getLsbD 0 = true) ∧
    ((List.range 32).all fun m => !(preg State.reset.me 1).bits.getLsbD (4 * (32 * (255 / 32) + m))) = true ∧
    ((clampTy 0 = .f32 ∧ clampTy 1 = .bf16 ∧ clampTy 2 = .f16)) := by decide +kernel

/-- Reads of the scratchpad that are due: their lines are the tenant's, nothing has been accessed in this fc, no store of the sequencer is
unsettled. -/
theorem witness_landing_reads (a : Act) : let s := at0 fun c => { c with land := [⟨0, 1, 0, a, false⟩] }
    landDue s.me = some ⟨0, 1, 0, a, false⟩ ∧ s.me.sp.acc = [] ∧ s.me.sp.srace = [] ∧ PadClean s.me ∧ (∀ l, tagOk s.me l = true) ∧
    ((List.range 8).map fun j => 0x7FFC00 + 128 * j).length = 8 ∧ segMask (BitVec.allOnes 1024) 7 ≠ 0 ∧ segMask 0#1024 7 = 0 :=
  ⟨rfl, rfl, rfl, ⟨rfl, fun _ => rfl, rfl, rfl⟩, fun _ => rfl, rfl, by decide +kernel, by decide +kernel⟩

/-- The words of the L queue that leave it at once: no word of the same number outstanding, orders and scopes of each kind. -/
theorem witness_link_scopes :
    (let s := issues0 3 amo1 id;
      Issuing s.me 3 ∧ s.me.latch.mark = false ∧ s.me.latch.i = amo1.i ∧ (∀ m ∈ s.me.cmds, m.q = 3 → m.e.seq ≠ s.me.latch.seq)) ∧
    ¬((1 : BitVec 2) = 2 ∨ (1 : BitVec 2) = 3) ∧ ((3 : BitVec 2) = 2 ∨ (3 : BitVec 2) = 3) ∧
    (getSem (issues0 3 amo1 fun c => { c with cn := { c.cn with k := [(3, ⟨4, 4, false⟩)] } }).me 3).count =
      (getSem (issues0 3 amo1 fun c => { c with cn := { c.cn with k := [(3, ⟨4, 4, false⟩)] } }).me 3).ceil := by
  refine ⟨⟨⟨rfl, rfl, rfl⟩, rfl, rfl, fun m h => ?_⟩, by decide +kernel⟩
  exact absurd h List.not_mem_nil

/-- Messages that can never land: the ring is too small at a core with a task, and at one without. -/
theorem witness_message_refused : ∀ b : Bool,
    let m := msg1 none false false
    let s := world (fun c => let d := hasMsg m c;
      { d with life := if b then .running else .idle, sys := { d.sys with inboxSize := 0 } }) [.arrive 0 0 0]
    workDue s (fun it => match it with
      | .arrive .. => true
      | _ => false) = some (0, .arrive 0 0 0) ∧ msgOf (s.core 0) 0 0 = some m ∧ (cmdOf s 0 3 0).isSome = true ∧ m.srcCore = 0 ∧
    (∀ cm, cmdOf s 0 3 0 = some cm → tagsOk (s.core 0) (msendLines cm.e) = true) ∧ (s.core 0).sys.inboxSize < msgSize m ∧
    ((s.core 0).life = .idle ↔ b = false) ∧ (s.core 0).trap = none := by
  intro b
  refine ⟨by cases b <;> rfl, by cases b <;> rfl, by cases b <;> rfl, rfl, ?_, by cases b <;> decide, by cases b <;> decide, by cases b <;> rfl⟩
  intro cm h
  cases b <;> cases h <;> decide +kernel

/-- The hubs: a granule with no mark that fits the landing buffer, timed and not; a repetition that has its room; a core that translates. -/
theorem witness_hub_room :
    (let m := cmd1 2 (copyOf view2 (.cpin ⟨1, 0, 0, 0, 0, 0, 1⟩) 0 false) false;
      let s := world (hasCmd m Sem.zero) [.read 0 2 0 0 0x10000];
      hubDue s = some (0, .read 0 2 0 0 0x10000) ∧ cmdOf s 0 2 0 = some m ∧ isTimed m.e.i = true ∧
      (roomHeld s 0).foldl (fun k x => k + repRoom x.1 x.2.j) 0 + repRoom m.e 0 ≤ 114688 ∧
      mapGet false s.dev.dbe (0x10000 / 128) = false ∧ mapGet false s.dev.sbe (0x10000 / 128) = false) ∧
    (isTimed (.cpin ⟨1, 0, 0, 0, 1, 0, 0⟩) = false) ∧
    (let m := { cmd1 2 (copyOf view2 (.cpin ⟨1, 0, 0, 0, 0, 0, 1⟩) 0 false) false with reps := [⟨0, 0, [], false, true⟩] };
      ∀ r ∈ m.reps, r.j = 0 → r.got ≠ [] ∨ r.done = true) ∧
    (let s := aredState 0 0; ∀ x, slotByte (s.core 0) x = none) := by
  refine ⟨by decide +kernel, by decide, by decide, fun _ => rfl⟩

/-- Collectives: a contribution that comes through a port to another rank, a completion that has not begun, one that has. -/
theorem witness_collective_parts :
    (let m : CMove := ⟨0, 0, 1, 0, 1, 0, [], none, 0, false⟩; m.core = none ∧ m.src ≠ m.dst ∧ m.part < 3) ∧
    (cmd1 3 amo1 false).ended = none := by decide

/-- Engine words at the PC: a copy over a handle without the right, which is a violation; words of atomics with a reserved field over a
handle that is valid, empty and revoked. -/
theorem witness_engine_word_checks :
    (let i : Instr := .cpin ⟨1, 2, 0, 0, 1, 0, 0⟩;
      let s := at0 (fun c => word1 i (hands c));
      let w := fetchWord s s.me;
      decode w = .ok i ∧ queueOfWord w = some 2 ∧ deltaOk s.me i w = true ∧ s.me.trap = none ∧
      (match enqCheck s s.me i (entryOf s.me 2 i w) w with
      | .trap k _ _ => isViolation k
      | _ => false) = true) ∧
    ([(0, HState.valid), (1, HState.revoked), (3, HState.empty)].all fun x =>
      let w := 0xA0440000000A + (BitVec.ofNat 48 x.1 <<< 29);
      let s := at0 (fun c => hands { c with sys := { c.sys with codesize := 1 }, sp := { c.sp with bytes := memWriteNat [] 0 6 w.toNat } });
      decide ((getH s.me (fld w 29 5)).st = x.2) && decide (fld w 44 4 = 10) && decide (fld w 38 6 = 1) &&
        decide (fetchWord s s.me = w) && decide (decode w = .illegal 3) && decide (queueOfWord w = some 3)) = true := by decide +kernel

/-- Traps: a debug stop of a member of an interval in each state that it tears, and of no member; a violation's release while another
core runs its launch, and when none does; the watchdog at its limit. -/
theorem witness_trap_sides :
    ([1, 2, 6].all fun st =>
      let p : PendTrap := ⟨0x1D, false, 0, true, 0x200000000, 6, 9⟩;
      let s := { tasked .running (launch1 .running 0) (fun c => { c with trap := some p }) with
        ctxs := [(0, { Ctx.off with st := st, members := [0], iv := 1 })] };
      decide (s.me.trap = some p) && decide (s.cur ∈ (ctxOf s s.me.sys.casid).members) && decide ((ctxOf s s.me.sys.casid).st = st) &&
        !isViolation p.cause && issuedDone s.me && decide (s.me.life ≠ .idle) &&
        decide (0 ∉ (ctxOf (tasked .running (launch1 .running 0) id) 0).members)) = true ∧
    (let s := tasked .running (launch1 .ending 0) (fun c => { c with frozenV := true });
      let s := { s with cores := s.cores ++ [(1, { Core.reset with life := .running, task := { Core.reset.task with launch := 1 } })] };
      releaseReady s.me = true ∧ (1 : Nat) ≠ s.cur ∧ runsLaunch (s.core 1) s.me.task.launch = true) ∧
    (let s := tasked .running (launch1 .running 0) (fun c => { c with sys := { c.sys with wdlimit := 4, wdcount := 4 } });
      s.me.life = .running ∧ s.me.sys.wdlimit ≠ 0 ∧ s.me.sys.wdlimit.toNat ≤ s.me.sys.wdcount.toNat ∧ s.me.task.requeue = false) := by
  decide +kernel

/-- Tasks: a start of one core whose spare is due and not due, records that keep no slot, a member's flag. -/
theorem witness_task_sides :
    (let s := waiting (rec2 0 false) (launch1 .running 0);
      mapGet 0 s.plat.spareDue 0 = 0 ∧ (∀ e ∈ s.sched.recs, e.2.lk = 1 → e.2.saved = none) ∧
      (let t := { s with plat := { s.plat with spareDue := [(0, 3)] } }; mapGet 0 t.plat.spareDue (0 / 8) ≠ 0)) ∧
    ((tasked .loading (launch1 .running 0) id).me.task.grp = false) := by decide +kernel

/-- Checkpoints: a slot given, banks that are all ACTIVE, one that is not; a line of another tenant; a saved task whose slot is read. -/
theorem witness_context_save :
    let s (sv : Option Nat) (f : Core → Core) : State :=
      let t := tasked .saving (launch1 .running 0) f
      { t with sched := { t.sched with recs := [(1, { rec2 0 true with saved := sv })] }, work := [(0, .save 0)] }
    (workDue (s (some 0) id) (fun it => match it with
      | .save _ => true
      | _ => false) = some (0, .save 0) ∧ ((s (some 0) id).core 0).life = .saving ∧
      launchOf (s (some 0) id) ((s (some 0) id).core 0).task.launch = some (launch1 .running 0)) ∧
    ((s (some 0) id).sched.recs.find? (fun e => decide (e.1 = ((s (some 0) id).core 0).task.recno)) = some (1, { rec2 0 true with saved := some 0 })) ∧
    (bankWaits ((s (some 0) id).core 0) (saveLines ((s (some 0) id).core 0)) = false ∧ (∀ x, tagOk ((s (some 0) id).core 0) x = true) ∧ ((s (some 0) id).core 0).sp.sbe = [] ∧
      ((s (some 0) id).core 0).sp.dbe = []) ∧
    (let t := s (some 0) fun c => { c with sp := { c.sp with banks := [(0, .retained)] } };
      bankWaits (t.core 0) (saveLines (t.core 0)) = true ∧ (t.core 0).trap = none) ∧
    (let t := s (some 0) fun c => { c with sp := { c.sp with tagDef := 3 } };
      (∀ x, tagOk (t.core 0) x = false) ∧ bankWaits (t.core 0) (saveLines (t.core 0)) = false ∧ (t.core 0).trap = none ∧ (0 ∈ saveLines (t.core 0))) := by
  have awake (c : Core) (h : c.sp.banks = []) : bankWaits c (saveLines c) = false :=
    List.any_eq_false.2 fun x _ => by simp [bankAwake, h, mapGet]
  have first (c : Core) (h : c.sys.lvalid = false) : 0 ∈ saveLines c := by
    unfold saveLines
    refine List.mem_flatMap.2 ⟨0, by simp, ?_⟩
    simp [liveB, liveR, h]
  refine ⟨by decide +kernel, by decide +kernel, ⟨awake _ rfl, fun _ => rfl, rfl, rfl⟩, ⟨?_, rfl⟩, fun _ => rfl, awake _ rfl, rfl, first _ rfl⟩
  exact List.any_eq_true.2 ⟨0, first _ rfl, rfl⟩

/-- Resumption: the record of a saved task and its slot; a task that had executed TEXIT and one that had not; a core's failure with the
spare site free, due and bad. -/
theorem witness_resume_and_failure :
    (let s := tasked .loading (launch1 .running 0) id;
      let s := { s with sched := { s.sched with recs := [(1, { rec2 0 true with saved := some 0 })], saved := [(1, Core.reset)] }, work := [(0, .resume 0)] };
      s.sched.recs.find? (fun e => decide (e.1 = (s.core 0).task.recno)) = some ((s.core 0).task.recno, { rec2 0 true with saved := some 0 }) ∧
      (s.core 0).task.grp = false ∧ Core.reset.cmds = [] ∧ Core.reset.task.exited = false) ∧
    (mapGet 0 State.reset.plat.spare 0 + mapGet 0 State.reset.plat.spareDue 0 = 0 ∧ mapGet false State.reset.plat.siteBad 8 = false) ∧
    (let s := { State.reset with plat := { State.reset.plat with spareDue := [(31, 8)] } };
      mapGet 0 s.plat.spare (255 / 8) + mapGet 0 s.plat.spareDue (255 / 8) ≠ 0) := by decide +kernel

/-- Cancellation: launches pending, held and running, with no record saved and no word parked; a core that runs the launch and one that
does not. -/
theorem witness_cancel (ls : Map Launch) :
    (∀ e ∈ (offered 2 0 0 0 0 ls []).sched.recs, e.2.lk = 1 → e.2.saved = none) ∧
    (∀ n, ∀ m ∈ ((offered 2 0 0 0 0 ls []).core n).cmds, m.ended.map (·.lk) ≠ some 1) ∧
    runsLaunch ((tasked .running (launch1 .running 0) id).core 0) 1 = true ∧ runsLaunch (State.reset.core 5) 1 = false := by
  refine ⟨fun e h => absurd h List.not_mem_nil, fun n m h => ?_, by decide +kernel, by decide +kernel⟩
  have : ((offered 2 0 0 0 0 ls []).core n).cmds = [] := by
    by_cases h0 : n = 0
    · subst h0; rfl
    · have : (offered 2 0 0 0 0 ls []).core n = Core.reset := by
        show mapGet Core.reset [(0, Core.reset)] n = _
        simp [mapGet]
      rw [this]; rfl
  rw [this] at h
  exact absurd h List.not_mem_nil

/-- Rollback and the patrol: no record saved; a granule with one flipped bit, two, and the syndrome. -/
theorem witness_rollback_and_patrol :
    (∀ e ∈ (sealing 4 []).sched.recs, e.2.saved = none) ∧
    (let s := { State.reset with dev := { MemSt.reset with sbe := [(3, true)] } };
      paMapped s (128 * 3) = true ∧ mapGet false s.dev.syn 3 = false ∧ mapGet false s.dev.dbe 3 = false ∧ mapGet false s.dev.sbe 3 = true) ∧
    (let s := { State.reset with dev := { MemSt.reset with dbe := [(3, true)] } };
      paMapped s (128 * 3) = true ∧ mapGet false s.dev.dbe 3 = true ∧ mapGet false s.dev.tagBad (128 * 3 / 512) = false) := by
  refine ⟨fun e h => absurd h List.not_mem_nil, by decide +kernel⟩

/-- Debug accesses and retention: no slot of this fc, a core with a task to kill, a pair with three flipped bits in an exiting bank. -/
theorem witness_debug_and_retention :
    (let s := debugged { Dbg.zero with daddr := 0x3FFFFE } (fun c => { c with dstop := true });
      selCore s 0 = some 0 ∧ (dbgOf s 0).daddr % 4 = 2 ∧ 8 * ((dbgOf s 0).daddr / 4) + 8 ≤ 2 ^ 23 ∧ (s.core 0).dstop = true ∧
      (s.core 0).life ≠ .idle) ∧
    (∀ y, slotByte ((debugged Dbg.zero (fun c => { c with dstop := true })).core 0) y = none) ∧
    (let s := { at0 (fun c => { c with sp := { c.sp with banks := [(2, .exiting 9)], dbe := [(32, true)], sbe := [(33, true)] } }) with cyc := 9 };
      exitedBank s s.me = some 2 ∧ bankOf (16 / 8) = 2 ∧ mapGet false s.me.sp.dbe (2 * 16) = true ∧ mapGet false s.me.sp.sbe (2 * 16 + 1) = true) ∧
    ((at0 id).me.sp.dbe = []) := by
  refine ⟨by decide +kernel, fun _ => rfl, by decide +kernel, rfl⟩

/-- Crypto engines: operands that cannot be read, slots that hold no key, keys in memory, a key of each scheme, an output to device memory
and to no address at all, a signature in the SRAM. -/
theorem witness_engine_operands :
    (let s := { engine 0x000 1 false true with thim := { (engine 0x000 1 false true).thim with
        eng := [0x000, 0x100, 0x200, 0x300, 0x400].flatMap fun b => [(b, 1), (b + 0x08, 0x20000000), (b + 0x10, 4), (b + 0x18, 0x8000000000000007),
          (b + 0x30, 1)] } };
      [0x000, 0x100, 0x200, 0x300, 0x400].all (fun b => decide (engCode s b = 1) &&
        decide (thimRead s (engReg s (b + 0x08)).toNat ((engReg s (b + 0x10)).toNat % 2 ^ 32) = .error 2) &&
        decide (engKey s (engReg s (b + 0x18)) 4 = .error 3) && decide (engSlot s (engReg s (b + 0x18)) = .error 3)) = true ∧
      thimRead s (engReg s 0x108).toNat 48 = .error 2 ∧ engKey s (engReg s 0x118) 96 = .error 3) ∧
    (let s := engine 0x200 1 true false;
      (thimRead s (engReg s 0x220).toNat 1620).toOption = some 0 ∧
      (let t := { s with thim := { s.thim with sram := [(3, 2)] } };
        (engKey t (engReg t 0x218) 4).toOption = some 0x02000000 ∧ (engKey t (engReg t 0x218) 52).toOption = some 0x02000000 ∧
        (thimRead t (engReg t 0x220).toNat 3292).toOption = some 0x02000000)) ∧
    (let s := engine 0x200 2 true true;
      let t := { s with thim := { s.thim with slots := [(4, 9)], eng := mapSet 0 s.thim.eng 0x218 0x8000000000000004 } };
      (engSlot s (engReg s 0x218)).toOption = some 9 ∧ fieldOf (engReg s 0x218) 0 8 ≠ 4 ∧ (engSlot t (engReg t 0x218)).toOption = some 9 ∧
      fieldOf (engReg t 0x218) 0 8 = 4) ∧
    (let s := State.reset;
      (List.range 48).all (fun k => paMapped s ((2 ^ 41 + 0x10000) - 2 ^ 41 + k) && !chanFailed s ((2 ^ 41 + 0x10000) - 2 ^ 41 + k)) = true ∧
      ((0x20000000 : Word).getLsbD 63 = false ∧ ¬(0x10000000 ≤ (0x20000000 : Word).toNat ∧ (0x20000000 : Word).toNat + 48 ≤ 0x10100000) ∧
        ¬(2 ^ 41 ≤ (0x20000000 : Word).toNat ∧ (0x20000000 : Word).toNat + 48 ≤ 2 ^ 42))) ∧
    (let s := engine 0x300 4 true true;
      let t := { s with thim := { s.thim with eng := mapSet 0 s.thim.eng 0x328 0x10C } };
      (engReg t 0x328).toNat / 256 % 2 = 1 ∧ (let u := { s with thim := { s.thim with eng := mapSet 0 s.thim.eng 0x328 12 } };
        (engReg u 0x328).toNat / 256 % 2 = 0 ∧ 12 ≤ (engReg u 0x328).toNat % 256)) ∧
    (let s := { engine 0x400 2 true true with thim := { (engine 0x400 2 true true).thim with udslock := true } };
      engCode s 0x400 = 2 ∧ s.thim.udslock = true) := by decide +kernel

/-- Ports: lanes named at both ends, a port authenticated and not; flits of each kind that the statement names; requests over a port
and over the host's mailbox. -/
theorem witness_port_clauses :
    ((0 : Nat) < 8 ∧ (7 : Nat) < 8) ∧
    ([false, true].all fun b => decide ((portOf (ported { Port.zero with st := 1, authed := b } false) 2).authed = b)) = true ∧
    (let s := ported { Port.zero with st := 3 } false;
      let b : LStream := ⟨0, 0, 0, 0, 0⟩;
      s.links.streams.find? (fun e => decide (e.1 = 1024 * 2 + 3)) = some (1024 * 2 + 3, b) ∧ (∀ e ∈ s.links.streams, e.1 ≠ 1024 * 2 + 4) ∧
      peerMay s 2 b.tenant 0 1 = true ∧ peerMay s 2 b.tenant 0 0 = false ∧ (∀ x ∈ s.links.bars, x.group = 0 → x.tag ≤ 4) ∧ (4 : Nat) < 5) ∧
    (let s := ported { Port.zero with st := 2 } false;
      thimOpen s = true ∧ ((2 : Nat) < 16 → (portOf s 2).st = 2 ∨ (portOf s 2).st = 3) ∧ ¬((16 : Nat) < 16)) := by
  refine ⟨by decide, by decide +kernel, ⟨by decide +kernel, by decide +kernel, by decide +kernel, by decide +kernel, fun x h => ?_, by decide⟩,
    by decide +kernel⟩
  exact absurd h List.not_mem_nil

/-- The host: a function that may read and one that may not; a read whose answer has room; a function in RUN and out of it; no saved
task. -/
theorem witness_host_clauses :
    (let m := cmd1 2 (copyOf view2 (.cpin ⟨1, 0, 0, 0, 0, 0, 1⟩) 0 false) false;
      let s := world (hasCmd m Sem.zero) [];
      let s := { s with links := { s.links with hostReq := [(4, 0, .read 0 2 0 0 0x10000)] } };
      let t := { s with links := { s.links with tdi := [(1, ⟨2, 0, 0, true, 0, 0⟩)] } };
      s.links.hostReq.find? (fun r => decide (r.1 = 4)) = some (4, 0, .read 0 2 0 0 0x10000) ∧ hostOpen s (s.core 0).sys.tenant = false ∧
      hostOpen t (t.core 0).sys.tenant = true ∧ cmdOf t 0 2 0 = some m ∧ isTimed m.e.i = true ∧
      (roomHeld t 0).foldl (fun k x => k + repRoom x.1 x.2.j) 0 + repRoom m.e 0 ≤ 114688 ∧ hostLate t = some (4, 0, .read 0 2 0 0 0x10000)) ∧
    (let s := hosted ⟨2, 0x8000000000010000, 0, true, 0, 0⟩ 0;
      (∀ w : Bool, hostRange s (fieldOf (tdiOf s 1).win 48 10) 0 (fieldOf (tdiOf s 1).win 0 48 + 0x10000) w 2 = .error (.owner, 0x20000)) ∧
      mapGet false s.dev.dbe (0x10000 / 128) = false ∧ (∀ r ∈ s.sched.recs, r.2.saved = none)) ∧
    ([0, 1, 3].all fun st => decide ((tdiOf (hosted ⟨st, 0, 0, false, 0, 0⟩ 0) 1).st ≠ 2)) = true ∧
    (let s := hosted Tdi.zero 0; 1 ≤ 255 ∧ 1023 < 1024 ∧ (tdiOf s 255).st = 0 ∧ (mapGet 0 s.dev.tenant 1023).getLsbD 64 = false) := by
  refine ⟨by decide +kernel, ⟨fun w => ?_, by decide +kernel, fun r h => absurd h List.not_mem_nil⟩, by decide +kernel, by decide +kernel⟩
  have h : (match hostRange (hosted ⟨2, 0x8000000000010000, 0, true, 0, 0⟩ 0) 0 0 0x20000 w 2 with
      | .error (.owner, va) => decide (va = 0x20000)
      | _ => false) = true := by cases w <;> decide +kernel
  show hostRange (hosted ⟨2, 0x8000000000010000, 0, true, 0, 0⟩ 0) 0 0 0x20000 w 2 = _
  revert h
  split
  · rename_i va e
    intro h
    rw [e, of_decide_eq_true h]
  · simp

/-- Services: families at the bound, an empty list of frames, the last register that a CLEAR may name, a slot that is locked. -/
theorem witness_service_clauses :
    (∀ f ∈ [0, 255], f < 256) ∧ (¬255 ≥ 256 ∧ 256 ≤ 256) ∧ ((1190 : Nat) < 1191 ∧ (3 : Nat) % 8 < 4) ∧ (16 ≤ 16 ∧ (31 : Nat) ≤ 31) ∧
    (let s := serving id; (mapGet 0 s.thim.ms 31).getLsbD 416 = false ∧ s.links.tdi.any (fun e => e.2.ide && decide (e.2.tenant = 0)) = true ∧
      (asidOf s 1023).getLsbD 0 = false ∧ (ctxOf s 1023).st = 0 ∧ formEn s 0 = true) := by decide +kernel

/-- The role of a Timetable core taken while the clients are held, while the other has no role, refused, and given up. -/
theorem witness_roles :
    (State.reset.sched.tt.chold = false ∧ State.reset.sched.tt.role0 = true ∧ State.reset.sched.tt.role1 = false ∧ (0 : Word).getLsbD 0 = false ∧
      (1 : Word).getLsbD 0 = true) ∧
    (let s := { State.reset with sched := { State.reset.sched with tt := { Ttab.reset with chold := true } } }; s.sched.tt.chold = true) := by
  decide +kernel

/-- The platform: no record saved; panels and blocks of cores at both ends of their ranges; a core with a task and none; limits at
both ends. -/
theorem witness_platform_clauses :
    (∀ r ∈ State.reset.sched.recs, r.2.saved = none) ∧ ((7 : Nat) < 8 ∧ (4 : Nat) < 5 ∧ 6 + 4 * 255 + 3 = 1029) ∧
    ((tasked .running (launch1 .running 0) id).core 0).life = .running ∧ ((tasked .running (launch1 .running 0) id).core 0).trap = none ∧
    (State.reset.core 255).life ≠ .running ∧ (State.reset.core 255).life ≠ .draining ∧
    ([1000, 6000].all fun n => decide (1000 ≤ fieldOf (BitVec.ofNat 64 n) 0 13) && decide (fieldOf (BitVec.ofNat 64 n) 0 13 ≤ 6000)) = true ∧
    (fieldOf (999 : Word) 0 13 < 1000 ∧ 6000 < fieldOf (6001 : Word) 0 13) ∧ ((100 : Nat) ≤ 100 ∧ (109 : Nat) < 110 ∧ (98 : Nat) ≤ 98) ∧
    ((110 : Nat) ≤ 119 ∧ (119 : Nat) < 120 ∧ (1 : Nat) ≠ 0 ∧ 31 < 32 ∧ (1024 : Nat) ≤ 1024) := by
  refine ⟨fun r h => absurd h List.not_mem_nil, by decide +kernel⟩

/-! Hypotheses of the clauses about collectives, slots, the hubs' rules and what waits. -/

/-- Group 0 with the receive spool of rank 1 at 0x10000, or at 2^32, where nothing is mapped. -/
def spools (mapped : Bool) (f : Core → Core) (w : List Item) : State :=
  let s := grouped f w []
  { s with
    dev := { s.dev with
      mem := s.dev.mem ++ [(if mapped then 0x10142 else 0x10144, 1)]
      pot := [(0, 0x400), (1, 0x400), (2, 0x400), (3, 0x400)] }
    links := { s.links with groups := [(0, BitVec.ofNat 256 (1 + 0x10000 * 2 ^ 64 + 0x10100 * 2 ^ 112))] } }

/-- A piece of part `part` from rank `src` to rank 1, of the CSEND of core 0. -/
def piece (part src : Nat) : CMove := ⟨0, 0, 1, src, part, 128, [(7, 2)], some (0, 0), 0, false⟩

/-- A core whose CSEND or CBAR, with descriptor `d`, waits. -/
def waitsFor (i : Instr) (d : Word) (c : Core) : Core :=
  hasCmd { cmd1 3 { QEntry.none with i := i, caps := [d, 0], h := ⟨view3, .valid⟩ } false with sent := true } Sem.zero c

/-- Contributions: a rank's own; one that is there; one that is stored; one whose spool does not translate; one of an earlier tag and one
of an excluded rank, in a context that replays; one that leaves over a port, that has left, and that finds no stream; with the word's
verdict awaited and not. -/
theorem witness_contributions :
    (let i : Instr := .csend ⟨1, 0, 1, 0, 0, 0, 0⟩
     let at_ (s : State) (m : CMove) : Bool := decide (workDue s (fun it => match it with
        | .contrib _ => true
        | _ => false) = some (0, .contrib m))
     let here (s : State) : Bool := decide (routeOf s (groupEntry s 0) 1 = none)
     let store (s : State) (m : CMove) : Option SpoolErr := (putSpoolLines (charge (s.dropWork 0) 0 2 128) 0 1 m.src 0
        ((m.lines.zipIdx.map fun l => ((if m.part = 0 then 0 else if m.part = 1 then 512 else 576) + l.2, l.1.1)) ++
          [(640, BitVec.ofNat 1024 ((1#3 <<< m.part).toNat * 2 ^ 32 + (if m.part = 0 then 128 else 0) * 2 ^ 35))])).2
     let s (b : Bool) (m : CMove) (d : Word) : State := spools b (waitsFor i d) [.contrib m]
     at_ (s true (piece 1 1) 0) (piece 1 1) && here (s true (piece 1 1) 0) && decide ((slotOf (s true (piece 1 1) 0) 0 1 0).full = false) &&
     at_ (s true (piece 0 0) 0) (piece 0 0) && here (s true (piece 0 0) 0) && decide (store (s true (piece 0 0) 0) (piece 0 0) = none) &&
     decide ((mapGet ⟨0, 0, [], false⟩ CSlot.zero.src 0).parts.getLsbD 0 = false) &&
     decide (store (s false (piece 0 0) 0) (piece 0 0) = some (false, 0x100000000)) &&
     ((s true (piece 0 0) 0).core 0).trap.isNone &&
     [false, true].all fun b => decide ((cmdOf (s true (piece 0 0) (if b then 0x80000000 else 0)) 0 3 0).map
       (fun w => (w.ended.isNone, cdDl (cap w.e 0))) = some (true, b)) && decide (verdictAt (s true (piece 0 0) 0) 0 0 = none)) = true ∧
    (let x : CSlot := ⟨5, true, [(0, ⟨1, 128, [], false⟩)], [], []⟩;
      let s := spools true (waitsFor (.csend ⟨1, 0, 1, 0, 0, 0, 0⟩) 0) [.contrib (piece 0 0)];
      let s := { s with links := { s.links with slots := [(slotKey 0 1 0, x)] }, ctxs := [(0, { Ctx.off with st := 6 })] };
      slotOf s 0 1 0 = x ∧ 0 < x.tag ∧ (ctxOf s (s.core 0).sys.casid).st = 6 ∧
      (let t := { s with links := { s.links with slots := [(slotKey 0 1 0, { x with tag := 0 })] } };
        (slotOf t 0 1 0).tag = 0 ∧ (mapGet ⟨0, 0, [], false⟩ (slotOf t 0 1 0).src 0).parts.getLsbD 0 = true)) ∧
    (let s := { spools true id [] with links := { (spools true id []).links with bars := [⟨0, 0, [1], none, some [0], [2, 1]⟩] } };
      verdictAt s 0 0 = some [0] ∧ (0 : Nat) ∈ [0]) ∧
    ([false, true].all fun b =>
      let s := ported { Port.zero with st := if b then 3 else 0 } false
      decide (routeOf s (groupEntry s 0) 1 = some 2) && decide ((streamOf s 2 (grpTenant (groupEntry s 0))).isSome = b)) = true := by
  refine ⟨?_, ?_, ?_, ?_⟩ <;> decide +kernel

/-- Verdicts: one for an open CBAR, with ranks missing and none, and a slot that holds the instance. -/
theorem witness_verdicts : [([] : List Nat), [1]].all (fun missing =>
    let s := grouped (waitsFor (.cbar ⟨1, 1, 2, 0, 0, 0, 0⟩) 0) [] [⟨0, 0, [], some 9, some missing, []⟩]
    let m := { cmd1 3 { QEntry.none with i := .cbar ⟨1, 1, 2, 0, 0, 0, 0⟩, caps := [0, 0], h := ⟨view3, .valid⟩ } false with sent := true }
    decide (verdictDue s = some ⟨0, 0, [], some 9, some missing, []⟩) && decide (openCbars s 0 0 = [(0, m)]) &&
      decide (cmdOf s 0 3 m.e.seq = some m) && m.ended.isNone && !m.replayed && decide ((ctxOf s (s.core 0).sys.casid).st = 0)) = true := by
  decide +kernel

/-- A machine whose core 0 has the collective word `i` open, with the slot `x` at rank 0 and the barriers `b` of its group. -/
def collecting (i : Instr) (d : Word) (x : CSlot) (b : List Barrier) : State :=
  let s := grouped (waitsFor i d) [] b
  { s with
    dev := { s.dev with
      mem := s.dev.mem ++ [(0x10102, 1)]
      pot := [(0, 0x400), (1, 0x400), (2, 0x400), (3, 0x400)] }
    links := { s.links with
      groups := [(0, BitVec.ofNat 256 (1 + 0x10000 * 2 ^ 64 + 0x10100 * 2 ^ 112))]
      slots := [(slotKey 0 0 0, x)] } }

/-- Collective words that complete: with every part there, read from the spool; with the instance lost; a CRECV with its part there, of the
view's length and not, refused by the policy, excluded, lost; a CSEND whose lines are written; a CBAR whose instance is lost. -/
theorem witness_collective_completions :
    ([Instr.cagree ⟨1, 1, 2, 0, 3, 0, 0, 0⟩, .credx ⟨1, 1, 2, 0, 3, 0, 0, 0⟩].all fun i =>
      let all : Map Contrib := [(1, ⟨7, 128, [], false⟩)]
      let w := { cmd1 3 { QEntry.none with i := i, caps := [0, 0], h := ⟨view3, .valid⟩ } false with sent := true }
      let s := collecting i 0 ⟨0, true, all, [(5, 0)], [(5, 0)]⟩ []
      decide (collDue s s.cur = some w) && decide (cmdOf s s.cur 3 w.e.seq = some w) && decide (collEnd s w = .full []) &&
        [1, 2].all (fun p => (partsOf s s.cur w (slotOf s 0 0 0) p (collLines w.e).length [0, 1]).2.toOption.isSome) &&
        decide (collEnd (collecting i 0 ⟨3, true, [], [], []⟩ []) w = .lost) &&
        decide ((ctxOf { s with ctxs := [(0, { Ctx.off with st := 6 })] } s.me.sys.casid).st = 6)) = true ∧
    ([128, 100].all fun n =>
      let i : Instr := .crecv ⟨1, 0, 1, 0, 0, 0, 0⟩
      let w := { cmd1 3 { QEntry.none with i := i, caps := [0x100000, 0], h := ⟨view3, .valid⟩ } false with sent := false }
      let s0 := collecting i 0x100000 ⟨0, true, [(1, ⟨1, n, [], false⟩)], [], []⟩ []
      let s := { s0 with cores := [(0, { s0.core 0 with cmds := [w] })] }
      decide (collDue s s.cur = some w) && decide (collEnd s w = .full []) && decide (viewBytes w.e.h.bits = 128) &&
        decide ((getSpoolLines s 0 0 1 0 (List.range ((min n 128 + 127) / 128))).2.toOption.map (·.map (·.2.1)) = some [0]) &&
        decide (hPpol w.e.h.bits = 0)) = true ∧
    (let i : Instr := .crecv ⟨1, 0, 1, 0, 0, 0, 0⟩
     let w : Cmd := { cmd1 3 { QEntry.none with i := i, caps := [0x80100000, 0], h := ⟨view3, .valid⟩ } false with sent := false }
     let s0 := collecting i 0x80100000 ⟨0, true, [], [], []⟩ [⟨0, 0, [0], some 9, some [1], [2, 0]⟩]
     let s := { s0 with cores := [(0, { s0.core 0 with cmds := [w] })] }
     collEnd s w = .excluded ∧ collDue s s.cur = some w ∧
     (let t0 := collecting i 0x80100000 ⟨1, true, [], [], []⟩ [];
       let t := { t0 with cores := [(0, { t0.core 0 with cmds := [w] })] };
       collEnd t w = .lost ∧ collDue t t.cur = some w)) ∧
    (let i : Instr := .csend ⟨1, 0, 1, 0, 0, 0, 0⟩
     let w := { cmd1 3 { QEntry.none with i := i, caps := [0, 0] } false with old := 1 }
     let s := world (hasCmd w Sem.zero) []
     collDue s s.cur = some w ∧ cmdOf s s.cur 3 w.e.seq = some w ∧ w.ended = none) ∧
    (let i : Instr := .cbar ⟨1, 1, 2, 0, 0, 0, 0⟩
     let w := { cmd1 3 { QEntry.none with i := i, caps := [0, 0], h := ⟨view3, .valid⟩ } false with sent := true }
     let s := collecting i 0 CSlot.zero [⟨0, 1, [], none, none, []⟩]
     collDue s s.cur = some w ∧ cmdOf s s.cur 3 w.e.seq = some w ∧ w.ended = none) := by
  refine ⟨?_, ?_, ?_, ?_, ?_⟩ <;> decide +kernel

/-- A start whose banks must wake and one whose need not; a start whose frame does not translate, with no task saved. -/
theorem witness_start_waits :
    let s (r : TRec) (f : Core → Core) : State :=
      let t := { tasked .loading (launch1 .running 0) f with work := [(0, .start 0)] }
      { t with sched := { t.sched with recs := [(1, r)] } }
    (let t := s (rec2 128 true) fun c => { c with sp := { c.sp with banks := [(0, .retained)] } };
      bankWaits (t.core 0) (startLines t 0) = true ∧ (t.core 0).task.grp = false) ∧
    (let t := s { rec2 128 true with frame := 2 ^ 32 } id;
      bankWaits (t.core 0) (startLines t 0) = false ∧
      translate t 256 (lAsid (launch1 .running 0)) (2 ^ 32) (launch1 .running 0).tenant false = .fault ∧ NothingSaved t) := by
  refine ⟨by decide +kernel, by decide +kernel, by decide +kernel, fun e h => ?_⟩
  obtain rfl | h := List.mem_cons.1 h
  · rfl
  · exact absurd h List.not_mem_nil

/-- A core in whose descriptor in force s2 is live, with the scalar registers 1 to 3 set. -/
def liveFew (c : Core) : Core := regs 7 8 9 { c with sys := { c.sys with lvalid := true, live := 4 } }

/-- A launch whose slots begin at 0x11000. -/
def slotted : Launch := launch1 .running (2 ^ 10 + 0x10000 * 2 ^ 768 + 2 ^ 816)

/-- A checkpoint slot that is free. -/
theorem witness_free_slot :
    (let s := sliced true 900000 slotted id;
      let d := rivalOf { s with sched := { s.sched with dispatchAt := mapPut s.sched.dispatchAt s.cur s.cyc } } s.cur;
      d.2 = some (1, 0, 0) ∧ freeSlots (slotsRead d.1 slotted) slotted = [0] ∧ s.me.task.grp = false) := by decide +kernel

/-- A slot whose granules can all be written. -/
theorem witness_slot_written :
    (let s := { tasked .saving slotted liveFew with work := [(0, .save 0)] };
      let s := { s with dev := { s.dev with pot := [(0, 0x400), (1, 0x400), (2, 0x400)] } };
      let u := (s.dropWork 0).setCore 0 (bankUse (countAll (s.core 0)) s.cyc (saveLines (s.core 0)));
      (putSlot u 0 slotted (slotBase slotted 0) (saveImage (cutCore (u.core 0)))).2 = none ∧
      bankWaits (s.core 0) (saveLines (s.core 0)) = false ∧ (s.core 0).trap = none) := by decide +kernel

/-- A saved task's slot, read back from memory. -/
theorem witness_slot_read :
    (let sv := liveFew Core.reset;
      let s := { tasked .loading slotted id with work := [(0, .resume 0)] };
      let s := { s with
        dev := { s.dev with mem := s.dev.mem ++ [(70004, 1), (70008, 4), (73744, 6)], pot := [(0, 0x400), (1, 0x400), (2, 0x400)] }
        sched := { s.sched with recs := [(1, { rec2 0 true with saved := some 0 })], saved := [(1, sv)] } };
      let u := (s.dropWork 0).setCore 0 (bankUse (s.core 0) s.cyc (saveLines sv));
      (match (readSlot u 0 slotted (slotBase slotted 0) sv).2 with
        | .ok (rd, _) => decide (rd.cmds = []) && liveR rd 0 2 && decide (getS rd 2 = 6) && !rd.task.exited
        | .error _ => false) = true ∧ bankWaits (s.core 0) (saveLines sv) = false ∧ (s.core 0).task.grp = false) := by decide +kernel

/-- A resumption whose banks must wake. -/
theorem witness_resume_waits :
    let c := { Core.reset with sp := { Core.reset.sp with banks := [(0, .retained)] } }
    bankWaits c (saveLines Core.reset) = true := by
  refine List.any_eq_true.2 ⟨0, ?_, rfl⟩
  unfold saveLines
  refine List.mem_flatMap.2 ⟨0, by simp, ?_⟩
  simp only [show liveB Core.reset 0 = true from rfl, if_true]
  simp

/-- Recovery and tables: a seal whose records are sound, and one whose record's channel has failed; a hub to be swept; an invalidation
while another of its function is under way, and none. -/
theorem witness_seal_and_sweep :
    (let s := sealing 3 [];
      tornPair s 0 = none ∧ recordLost s 0 (ctxOf s 0).iv = false ∧ (ctxOf s 0).pend = false ∧
      (let t := { s with dev := { s.dev with chanBad := [(0, BitVec.allOnes 32)] } };
        sealDue t = some 0 ∧ recordLost t 0 (ctxOf t 0).iv = true)) ∧
    (NothingSaved (sealing 3 []) ∧ NothingSaved (sealing 4 [])) ∧
    (let s := { State.reset with dev := { MemSt.reset with sweeps := [⟨0, 3, 1, [256], []⟩] } };
      sweepDue s = some (⟨0, 3, 1, [256], []⟩, 256)) ∧
    (let s := world id []; xlBusy s 1 = false ∧ (tdiOf s 1).st = 0 ∧
      (let t := { s with links := { s.links with tdi := [(1, ⟨2, 0, 0, true, 0, 0⟩)] } };
        xlBusy t 1 = false ∧ (tdiOf t 1).st = 2 ∧ asidOk t 0 (tdiOf t 1).tenant = true ∧ asidOk t 1 (tdiOf t 1).tenant = false)) := by
  refine ⟨by decide +kernel, ⟨fun e h => absurd h List.not_mem_nil, fun e h => absurd h List.not_mem_nil⟩, by decide +kernel,
    by decide +kernel⟩

/-- The debugger's access to a line of another tenant, and to one of its own. -/
theorem witness_debug_lines : [false, true].all (fun own =>
    let s := debugged { Dbg.zero with daddr := 0x402 } (fun c => { c with dstop := true, sp := { c.sp with tagDef := if own then 0 else 3 } })
    decide (selCore s 0 = some 0) && decide ((dbgOf s 0).daddr = 0x402) && (s.core 0).dstop && decide (0x402 % 4 = 2) &&
      decide (tagOk (s.core 0) (8 * (0x402 / 4) / 128) = own) && (s.core 0).trap.isNone) = true := by decide +kernel

/-- Ports: measurements that the policy holds and does not; a counter of flits that reaches its end and one that does not. -/
theorem witness_policy_and_counters :
    (let s := ported { Port.zero with st := 2 } false;
      policyHas s 5 = false ∧
      (let t := { s with links := { s.links with pf0 := [(0xB000, 1)] } }; (portOf t 2).st = 2 ∧ policyHas t 0 = true)) ∧
    (2 ^ 40 ≤ 2 ^ 40 - 1 + 1 ∧ 7 + 1 < 2 ^ 40) ∧
    (let s := ported { Port.zero with st := 3 } false;
      ∀ e ∈ s.links.streams, e.1 / 1024 = 2 → e.2.fin < 2 ^ 40 ∧ e.2.fout < 2 ^ 40) := by
  decide +kernel

/-- The host: walks that answer and that the page owner table refuses, an access within its window, beyond it and of a formed operation;
requests that are refused. -/
theorem witness_host_walks :
    (let s := hosted ⟨2, 0x8000000000010000, 0, true, 0, 0⟩ 0;
      let o : HostEv := ⟨1, 0, 4, 5, 1, 0, true⟩;
      bar2Open s o = true ∧ winOpen s o = true ∧ winOpen s { o with off := 2 ^ 36 } = false ∧
      ([false, true].all fun w => match hostWalk s o w with
        | (u, .ok l) => decide (l = (List.range 4).map (0x10000 + ·)) && l.all fun a => !isHostFrame u a && !chanFailed u a &&
            decide (durableCtx u a = none) && !mapGet false u.dev.tagBad (a / 512) && !mapGet false u.dev.syn (a / 128) &&
            !mapGet false u.dev.dbe (a / 128)
        | _ => false) = true ∧
      ([false, true].all fun w => match (hostWalk s { o with off := 0x10000 } w).2 with
        | .error (.owner, va) => decide (va = 0x20000)
        | _ => false) = true ∧
      (match (hostWalk s { o with off := 2 ^ 34 } true).2 with
        | .error (.fault, _) => true
        | _ => false) = true ∧
      ((o.n = 4 ∨ o.n = 8) ∧ o.off % o.n = 0 ∧ 1 ≤ o.op ∧ o.op ≤ 3)) ∧
    (let s := hosted ⟨1, 0, 0, false, 0, 0⟩ 0;
      thimOpen s = true ∧ (tdiOf s 1).st ≠ 0 ∧ coresFree s 0xFF = true) ∧
    NothingSaved (hosted ⟨2, 0, 0, true, 0, 0⟩ 0) :=
  ⟨by decide +kernel, by decide +kernel, fun e h => absurd h List.not_mem_nil⟩

/-- Migration: a tenant with room in its report buffer, and none. -/
theorem witness_report_room :
    (let s := { State.reset with links := { State.reset.links with pf0 := [(0x10000 + 32 * 3 + 24, 16)] } };
      (migOf s 3).st = 0 ∧ (mapGet 0 s.links.pf0 (0x10000 + 32 * 3 + 24)).toNat % 2 ^ 32 ≠ 0) ∧
    (mapGet 0 State.reset.links.pf0 (0x10000 + 32 * 3 + 24)).toNat % 2 ^ 32 = 0 := by decide +kernel

/-- A step: an SPOST that issues when the cycle's posts are done; an input that clears, which goes first; a word that has been fetched
already. -/
theorem witness_turns_in_order :
    (let e := { QEntry.none with i := .spost ⟨1, 1, 1, 1⟩ };
      let s := tasked .running (launch1 .running 0) (fun c => { c with qv := { c.qv with ents := [e], running := true } });
      WordsNext s ∧ firstCore s (earlyRow s) = none ∧ firstCore s (fun n _ => issueDue s n false) = none ∧ (linTurn s).isNone = true ∧
      padRow s = none ∧ firstCore s (fun n _ => rowIf (collDue s n).isSome .collectiveCompletion) = none ∧ cinRow s = none ∧
      (wakeTurn s).isNone = true ∧ (portTurn s).isNone = true ∧ firstCore s (fun n _ => issueDue s n true) = some (0, e)) ∧
    (let s := { State.reset with inputs := [(0, .pkbset ⟨0, 1⟩), (0, .pkbclr ⟨0, 1⟩)] };
      s.down = false ∧ takeUpset s s.upsets = none ∧ takeInput s isClear s.inputs = some (.pkbclr ⟨0, 1⟩, [(0, .pkbset ⟨0, 1⟩)])) ∧
    (let s := { State.reset with inputs := [(0, .droop ⟨3⟩)] };
      takeInput s isClear s.inputs = none) ∧
    (fetched { Core.reset with sp := { Core.reset.sp with waits := [(0, 0, 0)] } } = true) ∧ fetched Core.reset = false := by
  refine ⟨⟨⟨⟨rfl, rfl, rfl⟩, ?_, ?_, ?_⟩, ?_⟩, ?_⟩ <;> decide +kernel

/-- Messages: a timed one with an earlier message of its sender that has reserved its lines, and none; a walk that the page owner table
admits. -/
theorem witness_messages_in_order :
    (let m := msg1 (some 0) true true;
      let e := { msg1 none true true with srcSeq := 7 };
      let s := world (fun c => { hasMsg m c with msgs := [e, m] }) [];
      timedMsg s.me = some m ∧ (∀ x ∈ s.me.msgs, msgCtx s x = none) ∧
      ((s.me.msgs.takeWhile fun x => decide (x ≠ m)).filter fun x => decide (x.srcCore = m.srcCore) && x.reserved && !x.written) = [e]) ∧
    (let m := msg1 (some 0) true true;
      let s := world (hasMsg m) [];
      ((s.me.msgs.takeWhile fun x => decide (x ≠ m)).filter fun x => decide (x.srcCore = m.srcCore) && x.reserved && !x.written) = []) ∧
    (frameOk (world id []) 0 0x10000 false = true ∧ frameOk (world id []) 0 0x10000 true = true) := by decide +kernel

/-- A trap of a core that is being saved. -/
theorem witness_trap_while_saving :
    let p : PendTrap := ⟨3, false, 1, true, 5, 6, 9⟩
    let s := tasked .saving (launch1 .running 0) (fun c => { c with trap := some p })
    s.me.trap = some p ∧ isViolation p.cause = false ∧ issuedDone s.me = true ∧ s.me.late = [] ∧ s.me.life = .saving := by decide +kernel

/-- MRECV: the word that has freed already, in the task and in its handler. -/
theorem witness_freed : [false, true].all (fun h =>
    let c := { Core.reset with
      sys := { Core.reset.sys with inh := h }
      seq := { Core.reset.seq with freed := if h then none else some 0, freedH := if h then some 0 else none } }
    decide (freedAt c = some c.seq.pc) && decide (freedAt Core.reset ≠ some c.seq.pc)) = true := by decide +kernel

end Sys2Proof.Tests
end

section
/-! PROOF. The all-zero word (R84): it decodes to nothing, every other word of UNIT 0 and OP 0 is a word of the ADD row, and the
sequencer that fetches the zero word raises ILLEGAL ZERO. -/

namespace Sys2Proof.Machine

/-- The ZERO check comes before UNIT and OP are looked at (R82, R84). -/
theorem decode_zero : decode 0 = .illegal 0 := if_pos rfl

theorem fld_toNat (w : IWord) (lo len : Nat) : (fld w lo len).toNat = w.toNat / 2 ^ lo % 2 ^ len := by
  rw [fld, BitVec.extractLsb'_toNat, Nat.shiftRight_eq_div_pow]

theorem fld_eq_zero_iff {w : IWord} {lo len : Nat} : fld w lo len = 0 ↔ w.toNat / 2 ^ lo % 2 ^ len = 0 := by
  rw [← fld_toNat, BitVec.toNat_eq]; rfl

/-- The seven fields of the ADD row of SR format cover the word (R79, R94). -/
theorem eq_zero_of_srFields_eq_zero {w : IWord} (hunit : fld w 44 4 = 0) (hop : fld w 38 6 = 0) (hsd : fld w 32 6 = 0)
    (hsa : fld w 26 6 = 0) (hsb : fld w 20 6 = 0) (hres : fld w 3 17 = 0) (hlsl : fld w 0 3 = 0) : w = 0 := by
  rw [fld_eq_zero_iff] at hunit hop hsd hsa hsb hres hlsl
  have hlt := w.isLt
  apply BitVec.eq_of_toNat_eq
  change w.toNat = 0
  omega

/-- The one ADD that no word may carry is the one that would encode as zero (R84). -/
theorem reservedOk_add (o : AddOp) : reservedOk (.add o) = decide (o ≠ ⟨0, 0, 0, 0⟩) := rfl

/-- A non-zero word of UNIT 0 and OP 0 is read as ADD, whose only reserved field is [19:3] (R84, R94): were its operands all zero
besides, the word would be zero. -/
theorem decode_unit0_op0 {w : IWord} (hw : w ≠ 0) (hunit : fld w 44 4 = 0) (hop : fld w 38 6 = 0) :
    decode w = if fld w 3 17 = 0 then .ok (.add ⟨fld w 32 6, fld w 26 6, fld w 20 6, fld w 0 3⟩) else .illegal 3 := by
  have hrow : decode w =
      if fld w 3 17 = 0 then checked (.add ⟨fld w 32 6, fld w 26 6, fld w 20 6, fld w 0 3⟩) else .illegal 3 := by
    rw [decode, if_neg hw, hunit]
    change decodeU0 w = _
    rw [decodeU0, hop]
    rfl
  rw [hrow]
  refine ite_congr rfl (fun hres => if_pos ?_) fun _ => rfl
  rw [reservedOk_add, decide_eq_true_iff]
  intro hzero
  obtain ⟨hsd, hsa, hsb, hlsl⟩ := AddOp.mk.inj hzero
  exact hw (eq_zero_of_srFields_eq_zero hunit hop hsd hsa hsb hres hlsl)

/-- The zero word belongs to no queue: its unit is none of an engine's (R76). -/
theorem queueOfWord_zero : queueOfWord 0 = none := rfl

/-- A refused word of no engine at the PC is ILLEGAL with the subcause of its decoding (R82). -/
theorem exec_illegalWord_of_refused {s : State} {sub : BitVec 4} (hpc : s.me.seq.pc.toNat < s.me.sys.codesize)
    (hdec : decode (fetchWord s s.me) = .illegal sub) (hq : queueOfWord (fetchWord s s.me) = none) :
    exec .illegalWord s = illegalAt s sub.toNat (fetchWord s s.me) := by
  change execIllegalWord s = _
  have hin : ¬ s.me.sys.codesize ≤ s.me.seq.pc.toNat := Nat.not_le.mpr hpc
  simp only [execIllegalWord, if_neg hin, hdec, hq]

/-- ILLEGAL at the sequencer is a precise cause that records the subcause and the word (R82, R83). -/
theorem illegalAt_spec {i : Instr} {s : State} {sub : Nat} {w : IWord} (h : exec i s = illegalAt s sub w) :
    RaisesAt i s causeIllegal (BitVec.ofNat 64 sub) (wordInfo w) :=
  seqTrap_spec h

/-- A zero word that the sequencer fetches raises ILLEGAL ZERO (R84). -/
theorem zeroWord_raises {s : State} (hpc : s.me.seq.pc.toNat < s.me.sys.codesize) (hw : fetchWord s s.me = 0) :
    RaisesAt .illegalWord s causeIllegal 0 0 := by
  have hexec := exec_illegalWord_of_refused hpc (by rw [hw, decode_zero]) (by rw [hw, queueOfWord_zero])
  rw [hw] at hexec
  exact illegalAt_spec hexec

/-- Settles O60: the zero check of the decoder comes first, UNIT 0 and OP 0 select ADD for every other word, and the illegal-word row
takes the zero word to ILLEGAL. -/
theorem zeroWordIsNoInstruction : Obligations.ZeroWordIsNoInstruction := by
  refine ⟨decode_zero, fun w hw hunit hop => ⟨fun hres => ?_, fun hres => ?_⟩, fun s hpc hw => zeroWord_raises hpc hw⟩
  · rw [decode_unit0_op0 hw hunit hop, if_pos hres]
  · rw [decode_unit0_op0 hw hunit hop, if_neg hres]

end Sys2Proof.Machine
end

section
/-! PROOF. The integer register words (R109, R110): the model's arithmetic on their two operands, as words and not as numbers, and the
register that each word writes. -/

namespace Sys2Proof.Machine

/-- A word of two register operands gives what its function gives (R103, R109). -/
theorem givesScalar_of_intRRR {i : Instr} {s : State} {o : RRR} {v : Word} (f : Word → Word → Word) (lat : Nat)
    (hexec : exec i s = intRRR f lat o s) (hv : f (getS s.me o.sa) (getS s.me o.sb) = v) : GivesScalar i s o.sd v :=
  hv ▸ writeNext_spec hexec

/-- The upper half of a number cut to 128 bits is the quotient by 2^64, cut to 64 bits. -/
theorem extractLsb'_ofInt_high (p : Int) : (BitVec.ofInt 128 p).extractLsb' 64 64 = BitVec.ofInt 64 (p / 2 ^ 64) := by
  apply BitVec.eq_of_toNat_eq
  rw [BitVec.extractLsb'_toNat, BitVec.toNat_ofInt, BitVec.toNat_ofInt, Nat.shiftRight_eq_div_pow]
  omega

theorem mulHigh_eq_extractLsb' (a b : Word) : mulHigh a b = (a.signExtend 128 * b.signExtend 128).extractLsb' 64 64 := by
  have hprod : a.signExtend 128 * b.signExtend 128 = BitVec.ofInt 128 (a.toInt * b.toInt) := (BitVec.ofInt_mul _ _).symm
  rw [hprod, extractLsb'_ofInt_high, mulHigh]

theorem mulHighU_eq_extractLsb' (a b : Word) : mulHighU a b = (a.setWidth 128 * b.setWidth 128).extractLsb' 64 64 := by
  have hprod : a.setWidth 128 * b.setWidth 128 = BitVec.ofInt 128 (a.toNat * b.toNat : Nat) := by
    rw [BitVec.ofInt_natCast, BitVec.ofNat_mul, BitVec.ofNat_toNat, BitVec.ofNat_toNat]
  rw [hprod, extractLsb'_ofInt_high, mulHighU, ← BitVec.ofInt_natCast, Int.natCast_ediv, Nat.cast_pow, Nat.cast_ofNat]

/-- Only the quotient of −2^63 by −1 leaves the range of a signed word, and it wraps (R110). -/
theorem ofInt_tdiv (a b : Word) : BitVec.ofInt 64 (a.toInt.tdiv b.toInt) = a.sdiv b := by
  rw [← BitVec.toInt_inj, BitVec.toInt_ofInt, BitVec.toInt_sdiv]

theorem ofInt_tmod (a b : Word) : BitVec.ofInt 64 (a.toInt.tmod b.toInt) = a.srem b := by
  rw [← BitVec.toInt_srem, BitVec.ofInt_toInt]

theorem divS_eq_sdiv (a b : Word) : divS a b = if b = 0 then BitVec.allOnes 64 else a.sdiv b := by rw [divS, ofInt_tdiv]
theorem remS_eq_srem (a b : Word) : remS a b = if b = 0 then a else a.srem b := by rw [remS, ofInt_tmod]

theorem boolWord_decide (p : Prop) [Decidable p] : boolWord (decide p) = if p then 1 else 0 := by
  by_cases hp : p <;> simp [boolWord, hp]

theorem boolWord_slt (a b : Word) : boolWord (a.slt b) = if a.toInt < b.toInt then 1 else 0 := by
  rw [BitVec.slt_eq_decide, boolWord_decide]

theorem boolWord_ult (a b : Word) : boolWord (a.ult b) = if a.toNat < b.toNat then 1 else 0 := by
  rw [BitVec.ult_eq_decide, boolWord_decide]

/-- Strict or not, a comparison selects the same value where equal keys have equal values. -/
theorem ite_lt_eq_ite_le {α β : Type} [PartialOrder α] [DecidableLT α] [DecidableLE α] {x y : α} {u v : β} (heq : x = y → u = v) :
    (if x < y then u else v) = if x ≤ y then u else v := by
  by_cases hlt : x < y
  · rw [if_pos hlt, if_pos hlt.le]
  · rw [if_neg hlt]
    by_cases hle : x ≤ y
    · rw [if_pos hle, heq (eq_of_le_of_not_lt hle hlt)]
    · rw [if_neg hle]

theorem ite_slt (a b u v : Word) (heq : a = b → u = v) : (if a.slt b then u else v) = if a.toInt ≤ b.toInt then u else v := by
  simp only [BitVec.slt_iff_toInt_lt]
  exact ite_lt_eq_ite_le fun h => heq (BitVec.eq_of_toInt_eq h)

theorem ite_ult (a b u v : Word) (heq : a = b → u = v) : (if a.ult b then u else v) = if a.toNat ≤ b.toNat then u else v := by
  simp only [BitVec.ult_iff_toNat_lt]
  exact ite_lt_eq_ite_le fun h => heq (BitVec.eq_of_toNat_eq h)

/-- Settles O1: each word is a function of its two operands (`intRRR`), and the model's numbers are the stated words. -/
theorem integerRegisterWords : Obligations.IntegerRegisterWords := by
  intro s o a b
  refine ⟨?sub, ?mul, ?mulh, ?mulhu, ?div, ?divu, ?rem, ?remu, ?and, ?or, ?xor, ?andn, ?shl, ?shr, ?sar, ?min, ?max, ?minu,
    ?maxu, ?slt, ?sltu, ?seq⟩
  case sub => exact givesScalar_of_intRRR (· - ·) 1 rfl rfl
  case mul => exact givesScalar_of_intRRR (· * ·) 3 rfl rfl
  case mulh => exact givesScalar_of_intRRR mulHigh 3 rfl (mulHigh_eq_extractLsb' a b)
  case mulhu => exact givesScalar_of_intRRR mulHighU 3 rfl (mulHighU_eq_extractLsb' a b)
  case div => exact givesScalar_of_intRRR divS (divLat a.toInt.natAbs b.toInt.natAbs) rfl (divS_eq_sdiv a b)
  case divu => exact givesScalar_of_intRRR divU (divLat a.toNat b.toNat) rfl rfl
  case rem => exact givesScalar_of_intRRR remS (divLat a.toInt.natAbs b.toInt.natAbs) rfl (remS_eq_srem a b)
  case remu => exact givesScalar_of_intRRR remU (divLat a.toNat b.toNat) rfl rfl
  case and => exact givesScalar_of_intRRR (· &&& ·) 1 rfl rfl
  case or => exact givesScalar_of_intRRR (· ||| ·) 1 rfl rfl
  case xor => exact givesScalar_of_intRRR (· ^^^ ·) 1 rfl rfl
  case andn => exact givesScalar_of_intRRR (· &&& ~~~ ·) 1 rfl rfl
  case shl => exact givesScalar_of_intRRR (· <<< shCount ·) 1 rfl rfl
  case shr => exact givesScalar_of_intRRR (· >>> shCount ·) 1 rfl rfl
  case sar => exact givesScalar_of_intRRR (fun x y => x.sshiftRight (shCount y)) 1 rfl rfl
  case min => exact givesScalar_of_intRRR (fun x y => if x.slt y then x else y) 1 rfl (ite_slt a b a b id)
  case max => exact givesScalar_of_intRRR (fun x y => if x.slt y then y else x) 1 rfl (ite_slt a b b a Eq.symm)
  case minu => exact givesScalar_of_intRRR (fun x y => if x.ult y then x else y) 1 rfl (ite_ult a b a b id)
  case maxu => exact givesScalar_of_intRRR (fun x y => if x.ult y then y else x) 1 rfl (ite_ult a b b a Eq.symm)
  case slt => exact givesScalar_of_intRRR (fun x y => boolWord (x.slt y)) 1 rfl (boolWord_slt a b)
  case sltu => exact givesScalar_of_intRRR (fun x y => boolWord (x.ult y)) 1 rfl (boolWord_ult a b)
  case seq => exact givesScalar_of_intRRR (fun x y => boolWord (decide (x = y))) 1 rfl (boolWord_decide _)

end Sys2Proof.Machine
end

section
/-! PROOF. The hardware loops (R122 to R124, R126): what `LOOP` pushes, what `LOOPB` leaves in entry 0 or pops, the snapshot at an exit,
and the words of `LOOPB`. -/

namespace Sys2Proof.Machine

/-- What follows from what a word does. -/
theorem Runs.imp {i : Instr} {s : State} {P Q : State → Prop} (h : Runs i s P) (hPQ : ∀ t, P t → Q t) : Runs i s Q := by
  obtain ⟨t, hexec, hP⟩ := h
  exact ⟨t, hexec, hPQ t hP⟩

/-! Changes of the loop stack and the snapshots. -/

/-- Nothing of a core changes but its loop stack and the chart's snapshots. -/
structure OnlyLoops (a b : Core) : Prop where
  pc : b.seq.pc = a.seq.pc
  psum : b.seq.psum = a.seq.psum
  w : b.task.w = a.task.w
  noReg : NoReg a b
  units : KeepsUnits a b

theorem OnlyLoops.refl (a : Core) : OnlyLoops a a := ⟨rfl, rfl, rfl, fun _ => rfl, KeepsUnits.refl a⟩

theorem OnlyLoops.trans {a b c : Core} (h : OnlyLoops a b) (g : OnlyLoops b c) : OnlyLoops a c :=
  ⟨g.pc.trans h.pc, g.psum.trans h.psum, g.w.trans h.w, fun r => (g.noReg r).trans (h.noReg r), h.units.trans g.units⟩

theorem onlyLoops_setLstk (c : Core) (j : Nat) (e : BitVec 128) : OnlyLoops c (setLstk c j e) := by
  refine ⟨rfl, rfl, rfl, fun _ => rfl, ?_, ?_, rfl⟩ <;> constructor <;> rfl

theorem onlyLoops_takeSnapshot (c : Core) (time : Nat) (pc : BitVec 32) : OnlyLoops c (takeSnapshot c time pc) := by
  simp only [takeSnapshot]
  split <;> refine ⟨rfl, rfl, rfl, fun _ => rfl, ?_, ?_, rfl⟩ <;> constructor <;> rfl

/-- LOOP's push: the entries move down and `e` becomes the innermost (R123). -/
def pushLoop (c : Core) (e : BitVec 128) : Core :=
  setLstk (setLstk (setLstk (setLstk c 3 (lstk c 2)) 2 (lstk c 1)) 1 (lstk c 0)) 0 e

/-- LOOPB's pop: the entries move up and entry 3 is cleared (R124). -/
def popLoop (c : Core) : Core :=
  setLstk (setLstk (setLstk (setLstk c 0 (lstk c 1)) 1 (lstk c 2)) 2 (lstk c 3)) 3 0

theorem onlyLoops_pushLoop (c : Core) (e : BitVec 128) : OnlyLoops c (pushLoop c e) :=
  (((onlyLoops_setLstk _ _ _).trans (onlyLoops_setLstk _ _ _)).trans (onlyLoops_setLstk _ _ _)).trans (onlyLoops_setLstk _ _ _)

theorem onlyLoops_popLoop (c : Core) : OnlyLoops c (popLoop c) :=
  (((onlyLoops_setLstk _ _ _).trans (onlyLoops_setLstk _ _ _)).trans (onlyLoops_setLstk _ _ _)).trans (onlyLoops_setLstk _ _ _)

theorem lstk_pushLoop_zero (c : Core) (e : BitVec 128) : lstk (pushLoop c e) 0 = e := by simp [pushLoop, lstk_setLstk]

theorem lstk_pushLoop_succ (c : Core) (e : BitVec 128) {j : Nat} (hj : j < 3) : lstk (pushLoop c e) (j + 1) = lstk c j := by
  interval_cases j <;> simp [pushLoop, lstk_setLstk]

theorem lstk_popLoop (c : Core) {j : Nat} (hj : j < 3) : lstk (popLoop c) j = lstk c (j + 1) := by
  interval_cases j <;> simp [popLoop, lstk_setLstk]

theorem lstk_popLoop_three (c : Core) : lstk (popLoop c) 3 = 0 := by simp [popLoop, lstk_setLstk]

@[simp] theorem snapWord_popLoop (c : Core) (h k : Nat) : snapWord (popLoop c) h k = snapWord c h k := by
  simp only [popLoop, snapWord_setLstk]

@[simp] theorem setLstk_cn (c : Core) (j : Nat) (e : BitVec 128) : (setLstk c j e).cn = c.cn := rfl
@[simp] theorem pushLoop_cn (c : Core) (e : BitVec 128) : (pushLoop c e).cn = c.cn := by simp only [pushLoop, setLstk_cn]
@[simp] theorem popLoop_cn (c : Core) : (popLoop c).cn = c.cn := by simp only [popLoop, setLstk_cn]

@[simp] theorem takeSnapshot_snapN (c : Core) (time : Nat) (pc : BitVec 32) : (takeSnapshot c time pc).cn.snapN = c.cn.snapN + 1 := by
  simp only [takeSnapshot]; split <;> rfl

/-! A word that changes only the loop stack and the snapshots. -/

/-- From `s` to `t` one word has executed that goes on at `pc`; the loop stack, the snapshots and the counters are those of `c`, but for
the event that counts the word, and beside them nothing changes. -/
structure LoopStep (s t : State) (pc : BitVec 32) (c : Core) : Prop where
  went : WentTo s.me t.me pc
  noReg : NoReg s.me t.me
  lstk : t.me.seq.lstk = c.seq.lstk
  cn : t.me.cn = { c.cn with events := t.me.cn.events }
  psum : t.me.seq.psum = s.me.seq.psum
  units : KeepsUnits s.me t.me
  rest : KeepsRest s t

theorem LoopStep.lstk_eq {s t : State} {pc : BitVec 32} {c : Core} (h : LoopStep s t pc c) (j : Nat) :
    Machine.lstk t.me j = Machine.lstk c j := by
  rw [Machine.lstk, h.lstk, Machine.lstk]

theorem LoopStep.cn_eq {s t : State} {pc : BitVec 32} {c : Core} (h : LoopStep s t pc c) (hc : c.cn = s.me.cn) :
    t.me.cn = { s.me.cn with events := t.me.cn.events } := by
  rw [← hc]; exact h.cn

theorem LoopStep.snapN_eq {s t : State} {pc : BitVec 32} {c : Core} (h : LoopStep s t pc c) : t.me.cn.snapN = c.cn.snapN := by
  rw [h.cn]

theorem LoopStep.snapWord_eq {s t : State} {pc : BitVec 32} {c : Core} (h : LoopStep s t pc c) (half k : Nat) :
    snapWord t.me half k = snapWord c half k := by
  have h0 : t.me.cn.snap0 = c.cn.snap0 := by rw [h.cn]
  have h1 : t.me.cn.snap1 = c.cn.snap1 := by rw [h.cn]
  rw [snapWord, h0, h1, snapWord]

theorem jumpNext_loops {i : Instr} {s : State} {pc : BitVec 32} {gap : Nat} {f : Core → Core} (hexec : exec i s = jumpNext s pc gap f)
    (hf : OnlyLoops s.me (f s.me)) : Runs i s fun t => LoopStep s t pc (f s.me) := by
  refine ⟨_, hexec, ⟨?_, ?_⟩, ?_, ?_, ?_, ?_, ?_, keepsRest_onMe _ _⟩ <;> rw [State.me_onMe]
  · rw [retire_pc, setPc_pc]
  · rw [retire_w]; exact congrArg (· + 1) hf.w
  · exact hf.noReg
  · rfl
  · rfl
  · exact hf.psum
  · exact (hf.units.trans (keepsUnits_setPc _ _)).trans (keepsUnits_retire _ _ _)

/-- Going on at the next word is a jump to it. -/
theorem coreNext_eq_jumpNext (s : State) (f : Core → Core) (hpc : (f s.me).seq.pc = s.me.seq.pc) :
    coreNext s f = jumpNext s (s.me.seq.pc + 1) 1 f := by
  rw [coreNext, jumpNext, State.onMe, State.onMe, stepPc, setPc, hpc]

theorem coreNext_loops {i : Instr} {s : State} {f : Core → Core} (hexec : exec i s = coreNext s f) (hf : OnlyLoops s.me (f s.me)) :
    Runs i s fun t => LoopStep s t (s.me.seq.pc + 1) (f s.me) :=
  jumpNext_loops (hexec.trans (coreNext_eq_jumpNext s f hf.pc)) hf

/-! LOOP (R123). -/

/-- The entry that LOOP opens (R123). -/
def openedEntry (o : LoopOp) (c : Core) : BitVec 128 :=
  let cnt : BitVec 32 := (getS c o.sa).setWidth 32
  let top := lstk c 0
  if o.norot = 1 then
    if lpValid top = 1 then lpMake cnt (lpNr top) 1 (lpVrb top) (lpPrb top) 1 c.seq.pc else lpMake cnt 0 1 0 0 1 c.seq.pc
  else lpMake cnt o.nr 0 0 0 1 c.seq.pc

theorem openedEntry_of_rotating {o : LoopOp} {c : Core} (hrot : o.norot = 0) :
    openedEntry o c = lpMake ((getS c o.sa).setWidth 32) o.nr 0 0 0 1 c.seq.pc := by
  rw [openedEntry, hrot, if_neg (by decide)]

theorem openedEntry_of_norot {o : LoopOp} {c : Core} (hrot : o.norot = 1) :
    openedEntry o c = lpMake ((getS c o.sa).setWidth 32) (if lpValid (lstk c 0) = 1 then lpNr (lstk c 0) else 0) 1
      (if lpValid (lstk c 0) = 1 then lpVrb (lstk c 0) else 0) (if lpValid (lstk c 0) = 1 then lpPrb (lstk c 0) else 0) 1 c.seq.pc := by
  rw [openedEntry, if_pos hrot]
  by_cases hv : lpValid (lstk c 0) = 1 <;> simp only [hv, if_true, if_false]

/-- The fields of the new entry that do not depend on the loop around it. -/
theorem openedEntry_fields (o : LoopOp) (c : Core) : lpCnt (openedEntry o c) = (getS c o.sa).setWidth 32 ∧
    lpValid (openedEntry o c) = 1 ∧ lpPc (openedEntry o c) = c.seq.pc ∧ lpNorot (openedEntry o c) = o.norot := by
  rcases BitVec.eq_zero_or_eq_one o.norot with hrot | hrot
  · rw [openedEntry_of_rotating hrot]; simp [hrot]
  · rw [openedEntry_of_norot hrot]; simp [hrot]

theorem exec_loop_full {s : State} (o : LoopOp) (hfull : lpValid (lstk s.me 3) = 1) :
    exec (.loop o) s = illegalAt s 5 (wordOf (.loop o)) := if_pos hfull

theorem exec_loop_zero {s : State} {o : LoopOp} (hroom : lpValid (lstk s.me 3) = 0)
    (hcnt : (getS s.me o.sa).setWidth 32 = (0 : BitVec 32)) :
    exec (.loop o) s = jumpNext s (s.me.seq.pc + o.len.setWidth 32 + 1) 2 id := by
  change execLoop o s = _
  rw [execLoop, hroom, if_neg (by decide), if_pos hcnt]
  rfl

theorem exec_loop_open {s : State} {o : LoopOp} (hroom : lpValid (lstk s.me 3) = 0)
    (hcnt : (getS s.me o.sa).setWidth 32 ≠ (0 : BitVec 32)) :
    exec (.loop o) s = coreNext s (pushLoop · (openedEntry o s.me)) := by
  change execLoop o s = _
  rw [execLoop, hroom, if_neg (by decide), if_neg hcnt]
  rfl

/-! LOOPB (R124). -/

theorem lpRotate_of_norot {e : BitVec 128} (hrot : lpNorot e = 1) : lpRotate e = e := if_pos hrot

theorem lpRotate_of_rotating {e : BitVec 128} (hrot : lpNorot e = 0) : lpRotate e =
    lpMake (lpCnt e) (lpNr e) 0 (if lpNr e = 0 then lpVrb e
      else BitVec.ofNat 10 (((lpVrb e).toNat + 8 * (lpNr e).toNat - 1) % (8 * (lpNr e).toNat)))
      (BitVec.ofNat 3 (((lpPrb e).toNat + 7) % 8)) (lpValid e) (lpPc e) :=
  if_neg (by rw [hrot]; decide)

/-- The rotation step touches the bases alone. -/
theorem lpRotate_fields (e : BitVec 128) : lpCnt (lpRotate e) = lpCnt e ∧ lpNr (lpRotate e) = lpNr e ∧
    lpNorot (lpRotate e) = lpNorot e ∧ lpValid (lpRotate e) = lpValid e ∧ lpPc (lpRotate e) = lpPc e := by
  obtain hrot | hrot := BitVec.eq_zero_or_eq_one (lpNorot e)
  · rw [lpRotate_of_rotating hrot]; simp [hrot]
  · rw [lpRotate_of_norot hrot]; simp

theorem lpPrb_lpRotate {e : BitVec 128} (hrot : lpNorot e = 0) : (lpPrb (lpRotate e)).toNat = ((lpPrb e).toNat + 7) % 8 := by
  rw [lpRotate_of_rotating hrot, lpPrb_lpMake, BitVec.toNat_ofNat]
  exact Nat.mod_mod _ _

theorem lpVrb_lpRotate_of_nr_zero {e : BitVec 128} (hrot : lpNorot e = 0) (hnr : lpNr e = 0) : lpVrb (lpRotate e) = lpVrb e := by
  rw [lpRotate_of_rotating hrot, lpVrb_lpMake, if_pos hnr]

/-- A region holds at most 8 · 127 registers, so its base fits the field. -/
theorem lpVrb_lpRotate {e : BitVec 128} (hrot : lpNorot e = 0) (hnr : lpNr e ≠ 0) :
    (lpVrb (lpRotate e)).toNat = ((lpVrb e).toNat + 8 * (lpNr e).toNat - 1) % (8 * (lpNr e).toNat) := by
  rw [lpRotate_of_rotating hrot, lpVrb_lpMake, if_neg hnr, BitVec.toNat_ofNat]
  have hpos : (lpNr e).toNat ≠ 0 := fun h => hnr (BitVec.eq_of_toNat_eq h)
  have hmod := Nat.mod_lt ((lpVrb e).toNat + 8 * (lpNr e).toNat - 1) (y := 8 * (lpNr e).toNat) (by omega)
  have hmax := (lpNr e).isLt
  exact Nat.mod_eq_of_lt (by omega)

/-- The entry as LOOPB leaves it when it goes round: rotated, one iteration fewer (R124). -/
def nextRound (e : BitVec 128) : BitVec 128 :=
  let r := lpRotate e
  lpMake (lpCnt r - 1) (lpNr r) (lpNorot r) (lpVrb r) (lpPrb r) (lpValid r) (lpPc r)

theorem nextRound_fields (e : BitVec 128) : lpCnt (nextRound e) = lpCnt e - 1 ∧ lpNr (nextRound e) = lpNr e ∧
    lpNorot (nextRound e) = lpNorot e ∧ lpValid (nextRound e) = lpValid e ∧ lpPc (nextRound e) = lpPc e := by
  obtain ⟨hcnt, hnr, hnorot, hvalid, hpc⟩ := lpRotate_fields e
  simp [nextRound, hcnt, hnr, hnorot, hvalid, hpc]

theorem lpVrb_nextRound (e : BitVec 128) : lpVrb (nextRound e) = lpVrb (lpRotate e) := lpVrb_lpMake ..
theorem lpPrb_nextRound (e : BitVec 128) : lpPrb (nextRound e) = lpPrb (lpRotate e) := lpPrb_lpMake ..

theorem exec_loopb_open {s : State} (o : LoopbOp) (hopen : lpValid (lstk s.me 0) = 1) :
    exec (.loopb o) s = if 1 < (lpCnt (lstk s.me 0)).toNat then
        jumpNext s (s.me.seq.pc + o.off.signExtend 32) 1 (setLstk · 0 (nextRound (lstk s.me 0)))
      else loopExit s (lstk s.me 0) := by
  rw [← (lpRotate_fields (lstk s.me 0)).left]
  exact if_neg (by rw [hopen]; decide)

/-- A loop is left by LOOPB on the last round, or by BREAK (R124). -/
theorem exec_eq_loopExit {s : State} {i : Instr} (hopen : lpValid (lstk s.me 0) = 1)
    (hi : i = .loopbBreak ∨ (lpCnt (lstk s.me 0)).toNat ≤ 1 ∧ ∃ o, i = .loopb o) : exec i s = loopExit s (lstk s.me 0) := by
  obtain rfl | ⟨hcnt, o, rfl⟩ := hi
  · exact if_neg (by rw [hopen]; decide)
  · rw [exec_loopb_open o hopen, if_neg (Nat.not_lt.mpr hcnt)]

theorem exec_loopb_none {s : State} {i : Instr} (hnone : lpValid (lstk s.me 0) = 0) (hi : i = .loopbBreak ∨ ∃ o, i = .loopb o) :
    exec i s = illegalAt s 5 (wordOf i) := by
  obtain rfl | ⟨o, rfl⟩ := hi <;> exact if_pos hnone

/-- ILLEGAL OPERAND records the word itself (R82). -/
theorem raisesAt_of_illegal_operand {i : Instr} {s : State} {w : IWord} (henc : encode i = some w)
    (hexec : exec i s = illegalAt s 5 (wordOf i)) : RaisesAt i s 0x01 5 (w.setWidth 64) := by
  rw [wordOf, henc] at hexec
  exact illegalAt_spec hexec

/-! The words of LOOPB (R124). -/

/-- sb is BRK under its reserved bits. -/
theorem fld_sb_toNat (w : IWord) : (fld w 26 6).toNat = (fld w 26 1).toNat + 2 * (fld w 27 5).toNat := by
  simp only [fld_toNat]; omega

theorem fld_sa_sb_eq_zero_iff {w : IWord} : fld w 26 12 = 0 ↔ fld w 32 6 = 0 ∧ fld w 26 6 = 0 := by
  simp only [fld_eq_zero_iff]; omega

/-- UNIT 2 and OP 0x0D: sb, whose low bit is BRK, selects among three cases. -/
theorem decode_loopbWord_sb {w : IWord} (hunit : fld w 44 4 = 2) (hop : fld w 38 6 = 0x0D) :
    (fld w 26 6 = 0 → decode w = if fld w 26 12 = 0 then .ok (.loopb ⟨fld w 0 26⟩) else .illegal 3) ∧
    (fld w 26 6 = 1 → decode w = if fld w 32 6 = 0 ∧ fld w 0 26 = 0 then .ok .loopbBreak else .illegal 3) ∧
    (2 ≤ (fld w 26 6).toNat → decode w = .illegal 3) := by
  have hw : w ≠ 0 := by rintro rfl; exact absurd hunit (by decide)
  have hrow : decode w = decodeU2 w := by rw [decode, if_neg hw, hunit]; rfl
  rw [hrow, decodeU2, hop]
  refine ⟨fun hsb => ?_, fun hsb => ?_, fun hsb => ?_⟩
  · rw [hsb]; rfl
  · rw [hsb]; rfl
  · obtain ⟨n, hn⟩ := Nat.exists_eq_add_of_le' hsb
    rw [hn]; rfl

/-- sa and sb[5:1] are reserved, and under BRK off26 is reserved too (R81, R124). -/
theorem decode_loopbWord {w : IWord} (hunit : fld w 44 4 = 2) (hop : fld w 38 6 = 0x0D) :
    decode w = if fld w 32 6 = 0 ∧ fld w 27 5 = 0 then
        if fld w 26 1 = 0 then .ok (.loopb ⟨fld w 0 26⟩) else if fld w 0 26 = 0 then .ok .loopbBreak else .illegal 3
      else .illegal 3 := by
  obtain ⟨hloopb, hbreak, hother⟩ := decode_loopbWord_sb hunit hop
  have hsb := fld_sb_toNat w
  by_cases hres : fld w 27 5 = 0
  · obtain hbrk | hbrk : fld w 26 1 = 0 ∨ fld w 26 1 = 1 := BitVec.eq_zero_or_eq_one _
    · have hsb0 : fld w 26 6 = 0 := BitVec.eq_of_toNat_eq (by rw [hsb, hres, hbrk]; rfl)
      rw [hloopb hsb0, if_pos hbrk]
      simp only [fld_sa_sb_eq_zero_iff, hsb0, hres]
    · have hsb1 : fld w 26 6 = 1 := BitVec.eq_of_toNat_eq (by rw [hsb, hres, hbrk]; rfl)
      rw [hbreak hsb1, hbrk, if_neg (c := (1 : BitVec 1) = 0) (by decide), ite_and]
      simp only [hres, and_true]
  · have hpos : (fld w 27 5).toNat ≠ 0 := fun h => hres (BitVec.eq_of_toNat_eq h)
    rw [hother (by omega), if_neg fun h => hres h.2]

/-! The clauses of the statement. -/

theorem runs_loop_zero {s : State} {o : LoopOp} (hroom : lpValid (lstk s.me 3) = 0)
    (hcnt : (getS s.me o.sa).setWidth 32 = (0 : BitVec 32)) :
    Runs (.loop o) s (LoopStep s · (s.me.seq.pc + o.len.setWidth 32 + 1) s.me) :=
  jumpNext_loops (exec_loop_zero hroom hcnt) (OnlyLoops.refl _)

theorem runs_loop_open {s : State} {o : LoopOp} (hroom : lpValid (lstk s.me 3) = 0)
    (hcnt : (getS s.me o.sa).setWidth 32 ≠ (0 : BitVec 32)) :
    Runs (.loop o) s (LoopStep s · (s.me.seq.pc + 1) (pushLoop s.me (openedEntry o s.me))) :=
  coreNext_loops (exec_loop_open hroom hcnt) (onlyLoops_pushLoop _ _)

theorem runs_loopb_round {s : State} (o : LoopbOp) (hopen : lpValid (lstk s.me 0) = 1) (hcnt : 1 < (lpCnt (lstk s.me 0)).toNat) :
    Runs (.loopb o) s (LoopStep s · (s.me.seq.pc + o.off.signExtend 32) (setLstk s.me 0 (nextRound (lstk s.me 0)))) :=
  jumpNext_loops ((exec_loopb_open o hopen).trans (if_pos hcnt)) (onlyLoops_setLstk _ _ _)

theorem runs_loop_exit {s : State} {i : Instr} (hopen : lpValid (lstk s.me 0) = 1)
    (hi : i = .loopbBreak ∨ (lpCnt (lstk s.me 0)).toNat ≤ 1 ∧ ∃ o, i = .loopb o) :
    Runs i s (LoopStep s · (s.me.seq.pc + 1) (popLoop (takeSnapshot s.me s.time (lpPc (lstk s.me 0))))) :=
  coreNext_loops (f := fun c => popLoop (takeSnapshot c s.time (lpPc (lstk s.me 0)))) (exec_eq_loopExit hopen hi)
    ((onlyLoops_takeSnapshot _ _ _).trans (onlyLoops_popLoop _))

/-- Settles O7: each clause reads off what one word leaves (`LoopStep`): the entry that LOOP pushes, the entry of the next round, the popped
stack with its snapshot (number and half after log entry 13); with no room or no loop the word raises ILLEGAL, and its row of the decoder
gives the words. -/
theorem hardwareLoops : Obligations.HardwareLoops := by
  refine ⟨fun s o hroom => ⟨fun hcnt => ?zero, fun hcnt => ?opened⟩, ?full, ?round, ?exit, ?none, ?words⟩
  case zero =>
    exact (runs_loop_zero hroom hcnt).imp fun t h => ⟨h.went, h.noReg, ⟨h.lstk, h.psum⟩, h.cn, h.units, h.rest⟩
  case opened =>
    refine (runs_loop_open hroom hcnt).imp fun t h => ?_
    have htop : lstk t.me 0 = openedEntry o s.me := (h.lstk_eq 0).trans (lstk_pushLoop_zero _ _)
    have hbelow : ∀ {j}, j < 3 → lstk t.me (j + 1) = lstk s.me j := fun hj => (h.lstk_eq _).trans (lstk_pushLoop_succ _ _ hj)
    obtain ⟨hnewCnt, hvalid, hpc, hnorot⟩ := openedEntry_fields o s.me
    rw [htop]
    refine ⟨h.went, h.noReg, hbelow (by decide), hbelow (by decide), hbelow (by decide), hnewCnt, hvalid, hpc, hnorot,
      fun hrot => ?_, fun hrot => ?_, h.cn_eq (pushLoop_cn _ _), h.psum, h.units, h.rest⟩
    · simp [openedEntry_of_rotating hrot]
    · simp [openedEntry_of_norot hrot]
  case full =>
    intro s o w hfull henc
    exact raisesAt_of_illegal_operand henc (exec_loop_full o hfull)
  case round =>
    intro s o e hopen hcnt
    refine (runs_loopb_round o hopen hcnt).imp fun t h => ?_
    have htop : lstk t.me 0 = nextRound e := (h.lstk_eq 0).trans ((lstk_setLstk _ _ _ _).trans (if_pos rfl))
    have hbelow : ∀ j, j ≠ 0 → lstk t.me j = lstk s.me j := fun j hj => (h.lstk_eq j).trans ((lstk_setLstk _ _ _ _).trans (if_neg hj))
    obtain ⟨hnewCnt, hnr, hnorot, hvalid, hpc⟩ := nextRound_fields e
    rw [htop, lpVrb_nextRound, lpPrb_nextRound]
    exact ⟨h.went, h.noReg, hnewCnt, hpc, hvalid.trans hopen, hnr, hnorot,
      fun hrot => ⟨congrArg lpVrb (lpRotate_of_norot hrot), congrArg lpPrb (lpRotate_of_norot hrot)⟩,
      fun hrot => ⟨lpPrb_lpRotate hrot, lpVrb_lpRotate_of_nr_zero hrot, lpVrb_lpRotate hrot⟩, hbelow,
      h.cn_eq (setLstk_cn _ _ _), h.psum, h.units, h.rest⟩
  case exit =>
    intro s i e hopen hi
    refine (runs_loop_exit hopen hi).imp fun t h => ?_
    have hsnapN : t.me.cn.snapN = s.me.cn.snapN + 1 := by rw [h.snapN_eq, popLoop_cn, takeSnapshot_snapN]
    have hup : ∀ {j}, j < 3 → lstk t.me j = lstk s.me (j + 1) := fun hj =>
      (h.lstk_eq _).trans ((lstk_popLoop _ hj).trans (lstk_takeSnapshot ..))
    simp only [h.snapWord_eq, snapWord_popLoop]
    exact ⟨h.went, h.noReg, hup (by decide), hup (by decide), hup (by decide), (h.lstk_eq 3).trans (lstk_popLoop_three _),
      snapWord_written _ _ _, snapWord_other _ _ _, hsnapN, h.units.chart, h.units.cnt, h.units.k, h.psum, h.units, h.rest⟩
  case none =>
    intro s i w hnone hi henc
    exact raisesAt_of_illegal_operand henc (exec_loopb_none hnone hi)
  case words =>
    intro w hunit hop
    rw [decode_loopbWord hunit hop]
    refine ⟨fun hsa hres hbrk => ?_, fun hsa hres hbrk hoff => ?_, ?_⟩
    · rw [if_pos ⟨hsa, hres⟩, if_pos hbrk]
    · rw [if_pos ⟨hsa, hres⟩, hbrk, if_neg (by decide), if_pos hoff]
    · rintro (hsa | hres | ⟨hbrk, hoff⟩)
      · rw [if_neg fun h => hsa h.1]
      · rw [if_neg fun h => hres h.2]
      · rw [hbrk, if_neg (c := (1 : BitVec 1) = 0) (by decide), if_neg hoff, ite_self]

end Sys2Proof.Machine
end
